-- ==== Sys2Proof/Word.lean ====
section
/-! DEFINITION. The word types of the Planan L25 (00_scope R3, R4) and their plainest arithmetic. -/

namespace Sys2Proof

/-- A byte (R4). -/
abbrev Byte := BitVec 8
/-- A 32-bit register word. -/
abbrev Word := BitVec 32
/-- A 64-bit value: an even register pair, an address, a record word. -/
abbrev DWord := BitVec 64
/-- A lane mask: lane `l` is bit `l` (R105). -/
abbrev Mask := BitVec 1024

/-- The integer an `n`-bit value stands for when read signed (R8 SignExt) or unsigned (R8 ZeroExt). -/
def readInt {n : Nat} (signed : Bool) (x : BitVec n) : Int :=
  if signed then x.toInt else (x.toNat : Int)

/-- `Bits(x, hi, lo)` of Table 0-2, on a natural number. -/
def natBits (x hi lo : Nat) : Nat := x / 2 ^ lo % 2 ^ (hi - lo + 1)

/-- `SerialGE(a, b)` of R8 and R9. -/
def serialGE (a b : Word) : Bool := decide ((a - b).toNat < 2 ^ 31)

/-- The low and high words of a 64-bit pair (00_scope, Registers: the lower number holds bits 31:0). -/
def loWord (x : DWord) : Word := x.extractLsb' 0 32
def hiWord (x : DWord) : Word := x.extractLsb' 32 32
def pairWord (lo hi : Word) : DWord := hi ++ lo

/-- `n` bytes of a number, lowest first (R4). -/
def leBytes : Nat → Nat → List Byte
  | 0, _ => []
  | n + 1, x => BitVec.ofNat 8 x :: leBytes n (x / 256)

/-- The number a list of bytes holds, lowest address first (R4). -/
def leNat : List Byte → Nat
  | [] => 0
  | b :: bs => b.toNat + 256 * leNat bs

/-- `x` as a multiple of `n`, rounded up. -/
def ceilDiv (a b : Nat) : Nat := (a + b - 1) / b

end Sys2Proof
end

