-- ==== Sys2Proof/Syntax.lean ====
section
/-! DEFINITION. The whole syntax: one constructor of `Instr` per row of spec/opcode_table.json, 181 instruction words
and 88 events. An instruction word carries its operands as fields (05_instruction_words); an event carries the data
that the outside world, or the choice of which pending item moves, gives it (95_what_each_step_holds). -/

namespace Sys2Proof

/-- A 10-bit operand field (R74): class 00 direct vector, 01 scalar, 10 indirect vector, 11 special code. -/
inductive Operand
  | v (n : BitVec 8)
  | s (n : BitVec 6)
  | ind (ix : BitVec 2) (base : BitVec 6)
  | k (code : BitVec 8)
deriving DecidableEq, Repr

/-- The number of a scalar register, s0 to s63, in a position that takes nothing but class 01. -/
abbrev SReg := BitVec 6

/-- The guard of a lane-scope word (R72): PRED 7 means always. -/
structure Guard where
  pred : BitVec 3
  neg : Bool
deriving DecidableEq, Repr

/-- No guard. -/
def Guard.always : Guard := { pred := 7, neg := false }

/-- Integer types (Table 5-6). -/
inductive ITy | i32 | n32 | i64 | n64 | i16x2 | n16x2 | i8x4 | n8x4
deriving DecidableEq, Repr

/-- Float types (Table 5-6). -/
inductive FTy | f32 | f64 | f16x2 | bf16x2
deriving DecidableEq, Repr

/-- Rounding modes (R80, R156). -/
inductive Rm | ne | tz | up | dn
deriving DecidableEq, Repr

/-- Size codes of memory accesses (Table 5-6). -/
inductive Sz | b8 | b16 | b32 | b64 | b128
deriving DecidableEq, Repr

/-- Integer conditions (R144). -/
inductive Cc | eq | ne | lt | le | gt | ge
deriving DecidableEq, Repr

/-- Float conditions (R181). -/
inductive Fcc | eq | ne | lt | le | gt | ge | un | or
deriving DecidableEq, Repr

/-- Atomic types (Table 12-5). -/
inductive ATy | i32 | n32 | i64 | n64 | f32 | f64 | f16x2 | bf16x2
deriving DecidableEq, Repr

/-- Atomic operations (Table 12-5). -/
inductive AOp | add | min | max | and | or | xor | exch | cas
deriving DecidableEq, Repr

/-- Scopes (Table 16-1). -/
inductive Scope | team | crew | cluster | island | panel | sys
deriving DecidableEq, Repr

/-- Orderings of an atomic (Table 12-4) and of FENCE (R343). -/
inductive Ord | relaxed | acq | rel | ar
deriving DecidableEq, Repr

/-- Types of CVT (Table 10-6). -/
inductive CTy | i32 | n32 | i64 | n64 | i16 | n16 | i8 | n8 | f32 | f64 | f16 | bf16 | lns6
deriving DecidableEq, Repr

/-- Operations of VRED and VSCAN (R192). -/
inductive ROp | add | min | max | and | or | xor
deriving DecidableEq, Repr

/-- Types of VRED and VSCAN (R192). -/
inductive RTy | i32 | n32 | i64 | n64 | f32 | f64
deriving DecidableEq, Repr

/-- Partner modes of SHFL and PSHW (R188). -/
inductive ShMode | idx | up | down | xor
deriving DecidableEq, Repr

/-- Spaces (Table 11-1). -/
inductive Space | global | lspace | aspace | wspace | cspace
deriving DecidableEq, Repr

/-- Matrix element formats (Table 8-9). -/
inductive MFmt | bf16 | fp16 | int8 | lns6
deriving DecidableEq, Repr

/-- Items of QRY (Table 8-6). -/
inductive QryItem
  | grade | nisl | lrows | lcols | llast | icores | pcores | topo | lanes | teams | vregs | extent | nset | setrank
  | cycle
deriving DecidableEq, Repr

/-- Source of SETFMT (R148). -/
inductive FmtSrc
  | imm (x : BitVec 24)
  | reg (s : SReg)
deriving DecidableEq, Repr

/-- Where MMA takes its A rows (R291). -/
inductive MmaSrc
  | plain (asrc : SReg)
  | feedback (tile : BitVec 3) (transposed : Bool)
deriving DecidableEq, Repr

/-- Forms of MITER (Table 15-5). -/
inductive MiterForm | inv | cubic | quint
deriving DecidableEq, Repr

/-- Engines of TLRD and TLWT (R356). -/
inductive Eng | cp | mx | cl
deriving DecidableEq, Repr

/-- What TLRD reads (R356). -/
inductive TlMode | value | issued | addr
deriving DecidableEq, Repr

/-- Collective operations (R362). -/
inductive COpn | ar | rs | ag | a2a | bc
deriving DecidableEq, Repr

/-- Pair opcodes (R82, Tables 5-9 and 5-10). -/
inductive Pop
  | vadd | vsub | vmul | vmin | vmax | vand | vor | vxor | vshl | vshr | vsra | vmov
  | fadd | fsub | fmul | fmin | fmax
deriving DecidableEq, Repr

/-- Guards of a pair-word half (Table 5-7). -/
inductive HPred | always | p0 | p1 | notP0
deriving DecidableEq, Repr

/-- One half of a pair word (Table 5-7). -/
structure Half where
  pop : Pop
  hpred : HPred
  imm : Bool
  d : BitVec 8
  s : BitVec 8
deriving DecidableEq, Repr

/-- The barrier operand of an engine command (R243, R286): the register holding the object's L-space offset. -/
abbrev Bar := Option SReg

/-- What an uncorrectable error strikes (R390): a team's register file, a core's L-space or A-space, a fondant die, a line of
an L1 or L2, or a sector of HBM4E. -/
inductive UeSite
  | registers (team : Nat)
  | lspace (crew : Nat)
  | aspace (crew : Nat)
  | fondant (isl cluster : Nat)
  | sector (pa : Nat)
  | line (pa : Nat)
deriving DecidableEq, Repr

/-- The UDP checksum of a datagram as the MAC finds it (R36). -/
inductive UdpSum
  | zero | good | bad
deriving DecidableEq, Repr
/-- What a request port sees of a frame besides its addresses and payload (R36): whether its FCS is good, whether it is IPv6,
and its UDP checksum. -/
structure Frame where
  fcs : Bool
  v6 : Bool
  sum : UdpSum
deriving DecidableEq, Repr

/-- What a host access to panel global memory does. -/
inductive HostAcc
  | read (n : Nat)
  | write (bytes : List Byte)
deriving DecidableEq, Repr

/-- One sampled wavelength of a window (R261, R264): waveguide, wavelength (16 is the spare), corrected errors of the
window, eye margin in percent of the trained margin. -/
structure LaneSample where
  guide : Nat
  wl : Nat
  errors : Nat
  margin : Nat
deriving DecidableEq, Repr

/-- An image that boot reads, with its signature (R414). -/
structure BootImage where
  bytes : List Byte
  sig : BitVec 512
deriving DecidableEq, Repr

/-- One constructor per row of spec/opcode_table.json. -/
inductive Instr
  -- group 0: control, scalar and team instructions
  | nop
  | bra (disp : BitVec 24)
  | brc (c : SReg) (disp : BitVec 24)
  | brv (g : Guard) (c : Operand) (disp : BitVec 24)
  | join
  | brk (g : Guard) (c : Operand) (disp : BitVec 24)
  | call (disp : BitVec 24)
  | callr (a : SReg)
  | ret
  | jmpr (a : SReg)
  | exit (g : Guard) (crew : Bool)
  | yield
  | trap (code : BitVec 16)
  | mark
  | spawn (g : Guard) (pay dest : Operand) (entry : BitVec 8) (lenm1 : BitVec 4) (pd : BitVec 3)
  | qry (d : SReg) (item : QryItem)
  | sreg (d : SReg) (a : Operand)
  | smov (t : ITy) (d : SReg) (a : Operand)
  | smovi (t : ITy) (d : SReg) (imm : BitVec 24)
  | smovh (d : SReg) (imm : BitVec 24)
  | sadd (t : ITy) (d : SReg) (a b : Operand)
  | saddImm (t : ITy) (d : SReg) (a : Operand) (imm : BitVec 24)
  | ssub (t : ITy) (d : SReg) (a b : Operand)
  | ssubImm (t : ITy) (d : SReg) (a : Operand) (imm : BitVec 24)
  | smul (t : ITy) (d : SReg) (a b : Operand)
  | smulImm (t : ITy) (d : SReg) (a : Operand) (imm : BitVec 24)
  | smulh (t : ITy) (d : SReg) (a b : Operand)
  | sdiv (t : ITy) (d : SReg) (a b : Operand)
  | srem (t : ITy) (d : SReg) (a b : Operand)
  | sand (t : ITy) (d : SReg) (a b : Operand)
  | sandImm (t : ITy) (d : SReg) (a : Operand) (imm : BitVec 24)
  | sor (t : ITy) (d : SReg) (a b : Operand)
  | sorImm (t : ITy) (d : SReg) (a : Operand) (imm : BitVec 24)
  | sxor (t : ITy) (d : SReg) (a b : Operand)
  | sxorImm (t : ITy) (d : SReg) (a : Operand) (imm : BitVec 24)
  | sshl (t : ITy) (d : SReg) (a b : Operand)
  | sshlImm (t : ITy) (d : SReg) (a : Operand) (imm : BitVec 24)
  | sshr (t : ITy) (d : SReg) (a b : Operand)
  | sshrImm (t : ITy) (d : SReg) (a : Operand) (imm : BitVec 24)
  | ssra (t : ITy) (d : SReg) (a b : Operand)
  | ssraImm (t : ITy) (d : SReg) (a : Operand) (imm : BitVec 24)
  | smin (t : ITy) (d : SReg) (a b : Operand)
  | sminImm (t : ITy) (d : SReg) (a : Operand) (imm : BitVec 24)
  | smax (t : ITy) (d : SReg) (a b : Operand)
  | smaxImm (t : ITy) (d : SReg) (a : Operand) (imm : BitVec 24)
  | scmp (t : ITy) (cc : Cc) (d : SReg) (a b : Operand)
  | ssel (t : ITy) (d : SReg) (a b c : Operand)
  | sbfe (t : ITy) (d : SReg) (a b : Operand)
  | sbfi (t : ITy) (d : SReg) (a b c : Operand)
  | spopc (t : ITy) (d : SReg) (a : Operand)
  | sclz (t : ITy) (d : SReg) (a : Operand)
  | mbal (g : Guard) (d : SReg) (a w : Operand)
  | many (g : Guard) (d : SReg) (a : Operand)
  | mall (g : Guard) (d : SReg) (a : Operand)
  | mpop (g : Guard) (d : SReg) (a : Operand)
  | mset (g : Guard) (a : Operand)
  | setix (n : BitVec 2) (a : Operand) (imm : BitVec 16)
  | setfmt (src : FmtSrc)
  | getfmt (d : SReg)
  | setk (n : BitVec 4) (a : Operand)
  | getk (d : SReg) (n : BitVec 4)
  | waitc (ld st rm : BitVec 6)
  | xfer (g : Guard) (t : Operand)
  -- group 1: vector integer
  | vadd (g : Guard) (t : ITy) (sat : Bool) (d a b : Operand)
  | vaddImm (g : Guard) (t : ITy) (d a : Operand) (imm : BitVec 24)
  | vsub (g : Guard) (t : ITy) (sat : Bool) (d a b : Operand)
  | vsubImm (g : Guard) (t : ITy) (d a : Operand) (imm : BitVec 24)
  | vmul (g : Guard) (t : ITy) (d a b : Operand)
  | vmulImm (g : Guard) (t : ITy) (d a : Operand) (imm : BitVec 24)
  | vmulh (g : Guard) (t : ITy) (d a b : Operand)
  | vmad (g : Guard) (t : ITy) (d a b c : Operand)
  | vmin (g : Guard) (t : ITy) (d a b : Operand)
  | vminImm (g : Guard) (t : ITy) (d a : Operand) (imm : BitVec 24)
  | vmax (g : Guard) (t : ITy) (d a b : Operand)
  | vmaxImm (g : Guard) (t : ITy) (d a : Operand) (imm : BitVec 24)
  | vabs (g : Guard) (t : ITy) (sat : Bool) (d a : Operand)
  | vneg (g : Guard) (t : ITy) (sat : Bool) (d a : Operand)
  | vand (g : Guard) (t : ITy) (d a b : Operand)
  | vandImm (g : Guard) (t : ITy) (d a : Operand) (imm : BitVec 24)
  | vor (g : Guard) (t : ITy) (d a b : Operand)
  | vorImm (g : Guard) (t : ITy) (d a : Operand) (imm : BitVec 24)
  | vxor (g : Guard) (t : ITy) (d a b : Operand)
  | vxorImm (g : Guard) (t : ITy) (d a : Operand) (imm : BitVec 24)
  | vnot (g : Guard) (t : ITy) (d a : Operand)
  | vshl (g : Guard) (t : ITy) (d a b : Operand)
  | vshlImm (g : Guard) (t : ITy) (d a : Operand) (imm : BitVec 24)
  | vshr (g : Guard) (t : ITy) (d a b : Operand)
  | vshrImm (g : Guard) (t : ITy) (d a : Operand) (imm : BitVec 24)
  | vsra (g : Guard) (t : ITy) (d a b : Operand)
  | vsraImm (g : Guard) (t : ITy) (d a : Operand) (imm : BitVec 24)
  | vbfe (g : Guard) (t : ITy) (d a b : Operand)
  | vbfi (g : Guard) (t : ITy) (d a b c : Operand)
  | vpopc (g : Guard) (t : ITy) (d a : Operand)
  | vclz (g : Guard) (t : ITy) (d a : Operand)
  | vcmp (g : Guard) (t : ITy) (cc : Cc) (d a b : Operand)
  | vsel (g : Guard) (t : ITy) (d a b c : Operand)
  | vmov (g : Guard) (t : ITy) (d a : Operand)
  | vmovi (g : Guard) (t : ITy) (d : Operand) (imm : BitVec 24)
  -- group 2: vector float
  | fadd (g : Guard) (t : FTy) (rm : Rm) (d a b : Operand)
  | faddImm (g : Guard) (t : FTy) (d a : Operand) (imm : BitVec 24)
  | fsub (g : Guard) (t : FTy) (rm : Rm) (d a b : Operand)
  | fsubImm (g : Guard) (t : FTy) (d a : Operand) (imm : BitVec 24)
  | fmul (g : Guard) (t : FTy) (rm : Rm) (d a b : Operand)
  | fmulImm (g : Guard) (t : FTy) (d a : Operand) (imm : BitVec 24)
  | ffma (g : Guard) (t : FTy) (rm : Rm) (d a b c : Operand)
  | fmin (g : Guard) (t : FTy) (rm : Rm) (d a b : Operand)
  | fminImm (g : Guard) (t : FTy) (d a : Operand) (imm : BitVec 24)
  | fmax (g : Guard) (t : FTy) (rm : Rm) (d a b : Operand)
  | fmaxImm (g : Guard) (t : FTy) (d a : Operand) (imm : BitVec 24)
  | fcmp (g : Guard) (t : FTy) (rm : Rm) (cc : Fcc) (d a b : Operand)
  | frcp (g : Guard) (t : FTy) (rm : Rm) (d a : Operand)
  | frsq (g : Guard) (t : FTy) (rm : Rm) (d a : Operand)
  | fsqrt (g : Guard) (t : FTy) (rm : Rm) (d a : Operand)
  | fdiv (g : Guard) (t : FTy) (rm : Rm) (d a b : Operand)
  | fex2 (g : Guard) (t : FTy) (rm : Rm) (d a : Operand)
  | flg2 (g : Guard) (t : FTy) (rm : Rm) (d a : Operand)
  | fsin (g : Guard) (t : FTy) (rm : Rm) (d a : Operand)
  | fcos (g : Guard) (t : FTy) (rm : Rm) (d a : Operand)
  | ffrc (g : Guard) (t : FTy) (rm : Rm) (d a : Operand)
  | frnd (g : Guard) (t : FTy) (rm : Rm) (d a : Operand)
  -- group 3: convert and cross-lane
  | cvt (g : Guard) (dst src : CTy) (chk : Bool) (rm : Rm) (sel : BitVec 2) (d a : Operand)
  | lpack (g : Guard) (raw : Bool) (d a : Operand)
  | lunp (g : Guard) (raw : Bool) (d a : Operand)
  | hpack (g : Guard) (t : FTy) (rm : Rm) (d a b : Operand)
  | shfl (g : Guard) (t : ITy) (mode : ShMode) (d a b : Operand)
  | pshw (g : Guard) (t : ITy) (mode : ShMode) (d a b : Operand)
  | bcst (g : Guard) (t : ITy) (d a b : Operand)
  | vred (g : Guard) (op : ROp) (t : RTy) (rm : Rm) (d a : Operand)
  | vscan (g : Guard) (op : ROp) (t : RTy) (excl : Bool) (rm : Rm) (d a : Operand)
  | pairWord (h0 h1 : Half)
  -- group 4: memory
  | ld (g : Guard) (sz : Sz) (strm : Bool) (d base : Operand) (ofs : BitVec 24)
  | st (g : Guard) (sz : Sz) (strm : Bool) (data base : Operand) (ofs : BitVec 24)
  | lds (sz : Sz) (strm : Bool) (d base : SReg) (ofs : BitVec 24)
  | sts (sz : Sz) (strm : Bool) (data base : SReg) (ofs : BitVec 24)
  | ldl (g : Guard) (sz : Sz) (strm : Bool) (d base : Operand) (ofs : BitVec 24)
  | stl (g : Guard) (sz : Sz) (strm : Bool) (data base : Operand) (ofs : BitVec 24)
  | lda (g : Guard) (sz : Sz) (strm : Bool) (d base : Operand) (ofs : BitVec 24)
  | sta (g : Guard) (sz : Sz) (strm : Bool) (data base : Operand) (ofs : BitVec 24)
  | pref (g : Guard) (sz : Sz) (strm : Bool) (base : Operand) (ofs : BitVec 24)
  | cflush (g : Guard) (sz : Sz) (strm : Bool) (base : Operand) (ofs : BitVec 24)
  | cinv (g : Guard) (sz : Sz) (strm : Bool) (base : Operand) (ofs : BitVec 24)
  -- group 5: atomics, remote and copy
  | atom (g : Guard) (t : ATy) (op : AOp) (ord : Ord) (scope : Scope) (d : Option Operand) (base b : Operand)
  | red (g : Guard) (t : ATy) (op : AOp) (ord : Ord) (scope : Scope) (base b : Operand)
  | put (g : Guard) (sz : Sz) (data base : Operand) (ofs : BitVec 24)
  | putn (g : Guard) (sz : Sz) (data base ctr : Operand) (inc : BitVec 8)
  | putm (g : Guard) (sz : Sz) (data base mask : Operand) (stride : SReg)
  | get (g : Guard) (sz : Sz) (d base : Operand) (ofs : BitVec 24)
  | ratom (g : Guard) (t : ATy) (op : AOp) (ord : Ord) (scope : Scope) (d : Option Operand) (base b : Operand)
  | cpy (dst src len : SReg) (dsp ssp : Space) (bar : Bar)
  | cpyt (dst src geo : SReg) (dsp ssp : Space) (bar : Bar)
  -- group 6: matrix
  | macq (p : BitVec 3)
  | mrel
  | mgang (n : SReg)
  | mwld (w : SReg) (bar : Bar)
  | mma (src : MmaSrc) (row0 : BitVec 8) (rows : BitVec 9) (ct : BitVec 3) (acc : Bool) (bar : Bar)
  | mmag (asrc : SReg) (row0 : BitVec 8) (rows : BitVec 9) (ct : BitVec 3) (acc : Bool) (bar : Bar)
  | mdrn (clr : Bool) (quant : Option MFmt) (dst : SReg) (bias : Option SReg) (geom : SReg) (ct : BitVec 3)
      (toW : Bool) (act : Bool) (bar : Bar)
  | mzro (mask : BitVec 8) (bar : Bar)
  | mtld (v : Operand) (ct slab : BitVec 3)
  | mtst (v : Operand) (ct slab : BitVec 3)
  | mpoly (x y p : BitVec 3) (deg : BitVec 4) (bar : Bar)
  | miter (form : MiterForm) (frob : Bool) (x a scr : BitVec 3) (cap : BitVec 8) (thr : BitVec 4) (bar : Bar)
  | mtab (w : SReg) (bar : Bar)
  | mstat (d : SReg) (item : BitVec 4)
  -- group 7: transactions, synchronisation, collectives
  | txb (disp : BitVec 24)
  | txo (disp : BitVec 24)
  | txe
  | txr
  | txa
  | txs (d : SReg)
  | fence (ord : Ord) (scope : Scope)
  | bini (bar : SReg) (bytes arr : Operand)
  | barv (d : Option SReg) (bar : SReg) (bytes : Operand)
  | bwt (bar : SReg) (ph : Operand)
  | qpsh (e : BitVec 3) (q s : SReg)
  | qpop (e : BitVec 3) (d q : SReg)
  | ntfy (ctr : SReg) (inc : Operand)
  | nwt (ctr : SReg) (tgt : Operand)
  | tlrd (eng : Eng) (mode : TlMode) (d : SReg)
  | tlwt (eng : Eng) (n : SReg)
  | coll (g : Guard) (opn : COpn) (addr key : Operand) (group : BitVec 8) (bar : Bar)
  -- events: records and queues (03)
  | recordSlotWrite (q off : Nat) (bytes : List Byte)
  | requestDatagram (addr : BitVec 128) (port : BitVec 16) (frame : Frame) (payload : List Byte)
  | arbitrationDecision
  | queuePromotion (q : Nat)
  | holdCounterWake (kernel : Nat)
  -- events: placement, bins and travel (04, 07)
  | crewPlacement (kernel : Nat)
  | reservingKernel
  | rangeTakeRetry (kernel isl : Nat)
  | islandFailure (isl : Nat)
  | activeMessage (msg : Nat)
  | binTimerExpiry (core bin : Nat)
  | poolReinject (isl : Nat)
  | overflowReinject (kernel : Nat)
  | segmentMapRefresh (kernel : Nat)
  | replicaWindow (kernel seg : Nat)
  | replicaRetirement (kernel seg core : Nat)
  | teamPromotion (team : Nat)
  -- events: completions, pages, waits (07, 11, 17)
  | loadDataWritten (op : Nat)
  | storePerformed (op : Nat)
  | remoteAcknowledge (op : Nat)
  | demandPageFill (isl entry : Nat)
  | readSharedCopy (isl entry : Nat)
  | migrationWindow (tenant va toIsl : Nat)
  | migrationCopyDone (mig : Nat)
  | teamWake (team : Nat)
  | irrevocableTokenGrant (isl : Nat)
  | irrevocableTimeout (team : Nat)
  -- events: engines (12, 14, 19)
  | copyChunkWritten (isl ctx : Nat)
  | arrayArbitration (isl cluster : Nat)
  | arrayRequestPromotion (isl cluster ctx : Nat)
  | matrixCommandComplete (isl cluster ctx : Nat)
  | miterPhase (isl cluster ctx : Nat)
  | collectivePacket (pkt : Nat)
  | collChunkComplete (isl ctx key chunk : Nat)
  | collComplete (isl ctx : Nat)
  | chunkTimeout (isl ctx key chunk : Nat)
  | deadlineSlack (isl req : Nat)
  -- events: fabric (13)
  | packetRelay (pkt : Nat)
  | packetReturn (pkt : Nat)
  | packetDelivery (pkt : Nat)
  | flitReceived (isl port : Nat) (flips : List (Nat × (Nat × Nat)))
  | nakRepeat (isl port : Nat)
  | linkDownTimeout (isl port : Nat)
  | limitsPeriod (isl port : Nat)
  | credit (isl port : Nat)
  | limits (isl port : Nat)
  | swapreq (isl port : Nat)
  | swapack (isl port : Nat)
  | train (isl port : Nat)
  | laneSampleWindow (isl port : Nat) (samples : List LaneSample)
  | swapTimeout (isl port : Nat)
  | lightLoss (isl port : Nat) (dark : List Nat)
  | laserModuleDark (m : Nat)
  -- events: interruption and retirement (20)
  | uncorrectableError (site : UeSite)
  | kernelRetirement (kernel : Nat)
  | preemptStopDone (t : Nat)
  | preemptResumeDone (t : Nat)
  | tenantResetDone (t : Nat)
  | clockStep (isl : Nat) (raise : Bool)
  | bootStage (image : BootImage) (failed : List Nat)
  -- events: register writes (03, 11, 19, 20, 27)
  | qcfgWrite (q : Nat) (x : DWord)
  | tcfgWrite (t : Nat) (x : DWord)
  | releaseHeld (q : Nat)
  | ptrootWrite (t : Nat) (x : DWord)
  | eqheadWrite (x : DWord)
  | eqRingWrite (size : Bool) (x : DWord)
  | eqlostWrite (x : DWord)
  | tlbinvGo (x : DWord)
  | tlbinvDone
  | faultreply (x : DWord)
  | groupTableWrite (isl g word : Nat) (x : DWord)
  | preemptStop (t : Nat) (x : DWord)
  | preemptResume (t : Nat) (x : DWord)
  | crewctlResume (t : Nat) (handle : Word)
  | crewctlEnd (t : Nat) (handle : Word)
  | crewctlRollback (t : Nat) (handle : Word)
  | tenantReset (t : Nat)
  | warmReset
  | coldReset
  | attest
  | attestDone
  | mgmtRegisterWrite (off : Nat) (x : DWord)
  | thermalStop (isl : Nat)
  | registerWrite (off : Nat) (x : DWord)
  | hostMemoryAccess (tenant va : Nat) (acc : HostAcc)
  | recordWindowWrite (q off : Nat) (bytes : List Byte)
  | lightReturn (isl port wl : Nat)
  | powerOn
deriving DecidableEq, Repr

end Sys2Proof
end

