-- ==== Sys2Proof/WellFormed.lean ====
section
/-! DEFINITION. Which instructions are well formed: every check that R87 decides from the word alone and that the
typed fields of `Instr` leave open (operand classes, codes, register alignment, types, guards), and the ranges of an
event's data. -/

namespace Sys2Proof

/-- The guard of a lane-scope word: PRED 7 with PNEG 1 is ILLOP (R72). -/
def Guard.ok (g : Guard) : Bool := g.pred ≠ 7 || !g.neg

/-- Registers an element type's operand names: 2 under a 64-bit type (R77). -/
def ITy.regs : ITy → Nat
  | .i64 | .n64 => 2
  | _ => 1
/-- Packed integer types (R77). -/
def ITy.packed : ITy → Bool
  | .i16x2 | .n16x2 | .i8x4 | .n8x4 => true
  | _ => false
/-- Types read signed (R155). -/
def ITy.signed : ITy → Bool
  | .i32 | .i64 | .i16x2 | .i8x4 => true
  | _ => false
def FTy.regs : FTy → Nat
  | .f64 => 2
  | _ => 1
def FTy.packed : FTy → Bool
  | .f16x2 | .bf16x2 => true
  | _ => false
def ATy.regs : ATy → Nat
  | .i64 | .n64 | .f64 => 2
  | _ => 1
def ATy.isFloat : ATy → Bool
  | .f32 | .f64 | .f16x2 | .bf16x2 => true
  | _ => false
def RTy.regs : RTy → Nat
  | .i64 | .n64 | .f64 => 2
  | _ => 1
def RTy.isFloat : RTy → Bool
  | .f32 | .f64 => true
  | _ => false
/-- Registers a memory value of a size takes (Table 12-1). -/
def Sz.regs : Sz → Nat
  | .b64 => 2
  | .b128 => 4
  | _ => 1
def CTy.regs : CTy → Nat
  | .i64 | .n64 | .f64 => 2
  | _ => 1
def CTy.isFloat : CTy → Bool
  | .f32 | .f64 | .f16 | .bf16 | .lns6 => true
  | _ => false

/-- A direct register is a multiple of `n` (R7, R77); an indirect number is known only at issue (R77). -/
def Operand.aligned (n : Nat) : Operand → Bool
  | .v r => r.toNat % n = 0
  | .s r => r.toNat % n = 0
  | .ind .. => true
  | .k _ => true

def Operand.isVec : Operand → Bool
  | .v _ | .ind .. => true
  | _ => false
def Operand.isScalar : Operand → Bool
  | .s _ => true
  | _ => false
/-- A class-11 code between two values. -/
def Operand.isCode (lo hi : Nat) : Operand → Bool
  | .k c => lo ≤ c.toNat && c.toNat ≤ hi
  | _ => false

/-- Class-11 codes every source may name (Table 5-4): integers, predicates, special and index registers. %crew's upper
bits are ILLOP under a 64-bit type. -/
def plainCode (w64 : Bool) (c : Nat) : Bool :=
  c ≤ 0x7F || (0x90 ≤ c && c ≤ 0x97) || (0xA0 ≤ c && c ≤ 0xA8 && !(w64 && c = 0xA3)) || (0xB0 ≤ c && c ≤ 0xB3)

/-- A source of an integer or memory type of `n` registers in a lane-scope word (R75, R78, R168). -/
def Operand.intSrc (n : Nat) : Operand → Bool
  | .k c => plainCode (n = 2) c.toNat
  | o => o.aligned n

/-- A source of a float type of `n` registers (R78: float constants are legal too). -/
def Operand.fltSrc (n : Nat) : Operand → Bool
  | .k c => plainCode (n = 2) c.toNat || (0x80 ≤ c.toNat && c.toNat ≤ 0x87)
  | o => o.aligned n

/-- A vector destination or vector-only source (R168): class 00 or 10. -/
def Operand.vecOp (n : Nat) (o : Operand) : Bool := o.isVec && o.aligned n

/-- A source of a team-scope group-0 word (R122). -/
def Operand.teamSrc (n : Nat) : Operand → Bool
  | .s r => r.toNat % n = 0
  | .k c => c.toNat ≤ 0x7F || (0xA1 ≤ c.toNat && c.toNat ≤ 0xA8 && !(n = 2 && c.toNat = 0xA3))
      || (0xB0 ≤ c.toNat && c.toNat ≤ 0xB3)
  | _ => false

/-- A scalar register or an integer code up to `hi`. -/
def Operand.regOrCode (n hi : Nat) : Operand → Bool
  | .s r => r.toNat % n = 0
  | .k c => c.toNat ≤ hi
  | _ => false

/-- A per-lane register, a scalar register or an integer code up to `hi`. -/
def Operand.dataOp (n hi : Nat) : Operand → Bool
  | .k c => c.toNat ≤ hi
  | o => o.aligned n

/-- The base of a global access: an even register of class 00 or 01 (Table 5-5). -/
def Operand.globalBase : Operand → Bool
  | .v r => r.toNat % 2 = 0
  | .s r => r.toNat % 2 = 0
  | _ => false
/-- The base of a typed-space access: one register of class 00 or 01 (Table 5-5). -/
def Operand.typedBase : Operand → Bool
  | .v _ | .s _ => true
  | _ => false
/-- A per-lane condition (R145): class 00, 01 or 10, or a predicate code. -/
def Operand.cond : Operand → Bool
  | .k c => 0x90 ≤ c.toNat && c.toNat ≤ 0x97
  | _ => true
/-- The condition of BRV and BRK (R124): class 00, 10 or a predicate code. -/
def Operand.branchCond (o : Operand) : Bool := o.cond && !o.isScalar
/-- The destination of VCMP and FCMP (R175, R181). -/
def Operand.cmpDst (n : Nat) (packed : Bool) : Operand → Bool
  | .k c => 0x90 ≤ c.toNat && c.toNat ≤ 0x96 && !packed
  | o => o.vecOp n

/-- A scalar register that is a multiple of `n`. -/
def sregAligned (n : Nat) (r : SReg) : Bool := r.toNat % n = 0

/-- Types of the scalar unit and of SHFL, PSHW, BCST (R122, R188): not packed. -/
def ITy.plain (t : ITy) : Bool := !t.packed

/-- A scalar two-source operation (R122). -/
def scalar2 (t : ITy) (d : SReg) (a b : Operand) : Bool :=
  t.plain && sregAligned t.regs d && a.teamSrc t.regs && b.teamSrc t.regs
def scalarImm (t : ITy) (d : SReg) (a : Operand) : Bool :=
  t.plain && sregAligned t.regs d && a.teamSrc t.regs
def vec2 (g : Guard) (t : ITy) (d a b : Operand) : Bool :=
  g.ok && d.vecOp t.regs && a.intSrc t.regs && b.intSrc t.regs
def vecImm (g : Guard) (t : ITy) (d a : Operand) : Bool :=
  g.ok && t.plain && d.vecOp t.regs && a.intSrc t.regs
def vec1 (g : Guard) (t : ITy) (d a : Operand) : Bool := g.ok && d.vecOp t.regs && a.intSrc t.regs
def flt2 (g : Guard) (t : FTy) (d a b : Operand) : Bool :=
  g.ok && d.vecOp t.regs && a.fltSrc t.regs && b.fltSrc t.regs
/-- A float immediate: packed types hold one element pattern in IMM24[15:0] (R81). -/
def fltImm (g : Guard) (t : FTy) (d a : Operand) (imm : BitVec 24) : Bool :=
  g.ok && d.vecOp t.regs && a.fltSrc t.regs && (!t.packed || imm.toNat < 2 ^ 16)
def flt1 (g : Guard) (t : FTy) (d a : Operand) : Bool := g.ok && d.vecOp t.regs && a.fltSrc t.regs

/-- SEL of CVT (R184). -/
def CTy.selOk (sel : BitVec 2) : CTy → Bool
  | .i16 | .n16 | .f16 | .bf16 => sel.toNat < 2
  | .i8 | .n8 => true
  | _ => sel = 0

/-- ORD and SCOPE of an atomic (R229). -/
def ordOk (o : Ord) (s : Scope) : Bool := o ≠ .relaxed || s = .team

def AOp.bitwise : AOp → Bool
  | .and | .or | .xor => true
  | _ => false

/-- The operand B of an atomic (R228, R229). -/
def atomSrc (t : ATy) (op : AOp) (b : Operand) : Bool :=
  if op = .cas then
    match b with
    | .k _ => false
    | o => o.aligned (2 * t.regs)
  else if t.isFloat then b.fltSrc t.regs else b.intSrc t.regs

def atomOk (g : Guard) (t : ATy) (op : AOp) (ord : Ord) (scope : Scope) (base b : Operand) : Bool :=
  g.ok && base.globalBase && atomSrc t op b && ordOk ord scope && !(t.isFloat && op.bitwise)

/-- VRED and VSCAN (R192): no bitwise operation under a float type; RM only for float .add. -/
def redOk (g : Guard) (op : ROp) (t : RTy) (rm : Rm) (a : Operand) : Bool :=
  g.ok && a.vecOp t.regs &&
    (if t.isFloat then
      (match op with
        | .add => true
        | .min | .max => rm = .ne
        | _ => false)
    else rm = .ne)

/-- The vector registers a half reads (R84). -/
def Half.reads (h : Half) : List (BitVec 8) :=
  (if h.pop = .vmov then [] else [h.d]) ++ (if h.imm then [] else [h.s])

/-- Pairwise distinct banks of the registers two halves read, each counted once (R84). -/
def bankRule (h0 h1 : Half) : Bool :=
  let rs := (h0.reads ++ h1.reads).dedup
  (rs.map fun r => r.toNat % 4).Nodup

/-- Words of an entry of QPSH and QPOP (R351). -/
def entryWords (e : BitVec 3) : Nat := 2 ^ e.toNat
/-- The register range of QPSH and QPOP (R351). -/
def queueRange (e : BitVec 3) (r : SReg) : Bool :=
  e.toNat ≤ 4 && r.toNat % entryWords e = 0 && r.toNat + entryWords e ≤ 64

/-- QRY items that write a pair (R140). -/
def QryItem.wide : QryItem → Bool
  | .topo | .extent | .cycle => true
  | _ => false

/-- Scratch tiles of MITER (R300). -/
def MiterForm.scratch : MiterForm → Nat
  | .quint => 4
  | _ => 3

/-- Tiles and fields of MITER (R300). -/
def miterOk (form : MiterForm) (x a scr : BitVec 3) (cap : BitVec 8) : Bool :=
  cap ≠ 0 && scr.toNat + form.scratch ≤ 8 &&
    (let scrs := (List.range form.scratch).map (scr.toNat + ·)
     match form with
     | .inv => (x.toNat :: a.toNat :: scrs).Nodup
     | _ => a = 0 && (x.toNat :: scrs).Nodup)

def maxIslands : Nat := 25
def isIsl (i : Nat) : Bool := i < maxIslands
/-- An end of a link: a port of an island, or one of the service tile. -/
def isEnd (i p : Nat) : Bool := (isIsl i && p < 9) || (i = 31 && p < 5)
def isQueue (q : Nat) : Bool := q < 2048
def isTenant (t : Nat) : Bool := t < 64

/-- Well formed: a word that decodes (R87), or an event whose data is in range. -/
def Instr.wf : Instr → Bool
  | .nop | .join | .ret | .yield | .mark | .mrel | .txe | .txr | .txa => true
  | .bra _ | .call _ | .txb _ | .txo _ => true
  | .brc .. => true
  | .brv g c _ | .brk g c _ => g.ok && c.branchCond
  | .callr _ | .jmpr _ => true
  | .exit g _ => g.ok
  | .trap _ => true
  | .spawn g pay dest _ _ pd => g.ok && pay.isVec && dest.dataOp 1 0x7F && pd ≠ 7
  | .qry d item => !item.wide || sregAligned 2 d
  | .sreg _ a => a.regOrCode 1 0x26
  | .smov t d a => scalarImm t d a
  | .smovi t d _ => t.plain && sregAligned t.regs d
  | .smovh _ _ => true
  | .sadd t d a b | .ssub t d a b | .smul t d a b | .smulh t d a b | .sdiv t d a b | .srem t d a b
  | .sand t d a b | .sor t d a b | .sxor t d a b | .sshl t d a b | .sshr t d a b | .ssra t d a b
  | .smin t d a b | .smax t d a b | .scmp t _ d a b | .sbfe t d a b => scalar2 t d a b
  | .saddImm t d a _ | .ssubImm t d a _ | .smulImm t d a _ | .sandImm t d a _ | .sorImm t d a _
  | .sxorImm t d a _ | .sshlImm t d a _ | .sshrImm t d a _ | .ssraImm t d a _ | .sminImm t d a _
  | .smaxImm t d a _ => scalarImm t d a
  | .ssel t d a b c | .sbfi t d a b c => scalar2 t d a b && c.teamSrc t.regs
  | .spopc t d a | .sclz t d a => scalarImm t d a
  | .mbal g _ a w => g.ok && a.cond && w.regOrCode 1 0x1F
  | .many g _ a | .mall g _ a | .mpop g _ a => g.ok && a.cond
  | .mset g a => g.ok && a.cond
  | .setix _ a _ => a.regOrCode 1 0x7F
  | .setfmt _ | .getfmt _ => true
  | .setk _ a => a.regOrCode 1 0x7F
  | .getk .. | .waitc .. => true
  | .xfer g t => g.ok && (t.isVec || t.isScalar)
  | .vadd g t _ d a b | .vsub g t _ d a b | .vmul g t d a b | .vmulh g t d a b | .vmin g t d a b | .vmax g t d a b
  | .vand g t d a b | .vor g t d a b | .vxor g t d a b | .vshl g t d a b | .vshr g t d a b | .vsra g t d a b =>
    vec2 g t d a b
  | .vaddImm g t d a _ | .vsubImm g t d a _ | .vmulImm g t d a _ | .vminImm g t d a _ | .vmaxImm g t d a _
  | .vandImm g t d a _ | .vorImm g t d a _ | .vxorImm g t d a _ | .vshlImm g t d a _ | .vshrImm g t d a _
  | .vsraImm g t d a _ => vecImm g t d a
  | .vmad g t d a b c => vec2 g t d a b && c.intSrc t.regs
  | .vabs g t _ d a | .vneg g t _ d a => t.signed && vec1 g t d a
  | .vnot g t d a | .vpopc g t d a | .vclz g t d a | .vmov g t d a => vec1 g t d a
  | .vbfe g t d a b => t.plain && vec2 g t d a b
  | .vbfi g t d a b c => t.plain && vec2 g t d a b && c.intSrc t.regs
  | .vcmp g t _ d a b => g.ok && d.cmpDst t.regs t.packed && a.intSrc t.regs && b.intSrc t.regs
  | .vsel g t d a b c => vec2 g t d a b && c.cond
  | .vmovi g t d _ => g.ok && t.plain && d.vecOp t.regs
  | .fadd g t _ d a b | .fsub g t _ d a b | .fmul g t _ d a b | .fmin g t _ d a b | .fmax g t _ d a b
  | .fdiv g t _ d a b => flt2 g t d a b
  | .faddImm g t d a imm | .fsubImm g t d a imm | .fmulImm g t d a imm | .fminImm g t d a imm
  | .fmaxImm g t d a imm => fltImm g t d a imm
  | .ffma g t _ d a b c => flt2 g t d a b && c.fltSrc t.regs
  | .fcmp g t _ _ d a b => g.ok && d.cmpDst t.regs t.packed && a.fltSrc t.regs && b.fltSrc t.regs
  | .frcp g t _ d a | .frsq g t _ d a | .fsqrt g t _ d a | .fex2 g t _ d a | .flg2 g t _ d a | .fsin g t _ d a
  | .fcos g t _ d a | .ffrc g t _ d a | .frnd g t _ d a => flt1 g t d a
  | .cvt g dst src chk rm sel d a =>
    g.ok && d.vecOp dst.regs && a.dataOp src.regs 0x7F && src.selOk sel
      && (rm = .ne || ((dst.isFloat || src.isFloat) && dst ≠ .lns6)) && (!chk || !dst.isFloat)
  | .lpack g _ d a | .lunp g _ d a => g.ok && d.isVec && a.isVec
  | .hpack g t _ d a b => t.packed && g.ok && d.vecOp 1 && a.fltSrc 1 && b.fltSrc 1
  | .shfl g t _ d a b | .pshw g t _ d a b =>
    g.ok && t.plain && d.vecOp t.regs && a.vecOp t.regs && b.dataOp 1 0x3F
  | .bcst g t d a b => g.ok && t.plain && d.vecOp t.regs && a.vecOp t.regs && b.regOrCode 1 0x3F
  | .vred g op t rm d a => redOk g op t rm a && (d.isVec || d.isScalar) && d.aligned t.regs
  | .vscan g op t _ rm d a => redOk g op t rm a && d.vecOp t.regs
  | .pairWord h0 h1 => h0.d ≠ h1.d && bankRule h0 h1
  | .ld g sz _ d base _ => g.ok && d.vecOp sz.regs && base.globalBase
  | .st g sz _ data base _ => g.ok && data.dataOp sz.regs 0x7F && base.globalBase
  | .lds sz _ d base _ | .sts sz _ d base _ => sregAligned sz.regs d && sregAligned 2 base
  | .ldl g sz _ d base _ | .lda g sz _ d base _ => g.ok && d.vecOp sz.regs && base.typedBase
  | .stl g sz _ data base _ | .sta g sz _ data base _ => g.ok && data.dataOp sz.regs 0x7F && base.typedBase
  | .pref g _ _ base _ | .cflush g _ _ base _ | .cinv g _ _ base _ => g.ok && base.globalBase
  | .atom g t op ord scope d base b | .ratom g t op ord scope d base b =>
    atomOk g t op ord scope base b && (match d with
      | none => true
      | some d => d.vecOp t.regs)
  | .red g t op ord scope base b =>
    atomOk g t op ord scope base b && op ≠ .exch && op ≠ .cas && ord ≠ .acq && ord ≠ .ar
  | .put g sz data base _ => g.ok && data.dataOp sz.regs 0x7F && base.globalBase
  | .putn g sz data base ctr _ => g.ok && data.dataOp sz.regs 0x7F && base.globalBase && ctr.globalBase
  | .putm g sz data base mask stride =>
    g.ok && data.dataOp sz.regs 0x7F && base.globalBase && mask.regOrCode 1 0x3F && sregAligned 2 stride
  | .get g sz d base _ => g.ok && d.vecOp sz.regs && base.globalBase
  | .cpy dst src _ _ _ _ => sregAligned 2 dst && sregAligned 2 src
  | .cpyt dst src geo _ _ _ => sregAligned 2 dst && sregAligned 2 src && sregAligned 4 geo
  | .macq p => p ≠ 7
  | .mgang n => sregAligned 2 n
  | .mwld .. | .mma .. | .mmag .. | .mdrn .. | .mzro .. | .mtab .. => true
  | .mtld v _ _ | .mtst v _ _ => v.isVec
  | .mpoly x y p deg _ => deg ≠ 0 && x ≠ y && x ≠ p && y ≠ p
  | .miter form _ x a scr cap _ _ => miterOk form x a scr cap
  | .mstat _ item => item.toNat ≤ 4
  | .txs _ => true
  | .fence ord _ => ord ≠ .relaxed
  | .bini _ bytes arr => bytes.regOrCode 2 0x3F && arr.regOrCode 1 0x3F
  | .barv _ _ bytes => bytes.regOrCode 2 0x3F
  | .bwt _ ph => ph.regOrCode 1 0x3F
  | .qpsh e q s => queueRange e s && sregAligned 2 q
  | .qpop e d q => queueRange e d && sregAligned 2 q
  | .ntfy ctr inc => sregAligned 2 ctr && inc.regOrCode 1 0x3F
  | .nwt ctr tgt => sregAligned 2 ctr && tgt.regOrCode 1 0x7F
  | .tlrd _ _ d => sregAligned 2 d
  | .tlwt _ n => sregAligned 2 n
  | .coll g _ addr key _ _ => g.ok && (addr.isVec || addr.isScalar) && addr.aligned 2 && key.dataOp 1 0x3F
  -- events
  | .recordSlotWrite q off bytes =>
    isQueue q && off + bytes.length ≤ 0x8000 && bytes ≠ [] && 120 < off % 128 + bytes.length
  | .recordWindowWrite q off bytes =>
    isQueue q && off + bytes.length ≤ 0x10000 && (0x8000 ≤ off || off % 128 + bytes.length ≤ 120)
  | .requestDatagram .. => true
  | .arbitrationDecision | .reservingKernel | .tlbinvDone | .warmReset | .coldReset | .attest | .attestDone
  | .powerOn => true
  | .queuePromotion q | .qcfgWrite q _ | .releaseHeld q => isQueue q
  | .holdCounterWake _ | .crewPlacement _ | .overflowReinject _ | .segmentMapRefresh _ | .replicaWindow ..
  | .kernelRetirement _ => true
  | .replicaRetirement .. | .teamPromotion _ | .loadDataWritten _ | .storePerformed _ | .remoteAcknowledge _ => true
  | .rangeTakeRetry _ i | .islandFailure i | .poolReinject i | .demandPageFill i _ | .readSharedCopy i _
  | .irrevocableTokenGrant i | .copyChunkWritten i _ | .arrayArbitration i _ | .arrayRequestPromotion i _ _
  | .matrixCommandComplete i _ _ | .miterPhase i _ _ | .collChunkComplete i _ _ _ | .collComplete i _
  | .chunkTimeout i _ _ _ | .deadlineSlack i _ | .clockStep i _ | .thermalStop i => isIsl i
  | .activeMessage _ | .binTimerExpiry .. | .migrationCopyDone _ | .teamWake _ | .irrevocableTimeout _
  | .collectivePacket _ | .packetRelay _ | .packetReturn _ | .packetDelivery _ => true
  | .migrationWindow t va i => isTenant t && va < 2 ^ 56 && isIsl i
  | .flitReceived i p _ | .nakRepeat i p | .linkDownTimeout i p | .limitsPeriod i p | .credit i p | .limits i p
  | .swapreq i p | .swapack i p | .train i p | .laneSampleWindow i p _ | .swapTimeout i p | .lightLoss i p _
  | .lightReturn i p _ => isEnd i p
  | .laserModuleDark m => m < 20
  | .uncorrectableError _ => true
  | .tcfgWrite t _ | .ptrootWrite t _ | .preemptStop t _ | .preemptStopDone t | .preemptResume t _
  | .preemptResumeDone t | .crewctlResume t _ | .crewctlEnd t _ | .crewctlRollback t _ | .tenantReset t
  | .tenantResetDone t => isTenant t
  | .eqheadWrite _ | .eqRingWrite .. | .eqlostWrite _ | .tlbinvGo _ | .faultreply _ | .mgmtRegisterWrite ..
  | .registerWrite .. | .bootStage .. => true
  | .groupTableWrite i g w _ => isIsl i && g < 256 && w < 8
  | .hostMemoryAccess t va _ => isTenant t && va < 2 ^ 56

end Sys2Proof
end

