-- ==== Sys2Proof/Decode.lean ====
section
/-! DEFINITION. The decoder and, after it, the encoder, both written from the encoding tables of 05_instruction_words
(Tables 5-1 to 5-15) and the layout tables of the instruction chapters. The decoder is total on every 64-bit word and
on every list of bytes and rejects by name (R87). -/

namespace Sys2Proof

/-- Why a word is not an instruction (R87). -/
inductive Illop
  /-- fewer than eight bytes: no word -/
  | short
  /-- kind 10 or 11 (R70) -/
  | kind
  /-- an OP value no table lists (R86) -/
  | opcode
  /-- a guard on a team-scope word, or PRED 7 with PNEG 1 (R72) -/
  | guard
  /-- a reserved or unused field that is not 0 (R73) -/
  | reserved
  /-- a MOD, type, class, code or register number the position does not allow (R74, R75, R77 to R81) -/
  | operand
  /-- a pair word that breaks R84 or R85 -/
  | pair
deriving DecidableEq, Repr

/-! ## Codes of the small fields (Tables 5-6, 8-6, 10-6, 12-4, 12-5, 16-1) -/

def ITy.ofBits (x : BitVec 4) : Option ITy :=
  match x.toNat with
  | 0 => some .i32
  | 1 => some .n32
  | 2 => some .i64
  | 3 => some .n64
  | 4 => some .i16x2
  | 5 => some .n16x2
  | 6 => some .i8x4
  | 7 => some .n8x4
  | _ => none
def ITy.bits : ITy → BitVec 4
  | .i32 => 0
  | .n32 => 1
  | .i64 => 2
  | .n64 => 3
  | .i16x2 => 4
  | .n16x2 => 5
  | .i8x4 => 6
  | .n8x4 => 7
def FTy.ofBits (x : BitVec 4) : Option FTy :=
  match x.toNat with
  | 0 => some .f32
  | 1 => some .f64
  | 2 => some .f16x2
  | 3 => some .bf16x2
  | _ => none
def FTy.bits : FTy → BitVec 4
  | .f32 => 0
  | .f64 => 1
  | .f16x2 => 2
  | .bf16x2 => 3
def Rm.ofBits (x : BitVec 2) : Option Rm :=
  match x.toNat with
  | 0 => some .ne
  | 1 => some .tz
  | 2 => some .up
  | _ => some .dn
def Rm.bits : Rm → BitVec 2
  | .ne => 0
  | .tz => 1
  | .up => 2
  | .dn => 3
def Sz.ofBits (x : BitVec 3) : Option Sz :=
  match x.toNat with
  | 0 => some .b8
  | 1 => some .b16
  | 2 => some .b32
  | 3 => some .b64
  | 4 => some .b128
  | _ => none
def Sz.bits : Sz → BitVec 3
  | .b8 => 0
  | .b16 => 1
  | .b32 => 2
  | .b64 => 3
  | .b128 => 4
def Cc.ofBits (x : BitVec 3) : Option Cc :=
  match x.toNat with
  | 0 => some .eq
  | 1 => some .ne
  | 2 => some .lt
  | 3 => some .le
  | 4 => some .gt
  | 5 => some .ge
  | _ => none
def Cc.bits : Cc → BitVec 3
  | .eq => 0
  | .ne => 1
  | .lt => 2
  | .le => 3
  | .gt => 4
  | .ge => 5
def Fcc.ofBits (x : BitVec 3) : Option Fcc :=
  match x.toNat with
  | 0 => some .eq
  | 1 => some .ne
  | 2 => some .lt
  | 3 => some .le
  | 4 => some .gt
  | 5 => some .ge
  | 6 => some .un
  | _ => some .or
def Fcc.bits : Fcc → BitVec 3
  | .eq => 0
  | .ne => 1
  | .lt => 2
  | .le => 3
  | .gt => 4
  | .ge => 5
  | .un => 6
  | .or => 7
def ATy.ofBits (x : BitVec 4) : Option ATy :=
  match x.toNat with
  | 0 => some .i32
  | 1 => some .n32
  | 2 => some .i64
  | 3 => some .n64
  | 4 => some .f32
  | 5 => some .f64
  | 6 => some .f16x2
  | 7 => some .bf16x2
  | _ => none
def ATy.bits : ATy → BitVec 4
  | .i32 => 0
  | .n32 => 1
  | .i64 => 2
  | .n64 => 3
  | .f32 => 4
  | .f64 => 5
  | .f16x2 => 6
  | .bf16x2 => 7
def AOp.ofBits (x : BitVec 4) : Option AOp :=
  match x.toNat with
  | 0 => some .add
  | 1 => some .min
  | 2 => some .max
  | 3 => some .and
  | 4 => some .or
  | 5 => some .xor
  | 6 => some .exch
  | 7 => some .cas
  | _ => none
def AOp.bits : AOp → BitVec 4
  | .add => 0
  | .min => 1
  | .max => 2
  | .and => 3
  | .or => 4
  | .xor => 5
  | .exch => 6
  | .cas => 7
def Scope.ofBits (x : BitVec 3) : Option Scope :=
  match x.toNat with
  | 0 => some .team
  | 1 => some .crew
  | 2 => some .cluster
  | 3 => some .island
  | 4 => some .panel
  | 5 => some .sys
  | _ => none
def Scope.bits : Scope → BitVec 3
  | .team => 0
  | .crew => 1
  | .cluster => 2
  | .island => 3
  | .panel => 4
  | .sys => 5
def Ord.ofBits (x : BitVec 2) : Option Ord :=
  match x.toNat with
  | 0 => some .relaxed
  | 1 => some .acq
  | 2 => some .rel
  | _ => some .ar
def Ord.bits : Ord → BitVec 2
  | .relaxed => 0
  | .acq => 1
  | .rel => 2
  | .ar => 3
def CTy.ofBits (x : BitVec 4) : Option CTy :=
  match x.toNat with
  | 0 => some .i32
  | 1 => some .n32
  | 2 => some .i64
  | 3 => some .n64
  | 4 => some .i16
  | 5 => some .n16
  | 6 => some .i8
  | 7 => some .n8
  | 8 => some .f32
  | 9 => some .f64
  | 10 => some .f16
  | 11 => some .bf16
  | 12 => some .lns6
  | _ => none
def CTy.bits : CTy → BitVec 4
  | .i32 => 0
  | .n32 => 1
  | .i64 => 2
  | .n64 => 3
  | .i16 => 4
  | .n16 => 5
  | .i8 => 6
  | .n8 => 7
  | .f32 => 8
  | .f64 => 9
  | .f16 => 10
  | .bf16 => 11
  | .lns6 => 12
def ROp.ofBits (x : BitVec 3) : Option ROp :=
  match x.toNat with
  | 0 => some .add
  | 1 => some .min
  | 2 => some .max
  | 3 => some .and
  | 4 => some .or
  | 5 => some .xor
  | _ => none
def ROp.bits : ROp → BitVec 3
  | .add => 0
  | .min => 1
  | .max => 2
  | .and => 3
  | .or => 4
  | .xor => 5
def ShMode.ofBits (x : BitVec 2) : Option ShMode :=
  match x.toNat with
  | 0 => some .idx
  | 1 => some .up
  | 2 => some .down
  | _ => some .xor
def ShMode.bits : ShMode → BitVec 2
  | .idx => 0
  | .up => 1
  | .down => 2
  | .xor => 3
def Space.ofBits (x : BitVec 3) : Option Space :=
  match x.toNat with
  | 0 => some .global
  | 1 => some .lspace
  | 2 => some .aspace
  | 3 => some .wspace
  | 4 => some .cspace
  | _ => none
def Space.bits : Space → BitVec 3
  | .global => 0
  | .lspace => 1
  | .aspace => 2
  | .wspace => 3
  | .cspace => 4
def MFmt.ofBits (x : BitVec 2) : Option MFmt :=
  match x.toNat with
  | 0 => some .bf16
  | 1 => some .fp16
  | 2 => some .int8
  | _ => some .lns6
def MFmt.bits : MFmt → BitVec 2
  | .bf16 => 0
  | .fp16 => 1
  | .int8 => 2
  | .lns6 => 3
def QryItem.ofBits (x : BitVec 8) : Option QryItem :=
  match x.toNat with
  | 0 => some .grade
  | 1 => some .nisl
  | 2 => some .lrows
  | 3 => some .lcols
  | 4 => some .llast
  | 5 => some .icores
  | 6 => some .pcores
  | 7 => some .topo
  | 8 => some .lanes
  | 9 => some .teams
  | 10 => some .vregs
  | 11 => some .extent
  | 12 => some .nset
  | 13 => some .setrank
  | 14 => some .cycle
  | _ => none
def QryItem.bits : QryItem → BitVec 8
  | .grade => 0
  | .nisl => 1
  | .lrows => 2
  | .lcols => 3
  | .llast => 4
  | .icores => 5
  | .pcores => 6
  | .topo => 7
  | .lanes => 8
  | .teams => 9
  | .vregs => 10
  | .extent => 11
  | .nset => 12
  | .setrank => 13
  | .cycle => 14
def MiterForm.ofBits (x : BitVec 2) : Option MiterForm :=
  match x.toNat with
  | 0 => some .inv
  | 1 => some .cubic
  | 2 => some .quint
  | _ => none
def MiterForm.bits : MiterForm → BitVec 2
  | .inv => 0
  | .cubic => 1
  | .quint => 2
def Eng.ofBits (x : BitVec 2) : Option Eng :=
  match x.toNat with
  | 0 => some .cp
  | 1 => some .mx
  | 2 => some .cl
  | _ => none
def Eng.bits : Eng → BitVec 2
  | .cp => 0
  | .mx => 1
  | .cl => 2
def COpn.ofBits (x : BitVec 3) : Option COpn :=
  match x.toNat with
  | 0 => some .ar
  | 1 => some .rs
  | 2 => some .ag
  | 3 => some .a2a
  | 4 => some .bc
  | _ => none
def COpn.bits : COpn → BitVec 3
  | .ar => 0
  | .rs => 1
  | .ag => 2
  | .a2a => 3
  | .bc => 4
def Pop.ofBits (x : BitVec 7) : Option Pop :=
  match x.toNat with
  | 0 => some .vadd
  | 1 => some .vsub
  | 2 => some .vmul
  | 3 => some .vmin
  | 4 => some .vmax
  | 5 => some .vand
  | 6 => some .vor
  | 7 => some .vxor
  | 8 => some .vshl
  | 9 => some .vshr
  | 10 => some .vsra
  | 11 => some .vmov
  | 12 => some .fadd
  | 13 => some .fsub
  | 14 => some .fmul
  | 15 => some .fmin
  | 16 => some .fmax
  | _ => none
def Pop.bits : Pop → BitVec 7
  | .vadd => 0
  | .vsub => 1
  | .vmul => 2
  | .vmin => 3
  | .vmax => 4
  | .vand => 5
  | .vor => 6
  | .vxor => 7
  | .vshl => 8
  | .vshr => 9
  | .vsra => 10
  | .vmov => 11
  | .fadd => 12
  | .fsub => 13
  | .fmul => 14
  | .fmin => 15
  | .fmax => 16
def HPred.ofBits (x : BitVec 2) : Option HPred :=
  match x.toNat with
  | 0 => some .always
  | 1 => some .p0
  | 2 => some .p1
  | _ => some .notP0
def HPred.bits : HPred → BitVec 2
  | .always => 0
  | .p0 => 1
  | .p1 => 2
  | .notP0 => 3
/-- TYPE of VRED and VSCAN under its FLT bit (R192). -/
def RTy.ofBits (flt : Bool) (x : BitVec 4) : Option RTy :=
  if flt then
    match x.toNat with
    | 0 => some .f32
    | 1 => some .f64
    | _ => none
  else
    match x.toNat with
    | 0 => some .i32
    | 1 => some .n32
    | 2 => some .i64
    | 3 => some .n64
    | _ => none
def RTy.bits : RTy → BitVec 4
  | .i32 | .f32 => 0
  | .n32 | .f64 => 1
  | .i64 => 2
  | .n64 => 3
/-- ISS and ADDR of TLRD (R356), ADDR above ISS. -/
def TlMode.ofBits (x : BitVec 2) : Option TlMode :=
  match x.toNat with
  | 0 => some .value
  | 1 => some .issued
  | 2 => some .addr
  | _ => none
def TlMode.bits : TlMode → BitVec 2
  | .value => 0
  | .issued => 1
  | .addr => 2

/-! ## Operand fields (R74) -/

/-- A 10-bit operand field. -/
def Operand.ofBits (x : BitVec 10) : Option Operand :=
  match (x.extractLsb' 8 2).toNat with
  | 0 => some (.v (x.extractLsb' 0 8))
  | 1 => if x.extractLsb' 6 2 = 0 then some (.s (x.extractLsb' 0 6)) else none
  | 2 => some (.ind (x.extractLsb' 6 2) (x.extractLsb' 0 6))
  | _ => some (.k (x.extractLsb' 0 8))
def Operand.bits : Operand → BitVec 10
  | .v n => 0#2 ++ n
  | .s n => 1#2 ++ 0#2 ++ n
  | .ind ix b => 2#2 ++ ix ++ b
  | .k c => 3#2 ++ c
/-- A field that takes a scalar register and nothing else. -/
def sregOfBits (x : BitVec 10) : Option SReg :=
  if x.extractLsb' 6 4 = 4 then some (x.extractLsb' 0 6) else none
def sregBits (r : SReg) : BitVec 10 := 4#4 ++ r
/-- A destination that may be left out: 0x3FF (R228, R348). -/
def optOperandOfBits (x : BitVec 10) : Option (Option Operand) :=
  if x = 0x3FF then some none else (Operand.ofBits x).map some
def optOperandBits : Option Operand → BitVec 10
  | none => 0x3FF
  | some o => o.bits
def optSregOfBits (x : BitVec 10) : Option (Option SReg) :=
  if x = 0x3FF then some none else (sregOfBits x).map some
def optSregBits : Option SReg → BitVec 10
  | none => 0x3FF
  | some r => sregBits r
/-- The command tail (R286): BUSE, a reserved bit, BREG. -/
def barOfBits (x : BitVec 8) : Option Bar :=
  if x.extractLsb' 6 1 = 0 then
    if x.extractLsb' 7 1 = 1 then some (some (x.extractLsb' 0 6))
    else if x.extractLsb' 0 6 = 0 then some none else none
  else none
def barBits : Bar → BitVec 8
  | none => 0
  | some r => 2#2 ++ r

/-! ## Fields of a word -/

/-- Bits [lo + n − 1 : lo] of a word. -/
def fld (w : DWord) (lo n : Nat) : BitVec n := w.extractLsb' lo n
/-- Those bits are all 0. -/
def zer (w : DWord) (lo n : Nat) : Bool := fld w lo n = 0
def bit (w : DWord) (i : Nat) : Bool := fld w i 1 = 1
def fMod (w : DWord) : BitVec 4 := fld w 48 4
def fGuard (w : DWord) : Guard := { pred := fld w 44 3, neg := bit w 47 }
/-- The operand fields D, A, B, C of form A. -/
def oD (w : DWord) : Option Operand := Operand.ofBits (fld w 34 10)
def oA (w : DWord) : Option Operand := Operand.ofBits (fld w 24 10)
def oB (w : DWord) : Option Operand := Operand.ofBits (fld w 14 10)
def oC (w : DWord) : Option Operand := Operand.ofBits (fld w 4 10)
def sD (w : DWord) : Option SReg := sregOfBits (fld w 34 10)
def sA (w : DWord) : Option SReg := sregOfBits (fld w 24 10)
def sB (w : DWord) : Option SReg := sregOfBits (fld w 14 10)
def imm24 (w : DWord) : BitVec 24 := fld w 0 24
def fIty (w : DWord) : Option ITy := ITy.ofBits (fMod w)
def fFty (w : DWord) : Option FTy := FTy.ofBits (fMod w)
def fRm (w : DWord) : Option Rm := Rm.ofBits (fld w 0 2)
def fSz (w : DWord) : Option Sz := Sz.ofBits (fld w 48 3)
def fBar (w : DWord) : Option Bar := barOfBits (fld w 0 8)

/-- The last step of every full word: the fields parse, and what they name is well formed. -/
def finish (i : Option Instr) : Except Illop Instr :=
  match i with
  | none => .error .operand
  | some i => if i.wf then .ok i else .error .operand

/-- A team-scope word: no guard (R72), its unused bits 0. -/
def teamWord (w : DWord) (zeros : Bool) (i : Option Instr) : Except Illop Instr :=
  if fld w 44 4 ≠ 7 then .error .guard
  else if !zeros then .error .reserved
  else finish i

/-- A lane-scope word. -/
def laneWord (w : DWord) (zeros : Bool) (i : Guard → Option Instr) : Except Illop Instr :=
  if !(fGuard w).ok then .error .guard
  else if !zeros then .error .reserved
  else finish (i (fGuard w))

/-- MOD class 0 (R79). -/
def mod0 (w : DWord) : Bool := zer w 48 4

/-- Group 0: control and scalar (Table 5-8). -/
def decode0 (w : DWord) : Except Illop Instr :=
  match (fld w 52 7).toNat with
  | 0x00 => teamWord w (mod0 w && zer w 0 44) (do return .nop)
  | 0x01 => teamWord w (mod0 w && zer w 24 20) (do return .bra (imm24 w))
  | 0x02 => teamWord w (mod0 w && zer w 24 10) (do return .brc (← sD w) (imm24 w))
  | 0x03 => laneWord w (mod0 w && zer w 24 10) fun g => do return .brv g (← oD w) (imm24 w)
  | 0x04 => teamWord w (mod0 w && zer w 0 44) (do return .join)
  | 0x05 => laneWord w (mod0 w && zer w 24 10) fun g => do return .brk g (← oD w) (imm24 w)
  | 0x06 => teamWord w (mod0 w && zer w 24 20) (do return .call (imm24 w))
  | 0x07 => teamWord w (mod0 w && zer w 34 10 && zer w 0 24) (do return .callr (← sA w))
  | 0x08 => teamWord w (mod0 w && zer w 0 44) (do return .ret)
  | 0x09 => teamWord w (mod0 w && zer w 34 10 && zer w 0 24) (do return .jmpr (← sA w))
  | 0x0A => laneWord w (mod0 w && zer w 1 43) fun g => do return .exit g (bit w 0)
  | 0x0B => teamWord w (mod0 w && zer w 0 44) (do return .yield)
  | 0x0C => teamWord w (mod0 w && zer w 16 28) (do return .trap (fld w 0 16))
  | 0x0D => teamWord w (mod0 w && zer w 0 44) (do return .mark)
  | 0x0E => laneWord w (mod0 w && zer w 0 9) fun g => do return .spawn g (← oD w) (← oA w) (fld w 16 8) (fld w 12 4) (fld w 9 3)
  | 0x0F => teamWord w (mod0 w && zer w 8 26) (do return .qry (← sD w) (← QryItem.ofBits (fld w 0 8)))
  | 0x10 => teamWord w (mod0 w && zer w 0 24) (do return .sreg (← sD w) (← oA w))
  | 0x11 => teamWord w (zer w 0 24) (do return .smov (← fIty w) (← sD w) (← oA w))
  | 0x12 => teamWord w (zer w 24 10) (do return .smovi (← fIty w) (← sD w) (imm24 w))
  | 0x13 => teamWord w (mod0 w && zer w 24 10) (do return .smovh (← sD w) (imm24 w))
  | 0x14 => teamWord w (zer w 0 14) (do return .sadd (← fIty w) (← sD w) (← oA w) (← oB w))
  | 0x15 => teamWord w (zer w 0 14) (do return .ssub (← fIty w) (← sD w) (← oA w) (← oB w))
  | 0x16 => teamWord w (zer w 0 14) (do return .smul (← fIty w) (← sD w) (← oA w) (← oB w))
  | 0x17 => teamWord w (zer w 0 14) (do return .smulh (← fIty w) (← sD w) (← oA w) (← oB w))
  | 0x18 => teamWord w (zer w 0 14) (do return .sdiv (← fIty w) (← sD w) (← oA w) (← oB w))
  | 0x19 => teamWord w (zer w 0 14) (do return .srem (← fIty w) (← sD w) (← oA w) (← oB w))
  | 0x1A => teamWord w (zer w 0 14) (do return .sand (← fIty w) (← sD w) (← oA w) (← oB w))
  | 0x1B => teamWord w (zer w 0 14) (do return .sor (← fIty w) (← sD w) (← oA w) (← oB w))
  | 0x1C => teamWord w (zer w 0 14) (do return .sxor (← fIty w) (← sD w) (← oA w) (← oB w))
  | 0x1D => teamWord w (zer w 0 14) (do return .sshl (← fIty w) (← sD w) (← oA w) (← oB w))
  | 0x1E => teamWord w (zer w 0 14) (do return .sshr (← fIty w) (← sD w) (← oA w) (← oB w))
  | 0x1F => teamWord w (zer w 0 14) (do return .ssra (← fIty w) (← sD w) (← oA w) (← oB w))
  | 0x20 => teamWord w (zer w 0 14) (do return .smin (← fIty w) (← sD w) (← oA w) (← oB w))
  | 0x21 => teamWord w (zer w 0 14) (do return .smax (← fIty w) (← sD w) (← oA w) (← oB w))
  | 0x22 => teamWord w (zer w 3 11) (do return .scmp (← fIty w) (← Cc.ofBits (fld w 0 3)) (← sD w) (← oA w) (← oB w))
  | 0x23 => teamWord w (zer w 0 4) (do return .ssel (← fIty w) (← sD w) (← oA w) (← oB w) (← oC w))
  | 0x24 => teamWord w (zer w 0 14) (do return .sbfe (← fIty w) (← sD w) (← oA w) (← oB w))
  | 0x25 => teamWord w (zer w 0 4) (do return .sbfi (← fIty w) (← sD w) (← oA w) (← oB w) (← oC w))
  | 0x26 => teamWord w (zer w 0 24) (do return .spopc (← fIty w) (← sD w) (← oA w))
  | 0x27 => teamWord w (zer w 0 24) (do return .sclz (← fIty w) (← sD w) (← oA w))
  | 0x28 => laneWord w (mod0 w && zer w 0 14) fun g => do return .mbal g (← sD w) (← oA w) (← oB w)
  | 0x29 => laneWord w (mod0 w && zer w 0 24) fun g => do return .many g (← sD w) (← oA w)
  | 0x2A => laneWord w (mod0 w && zer w 0 24) fun g => do return .mall g (← sD w) (← oA w)
  | 0x2B => laneWord w (mod0 w && zer w 0 24) fun g => do return .mpop g (← sD w) (← oA w)
  | 0x2C => laneWord w (mod0 w && zer w 34 10 && zer w 0 24) fun g => do return .mset g (← oA w)
  | 0x2D => teamWord w (mod0 w && zer w 34 10 && zer w 18 6) (do return .setix (fld w 16 2) (← oA w) (fld w 0 16))
  | 0x2E => teamWord w (mod0 w && zer w 34 10) (do if fld w 24 10 = 0 then return .setfmt (.imm (imm24 w)) else if zer w 0 24 then return .setfmt (.reg (← sA w)) else none)
  | 0x2F => teamWord w (mod0 w && zer w 0 34) (do return .getfmt (← sD w))
  | 0x30 => teamWord w (mod0 w && zer w 38 6 && zer w 0 24) (do return .setk (fld w 34 4) (← oA w))
  | 0x31 => teamWord w (mod0 w && zer w 28 6 && zer w 0 24) (do return .getk (← sD w) (fld w 24 4))
  | 0x32 => teamWord w (mod0 w && zer w 24 20 && zer w 18 6) (do return .waitc (fld w 0 6) (fld w 6 6) (fld w 12 6))
  | 0x54 => teamWord w (true) (do return .saddImm (← fIty w) (← sD w) (← oA w) (imm24 w))
  | 0x55 => teamWord w (true) (do return .ssubImm (← fIty w) (← sD w) (← oA w) (imm24 w))
  | 0x56 => teamWord w (true) (do return .smulImm (← fIty w) (← sD w) (← oA w) (imm24 w))
  | 0x5A => teamWord w (true) (do return .sandImm (← fIty w) (← sD w) (← oA w) (imm24 w))
  | 0x5B => teamWord w (true) (do return .sorImm (← fIty w) (← sD w) (← oA w) (imm24 w))
  | 0x5C => teamWord w (true) (do return .sxorImm (← fIty w) (← sD w) (← oA w) (imm24 w))
  | 0x5D => teamWord w (true) (do return .sshlImm (← fIty w) (← sD w) (← oA w) (imm24 w))
  | 0x5E => teamWord w (true) (do return .sshrImm (← fIty w) (← sD w) (← oA w) (imm24 w))
  | 0x5F => teamWord w (true) (do return .ssraImm (← fIty w) (← sD w) (← oA w) (imm24 w))
  | 0x60 => teamWord w (true) (do return .sminImm (← fIty w) (← sD w) (← oA w) (imm24 w))
  | 0x61 => teamWord w (true) (do return .smaxImm (← fIty w) (← sD w) (← oA w) (imm24 w))
  | _ => .error .opcode

/-- Group 1: vector integer (Table 5-9). -/
def decode1 (w : DWord) : Except Illop Instr :=
  match (fld w 52 7).toNat with
  | 0x00 => laneWord w (zer w 1 13) fun g => do return .vadd g (← fIty w) (bit w 0) (← oD w) (← oA w) (← oB w)
  | 0x01 => laneWord w (zer w 1 13) fun g => do return .vsub g (← fIty w) (bit w 0) (← oD w) (← oA w) (← oB w)
  | 0x02 => laneWord w (zer w 0 14) fun g => do return .vmul g (← fIty w) (← oD w) (← oA w) (← oB w)
  | 0x03 => laneWord w (zer w 0 14) fun g => do return .vmulh g (← fIty w) (← oD w) (← oA w) (← oB w)
  | 0x04 => laneWord w (zer w 0 4) fun g => do return .vmad g (← fIty w) (← oD w) (← oA w) (← oB w) (← oC w)
  | 0x05 => laneWord w (zer w 0 14) fun g => do return .vmin g (← fIty w) (← oD w) (← oA w) (← oB w)
  | 0x06 => laneWord w (zer w 0 14) fun g => do return .vmax g (← fIty w) (← oD w) (← oA w) (← oB w)
  | 0x07 => laneWord w (zer w 1 23) fun g => do return .vabs g (← fIty w) (bit w 0) (← oD w) (← oA w)
  | 0x08 => laneWord w (zer w 1 23) fun g => do return .vneg g (← fIty w) (bit w 0) (← oD w) (← oA w)
  | 0x09 => laneWord w (zer w 0 14) fun g => do return .vand g (← fIty w) (← oD w) (← oA w) (← oB w)
  | 0x0A => laneWord w (zer w 0 14) fun g => do return .vor g (← fIty w) (← oD w) (← oA w) (← oB w)
  | 0x0B => laneWord w (zer w 0 14) fun g => do return .vxor g (← fIty w) (← oD w) (← oA w) (← oB w)
  | 0x0C => laneWord w (zer w 0 24) fun g => do return .vnot g (← fIty w) (← oD w) (← oA w)
  | 0x0D => laneWord w (zer w 0 14) fun g => do return .vshl g (← fIty w) (← oD w) (← oA w) (← oB w)
  | 0x0E => laneWord w (zer w 0 14) fun g => do return .vshr g (← fIty w) (← oD w) (← oA w) (← oB w)
  | 0x0F => laneWord w (zer w 0 14) fun g => do return .vsra g (← fIty w) (← oD w) (← oA w) (← oB w)
  | 0x10 => laneWord w (zer w 0 14) fun g => do return .vbfe g (← fIty w) (← oD w) (← oA w) (← oB w)
  | 0x11 => laneWord w (zer w 0 4) fun g => do return .vbfi g (← fIty w) (← oD w) (← oA w) (← oB w) (← oC w)
  | 0x12 => laneWord w (zer w 0 24) fun g => do return .vpopc g (← fIty w) (← oD w) (← oA w)
  | 0x13 => laneWord w (zer w 0 24) fun g => do return .vclz g (← fIty w) (← oD w) (← oA w)
  | 0x14 => laneWord w (zer w 3 11) fun g => do return .vcmp g (← fIty w) (← Cc.ofBits (fld w 0 3)) (← oD w) (← oA w) (← oB w)
  | 0x15 => laneWord w (zer w 0 4) fun g => do return .vsel g (← fIty w) (← oD w) (← oA w) (← oB w) (← oC w)
  | 0x16 => laneWord w (zer w 0 24) fun g => do return .vmov g (← fIty w) (← oD w) (← oA w)
  | 0x17 => laneWord w (zer w 24 10) fun g => do return .vmovi g (← fIty w) (← oD w) (imm24 w)
  | 0x40 => laneWord w (true) fun g => do return .vaddImm g (← fIty w) (← oD w) (← oA w) (imm24 w)
  | 0x41 => laneWord w (true) fun g => do return .vsubImm g (← fIty w) (← oD w) (← oA w) (imm24 w)
  | 0x42 => laneWord w (true) fun g => do return .vmulImm g (← fIty w) (← oD w) (← oA w) (imm24 w)
  | 0x45 => laneWord w (true) fun g => do return .vminImm g (← fIty w) (← oD w) (← oA w) (imm24 w)
  | 0x46 => laneWord w (true) fun g => do return .vmaxImm g (← fIty w) (← oD w) (← oA w) (imm24 w)
  | 0x49 => laneWord w (true) fun g => do return .vandImm g (← fIty w) (← oD w) (← oA w) (imm24 w)
  | 0x4A => laneWord w (true) fun g => do return .vorImm g (← fIty w) (← oD w) (← oA w) (imm24 w)
  | 0x4B => laneWord w (true) fun g => do return .vxorImm g (← fIty w) (← oD w) (← oA w) (imm24 w)
  | 0x4D => laneWord w (true) fun g => do return .vshlImm g (← fIty w) (← oD w) (← oA w) (imm24 w)
  | 0x4E => laneWord w (true) fun g => do return .vshrImm g (← fIty w) (← oD w) (← oA w) (imm24 w)
  | 0x4F => laneWord w (true) fun g => do return .vsraImm g (← fIty w) (← oD w) (← oA w) (imm24 w)
  | _ => .error .opcode

/-- Group 2: vector float (Table 5-10). -/
def decode2 (w : DWord) : Except Illop Instr :=
  match (fld w 52 7).toNat with
  | 0x00 => laneWord w (zer w 2 12) fun g => do return .fadd g (← fFty w) (← fRm w) (← oD w) (← oA w) (← oB w)
  | 0x01 => laneWord w (zer w 2 12) fun g => do return .fsub g (← fFty w) (← fRm w) (← oD w) (← oA w) (← oB w)
  | 0x02 => laneWord w (zer w 2 12) fun g => do return .fmul g (← fFty w) (← fRm w) (← oD w) (← oA w) (← oB w)
  | 0x03 => laneWord w (zer w 2 2) fun g => do return .ffma g (← fFty w) (← fRm w) (← oD w) (← oA w) (← oB w) (← oC w)
  | 0x04 => laneWord w (zer w 2 12) fun g => do return .fmin g (← fFty w) (← fRm w) (← oD w) (← oA w) (← oB w)
  | 0x05 => laneWord w (zer w 2 12) fun g => do return .fmax g (← fFty w) (← fRm w) (← oD w) (← oA w) (← oB w)
  | 0x06 => laneWord w (zer w 2 2 && zer w 7 5 && fld w 12 2 = 3) fun g => do return .fcmp g (← fFty w) (← fRm w) (← Fcc.ofBits (fld w 4 3)) (← oD w) (← oA w) (← oB w)
  | 0x07 => laneWord w (zer w 2 22) fun g => do return .frcp g (← fFty w) (← fRm w) (← oD w) (← oA w)
  | 0x08 => laneWord w (zer w 2 22) fun g => do return .frsq g (← fFty w) (← fRm w) (← oD w) (← oA w)
  | 0x09 => laneWord w (zer w 2 22) fun g => do return .fsqrt g (← fFty w) (← fRm w) (← oD w) (← oA w)
  | 0x0A => laneWord w (zer w 2 12) fun g => do return .fdiv g (← fFty w) (← fRm w) (← oD w) (← oA w) (← oB w)
  | 0x0B => laneWord w (zer w 2 22) fun g => do return .fex2 g (← fFty w) (← fRm w) (← oD w) (← oA w)
  | 0x0C => laneWord w (zer w 2 22) fun g => do return .flg2 g (← fFty w) (← fRm w) (← oD w) (← oA w)
  | 0x0D => laneWord w (zer w 2 22) fun g => do return .fsin g (← fFty w) (← fRm w) (← oD w) (← oA w)
  | 0x0E => laneWord w (zer w 2 22) fun g => do return .fcos g (← fFty w) (← fRm w) (← oD w) (← oA w)
  | 0x0F => laneWord w (zer w 2 22) fun g => do return .ffrc g (← fFty w) (← fRm w) (← oD w) (← oA w)
  | 0x10 => laneWord w (zer w 2 22) fun g => do return .frnd g (← fFty w) (← fRm w) (← oD w) (← oA w)
  | 0x40 => laneWord w (true) fun g => do return .faddImm g (← fFty w) (← oD w) (← oA w) (imm24 w)
  | 0x41 => laneWord w (true) fun g => do return .fsubImm g (← fFty w) (← oD w) (← oA w) (imm24 w)
  | 0x42 => laneWord w (true) fun g => do return .fmulImm g (← fFty w) (← oD w) (← oA w) (imm24 w)
  | 0x44 => laneWord w (true) fun g => do return .fminImm g (← fFty w) (← oD w) (← oA w) (imm24 w)
  | 0x45 => laneWord w (true) fun g => do return .fmaxImm g (← fFty w) (← oD w) (← oA w) (imm24 w)
  | _ => .error .opcode

/-- Group 3: convert and cross-lane (Table 5-11). -/
def decode3 (w : DWord) : Except Illop Instr :=
  match (fld w 52 7).toNat with
  | 0x00 => laneWord w (zer w 0 15) fun g => do return .cvt g (← CTy.ofBits (fMod w)) (← CTy.ofBits (fld w 20 4)) (bit w 15) (← Rm.ofBits (fld w 16 2)) (fld w 18 2) (← oD w) (← oA w)
  | 0x01 => laneWord w (mod0 w && zer w 0 23) fun g => do return .lpack g (bit w 23) (← oD w) (← oA w)
  | 0x02 => laneWord w (mod0 w && zer w 0 23) fun g => do return .lunp g (bit w 23) (← oD w) (← oA w)
  | 0x03 => laneWord w (zer w 2 12) fun g => do return .hpack g (← fFty w) (← fRm w) (← oD w) (← oA w) (← oB w)
  | 0x04 => laneWord w (zer w 2 12) fun g => do return .shfl g (← fIty w) (← ShMode.ofBits (fld w 0 2)) (← oD w) (← oA w) (← oB w)
  | 0x05 => laneWord w (zer w 2 12) fun g => do return .pshw g (← fIty w) (← ShMode.ofBits (fld w 0 2)) (← oD w) (← oA w) (← oB w)
  | 0x06 => laneWord w (zer w 0 14) fun g => do return .bcst g (← fIty w) (← oD w) (← oA w) (← oB w)
  | 0x07 => laneWord w (mod0 w && zer w 0 14) fun g => do return .vred g (← ROp.ofBits (fld w 21 3)) (← RTy.ofBits (bit w 20) (fld w 16 4)) (← Rm.ofBits (fld w 14 2)) (← oD w) (← oA w)
  | 0x08 => laneWord w (mod0 w && zer w 0 13) fun g => do return .vscan g (← ROp.ofBits (fld w 21 3)) (← RTy.ofBits (bit w 20) (fld w 16 4)) (bit w 13) (← Rm.ofBits (fld w 14 2)) (← oD w) (← oA w)
  | _ => .error .opcode

/-- Group 4: memory (Table 5-12). -/
def decode4 (w : DWord) : Except Illop Instr :=
  match (fld w 52 7).toNat with
  | 0x00 => laneWord w (true) fun g => do return .ld g (← fSz w) (bit w 51) (← oD w) (← oA w) (imm24 w)
  | 0x01 => laneWord w (true) fun g => do return .st g (← fSz w) (bit w 51) (← oD w) (← oA w) (imm24 w)
  | 0x02 => teamWord w (true) (do return .lds (← fSz w) (bit w 51) (← sD w) (← sA w) (imm24 w))
  | 0x03 => teamWord w (true) (do return .sts (← fSz w) (bit w 51) (← sD w) (← sA w) (imm24 w))
  | 0x04 => laneWord w (true) fun g => do return .ldl g (← fSz w) (bit w 51) (← oD w) (← oA w) (imm24 w)
  | 0x05 => laneWord w (true) fun g => do return .stl g (← fSz w) (bit w 51) (← oD w) (← oA w) (imm24 w)
  | 0x06 => laneWord w (true) fun g => do return .lda g (← fSz w) (bit w 51) (← oD w) (← oA w) (imm24 w)
  | 0x07 => laneWord w (true) fun g => do return .sta g (← fSz w) (bit w 51) (← oD w) (← oA w) (imm24 w)
  | 0x08 => laneWord w (zer w 34 10) fun g => do return .pref g (← fSz w) (bit w 51) (← oA w) (imm24 w)
  | 0x09 => laneWord w (zer w 34 10) fun g => do return .cflush g (← fSz w) (bit w 51) (← oA w) (imm24 w)
  | 0x0A => laneWord w (zer w 34 10) fun g => do return .cinv g (← fSz w) (bit w 51) (← oA w) (imm24 w)
  | _ => .error .opcode

/-- Group 5: atomics, remote and copy (Table 5-13). -/
def decode5 (w : DWord) : Except Illop Instr :=
  match (fld w 52 7).toNat with
  | 0x00 => laneWord w (zer w 4 5) fun g => do return .atom g (← ATy.ofBits (fMod w)) (← AOp.ofBits (fld w 0 4)) (← Ord.ofBits (fld w 9 2)) (← Scope.ofBits (fld w 11 3)) (← optOperandOfBits (fld w 34 10)) (← oA w) (← oB w)
  | 0x01 => laneWord w (zer w 34 10 && zer w 4 5) fun g => do return .red g (← ATy.ofBits (fMod w)) (← AOp.ofBits (fld w 0 4)) (← Ord.ofBits (fld w 9 2)) (← Scope.ofBits (fld w 11 3)) (← oA w) (← oB w)
  | 0x02 => laneWord w (zer w 51 1) fun g => do return .put g (← fSz w) (← oD w) (← oA w) (imm24 w)
  | 0x03 => laneWord w (zer w 51 1 && zer w 0 6) fun g => do return .putn g (← fSz w) (← oD w) (← oA w) (← oB w) (fld w 6 8)
  | 0x04 => laneWord w (zer w 51 1 && zer w 0 4) fun g => do return .putm g (← fSz w) (← oD w) (← oA w) (← oB w) (← sregOfBits (fld w 4 10))
  | 0x05 => laneWord w (zer w 51 1) fun g => do return .get g (← fSz w) (← oD w) (← oA w) (imm24 w)
  | 0x06 => laneWord w (zer w 4 5) fun g => do return .ratom g (← ATy.ofBits (fMod w)) (← AOp.ofBits (fld w 0 4)) (← Ord.ofBits (fld w 9 2)) (← Scope.ofBits (fld w 11 3)) (← optOperandOfBits (fld w 34 10)) (← oA w) (← oB w)
  | 0x07 => teamWord w (mod0 w) (do return .cpy (← sD w) (← sA w) (← sB w) (← Space.ofBits (fld w 11 3)) (← Space.ofBits (fld w 8 3)) (← fBar w))
  | 0x08 => teamWord w (mod0 w) (do return .cpyt (← sD w) (← sA w) (← sB w) (← Space.ofBits (fld w 11 3)) (← Space.ofBits (fld w 8 3)) (← fBar w))
  | _ => .error .opcode

/-- Group 6: matrix (Table 5-14). -/
def decode6 (w : DWord) : Except Illop Instr :=
  match (fld w 52 7).toNat with
  | 0x00 => teamWord w (mod0 w && fld w 37 7 = 0x72 && zer w 0 34) (do return .macq (fld w 34 3))
  | 0x01 => teamWord w (mod0 w && zer w 0 44) (do return .mrel)
  | 0x02 => teamWord w (mod0 w && zer w 34 10 && zer w 0 24) (do return .mgang (← sA w))
  | 0x03 => teamWord w (mod0 w && zer w 8 26) (do return .mwld (← sD w) (← fBar w))
  | 0x04 => teamWord w (mod0 w && (if bit w 13 then zer w 34 10 else zer w 9 4)) (do return .mma (← if bit w 13 then some (.feedback (fld w 10 3) (bit w 9)) else (sD w).map .plain) (fld w 26 8) (fld w 17 9) (fld w 14 3) (bit w 8) (← fBar w))
  | 0x05 => teamWord w (mod0 w && zer w 9 5) (do return .mmag (← sD w) (fld w 26 8) (fld w 17 9) (fld w 14 3) (bit w 8) (← fBar w))
  | 0x06 => teamWord w ((bit w 50 || zer w 48 2) && (bit w 9 || zer w 24 10)) (do return .mdrn (bit w 51) (if bit w 50 then MFmt.ofBits (fld w 48 2) else none) (← sD w) (← if bit w 9 then (sA w).map some else some none) (← sB w) (fld w 11 3) (bit w 10) (bit w 8) (← fBar w))
  | 0x07 => teamWord w (mod0 w && zer w 16 28) (do return .mzro (fld w 8 8) (← fBar w))
  | 0x08 => teamWord w (mod0 w && zer w 0 28) (do return .mtld (← oD w) (fld w 31 3) (fld w 28 3))
  | 0x09 => teamWord w (mod0 w && zer w 0 28) (do return .mtst (← oD w) (fld w 31 3) (fld w 28 3))
  | 0x0A => teamWord w (mod0 w && zer w 8 23) (do return .mpoly (fld w 41 3) (fld w 38 3) (fld w 35 3) (fld w 31 4) (← fBar w))
  | 0x0B => teamWord w (zer w 51 1 && zer w 8 15) (do return .miter (← MiterForm.ofBits (fld w 48 2)) (bit w 50) (fld w 41 3) (fld w 38 3) (fld w 35 3) (fld w 27 8) (fld w 23 4) (← fBar w))
  | 0x0C => teamWord w (mod0 w && zer w 8 26) (do return .mtab (← sD w) (← fBar w))
  | 0x0D => teamWord w (mod0 w && zer w 4 30) (do return .mstat (← sD w) (fld w 0 4))
  | _ => .error .opcode

/-- Group 7: transactions, synchronisation, collectives and travel (Table 5-15). -/
def decode7 (w : DWord) : Except Illop Instr :=
  match (fld w 52 7).toNat with
  | 0x00 => teamWord w (mod0 w && zer w 24 20) (do return .txb (imm24 w))
  | 0x01 => teamWord w (mod0 w && zer w 24 20) (do return .txo (imm24 w))
  | 0x02 => teamWord w (mod0 w && zer w 0 44) (do return .txe)
  | 0x03 => teamWord w (mod0 w && zer w 0 44) (do return .txr)
  | 0x04 => teamWord w (mod0 w && zer w 0 44) (do return .txa)
  | 0x05 => teamWord w (mod0 w && zer w 0 34) (do return .txs (← sD w))
  | 0x06 => teamWord w (mod0 w && zer w 14 30 && zer w 0 9) (do return .fence (← Ord.ofBits (fld w 9 2)) (← Scope.ofBits (fld w 11 3)))
  | 0x07 => teamWord w (mod0 w && zer w 34 10 && zer w 0 4) (do return .bini (← sA w) (← oB w) (← oC w))
  | 0x08 => teamWord w (mod0 w && zer w 0 14) (do return .barv (← optSregOfBits (fld w 34 10)) (← sA w) (← oB w))
  | 0x09 => teamWord w (mod0 w && zer w 34 10 && zer w 0 14) (do return .bwt (← sA w) (← oB w))
  | 0x0A => teamWord w (zer w 51 1 && zer w 34 10 && zer w 0 14) (do return .qpsh (fld w 48 3) (← sA w) (← sB w))
  | 0x0B => teamWord w (zer w 51 1 && zer w 0 24) (do return .qpop (fld w 48 3) (← sD w) (← sA w))
  | 0x0C => teamWord w (mod0 w && zer w 34 10 && zer w 0 14) (do return .ntfy (← sA w) (← oB w))
  | 0x0D => teamWord w (mod0 w && zer w 34 10 && zer w 0 14) (do return .nwt (← sA w) (← oB w))
  | 0x0E => teamWord w (mod0 w && zer w 4 30) (do return .tlrd (← Eng.ofBits (fld w 0 2)) (← TlMode.ofBits (fld w 2 2)) (← sD w))
  | 0x0F => teamWord w (mod0 w && zer w 34 10 && zer w 2 22) (do return .tlwt (← Eng.ofBits (fld w 0 2)) (← sA w))
  | 0x10 => laneWord w (zer w 51 1 && zer w 8 8) fun g => do return .coll g (← COpn.ofBits (fld w 48 3)) (← oD w) (← oA w) (fld w 16 8) (← fBar w)
  | 0x11 => laneWord w (mod0 w && zer w 0 34) fun g => do return .xfer g (← oD w)
  | _ => .error .opcode

/-- A full word, by the group of its OP (R71, Table 5-2). -/
def decodeFull (w : DWord) : Except Illop Instr :=
  match (fld w 59 3).toNat with
  | 0 => decode0 w
  | 1 => decode1 w
  | 2 => decode2 w
  | 3 => decode3 w
  | 4 => decode4 w
  | 5 => decode5 w
  | 6 => decode6 w
  | _ => decode7 w

/-- One half of a pair word (Table 5-7). -/
def decodeHalf (x : BitVec 31) : Option Half :=
  if x.extractLsb' 0 5 = 0 then do
    return { pop := ← Pop.ofBits (x.extractLsb' 24 7), hpred := ← HPred.ofBits (x.extractLsb' 22 2),
             imm := x.extractLsb' 21 1 = 1, d := x.extractLsb' 13 8, s := x.extractLsb' 5 8 }
  else none

/-- A pair word (R82 to R85): H0 in bits 61:31, H1 in bits 30:0. -/
def decodePair (w : DWord) : Except Illop Instr :=
  match decodeHalf (fld w 31 31), decodeHalf (fld w 0 31) with
  | some h0, some h1 => if (Instr.pairWord h0 h1).wf then .ok (.pairWord h0 h1) else .error .pair
  | _, _ => .error .pair

/-- The instruction a word is, or why it is ILLOP (R70, R87): decided from the word alone. -/
def decode (w : DWord) : Except Illop Instr :=
  match (fld w 62 2).toNat with
  | 0 => decodeFull w
  | 1 => decodePair w
  | _ => .error .kind

/-- The decoder on bytes, lowest address first (R4, R70): it reads eight and leaves the rest. -/
def decodeBytes (bs : List Byte) : Except Illop (Instr × List Byte) :=
  if bs.length < 8 then .error .short
  else (decode (BitVec.ofNat 64 (leNat (bs.take 8)))).map fun i => (i, bs.drop 8)

/-- The instruction the decoder reads from the word `w`; a word is 64 bits and is stored little-endian (R70). -/
def decodeTableWord (_nbits w : Nat) : Option Instr :=
  match decodeBytes (leBytes 8 w) with
  | .ok (i, _) => some i
  | .error _ => none

/-! ## The encoder -/

/-- A full word (Table 5-2). -/
def encFull (op : BitVec 10) (md : BitVec 4) (g : Guard) (body : BitVec 44) : DWord :=
  0#2 ++ op ++ md ++ BitVec.ofBool g.neg ++ g.pred ++ body
/-- Bits 43:0 in form A (Table 5-3). -/
def encA (d a b c : BitVec 10) (aux : BitVec 4) : BitVec 44 := d ++ a ++ b ++ c ++ aux
/-- Bits 43:0 in forms I, M and B (Table 5-3). -/
def encI (d a : BitVec 10) (imm : BitVec 24) : BitVec 44 := d ++ a ++ imm
/-- MOD of a memory word: the streaming hint above the size code (R79). -/
def encSz (sz : Sz) (strm : Bool) : BitVec 4 := BitVec.ofBool strm ++ sz.bits
/-- Bits 43:0 of an atomic (Table 12-4). -/
def encAtom (d : BitVec 10) (base b : Operand) (ord : Ord) (scope : Scope) (op : AOp) : BitVec 44 :=
  d ++ base.bits ++ b.bits ++ scope.bits ++ ord.bits ++ 0#5 ++ op.bits
/-- Bits 43:0 of CPY and CPYT (Table 12-7). -/
def encCopy (dst src len : SReg) (dsp ssp : Space) (bar : Bar) : BitVec 44 :=
  sregBits dst ++ sregBits src ++ sregBits len ++ dsp.bits ++ ssp.bits ++ barBits bar
/-- Bits 43:0 of VRED and VSCAN (R192). -/
def encRed (d a : Operand) (op : ROp) (t : RTy) (rm : Rm) (excl : Bool) : BitVec 44 :=
  d.bits ++ a.bits ++ op.bits ++ BitVec.ofBool t.isFloat ++ t.bits ++ rm.bits ++ BitVec.ofBool excl ++ 0#13
def encHalf (h : Half) : BitVec 31 :=
  h.pop.bits ++ h.hpred.bits ++ BitVec.ofBool h.imm ++ h.d ++ h.s ++ 0#5
/-- AUX with one flag in bit 0, or a rounding mode in bits 1:0. -/
def auxBit (b : Bool) : BitVec 4 := 0#3 ++ BitVec.ofBool b
def auxRm (m : Rm) : BitVec 4 := 0#2 ++ m.bits

/-- The word of an instruction, from the same tables; an event has none. -/
def encode : Instr → Option DWord
  | .nop => some (encFull 0x000 0 .always (0))
  | .bra disp => some (encFull 0x001 0 .always (encI 0 0 disp))
  | .brc c disp => some (encFull 0x002 0 .always (encI (sregBits c) 0 disp))
  | .brv g c disp => some (encFull 0x003 0 g (encI c.bits 0 disp))
  | .join => some (encFull 0x004 0 .always (0))
  | .brk g c disp => some (encFull 0x005 0 g (encI c.bits 0 disp))
  | .call disp => some (encFull 0x006 0 .always (encI 0 0 disp))
  | .callr a => some (encFull 0x007 0 .always (encI 0 (sregBits a) 0))
  | .ret => some (encFull 0x008 0 .always (0))
  | .jmpr a => some (encFull 0x009 0 .always (encI 0 (sregBits a) 0))
  | .exit g crew => some (encFull 0x00A 0 g (encA 0 0 0 0 (auxBit crew)))
  | .yield => some (encFull 0x00B 0 .always (0))
  | .trap code => some (encFull 0x00C 0 .always (encI 0 0 (0#8 ++ code)))
  | .mark => some (encFull 0x00D 0 .always (0))
  | .spawn g pay dest entry lenm1 pd => some (encFull 0x00E 0 g (pay.bits ++ dest.bits ++ entry ++ lenm1 ++ pd ++ 0#9))
  | .qry d item => some (encFull 0x00F 0 .always (encI (sregBits d) 0 (0#16 ++ item.bits)))
  | .sreg d a => some (encFull 0x010 0 .always (encA (sregBits d) a.bits 0 0 0))
  | .smov t d a => some (encFull 0x011 t.bits .always (encA (sregBits d) a.bits 0 0 0))
  | .smovi t d imm => some (encFull 0x012 t.bits .always (encI (sregBits d) 0 imm))
  | .smovh d imm => some (encFull 0x013 0 .always (encI (sregBits d) 0 imm))
  | .sadd t d a b => some (encFull 0x014 t.bits .always (encA (sregBits d) a.bits b.bits 0 0))
  | .ssub t d a b => some (encFull 0x015 t.bits .always (encA (sregBits d) a.bits b.bits 0 0))
  | .smul t d a b => some (encFull 0x016 t.bits .always (encA (sregBits d) a.bits b.bits 0 0))
  | .smulh t d a b => some (encFull 0x017 t.bits .always (encA (sregBits d) a.bits b.bits 0 0))
  | .sdiv t d a b => some (encFull 0x018 t.bits .always (encA (sregBits d) a.bits b.bits 0 0))
  | .srem t d a b => some (encFull 0x019 t.bits .always (encA (sregBits d) a.bits b.bits 0 0))
  | .sand t d a b => some (encFull 0x01A t.bits .always (encA (sregBits d) a.bits b.bits 0 0))
  | .sor t d a b => some (encFull 0x01B t.bits .always (encA (sregBits d) a.bits b.bits 0 0))
  | .sxor t d a b => some (encFull 0x01C t.bits .always (encA (sregBits d) a.bits b.bits 0 0))
  | .sshl t d a b => some (encFull 0x01D t.bits .always (encA (sregBits d) a.bits b.bits 0 0))
  | .sshr t d a b => some (encFull 0x01E t.bits .always (encA (sregBits d) a.bits b.bits 0 0))
  | .ssra t d a b => some (encFull 0x01F t.bits .always (encA (sregBits d) a.bits b.bits 0 0))
  | .smin t d a b => some (encFull 0x020 t.bits .always (encA (sregBits d) a.bits b.bits 0 0))
  | .smax t d a b => some (encFull 0x021 t.bits .always (encA (sregBits d) a.bits b.bits 0 0))
  | .saddImm t d a imm => some (encFull 0x054 t.bits .always (encI (sregBits d) a.bits imm))
  | .ssubImm t d a imm => some (encFull 0x055 t.bits .always (encI (sregBits d) a.bits imm))
  | .smulImm t d a imm => some (encFull 0x056 t.bits .always (encI (sregBits d) a.bits imm))
  | .sandImm t d a imm => some (encFull 0x05A t.bits .always (encI (sregBits d) a.bits imm))
  | .sorImm t d a imm => some (encFull 0x05B t.bits .always (encI (sregBits d) a.bits imm))
  | .sxorImm t d a imm => some (encFull 0x05C t.bits .always (encI (sregBits d) a.bits imm))
  | .sshlImm t d a imm => some (encFull 0x05D t.bits .always (encI (sregBits d) a.bits imm))
  | .sshrImm t d a imm => some (encFull 0x05E t.bits .always (encI (sregBits d) a.bits imm))
  | .ssraImm t d a imm => some (encFull 0x05F t.bits .always (encI (sregBits d) a.bits imm))
  | .sminImm t d a imm => some (encFull 0x060 t.bits .always (encI (sregBits d) a.bits imm))
  | .smaxImm t d a imm => some (encFull 0x061 t.bits .always (encI (sregBits d) a.bits imm))
  | .scmp t cc d a b => some (encFull 0x022 t.bits .always (encA (sregBits d) a.bits b.bits 0 (0#1 ++ cc.bits)))
  | .ssel t d a b c => some (encFull 0x023 t.bits .always (encA (sregBits d) a.bits b.bits c.bits 0))
  | .sbfe t d a b => some (encFull 0x024 t.bits .always (encA (sregBits d) a.bits b.bits 0 0))
  | .sbfi t d a b c => some (encFull 0x025 t.bits .always (encA (sregBits d) a.bits b.bits c.bits 0))
  | .spopc t d a => some (encFull 0x026 t.bits .always (encA (sregBits d) a.bits 0 0 0))
  | .sclz t d a => some (encFull 0x027 t.bits .always (encA (sregBits d) a.bits 0 0 0))
  | .mbal g d a w => some (encFull 0x028 0 g (encA (sregBits d) a.bits w.bits 0 0))
  | .many g d a => some (encFull 0x029 0 g (encA (sregBits d) a.bits 0 0 0))
  | .mall g d a => some (encFull 0x02A 0 g (encA (sregBits d) a.bits 0 0 0))
  | .mpop g d a => some (encFull 0x02B 0 g (encA (sregBits d) a.bits 0 0 0))
  | .mset g a => some (encFull 0x02C 0 g (encA 0 a.bits 0 0 0))
  | .setix n a imm => some (encFull 0x02D 0 .always (encI 0 a.bits (0#6 ++ n ++ imm)))
  | .setfmt (.imm x) => some (encFull 0x02E 0 .always (encI 0 0 x))
  | .setfmt (.reg r) => some (encFull 0x02E 0 .always (encI 0 (sregBits r) 0))
  | .getfmt d => some (encFull 0x02F 0 .always (encA (sregBits d) 0 0 0 0))
  | .setk n a => some (encFull 0x030 0 .always (encA (0#6 ++ n) a.bits 0 0 0))
  | .getk d n => some (encFull 0x031 0 .always (encA (sregBits d) (0#6 ++ n) 0 0 0))
  | .waitc ld st rm => some (encFull 0x032 0 .always (encI 0 0 (0#6 ++ rm ++ st ++ ld)))
  | .vadd g t sat d a b => some (encFull 0x080 t.bits g (encA d.bits a.bits b.bits 0 (auxBit sat)))
  | .vsub g t sat d a b => some (encFull 0x081 t.bits g (encA d.bits a.bits b.bits 0 (auxBit sat)))
  | .vmul g t d a b => some (encFull 0x082 t.bits g (encA d.bits a.bits b.bits 0 0))
  | .vmulh g t d a b => some (encFull 0x083 t.bits g (encA d.bits a.bits b.bits 0 0))
  | .vmad g t d a b c => some (encFull 0x084 t.bits g (encA d.bits a.bits b.bits c.bits 0))
  | .vmin g t d a b => some (encFull 0x085 t.bits g (encA d.bits a.bits b.bits 0 0))
  | .vmax g t d a b => some (encFull 0x086 t.bits g (encA d.bits a.bits b.bits 0 0))
  | .vabs g t sat d a => some (encFull 0x087 t.bits g (encA d.bits a.bits 0 0 (auxBit sat)))
  | .vneg g t sat d a => some (encFull 0x088 t.bits g (encA d.bits a.bits 0 0 (auxBit sat)))
  | .vand g t d a b => some (encFull 0x089 t.bits g (encA d.bits a.bits b.bits 0 0))
  | .vor g t d a b => some (encFull 0x08A t.bits g (encA d.bits a.bits b.bits 0 0))
  | .vxor g t d a b => some (encFull 0x08B t.bits g (encA d.bits a.bits b.bits 0 0))
  | .vnot g t d a => some (encFull 0x08C t.bits g (encA d.bits a.bits 0 0 0))
  | .vshl g t d a b => some (encFull 0x08D t.bits g (encA d.bits a.bits b.bits 0 0))
  | .vshr g t d a b => some (encFull 0x08E t.bits g (encA d.bits a.bits b.bits 0 0))
  | .vsra g t d a b => some (encFull 0x08F t.bits g (encA d.bits a.bits b.bits 0 0))
  | .vbfe g t d a b => some (encFull 0x090 t.bits g (encA d.bits a.bits b.bits 0 0))
  | .vbfi g t d a b c => some (encFull 0x091 t.bits g (encA d.bits a.bits b.bits c.bits 0))
  | .vpopc g t d a => some (encFull 0x092 t.bits g (encA d.bits a.bits 0 0 0))
  | .vclz g t d a => some (encFull 0x093 t.bits g (encA d.bits a.bits 0 0 0))
  | .vcmp g t cc d a b => some (encFull 0x094 t.bits g (encA d.bits a.bits b.bits 0 (0#1 ++ cc.bits)))
  | .vsel g t d a b c => some (encFull 0x095 t.bits g (encA d.bits a.bits b.bits c.bits 0))
  | .vmov g t d a => some (encFull 0x096 t.bits g (encA d.bits a.bits 0 0 0))
  | .vmovi g t d imm => some (encFull 0x097 t.bits g (encI d.bits 0 imm))
  | .vaddImm g t d a imm => some (encFull 0x0C0 t.bits g (encI d.bits a.bits imm))
  | .vsubImm g t d a imm => some (encFull 0x0C1 t.bits g (encI d.bits a.bits imm))
  | .vmulImm g t d a imm => some (encFull 0x0C2 t.bits g (encI d.bits a.bits imm))
  | .vminImm g t d a imm => some (encFull 0x0C5 t.bits g (encI d.bits a.bits imm))
  | .vmaxImm g t d a imm => some (encFull 0x0C6 t.bits g (encI d.bits a.bits imm))
  | .vandImm g t d a imm => some (encFull 0x0C9 t.bits g (encI d.bits a.bits imm))
  | .vorImm g t d a imm => some (encFull 0x0CA t.bits g (encI d.bits a.bits imm))
  | .vxorImm g t d a imm => some (encFull 0x0CB t.bits g (encI d.bits a.bits imm))
  | .vshlImm g t d a imm => some (encFull 0x0CD t.bits g (encI d.bits a.bits imm))
  | .vshrImm g t d a imm => some (encFull 0x0CE t.bits g (encI d.bits a.bits imm))
  | .vsraImm g t d a imm => some (encFull 0x0CF t.bits g (encI d.bits a.bits imm))
  | .fadd g t rm d a b => some (encFull 0x100 t.bits g (encA d.bits a.bits b.bits 0 (auxRm rm)))
  | .fsub g t rm d a b => some (encFull 0x101 t.bits g (encA d.bits a.bits b.bits 0 (auxRm rm)))
  | .fmul g t rm d a b => some (encFull 0x102 t.bits g (encA d.bits a.bits b.bits 0 (auxRm rm)))
  | .ffma g t rm d a b c => some (encFull 0x103 t.bits g (encA d.bits a.bits b.bits c.bits (auxRm rm)))
  | .fmin g t rm d a b => some (encFull 0x104 t.bits g (encA d.bits a.bits b.bits 0 (auxRm rm)))
  | .fmax g t rm d a b => some (encFull 0x105 t.bits g (encA d.bits a.bits b.bits 0 (auxRm rm)))
  | .fcmp g t rm cc d a b => some (encFull 0x106 t.bits g (encA d.bits a.bits b.bits (3#2 ++ 0#5 ++ cc.bits) (auxRm rm)))
  | .frcp g t rm d a => some (encFull 0x107 t.bits g (encA d.bits a.bits 0 0 (auxRm rm)))
  | .frsq g t rm d a => some (encFull 0x108 t.bits g (encA d.bits a.bits 0 0 (auxRm rm)))
  | .fsqrt g t rm d a => some (encFull 0x109 t.bits g (encA d.bits a.bits 0 0 (auxRm rm)))
  | .fdiv g t rm d a b => some (encFull 0x10A t.bits g (encA d.bits a.bits b.bits 0 (auxRm rm)))
  | .fex2 g t rm d a => some (encFull 0x10B t.bits g (encA d.bits a.bits 0 0 (auxRm rm)))
  | .flg2 g t rm d a => some (encFull 0x10C t.bits g (encA d.bits a.bits 0 0 (auxRm rm)))
  | .fsin g t rm d a => some (encFull 0x10D t.bits g (encA d.bits a.bits 0 0 (auxRm rm)))
  | .fcos g t rm d a => some (encFull 0x10E t.bits g (encA d.bits a.bits 0 0 (auxRm rm)))
  | .ffrc g t rm d a => some (encFull 0x10F t.bits g (encA d.bits a.bits 0 0 (auxRm rm)))
  | .frnd g t rm d a => some (encFull 0x110 t.bits g (encA d.bits a.bits 0 0 (auxRm rm)))
  | .faddImm g t d a imm => some (encFull 0x140 t.bits g (encI d.bits a.bits imm))
  | .fsubImm g t d a imm => some (encFull 0x141 t.bits g (encI d.bits a.bits imm))
  | .fmulImm g t d a imm => some (encFull 0x142 t.bits g (encI d.bits a.bits imm))
  | .fminImm g t d a imm => some (encFull 0x144 t.bits g (encI d.bits a.bits imm))
  | .fmaxImm g t d a imm => some (encFull 0x145 t.bits g (encI d.bits a.bits imm))
  | .cvt g dst src chk rm sel d a => some (encFull 0x180 dst.bits g (d.bits ++ a.bits ++ src.bits ++ sel ++ rm.bits ++ BitVec.ofBool chk ++ 0#15))
  | .lpack g raw d a => some (encFull 0x181 0 g (d.bits ++ a.bits ++ BitVec.ofBool raw ++ 0#23))
  | .lunp g raw d a => some (encFull 0x182 0 g (d.bits ++ a.bits ++ BitVec.ofBool raw ++ 0#23))
  | .hpack g t rm d a b => some (encFull 0x183 t.bits g (encA d.bits a.bits b.bits 0 (auxRm rm)))
  | .shfl g t mode d a b => some (encFull 0x184 t.bits g (encA d.bits a.bits b.bits 0 (0#2 ++ mode.bits)))
  | .pshw g t mode d a b => some (encFull 0x185 t.bits g (encA d.bits a.bits b.bits 0 (0#2 ++ mode.bits)))
  | .bcst g t d a b => some (encFull 0x186 t.bits g (encA d.bits a.bits b.bits 0 0))
  | .vred g op t rm d a => some (encFull 0x187 0 g (encRed d a op t rm false))
  | .vscan g op t excl rm d a => some (encFull 0x188 0 g (encRed d a op t rm excl))
  | .pairWord h0 h1 => some (1#2 ++ encHalf h0 ++ encHalf h1)
  | .ld g sz strm d base ofs => some (encFull 0x200 (encSz sz strm) g (encI d.bits base.bits ofs))
  | .st g sz strm data base ofs => some (encFull 0x201 (encSz sz strm) g (encI data.bits base.bits ofs))
  | .lds sz strm d base ofs => some (encFull 0x202 (encSz sz strm) .always (encI (sregBits d) (sregBits base) ofs))
  | .sts sz strm data base ofs => some (encFull 0x203 (encSz sz strm) .always (encI (sregBits data) (sregBits base) ofs))
  | .ldl g sz strm d base ofs => some (encFull 0x204 (encSz sz strm) g (encI d.bits base.bits ofs))
  | .stl g sz strm data base ofs => some (encFull 0x205 (encSz sz strm) g (encI data.bits base.bits ofs))
  | .lda g sz strm d base ofs => some (encFull 0x206 (encSz sz strm) g (encI d.bits base.bits ofs))
  | .sta g sz strm data base ofs => some (encFull 0x207 (encSz sz strm) g (encI data.bits base.bits ofs))
  | .pref g sz strm base ofs => some (encFull 0x208 (encSz sz strm) g (encI 0 base.bits ofs))
  | .cflush g sz strm base ofs => some (encFull 0x209 (encSz sz strm) g (encI 0 base.bits ofs))
  | .cinv g sz strm base ofs => some (encFull 0x20A (encSz sz strm) g (encI 0 base.bits ofs))
  | .atom g t op ord scope d base b => some (encFull 0x280 t.bits g (encAtom (optOperandBits d) base b ord scope op))
  | .red g t op ord scope base b => some (encFull 0x281 t.bits g (encAtom 0 base b ord scope op))
  | .put g sz data base ofs => some (encFull 0x282 (encSz sz false) g (encI data.bits base.bits ofs))
  | .putn g sz data base ctr inc => some (encFull 0x283 (encSz sz false) g (data.bits ++ base.bits ++ ctr.bits ++ inc ++ 0#6))
  | .putm g sz data base mask stride => some (encFull 0x284 (encSz sz false) g (data.bits ++ base.bits ++ mask.bits ++ sregBits stride ++ 0#4))
  | .get g sz d base ofs => some (encFull 0x285 (encSz sz false) g (encI d.bits base.bits ofs))
  | .ratom g t op ord scope d base b => some (encFull 0x286 t.bits g (encAtom (optOperandBits d) base b ord scope op))
  | .cpy dst src len dsp ssp bar => some (encFull 0x287 0 .always (encCopy dst src len dsp ssp bar))
  | .cpyt dst src geo dsp ssp bar => some (encFull 0x288 0 .always (encCopy dst src geo dsp ssp bar))
  | .macq p => some (encFull 0x300 0 .always (0x72#7 ++ p ++ 0#34))
  | .mrel => some (encFull 0x301 0 .always (0))
  | .mgang n => some (encFull 0x302 0 .always (encI 0 (sregBits n) 0))
  | .mwld w bar => some (encFull 0x303 0 .always (sregBits w ++ 0#26 ++ barBits bar))
  | .mma (.plain a) row0 rows ct acc bar => some (encFull 0x304 0 .always (sregBits a ++ row0 ++ rows ++ ct ++ 0#5 ++ BitVec.ofBool acc ++ barBits bar))
  | .mma (.feedback ft tr) row0 rows ct acc bar => some (encFull 0x304 0 .always (0#10 ++ row0 ++ rows ++ ct ++ 1#1 ++ ft ++ BitVec.ofBool tr ++ BitVec.ofBool acc ++ barBits bar))
  | .mmag a row0 rows ct acc bar => some (encFull 0x305 0 .always (sregBits a ++ row0 ++ rows ++ ct ++ 0#5 ++ BitVec.ofBool acc ++ barBits bar))
  | .mdrn clr quant dst bias geom ct toW act bar =>
    some (encFull 0x306 (BitVec.ofBool clr ++ (match quant with
        | none => 0#3
        | some f => 1#1 ++ f.bits)) .always
      (sregBits dst ++ (match bias with
        | none => 0#10
        | some r => sregBits r) ++ sregBits geom ++ ct ++ BitVec.ofBool toW ++ BitVec.ofBool bias.isSome
        ++ BitVec.ofBool act ++ barBits bar))
  | .mzro mask bar => some (encFull 0x307 0 .always (0#28 ++ mask ++ barBits bar))
  | .mtld v ct slab => some (encFull 0x308 0 .always (v.bits ++ ct ++ slab ++ 0#28))
  | .mtst v ct slab => some (encFull 0x309 0 .always (v.bits ++ ct ++ slab ++ 0#28))
  | .mpoly x y p deg bar => some (encFull 0x30A 0 .always (x ++ y ++ p ++ deg ++ 0#23 ++ barBits bar))
  | .miter form frob x a scr cap thr bar => some (encFull 0x30B (0#1 ++ BitVec.ofBool frob ++ form.bits) .always (x ++ a ++ scr ++ cap ++ thr ++ 0#15 ++ barBits bar))
  | .mtab w bar => some (encFull 0x30C 0 .always (sregBits w ++ 0#26 ++ barBits bar))
  | .mstat d item => some (encFull 0x30D 0 .always (sregBits d ++ 0#30 ++ item))
  | .txb disp => some (encFull 0x380 0 .always (encI 0 0 disp))
  | .txo disp => some (encFull 0x381 0 .always (encI 0 0 disp))
  | .txe => some (encFull 0x382 0 .always (0))
  | .txr => some (encFull 0x383 0 .always (0))
  | .txa => some (encFull 0x384 0 .always (0))
  | .txs d => some (encFull 0x385 0 .always (encA (sregBits d) 0 0 0 0))
  | .fence ord scope => some (encFull 0x386 0 .always (0#30 ++ scope.bits ++ ord.bits ++ 0#9))
  | .bini bar bytes arr => some (encFull 0x387 0 .always (encA 0 (sregBits bar) bytes.bits arr.bits 0))
  | .barv d bar bytes => some (encFull 0x388 0 .always (encA (optSregBits d) (sregBits bar) bytes.bits 0 0))
  | .bwt bar ph => some (encFull 0x389 0 .always (encA 0 (sregBits bar) ph.bits 0 0))
  | .qpsh e q s => some (encFull 0x38A (0#1 ++ e) .always (encA 0 (sregBits q) (sregBits s) 0 0))
  | .qpop e d q => some (encFull 0x38B (0#1 ++ e) .always (encA (sregBits d) (sregBits q) 0 0 0))
  | .ntfy ctr inc => some (encFull 0x38C 0 .always (encA 0 (sregBits ctr) inc.bits 0 0))
  | .nwt ctr tgt => some (encFull 0x38D 0 .always (encA 0 (sregBits ctr) tgt.bits 0 0))
  | .tlrd eng mode d => some (encFull 0x38E 0 .always (sregBits d ++ 0#30 ++ mode.bits ++ eng.bits))
  | .tlwt eng n => some (encFull 0x38F 0 .always (0#10 ++ sregBits n ++ 0#22 ++ eng.bits))
  | .coll g opn addr key group bar => some (encFull 0x390 (0#1 ++ opn.bits) g (addr.bits ++ key.bits ++ group ++ 0#8 ++ barBits bar))
  | .xfer g t => some (encFull 0x391 0 g (t.bits ++ 0#34))
  | .recordSlotWrite .. | .requestDatagram .. | .arbitrationDecision | .queuePromotion ..
  | .holdCounterWake .. | .crewPlacement .. | .reservingKernel | .rangeTakeRetry .. | .islandFailure ..
  | .activeMessage .. | .binTimerExpiry .. | .poolReinject .. | .overflowReinject .. | .segmentMapRefresh ..
  | .replicaWindow .. | .replicaRetirement .. | .teamPromotion .. | .loadDataWritten .. | .storePerformed ..
  | .remoteAcknowledge .. | .demandPageFill .. | .readSharedCopy .. | .migrationWindow ..
  | .migrationCopyDone .. | .teamWake .. | .irrevocableTokenGrant .. | .irrevocableTimeout ..
  | .copyChunkWritten .. | .arrayArbitration .. | .arrayRequestPromotion .. | .matrixCommandComplete ..
  | .miterPhase .. | .collectivePacket .. | .collChunkComplete .. | .collComplete .. | .chunkTimeout ..
  | .deadlineSlack .. | .packetRelay .. | .packetReturn .. | .packetDelivery .. | .flitReceived ..
  | .nakRepeat .. | .linkDownTimeout .. | .limitsPeriod .. | .credit .. | .limits .. | .swapreq ..
  | .swapack .. | .train .. | .laneSampleWindow .. | .swapTimeout .. | .lightLoss .. | .laserModuleDark ..
  | .uncorrectableError .. | .kernelRetirement .. | .qcfgWrite .. | .tcfgWrite .. | .releaseHeld ..
  | .ptrootWrite .. | .eqheadWrite .. | .eqRingWrite .. | .eqlostWrite .. | .tlbinvGo .. | .tlbinvDone
  | .faultreply .. | .groupTableWrite .. | .preemptStop .. | .preemptStopDone .. | .preemptResume ..
  | .preemptResumeDone .. | .crewctlResume .. | .crewctlEnd .. | .crewctlRollback .. | .tenantReset ..
  | .tenantResetDone .. | .warmReset | .coldReset | .bootStage .. | .attest | .attestDone
  | .mgmtRegisterWrite .. | .clockStep .. | .thermalStop .. | .registerWrite .. | .hostMemoryAccess ..
  | .recordWindowWrite .. | .lightReturn .. | .powerOn => none

/-- The bytes of an instruction in memory order (R4, R70). -/
def encodeBytes (i : Instr) : Option (List Byte) := (encode i).map fun w => leBytes 8 w.toNat

/-- The rows that are instruction words; the others are events. -/
def Instr.isWord (i : Instr) : Bool := (encode i).isSome

end Sys2Proof
end

