-- ==== Sys2Proof/Config.lean ====
section
/-! DEFINITION. What one panel fixes, and the free values: constants with no body, of which nothing can be proved.
Each names the log entry that says what the spec leaves open. -/

namespace Sys2Proof.Config

/-- Words a team issues in the skid of a halt, before the limit of 8 (R375, log 9). Arguments: tick, team index. -/
opaque skid : Nat → Nat → Nat
/-- Whether a RED is kept update-only (R207, log 12). Argument: tick. -/
opaque redLocal : Nat → Bool
/-- Which of two TLB entries leaves a full TLB (log 13): the position of the victim. Argument: tick. -/
opaque tlbVictim : Nat → Nat
/-- The HANDLE of a halt (R377 names none, log 14), never 0 by its user. Argument: serial number of halts. -/
opaque handle : Nat → BitVec 32
/-- Laser source module of island, port, group (R54: fixed for each panel, differs between panels; log 15). -/
opaque laser : Nat → Nat → Nat → BitVec 8
/-- Virtual address of the topology table that QRY returns to a tenant (R54, R140; log 16): the page number. -/
opaque topoPage : Nat → BitVec 40
/-- Virtual address of a crew's timeline mirrors (R355; log 17). Arguments: tenant, island, number of the
crew. -/
opaque mirrorPage : Nat → Nat → Nat → BitVec 40
/-- A frame of HBM4E given to a page (R59, R214; log 8). Arguments: tick, size code. -/
opaque frame : Nat → Nat → Nat
/-- The SM3 digest of some bytes (R414, R415; log 18). -/
opaque sm3 : List (BitVec 8) → BitVec 256
/-- Whether an SM2 signature over a digest is good under a public key (R414; log 18). Arguments: key, digest, signature. -/
opaque sm2Verifies : BitVec 512 → BitVec 256 → BitVec 512 → Bool
/-- The Quotriux public key fused in the security engine (R414; log 18). -/
opaque fusedKey : BitVec 512
/-- The public half of the device identity key (R415; log 18). -/
opaque identityKey : BitVec 512
/-- A signature by the identity key over a digest (R415; log 18). Arguments: tick, digest. -/
opaque sm2Sign : Nat → BitVec 256 → BitVec 512
/-- The panel's serial number (R415; log 18). -/
opaque serial : BitVec 64
/-- What stands in a report for the digest of firmware that no boot has read yet (R415; log 18). Argument: boot stage. -/
opaque unread : Nat → BitVec 256
/-- A numbered choice among outcomes the spec allows (log 19): which of two values an undefined race gives.
Argument: tick. -/
opaque choice : Nat → Nat

end Sys2Proof.Config
end

