-- ==== Sys2Proof/Machine/SMap.lean ====
section
/-! DEFINITION. The sparse maps State is built from: association lists whose keys rise strictly. Maps of values that
have a reading for an absent key (memory bytes, registers) never list that reading, so that equal contents are equal
lists. -/

namespace Sys2Proof.Machine

/-- Key and value pairs, keys strictly rising. -/
abbrev SMap (α : Type) := List (Nat × α)

namespace SMap

/-- The value at a key. -/
def find? {α : Type} : SMap α → Nat → Option α
  | [], _ => none
  | (a, v) :: m, k => if k = a then some v else find? m k

/-- The value at a key, or `d` where the key is not listed. -/
def get {α : Type} (d : α) (m : SMap α) (k : Nat) : α := (find? m k).getD d

/-- `m` with `v` at `k`. -/
def put {α : Type} : SMap α → Nat → α → SMap α
  | [], k, v => [(k, v)]
  | (a, w) :: m, k, v =>
    if k < a then (k, v) :: (a, w) :: m
    else if k = a then (k, v) :: m
    else (a, w) :: put m k v

/-- `m` without `k`. -/
def del {α : Type} : SMap α → Nat → SMap α
  | [], _ => []
  | (a, w) :: m, k => if k = a then del m k else (a, w) :: del m k

/-- `m` with `v` at `k`, where an unlisted key reads `d`: writing `d` removes the entry. -/
def set {α : Type} [DecidableEq α] (d : α) (m : SMap α) (k : Nat) (v : α) : SMap α :=
  if v = d then del m k else put m k v

/-- `m` with `f` applied to the value at `k`, if there is one. -/
def upd {α : Type} : SMap α → Nat → (α → α) → SMap α
  | [], _, _ => []
  | (a, w) :: m, k, f => if k = a then (a, f w) :: m else (a, w) :: upd m k f

/-- Every value changed by `f`. -/
def mapVals {α : Type} (m : SMap α) (f : Nat → α → α) : SMap α := m.map fun (k, v) => (k, f k v)

def keys {α : Type} (m : SMap α) : List Nat := m.map Prod.fst
def vals {α : Type} (m : SMap α) : List α := m.map Prod.snd

/-- Keys rise strictly from `lo`. -/
def risingFrom {α : Type} : Nat → SMap α → Bool
  | _, [] => true
  | lo, (a, _) :: m => decide (lo ≤ a) && risingFrom (a + 1) m

/-- The canonical form of a map of values: keys rise strictly and no value is the reading of an absent key. -/
def canon {α : Type} [DecidableEq α] (d : α) (m : SMap α) : Bool :=
  risingFrom 0 m && m.all fun kv => decide (kv.2 ≠ d)

end SMap

end Sys2Proof.Machine
end

