-- ==== Sys2Proof/Machine/State.lean ====
section
/-! DEFINITION. State as plain data: everything the spec gives the panel (INVENTORY.md, State, lists every piece with
its rule and reset value), the machine's own fields, and the state right after reset. -/

namespace Sys2Proof.Machine

/-! ## Names -/

/-- Trap causes (Table 20-1). -/
inductive Cause
  | illop | regbound | fmtbad | spacebound | misalign | perm | remotels | notmapped | enginedeny | arith | miterdiv
  | ganglost | mcastdomain | colloverrun | stackovf | travelovf | ue | brk
deriving DecidableEq, Repr

/-- Abort codes of a transaction (Table 17-1). -/
inductive TxCode
  | none | conflict | rdcap | wrcap | nest | forbid | attr | trap | page | halt | explicit | long | sleep
deriving DecidableEq, Repr

/-- STATE of a reconvergence entry (R123). -/
inductive RecState | first | second | brk
deriving DecidableEq, Repr

/-- Page attributes (Table 11-4). -/
inductive Attr | priv | shared | coherent | none
deriving DecidableEq, Repr

/-- The wait counters (Table 7-2). -/
inductive Ctr | ld | st | rm
deriving DecidableEq, Repr

/-! ## Teams -/

/-- One reconvergence entry (R107, R123); `off = none` is UNSET. -/
structure RecEntry where
  st : RecState
  off : Option Nat
  saved : Mask
  todo : Mask
  fmt : BitVec 24
deriving DecidableEq, Repr

/-- The registers of a team. Vector register `r` of lane `l` has key `256 * l + r`; a register not listed holds 0. -/
structure Regs where
  v : SMap Word := []
  p : SMap Mask := []
  s : SMap Word := []
  ix : SMap (BitVec 16) := []
  fmt : BitVec 24 := 0
  /-- the fmt a lane of a team formed from arrivals brought, until the team's first SETFMT (R121) -/
  laneFmt : SMap (BitVec 24) := []
deriving DecidableEq, Repr

/-- Where a team stands (R103, R105, R107, R118, R130). The reconvergence stack lists its newest entry first; return
stacks list their oldest first, as Table 7-4 does. -/
structure Flow where
  pc : Nat := 0
  mask : Mask := 0
  stack : List RecEntry := []
  ret : List Nat := []
  laneRet : SMap (List Nat) := []
  /-- lanes that have exited or departed: what still lands for them is not visible (R132) -/
  ended : Mask := 0
deriving DecidableEq, Repr

/-- What a team does besides being ready or held (Table 7-3). Halted teams are those of a halted crew. -/
inductive TeamStatus
  | run
  /-- sleeping: the global lines and the L-space words it waits on (R326, R333) -/
  | sleeping (lines : List Nat) (words : List Nat)
  /-- parked in the fault buffer of an island, or waiting for an entry (R214) -/
  | parked
  /-- latched by MMAG (R276) -/
  | latched
deriving DecidableEq, Repr

/-- What an attempt has buffered: the lines of the write set, its bytes, which of them an atomic wrote last (R388), and
the counter additions of NTFY (R353). -/
structure TxWrites where
  lines : List Nat := []
  bytes : SMap Byte := []
  atomics : List Nat := []
  adds : List (Nat × Nat) := []
deriving DecidableEq, Repr

/-- An open transaction (R323 to R328). -/
structure Tx where
  restart : Flow
  abortPath : Nat
  reads : List Nat := []
  w : TxWrites := {}
  /-- the L-space words that waiting instructions test (R333), by their number in the crew's L-space -/
  words : List Nat := []
  /-- alternatives, newest first: target and the writes buffered at its TXO (R326) -/
  alts : List (Nat × TxWrites) := []
  irrev : Bool := false
  opened : Nat := 0
  /-- accesses made: a number in the order of operations, virtual and physical address (R212) -/
  pages : List (Nat × (Nat × Nat)) := []
deriving DecidableEq, Repr

/-- What TXS reports between transactions (R342). -/
structure TxStat where
  code : TxCode := .none
  conflicts : Nat := 0
  /-- the attempt now starting is a restart (R338) -/
  again : Bool := false
  /-- the team has asked for the irrevocable token (R328) -/
  asked : Bool := false
  /-- CONFLICT aborts in a row of the waiting instruction at which it stands, outside a transaction (R334) -/
  waits : Nat := 0
deriving DecidableEq, Repr

/-- The latch of an issued MMAG (R294). -/
structure Latch where
  seq : BitVec 8
  asrc : Nat
  row0 : Nat
  rows : Nat
  ct : Nat
  acc : Bool
  bar : Option Nat
deriving DecidableEq, Repr

/-- The payload of a lane entry: words of SPAWN or MESSAGE (R33, R138), or a travelling payload (Table 7-4). -/
inductive Payload
  | words (ws : List Word)
  | travel (s : List Word) (fmt : BitVec 24) (ret : List Nat) (v : List Word)
deriving DecidableEq, Repr

/-- The span tag of a write (R386): kernel, crew index, number of a resident team's span. -/
structure SpanTag where
  kernel : Nat
  crew : Nat
  span : Nat
deriving DecidableEq, Repr

/-- A lane entry (R65, R249). -/
structure LaneEntry where
  kernel : Nat
  /-- entry code offset: with the kernel, the key of its bin -/
  off : Nat
  isl : Nat
  core : Nat
  payload : Payload
  /-- the core whose departure buffer holds it, for a travelling payload in flight (R119) -/
  src : Option Nat := none
  /-- queue and SEQ of the MESSAGE that made it, while that has not finished (R50) -/
  msg : Option (Nat × Nat) := none
  /-- the mesh endpoint port that sent it, where packets keep their order: key 10 * island + cluster, 9 for the
  dispatcher (R248) -/
  port : Option Nat := none
  /-- it stands in the router before its core, which could not take it (R249) -/
  stuck : Bool := false
  /-- the span whose SPAWN made it (R390) -/
  span : Option SpanTag := none
  /-- a number of the SPAWN that made it, and its place among the lanes (R139) -/
  spawn : Option (Nat × Nat) := none
  /-- the span number of the rolled-back team that it forms again (R390, R391) -/
  redo : Option Nat := none
  /-- when it entered its bin (R66) -/
  at_ : Nat := 0
deriving DecidableEq, Repr

/-- Scheduling state (R113, R114). -/
structure Sched where
  age : Nat := 0
  level : Nat := 0
  /-- when it was promoted (R114) -/
  promoted : Option Nat := none
  readySince : Nat := 0
  /-- when its last 8 words issued, the latest first: what a skid can have been (R375, log 9) -/
  recent : List Nat := []
deriving DecidableEq, Repr

/-- Wait counters (R111). -/
structure Counters where
  ld : Nat := 0
  st : Nat := 0
  rm : Nat := 0
deriving DecidableEq, Repr

structure Team where
  crew : Nat
  /-- %team: slot `index mod 4` -/
  index : Nat
  lanes : Nat
  vregs : Nat
  regs : Regs := {}
  flow : Flow := {}
  cnt : Counters := {}
  status : TeamStatus := .run
  sched : Sched := {}
  tx : Option Tx := none
  txs : TxStat := {}
  gang : DWord := 0
  gangSeq : BitVec 8 := 0
  latch : Option Latch := none
  /-- slices of the overflow mask (R331) -/
  ovf : List Nat := []
  span : Nat := 0
  /-- lane entries that formed the team and are not consumed by a MARK (R136, R387) -/
  formedBy : List LaneEntry := []
  /-- the sleep of a transaction or wait has met a change (R330) -/
  wakeDue : Bool := false
  /-- a restarted matrix issue keeps its gang sequence number (Table 20-2) -/
  gangKept : Bool := false
  skid : Nat := 0
deriving DecidableEq, Repr

/-! ## Engines -/

/-- The chunk of a copy command while packets carry some of its pieces (R243, R251): the packets still to be answered, and
the source pieces that have come, by place among the pieces; `reading` until its writes are sent. -/
structure CopyFly where
  reading : Bool
  left : Nat
  got : SMap (List Byte) := []
deriving DecidableEq, Repr

/-- A CPY or CPYT command (R243) and its progress. -/
structure CopyCmd where
  no : Nat
  team : Nat
  /-- index of the issuing team in its crew (R377) -/
  teamIdx : Nat := 0
  dsp : Space
  ssp : Space
  dst : Nat
  src : Nat
  rowb : Nat
  rows : Nat
  sstr : Nat
  dstr : Nat
  bar : Option Nat
  row : Nat := 0
  pos : Nat := 0
  /-- bytes of the source that the command's own chunks have written over: what they held before, by source address
  (R245) -/
  before : SMap Byte := []
  /-- its chunk on the fabric -/
  fly : Option CopyFly := none
  span : Option SpanTag := none
deriving DecidableEq, Repr

structure CopyCtx where
  crew : Option Nat := none
  timeline : Nat := 0
  issued : Nat := 0
  cmds : List CopyCmd := []
  /-- stalled on a translation (R214), or stopped by a cause (R244) -/
  stalled : Bool := false
  stopped : Bool := false
deriving DecidableEq, Repr

/-- One segment of a COLL (R364): key, address. -/
structure CollSeg where
  key : Nat
  va : Nat
deriving DecidableEq, Repr

/-- A chunk of one key of a COLL on one island (R366): the contributions in hand with their mask, per sender. -/
structure CollChunk where
  key : Nat
  chunk : Nat
  /-- contributions received: sender, mask, elements -/
  got : List (Nat × (Nat × List Byte)) := []
  /-- this island's contribution once it is read; nothing where the command names no segment of the key -/
  own : Option (List Byte) := none
  readyAt : Nat := 0
  /-- its value has been sent onward, or flushed (R370) -/
  sent : Bool := false
  /-- the deadline requests of its read and of its write, until served (R367) -/
  req : Option Nat := none
  wreq : Option Nat := none
  /-- the result, with its contributor mask, and when it came (R367) -/
  result : Option (Nat × List Byte) := none
  resultAt : Nat := 0
  written : Bool := false
  /-- its bytes count among those subtracted, or to be subtracted, from the barrier (R365) -/
  counted : Bool := false
deriving DecidableEq, Repr

structure CollCmd where
  no : Nat
  team : Nat
  /-- index of the issuing team in its crew (R377) -/
  teamIdx : Nat := 0
  opn : COpn
  group : Nat
  /-- words 0 to 3 of the entry at issue (R360) -/
  entry : List DWord
  instanceNo : Nat
  /-- the numbering of the entry it belongs to (R371) -/
  epoch : Nat
  /-- the instance it belongs to, among those of the panel -/
  inst : Nat := 0
  begunAt : Nat
  /-- when it came to the head of its context (R367) -/
  headAt : Option Nat := none
  segs : List CollSeg
  bar : Option Nat
  chunks : List CollChunk := []
  /-- bytes written and not yet subtracted from the barrier: those of the last chunk (R346) -/
  bytes : Nat := 0
  /-- the deadline request of its status record (R367) -/
  sreq : Option Nat := none
  span : Option SpanTag := none
deriving DecidableEq, Repr

structure CollCtx where
  crew : Option Nat := none
  timeline : Nat := 0
  issued : Nat := 0
  cmds : List CollCmd := []
  stalled : Bool := false
  stopped : Bool := false
deriving DecidableEq, Repr

/-- A chunk of one instance (R364): the member it comes from, or none where it is reduced; key; number. -/
structure CollPart where
  src : Option Nat
  key : Nat
  chunk : Nat
deriving DecidableEq, Repr

/-- What the engines hold of an instance of a group that some member has begun and not all have completed. -/
structure CollInst where
  group : Nat
  no : Nat
  /-- the entry's words that must agree (R360) -/
  entry : List DWord
  /-- determinism mode (R361) -/
  determ : Bool := false
  /-- the members that have begun it, with the keys each names -/
  keys : List (Nat × List Nat) := []
  /-- chunks whose result is formed, with their contributors (R365) -/
  formed : List (CollPart × Nat) := []
  /-- re-plans, newest first: the new root, and the keys and chunks that had started (R369) -/
  plans : List (Nat × List (Nat × Nat)) := []
deriving DecidableEq, Repr

/-- A collective packet (R365): group, instance, key, chunk, sender, receiver, upward or result, mask, data. `moving` until
it reaches its receiver's engine, which passes what is not upward on along the tree (`tree`): to `dest`, or to every
member (R366). -/
structure CollPkt where
  group : Nat
  inst : Nat
  key : Nat
  chunk : Nat
  sender : Nat
  dst : Nat
  up : Bool
  tree : Bool := false
  dest : Option Nat := none
  moving : Bool := true
  mask : Nat
  bytes : List Byte
  /-- packets of its data still on the fabric (R251) -/
  left : Nat := 0
deriving DecidableEq, Repr

/-- Counts of a group on an island since its entry was written (R365, R371): instances begun, late contributions
dropped; and how often the entry has been written. -/
structure GroupInst where
  begun : Nat := 0
  late : Nat := 0
  epoch : Nat := 0
deriving DecidableEq, Repr

/-! ## Crews -/

/-- A cause of an engine context that has not been reported (R374). -/
structure EngineCause where
  cause : Cause
  engine : Nat
  team : Nat
  cmd : Nat
  addr : Nat
  /-- the span that issued the command (R378) -/
  span : Option SpanTag := none
deriving DecidableEq, Repr

/-- The halt of a crew (R375, R377). -/
structure Halt where
  cause : Cause
  handle : Word
  team : Nat
  engine : Nat
  cmd : Nat
  /-- of an engine cause, the span that issued the command (R378) -/
  span : Option SpanTag := none
deriving DecidableEq, Repr

structure Crew where
  kernel : Nat
  idx : Nat
  isl : Nat
  core : Nat
  closing : Bool := false
  /-- it has exited and stands only until its engine commands complete (R288) -/
  exited : Bool := false
  lbase : Nat := 0
  abase : Nat := 0
  lmem : SMap Byte := []
  amem : SMap Byte := []
  halt : Option Halt := none
  pending : List EngineCause := []
  copyCtx : Option Nat := none
  mxCtx : Option Nat := none
  collCtx : Option Nat := none
  commTeam : Option Nat := none
  /-- panel physical address of the mirror line (R355); absent where its island had no free frame -/
  mirror : Option Nat := none
  /-- saved by a pre-emption: it stands in its island's save area and on no core (R380) -/
  saved : Bool := false
  saveOrder : Nat := 0
  /-- when its last team ended or its last queued arrival left its core (R69) -/
  lastBusy : Nat := 0
  /-- bin entries saved with the last of the kernel's crews to leave its core (Table 20-9) -/
  savedBins : List LaneEntry := []
  /-- stopped by a pre-emption that has not finished (R380) -/
  stop : Bool := false
  /-- its copy and collective contexts while it is saved (Table 20-9) -/
  savedCopy : Option CopyCtx := none
  savedColl : Option CollCtx := none
deriving DecidableEq, Repr

/-! ## Kernels -/

structure Shape where
  teams : Nat
  lanes : Nat
  vregs : Nat
deriving DecidableEq, Repr

/-- Entry-table entry (Table 2-3), FILL and TIMER as they stand. -/
structure Entry where
  off : Nat
  fill : Nat
  timer : Nat
  liveV : Nat
  target : Bool
  handler : Bool
  start : Bool
deriving DecidableEq, Repr

/-- Segment-table entry (Table 2-4). -/
structure Seg where
  start : Nat
  len : Nat
  thresh : Nat
  maxrep : Nat
deriving DecidableEq, Repr

/-- The fields of an image (R25). -/
structure Image where
  codeVa : Nat
  codeBytes : Nat
  lspace : Nat
  aspace : Nat
  wspace : Nat
  entries : List Entry
  segs : List Seg
deriving DecidableEq, Repr

/-- The fields of a LAUNCH record (Table 2-6). -/
structure Launch where
  entry : Nat
  residentId : Nat
  determ : Bool
  resident : Bool
  travel : Bool
  rollback : Bool
  imageVa : Nat
  extent : Nat
  shape : Shape
  affN : Nat
  affVa : Nat
  sigN : Nat
  sigVa : Nat
  ovfUnits : Nat
  args : List Word
  holdBase : Nat
  /-- offset and target of each hold counter in use -/
  holds : List (Nat × Word)
deriving DecidableEq, Repr

/-- Where a kernel stands: accepted and not taken, held, ready to place or running. -/
inductive Phase | accepted | held | ready
deriving DecidableEq, Repr

/-- One journalled range of crew indices (R63). -/
structure Range where
  isl : Nat
  lo : Nat
  hi : Nat
  next : Nat
  exited : Nat
deriving DecidableEq, Repr

/-- A holder of a segment (R68, R69). -/
structure Holder where
  core : Nat
  load : Nat
  lastArrival : Nat
  inMap : Bool
deriving DecidableEq, Repr

/-- A segment's holders, its count of windows above THRESH, and the windows of 1 µs whose end is done (R69). -/
structure SegMap where
  holders : List Holder := []
  hot : Nat := 0
  windows : Nat := 0
deriving DecidableEq, Repr

structure Kernel where
  tenant : Nat
  queue : Nat
  seq : Nat
  launch : Launch
  image : Image
  phase : Phase := .accepted
  /-- acceptance order (R29, R57) -/
  accept : Nat
  level : Nat := 0
  readyAt : Nat := 0
  /-- island set (R58), ascending logical id -/
  isls : Option (List Nat) := none
  leader : Nat := 0
  next : Nat := 0
  ranges : List Range := []
  pool : List (Nat × Nat) := []
  rangeRetryAt : Option Nat := none
  placed : Nat := 0
  exited : Nat := 0
  lastPlaced : Nat := 0
  pins : List Nat := []
  segMap : List SegMap := []
  /-- refreshes of the segment map done, one each 1 µs (R68) -/
  mapsDone : Nat := 0
  overflow : List LaneEntry := []
  /-- where its overflow area lies (R28) -/
  ovfPa : Option Nat := none
  /-- accepted MESSAGE records that wait for the first crew: queue, SEQ, words (R29) -/
  waitMsgs : List (Nat × (Nat × List DWord)) := []
  /-- its affinity ranges as the PCP read them when it fixed the island set (R58) -/
  aff : Option (List (Nat × Nat)) := none
  /-- spans that a full write log made non-rollbackable (R389) -/
  noRoll : List SpanTag := []
  /-- UE addresses a span has already been relaunched for (R391) -/
  struck : List (SpanTag × Nat) := []
  retry : Bool := false
deriving DecidableEq, Repr

/-! ## Memory operations in flight -/

/-- One lane's access of an operation: the lane, the panel physical address or typed-space offset, the bytes stored or
the operand bits, and the second operand of .cas. -/
structure Access where
  lane : Nat
  addr : Nat
  attr : Attr := .coherent
  data : Nat := 0
  data2 : Nat := 0
  home : Nat := 0
  va : Nat := 0
deriving DecidableEq, Repr

/-- What an operation in flight does when it is performed. -/
inductive OpKind
  | load (sp : Space) (n : Nat) (scalar : Bool) (d : Nat)
  | store (sp : Space) (n : Nat)
  | atom (t : ATy) (op : AOp) (d : Option Nat) (acq : Option Scope)
  | red (t : ATy) (op : AOp) (rel : Bool)
  | flush (n : Nat)
  | inv (n : Nat)
  | put (n : Nat)
  | get (n : Nat) (d : Nat)
  | ratom (t : ATy) (op : AOp) (d : Option Nat) (acq : Option Scope)
  | ntfy
deriving DecidableEq, Repr

/-- A counter addition of a PUTN that waits for the writes of its instruction (R254): its place in the stream to the
counter's island and among the team's packets was taken at issue (R253). -/
structure LateAdd where
  /-- number of its packet -/
  id : Nat
  pa : Nat
  inc : Nat
  dst : Nat
  sseq : Nat
deriving DecidableEq, Repr

structure Op where
  team : Nat
  crew : Nat
  kernel : Nat
  tenant : Nat
  isl : Nat
  core : Nat
  ctr : Ctr
  kind : OpKind
  accs : List Access
  strm : Bool := false
  /-- packets of a remote operation not yet acknowledged or landed -/
  left : Nat := 0
  /-- the counters of a PUTN, with their addresses -/
  ctrs : List Access := []
  /-- counter additions of a PUTN not yet sent (R254) -/
  adds : List LateAdd := []
  span : Option SpanTag := none
deriving DecidableEq, Repr

/-! ## Lenper -/

/-- What a packet asks of its destination, or brings back (Table 13-3). -/
inductive Cargo
  | write (bytes : List Byte)
  | read (n : Nat) (lane : Nat)
  | readData (lane : Nat) (bytes : List Byte)
  | atomic (t : ATy) (op : AOp) (lane : Nat) (b b2 : Nat)
  | atomicReply (lane : Nat) (old : Nat)
  | notify (inc : Nat)
  | ack
  /-- a part of a packet of the collective engine -/
  | coll (pkt : Nat) (bytes : List Byte)
  /-- a lane entry on its way to another island (R249) -/
  | active (e : LaneEntry)
  | returned
deriving DecidableEq, Repr

/-- An island that a packet's header has left while flits of it are still to leave: the port it left by and the port it came
in by. -/
structure Leg where
  isl : Nat
  port : Nat
  came : Option Nat
deriving DecidableEq, Repr

structure Packet where
  route : Nat
  src : Nat
  dst : Nat
  sep : Nat
  sseq : Nat
  pa : Nat
  tenant : Nat
  cargo : Cargo
  /-- the operation it belongs to -/
  op : Nat
  /-- for a copy engine's packet: context, command number and place of the piece -/
  eng : Option (Nat × (Nat × Nat)) := none
  /-- the island that holds it -/
  at_ : Nat
  hop : Nat := 0
  /-- on a link: its header has not been accepted at the other end -/
  onLink : Bool := false
  /-- flits of it accepted where its header stands, and whether the last is among them; at its source all stand -/
  got : Nat := 0
  whole : Bool := true
  /-- how many flits its link had accepted before its header: the order in which headers came in -/
  turn : Nat := 0
  /-- the islands that still have flits of it to send on, by hop class -/
  legs : SMap Leg := []
  /-- at its destination's compute stack -/
  arrived : Bool := false
  /-- which of ROUTE0 and ROUTE1 it was last sent on, and of which generation of the table (R241) -/
  alt : Bool := false
  gen : Nat := 0
  /-- a returned packet keeps its cargo here until it is resent (R251) -/
  orig : Option Cargo := none
  /-- of a returned packet: the island that returned it, and ROUTE in its original header (R251) -/
  sentBack : Option (Nat × Nat) := none
  span : Option SpanTag := none
  /-- the input port whose slots it holds (R258) -/
  came : Option Nat := none
deriving DecidableEq, Repr

/-- Numbering of one stream: next SSEQ at the source, next to perform at the destination, acknowledgements landed
(R253). SSEQ counts on here; the 16 bits of a header are its low bits. -/
structure Stream where
  next : Nat := 0
  perform : Nat := 0
  acked : Nat := 0
deriving DecidableEq, Repr

/-- Payload of a control flit (Table 13-6). -/
inductive Ctl
  | credit (freed : List Nat)
  | limits (epoch : BitVec 8) (lim : List Nat)
  | swapreq (guide leaving entering : Nat) (s : Nat) (no : BitVec 8)
  | swapack (no : BitVec 8) (agree : Bool)
  | train (code : Nat) (liveWl : Nat) (bitmap : Nat)
deriving DecidableEq, Repr

/-- A flit (R255): sequence number, channel, hop class, first and last flags, its place in its packet, the packet or the
control payload. ACKSEQ and NAK are those of its sender when it is taken in. -/
structure Flit where
  fseq : Nat
  part : Nat := 0
  vc : Nat := 0
  hop : Nat := 0
  first : Bool := false
  last : Bool := false
  pkt : Option Nat := none
  ctl : Option Ctl := none
  /-- the input port whose slot it holds where it waits to be sent on (R258) -/
  came : Option Nat := none
deriving DecidableEq, Repr

/-- A swap proposal (R262). -/
structure Swap where
  guide : Nat
  leaving : Nat
  entering : Nat
  s : Nat
  no : BitVec 8
  sentAt : Nat
  /-- the spare is handed back (R264) -/
  back : Bool := false
  /-- agreed to: it takes effect at flit S (R262) -/
  agreed : Bool := false
deriving DecidableEq, Repr

/-- One end of a Lenper link (R257 to R264): what it sends and what it receives. -/
structure Link where
  lstate : Nat := 0
  /-- bitmap of the live data wavelengths, the same on every waveguide -/
  lit : Nat := 0
  -- sending side
  nextFseq : Nat := 0
  /-- data flits that wait for credit or for the port, and control flits that wait for room in the retry buffer -/
  out : List Flit := []
  retry : List Flit := []
  wire : List Flit := []
  /-- slots in use at the other end, oldest first: channel and hop class, plus 4 where the slot is free there and its credit has
  not come back -/
  used : List (Nat × Nat) := []
  limit : List Nat := [1024, 1024, 1024, 1024]
  -- receiving side
  lastAcc : Nat := 65535
  accepted : Nat := 0
  /-- when NAK is next set, and whether the next flit that this end sends carries it (R257) -/
  nakDue : Option Nat := none
  nakSend : Bool := false
  /-- since when no flit has been accepted, idle ones included -/
  badSince : Option Nat := none
  rlimit : List Nat := [1024, 1024, 1024, 1024]
  /-- the most of each channel's limits that the sender may obey until it has the last LIMITS (R259) -/
  rlimitOld : List Nat := [1024, 1024, 1024, 1024]
  epoch : BitVec 8 := 0
  /-- in core cycles, two to a link cycle -/
  slotCycles : List Nat := [0, 0, 0, 0]
  freed : List Nat := [0, 0, 0, 0]
  /-- up to when `slotCycles` is counted, and the number of the last period (R259) -/
  since : Nat := 0
  period : Nat := 0
  /-- data flits accepted in the period (R259) -/
  dataIn : Nat := 0
  /-- number of the last sampling window (R261) -/
  window : Nat := 0
  /-- arrived control payloads not yet acted on, oldest first -/
  ctlIn : List Ctl := []
deriving DecidableEq, Repr

/-- Wavelength upkeep of a link end's receiving direction (R261 to R264). -/
structure Lanes where
  /-- windows in a row above the error limit, and below the margin limit: key 32 * guide + wavelength -/
  errs : SMap Nat := []
  margins : SMap Nat := []
  /-- the wavelength each guide's spare stands in for -/
  spare : SMap Nat := []
  /-- clean windows of a wavelength whose light returned, 3 once it is added back: key 32 * guide + wavelength -/
  back : SMap Nat := []
  /-- the guides whose spare is to be handed back by a second exchange (R264) -/
  owed : List Nat := []
  swap : Option Swap := none
  peerSwap : Option Swap := none
  nextNo : BitVec 8 := 0
  /-- a restripe in progress: LIVE_WL before it and the laser module involved, 0xFF for none (R263, R266) -/
  restripe : Option (Nat × Nat) := none
  darkBits : Nat := 0
deriving DecidableEq, Repr

/-! ## The matrix engine -/

/-- The rows of A-space a command takes: of a crew, at an offset, how many; and where they lie on the crew's core, whose
A-space holds them when the crew is gone (R197, R276). -/
structure Slab where
  crew : Nat
  off : Nat
  rows : Nat
  key : Nat
  abase : Nat
deriving DecidableEq, Repr

/-- Matrix commands (15_matrix_instructions), operands read at issue. -/
inductive MxKind
  | mwld (base : Nat)
  /-- `feedback`: source tile and transposition; `bfmt`: the plane
  format recorded at issue (R290) -/
  | mma (feedback : Option (Nat × Bool)) (slabs : List Slab) (row0 : Nat) (ct : Nat) (acc : Bool)
      (bfmt : MFmt)
  | mdrn (ct : Nat) (dst : Nat) (toW : Bool) (bias : Option Nat) (act : Bool) (quant : Option MFmt) (rs : Int)
      (stride row0 rows : Nat) (clr : Bool)
  | mzro (mask : Nat)
  | mpoly (x y p deg : Nat)
  | miter (form : MiterForm) (frob : Bool) (x a scr cap : Nat) (thr : Word)
  | mtab (base : Nat)
deriving DecidableEq, Repr

structure MxCmd where
  no : Nat
  team : Nat
  /-- index of the issuing team in its crew (R377) -/
  teamIdx : Nat := 0
  /-- number of the issuing team's span (R390) -/
  span : Nat
  kind : MxKind
  /-- fmt and k0 to k15 at issue (R149, R290) -/
  fmt : BitVec 24
  ks : List Word
  /-- table version bound at issue (R280) -/
  version : Bool
  bar : Option Nat
  issuedAt : Nat
  level : Nat
  /-- an MITER or MPOLY that has begun -/
  begun : Bool := false
  /-- rows of an MDRN that are done (Table 20-7) -/
  done : Nat := 0
  /-- issue order of an MTAB among those of its engine (R280) -/
  order : Nat := 0
deriving DecidableEq, Repr

/-- Loop state (Table 14-5). -/
structure Loop where
  out : Nat := 0
  phase : Nat := 0
  iter : Nat := 0
  r0 : Word := 0
  rprev : Word := 0
  rlast : Word := 0
deriving DecidableEq, Repr

structure MxCtx where
  crew : Option Nat := none
  bank : Nat := 0
  /-- the plane format recorded at issue (R290) -/
  planeFmt : MFmt := .bf16
  /-- weight plane: element (k, n) at key 256 * k + n -/
  plane : SMap Nat := []
  ks : SMap Word := []
  loop : Loop := {}
  timeline : Nat := 0
  issued : Nat := 0
  cmds : List MxCmd := []
  refused : Bool := false
  stopped : Bool := false
  /-- when its present array request was made, whether it is promoted, and whether it has the array (R274) -/
  requestedAt : Nat := 0
  promoted : Bool := false
  granted : Bool := false
deriving DecidableEq, Repr

structure MxEngine where
  ctx0 : MxCtx := {}
  ctx1 : MxCtx := { bank := 1 }
  /-- tiles: element (i, n) of tile c in bank b at key ((8 * b + c) * 256 + i) * 256 + n, 40-bit WA -/
  tiles : SMap (BitVec 40) := []
  /-- owner of each bank that a saved context left in place: its crew (R383) -/
  owner0 : Option Nat := none
  owner1 : Option Nat := none
  v0 : SMap Word := []
  v1 : SMap Word := []
  sel : Bool := false
  lastTenant : Option Nat := none
  mtabOrder : Nat := 0
deriving DecidableEq, Repr

/-- The context and tiles a pre-emption saved (R383). -/
structure SavedMx where
  crew : Nat
  engine : Nat
  ctx : MxCtx
  /-- SPILL: tiles rounded to FP32, key as in `MxEngine.tiles` with bank 0; BANKFLIP: none -/
  tiles : Option (SMap Word)
  v0 : SMap Word
  v1 : SMap Word
  sel : Bool
  order : Nat
deriving DecidableEq, Repr

/-! ## Cores and islands -/

/-- A line of an L1 (R198, R203, R207): which sectors are valid, what differs from or is older than the home. -/
inductive L1Kind
  | priv
  | shared
  | coherent
  | update (t : ATy) (op : AOp)
deriving DecidableEq, Repr

structure L1Line where
  line : Nat
  kind : L1Kind
  /-- sectors held, as bits -/
  sectors : Nat := 0
  /-- clean bytes of a private or read-shared line, by offset in the line -/
  clean : SMap Byte := []
  /-- dirty bytes of a private line -/
  dirty : SMap Byte := []
  /-- partials of an update-only line, by element offset -/
  partials : SMap Nat := []
deriving DecidableEq, Repr

/-- A line of an L2: which of its sectors are valid, as bits (R198). -/
structure L2Line where
  line : Nat
  sectors : Nat := 0
deriving DecidableEq, Repr

/-- A TLB entry (R212). -/
structure TlbEntry where
  tenant : Nat
  /-- page number of its first 4 KiB and its size code -/
  page : Nat
  size : Nat
  isl : Nat
  frame : Nat
  attr : Attr
  w : Bool
deriving DecidableEq, Repr

structure Bin where
  kernel : Nat
  off : Nat
  entries : List LaneEntry := []
  /-- the timer of the forming team has expired -/
  expired : Bool := false
  /-- reserved forming team: slot, payloads already written, in lane order -/
  forming : Option (Nat × List LaneEntry) := none
  /-- when the reserved team's timer started -/
  formStart : Nat := 0
deriving DecidableEq, Repr

/-- A copy of code in an instruction store (R102): an ordinary kernel's whole code or a pinned segment. -/
structure CodeCopy where
  kernel : Nat
  base : Nat
  size : Nat
  bytes : SMap Byte
deriving DecidableEq, Repr

structure Core where
  code : List CodeCopy := []
  /-- sets of the L1, most recently used first -/
  l1 : SMap (List L1Line) := []
  tlb : List TlbEntry := []
  bins : SMap Bin := []
  /-- L-space watch list (R333): crew, word, team -/
  watch : List (Nat × (Nat × Nat)) := []
  /-- teams that sleep with their word unwatched -/
  unwatched : List Nat := []
  /-- when each slot's datapath can begin its next instruction (R106, R113) -/
  slotFree : SMap Nat := []
  /-- what was last written in the L-space and the A-space outside the ranges of the crews that stand on it (R197) -/
  lstore : SMap Byte := []
  astore : SMap Byte := []
deriving DecidableEq, Repr

/-- Who waits on a crumb entry (R329, R336). -/
inductive Waiter
  | team (u : Nat)
  | hold (kernel : Nat)
deriving DecidableEq, Repr

structure Crumb where
  order : Nat
  waiters : List Waiter
  bcast : Bool := false
deriving DecidableEq, Repr

/-- Who waits in a fault buffer (R214). -/
inductive Faulter
  | team (u : Nat)
  | copy (ctx : Nat)
  | coll (ctx : Nat)
  | code (kernel : Nat) (core : Nat)
deriving DecidableEq, Repr

structure FaultEntry where
  who : Faulter
  tenant : Nat
  va : Nat
  write : Bool
  lanes : Mask := 0
  /-- the walk found DEMAND = 1, or a read-shared page with no copy here (R205) -/
  demand : Bool := false
  copyWanted : Bool := false
  kernelSeq : Nat := 0
deriving DecidableEq, Repr

/-- A write-log record (R386). -/
structure LogRec where
  sector : Nat
  tag : SpanTag
  bytes : List Byte
deriving DecidableEq, Repr

/-- A W-space allocation: one kernel on one cluster (R61). -/
structure WAlloc where
  kernel : Nat
  cluster : Nat
  base : Nat
  size : Nat
  mem : SMap Byte := []
deriving DecidableEq, Repr

/-- A copy of a read-shared page (R205): the tenant's page, the home's address, bytes, the copy's address. -/
structure Replica where
  tenant : Nat
  va : Nat
  home : Nat
  size : Nat
  base : Nat
deriving DecidableEq, Repr

structure Island where
  live : Bool := false
  /-- frames and areas of HBM4E in use: base and size -/
  frames : List (Nat × Nat) := []
  replicas : List Replica := []
  /-- it holds a copy of the topology table (R54, R205) -/
  topo : Bool := false
  tlb : List TlbEntry := []
  faults : SMap FaultEntry := []
  /-- faulting accesses that wait for an entry -/
  faultWait : List FaultEntry := []
  crumbs : SMap Crumb := []
  crumbOrder : Nat := 0
  token : Option Nat := none
  tokenAsk : List Nat := []
  /-- lines the L2 holds, most recently used first: key 8192 * slice + set (R198, R200) -/
  l2 : SMap (List L2Line) := []
  pool : List LaneEntry := []
  copy : SMap CopyCtx := []
  coll : SMap CollCtx := []
  groups : SMap GroupInst := []
  wspace : List WAlloc := []
  /-- what was last written in the fondant dies' W-space outside those allocations, by cluster and offset (R197) -/
  wstore : SMap (SMap Byte) := []
  log : List LogRec := []
  saved : List SavedMx := []
  clock : Nat := 20
  /-- its draw in watts and its hottest junction in °C, as last read, and whether a clock step answered that reading (R412,
  R413; log 78) -/
  draw : Nat := 0
  heat : Nat := 0
  acted : Bool := true
  /-- the repair map loaded at boot stage 3 (R414) -/
  repair : List Nat := []
  ueSeen : Bool := false
  poison : List Nat := []
  missed : Nat := 0
deriving DecidableEq, Repr

/-- A deadline request waiting at an island's controllers (R217, R218). -/
structure Deadline where
  isl : Nat
  latest : Nat
  due : Bool := false
  /-- the panel physical bytes it asks for, where its engine has reached them -/
  spans : List (Nat × Nat) := []
  /-- the tenant whose save it belongs to (R381) -/
  save : Option Nat := none
deriving DecidableEq, Repr

/-! ## Host registers and the PCP -/

/-- A record copy taken from a slot (R37): its words. -/
abbrev Rec := List DWord

structure Queue where
  weight : Nat := 0
  level : Nat := 0
  tenant : Nat := 0
  eth : Bool := false
  enable : Bool := false
  key : DWord := 0
  expect : Nat := 0
  statVa : Nat := 0
  status : DWord := 0
  slots : SMap Byte := []
  /-- copies ahead of EXPECT, by SEQ (R38) -/
  waiting : SMap Rec := []
  /-- accepted records in SEQ order, with their acceptance order and kernel -/
  accepted : List (Rec × (Nat × Option Nat)) := []
  /-- effective level and promotion clock (R46) -/
  eff : Nat := 0
  clock : Option Nat := none
deriving DecidableEq, Repr

structure Tenant where
  hbmw : Nat := 1
  enable : Bool := false
  ptroot : Nat := 0
  preIsls : Nat := 0
  preMode : Bool := false
  /-- MODE of the STOP in progress -/
  saveMode : Bool := false
  preResume : Bool := false
  preStop : Bool := false
  trapRing : Nat := 0
  treset : Bool := false
  serial : Nat := 0
  /-- islands on which the tenant stands pre-empted -/
  stoppedOn : List Nat := []
deriving DecidableEq, Repr

structure HostRegs where
  eqBase : Nat := 0
  eqSize : Nat := 0
  eqHead : Nat := 0
  eqTail : Nat := 0
  eqLost : Nat := 0
  tlbRange : Nat := 0
  tlbAll : Bool := false
  tlbGo : Bool := false
  /-- the first operation number after the write of TLBINV's GO (R212) -/
  tlbFrom : Nat := 0
  /-- FAIL and ISLAND of FAULTREPLY as last written (Table 11-8) -/
  replyFail : Bool := false
  replyIsl : Nat := 0
  scrubbed : Nat := 0
  stage : Nat := 0
  recovery : Bool := false
  /-- boot stands at an image that failed verification (R414) -/
  stuck : Bool := false
  /-- digests of the images of boot stages 2 and 3, once they are read (R414, R415) -/
  firmware : SMap (BitVec 256) := []
  warm : Bool := false
  ready : Bool := false
  reqAddr : BitVec 128 := 0
  reqPort : Nat := 0
  wlogsz : Nat := 0
  pwrLim : Nat := 400
  attNonce : SMap Byte := []
  attGo : Bool := false
  attReport : SMap Byte := []
deriving DecidableEq, Repr

/-- A migration in progress (R215). -/
structure Migration where
  tenant : Nat
  va : Nat
  size : Nat
  src : Nat
  dst : Nat
  /-- the entry names the new home; what was held is performed there (R215) -/
  done : Bool := false
deriving DecidableEq, Repr

/-- A write that its home holds, with its number among what homes hold. -/
structure HeldWrite where
  no : Nat
  pa : Nat
  bytes : List Byte
deriving DecidableEq, Repr

/-- Touches of one 4 KiB of memory in one sampling window of 100 µs (R60). -/
structure Touch where
  /-- touches by remote operations, per issuing island -/
  remote : SMap Nat := []
  other : Nat := 0
deriving DecidableEq, Repr

/-- The touches of one 4 KiB of memory in the latest window in which it was touched, and in the window before (R60). -/
structure Touches where
  /-- the number of the latest window -/
  window : Nat := 0
  here : Touch := {}
  before : Touch := {}
deriving DecidableEq, Repr

structure Pcp where
  accOrder : Nat := 0
  rot : SMap Nat := []
  /-- rotation point of each level, and the turn in progress at it: queue and records taken (R45) -/
  turns : SMap (Nat × Nat) := []
  /-- since when the held-kernel table is full (R46) -/
  fullSince : Option Nat := none
  reserving : Option Nat := none
  migrations : SMap Migration := []
  /-- accesses that a locked line holds, in the order in which they were held: operations, packets, writes (R215, R216) -/
  holds : List Nat := []
  /-- touches by the number of the 4 KiB (R60) -/
  touches : SMap Touches := []
  /-- 4 KiB of memory that a running kernel has reached by an ordinary load or store, or written by PUTM: kernel and
  number (R60, R239) -/
  reached : List (Nat × Nat) := []
  handles : Nat := 0
  saveOrder : Nat := 0
deriving DecidableEq, Repr

/-- The panel as it was built and the published topology (R11 to R14, R54). -/
structure Panel where
  gradeB : Bool := false
  /-- site code of the empty site (row in bits 6:4, column in bits 2:0) -/
  empty : Option Nat := none
  /-- logical ids of the islands with 35 cores -/
  cores35 : List Nat := []
  gen : Nat := 0
  /-- LIT as the table publishes it, and the laser modules that are dark (R263, R413) -/
  lit : Nat := 1048575
  dark : Nat := 0
  /-- repair maps of the islands' HBM4E, fused and soft (R414, Table 27-4; log 18) -/
  repair : SMap (List Nat) := []
  /-- what the panel draws outside its islands, in watts, as last read (R412) -/
  draw : Nat := 0
deriving DecidableEq, Repr

/-- What a step moves: an event, the issue of a team's next word, or a reading of the sensors: of an island, or of the
rest of the panel (R412, R413; log 78). -/
inductive Move
  | event (i : Instr)
  | issue (team : Nat)
  | sense (isl : Option Nat) (watts celsius : Nat)
deriving DecidableEq, Repr

/-- An entry of the inbox: the cycles that pass before it, and the move (log 4). -/
structure Item where
  wait : Nat
  move : Move
deriving DecidableEq, Repr

/-! ## The state -/

/-- Why the machine stops. The spec stops the panel nowhere; both reasons name states that no panel is in. -/
inductive Fault
  /-- raised by a word when no team is issuing it: safe, no run reaches it -/
  | noTeam
  /-- raised by a word whose team names a crew or kernel that State does not hold: safe, no run reaches it -/
  | brokenState
deriving DecidableEq, Repr

/-- Why an instruction has no meaning in the model. -/
inductive Refusal
  /-- answered by `exec`'s arm of an instruction that is not modelled: safe -/
  | notModelled (mnemonic : String)
deriving DecidableEq, Repr

structure State where
  panel : Panel
  host : HostRegs
  queues : SMap Queue
  tenants : SMap Tenant
  pcp : Pcp
  /-- group-table words: key (256 * island + g) * 8 + word (R360) -/
  groupTab : SMap DWord
  /-- bytes by panel physical address (R199); from 2^44 on, the topology table (log 16) -/
  mem : List Host.Cell
  /-- bytes of host memory by bus address -/
  hostMem : List Host.Cell
  isls : SMap Island
  /-- key 36 * island + core -/
  cores : SMap Core
  /-- key 9 * island + cluster -/
  engines : SMap MxEngine
  kernels : SMap Kernel
  crews : SMap Crew
  teams : SMap Team
  ops : SMap Op
  /-- lane entries carried by active messages (R249) -/
  msgs : SMap LaneEntry
  pkts : SMap Packet
  collPkts : SMap CollPkt
  collInsts : SMap CollInst
  /-- key (island * 256 + source endpoint) * 32 + destination island -/
  streams : SMap Stream
  /-- key 16 * island + port -/
  links : SMap Link
  lanes : SMap Lanes
  deadlines : SMap Deadline
  /-- the team whose word is issuing (the model's own) -/
  cur : Option Nat
  /-- writes of the PCP, of the host, of timeline mirrors and of rollbacks that their home holds while a migration or an
  irrevocable attempt has their lines, oldest first (R216, R328) -/
  held : List HeldWrite
  inbox : List Item
  tick : Nat
  uid : Nat
  now : Nat
deriving DecidableEq, Repr

/-- What an unlisted byte of memory reads as (log 1). -/
def emptyByte : Byte := 0

/-- The machine right after reset: registers at the spec's reset values, nothing placed, no memory listed; the values the
spec does not give are those of log 1 to log 10. -/
def State.reset : State where
  panel := {}
  host := {}
  queues := []
  tenants := []
  pcp := {}
  groupTab := []
  mem := []
  hostMem := []
  isls := []
  cores := []
  engines := []
  kernels := []
  crews := []
  teams := []
  ops := []
  msgs := []
  pkts := []
  collPkts := []
  collInsts := []
  streams := []
  links := []
  lanes := []
  deadlines := []
  cur := none
  held := []
  inbox := []
  tick := 0
  uid := 0
  now := 0

end Sys2Proof.Machine
end

