-- ==== Sys2Proof/Machine/Access.lean ====
section
/-! DEFINITION. The one way State is read and written: accessors of its maps, memory bytes, register files, lane masks,
and the panel's geometry (01_panel, 04_placing). -/

namespace Sys2Proof.Machine

/-! ## Maps of State -/

def State.setTeam (s : State) (u : Nat) (t : Team) : State := { s with teams := s.teams.put u t }
def State.updTeam (s : State) (u : Nat) (f : Team → Team) : State := { s with teams := s.teams.upd u f }
def State.updCrew (s : State) (c : Nat) (f : Crew → Crew) : State := { s with crews := s.crews.upd c f }
def State.updKernel (s : State) (k : Nat) (f : Kernel → Kernel) : State := { s with kernels := s.kernels.upd k f }

def State.isl (s : State) (i : Nat) : Island := SMap.get {} s.isls i
def State.updIsl (s : State) (i : Nat) (f : Island → Island) : State :=
  { s with isls := s.isls.set {} i (f (s.isl i)) }
def State.core (s : State) (k : Nat) : Core := SMap.get {} s.cores k
def State.updCore (s : State) (k : Nat) (f : Core → Core) : State :=
  { s with cores := s.cores.set {} k (f (s.core k)) }
def State.engine (s : State) (k : Nat) : MxEngine := SMap.get {} s.engines k
def State.updEngine (s : State) (k : Nat) (f : MxEngine → MxEngine) : State :=
  { s with engines := s.engines.set {} k (f (s.engine k)) }
def State.queue (s : State) (q : Nat) : Queue := SMap.get {} s.queues q
def State.updQueue (s : State) (q : Nat) (f : Queue → Queue) : State :=
  { s with queues := s.queues.set {} q (f (s.queue q)) }
def State.tenant (s : State) (t : Nat) : Tenant := SMap.get {} s.tenants t
def State.updTenant (s : State) (t : Nat) (f : Tenant → Tenant) : State :=
  { s with tenants := s.tenants.set {} t (f (s.tenant t)) }
def State.link (s : State) (i p : Nat) : Link := SMap.get {} s.links (16 * i + p)
def State.updLink (s : State) (i p : Nat) (f : Link → Link) : State :=
  { s with links := s.links.set {} (16 * i + p) (f (s.link i p)) }
def State.laneOf (s : State) (i p : Nat) : Lanes := SMap.get {} s.lanes (16 * i + p)
def State.updLanes (s : State) (i p : Nat) (f : Lanes → Lanes) : State :=
  { s with lanes := s.lanes.set {} (16 * i + p) (f (s.laneOf i p)) }
def State.updPcp (s : State) (f : Pcp → Pcp) : State := { s with pcp := f s.pcp }
def State.updHost (s : State) (f : HostRegs → HostRegs) : State := { s with host := f s.host }

/-- A fresh number for a kernel, crew, team, operation, message or packet. -/
def State.fresh (s : State) : Nat × State := (s.uid, { s with uid := s.uid + 1 })

def State.addOp (s : State) (o : Op) : State := { s with ops := s.ops.put s.uid o, uid := s.uid + 1 }
def State.addPkt (s : State) (p : Packet) : State := { s with pkts := s.pkts.put s.uid p, uid := s.uid + 1 }
def State.addMsg (s : State) (e : LaneEntry) : State := { s with msgs := s.msgs.put s.uid e, uid := s.uid + 1 }

def Payload.travels : Payload → Bool
  | .travel .. => true
  | _ => false
def Payload.bytes : Payload → Nat
  | .words ws => 4 * ws.length
  | .travel _ _ _ v => 76 + 4 * v.length
/-- Mesh endpoint ports: of an island's dispatcher, of a core's cluster, of the optical engine die (R247). -/
def dispatcherPort (isl : Nat) : Option Nat := some (10 * isl + 9)
def clusterPort (isl core : Nat) : Option Nat := some (10 * isl + core / 4)
def opticalPort (isl : Nat) : Option Nat := some (1000 + isl)

/-- Key of a core in `State.cores` and of a cluster in `State.engines` (01_panel: clusters of 4 cores). -/
def coreKey (isl core : Nat) : Nat := 36 * isl + core
def clusterKey (isl core : Nat) : Nat := 9 * isl + core / 4
def Crew.key (c : Crew) : Nat := coreKey c.isl c.core
def Crew.cluster (c : Crew) : Nat := clusterKey c.isl c.core

/-- Teams and crews by membership, in uid order. -/
def State.teamsOf (s : State) (crew : Nat) : List (Nat × Team) := s.teams.filter fun ut => ut.2.crew = crew
def State.crewsOf (s : State) (k : Nat) : List (Nat × Crew) := s.crews.filter fun uc => uc.2.kernel = k
/-- Crews standing on a core. -/
def State.crewsOn (s : State) (key : Nat) : List (Nat × Crew) :=
  s.crews.filter fun uc => uc.2.key = key && !uc.2.saved

/-! ## Memory -/

def memGet (m : List Host.Cell) (a : Nat) : Byte := SMap.get emptyByte m a
def memSet (m : List Host.Cell) (a : Nat) (b : Byte) : List Host.Cell := SMap.set emptyByte m a b
/-- `n` bytes from `a`, lowest first. -/
def memBytes (m : List Host.Cell) (a : Nat) : Nat → List Byte
  | 0 => []
  | n + 1 => memGet m a :: memBytes m (a + 1) n
/-- Bytes written from `a` upward. -/
def memPut (m : List Host.Cell) (a : Nat) : List Byte → List Host.Cell
  | [] => m
  | b :: bs => memPut (memSet m a b) (a + 1) bs
/-- A little-endian number of `n` bytes (R4). -/
def memNat (m : List Host.Cell) (a n : Nat) : Nat := leNat (memBytes m a n)

/-- The canonical form of a memory (log 1). -/
def Memory.wf (m : List Host.Cell) : Bool := SMap.canon emptyByte m

def State.rd (s : State) (a n : Nat) : Nat := memNat s.mem a n
def State.bytes (s : State) (a n : Nat) : List Byte := memBytes s.mem a n
def State.wr (s : State) (a : Nat) (bs : List Byte) : State := { s with mem := memPut s.mem a bs }
def State.wrNat (s : State) (a n x : Nat) : State := s.wr a (leBytes n x)

/-! ## Registers -/

def vkey (lane r : Nat) : Nat := 256 * lane + r
def Regs.vget (g : Regs) (lane r : Nat) : Word := SMap.get 0 g.v (vkey lane r)
def Regs.vset (g : Regs) (lane r : Nat) (x : Word) : Regs := { g with v := SMap.set 0 g.v (vkey lane r) x }
def Regs.sget (g : Regs) (r : Nat) : Word := SMap.get 0 g.s r
def Regs.sset (g : Regs) (r : Nat) (x : Word) : Regs := { g with s := SMap.set 0 g.s r x }
def Regs.pget (g : Regs) (i : Nat) : Mask := SMap.get 0 g.p i
def Regs.pset (g : Regs) (i : Nat) (m : Mask) : Regs := { g with p := SMap.set 0 g.p i m }
def Regs.ixget (g : Regs) (i : Nat) : BitVec 16 := SMap.get 0 g.ix i
def Regs.ixset (g : Regs) (i : Nat) (x : BitVec 16) : Regs := { g with ix := SMap.set 0 g.ix i x }

/-- A pair of registers: the lower number holds bits 31:0 (R7). -/
def Regs.sget64 (g : Regs) (r : Nat) : DWord := pairWord (g.sget r) (g.sget (r + 1))
def Regs.vget64 (g : Regs) (lane r : Nat) : DWord := pairWord (g.vget lane r) (g.vget lane (r + 1))
def Regs.sset64 (g : Regs) (r : Nat) (x : DWord) : Regs := (g.sset r (loWord x)).sset (r + 1) (hiWord x)
/-- `n` registers from a number, low bits in the lower register (Table 12-1). -/
def Regs.vsetN (g : Regs) (lane r : Nat) : Nat → Nat → Regs
  | 0, _ => g
  | n + 1, x => (g.vset lane r (BitVec.ofNat 32 x)).vsetN lane (r + 1) n (x / 2 ^ 32)
def Regs.ssetN (g : Regs) (r : Nat) : Nat → Nat → Regs
  | 0, _ => g
  | n + 1, x => (g.sset r (BitVec.ofNat 32 x)).ssetN (r + 1) n (x / 2 ^ 32)
def Regs.vgetN (g : Regs) (lane r : Nat) : Nat → Nat
  | 0 => 0
  | n + 1 => (g.vget lane r).toNat + 2 ^ 32 * g.vgetN lane (r + 1) n
def Regs.sgetN (g : Regs) (r : Nat) : Nat → Nat
  | 0 => 0
  | n + 1 => (g.sget r).toNat + 2 ^ 32 * g.sgetN (r + 1) n

/-! ## Lane masks (R105) -/

def laneIn (m : Mask) (l : Nat) : Bool := m.getLsbD l
/-- The lanes of a mask below `n`, ascending. -/
def lanesOf (m : Mask) (n : Nat) : List Nat := (List.range n).filter (laneIn m)
def maskOf (ls : List Nat) : Mask := ls.foldl (fun m l => m ||| ((1 : Mask) <<< l)) 0
/-- Lanes 0 to n − 1. -/
def fullMask (n : Nat) : Mask := BitVec.ofNat 1024 (2 ^ n - 1)
/-- Word W_w of a mask. -/
def maskWord (m : Mask) (w : Nat) : Word := m.extractLsb' (32 * w) 32
/-- The summary word (R105). -/
def maskSummary (m : Mask) : Word :=
  (List.range 32).foldl (fun x w => if maskWord m w ≠ 0 then x ||| ((1 : Word) <<< w) else x) 0
/-- Passes of a lane-scope word: mask words that are not 0 (R106). -/
def passes (m : Mask) : Nat := ((List.range 32).filter fun w => maskWord m w ≠ 0).length

/-! ## Geometry -/

def Panel.nIsl (p : Panel) : Nat := match p.empty with
  | none => 25
  | some _ => 24
/-- Physical sites in row-major order without the empty one; the position is the logical id (R53). -/
def Panel.sites (p : Panel) : List (Nat × Nat) :=
  (((List.range 25).map fun n => (n / 5, n % 5))).filter fun rc =>
    p.empty ≠ some (16 * rc.1 + rc.2)
def Panel.siteRC (p : Panel) (d : Nat) : Nat × Nat := p.sites.getD d (0, 0)
/-- %site: row in bits 6:4, column in bits 2:0 (R53). -/
def Panel.siteCode (p : Panel) (d : Nat) : Nat := 16 * (p.siteRC d).1 + (p.siteRC d).2
def Panel.ofSite (p : Panel) (r c : Nat) : Option Nat :=
  let i := p.sites.findIdx fun rc => rc = (r, c)
  if i < p.nIsl then some i else none
def Panel.coresOf (p : Panel) (d : Nat) : Nat := if p.cores35.contains d then 35 else 36
def Panel.gradeCode (p : Panel) : Nat := if p.gradeB then 0x0B else 0x0A

/-- The service tile's id in headers and events (Table 13-3); its ports are the columns of row 0. -/
def serviceTile : Nat := 31
/-- The island and its port at the other end of a port: of ports 0 to 7 an island of the same row or column, of port 8 the
service tile (Table 13-2). -/
def Panel.peer (p : Panel) (d port : Nat) : Option (Nat × Nat) :=
  let (r, c) := p.siteRC d
  if d < p.nIsl ∧ port < 4 then
    let c' := if port < c then port else port + 1
    (p.ofSite r c').map fun e => (e, if c < c' then c else c - 1)
  else if d < p.nIsl ∧ port < 8 then
    let r' := if port - 4 < r then port - 4 else port - 3
    (p.ofSite r' c).map fun e => (e, 4 + if r < r' then r else r - 1)
  else if d < p.nIsl ∧ port = 8 ∧ r = 0 then some (serviceTile, c)
  else if d = serviceTile ∧ port < 5 then (p.ofSite 0 port).map fun e => (e, 8)
  else none

def State.liveIsls (s : State) : List Nat := (List.range s.panel.nIsl).filter fun d => (s.isl d).live

/-! ## Small tables -/

/-- Codes of Table 20-1; a lower code stands higher in precedence (R372). -/
def Cause.code : Cause → Nat
  | .illop => 0x01
  | .regbound => 0x02
  | .fmtbad => 0x03
  | .spacebound => 0x04
  | .misalign => 0x05
  | .perm => 0x06
  | .remotels => 0x07
  | .notmapped => 0x08
  | .enginedeny => 0x09
  | .arith => 0x0A
  | .miterdiv => 0x0B
  | .ganglost => 0x0C
  | .mcastdomain => 0x0D
  | .colloverrun => 0x0E
  | .stackovf => 0x0F
  | .travelovf => 0x10
  | .ue => 0x11
  | .brk => 0x12

/-- Codes of Table 17-1. -/
def TxCode.code : TxCode → Nat
  | .none => 0x00
  | .conflict => 0x01
  | .rdcap => 0x02
  | .wrcap => 0x03
  | .nest => 0x04
  | .forbid => 0x05
  | .attr => 0x06
  | .trap => 0x07
  | .page => 0x08
  | .halt => 0x09
  | .explicit => 0x0A
  | .long => 0x0B
  | .sleep => 0x0C

end Sys2Proof.Machine

namespace Sys2Proof
open Sys2Proof.Machine

/-- Bytes of a size code (R220). -/
def Sz.bytes : Sz → Nat
  | .b8 => 1
  | .b16 => 2
  | .b32 => 4
  | .b64 => 8
  | .b128 => 16

def Space.code : Space → Nat
  | .global => 0
  | .lspace => 1
  | .aspace => 2
  | .wspace => 3
  | .cspace => 4

end Sys2Proof

namespace Sys2Proof.Machine

/-- Whether an attribute code stands for an attribute (Table 11-4). -/
def Attr.ofCode (n : Nat) : Attr :=
  match n with
  | 0 => .priv
  | 1 => .shared
  | 2 => .coherent
  | _ => .none

end Sys2Proof.Machine
end

