-- ==== Sys2Proof/Machine/Num.lean ====
section
/-! DEFINITION. The number formats and rounding functions of 09_number_formats (R152 to R162), exact float arithmetic
on dyadic values, and the functions of Table 10-3 that are rounded from enclosures. -/

namespace Sys2Proof.Machine

/-- A binary format: exponent and fraction bits (Table 9-1). -/
structure FFmt where
  eb : Nat
  fb : Nat
deriving DecidableEq, Repr

def FFmt.fp64 : FFmt := ⟨11, 52⟩
def FFmt.fp32 : FFmt := ⟨8, 23⟩
def FFmt.fp16 : FFmt := ⟨5, 10⟩
def FFmt.bf16 : FFmt := ⟨8, 7⟩
/-- The wide accumulator (R152). -/
def FFmt.wa : FFmt := ⟨8, 31⟩

def FFmt.bias (f : FFmt) : Nat := 2 ^ (f.eb - 1) - 1
def FFmt.infBits (f : FFmt) : Nat := (2 ^ f.eb - 1) * 2 ^ f.fb
/-- The canonical NaN (Table 9-1). -/
def FFmt.nanBits (f : FFmt) : Nat := f.infBits + 2 ^ (f.fb - 1)
def FFmt.signBit (f : FFmt) : Nat := 2 ^ (f.eb + f.fb)
/-- Exponent of the lowest bit of a subnormal. -/
def FFmt.emin (f : FFmt) : Int := 1 - (f.bias : Int) - f.fb

/-- An exact value: NaN, an infinity, or a signed dyadic number m × 2^e. -/
inductive FVal
  | nan
  | inf (neg : Bool)
  | fin (neg : Bool) (m : Nat) (e : Int)
deriving DecidableEq, Repr

/-- The value of a bit pattern (R152). -/
def FFmt.val (f : FFmt) (x : Nat) : FVal :=
  let neg := x / f.signBit % 2 = 1
  let ex := x / 2 ^ f.fb % 2 ^ f.eb
  let fr := x % 2 ^ f.fb
  if ex = 2 ^ f.eb - 1 then (if fr = 0 then .inf neg else .nan)
  else if ex = 0 then .fin neg fr f.emin
  else .fin neg (2 ^ f.fb + fr) (f.emin + (ex - 1 : Nat))

/-- Whether a pattern is subnormal (R154, R157). -/
def FFmt.isSub (f : FFmt) (x : Nat) : Bool := x / 2 ^ f.fb % 2 ^ f.eb = 0 && x % 2 ^ f.fb ≠ 0
def FFmt.isNan (f : FFmt) (x : Nat) : Bool := f.val x = .nan

def signed (f : FFmt) (neg : Bool) (x : Nat) : Nat := if neg then f.signBit + x else x

/-- The pattern of an overflow in a mode (Table 9-2). -/
def FFmt.overflow (f : FFmt) (rm : Rm) (neg : Bool) : Nat :=
  signed f neg (match rm, neg with
    | .ne, _ => f.infBits
    | .tz, _ => f.infBits - 1
    | .up, false => f.infBits
    | .up, true => f.infBits - 1
    | .dn, true => f.infBits
    | .dn, false => f.infBits - 1)

/-- Whether to add one unit: the remainder `r` of `2^sh`, with something more below it when `sticky`. -/
def roundUp (rm : Rm) (neg : Bool) (odd : Bool) (r sh : Nat) (sticky : Bool) : Bool :=
  let inexact := r ≠ 0 || sticky
  match rm with
  | .ne => sh ≠ 0 && (2 * r > 2 ^ sh || (2 * r = 2 ^ sh && (sticky || odd)))
  | .tz => false
  | .up => !neg && inexact
  | .dn => neg && inexact

/-- Round a nonzero magnitude m × 2^e, or one strictly between it and (m + 1) × 2^e when `sticky` (R156). With `sticky`,
`m` holds at least two bits more than the format keeps. -/
def FFmt.roundMag (f : FFmt) (rm : Rm) (neg : Bool) (m : Nat) (e : Int) (sticky : Bool) : Nat :=
  let q := max (e + (m.log2 : Int) - f.fb) f.emin
  let sh := (q - e).toNat
  let up := (e - q).toNat
  let n := m * 2 ^ up / 2 ^ sh
  let r := m * 2 ^ up % 2 ^ sh
  let n' := if roundUp rm neg (n % 2 = 1) r sh sticky then n + 1 else n
  let bits := (q - f.emin).toNat * 2 ^ f.fb + n'
  if f.infBits ≤ bits then f.overflow rm neg else signed f neg bits

/-- Round(x, F, mode) of Table 9-2. -/
def FFmt.round (f : FFmt) (rm : Rm) : FVal → Nat
  | .nan => f.nanBits
  | .inf neg => signed f neg f.infBits
  | .fin neg m e => if m = 0 then signed f neg 0 else f.roundMag rm neg m e false

/-! ## Exact arithmetic -/

def FVal.isNan : FVal → Bool
  | .nan => true
  | _ => false
def FVal.isZero : FVal → Bool
  | .fin _ m _ => m = 0
  | _ => false
def FVal.isNeg : FVal → Bool
  | .nan => false
  | .inf n => n
  | .fin n _ _ => n
def FVal.neg : FVal → FVal
  | .nan => .nan
  | .inf n => .inf !n
  | .fin n m e => .fin (!n) m e
def FVal.abs : FVal → FVal
  | .nan => .nan
  | .inf _ => .inf false
  | .fin _ m e => .fin false m e

/-- The integer (−1)^neg × m × 2^(e − lo), for e ≥ lo. -/
def scaled (neg : Bool) (m : Nat) (e lo : Int) : Int :=
  let x := m * 2 ^ (e - lo).toNat
  if neg then -(x : Int) else (x : Int)

/-- A signed value from an integer times 2^e; zero takes the sign given. -/
def FVal.ofInt (zneg : Bool) (x e : Int) : FVal :=
  if x = 0 then .fin zneg 0 0 else .fin (decide (x < 0)) x.natAbs e

/-- The exact sum; an exact zero is +0, −0 under DN, or the common sign of two zeros (R156). -/
def FVal.add (rm : Rm) : FVal → FVal → FVal
  | .nan, _ => .nan
  | _, .nan => .nan
  | .inf a, .inf b => if a = b then .inf a else .nan
  | .inf a, _ => .inf a
  | _, .inf b => .inf b
  | .fin a m e, .fin b n g =>
    let lo := min e g
    let zneg := if m = 0 ∧ n = 0 ∧ a = b then a else decide (rm = .dn)
    FVal.ofInt zneg (scaled a m e lo + scaled b n g lo) lo

/-- The exact product. -/
def FVal.mul : FVal → FVal → FVal
  | .nan, _ => .nan
  | _, .nan => .nan
  | .inf a, .inf b => .inf (a != b)
  | .inf a, .fin b n _ => if n = 0 then .nan else .inf (a != b)
  | .fin a m _, .inf b => if m = 0 then .nan else .inf (a != b)
  | .fin a m e, .fin b n g => .fin (a != b) (m * n) (e + g)

/-- x × 2^k, exactly. -/
def FVal.scale (k : Int) : FVal → FVal
  | .fin n m e => .fin n m (e + k)
  | v => v

/-- Strict order of numbers; −0 equals +0; false with a NaN. -/
def FVal.lt : FVal → FVal → Bool
  | .nan, _ => false
  | _, .nan => false
  | .inf a, .inf b => a && !b
  | .inf a, .fin .. => a
  | .fin .., .inf b => !b
  | .fin a m e, .fin b n g => decide (scaled a m e (min e g) < scaled b n g (min e g))

/-- Equality of numbers; false with a NaN. -/
def FVal.eq : FVal → FVal → Bool
  | .nan, _ => false
  | _, .nan => false
  | .inf a, .inf b => a = b
  | .fin a m e, .fin b n g => decide (scaled a m e (min e g) = scaled b n g (min e g))
  | _, _ => false

/-! ## Division and roots -/

/-- Integer square root by bits: the largest r below 2^n with r² ≤ x, from `acc`. -/
def isqrtAux (x : Nat) : Nat → Nat → Nat
  | 0, acc => acc
  | n + 1, acc => if (acc + 2 ^ n) * (acc + 2 ^ n) ≤ x then isqrtAux x n (acc + 2 ^ n) else isqrtAux x n acc
def isqrt (x : Nat) : Nat := isqrtAux x (x.log2 / 2 + 1) 0

/-- Round(a / b, F, m) (R178). -/
def FFmt.div (f : FFmt) (rm : Rm) : FVal → FVal → Nat
  | .nan, _ => f.nanBits
  | _, .nan => f.nanBits
  | .inf _, .inf _ => f.nanBits
  | .inf a, .fin b _ _ => signed f (a != b) f.infBits
  | .fin a _ _, .inf b => signed f (a != b) 0
  | .fin a m e, .fin b n g =>
    if n = 0 then (if m = 0 then f.nanBits else signed f (a != b) f.infBits)
    else if m = 0 then signed f (a != b) 0
    else
      let k := f.fb + 4 + n.log2
      let q := m * 2 ^ k / n
      f.roundMag rm (a != b) q (e - g - k) (decide (m * 2 ^ k % n ≠ 0))

/-- Round(√a, F, m), with Table 10-4. -/
def FFmt.sqrt (f : FFmt) (rm : Rm) : FVal → Nat
  | .nan => f.nanBits
  | .inf neg => if neg then f.nanBits else f.infBits
  | .fin neg m e =>
    if m = 0 then signed f neg 0
    else if neg then f.nanBits
    else
      let k : Nat := 2 * (f.fb + 4) + (e % 2).toNat
      let x := m * 2 ^ k
      let r := isqrt x
      f.roundMag rm false r ((e - k) / 2) (decide (r * r ≠ x))

/-- Round(1 / √a, F, m), with Table 10-4. -/
def FFmt.rsqrt (f : FFmt) (rm : Rm) : FVal → Nat
  | .nan => f.nanBits
  | .inf neg => if neg then f.nanBits else 0
  | .fin neg m e =>
    if m = 0 then signed f neg f.infBits
    else if neg then f.nanBits
    else
      let m' := if e % 2 = 0 then m else 2 * m
      let e' := if e % 2 = 0 then e else e - 1
      let k := m'.log2 + f.fb + 4
      let r := isqrt (2 ^ (2 * k) / m')
      f.roundMag rm false r (-(e' / 2) - k) (decide (r * r * m' ≠ 2 ^ (2 * k)))

/-! ## Functions rounded from an enclosure

The result of each is irrational except where the definitions say so first, so a narrow enough enclosure decides the
rounding; the enclosures widen their precision in four tries. A fixed-point number has `q` fraction bits; the sums below
lose less than 2^20 units in their last place. -/

/-- ln 2 with `q` fraction bits: Σ 1 / (k 2^k). -/
def ln2Aux (q : Nat) : Nat → Nat → Nat → Nat
  | 0, _, acc => acc
  | fuel + 1, k, acc => ln2Aux q fuel (k + 1) (acc + 2 ^ q / (k * 2 ^ k))
def ln2Fix (q : Nat) : Nat := ln2Aux q (q + 1) 1 0

/-- Σ x^k / k! from a term, in fixed point. -/
def expAux (q x : Nat) : Nat → Nat → Nat → Nat → Nat
  | 0, _, _, acc => acc
  | fuel + 1, k, t, acc =>
    let t' := t * x / 2 ^ q / k
    if t' = 0 then acc else expAux q x fuel (k + 1) t' (acc + t')
def expFix (q x : Nat) : Nat := expAux q x (q + 2) 1 (2 ^ q) (2 ^ q)

/-- 2 atanh z for z below 1/3. -/
def atanhAux (q z2 : Nat) : Nat → Nat → Nat → Nat → Nat
  | 0, _, _, acc => acc
  | fuel + 1, k, t, acc => if t = 0 then acc else atanhAux q z2 fuel (k + 2) (t * z2 / 2 ^ q) (acc + t / k)
def lnFix (q f : Nat) : Nat :=
  let z := (f - 2 ^ q) * 2 ^ q / (f + 2 ^ q)
  2 * atanhAux q (z * z / 2 ^ q) (q + 2) 1 z 0

/-- arctan (1 / n) in fixed point. -/
def atanInvAux (n2 : Nat) : Nat → Nat → Nat → Int → Int → Int
  | 0, _, _, _, acc => acc
  | fuel + 1, k, t, sg, acc => if t = 0 then acc else atanInvAux n2 fuel (k + 2) (t / n2) (-sg) (acc + sg * (t / k : Nat))
def atanInv (q n : Nat) : Int := atanInvAux (n * n) (q + 2) 1 (2 ^ q / n) 1 0
/-- π with `q` fraction bits (Machin). -/
def piFix (q : Nat) : Nat := (4 * (4 * atanInv q 5 - atanInv q 239)).toNat

/-- Σ of alternating terms of sine (from k = 1) or cosine (from k = 0), for a fixed-point argument. -/
def trigAux (q x2 : Nat) : Nat → Nat → Nat → Int → Int → Int
  | 0, _, _, _, acc => acc
  | fuel + 1, k, t, sg, acc =>
    if t = 0 then acc
    else trigAux q x2 fuel (k + 2) (t * x2 / 2 ^ q / ((k + 1) * (k + 2))) (-sg) (acc + sg * (t : Int))
def sinFix (q x : Nat) : Int := trigAux q (x * x / 2 ^ q) (q + 2) 1 x 1 0
def cosFix (q x : Nat) : Int := trigAux q (x * x / 2 ^ q) (q + 2) 0 (2 ^ q) 1 0

/-- A fixed-point number of `q` fraction bits whose error is below 2^24 units, with 2^-q' added to its exponent. -/
structure Enclosed where
  x : Int
  q : Nat
  shift : Int
deriving DecidableEq, Repr

/-- The rounding of an enclosure, when both its ends round alike. -/
def FFmt.decided (f : FFmt) (rm : Rm) (c : Enclosed) : Option Nat :=
  let lo := c.x - 2 ^ 24
  let hi := c.x + 2 ^ 24
  if lo ≤ 0 ∧ 0 ≤ hi then none
  else
    let neg := decide (c.x < 0)
    let a := f.roundMag rm neg lo.natAbs (c.shift - c.q) true
    let b := f.roundMag rm neg hi.natAbs (c.shift - c.q) true
    if a = b then some a else none

/-- The first decided rounding among enclosures of rising precision. -/
def FFmt.ziv (f : FFmt) (rm : Rm) (enc : Nat → Enclosed) : List Nat → Nat
  | [] => f.roundMag rm (decide ((enc 8192).x < 0)) (enc 8192).x.natAbs ((enc 8192).shift - (enc 8192).q) true
  | q :: qs =>
    match f.decided rm (enc q) with
    | some r => r
    | none => f.ziv rm enc qs

def precisions : List Nat := [160, 512, 2048, 8192]

/-- A dyadic magnitude m × 2^e as integer part and fixed-point fraction of `q` bits (rounded down). -/
def splitFix (m : Nat) (e : Int) (q : Nat) : Nat × Nat :=
  let x := if 0 ≤ e + q then m * 2 ^ (e + q).toNat else m / 2 ^ (-(e + q)).toNat
  (x / 2 ^ q, x % 2 ^ q)

/-- Whether m × 2^e is an integer. -/
def isIntegral (m : Nat) (e : Int) : Bool := 0 ≤ e || m % 2 ^ (-e).toNat = 0
/-- The integer part of m × 2^e. -/
def truncMag (m : Nat) (e : Int) : Nat := if 0 ≤ e then m * 2 ^ e.toNat else m / 2 ^ (-e).toNat

/-- Round(2^a, F, m), with Table 10-4. -/
def FFmt.exp2 (f : FFmt) (rm : Rm) : FVal → Nat
  | .nan => f.nanBits
  | .inf neg => if neg then 0 else f.infBits
  | .fin neg m e =>
    if isIntegral m e then
      let n : Int := if neg then -(truncMag m e : Int) else truncMag m e
      f.roundMag rm false 1 (max (min n 20000) (-20000)) false
    else if 20000 < truncMag m e then f.roundMag rm false 1 (if neg then -20000 else 20000) true
    else
      f.ziv rm (fun q =>
        let (i, fr) := splitFix m e q
        let (n, x) : Int × Nat := if neg then (-(i : Int) - 1, 2 ^ q - fr) else (i, fr)
        { x := expFix q (x * ln2Fix q / 2 ^ q), q := q, shift := n }) precisions

/-- Round(log₂ a, F, m), with Table 10-4. -/
def FFmt.log2 (f : FFmt) (rm : Rm) : FVal → Nat
  | .nan => f.nanBits
  | .inf neg => if neg then f.nanBits else f.infBits
  | .fin neg m e =>
    if m = 0 then signed f true f.infBits
    else if neg then f.nanBits
    else
      let k : Int := e + m.log2
      if m = 2 ^ m.log2 then f.round rm (FVal.ofInt false k 0)
      else
        f.ziv rm (fun q =>
          { x := k * 2 ^ q + (lnFix q (m * 2 ^ q / 2 ^ m.log2) * 2 ^ q / ln2Fix q : Nat), q := q, shift := 0 })
          precisions

/-- sine (or cosine) of m × 2^e with `q` fraction bits: reduction by quarter turns, then the series. -/
def trigFix (cos : Bool) (m : Nat) (e : Int) (q : Nat) : Int :=
  let w := q + (e + m.log2).toNat + 8
  let a := (splitFix m e w).1 * 2 ^ w + (splitFix m e w).2
  let half := piFix w / 2
  let k := (2 * a + half) / (2 * half)
  let r : Int := (a : Int) - (k * half : Nat)
  let x := r.natAbs
  let sx := sinFix w x
  let cx := cosFix w x
  let s := if r < 0 then -sx else sx
  let v := match (if cos then k + 1 else k) % 4 with
    | 0 => s
    | 1 => cx
    | 2 => -s
    | _ => -cx
  v / 2 ^ (w - q)

/-- Round(sin a, F, m) and Round(cos a, F, m), with Table 10-4. -/
def FFmt.trig (f : FFmt) (cos : Bool) (rm : Rm) : FVal → Nat
  | .nan => f.nanBits
  | .inf _ => f.nanBits
  | .fin neg m e =>
    if m = 0 then (if cos then f.round rm (.fin false 1 0) else signed f neg 0)
    else
      f.ziv rm (fun q =>
        { x := if neg && !cos then -(trigFix cos m e q) else trigFix cos m e q, q := q, shift := 0 }) precisions

/-! ## Integral values and integers -/

/-- The integer nearest to a finite value in a mode, ties to even under NE (R157). -/
def roundToInt (rm : Rm) (neg : Bool) (m : Nat) (e : Int) : Int :=
  if 0 ≤ e then scaled neg m e 0
  else
    let sh := (-e).toNat
    let n := m / 2 ^ sh
    let n' := if roundUp rm neg (n % 2 = 1) (m % 2 ^ sh) sh false then n + 1 else n
    if neg then -(n' : Int) else n'

/-- Smallest and largest values of an integer format (R155). -/
def intMin (sgn : Bool) (w : Nat) : Int := if sgn then -(2 ^ (w - 1) : Int) else 0
def intMax (sgn : Bool) (w : Nat) : Int := if sgn then 2 ^ (w - 1) - 1 else 2 ^ w - 1
def clampInt (sgn : Bool) (w : Nat) (x : Int) : Int := max (intMin sgn w) (min (intMax sgn w) x)

/-- RoundInt(x, F, mode) (R157). -/
def roundInt (sgn : Bool) (w : Nat) (rm : Rm) : FVal → Int
  | .nan => 0
  | .inf neg => if neg then intMin sgn w else intMax sgn w
  | .fin neg m e => clampInt sgn w (roundToInt rm neg m e)

/-- FRND: an integral value in F; a zero result takes the sign of a (Table 10-4). -/
def FFmt.rnd (f : FFmt) (rm : Rm) : FVal → Nat
  | .fin neg m e =>
    if m = 0 then signed f neg 0
    else f.round rm (FVal.ofInt neg (roundToInt rm neg m e) 0)
  | v => f.round rm v

/-- FFRC: a − trunc(a), with the sign of a (R178, Table 10-4). -/
def FFmt.frc (f : FFmt) : FVal → Nat
  | .nan => f.nanBits
  | .inf _ => f.nanBits
  | .fin neg m e =>
    if 0 ≤ e then signed f neg 0 else f.round .ne (.fin neg (m % 2 ^ (-e).toNat) e)

/-- FMIN and FMAX of two patterns (R180). -/
def FFmt.minMax (f : FFmt) (isMax : Bool) (a b : Nat) : Nat :=
  let x := f.val a
  let y := f.val b
  if x.isNan && y.isNan then f.nanBits
  else if x.isNan then b
  else if y.isNan then a
  else
    let less := x.lt y || (x.isZero && y.isZero && x.isNeg && !y.isNeg)
    if isMax then (if less then b else a) else (if less then a else if x.eq y && !(y.isNeg && !x.isNeg) then a else b)

/-! ## LNS6 (R158 to R162) -/

/-- Table 9-4: P(f), M(f) in FP32 and T(f). -/
def lnsP : Nat → Nat
  | 0 => 0x3F800000
  | 1 => 0x3F9837F0
  | 2 => 0x3FB504F3
  | _ => 0x3FD744FD
def lnsM : Nat → Nat
  | 0 => 0x3F8C1BF8
  | 1 => 0x3FA69E72
  | 2 => 0x3FC624F8
  | _ => 0x3FEBA27E
def lnsT : Nat → Nat
  | 0 => 4096
  | 1 => 4871
  | 2 => 5793
  | _ => 6889

/-- L of a code: two's complement in bits 4:0. -/
def lnsL (c : Nat) : Int := if c % 32 < 16 then (c % 32 : Nat) else (c % 32 : Nat) - 32
def lnsSign (c : Nat) : Bool := c / 32 % 2 = 1
def lnsCode (neg : Bool) (l : Int) : Nat := (l % 32).toNat + (if neg then 32 else 0)

/-- LnsToF32 as an exact value (R160). -/
def lnsVal (c : Nat) : FVal :=
  if c % 64 = 0x10 then .fin false 0 0
  else if c % 64 = 0x30 then .nan
  else
    match FFmt.fp32.val (lnsP ((lnsL c) % 4).toNat) with
    | .fin _ m e => .fin (lnsSign c) m (e + lnsL c / 4)
    | v => v

/-- t(L) = M(f) × 2^i (R161). -/
def lnsThreshold (l : Int) : FVal := (FFmt.fp32.val (lnsM (l % 4).toNat)).scale (l / 4)

/-- LnsNE(x) (R161). -/
def lnsNE (x : FVal) : Nat :=
  if x.isNan then 0x30
  else
    let a := x.abs
    if a.lt (lnsThreshold (-16)) then 0x10
    else
      let l := (List.range 31).foldl (fun (l : Int) (k : Nat) =>
        let j : Int := (k : Int) - 16
        if (lnsThreshold j).lt a then j + 1
        else if a.eq (lnsThreshold j) then (if j % 2 = 0 then j else j + 1)
        else l) (-16)
      if l = -16 then 0x10 else lnsCode x.isNeg l

/-- LnsTZ(x) (R162). -/
def lnsTZ (x : FVal) : Nat :=
  if x.isNan then 0x30
  else
    let a := x.abs
    let p (l : Int) : FVal := (FFmt.fp32.val (lnsP (l % 4).toNat)).scale (l / 4)
    let l := (List.range 31).foldl (fun (l : Int) (k : Nat) =>
      let j : Int := (k : Int) - 15
      if a.lt (p j) then l else j) (-16)
    if l = -16 then 0x10 else lnsCode x.isNeg l

end Sys2Proof.Machine
end

