-- ==== Sys2Proof/Machine/Flags.lean ====
section
/-! DEFINITION. Conditions. The panel keeps no status flags (R143, R170); what another machine's flags would hold are
the conditions of SCMP, VCMP and FCMP, the range test of CVT and the serial comparison, and they are all here. -/

namespace Sys2Proof.Machine

end Sys2Proof.Machine

namespace Sys2Proof
open Sys2Proof.Machine

/-- The conditions of R144 on exact integers. -/
def Cc.holds (c : Cc) (a b : Int) : Bool :=
  match c with
  | .eq => decide (a = b)
  | .ne => decide (a ≠ b)
  | .lt => decide (a < b)
  | .le => decide (a ≤ b)
  | .gt => decide (b < a)
  | .ge => decide (b ≤ a)

/-- The conditions of R181 on float values. -/
def Fcc.holds (c : Fcc) (a b : FVal) : Bool :=
  match c with
  | .eq => a.eq b
  | .ne => !a.eq b
  | .lt => a.lt b
  | .le => a.lt b || a.eq b
  | .gt => b.lt a
  | .ge => b.lt a || a.eq b
  | .un => a.isNan || b.isNan
  | .or => !(a.isNan || b.isNan)

end Sys2Proof

namespace Sys2Proof.Machine

/-- Whether an exact integer lies outside an integer format (`bad` of R185). -/
def outOfRange (sgn : Bool) (w : Nat) (x : Int) : Bool := decide (x < intMin sgn w ∨ intMax sgn w < x)

/-- `bad` of R185 for a float source. -/
def badFloat (sgn : Bool) (w : Nat) (rm : Rm) : FVal → Bool
  | .nan => true
  | .inf _ => true
  | .fin neg m e => outOfRange sgn w (roundToInt rm neg m e)

end Sys2Proof.Machine
end

