-- ==== Sys2Proof/Machine/Arith.lean ====
section
/-! DEFINITION. Integer operations at a width (Tables 8-8 and 10-2), float operations on patterns (Table 10-3), and the
atomic operations (Table 12-5). Values are patterns below 2^w held as natural numbers. -/

namespace Sys2Proof.Machine

/-- A w-bit pattern read signed or unsigned (R155). -/
def ival (sgn : Bool) (w x : Nat) : Int := if sgn && x / 2 ^ (w - 1) % 2 = 1 then (x : Int) - 2 ^ w else x
/-- Trunc(x, w) (R8). -/
def trunc (w : Nat) (x : Int) : Nat := (x % 2 ^ w).toNat

/-- An operation on two patterns of width w, by sign. -/
abbrev IntOp := Bool → Nat → Nat → Nat → Nat

def iAdd : IntOp := fun sg w a b => trunc w (ival sg w a + ival sg w b)
def iSub : IntOp := fun sg w a b => trunc w (ival sg w a - ival sg w b)
def iAddSat : IntOp := fun sg w a b => trunc w (clampInt sg w (ival sg w a + ival sg w b))
def iSubSat : IntOp := fun sg w a b => trunc w (clampInt sg w (ival sg w a - ival sg w b))
def iMul : IntOp := fun sg w a b => trunc w (ival sg w a * ival sg w b)
/-- floor(a × b / 2^w) (R143). -/
def iMulh : IntOp := fun sg w a b => trunc w (ival sg w a * ival sg w b / 2 ^ w)
/-- Quotient toward zero; b = 0 gives all ones; the overflow case gives a, by wrapping (Table 8-8). -/
def iDiv : IntOp := fun sg w a b =>
  if b = 0 then 2 ^ w - 1 else trunc w ((ival sg w a).tdiv (ival sg w b))
/-- a − b × quotient; b = 0 gives a. -/
def iRem : IntOp := fun sg w a b =>
  if b = 0 then a else trunc w ((ival sg w a).tmod (ival sg w b))
def iAnd : IntOp := fun _ _ a b => a &&& b
def iOr : IntOp := fun _ _ a b => a ||| b
def iXor : IntOp := fun _ _ a b => a ^^^ b
def iMin : IntOp := fun sg w a b => if ival sg w b < ival sg w a then b else a
def iMax : IntOp := fun sg w a b => if ival sg w a < ival sg w b then b else a

/-- Shifts of Table 8-8 by a count read unsigned. -/
def iShl : IntOp := fun _ w a n => if w ≤ n then 0 else a * 2 ^ n % 2 ^ w
def iShr : IntOp := fun _ w a n => if w ≤ n then 0 else a / 2 ^ n
def iSra : IntOp := fun _ w a n => trunc w (ival true w a / 2 ^ min n w)

def iNeg (w a : Nat) : Nat := trunc w (-(ival true w a))
def iAbs (w a : Nat) : Nat := trunc w ((ival true w a).natAbs : Int)
def iNegSat (w a : Nat) : Nat := trunc w (clampInt true w (-(ival true w a)))
def iAbsSat (w a : Nat) : Nat := trunc w (clampInt true w ((ival true w a).natAbs : Int))
def iNot (w a : Nat) : Nat := 2 ^ w - 1 - a

/-- 1 bits among the low n bits. -/
def popcount : Nat → Nat → Nat
  | 0, _ => 0
  | n + 1, x => x % 2 + popcount n (x / 2)
/-- Leading zeros of a w-bit pattern. -/
def clz (w x : Nat) : Nat := if x = 0 then w else w - 1 - x.log2

/-- SBFE (Table 8-8): pos and len from the count word. -/
def bitExtract (sgn : Bool) (w a b : Nat) : Nat :=
  let pos := b % 256
  let len := min (b / 256 % 256) w
  if len = 0 then 0
  else
    let x := (ival sgn w a / 2 ^ pos % 2 ^ len).toNat
    trunc w (ival sgn len x)

/-- SBFI (Table 8-8): bits pos to min(pos + len, W) − 1 of a from the low bits of b. -/
def bitInsert (w a b c : Nat) : Nat :=
  let pos := c % 256
  let len := min (c / 256 % 256) w
  let hi := min (pos + len) w
  if hi ≤ pos then a
  else
    let n := hi - pos
    a % 2 ^ pos + (b % 2 ^ n) * 2 ^ pos + a / 2 ^ hi * 2 ^ hi

/-! ## Element types -/

/-- How a type reads its registers (R77, R169): registers, element width, element count, sign, float format. -/
structure Elem where
  regs : Nat
  w : Nat
  n : Nat
  sgn : Bool
  flt : Option FFmt
deriving DecidableEq, Repr

end Sys2Proof.Machine

namespace Sys2Proof
open Sys2Proof.Machine

def ITy.elem : ITy → Elem
  | .i32 => ⟨1, 32, 1, true, none⟩
  | .n32 => ⟨1, 32, 1, false, none⟩
  | .i64 => ⟨2, 64, 1, true, none⟩
  | .n64 => ⟨2, 64, 1, false, none⟩
  | .i16x2 => ⟨1, 16, 2, true, none⟩
  | .n16x2 => ⟨1, 16, 2, false, none⟩
  | .i8x4 => ⟨1, 8, 4, true, none⟩
  | .n8x4 => ⟨1, 8, 4, false, none⟩
def FTy.fmt : FTy → FFmt
  | .f32 => .fp32
  | .f64 => .fp64
  | .f16x2 => .fp16
  | .bf16x2 => .bf16
def FTy.elem : FTy → Elem
  | .f32 => ⟨1, 32, 1, true, some .fp32⟩
  | .f64 => ⟨2, 64, 1, true, some .fp64⟩
  | .f16x2 => ⟨1, 16, 2, true, some .fp16⟩
  | .bf16x2 => ⟨1, 16, 2, true, some .bf16⟩
def ATy.elem : ATy → Elem
  | .i32 => ITy.elem .i32
  | .n32 => ITy.elem .n32
  | .i64 => ITy.elem .i64
  | .n64 => ITy.elem .n64
  | .f32 => FTy.elem .f32
  | .f64 => FTy.elem .f64
  | .f16x2 => FTy.elem .f16x2
  | .bf16x2 => FTy.elem .bf16x2
def RTy.elem : RTy → Elem
  | .i32 => ITy.elem .i32
  | .n32 => ITy.elem .n32
  | .i64 => ITy.elem .i64
  | .n64 => ITy.elem .n64
  | .f32 => FTy.elem .f32
  | .f64 => FTy.elem .f64

end Sys2Proof

namespace Sys2Proof.Machine

/-- Element i of a register image: element 0 in the low bits (R77). -/
def elemAt (w i x : Nat) : Nat := x / 2 ^ (w * i) % 2 ^ w
/-- The image whose element i is `f i`. -/
def packElems (w : Nat) (f : Nat → Nat) : Nat → Nat
  | 0 => 0
  | n + 1 => packElems w f n + (f n % 2 ^ w) * 2 ^ (w * n)

/-- An operation applied element by element (R169). -/
def Elem.map1 (e : Elem) (f : Nat → Nat) (a : Nat) : Nat := packElems e.w (fun i => f (elemAt e.w i a)) e.n
def Elem.map2 (e : Elem) (f : Nat → Nat → Nat) (a b : Nat) : Nat :=
  packElems e.w (fun i => f (elemAt e.w i a) (elemAt e.w i b)) e.n
def Elem.map3 (e : Elem) (f : Nat → Nat → Nat → Nat) (a b c : Nat) : Nat :=
  packElems e.w (fun i => f (elemAt e.w i a) (elemAt e.w i b) (elemAt e.w i c)) e.n

/-! ## Float operations on patterns -/

def fAdd (f : FFmt) (rm : Rm) (a b : Nat) : Nat := f.round rm (FVal.add rm (f.val a) (f.val b))
def fSub (f : FFmt) (rm : Rm) (a b : Nat) : Nat := f.round rm (FVal.add rm (f.val a) (f.val b).neg)
def fMul (f : FFmt) (rm : Rm) (a b : Nat) : Nat := f.round rm (FVal.mul (f.val a) (f.val b))
def fFma (f : FFmt) (rm : Rm) (a b c : Nat) : Nat :=
  f.round rm (FVal.add rm (FVal.mul (f.val a) (f.val b)) (f.val c))
def fDiv (f : FFmt) (rm : Rm) (a b : Nat) : Nat := f.div rm (f.val a) (f.val b)

/-! ## Atomic operations (Table 12-5) -/

/-- The new value of an atomic: `b` the operand (the compare value of .cas), `b2` the new value of .cas. -/
def atomNew (t : ATy) (op : AOp) (old b b2 : Nat) : Nat :=
  let e := t.elem
  match op, e.flt with
  | .exch, _ => b
  | .cas, _ => if old = b then b2 else old
  | .add, none => e.map2 (iAdd e.sgn e.w) old b
  | .add, some f => e.map2 (fAdd f .ne) old b
  | .min, none => e.map2 (iMin e.sgn e.w) old b
  | .min, some f => e.map2 (f.minMax false) old b
  | .max, none => e.map2 (iMax e.sgn e.w) old b
  | .max, some f => e.map2 (f.minMax true) old b
  | .and, _ => old &&& b
  | .or, _ => old ||| b
  | .xor, _ => old ^^^ b

/-- The identity of an operation, one element (R194, R207). -/
def atomIdent (t : ATy) (op : AOp) : Nat :=
  let e := t.elem
  let one := match op, e.flt with
    | .min, none => trunc e.w (intMax e.sgn e.w)
    | .max, none => trunc e.w (intMin e.sgn e.w)
    | .min, some f => f.infBits
    | .max, some f => f.signBit + f.infBits
    | .and, _ => 2 ^ e.w - 1
    | _, _ => 0
  packElems e.w (fun _ => one) e.n

end Sys2Proof.Machine
end

