-- ==== Sys2Proof/Machine/Mmu.lean ====
section
/-! DEFINITION. Event records in host memory (R51, R52), translation and its faults (R210 to R214), and the frames of an
island's HBM4E (R59). -/

namespace Sys2Proof.Machine

/-! ## The event queue -/

/-- Word 0 of an event record (R51). -/
def eventWord0 (kind code queue tenant : Nat) : Nat := kind + code * 2 ^ 8 + queue * 2 ^ 16 + tenant * 2 ^ 32

def HostRegs.ringOn (h : HostRegs) : Bool := h.eqBase ≠ 0 && 7 ≤ h.eqSize && h.eqSize ≤ 20
def HostRegs.ringFull (h : HostRegs) : Bool := (h.eqTail + 2 ^ 32 - h.eqHead) % 2 ^ 32 = 2 ^ h.eqSize

/-- One event: written at TAIL and counted there, or dropped and counted in LOST (R52). -/
def State.event (s : State) (kind code queue tenant w1 w2 w3 : Nat) : State :=
  if s.host.ringOn && !s.host.ringFull then
    let a := s.host.eqBase + 32 * (s.host.eqTail % 2 ^ s.host.eqSize)
    let bs := leBytes 8 (eventWord0 kind code queue tenant) ++ leBytes 8 w1 ++ leBytes 8 w2 ++ leBytes 8 w3
    { s with
      hostMem := memPut s.hostMem a bs
      host := { s.host with eqTail := (s.host.eqTail + 1) % 2 ^ 32 } }
  else { s with host := { s.host with eqLost := min (s.host.eqLost + 1) (2 ^ 32 - 1) } }

/-! ## Homes -/

/-- Where the topology table lies in `State.mem` (log 16). -/
def topoBase : Nat := 2 ^ 44
/-- The island that homes a physical address; the topology table is read where the access is issued. -/
def homeOf (own pa : Nat) : Nat := if pa < topoBase then pa / 2 ^ 39 else own

/-! ## Page tables -/

/-- What a walk finds (R210, R211, R214). -/
inductive Walk
  | leaf (e : TlbEntry)
  /-- V = 0: whether DEMAND and LEAF are set, the entry's address, level and size code, and the entry -/
  | missing (demand : Bool) (pte level size entry : Nat)
  | bad
deriving DecidableEq, Repr

def pteIndex (va level : Nat) : Nat := va / 2 ^ (12 + 8 * level) % (if level = 5 then 16 else 256)
def pteAddr (x : Nat) : Nat := natBits x 63 59 * 2 ^ 39 + natBits x 38 11 * 2 ^ 11
def pageBytes (size : Nat) : Nat := 4096 * 4 ^ size

/-- The entry of a valid leaf, when it breaks none of the rules of R211. -/
def leafOf (s : State) (tenant va level x : Nat) : Walk :=
  let size := natBits x 10 7
  if level ≤ 2 ∧ 4 * level ≤ size ∧ size ≤ 4 * level + 3 ∧ pteAddr x % pageBytes size = 0 then
    if (s.isl (natBits x 63 59)).live then
      .leaf { tenant := tenant, page := va / pageBytes size * 4 ^ size, size := size, isl := natBits x 63 59,
              frame := pteAddr x, attr := Attr.ofCode (natBits x 5 4), w := natBits x 3 3 = 1 }
    else .bad
  else .bad

/-- The entry a walk takes for a leaf it met: that one, or, where the entries the page occupies differ, any of them that
maps a page of the size (R210, log 20). -/
def pickLeaf (s : State) (level pte x : Nat) : Nat :=
  let n := if 4 * level ≤ natBits x 10 7 ∧ natBits x 10 7 ≤ 4 * level + 3 then 4 ^ (natBits x 10 7 - 4 * level) else 1
  let at_ (j : Nat) : Nat := s.rd (8 * (pte / 8 / n * n + j)) 8
  if (List.range n).all fun j => at_ j = x then x
  else
    let y := at_ (Config.choice s.tick % n)
    if natBits y 1 0 = 3 ∧ natBits y 2 2 = 0 ∧ natBits y 58 39 = 0 ∧ natBits y 10 7 = natBits x 10 7 then y else x

/-- The walk from the table of a level (R210). -/
def walkFrom (s : State) (tenant va : Nat) : Nat → Nat → Walk
  | level, table =>
    let pte := table + 8 * pteIndex va level
    let x := s.rd pte 8
    if natBits x 0 0 = 0 then
      .missing (decide (natBits x 6 6 = 1 ∧ natBits x 1 1 = 1)) pte level (natBits x 10 7) x
    else if natBits x 58 39 ≠ 0 ∨ natBits x 2 2 ≠ 0 then .bad
    else if natBits x 1 1 = 1 then leafOf s tenant va level (pickLeaf s level pte x)
    else if natBits x 10 7 ≠ 0 ∨ !(s.isl (natBits x 63 59)).live then .bad
    else
      match level with
      | 0 => .bad
      | l + 1 => walkFrom s tenant va l (pteAddr x)

/-- Pages the PCP maps for a tenant: the topology table (R54) and the mirror lines of its crews (R355). -/
def specialPage (s : State) (tenant va : Nat) : Option TlbEntry :=
  let p := va / 4096
  let topo := (Config.topoPage tenant).toNat
  if p = topo ∨ p = topo + 1 then
    some { tenant := tenant, page := p, size := 0, isl := 32, frame := 2 ^ 44 + 4096 * (p - topo), attr := .shared,
           w := false }
  else
    match List.find? (fun uc : Nat × Crew =>
        (Config.mirrorPage tenant uc.2.isl uc.1).toNat = p ∧ uc.2.mirror.isSome ∧
          ((SMap.find? s.kernels uc.2.kernel).map (·.tenant)) = some tenant) s.crews with
    | some (_, c) =>
      some { tenant := tenant, page := p, size := 0, isl := c.isl, frame := c.mirror.getD 0 / 4096 * 4096, attr := .coherent,
             w := false }
    | none => none

/-- A whole walk of a tenant's table (R210). -/
def walk (s : State) (tenant va : Nat) : Walk :=
  if 2 ^ 56 ≤ va then .bad
  else
    match walkFrom s tenant va 5 (s.tenant tenant).ptroot with
    | .leaf e => .leaf e
    | w =>
      match specialPage s tenant va with
      | some e => .leaf e
      | none => w

/-! ## TLBs (R212) -/

def TlbEntry.covers (e : TlbEntry) (tenant va : Nat) : Bool :=
  e.tenant = tenant && e.page ≤ va / 4096 && va / 4096 < e.page + 4 ^ e.size
def TlbEntry.pa (e : TlbEntry) (va : Nat) : Nat := e.frame + (va - 4096 * e.page)

/-- A TLB with a new entry; a full one loses the entry at the place a free value names (log 13). -/
def tlbFill (cap tick : Nat) (t : List TlbEntry) (e : TlbEntry) : List TlbEntry :=
  if t.length < cap then e :: t else e :: t.eraseIdx (Config.tlbVictim tick % cap)

/-- Every TLB loses the entries that overlap a range of a tenant (R212). -/
def tlbDrop (s : State) (p : TlbEntry → Bool) : State :=
  { s with
    isls := s.isls.mapVals fun _ i => { i with tlb := i.tlb.filter fun e => !p e }
    cores := s.cores.mapVals fun _ c => { c with tlb := c.tlb.filter fun e => !p e } }

/-! ## The fault buffer (R214) -/

/-- The lowest number below `n` that a map does not hold. -/
def freeKey {α : Type} (m : SMap α) (n : Nat) : Option Nat := (List.range n).find? fun k => (m.find? k).isNone

/-- A faulting access enters its island's buffer, with an event when the host must answer, or waits for an entry. -/
def faultEnter (s : State) (isl : Nat) (f : FaultEntry) (queue : Nat) : State :=
  match freeKey (s.isl isl).faults 1024 with
  | none => s.updIsl isl fun i => { i with faultWait := i.faultWait ++ [f] }
  | some k =>
    let s := s.updIsl isl fun i => { i with faults := i.faults.put k f }
    if f.demand then s
    else
      let engine := match f.who with
        | .team _ => 0
        | _ => 1
      s.event 0x10 0 queue f.tenant f.kernelSeq f.va
        (k + isl * 2 ^ 16 + (if f.write then 2 ^ 24 else 0) + engine * 2 ^ 25)

/-- An entry leaves the buffer, and the oldest access that waits takes its place. -/
def faultLeave (s : State) (isl entry : Nat) : State :=
  let s := s.updIsl isl fun i => { i with faults := SMap.del i.faults entry }
  match (s.isl isl).faultWait with
  | [] => s
  | f :: rest =>
    let s := s.updIsl isl fun i => { i with faultWait := rest }
    faultEnter s isl f (match List.find? (fun uk : Nat × Kernel => uk.2.seq = f.kernelSeq ∧ uk.2.tenant = f.tenant) s.kernels with
      | some uk => uk.2.queue
      | none => 0)

/-- Every entry of a faulter leaves (R214, R376). -/
def faultForget (s : State) (isl : Nat) (who : Faulter) : State :=
  let s := s.updIsl isl fun i => { i with faultWait := i.faultWait.filter fun f => f.who ≠ who }
  (s.isl isl).faults.foldl (fun s kf => if kf.2.who = who then faultLeave s isl kf.1 else s) s

/-! ## Frames (R59, log 8) -/

/-- Whether an area of an island's HBM4E is free. -/
def areaFree (used : List (Nat × Nat)) (base size : Nat) : Bool :=
  base + size ≤ 2 ^ 39 && used.all fun u => base + size ≤ u.1 || u.1 + u.2 ≤ base
/-- A free aligned area: the one a free value names, else the first after an area in use, else the lowest. -/
def findFrame (tick : Nat) (used : List (Nat × Nat)) (size : Nat) : Option Nat :=
  let start := Config.frame tick size % (2 ^ 39 / size) * size
  let cands := start :: 0 :: used.map fun u => ceilDiv (u.1 + u.2) size * size
  cands.find? fun b => areaFree used b size
def hasFrame (s : State) (isl size : Nat) : Bool := (findFrame s.tick (s.isl isl).frames size).isSome
/-- Bytes of an island not in use. -/
def freeBytes (s : State) (isl : Nat) : Nat := 2 ^ 39 - ((s.isl isl).frames.map Prod.snd).sum

/-- Take a frame on an island and fill it with zeros: its panel physical address. -/
def takeFrame (s : State) (isl size : Nat) : Option (Nat × State) :=
  match findFrame s.tick (s.isl isl).frames size with
  | none => none
  | some b =>
    let pa := isl * 2 ^ 39 + b
    some (pa, { s.updIsl isl fun i => { i with frames := (b, size) :: i.frames } with
      mem := s.mem.filter fun kb => kb.1 < pa || pa + size ≤ kb.1 })
/-- What the caches of an island hold of a range goes, and the writes that wait for it. -/
def forgetRange (s : State) (pa size : Nat) : State :=
  let isl := pa / 2 ^ 39
  let keeps (line : Nat) : Bool := line * 128 < pa || pa + size ≤ line * 128
  { s.updIsl isl fun i => { i with
      l2 := (i.l2.map fun kl => (kl.1, kl.2.filter fun l => keeps l.line)).filter fun kl => !kl.2.isEmpty } with
    cores := s.cores.mapVals fun key c => if key / 36 ≠ isl then c else { c with
      l1 := (c.l1.map fun kl => (kl.1, kl.2.filter fun l => keeps l.line)).filter fun kl => !kl.2.isEmpty }
    held := s.held.filter fun h => h.pa < pa || pa + size ≤ h.pa }
/-- A frame goes free, with what its island's caches hold of it. -/
def dropFrame (s : State) (pa : Nat) : State :=
  let isl := pa / 2 ^ 39
  let size := (((s.isl isl).frames.find? fun u => u.1 = pa % 2 ^ 39).map Prod.snd).getD 0
  (forgetRange s pa size).updIsl isl fun i => { i with frames := i.frames.filter fun u => u.1 ≠ pa % 2 ^ 39 }

/-- Whether an island has a port (Table 13-2). -/
def hasPort (s : State) (isl port : Nat) : Bool := (s.panel.peer isl port).isSome
/-- Whether the end of a link stands: a live island, or the service tile. -/
def standing (s : State) (isl : Nat) : Bool := isl = serviceTile || (s.isl isl).live
/-- Whether a packet can be sent on a port: its link is up or restriping and the islands at its ends are live (R55, R250,
R251). -/
def portUsable (s : State) (isl port : Nat) : Bool :=
  ((s.link isl port).lstate = 1 || (s.link isl port).lstate = 2) && standing s isl &&
    (s.panel.peer isl port).any fun jq => standing s jq.1
/-- The islands within some hops of an island, over the links that routes may use (R55). -/
def reachable (s : State) (a : Nat) : Nat → List Nat
  | 0 => [a]
  | n + 1 =>
    let here := reachable s a n
    (here ++ (here.map fun i => ((List.range 8).filter (portUsable s i)).filterMap fun p =>
      (s.panel.peer i p).map Prod.fst).flatten).dedup
/-- Hops of the shortest route from an island to another (R55); 5 where no route of four hops leads there (log 61). -/
def hops (s : State) (a b : Nat) : Nat := ((List.range 5).find? fun n => (reachable s a n).contains b).getD 5

/-- The least element by a measure, the first on ties. -/
def argMin (f : Nat → Nat) : List Nat → Option Nat
  | [] => none
  | x :: xs =>
    match argMin f xs with
    | none => some x
    | some y => if f y < f x then some y else some x

/-- The route word of the table in force: ROUTE0, or ROUTE1 (R55). An island's own route delivers at once. -/
def routeWord (s : State) (a b : Nat) (alt : Bool) : Nat :=
  if a = b then 0xFFFF else s.rd (topoBase + 64 + 256 * a + 64 + 4 * b + if alt then 2 else 0) 2
/-- Key of the stream of an endpoint to an island (R253). -/
def streamKey (isl sep dst : Nat) : Nat := (isl * 256 + sep) * 32 + dst

/-- The island of a new page: the first choice, else the one with most room among those with fewest hops (R59). -/
def pageIsland (s : State) (want size : Nat) : Option Nat :=
  if (s.isl want).live && hasFrame s want size then some want
  else
    let able := s.liveIsls.filter fun d => hasFrame s d size
    match argMin (hops s want) able with
    | none => none
    | some n => argMin (fun d => 2 ^ 39 - freeBytes s d) (able.filter fun d => hops s want d = hops s want n)

/-- The PCP's choice for a page it or the host touches first (R59). -/
def pcpRank (s : State) (va size : Nat) : Nat :=
  s.liveIsls.getD (va / pageBytes size % max s.liveIsls.length 1) 0

end Sys2Proof.Machine
end

