-- ==== Sys2Proof/Machine/Waits.lean ====
section
/-! DEFINITION. Aborts and conflicts of transactions (R325 to R328), the crumb table and the L-space watch list (R329 to
R333), sleeps and wakes. A line is numbered by its panel physical address divided by 128. -/

namespace Sys2Proof.Machine

def lineOf (pa : Nat) : Nat := pa / 128
def lineIsl (line : Nat) : Nat := line * 128 / 2 ^ 39
/-- The lines that n bytes at `pa` touch. -/
def linesOf (pa n : Nat) : List Nat :=
  if n = 0 then [] else (List.range (lineOf (pa + n - 1) - lineOf pa + 1)).map (lineOf pa + ·)
/-- The channel of a physical address, and the slice that serves it (R199). -/
def channelOf (pa : Nat) : Nat := natBits pa 14 7 ^^^ natBits pa 22 15 ^^^ natBits pa 30 23 ^^^ natBits pa 38 31
def sliceOfLine (line : Nat) : Nat := channelOf (line * 128) / 16

/-! ## The end of a transaction -/

/-- Aborts that continue at the abort path (Table 17-1). -/
def TxCode.leaves : TxCode → Bool
  | .rdcap | .wrcap | .nest | .forbid | .attr | .explicit | .long => true
  | _ => false

/-- A team's token and token request go back (R328). -/
def tokenDrop (s : State) (isl u : Nat) : State :=
  s.updIsl isl fun i =>
    { i with token := if i.token = some u then none else i.token, tokenAsk := i.tokenAsk.filter (· ≠ u) }

/-- A team asks for the token no longer (R328). -/
def tokenBack (s : State) (isl u : Nat) : State :=
  (tokenDrop s isl u).updTeam u fun t => { t with txs := { t.txs with asked := false } }

/-- The status after an abort (R328, R342). -/
def TxStat.after (x : TxStat) (c : TxCode) : TxStat :=
  { code := c
    conflicts := if c = .conflict then min (x.conflicts + 1) 16
      else if c.leaves || c = .sleep then 0 else x.conflicts
    again := !c.leaves
    asked := false }

/-- Where a team stands after an abort: the restart point, or the abort path with the restart point's mask and stacks
(R325). -/
def Tx.flowAfter (x : Tx) (c : TxCode) : Flow :=
  if c.leaves then { x.restart with pc := x.abortPath } else x.restart

def Team.aborted (t : Team) (x : Tx) (c : TxCode) : Team :=
  { t with tx := none, txs := t.txs.after c, flow := x.flowAfter c }

/-- The crew's core forgets what a team watches in L-space (R333). -/
def watchDrop (s : State) (u : Nat) : State :=
  match s.teams.find? u with
  | none => s
  | some t =>
    match s.crews.find? t.crew with
    | none => s
    | some c =>
      s.updCore c.key fun k =>
        { k with watch := k.watch.filter fun w => w.2.2 ≠ u, unwatched := k.unwatched.filter (· ≠ u) }

/-- An abort: every buffered write is discarded (R325, Table 17-1). -/
def abortTx (s : State) (u : Nat) (c : TxCode) : State :=
  match s.teams.find? u with
  | none => s
  | some t =>
    match t.tx with
    | none => s
    | some x =>
      let s := watchDrop s u
      let s := match s.crews.find? t.crew with
        | some cr => tokenDrop s cr.isl u
        | none => s
      s.setTeam u (t.aborted x c)

/-! ## Conflicts (R327, R328) -/

def Tx.meets (x : Tx) (write : Bool) (line : Nat) : Bool := x.w.lines.contains line || (write && x.reads.contains line)

/-- Whether another team's irrevocable attempt holds a line against an access (R328). -/
def irrevHolds (s : State) (by_ : Option Nat) (write : Bool) (line : Nat) : Bool :=
  s.teams.any fun ut =>
    some ut.1 ≠ by_ && match ut.2.tx with
      | some x => x.irrev && x.meets write line
      | none => false

/-- An access reaches a line: every other transaction it conflicts with aborts (R327). -/
def conflictOn (s : State) (by_ : Option Nat) (write : Bool) (line : Nat) : State :=
  s.teams.foldl (fun s ut =>
    match ut.2.tx with
    | some x => if some ut.1 ≠ by_ && x.meets write line && !x.irrev then abortTx s ut.1 .conflict else s
    | none => s) s

/-! ## Crumbs -/

/-- Every registration of a team leaves (R330). -/
def crumbForget (s : State) (u : Nat) : State :=
  let s := watchDrop s u
  let s := s.updTeam u fun t => { t with ovf := [] }
  { s with
    isls := s.isls.mapVals fun _ i =>
      { i with crumbs := (i.crumbs.mapVals fun _ c => { c with waiters := c.waiters.filter (· ≠ .team u) }).filter fun lc =>
          !lc.2.waiters.isEmpty || lc.2.bcast } }

/-- A waiter meets a change: a team's wake is due, a held kernel's counters are to be read again (R330, R336). -/
def wakeWaiter (s : State) : Waiter → State
  | .team u =>
    match s.teams.find? u with
    | none => s
    | some t =>
      match t.status with
      | .sleeping .. => crumbForget (s.setTeam u { t with wakeDue := true }) u
      | _ => s
  | .hold k => s.updKernel k fun x => { x with retry := true }

/-- A line changes, or its entry is evicted (R330, R331): the entry is freed, its waiters are woken, and where a ninth found
no slot, every team of the island whose overflow mask holds the slice. -/
def changeLine (s : State) (line : Nat) : State :=
  let i := lineIsl line
  match (s.isl i).crumbs.find? line with
  | none => s
  | some c =>
    let s := s.updIsl i fun x => { x with crumbs := SMap.del x.crumbs line }
    let s := c.waiters.foldl wakeWaiter s
    if c.bcast then
      s.teams.foldl (fun s ut =>
        if ut.2.ovf.contains (sliceOfLine line) &&
            ((s.crews.find? ut.2.crew).map (·.isl)) = some i then wakeWaiter s (.team ut.1)
        else s) s
    else s

/-- A waiter registers on a line (R329, R331, R336). -/
def crumbAdd (s : State) (w : Waiter) (line : Nat) : State :=
  let i := lineIsl line
  match (s.isl i).crumbs.find? line with
  | some c =>
    if c.waiters.contains w then s
    else if c.waiters.length < 8 then
      s.updIsl i fun x => { x with crumbs := x.crumbs.put line { c with waiters := c.waiters ++ [w] } }
    else
      let s := s.updIsl i fun x => { x with crumbs := x.crumbs.put line { c with bcast := true } }
      match w with
      | .team u => s.updTeam u fun t => { t with ovf := sliceOfLine line :: t.ovf }
      | .hold k => s.updKernel k fun x => { x with retry := true }
  | none =>
    let mine := (s.isl i).crumbs.filter fun lc => sliceOfLine lc.1 = sliceOfLine line
    let s :=
      if mine.length < 2048 then s
      else
        match argMin (fun l => ((SMap.find? mine l).map (·.order)).getD 0) (SMap.keys mine) with
        | some old => changeLine s old
        | none => s
    s.updIsl i fun x =>
      { x with crumbs := x.crumbs.put line { order := x.crumbOrder, waiters := [w] }, crumbOrder := x.crumbOrder + 1 }

/-- Whether another team's irrevocable attempt has read one of the words of a crew's L-space that n bytes touch: a write of
them is held (R328, R333). -/
def wordHeld (s : State) (crew : Nat) (by_ : Option Nat) (off n : Nat) : Bool :=
  s.teams.any fun ut =>
    ut.2.crew = crew && some ut.1 ≠ by_ && match ut.2.tx with
      | some x => x.irrev && x.words.any fun w => w * 16 < off + n && off < w * 16 + 16
      | none => false

/-- A word enters the L-space watch list of a core, or the team sleeps with it unwatched (R333). -/
def watchWord (crew u : Nat) (k : Core) (word : Nat) : Core :=
  if k.watch.length < 64 then { k with watch := (crew, (word, u)) :: k.watch }
  else { k with unwatched := u :: k.unwatched }

/-- A team goes to sleep on lines and, for a barrier, on words of its crew's L-space (R326, R331, R333). -/
def sleepTeam (s : State) (u : Nat) (lines words : List Nat) : State :=
  match s.teams.find? u with
  | none => s
  | some t =>
    let s := s.setTeam u { t with status := .sleeping lines words, wakeDue := false }
    let s := lines.foldl (fun s l => crumbAdd s (.team u) l) s
    match s.crews.find? t.crew with
    | some c => s.updCore c.key fun k => words.foldl (watchWord t.crew u) k
    | none => s

/-- A watched word of a crew's L-space changes (R333): other transactions that test it abort, sleepers are woken. -/
def changeWord (s : State) (crew : Nat) (by_ : Option Nat) (word : Nat) : State :=
  match s.crews.find? crew with
  | none => s
  | some c =>
    let s := s.teams.foldl (fun s ut =>
      match ut.2.tx with
      | some x =>
        if ut.2.crew = crew && some ut.1 ≠ by_ && x.words.contains word && !x.irrev then abortTx s ut.1 .conflict else s
      | none => s) s
    let k := s.core c.key
    let s := (k.watch.filter fun w => w.1 = crew && w.2.1 = word).foldl (fun s w => wakeWaiter s (.team w.2.2)) s
    k.unwatched.foldl (fun s u => wakeWaiter s (.team u)) s

end Sys2Proof.Machine
end

