-- ==== Sys2Proof/Machine/Cache.lean ====
section
/-! DEFINITION. Memory at its home and in the caches: write logs (R386, R389), recalls of update-only lines (R208), the L2
(R198, R200), writes at the home, and the loads and stores of a core (R198 to R207, R227). Coherent lines hold no data of
their own: the directory keeps them equal to the home; the L2 holds what its HBM4E holds. -/

namespace Sys2Proof.Machine

/-! ## Write logs -/

/-- Records a write log holds: 64 bytes each (R386, R417). -/
def logRoom (h : HostRegs) : Nat := if h.wlogsz = 0 then 0 else 2 ^ h.wlogsz / 64

def spanWord2 (k : Kernel) (tag : SpanTag) : Nat := tag.crew + (if k.launch.resident then 2 ^ 40 else 0)

/-- One sector is logged before the first write of a span to it (R386), or the span becomes non-rollbackable (R389). `own`
holds what the writing core's L1 has of the line beyond its home, by offset. -/
def logSector (s : State) (tag : SpanTag) (own : SMap Byte) (sector : Nat) : State :=
  match s.kernels.find? tag.kernel with
  | none => s
  | some k =>
    let i := sector / 2 ^ 39
    if k.noRoll.contains tag || (s.isl i).log.any fun r => r.tag = tag && r.sector = sector then s
    else if (s.isl i).log.length < logRoom s.host then
      let old := (List.range 32).map fun j => (own.find? (sector % 128 + j)).getD (memGet s.mem (sector + j))
      s.updIsl i fun x => { x with log := { sector := sector, tag := tag, bytes := old } :: x.log }
    else
      (s.updKernel tag.kernel fun k => { k with noRoll := tag :: k.noRoll }).event 0x22 0 k.queue k.tenant k.seq
        (spanWord2 k tag) 0

def sectorsOf (pa n : Nat) : List Nat :=
  if n = 0 then [] else (List.range ((pa + n - 1) / 32 - pa / 32 + 1)).map fun j => (pa / 32 + j) * 32
/-- Whether bytes at a physical address lie on a poisoned sector (R391). -/
def poisoned (s : State) (pa n : Nat) : Bool := (sectorsOf pa n).any fun x => (s.isl (x / 2 ^ 39)).poison.contains x

/-- Whether a span is still open; a write performed after it has closed is not logged (R386, R387). -/
def spanOpen (s : State) (tag : SpanTag) : Bool :=
  match s.kernels.find? tag.kernel with
  | none => false
  | some k =>
    let crews := s.crews.filter fun uc => uc.2.kernel = tag.kernel && uc.2.idx = tag.crew
    if k.launch.resident then
      s.teams.any fun ut => ut.2.span = tag.span && (SMap.find? crews ut.2.crew).isSome
    else if k.ranges.isEmpty then crews.any fun uc => !uc.2.exited
    else k.ranges.any fun r => r.lo ≤ tag.crew && tag.crew < r.hi && r.exited < r.hi - r.lo

/-- The sectors of a write are logged for an open span. -/
def logWrite (s : State) (tag : Option SpanTag) (pa n : Nat) (own : SMap Byte := []) : State :=
  match tag with
  | none => s
  | some tag => if spanOpen s tag then (sectorsOf pa n).foldl (fun s x => logSector s tag own x) s else s

/-! ## Touches of pages (R60) -/

/-- The touches with the window they count in moved on to a later one. -/
def Touches.at (t : Touches) (w : Nat) : Touches :=
  if t.window = w then t else { window := w, before := if t.window + 1 = w then t.here else {} }
/-- The touches of one window, where they are still known. -/
def Touches.inWindow (t : Touches) (w : Nat) : Touch :=
  if t.window = w then t.here else if t.window = w + 1 then t.before else {}
/-- One access of 4 KiB of memory, by a remote operation of an island or by anything else, in the present window. -/
def touch (s : State) (pa : Nat) (from_ : Option Nat) : State :=
  let t := ((s.pcp.touches.find? (pa / 4096)).getD {}).at (s.now / 200000)
  let h := match from_ with
    | some i => { t.here with remote := SMap.set 0 t.here.remote i (SMap.get 0 t.here.remote i + 1) }
    | none => { t.here with other := t.here.other + 1 }
  s.updPcp fun p => { p with touches := p.touches.put (pa / 4096) { t with here := h } }

/-- A kernel reaches memory by an ordinary load or store (R60). -/
def reach (s : State) (kernel pa : Nat) : State :=
  if s.pcp.reached.contains (kernel, pa / 4096) then s
  else s.updPcp fun p => { p with reached := (kernel, pa / 4096) :: p.reached }

/-! ## L1 lines -/

def l1Set (line : Nat) : Nat := line % 128
def Core.l1Find (c : Core) (line : Nat) : Option L1Line :=
  (SMap.get [] c.l1 (l1Set line)).find? fun l => l.line = line
def Core.l1Drop (c : Core) (line : Nat) : Core :=
  { c with l1 := SMap.set [] c.l1 (l1Set line) ((SMap.get [] c.l1 (l1Set line)).filter fun l => l.line ≠ line) }
def Core.l1Put (c : Core) (l : L1Line) (strm : Bool) : Core :=
  let rest := (SMap.get [] c.l1 (l1Set l.line)).filter fun x => x.line ≠ l.line
  { c with l1 := SMap.set [] c.l1 (l1Set l.line) (if strm then rest ++ [l] else l :: rest) }

/-- Partials of a core's update-only line join the home, in ascending element order (R208). -/
def combine (s : State) (l : L1Line) : State :=
  match l.kind with
  | .update t op =>
    l.partials.foldl (fun s p =>
      let n := 4 * t.regs
      let a := l.line * 128 + p.1
      s.wrNat a n (atomNew t op (s.rd a n) p.2 0)) s
  | _ => s

/-- Dirty bytes of a private line reach the L2. -/
def writeBack (s : State) (l : L1Line) : State := l.dirty.foldl (fun s p => s.wr (l.line * 128 + p.1) [p.2]) s

/-- Cores of an island whose L1 holds a line: the sharer vector of its directory entry (R200). -/
def sharers (s : State) (line : Nat) : List Nat :=
  (List.range 36).filter fun c => ((s.core (coreKey (lineIsl line) c)).l1Find line).isSome

def L1Line.isUpdate (l : L1Line) : Bool := match l.kind with
  | .update .. => true
  | _ => false

/-- Every update-only copy of a line is recalled, in ascending core number (R208): a change to the line. -/
def recallLine (s : State) (line : Nat) : State :=
  let keys := (sharers s line).map fun c => coreKey (lineIsl line) c
  let ups := keys.filter fun k => match (s.core k).l1Find line with
    | some l => l.isUpdate
    | none => false
  if ups.isEmpty then s
  else
    let s := ups.foldl (fun s k =>
      match (s.core k).l1Find line with
      | some l => (combine s l).updCore k fun c => c.l1Drop line
      | none => s) s
    changeLine s line

/-- The update-only copies of every line of a page are recalled (R208). -/
def recallUpdates (s : State) (isl base n : Nat) : State :=
  let ups := ((List.range 36).map fun c => ((s.core (coreKey isl c)).l1.map Prod.snd).flatten.filter fun l =>
    l.isUpdate && base ≤ l.line * 128 && l.line * 128 < base + n).flatten
  (ups.map (·.line)).dedup.foldl recallLine s

/-- The copies of a coherent line leave every L1 but one's (R203). -/
def invalidateOthers (s : State) (line : Nat) (keep : Option Nat) : State :=
  (sharers s line).foldl (fun s c =>
    let k := coreKey (lineIsl line) c
    if some k = keep then s
    else
      match (s.core k).l1Find line with
      | some l => if l.kind = .coherent then s.updCore k fun c => c.l1Drop line else s
      | none => s) s

/-! ## The L2 (R198, R200) -/

/-- The number of a line among those of its slice's channels, in ascending address (R199; log 23). -/
def lineInSlice (line : Nat) : Nat := line % 2 ^ 32 / 256 * 16 + line % 16
/-- The key of the L2 set of a line. -/
def l2Key (line : Nat) : Nat := 8192 * sliceOfLine line + lineInSlice line % 8192
/-- A line leaves the L2: every L1 copy of it is recalled first. -/
def l2Evict (s : State) (line : Nat) : State := invalidateOthers (recallLine s line) line none
/-- The sectors of a line that n bytes at an address touch, as bits. -/
def sectorBits (pa n line : Nat) : Nat :=
  (((List.range 4).filter fun k => pa < line * 128 + 32 * k + 32 && line * 128 + 32 * k < pa + n).map (2 ^ ·)).sum
/-- Some sectors of a line enter, or are touched in, the L2 of its home: the least recently used line of a full set
leaves. -/
def l2Touch (s : State) (line bits : Nat) (strm : Bool) : State :=
  let i := lineIsl line
  let key := l2Key line
  let set := SMap.get [] (s.isl i).l2 key
  let put (s : State) (ls : List L2Line) : State := s.updIsl i fun x => { x with l2 := SMap.set [] x.l2 key ls }
  if 32 ≤ i then s
  else
    match set.find? fun x => x.line = line with
    | some x => put s ({ x with sectors := x.sectors ||| bits } :: set.filter fun x => x.line ≠ line)
    | none =>
      let s := if set.length < 16 then s else (set.drop 15).foldl (fun s x => l2Evict s x.line) s
      let x : L2Line := { line := line, sectors := bits }
      put s (if strm then set.take 15 ++ [x] else x :: set.take 15)
/-- The sectors in which a private line has dirty bytes, as bits. -/
def L1Line.dirtySectors (l : L1Line) : Nat :=
  (((List.range 4).filter fun k => l.dirty.any fun p => p.1 / 32 = k).map (2 ^ ·)).sum
/-- Dirty bytes of a private line reach the L2. -/
def writeBackL2 (s : State) (l : L1Line) : State := l2Touch (writeBack s l) l.line l.dirtySectors false

/-- A line leaves an L1 (R198, R200). -/
def evict (s : State) (l : L1Line) : State :=
  match l.kind with
  | .update .. => changeLine (combine s l) l.line
  | .priv => if l.dirty.isEmpty then s else writeBackL2 s l
  | _ => s

/-- Room in an L1 for a line of some kind: the least recently used line of a full set leaves (R198), and what the L1 holds
of the line under another kind. -/
def l1Room (s : State) (key line : Nat) (kind : L1Kind) : State :=
  let set := SMap.get [] (s.core key).l1 (l1Set line)
  let out : Option L1Line := match (s.core key).l1Find line with
    | some l => if l.kind = kind then none else some l
    | none => if set.length < 16 then none else set.getLast?
  match out with
  | some old => evict (s.updCore key fun c => c.l1Drop old.line) old
  | none => s
/-- A line enters, or is touched in, an L1. -/
def l1Enter (s : State) (key : Nat) (l : L1Line) (strm : Bool) : State :=
  (l1Room s key l.line l.kind).updCore key fun c => c.l1Put l (strm && (c.l1Find l.line).isNone)

/-! ## Accesses at the home -/

/-- An access of n bytes at an address reaches a line at its home: update-only copies are recalled, transactions it
conflicts with abort, and its sectors stand in the L2. -/
def reachLine (s : State) (by_ : Option Nat) (write strm : Bool) (pa n l : Nat) : State :=
  l2Touch (conflictOn (recallLine s l) by_ write l) l (sectorBits pa n l) strm

/-- A read of the home by an agent. -/
def homeRead (s : State) (by_ : Option Nat) (pa n : Nat) : List Byte × State :=
  let s := (linesOf pa n).foldl (fun s l => reachLine s by_ false false pa n l) s
  (s.bytes pa n, s)

/-- A write at the home: logged for its span, performed, and a change to every line it touches (R204, R330, R386). -/
def homeWrite (s : State) (by_ : Option Nat) (tag : Option SpanTag) (keep : Option Nat) (pa : Nat) (bs : List Byte) :
    State :=
  let ls := linesOf pa bs.length
  let s := ls.foldl (fun s l => invalidateOthers (reachLine s by_ true false pa bs.length l) l keep) s
  let s := (logWrite s tag pa bs.length).wr pa bs
  ls.foldl changeLine s

/-- An atomic at the home (R230, R388): the old value; a change only when the value differs. -/
def homeAtomic (s : State) (by_ : Option Nat) (t : ATy) (op : AOp) (pa b b2 : Nat) : Nat × State :=
  let n := 4 * t.regs
  let l := lineOf pa
  let s := reachLine s by_ true false pa n l
  let old := s.rd pa n
  let new := atomNew t op old b b2
  if new = old then (old, s)
  else (old, changeLine (invalidateOthers (s.wrNat pa n new) l none) l)

/-! ## What a home holds (R216, R328) -/

/-- Whether two accesses touch a common byte, or a common line where one acts on lines. -/
def accMeet (byLine : Bool) (a n b m : Nat) : Bool :=
  if byLine then a / 128 ≤ (b + m - 1) / 128 && b / 128 ≤ (a + n - 1) / 128 else a < b + m && b < a + n
/-- Whether two accesses touch a common sector. -/
def sectorMeet (a n b m : Nat) : Bool := accMeet false (a / 32 * 32) (n + a % 32) (b / 32 * 32) (m + b % 32)

def OpKind.space : OpKind → Space
  | .load sp .. => sp
  | .store sp _ => sp
  | _ => .global
/-- Bytes of one access of an operation. -/
def OpKind.size : OpKind → Nat
  | .load _ n .. => n
  | .store _ n => n
  | .atom t .. => 4 * t.elem.regs
  | .red t .. => 4 * t.elem.regs
  | .flush n => n
  | .inv n => n
  | .put n => n
  | .get n _ => n
  | .ratom t .. => 4 * t.elem.regs
  | .ntfy => 4
def OpKind.byLine : OpKind → Bool
  | .flush _ => true
  | .inv _ => true
  | _ => false
/-- Whether a request changes its home, and the bytes it reaches. -/
def Cargo.writes : Cargo → Bool
  | .write _ => true
  | .atomic .. => true
  | .notify _ => true
  | _ => false
def Cargo.span : Cargo → Nat
  | .write bs => bs.length
  | .read n _ => n
  | .atomic t .. => 4 * t.elem.regs
  | .active _ => 0
  | _ => 4
def OpKind.writes : OpKind → Bool
  | .load .. => false
  | .flush _ => false
  | .inv _ => false
  | .get .. => false
  | _ => true

/-- The migration whose page holds an address: its lines are locked at the old home (R215). -/
def lockedBy (s : State) (pa : Nat) : Option Migration :=
  (SMap.vals s.pcp.migrations).find? fun m => !m.done && m.src ≤ pa && pa < m.src + m.size
/-- The bytes in memory that an access still to be performed is to write, by its number: of an operation, a packet or a held
write. -/
def heldBytes (s : State) (id : Nat) : List (Nat × Nat) :=
  match s.ops.find? id, s.pkts.find? id with
  | some o, _ => if o.kind.space = .global && o.kind.writes then o.accs.map fun a => (a.addr, o.kind.size) else []
  | none, some p => if p.cargo.writes then [(p.pa, p.cargo.span)] else []
  | none, none => (s.held.filter fun h => h.no = id).map fun h => (h.pa, h.bytes.length)
/-- Whether an access was held before another. -/
def heldAhead (s : State) (id : Nat) : List Nat := s.pcp.holds.takeWhile (· ≠ id)
/-- A write to a locked line is held, and a read of a sector behind a held write (R216). -/
def lockOnly (s : State) (id : Nat) (write : Bool) (pa n : Nat) : Bool :=
  (lockedBy s pa).isSome &&
    (write || (heldAhead s id).any fun j => (heldBytes s j).any fun w => sectorMeet w.1 w.2 pa n)
/-- Whether a lock holds an access, or a write that its home holds stands before it. -/
def lockHolds (s : State) (id : Nat) (write : Bool) (pa n : Nat) : Bool :=
  lockOnly s id write pa n ||
    s.held.any fun h => sectorMeet h.pa h.bytes.length pa n &&
      !(s.pcp.holds.contains id && s.pcp.holds.contains h.no && !(heldAhead s id).contains h.no)
/-- What holds an access of a team's transaction: for an irrevocable attempt, before which others' writes wait, only a lock
(R216, R328). -/
def attemptHolds (s : State) (tx : Tx) (write : Bool) (pa n : Nat) : Bool :=
  if tx.irrev then lockOnly s s.uid write pa n else lockHolds s s.uid write pa n
/-- Whether an access that a lock held waits at the new home for one that was held before it: a write for every write, a
read for those of its sector (R215, R216). -/
def heldBefore (s : State) (id : Nat) (write : Bool) (pa n : Nat) : Bool :=
  s.pcp.holds.contains id && (SMap.vals s.pcp.migrations).any fun m =>
    m.done && m.dst ≤ pa && pa < m.dst + m.size && (heldAhead s id).any fun j => (heldBytes s j).any fun w =>
      m.dst ≤ w.1 && w.1 < m.dst + m.size && (write || sectorMeet w.1 w.2 pa n)
/-- An access that a lock holds takes its place among those held (R215). -/
def hold (s : State) (id : Nat) : State :=
  if s.pcp.holds.contains id then s else s.updPcp fun p => { p with holds := p.holds ++ [id] }
/-- The places of accesses that are done go; a migration ends, and its locks clear, once the writes it held are performed
(R215). -/
def clearLocks (s : State) : State :=
  let open_ (j : Nat) : Bool := (s.ops.find? j).isSome || (s.pkts.find? j).isSome || s.held.any fun h => h.no = j
  let js := s.pcp.holds.filter open_
  let ended (m : Migration) : Bool :=
    m.done && !js.any fun j => (heldBytes s j).any fun w => m.dst ≤ w.1 && w.1 < m.dst + m.size
  s.updPcp fun p => { p with holds := js, migrations := p.migrations.filter fun m => !ended m.2 }
/-- Whether a write of an agent that is no team is held (R216, R328). -/
def writeHeld (s : State) (id pa n : Nat) : Bool :=
  (linesOf pa n).any (irrevHolds s none true) || lockHolds s id true pa n || heldBefore s id true pa n
/-- A write stands held at its home. -/
def holdWrite (s : State) (h : HeldWrite) : State :=
  let s := { s with held := s.held ++ [h] }
  if (lockedBy s h.pa).isSome then hold s h.no else s
/-- A write that its home performs as soon as nothing holds it. -/
def writeWhenFree (s : State) (pa : Nat) (bs : List Byte) : State :=
  if writeHeld s s.uid pa bs.length then holdWrite { s with uid := s.uid + 1 } { no := s.uid, pa := pa, bytes := bs }
  else homeWrite s none none none pa bs
/-- Held writes that nothing holds any more are performed, in their order. -/
def drainFrom : List HeldWrite → State → State
  | [], s => s
  | h :: hs, s =>
    drainFrom hs (if writeHeld s h.no h.pa h.bytes.length then holdWrite s h else homeWrite s none none none h.pa h.bytes)
def drainHeld (s : State) : State :=
  let s := if s.held.isEmpty then s else drainFrom s.held { s with held := [] }
  if s.pcp.holds.isEmpty && !s.pcp.migrations.any (fun m => m.2.done) then s else clearLocks s

/-- A counter addition (R49, R237, R353): an increment of 0 changes nothing. -/
def homeAdd (s : State) (by_ : Option Nat) (pa inc : Nat) : State :=
  if inc % 2 ^ 32 = 0 then s else (homeAtomic s by_ .n32 .add pa (inc % 2 ^ 32) 0).2

/-! ## Accesses of a core to global memory -/

/-- The bytes a private or read-shared line holds, dirty over clean. -/
def L1Line.byte? (l : L1Line) (off : Nat) : Option Byte := (l.dirty.find? off).orElse fun _ => l.clean.find? off

/-- A line with the sectors of n bytes at an offset fetched from the home. -/
def L1Line.fetch (s : State) (l : L1Line) (off n : Nat) : L1Line :=
  (sectorsOf off n).foldl (fun l sec =>
    if natBits l.sectors (sec / 32) (sec / 32) = 1 then l
    else
      { l with
        sectors := l.sectors + 2 ^ (sec / 32)
        clean := (List.range 32).foldl (fun m j =>
          SMap.put m (sec + j) (memGet s.mem (l.line * 128 + sec + j))) l.clean }) l

def attrKind : Attr → L1Kind
  | .priv => .priv
  | .shared => .shared
  | _ => .coherent

/-- A coherent line with the sectors of n bytes at an offset. -/
def coherentLine (c : Core) (line off n : Nat) : L1Line :=
  let had := match c.l1Find line with
    | some l => if l.kind = .coherent then l.sectors else 0
    | none => 0
  { line := line, kind := .coherent
    sectors := (sectorsOf off n).foldl (fun b sec => if natBits b (sec / 32) (sec / 32) = 1 then b else b + 2 ^ (sec / 32)) had }

/-- What a core's L1 holds of a private or read-shared line. -/
def heldLine (c : Core) (kind : L1Kind) (line : Nat) : L1Line :=
  match c.l1Find line with
  | some l => if l.kind = kind then l else { line := line, kind := kind }
  | none => { line := line, kind := kind }

/-- One load's reads of n bytes at some offsets of one line: all see the line as it then stands (R202 to R204). -/
def coreReadLine (s : State) (key : Nat) (by_ : Option Nat) (attr : Attr) (strm : Bool) (line n : Nat) (offs : List Nat) :
    List (List Byte) × State :=
  match attr with
  | .coherent =>
    let s := l1Room s key line .coherent
    let s := offs.foldl (fun s off => reachLine s by_ false strm (line * 128 + off) n line) s
    (offs.map fun off => s.bytes (line * 128 + off) n,
      offs.foldl (fun s off => l1Enter s key (coherentLine (s.core key) line off n) strm) s)
  | a =>
    let s := recallLine (l1Room s key line (attrKind a)) line
    let old := heldLine (s.core key) (attrKind a) line
    let l := offs.foldl (fun l off => l.fetch s off n) old
    let s := if l.sectors = old.sectors then s else l2Touch s line (l.sectors - old.sectors) strm
    (offs.map fun off => (List.range n).map fun j => (l.byte? (off + j)).getD (memGet s.mem (line * 128 + off + j)),
      l1Enter s key l strm)

/-- A load of n bytes that lie in one line. -/
def coreRead (s : State) (key : Nat) (by_ : Option Nat) (attr : Attr) (strm : Bool) (pa n : Nat) : List Byte × State :=
  let (bs, s) := coreReadLine s key by_ attr strm (lineOf pa) n [pa % 128]
  (bs.headD [], s)

/-- A store of bytes that lie in one line (R203). -/
def coreWrite (s : State) (key : Nat) (by_ : Option Nat) (tag : Option SpanTag) (attr : Attr) (strm : Bool) (pa : Nat)
    (bs : List Byte) : State :=
  let line := lineOf pa
  let off := pa % 128
  match attr with
  | .priv =>
    let s := recallLine (l1Room s key line .priv) line
    let old := heldLine (s.core key) .priv line
    let s := logWrite s tag pa bs.length old.dirty
    let l := old.fetch s off bs.length
    let s := if l.sectors = old.sectors then s else l2Touch s line (l.sectors - old.sectors) strm
    let d := ((List.range bs.length).zip bs).foldl (fun m jb => SMap.put m (off + jb.1) jb.2) l.dirty
    l1Enter s key { l with dirty := d } strm
  | _ =>
    let s := homeWrite (l1Room s key line .coherent) by_ tag (some key) pa bs
    l1Enter s key (coherentLine (s.core key) line off bs.length) strm

/-- One lane of a RED (R207, R231): kept update-only, which performs it (R319), or performed at the home. Both are a
change to the line (R330). -/
def coreRed (s : State) (key : Nat) (by_ : Option Nat) (local_ : Bool) (t : ATy) (op : AOp) (pa b : Nat) : State :=
  let line := lineOf pa
  if local_ then
    let s := l1Room s key line (.update t op)
    let other := (sharers s line).any fun c => match (s.core (coreKey (lineIsl line) c)).l1Find line with
      | some l => l.isUpdate && l.kind ≠ .update t op
      | none => false
    let s := if other then recallLine s line else s
    let s := l2Touch (invalidateOthers (conflictOn s by_ true line) line none) line (sectorBits pa (4 * t.regs) line) false
    let l : L1Line := match (s.core key).l1Find line with
      | some l => if l.kind = .update t op then l else { line := line, kind := .update t op }
      | none => { line := line, kind := .update t op }
    let off := pa % 128
    let x := (l.partials.find? off).getD (atomIdent t op)
    changeLine (l1Enter s key { l with partials := l.partials.put off (atomNew t op x b 0) } false) line
  else changeLine (homeAtomic s by_ t op pa b 0).2 line

/-! ## Fences and maintenance -/

def Core.l1Lines (c : Core) : List L1Line := (c.l1.map Prod.snd).flatten

/-- Every dirty private line of a core reaches the L2 and stays as a clean one (R203, R313). -/
def l1Clean (s : State) (key : Nat) : State :=
  let dirty := (s.core key).l1Lines.filter fun l => l.kind = .priv && !l.dirty.isEmpty
  let s := dirty.foldl writeBackL2 s
  s.updCore key fun c =>
    { c with l1 := c.l1.mapVals fun _ ls => ls.map fun l =>
        if l.kind = .priv then
          { l with clean := l.dirty.foldl (fun m p => SMap.put m p.1 p.2) l.clean, dirty := [] }
        else l }

/-- Clean private lines and read-shared lines leave a core's L1 (R204); of a line with dirty bytes only those stay, so that
what other agents have written to its other bytes is seen (R311, R316). -/
def l1Acquire (s : State) (key : Nat) : State :=
  s.updCore key fun c =>
    { c with l1 := (c.l1.map fun kl => (kl.1, (kl.2.filter fun l =>
        !(l.kind = .shared || (l.kind = .priv && l.dirty.isEmpty))).map fun l =>
          if l.kind = .priv then { l with sectors := 0, clean := [] } else l)).filter fun kl => !kl.2.isEmpty }

/-- CFLUSH and CINV on one line (Table 12-3). -/
def flushLine (s : State) (key : Nat) (inv : Bool) (line : Nat) : State :=
  match (s.core key).l1Find line with
  | none => s
  | some l =>
    let s := match l.kind with
      | .priv => if inv || l.dirty.isEmpty then s else writeBackL2 s l
      | .update .. => changeLine (combine s l) line
      | _ => s
    s.updCore key fun c => c.l1Drop line

/-! ## Logged writes undone (R390) -/

/-- A private line without what it holds of one sector. -/
def L1Line.without (l : L1Line) (k : Nat) : L1Line :=
  let out (m : SMap Byte) : SMap Byte := m.filter fun p => p.1 / 32 ≠ k
  { l with
    sectors := if natBits l.sectors k k = 1 then l.sectors - 2 ^ k else l.sectors
    clean := out l.clean, dirty := out l.dirty }
/-- What a core holds of one sector of a private line goes; its other sectors stay. -/
def Core.l1Forget (c : Core) (sector : Nat) : Core :=
  let line := lineOf sector
  { c with l1 := SMap.set [] c.l1 (l1Set line) ((SMap.get [] c.l1 (l1Set line)).map fun l =>
      if l.line = line && l.kind = .priv then l.without (sector % 128 / 32) else l) }

/-- The records of a span on one island are restored, newest first, and freed. -/
def restoreOn (s : State) (isl : Nat) (p : SpanTag → Bool) : State :=
  let recs := (s.isl isl).log.filter fun r => p r.tag
  let s := recs.foldl (fun s r =>
    let s := (List.range 36).foldl (fun s c =>
      if ((s.core (coreKey isl c)).l1Find (lineOf r.sector)).isNone then s
      else s.updCore (coreKey isl c) fun k => k.l1Forget r.sector) s
    writeWhenFree s r.sector r.bytes) s
  s.updIsl isl fun i => { i with log := i.log.filter fun r => !p r.tag }
def restoreSpans (s : State) (p : SpanTag → Bool) : State :=
  (List.range s.panel.nIsl).foldl (fun s i => restoreOn s i p) s
/-- A span closes: its records are freed (R387). -/
def freeSpans (s : State) (p : SpanTag → Bool) : State :=
  { s with isls := s.isls.mapVals fun _ i => { i with log := i.log.filter fun r => !p r.tag } }

end Sys2Proof.Machine
end

