-- ==== Sys2Proof/Machine/Translate.lean ====
section
/-! DEFINITION. Translation (R210 to R214): the TLBs and the walker, the checks of an access (R213, R221), and the pages as
the PCP reaches them (R47, R49, R50, R59). The walker and the PCP read at the home, as every agent does (R208, R327). -/

namespace Sys2Proof.Machine

/-! ## The walker -/

/-- The reads of a walk from the table of a level. -/
def readTables (s : State) (va : Nat) : Nat → Nat → State
  | level, table =>
    let pte := table + 8 * pteIndex va level
    let s := (homeRead s none pte 8).2
    let x := s.rd pte 8
    if natBits x 1 0 = 1 then
      match level with
      | 0 => s
      | l + 1 => readTables s va l (pteAddr x)
    else s

/-- A walk of a tenant's table: what it finds, and the state after its reads (R208, R211). -/
def walked (s : State) (tenant va : Nat) : Walk × State :=
  let s := if 2 ^ 56 ≤ va then s else readTables s va 5 (s.tenant tenant).ptroot
  (walk s tenant va, s)

/-- Whether the walker meets a poisoned sector from the table of a level on (R391). -/
def struckFrom (s : State) (va : Nat) : Nat → Nat → Bool
  | level, table =>
    let pte := table + 8 * pteIndex va level
    let x := s.rd pte 8
    poisoned s pte 8 || (natBits x 1 0 = 1 && match level with
      | 0 => false
      | l + 1 => struckFrom s va l (pteAddr x))
/-- Whether a walk of a tenant's table meets a poisoned sector. -/
def walkStruck (s : State) (tenant va : Nat) : Bool := struckFrom s va 5 (s.tenant tenant).ptroot
/-- Whether an address has to be walked for: no TLB that its access looks in holds it (R212). -/
def mustWalk (s : State) (isl : Nat) (core : Option Nat) (tenant va : Nat) : Bool :=
  !(core.any fun k => (s.core k).tlb.any fun e => e.covers tenant va) && !(s.isl isl).tlb.any fun e => e.covers tenant va

/-- Translation through the L1 TLB of a core (if one issues), the island's L2 TLB and the walker. -/
def translate (s : State) (isl : Nat) (core : Option Nat) (tenant va : Nat) : Walk × State :=
  let l1 := match core with
    | some k => (s.core k).tlb
    | none => []
  match l1.find? fun e => e.covers tenant va with
  | some e => (.leaf e, s)
  | none =>
    let put1 (s : State) (e : TlbEntry) : State := match core with
      | some k => s.updCore k fun c => { c with tlb := tlbFill 64 s.tick c.tlb e }
      | none => s
    match (s.isl isl).tlb.find? fun e => e.covers tenant va with
    | some e => (.leaf e, put1 s e)
    | none =>
      match walked s tenant va with
      | (.leaf e, s) =>
        (.leaf e, put1 (s.updIsl isl fun i => { i with tlb := tlbFill 8192 s.tick i.tlb e }) e)
      | r => r

/-! ## The checks of one access (R213, R221) -/

/-- What an access does, for its permission. -/
inductive Want
  | load | store | atomic
  /-- one-sided reads, writes, atomics and counter additions, at any home (R221) -/
  | rread | rwrite | ratomic | counter
  /-- a counter that must be homed on the island (R354) -/
  | localCounter
  /-- reads and writes of a transaction, where a page that is not coherent aborts it (R324) -/
  | txRead | txWrite
deriving DecidableEq, Repr

def Want.writes : Want → Bool
  | .load => false
  | .rread => false
  | .localCounter => false
  | .txRead => false
  | _ => true
/-- The access a transaction makes instead (R324). -/
def Want.inTx (w : Want) : Want := if w.writes then .txWrite else .txRead
def Want.needsCoherent : Want → Bool
  | .atomic | .ratomic | .counter | .localCounter => true
  | _ => false
def Want.anyHome : Want → Bool
  | .rread | .rwrite | .ratomic | .counter => true
  | _ => false

inductive Check
  | ok (pa : Nat) (attr : Attr)
  | cause (c : Cause)
  | miss (demand copyWanted : Bool)
deriving DecidableEq, Repr

/-- The checks of a transaction's access (R324): a private or read-shared page passes with its attribute, which aborts
the transaction; a home elsewhere raises REMOTELS. -/
def txPermCheck (isl : Nat) (want : Want) (e : TlbEntry) (va : Nat) : Check :=
  if e.attr = .none ∨ (want.writes ∧ !e.w ∧ e.attr = .coherent) then .cause .perm
  else if e.isl = isl ∨ e.attr = .shared then .ok (e.pa va) e.attr
  else .cause .remotels

/-- PERM, REMOTELS and the copies of read-shared pages, on a translated access (R205, R206, R213). -/
def permCheck (s : State) (isl : Nat) (want : Want) (e : TlbEntry) (va : Nat) : Check :=
  if want = .txRead ∨ want = .txWrite then txPermCheck isl want e va
  else if e.attr = .none ∨ (want.writes ∧ (!e.w ∨ e.attr = .shared)) ∨ (want.needsCoherent ∧ e.attr ≠ .coherent) then
    .cause .perm
  else if e.isl = 32 ∧ want = .load ∧ !(s.isl isl).topo then .miss true true
  else if e.isl = isl ∨ want.anyHome ∨ e.isl = 32 then .ok (e.pa va) e.attr
  else if e.attr = .shared ∧ want = .load then
    match (s.isl isl).replicas.find? fun r => r.home ≤ e.pa va ∧ e.pa va < r.home + r.size with
    | some r => .ok (r.base + (e.pa va - r.home)) .shared
    | none => .miss true true
  else .cause .remotels

/-- One global access of n bytes at `va`. A walk that meets a poisoned sector is a read of it by the access (R391). -/
def checkAccess (s : State) (isl : Nat) (core : Option Nat) (tenant : Nat) (want : Want) (n va : Nat) : Check × State :=
  if va % n ≠ 0 then (.cause .misalign, s)
  else if 2 ^ 56 ≤ va then (.cause .notmapped, s)
  else if mustWalk s isl core tenant va && walkStruck s tenant va then (.cause .ue, (walked s tenant va).2)
  else
    match translate s isl core tenant va with
    | (.bad, s) => (.cause .notmapped, s)
    | (.missing d .., s) => (.miss d false, s)
    | (.leaf e, s) => (permCheck s isl want e va, s)

/-- The accesses of several lanes, in lane order, with the TLB fills they make. -/
def checkLanes (s : State) (isl : Nat) (core : Option Nat) (tenant : Nat) (want : Want) (n : Nat) :
    List (Nat × Nat) → List (Nat × (Nat × Check)) × State
  | [] => ([], s)
  | (l, va) :: rest =>
    let (c, s) := checkAccess s isl core tenant want n va
    let (cs, s) := checkLanes s isl core tenant want n rest
    ((l, (va, c)) :: cs, s)

/-- The cause of highest precedence among lanes, its lanes, and the address of the lowest (R373). -/
structure Blame where
  cause : Cause
  lanes : List Nat
  addr : Nat
deriving DecidableEq, Repr

def worst : List (Nat × (Nat × Cause)) → Option Blame
  | [] => none
  | (l, (a, c)) :: rest =>
    match worst rest with
    | none => some ⟨c, [l], a⟩
    | some b =>
      if c.code < b.cause.code then some ⟨c, [l], a⟩
      else if c = b.cause then some ⟨c, l :: b.lanes, a⟩
      else some b

def causesOf (cs : List (Nat × (Nat × Check))) : List (Nat × (Nat × Cause)) :=
  cs.filterMap fun x => match x.2.2 with
    | .cause c => some (x.1, (x.2.1, c))
    | _ => none
def missesOf (cs : List (Nat × (Nat × Check))) : List (Nat × (Nat × (Bool × Bool))) :=
  cs.filterMap fun x => match x.2.2 with
    | .miss d w => some (x.1, (x.2.1, (d, w)))
    | _ => none
/-- Lane, virtual address, physical address and attribute of the accesses that passed. -/
def oksOf (cs : List (Nat × (Nat × Check))) : List (Nat × (Nat × (Nat × Attr))) :=
  cs.filterMap fun x => match x.2.2 with
    | .ok pa a => some (x.1, (x.2.1, (pa, a)))
    | _ => none

/-! ## The PCP and the host -/

/-- The addresses of the entries of a group (R210). -/
def pteGroup (pte level size : Nat) : List Nat :=
  let n := 4 ^ (size - 4 * level)
  (List.range n).map fun i => 8 * (pte / 8 / n * n + i)

/-- Create a demand page (R214): every entry of its group is written. `none` where no island has a frame. -/
def demandCreate (s : State) (want pte level size entry : Nat) : Option State :=
  if ¬(level ≤ 2 ∧ 4 * level ≤ size ∧ size ≤ 4 * level + 3) then none
  else
    match pageIsland s want (pageBytes size) with
    | none => none
    | some d =>
      match takeFrame s d (pageBytes size) with
      | none => none
      | some (pa, s) =>
        let x := d * 2 ^ 59 + (pa % 2 ^ 39) / 2 ^ 11 * 2 ^ 11 + entry % 2 ^ 11 / 2 * 2 + 1
        some ((pteGroup pte level size).foldl (fun s a => homeWrite s none none none a (leBytes 8 x)) s)

/-- A word of the tenant as the PCP reaches it (R47, R49, R50): its walk, creating a demand page. Where no live island has a
frame for the page the word cannot be reached: HOLDFAULT, SIGSKIP or STATUSSKIP follows (the model's choice, log 74). -/
def pcpTouch (s : State) (tenant va : Nat) : Walk × State :=
  match walked s tenant va with
  | (.missing true pte level size entry, s) =>
    match demandCreate s (pcpRank s va size) pte level size entry with
    | some s => (walk s tenant va, s)
    | none => (.missing true pte level size entry, s)
  | r => r

/-- The pieces of n bytes at an address that lie in one 4 KiB page each; the fuel is n / 4096 and two more. -/
def piecesFrom : Nat → Nat → Nat → List (Nat × Nat)
  | 0, _, _ => []
  | f + 1, va, n =>
    if n = 0 then []
    else
      let m := min n (4096 - va % 4096)
      (va, m) :: piecesFrom f (va + m) (n - m)
def pieces (va n : Nat) : List (Nat × Nat) := piecesFrom (n / 4096 + 2) va n

/-- Whether an irrevocable attempt or a migration holds an access to physical pieces by an agent that is no team (R216,
R328). -/
def piecesHeld (s : State) (write : Bool) (ps : List (Nat × Nat)) : Bool :=
  ps.any fun p => (linesOf p.1 p.2).any (fun l => irrevHolds s none write l) || lockHolds s s.uid write p.1 p.2

/-- Physical pieces are read at their homes, by an agent that is no team. -/
def readPieces (s : State) : List (Nat × Nat) → List Byte × State
  | [] => ([], s)
  | (pa, n) :: rest =>
    let (bs, s) := homeRead (touch s pa none) none pa n
    let (cs, s) := readPieces s rest
    (bs ++ cs, s)

/-- The physical pieces of a tenant's range; `none` where a page is not mapped (R25: "readable"). -/
def pcpPieces (s : State) (tenant : Nat) : List (Nat × Nat) → Option (List (Nat × Nat)) × State
  | [] => (some [], s)
  | (va, n) :: rest =>
    match walked s tenant va with
    | (.leaf e, s) =>
      if e.attr = .none then (none, s)
      else
        match pcpPieces s tenant rest with
        | (some ps, s) => (some ((e.pa va, n) :: ps), s)
        | r => r
    | (_, s) => (none, s)
/-- The PCP reads a range of a tenant's memory (R208, R327). -/
def pcpRead (s : State) (tenant va n : Nat) : Option (List Byte) × State :=
  match pcpPieces s tenant (pieces va n) with
  | (some ps, s) =>
    let (bs, s) := readPieces s ps
    (some bs, s)
  | (none, s) => (none, s)
/-- Whether a home holds the PCP's read of a range (R216, R328). -/
def pcpHeld (s : State) (tenant : Nat) (va n : Nat) : Bool :=
  piecesHeld s false (((pcpPieces s tenant (pieces va n)).1).getD [])

/-- The bytes at a tenant's address as they stand, where every page of the range is mapped. -/
def readVa (s : State) (tenant va : Nat) : Nat → Option (List Byte)
  | 0 => some []
  | n + 1 =>
    match walk s tenant va with
    | .leaf e =>
      if e.attr = .none then none
      else (readVa s tenant (va + 1) n).map fun bs => memGet s.mem (e.pa va) :: bs
    | _ => none

end Sys2Proof.Machine
end

