-- ==== Sys2Proof/Machine/Ops.lean ====
section
/-! DEFINITION. The operations every meaning is built from: the issuing team, the advance past a word, gangs, and taking
a trap (R372 to R377: the halt of a crew, its report and its event) with the resumption beside it (R378). -/

namespace Sys2Proof.Machine

abbrev Result := Host.Outcome State Fault Refusal

/-! ## The issuing team -/

/-- Who issues a word: the team's number and record, its crew and its kernel. -/
structure Issuer where
  u : Nat
  t : Team
  c : Crew
  k : Kernel
deriving DecidableEq, Repr

def issuer (s : State) : Except Fault Issuer :=
  match s.cur with
  | none => .error .noTeam
  | some u =>
    match s.teams.find? u with
    | none => .error .noTeam
    | some t =>
      match s.crews.find? t.crew with
      | none => .error .brokenState
      | some c =>
        match s.kernels.find? c.kernel with
        | none => .error .brokenState
        | some k => .ok { u := u, t := t, c := c, k := k }

/-- A word's meaning for the team that issues it. -/
def issue (s : State) (f : Issuer → State) : Result :=
  match issuer s with
  | .error e => .fault e
  | .ok x => .next (f x)

/-- The offset after the word. -/
def Issuer.next (x : Issuer) : Nat := x.t.flow.pc + 8

/-- A team has issued: it is promoted no longer (R114). -/
def Team.issued (t : Team) (now : Nat) : Team :=
  { t with sched := { t.sched with promoted := none, readySince := now, recent := (now :: t.sched.recent).take 8 } }

/-- A word has issued: the slot's datapath is taken for some cycles, and its team's promotion ends (R106, R113, R114). -/
def charge (s : State) (x : Issuer) (cycles : Nat) : State :=
  (s.updTeam x.u fun t => t.issued s.now).updCore x.c.key fun k =>
    { k with slotFree := SMap.set 0 k.slotFree (x.t.index % 4) (s.now + cycles) }

/-- A word that issued, with the team's new record. -/
def finish (s : State) (x : Issuer) (t : Team) (cycles : Nat) : State := charge (s.setTeam x.u t) x cycles

/-- `finish`, at the word after. -/
def step8 (s : State) (x : Issuer) (t : Team) (cycles : Nat) : State :=
  finish s x { t with flow := { t.flow with pc := x.next } } cycles

/-- The span a team's writes are logged for (R386, R387). -/
def Issuer.span (x : Issuer) : Option SpanTag :=
  if x.k.launch.rollback then
    some { kernel := x.c.kernel, crew := x.c.idx, span := if x.k.launch.resident then x.t.span else 0 }
  else none

/-! ## Guards (R72) -/

/-- Lanes for which a guard holds. -/
def guardMask (g : Regs) (gd : Guard) : Mask :=
  if gd.pred = 7 then BitVec.allOnes 1024
  else if gd.neg then ~~~(g.pget gd.pred.toNat) else g.pget gd.pred.toNat
/-- ACTIVE: lanes of the mask for which the guard holds. -/
def Issuer.active (x : Issuer) (g : Guard) : Mask := x.t.flow.mask &&& guardMask x.t.regs g
def Issuer.lanes (x : Issuer) (g : Guard) : List Nat := lanesOf (x.active g) x.t.lanes

/-! ## Gangs (R289) -/

def gangCount (g : DWord) : Nat := natBits g.toNat 3 0
def gangMember (g : DWord) (i : Nat) : Nat := natBits g.toNat (13 + 6 * i) (8 + 6 * i)
/-- The team a member names: of the kernel's crew with the lowest %crew on that core of the cluster. -/
def memberTeam (s : State) (kernel isl cluster m : Nat) : Option Nat :=
  let crews := s.crews.filter fun uc =>
    uc.2.kernel = kernel && uc.2.isl = isl && uc.2.core = 4 * cluster + m / 16 && !uc.2.exited
  match argMin (fun u => ((SMap.find? crews u).map (·.idx)).getD 0) (SMap.keys crews) with
  | none => none
  | some cu => (s.teams.filter fun ut => ut.2.crew = cu && ut.2.index = m % 16).head?.map Prod.fst
/-- The teams a gang register names, in its order; `none` for a member that names no team. -/
def gangTeams (s : State) (kernel isl cluster : Nat) (g : DWord) : List (Option Nat) :=
  (List.range (gangCount g)).map fun i => memberTeam s kernel isl cluster (gangMember g i)

/-! ## Taking a trap -/

/-- What a halt reports (Table 20-4). -/
structure TrapInfo where
  cause : Cause
  team : Nat
  engine : Nat := 0
  tcode : Nat := 0
  cmd : Nat := 0
  addr : Nat := 0
  mask : Mask := 0
  /-- of an engine cause, the span that issued the command -/
  span : Option SpanTag := none
deriving DecidableEq, Repr

/-- The words of a team that its skid can hold (R375, log 9): of its last 8 words, those issued in the cycle in which the
halt arrives. A team that is held has issued none in it (R376). -/
def skidWords (now : Nat) (t : Team) : Nat := (t.sched.recent.filter fun n => now ≤ n).length

/-- The skid count a team reports (R375, log 9): 0 for a team that is not ready (R376). -/
def skidOf (s : State) (t : Team) : Nat :=
  match t.status with
  | .run => Config.skid s.tick t.index % (skidWords s.now t + 1)
  | _ => 0

/-- A team of a halted crew stops (Table 20-2). -/
def stopTeam (s : State) (isl u : Nat) : State :=
  match s.teams.find? u with
  | none => s
  | some t =>
    let k := skidOf s t
    let s := s.setTeam u { t with skid := k }
    let s := match t.status with
      | .sleeping .. => (crumbForget s u).updTeam u fun t => { t with status := .run, wakeDue := false }
      | .parked => (faultForget s isl (.team u)).updTeam u fun t => { t with status := .run }
      | .latched => s.updTeam u fun t => { t with status := .run, latch := none, gangKept := true }
      | .run => s
    tokenBack (abortTx s u .halt) isl u

/-- The 256 bytes of a trap report (Table 20-4). `pcs` and `skids` list the teams that are present. -/
def trapReport (i : TrapInfo) (c : Crew) (k : Kernel) (handle : Word) (pcs skids : List (Nat × Nat)) : List Byte :=
  leBytes 8 (i.cause.code + i.team * 2 ^ 8 + c.isl * 2 ^ 16 + c.core * 2 ^ 24 + i.engine * 2 ^ 32 + i.tcode * 2 ^ 48)
    ++ leBytes 8 (c.idx + k.queue * 2 ^ 40) ++ leBytes 4 handle.toNat ++ leBytes 4 0 ++ leBytes 8 i.cmd
    ++ leBytes 8 i.addr ++ leBytes 8 ((skids.map fun js => js.2 * 2 ^ (4 * js.1)).sum)
    ++ ((List.range 16).map fun j => leBytes 4 (((pcs.find? fun p => p.1 = j).map Prod.snd).getD (2 ^ 32 - 1))).flatten
    ++ leBytes 16 0 ++ leBytes 128 i.mask.toNat

/-- A HANDLE that is not 0 and that no other halted crew holds (log 14). -/
def newHandle (s : State) : Word :=
  let used := s.crews.filterMap fun uc => uc.2.halt.map fun h => h.handle.toNat
  let w := Config.handle s.pcp.handles
  if w ≠ 0 ∧ ¬used.contains w.toNat then w
  else BitVec.ofNat 32 (((List.range (used.length + 1)).find? fun n => !used.contains (n + 1)).getD 0 + 1)

/-- The report goes to the tenant's trap ring where it can be written (R377). -/
def writeReport (s : State) (tenant : Nat) (bs : List Byte) : Bool × State :=
  let t := s.tenant tenant
  if t.trapRing = 0 then (false, s)
  else
    let va := t.trapRing + t.serial % 64 * 256
    match walk s tenant va with
    | .leaf e => if e.attr = .coherent then (true, writeWhenFree s (e.pa va) bs) else (false, s)
    | _ => (false, s)

/-- Taking a trap: the crew halts, every team of it stops, the report is written to slot SERIAL mod 64 of the trap ring
and an event of kind 0x20 to the event queue (R374 to R377). A crew that is already halted takes no second cause. -/
def haltCrew (s : State) (cu : Nat) (i : TrapInfo) : State :=
  match s.crews.find? cu with
  | none => s
  | some c =>
    match s.kernels.find? c.kernel with
    | none => s
    | some k =>
      if c.halt.isSome then s
      else
        let s := (s.teamsOf cu).foldl (fun s ut => stopTeam s c.isl ut.1) s
        let handle := if i.cause = .ue then 0 else newHandle s
        let teams := s.teamsOf cu
        let bs := trapReport i c k handle (teams.map fun ut => (ut.2.index, ut.2.flow.pc))
          (teams.map fun ut => (ut.2.index, ut.2.skid))
        let serial := (s.tenant k.tenant).serial
        let (ok, s) := writeReport s k.tenant bs
        let s := s.updTenant k.tenant fun t => { t with serial := (t.serial + 1) % 2 ^ 32 }
        let s := s.event 0x20 0 k.queue k.tenant k.seq (i.cause.code + handle.toNat * 2 ^ 32)
          (serial + if ok then 0 else 2 ^ 32)
        { s with pcp := { s.pcp with handles := s.pcp.handles + 1 } }.updCrew cu fun c =>
          { c with halt := some { cause := i.cause, handle := handle, team := i.team, engine := i.engine, cmd := i.cmd, span := i.span } }

/-- A team raises a cause at the word it stands at, which has issued (R114). The report records that word (R375); BREAK
and GANGLOST continue after it (Table 20-1), and a transaction aborts with TRAP and continues at its restart point (Table
17-1). -/
def raise (s : State) (u : Nat) (cause : Cause) (lanes : Mask) (addr tcode : Nat) : State :=
  match s.teams.find? u with
  | none => s
  | some t =>
    let flow := t.flow
    let open_ := t.tx.isSome
    let s := abortTx s u .trap
    let after := ((s.teams.find? u).map (·.flow)).getD flow
    let s := s.setTeam u { ((s.teams.find? u).getD t) with flow := flow, status := .latched, latch := none }
    let s := haltCrew s t.crew { cause := cause, team := t.index, tcode := tcode, addr := addr, mask := lanes }
    s.updTeam u fun t =>
      { t with
        status := .run
        gangKept := false
        sched := { t.sched with promoted := none, readySince := s.now }
        flow := if open_ then after
          else if cause = .brk ∨ cause = .ganglost then { flow with pc := flow.pc + 8 } else flow }

/-- `raise` for the issuing team, with lanes as a list. -/
def raiseLanes (s : State) (x : Issuer) (cause : Cause) (lanes : List Nat) (addr : Nat) : State :=
  raise s x.u cause (maskOf lanes) addr 0
/-- A cause of a team-scope word: reported with the team's whole mask (R373). -/
def raiseTeam (s : State) (x : Issuer) (cause : Cause) (addr : Nat) : State :=
  raise s x.u cause x.t.flow.mask addr 0

/-- A context raises a cause for a command: the crew halts with it, or it stays pending while the crew is halted for
another (R374). -/
def raiseEngine (s : State) (cu : Nat) (e : EngineCause) : State :=
  match s.crews.find? cu with
  | none => s
  | some c =>
    if c.halt.isSome then s.updCrew cu fun c => { c with pending := c.pending ++ [e] }
    else haltCrew s cu { cause := e.cause, team := e.team, engine := e.engine, cmd := e.cmd, addr := e.addr, span := e.span }

/-- The latched teams among some leave the latch with a cause (R277, R294); one whose crew is halted already issues its
MMAG again on resumption (R374). -/
def gangRelease (s : State) (us : List Nat) (cause : Cause) : State :=
  let out := us.filter fun u => ((s.teams.find? u).map (·.status)) = some .latched
  let s := out.foldl (fun s u => s.updTeam u fun t =>
    { t with status := .run, latch := none, gangKept := false }) s
  out.foldl (fun s u =>
    match s.teams.find? u with
    | none => s
    | some t =>
      if ((s.crews.find? t.crew).bind (·.halt)).isSome then s else raise s u cause t.flow.mask 0 0) s

/-- A broken latch: every listed team that is latched leaves it with GANGLOST (R277). -/
def gangLost (s : State) (us : List Nat) : State := gangRelease s us .ganglost

/-- The latched teams of a kernel on a cluster whose gang names a team that is no longer there (R277, R294). -/
def brokenGangs (s : State) (kernel isl cluster : Nat) : List Nat :=
  (s.teams.filter fun ut =>
    ut.2.status = .latched && match s.crews.find? ut.2.crew with
      | some c => c.kernel = kernel && c.isl = isl && c.core / 4 = cluster &&
          (gangTeams s kernel isl cluster ut.2.gang).contains none
      | none => false).map Prod.fst

/-! ## Resumption -/

/-- The pending engine cause of highest precedence, and the others (R374). -/
def worstPending : List EngineCause → Option (EngineCause × List EngineCause)
  | [] => none
  | e :: es =>
    match worstPending es with
    | none => some (e, [])
    | some (f, fs) => if f.cause.code < e.cause.code then some (f, e :: fs) else some (e, f :: fs)

/-- The return from a trap: the crew leaves its halt and its teams go on where they stand (R378, Table 20-1); a context
that stopped for the cause restarts its command, unless a pre-emption stops it (R380); a pending engine cause halts the
crew again at once (R374). -/
def resumeCrew (s : State) (cu : Nat) : State :=
  match s.crews.find? cu with
  | none => s
  | some c =>
    match c.halt with
    | none => s
    | some h =>
      let s := s.updCrew cu fun c => { c with halt := none }
      let s := { s with teams := s.teams.mapVals fun _ t =>
        if t.crew = cu then { t with sched := { t.sched with readySince := s.now, recent := [] } } else t }
      let s := match h.engine, c.copyCtx, c.collCtx with
        | 1, some x, _ => s.updIsl c.isl fun i => { i with copy := SMap.upd i.copy x fun y => { y with stopped := c.stop } }
        | 3, _, some x => s.updIsl c.isl fun i => { i with coll := SMap.upd i.coll x fun y => { y with stopped := c.stop } }
        | _, _, _ => s
      match worstPending c.pending with
      | none => s
      | some (e, es) =>
        haltCrew (s.updCrew cu fun c => { c with pending := es }) cu
          { cause := e.cause, team := e.team, engine := e.engine, cmd := e.cmd, addr := e.addr, span := e.span }

end Sys2Proof.Machine
end

