-- ==== Sys2Proof/Machine/Operands.lean ====
section
/-! DEFINITION. Every operand form: the registers an operand names and their bounds (R74, R76, R77), the values of class
11 (Table 5-4), what a source yields in a type (R75, R78), immediates (R81), and the writes of lanes. -/

namespace Sys2Proof.Machine

/-! ## Registers named (R74, R76, R77) -/

/-- The vector register an operand names when the word issues. -/
def vregOf (g : Regs) : Operand → Nat
  | .v n => n.toNat
  | .ind ix base => (g.ixget ix.toNat).toNat + 4 * base.toNat
  | _ => 0

/-- Whether the n registers an operand names exist (R76), and an indirect group is aligned (R77). -/
def inBounds (t : Team) (n : Nat) (o : Operand) : Bool :=
  match o with
  | .v r => r.toNat + n ≤ t.vregs
  | .ind .. => vregOf t.regs o % n = 0 && vregOf t.regs o + n ≤ t.vregs
  | _ => true
/-- `inBounds` for a range that need not be aligned (SPAWN, LPACK, LUNP, MTLD, MTST). -/
def rangeInBounds (t : Team) (n : Nat) (o : Operand) : Bool :=
  match o with
  | .v _ => vregOf t.regs o + n ≤ t.vregs
  | .ind .. => vregOf t.regs o + n ≤ t.vregs
  | _ => true

/-! ## Class 11 (Table 5-4) -/

/-- The integer of codes 0x00 to 0x7F. -/
def codeInt (c : Nat) : Int := if c < 0x40 then c else 0x3F - c

/-- The float constants of codes 0x80 to 0x87 in a format: RoundNE of the exact value. -/
def codeFlt (f : FFmt) (c : Nat) : Nat :=
  match c with
  | 0x80 => f.round .ne (.fin false 1 (-1))
  | 0x81 => f.round .ne (.fin true 1 (-1))
  | 0x82 => f.roundMag .ne false (piFix 160) (-160) true
  | 0x83 => f.roundMag .ne false (ln2Fix 200 / 2 ^ 40) (-160) true
  | 0x84 => f.roundMag .ne false (2 ^ 360 / ln2Fix 200) (-160) true
  | 0x85 => f.infBits
  | 0x86 => f.signBit + f.infBits
  | _ => f.nanBits

/-- The value of a special register, a predicate or an index register, 32 bits (64 for %crew under a 64-bit type). -/
def special (s : State) (x : Issuer) (w64 : Bool) (lane c : Nat) : Nat :=
  match c with
  | 0x97 => 1
  | 0xA0 => lane
  | 0xA1 => x.t.index
  | 0xA2 => if w64 then x.c.idx else x.c.idx % 2 ^ 32
  | 0xA3 => x.c.idx / 2 ^ 32
  | 0xA4 => x.c.core
  | 0xA5 => x.c.core / 4
  | 0xA6 => x.c.isl
  | 0xA7 => s.panel.siteCode x.c.isl
  | 0xA8 => x.k.tenant
  | _ =>
    if 0x90 ≤ c ∧ c ≤ 0x96 then (if laneIn (x.t.regs.pget (c - 0x90)) lane then 1 else 0)
    else (x.t.regs.ixget (c - 0xB0)).toNat

/-- A class-11 code as a source of a type (R78): constants are formed in each element. -/
def codeVal (s : State) (x : Issuer) (e : Elem) (lane c : Nat) : Nat :=
  if c ≤ 0x7F then
    let one := match e.flt with
      | none => trunc e.w (codeInt c)
      | some f => f.round .ne (FVal.ofInt false (codeInt c) 0)
    packElems e.w (fun _ => one) e.n
  else if 0x80 ≤ c ∧ c ≤ 0x87 then
    match e.flt with
    | some f => packElems e.w (fun _ => codeFlt f c) e.n
    | none => 0
  else special s x (e.regs = 2) lane c

/-! ## Sources -/

/-- n registers of a lane as a number, for a class 00, 10 or 01 operand. -/
def regVal (g : Regs) (lane n : Nat) : Operand → Nat
  | .s r => g.sgetN r.toNat n
  | .k _ => 0
  | o => g.vgetN lane (vregOf g o) n

/-- What a source yields for a lane in a type. -/
def srcVal (s : State) (x : Issuer) (e : Elem) (lane : Nat) (o : Operand) : Nat :=
  match o with
  | .k c => codeVal s x e lane c.toNat
  | o => regVal x.t.regs lane e.regs o

/-- A one-register source read as 32 unsigned bits: shift counts, lane numbers, increments. -/
def src32 (s : State) (x : Issuer) (lane : Nat) (o : Operand) : Nat := srcVal s x (ITy.elem .n32) lane o
/-- A 64-bit source: an even pair or a code. -/
def src64 (s : State) (x : Issuer) (lane : Nat) (o : Operand) : Nat := srcVal s x (ITy.elem .n64) lane o

/-- A per-lane condition (R124, R145, R176). -/
def condVal (s : State) (x : Issuer) (lane : Nat) (o : Operand) : Bool := src32 s x lane o ≠ 0

/-- Store data of n bytes: registers, or a code's two's complement pattern sign-extended to n bytes (R222). -/
def dataVal (x : Issuer) (lane n : Nat) (o : Operand) : Nat :=
  match o with
  | .k c => trunc (8 * n) (codeInt c.toNat)
  | o => regVal x.t.regs lane (ceilDiv n 4) o % 2 ^ (8 * n)

/-! ## Immediates (R81) -/

/-- The immediate of an arithmetic, min or max operation. -/
def immArith (t : ITy) (imm : BitVec 24) : Nat :=
  let e := t.elem
  if e.sgn then trunc e.w imm.toInt else imm.toNat
/-- The immediate of a logical or shift operation. -/
def immLogic (imm : BitVec 24) : Nat := imm.toNat
/-- The immediate of a float operation. -/
def immFloat (t : FTy) (imm : BitVec 24) : Nat :=
  match t with
  | .f32 => imm.toNat * 2 ^ 8
  | .f64 => FFmt.fp64.round .ne (FFmt.fp32.val (imm.toNat * 2 ^ 8))
  | _ => imm.toNat + imm.toNat * 2 ^ 16

/-! ## Writes -/

/-- Every lane's value, from the registers as they stood before (R106), written to n registers from `r`. -/
def writeLanes (g : Regs) (n r : Nat) (f : Nat → Nat) (ls : List Nat) : Regs :=
  ls.foldl (fun g' l => g'.vsetN l r n (f l)) g
/-- A predicate of some lanes. -/
def writePred (g : Regs) (p : Nat) (f : Nat → Bool) (ls : List Nat) : Regs :=
  g.pset p (ls.foldl (fun m l => if f l then m ||| ((1 : Mask) <<< l) else m &&& ~~~((1 : Mask) <<< l)) (g.pget p))

/-- A lane-scope word that only computes: REGBOUND for ACTIVE when a register it names is missing, nothing when ACTIVE is
empty, else the team's new record (R76, R106). -/
def laneWord (s : State) (x : Issuer) (act : List Nat) (bounds : Bool) (cycles : Nat) (t : Team) : State :=
  if act.isEmpty then step8 s x x.t cycles
  else if !bounds then raiseLanes s x .regbound act 0
  else step8 s x t cycles

/-- Datapath cycles: per pass, doubled under 64-bit types (R106, Table 10-1). -/
def passCycles (x : Issuer) (per tail : Nat) : Nat := passes x.t.flow.mask * per + tail

/-- A lane-scope operation from sources to vector registers: `f` gives each lane's value in the type. -/
def laneOp (s : State) (x : Issuer) (g : Guard) (e : Elem) (d : Operand) (srcs : List Operand) (f : Nat → Nat) : State :=
  let act := x.lanes g
  laneWord s x act (inBounds x.t e.regs d && srcs.all (inBounds x.t e.regs)) (passCycles x e.regs 0)
    { x.t with regs := writeLanes x.t.regs e.regs (vregOf x.t.regs d) f act }

end Sys2Proof.Machine
end

