-- ==== Sys2Proof/Machine/Report.lean ====
section
/-! DEFINITION. How a finished record is reported: completion codes, the status word and its copy, the finish event
(R50, R51), and the settling of an emptied mask (R128). -/

namespace Sys2Proof.Machine

/-- Completion codes (Tables 2-8 and 3-7). -/
inductive Code
  | ok | badkind | badversion | rsvd | badshape | badhold | dupres | nores | badimage | badentry
  | holdfault | tenantfault | reset | sigskip
deriving DecidableEq, Repr

def Code.num : Code → Nat
  | .ok => 0x00
  | .badkind => 0x01
  | .badversion => 0x02
  | .rsvd => 0x03
  | .badshape => 0x04
  | .badhold => 0x05
  | .dupres => 0x06
  | .nores => 0x07
  | .badimage => 0x08
  | .badentry => 0x09
  | .holdfault => 0x0A
  | .tenantfault => 0x0B
  | .reset => 0x0C
  | .sigskip => 0x0D

/-- Kinds of record (Table 2-5). -/
def kindLaunch : Nat := 1
def kindMessage : Nat := 2
def kindSignal : Nat := 3

/-- The status word after one more finish (Table 3-4). -/
def statusAfter (old : DWord) (seq : Nat) (code : Code) : DWord :=
  BitVec.ofNat 64 ((old.toNat + 1) % 2 ^ 32 + code.num * 2 ^ 32 + seq % 2 ^ 24 * 2 ^ 40)

/-- The copy of the status word in the tenant's memory, by atomic exchange: whether it is made or skipped, and the state
after it, in which a DEMAND page that the walk met is created (R50). -/
def statusCopy (s : State) (tenant va : Nat) (w : DWord) : Bool × State :=
  match pcpTouch s tenant va with
  | (.leaf e, s) =>
    if e.attr = .coherent ∧ e.w then (true, writeWhenFree (touch s (e.pa va) none) (e.pa va) (leBytes 8 w.toNat))
    else (false, s)
  | (_, s) => (false, s)

/-- One record finishes: the whole status word, its copy, and an event for every code but OK (R50, R51). The event of a
skipped copy comes first (R51 gives the two no order: the model's choice, log 79). -/
def finishRecord (s : State) (q seq kind : Nat) (code : Code) (w3 : Nat) : State :=
  let w := statusAfter (s.queue q).status seq code
  let s := s.updQueue q fun x => { x with status := w }
  let tenant := (s.queue q).tenant
  let va := (s.queue q).statVa
  let s := if va = 0 then s
    else match statusCopy s tenant va w with
      | (true, s) => s
      | (false, s) => s.event 0x06 code.num q tenant seq va 0
  if code = .ok then s else s.event 0x01 code.num q tenant seq kind w3

/-! ## Settling -/

/-- Lanes that exit or depart leave the mask and every entry of the stack (R116, R123). -/
def Flow.clear (f : Flow) (m : Mask) : Flow :=
  { f with
    ended := f.ended ||| m
    mask := f.mask &&& ~~~m
    stack := f.stack.map fun e => { e with saved := e.saved &&& ~~~m, todo := e.todo &&& ~~~m } }

/-- Settle(next) (R128): where the team goes on and with which fmt, or `none` where it ends. The fuel is the stack's
depth and one more. -/
def settleFrom : Nat → Nat → Flow → BitVec 24 → Option (Flow × BitVec 24)
  | 0, _, _, _ => none
  | n + 1, next, f, fmt =>
    if f.mask ≠ 0 then some (f, fmt)
    else
      match f.stack with
      | [] => none
      | e :: rest =>
        if e.todo ≠ 0 then
          let e' : RecEntry := match e.st with
            | .first => { e with todo := 0, off := none, st := .second }
            | _ => { e with todo := 0 }
          some ({ f with mask := e.todo, pc := e.off.getD (2 ^ 32 - 1), stack := e' :: rest }, e.fmt)
        else
          let pc := match e.st, e.off with
            | .brk, o => o.getD (2 ^ 32 - 1) + 8
            | .second, some o => o + 8
            | _, _ => next
          settleFrom n pc { f with mask := e.saved, pc := pc, stack := rest } e.fmt

/-- A team whose mask may be empty goes on at `next`, or settles. -/
def settled (t : Team) (next : Nat) : Option Team :=
  (settleFrom (t.flow.stack.length + 1) next { t.flow with pc := next } t.regs.fmt).map fun ff =>
    { t with flow := ff.1, regs := { t.regs with fmt := ff.2 } }

end Sys2Proof.Machine
end

