-- ==== Sys2Proof/Machine/Place.lean ====
section
/-! DEFINITION. Issue slots, bins and lane entries (R65 to R67, R419), the launch of a team from a bin (R66, R121,
R138), the end of a team and the exit of a crew (R132, R133, R288, R387). -/

namespace Sys2Proof.Machine

/-! ## Slots (R23, R61) -/

/-- FILL of an entry (Table 2-3). -/
def Entry.lanes (e : Entry) : Nat := if e.fill = 0 then 32 else e.fill
/-- The bin timer in cycles (Table 2-3). -/
def Entry.cycles (e : Entry) : Nat := if e.timer = 0 then 4096 else 64 * e.timer
/-- The entry a bin of a kernel is keyed for: of two at one offset, the first of the table governs FILL and TIMER (the
model's choice, log 62). -/
def Kernel.entryAt (k : Kernel) (off : Nat) : Option Entry :=
  k.image.entries.find? fun e => e.off = off && (e.handler || e.target)
def Kernel.fillAt (k : Kernel) (off : Nat) : Nat := ((k.entryAt off).map Entry.lanes).getD 32
def Kernel.travels (k : Kernel) : Bool := k.launch.travel

/-- Teams and reserved forming teams of a slot: words of each. -/
def slotAllots (s : State) (key slot : Nat) : List Nat :=
  let crews := s.crewsOn key
  let ts := (s.teams.filter fun ut => ut.2.index % 4 = slot && (SMap.find? crews ut.2.crew).isSome).map fun ut =>
    ut.2.lanes * ut.2.vregs
  let fs := (s.core key).bins.filterMap fun kb =>
    match kb.2.forming, s.kernels.find? kb.2.kernel with
    | some (sl, _), some k => if sl = slot then some (k.fillAt kb.2.off * k.launch.shape.vregs) else none
    | _, _ => none
  ts ++ fs
def slotWords (s : State) (key slot : Nat) : Nat := (slotAllots s key slot).sum
/-- Whether one more allotment fits in a slot: 65,536 words and 16 teams. -/
def slotFits (s : State) (key slot words : Nat) : Bool :=
  slotWords s key slot + words ≤ 65536 && (slotAllots s key slot).length < 16

/-! ## Where entries go (R65, R419) -/

/-- A crew of a kernel that takes new teams: not closing, not exited, not saved. -/
def Crew.isOpen (c : Crew) : Bool := !c.closing && !c.exited && !c.saved
def openCrews (s : State) (k : Nat) : List Crew := (SMap.vals (s.crewsOf k)).filter Crew.isOpen
/-- Entries of a kernel queued in the bins of a core. -/
def queuedOn (s : State) (k key : Nat) : Nat :=
  ((s.core key).bins.map fun kb => if kb.2.kernel = k then kb.2.entries.length else 0).sum
/-- Of the cores of some crews of a kernel on an island, the one with the fewest queued entries. -/
def leastQueued (s : State) (crews : List Crew) (k isl : Nat) : Option Nat :=
  let cores := (List.range 36).filter fun c => crews.any fun x => x.isl = isl && x.core = c
  argMin (fun c => queuedOn s k (coreKey isl c)) cores
/-- The crews an entry may go to: those that take new teams, else those that stand (R419). -/
def entryCrews (s : State) (k : Nat) : List Crew :=
  if (openCrews s k).isEmpty then (SMap.vals (s.crewsOf k)).filter fun c => !c.exited && !c.saved else openCrews s k
/-- The core an entry goes to (R65, R419); where no crew of its kernel stands, itself, or core 0 where its island has no
such core (log 63). On another island it is the least queued core there, whatever core the entry names (R65 names the
island alone: the model's choice, log 63). -/
def routeEntry (s : State) (e : LaneEntry) : Nat × Nat :=
  let crews := entryCrews s e.kernel
  if crews.any fun c => c.isl = e.isl && c.core = e.core then (e.isl, e.core)
  else
    match leastQueued s crews e.kernel e.isl with
    | some c => (e.isl, c)
    | none =>
      match argMin id (crews.map (·.isl)) with
      | some i => (i, (leastQueued s crews e.kernel i).getD 0)
      | none => (e.isl, if e.core < s.panel.coresOf e.isl then e.core else 0)
def rerouted (s : State) (e : LaneEntry) : LaneEntry :=
  let r := routeEntry s e
  { e with isl := r.1, core := r.2 }

/-! ## Entries on their way (R249, R251) -/

/-- Whether two entries have one bin. -/
def LaneEntry.together (a b : LaneEntry) : Bool :=
  a.kernel = b.kernel && a.off = b.off && a.isl = b.isl && a.core = b.core
/-- The entry that a packet carries. -/
def Packet.entry (p : Packet) : Option LaneEntry :=
  match p.orig.getD p.cargo with
  | .active e => some e
  | _ => none
/-- The entries on their way, on the mesh of an island or between islands. -/
def entriesAway (s : State) : List LaneEntry :=
  s.msgs.map Prod.snd ++ s.pkts.filterMap fun ip => ip.2.entry
/-- A lane entry leaves an island's dispatcher as an active message: over the mesh, or in a packet of the dispatcher's
stream to another island (R65, R251; that it travels in a stream is the model's choice, log 63). -/
def forward (s : State) (isl : Nat) (e : LaneEntry) : State :=
  let e := { e with src := none, port := dispatcherPort isl, stuck := false }
  if e.isl = isl then s.addMsg e
  else
    let k := streamKey isl 0x50 e.isl
    let st := SMap.get {} s.streams k
    { s with streams := SMap.set {} s.streams k { st with next := st.next + 1 } }.addPkt
      { route := routeWord s isl e.isl false, src := isl, dst := e.isl, sep := 0x50, sseq := st.next
        pa := 2 ^ 39 * e.isl + e.off, tenant := ((s.kernels.find? e.kernel).map Kernel.tenant).getD 0, cargo := .active e
        op := s.uid, at_ := isl, gen := s.panel.gen }

/-! ## Bins -/

def binOf (c : Core) (kernel off : Nat) : Option Nat :=
  (List.find? (fun kb : Nat × Bin => kb.2.kernel = kernel && kb.2.off = off) c.bins).map Prod.fst
/-- A reserved forming team that still takes lanes. -/
def Bin.filling (b : Bin) (k : Kernel) : Bool :=
  match b.forming with
  | some (_, ls) => ls.length < k.fillAt b.off
  | none => false
/-- Entries a bin can still take: the lanes its forming team lacks, and 128 less those present. -/
def Bin.room (b : Bin) (k : Kernel) : Nat :=
  (match b.forming with
    | some (_, ls) => k.fillAt b.off - ls.length
    | none => 0) + (128 - b.entries.length)

/-- The crew and team index a team launched from a bin takes in a slot: the lowest %crew that is not closing and has a free
index (R66). -/
def joinCrew (s : State) (k key slot : Nat) : Option (Nat × Nat) :=
  let crews := (s.crewsOn key).filter fun uc => uc.2.kernel = k && uc.2.isOpen
  let free (cu : Nat) : Option Nat :=
    [slot, slot + 4, slot + 8, slot + 12].find? fun j => !(s.teamsOf cu).any fun ut => ut.2.index = j
  let able := crews.filter fun uc => (free uc.1).isSome
  match argMin (fun u => ((SMap.find? able u).map (·.idx)).getD 0) (SMap.keys able) with
  | some cu => (free cu).map fun j => (cu, j)
  | none => none

/-- The slot a reservation takes: the one with the fewest allotted words (R66 gives no measure of load: the model's choice,
log 80). -/
def formSlot (s : State) (kid : Nat) (k : Kernel) (key fill : Nat) : Option Nat :=
  argMin (slotWords s key) ((List.range 4).filter fun sl =>
    slotFits s key sl (fill * k.launch.shape.vregs) && (joinCrew s kid key sl).isSome)

def argWords (k : Kernel) : List Word := k.launch.args
/-- s0 onward holding some words. -/
def scalarsOf (ws : List Word) : SMap Word :=
  ((List.range ws.length).zip ws).foldl (fun m jw => SMap.set 0 m jw.1 jw.2) []

/-- The registers of a team formed from lane entries (R121, R138). -/
def formedRegs (k : Kernel) (ps : List Payload) : Regs :=
  let put (g : Regs) (l : Nat) (ws : List Word) : Regs :=
    ((List.range ws.length).zip ws).foldl (fun g jw => g.vset l jw.1 jw.2) g
  let g := ((List.range ps.length).zip ps).foldl (fun g lp =>
    match lp.2 with
    | .words ws => put g lp.1 ws
    | .travel _ fmt _ v => { put g lp.1 v with laneFmt := SMap.put g.laneFmt lp.1 fmt }) ({} : Regs)
  match ps.head? with
  | some (.travel s fmt _ _) => { g with s := scalarsOf s, fmt := fmt }
  | _ => { g with s := scalarsOf (argWords k) }

def formedRets (ps : List Payload) : SMap (List Nat) :=
  ((List.range ps.length).zip ps).foldl (fun m lp =>
    match lp.2 with
    | .travel _ _ ret _ => SMap.set [] m lp.1 ret
    | _ => m) []

/-- Launch of a forming team into a crew (R66). A lane entry of SPAWN or MESSAGE acquires at its first instruction (Table
16-2). -/
def launchFormed (s : State) (k : Kernel) (key off cu j : Nat) (es : List LaneEntry) : State :=
  let (u, s) := s.fresh
  let (fresh, s) := s.fresh
  let sp := match (es.filterMap (·.redo)).head? with
    | some n => if s.teams.any fun ut => ut.2.span = n then fresh else n
    | none => fresh
  let ps := es.map (·.payload)
  let t : Team :=
    { crew := cu
      index := j
      lanes := k.fillAt off
      vregs := k.launch.shape.vregs
      regs := formedRegs k ps
      flow := { pc := off, mask := fullMask es.length, laneRet := formedRets ps }
      sched := { age := s.now, level := k.level, readySince := s.now }
      span := sp
      formedBy := if k.travels then [] else es }
  let s := s.setTeam u t
  if ps.all Payload.travels then s else l1Acquire s key

/-- One move of a bin: a due launch, else a due reservation (R66). -/
def binMove (s : State) (key bi : Nat) : Option State :=
  match SMap.find? (s.core key).bins bi with
  | none => none
  | some b =>
    match s.kernels.find? b.kernel with
    | none => none
    | some k =>
      let fill := k.fillAt b.off
      match b.forming with
      | some (slot, ls) =>
        if ls.length = fill ∨ (b.expired ∧ !ls.isEmpty) then
          match joinCrew s b.kernel key slot with
          | none => none
          | some (cu, j) =>
            let b' := { b with forming := none, expired := false }
            let s := s.updCore key fun c =>
              { c with bins := if b.entries.isEmpty then SMap.del c.bins bi else c.bins.put bi b' }
            some (launchFormed s k key b.off cu j ls)
        else none
      | none =>
        if min fill 128 ≤ b.entries.length ∨ (b.expired ∧ !b.entries.isEmpty) then
          match formSlot s b.kernel k key fill with
          | none => none
          | some slot =>
            let ls := b.entries.take fill
            let b' := { b with
              forming := some (slot, ls), entries := b.entries.drop fill
              formStart := (ls.head?.map (·.at_)).getD s.now }
            some (s.updCore key fun c => { c with bins := c.bins.put bi b' })
        else none

/-- Every due move of a bin; 128 entries make at most four teams, two moves each. -/
def binAdvance (key bi : Nat) : Nat → State → State
  | 0, s => s
  | n + 1, s => match binMove s key bi with
    | some s => binAdvance key bi n s
    | none => s
/-- Every due move of a core's bins: tried whenever a team ends or a crew is placed on the core (R66). -/
def binsAdvance (s : State) (key : Nat) : State :=
  (SMap.keys (s.core key).bins).foldl (fun s bi => binAdvance key bi 10 s) s

/-- An entry enters the bin of its key on its core, where there is one with room or a free one (R66, R67); a MESSAGE
finishes then (R50). -/
def enterBin (s : State) (e : LaneEntry) : Option State :=
  let key := coreKey e.isl e.core
  match s.kernels.find? e.kernel with
  | none => none
  | some k =>
    let e := { e with at_ := s.now }
    let kept := { e with src := none, msg := none, port := none, stuck := false, spawn := none }
    let place : Option (Nat × Bin) :=
      match binOf (s.core key) e.kernel e.off with
      | some bi =>
        match SMap.find? (s.core key).bins bi with
        | some b =>
          match b.forming with
          | some (slot, ls) =>
            if ls.length < k.fillAt e.off then some (bi, { b with forming := some (slot, ls ++ [kept]) })
            else if b.entries.length < 128 then some (bi, { b with entries := b.entries ++ [kept] })
            else none
          | none => if b.entries.length < 128 then some (bi, { b with entries := b.entries ++ [kept] }) else none
        | none => none
      | none => (freeKey (s.core key).bins 32).map fun bi => (bi, { kernel := e.kernel, off := e.off, entries := [kept] })
    place.map fun p =>
      let s := s.updCore key fun c => { c with bins := c.bins.put p.1 p.2 }
      let s := match e.msg with
        | some (q, seq) => finishRecord s q seq kindMessage .ok 0
        | none => s
      binAdvance key p.1 10 s

def poolCap : Nat := 65536
/-- Whether an entry is of an earlier lane of the SPAWN that made another, for the same bin (R139). -/
def LaneEntry.ahead (a b : LaneEntry) : Bool :=
  a.together b && match a.spawn, b.spawn with
    | some (m, i), some (n, j) => m = n && i < j
    | _, _ => false
/-- An entry of SPAWN or MESSAGE enters its bin or its island's pool; `none` where both are full (R67). One that finds an
earlier lane's entry of its SPAWN in the pool goes there behind it (R139). One whose core has no crew for it is forwarded
(R65). -/
def enterEntry (s : State) (e : LaneEntry) : Option State :=
  let r := rerouted s e
  if (r.isl, r.core) ≠ (e.isl, e.core) then some (forward s e.isl r)
  else
    match if (s.isl e.isl).pool.any fun x => x.ahead e then none else enterBin s e with
    | some s => some s
    | none =>
      if (s.isl e.isl).pool.length < poolCap then some (s.updIsl e.isl fun i => { i with pool := i.pool ++ [e] })
      else none

/-- Entries the bin of an entry's key can take on its core. -/
def binRoom (s : State) (e : LaneEntry) : Nat :=
  let c := s.core (coreKey e.isl e.core)
  match binOf c e.kernel e.off, s.kernels.find? e.kernel with
  | some bi, some k => ((SMap.find? c.bins bi).map fun b => b.room k).getD 0
  | _, _ => if (freeKey c.bins 32).isSome then 128 else 0
/-- Entries of SPAWN and MESSAGE in flight to an entry's bin. -/
def flyingEntries (s : State) (e : LaneEntry) : Nat :=
  ((entriesAway s).filter fun x => !x.payload.travels && x.together e).length
/-- Whether an entry sent now will find a place on arrival, beside those in flight: in its bin, or in the pool, less what
the entries in flight will need of it (R67, R138). -/
def accepts (s : State) (e : LaneEntry) : Bool :=
  let flying := (entriesAway s).filter fun x => x.isl = e.isl && !x.payload.travels
  let firsts := flying.pwFilter fun a b => a.together b = false
  flyingEntries s e < binRoom s e ||
    (s.isl e.isl).pool.length + (firsts.map fun x => flyingEntries s x - binRoom s x).sum < poolCap

/-- A kernel's bins on a core with no open crew go on to another core, where there is one (R65, R419). -/
def redirectBins (s : State) (kernel key : Nat) : State :=
  if (openCrews s kernel).isEmpty || (openCrews s kernel).any fun c => c.key = key then s
  else
    (s.core key).bins.foldl (fun s kb =>
      if kb.2.kernel = kernel then
        let es := (match kb.2.forming with
          | some (_, ls) => ls
          | none => []) ++ kb.2.entries
        let s := s.updCore key fun c => { c with bins := SMap.del c.bins kb.1 }
        es.foldl (fun s e => forward s (key / 36) (rerouted s e)) s
      else s) s

/-! ## Exit of a crew -/

def CopyCtx.of (s : State) (c : Crew) : Option CopyCtx := c.copyCtx.bind fun x => (s.isl c.isl).copy.find? x
def CollCtx.of (s : State) (c : Crew) : Option CollCtx := c.collCtx.bind fun x => (s.isl c.isl).coll.find? x
def MxEngine.ctx (e : MxEngine) (n : Nat) : MxCtx := if n = 0 then e.ctx0 else e.ctx1
def MxEngine.setCtx (e : MxEngine) (n : Nat) (x : MxCtx) : MxEngine :=
  if n = 0 then { e with ctx0 := x } else { e with ctx1 := x }
def MxCtx.of (s : State) (c : Crew) : Option MxCtx := c.mxCtx.map fun n => (s.engine c.cluster).ctx n
def State.updMx (s : State) (c : Crew) (f : MxCtx → MxCtx) : State :=
  match c.mxCtx with
  | some n => s.updEngine c.cluster fun e => e.setCtx n (f (e.ctx n))
  | none => s

/-- Whether every command of a crew's contexts is complete. -/
def enginesIdle (s : State) (c : Crew) : Bool :=
  ((CopyCtx.of s c).map (·.cmds.isEmpty)).getD true && ((CollCtx.of s c).map (·.cmds.isEmpty)).getD true &&
    ((MxCtx.of s c).map (·.cmds.isEmpty)).getD true

/-- The timeline of a context whose incomplete commands carry some numbers, of those issued so far (R316). -/
def timelineAt (nos : List Nat) (issued : Nat) : Nat := match nos with
  | [] => issued
  | n :: _ => n - 1

/-- Offsets of the three words of a mirror line (Table 18-5). -/
def mirrorCopy : Nat := 0
def mirrorMatrix : Nat := 8
def mirrorColl : Nat := 16

/-- A timeline's value in the crew's mirror word: a change to the line (R355). -/
def mirrorWrite (s : State) (cu off v : Nat) : State :=
  match s.crews.find? cu with
  | some c =>
    match c.mirror with
    | some pa => writeWhenFree s (pa + off) (leBytes 8 v)
    | none => s
  | none => s

/-- A matrix context goes free: its timeline stays, past any command discarded with its crew; the rest is undefined to
the next holder (R271, R287, R288). -/
def mxFree (x : MxCtx) : MxCtx :=
  { x with crew := none, cmds := [], timeline := x.issued, granted := false, promoted := false }

/-- A crew's copy context goes free. -/
def freeCopy (s : State) (cu : Nat) (c : Crew) : State :=
  match c.copyCtx with
  | some x =>
    ((faultForget s c.isl (.copy x)).updIsl c.isl fun i => { i with
      copy := SMap.upd i.copy x fun y =>
        { y with crew := none, cmds := [], timeline := y.issued, stalled := false, stopped := false } }).updCrew cu fun c =>
          { c with copyCtx := none }
  | none => s
/-- The deadline requests of a collective command that wait (R367). -/
def CollCmd.requests (c : CollCmd) : List Nat :=
  ((c.chunks.map fun x => x.req.toList ++ x.wreq.toList).flatten) ++ c.sreq.toList
/-- The requests of commands leave the controllers' queue. -/
def dropRequests (s : State) (cs : List CollCmd) : State :=
  let gone := (cs.map (·.requests)).flatten
  { s with deadlines := s.deadlines.filter fun d => !gone.contains d.1 }
/-- A crew's collective context goes free. -/
def freeColl (s : State) (cu : Nat) (c : Crew) : State :=
  match c.collCtx with
  | some x =>
    let s := dropRequests s (SMap.get ({} : CollCtx) (s.isl c.isl).coll x).cmds
    ((faultForget s c.isl (.coll x)).updIsl c.isl fun i => { i with
      coll := SMap.upd i.coll x fun y =>
        { y with crew := none, cmds := [], timeline := y.issued, stalled := false, stopped := false } }).updCrew cu fun c =>
          { c with collCtx := none }
  | none => s
/-- A crew's matrix context goes free. -/
def freeMx (s : State) (cu : Nat) (c : Crew) : State := (s.updMx c mxFree).updCrew cu fun c => { c with mxCtx := none }
/-- A crew's contexts go free. -/
def freeContexts (s : State) (cu : Nat) : State :=
  match s.crews.find? cu with
  | none => s
  | some c => freeMx (freeColl (freeCopy s cu c) cu c) cu c
/-- The contexts of an exited crew whose commands are complete go free (R288). -/
def freeIdle (s : State) (cu : Nat) (c : Crew) : State :=
  let s := if ((CopyCtx.of s c).map (·.cmds.isEmpty)).getD true then freeCopy s cu c else s
  let s := if ((CollCtx.of s c).map (·.cmds.isEmpty)).getD true then freeColl s cu c else s
  if ((MxCtx.of s c).map (·.cmds.isEmpty)).getD true then freeMx s cu c else s

/-! ## Typed storage outside its owners (R197) -/

/-- A range of physical storage as its owner numbers it. -/
def sliceOf (m : SMap Byte) (base n : Nat) : SMap Byte :=
  (m.filter fun kv => base ≤ kv.1 && kv.1 < base + n).map fun kv => (kv.1 - base, kv.2)
/-- Physical storage with a range that its owner has left. -/
def spliceAt (m : SMap Byte) (base n : Nat) (x : SMap Byte) : SMap Byte :=
  (m.filter fun kv => kv.1 < base) ++ (x.filter fun kv => kv.1 < n).map (fun kv => (base + kv.1, kv.2))
    ++ m.filter fun kv => base + n ≤ kv.1
/-- A crew leaves its L-space and A-space on its core as it last wrote them. -/
def leaveTyped (s : State) (c : Crew) : State :=
  match s.kernels.find? c.kernel with
  | none => s
  | some k => s.updCore c.key fun x => { x with
      lstore := spliceAt x.lstore c.lbase k.image.lspace c.lmem
      astore := spliceAt x.astore c.abase k.image.aspace c.amem }
/-- W-space allocations of an island leave as they were last written. -/
def leaveW (s : State) (isl : Nat) (p : WAlloc → Bool) : State :=
  s.updIsl isl fun i => { i with
    wspace := i.wspace.filter fun w => !p w
    wstore := (i.wspace.filter p).foldl (fun m w =>
      SMap.set [] m w.cluster (spliceAt (SMap.get [] m w.cluster) w.base w.size w.mem)) i.wstore }

/-- The crew's records, storage and copies of code go (R61, R102, R355). -/
def removeCrew (s : State) (cu : Nat) : State :=
  match s.crews.find? cu with
  | none => s
  | some c =>
    let s := freeContexts s cu
    let s := match c.mirror with
      | some pa => dropFrame s (pa / 4096 * 4096)
      | none => s
    let s := if c.saved then s else leaveTyped s c
    let s := { s with crews := s.crews.del cu }
    let s := s.updCore c.key fun k => { k with watch := k.watch.filter fun w => w.1 ≠ cu }
    let onCluster := s.crews.any fun uc => uc.2.kernel = c.kernel && uc.2.cluster = c.cluster
    let s := if onCluster then s
      else leaveW s c.isl fun w => w.kernel = c.kernel && w.cluster = c.core / 4
    gangLost s (brokenGangs s c.kernel c.isl (c.core / 4))

/-- A completed command may be the last that an exited crew, or a context of it, waits for (R288). -/
def releaseExited (s : State) (cu : Nat) : State :=
  match s.crews.find? cu with
  | some c =>
    if !c.exited then s
    else if enginesIdle s c then removeCrew s cu
    else freeIdle s cu c
  | none => s

/-- The journal counts an exit; a completed range closes the spans of its crews (R63, R387). -/
def journalExit (s : State) (c : Crew) : State :=
  match s.kernels.find? c.kernel with
  | none => s
  | some k =>
    let mine (r : Range) : Bool := r.lo ≤ c.idx && c.idx < r.hi
    let ranges := k.ranges.map fun r => if mine r then { r with exited := r.exited + 1 } else r
    let closes (i : Nat) : Bool :=
      if k.ranges.isEmpty then i = c.idx
      else ranges.any fun r => mine r && r.lo ≤ i && i < r.hi && r.hi - r.lo ≤ r.exited
    let tagged (g : SpanTag) : Bool := g.kernel = c.kernel && !k.launch.resident && closes g.crew
    (freeSpans s tagged).updKernel c.kernel fun k =>
      { k with exited := k.exited + 1, ranges := ranges, noRoll := k.noRoll.filter fun g => !tagged g }

/-- A crew exits (R133): its core's private lines are written back (R322), it is journalled, its code leaves the store
with the last crew of the kernel on the core, and its contexts go free once their commands complete (R288). -/
def exitCrew (s : State) (cu : Nat) : State :=
  match s.crews.find? cu with
  | none => s
  | some c =>
    let s := (l1Clean s c.key).updCrew cu fun c => { c with exited := true, closing := true }
    let s := journalExit s c
    let s := redirectBins s c.kernel c.key
    let still := (s.crewsOn c.key).any fun uc => uc.2.kernel = c.kernel && !uc.2.exited
    let s := if still then s
      else s.updCore c.key fun k => { k with code := k.code.filter fun x => x.kernel ≠ c.kernel }
    releaseExited s cu

/-- Whether an entry of a kernel waits for a core: in a bin, in the island's pool or in flight (R133). -/
def entryWaits (s : State) (kernel isl core : Nat) : Bool :=
  (s.core (coreKey isl core)).bins.any (fun kb => kb.2.kernel = kernel) ||
    (s.isl isl).pool.any (fun e => e.kernel = kernel && e.core = core) ||
    (entriesAway s).any (fun e => e.kernel = kernel && e.isl = isl && e.core = core)

/-- Whether a crew exits now (R133); crews of a travelling kernel exit at its retirement (R116). -/
def crewDone (s : State) (cu : Nat) : Bool :=
  match s.crews.find? cu with
  | none => false
  | some c =>
    match s.kernels.find? c.kernel with
    | none => false
    | some k =>
      !c.exited && !c.saved && c.halt.isNone && !k.travels && (s.teamsOf cu).isEmpty &&
        if k.launch.resident then c.closing else c.closing || !entryWaits s c.kernel c.isl c.core

/-- Every crew whose exit is due exits. -/
def sweep (s : State) : State :=
  (SMap.keys s.crews).foldl (fun s cu => if crewDone s cu then exitCrew s cu else s) s

/-- A crew becomes closing (R133). -/
def closeCrew (s : State) (cu : Nat) : State :=
  match s.crews.find? cu with
  | none => s
  | some c => redirectBins (s.updCrew cu fun c => { c with closing := true }) c.kernel c.key

/-! ## The end of a team -/

/-- The span a team's writes are tagged with, by record. -/
def teamSpan (s : State) (t : Team) : Option SpanTag :=
  match s.crews.find? t.crew with
  | none => none
  | some c =>
    match s.kernels.find? c.kernel with
    | none => none
    | some k =>
      if k.launch.rollback && k.launch.resident then some { kernel := c.kernel, crew := c.idx, span := t.span } else none

/-- A span closes: its log records are freed (R387). -/
def closeSpan (s : State) (g : SpanTag) : State :=
  (freeSpans s fun x => x = g).updKernel g.kernel fun k => { k with noRoll := k.noRoll.filter (· ≠ g) }

/-- A team leaves its crew, with its sleeps, parks, transaction and token. -/
def dropTeam (s : State) (u : Nat) : State :=
  match s.teams.find? u with
  | none => s
  | some t =>
    match s.crews.find? t.crew with
    | none => { s with teams := s.teams.del u }
    | some c =>
      let s := faultForget (tokenDrop (crumbForget s u) c.isl u) c.isl (.team u)
      { s with teams := s.teams.del u }

/-- A team ends (R128, R132): its span closes, a gang that lists it is broken (R277), its slot is free for the bins of
the core (R66), and its crew may exit (R133). -/
def endTeam (s : State) (u : Nat) : State :=
  match s.teams.find? u with
  | none => s
  | some t =>
    match s.crews.find? t.crew with
    | none => dropTeam s u
    | some c =>
      let s := match teamSpan s t with
        | some g => closeSpan s g
        | none => s
      let s := (dropTeam s u).updCrew t.crew fun c => { c with lastBusy := s.now }
      let s := gangLost s (brokenGangs s c.kernel c.isl (c.core / 4))
      sweep (binsAdvance s c.key)

/-! ## A word that may empty the mask -/

/-- A word issued after which the team goes on at `next`, or settles, or ends (R123, R128). -/
def settle (s : State) (x : Issuer) (t : Team) (next cycles : Nat) : State :=
  match settled t next with
  | some t => finish s x t cycles
  | none => endTeam (charge (s.setTeam x.u t) x cycles) x.u

end Sys2Proof.Machine
end

