-- ==== Sys2Proof/Machine/Endings.lean ====
section
/-! DEFINITION. How work is stopped without saving: teams, crews and whole kernels that end by a fault, a tenant reset or
a failed island (R378, R390, R392), and the records that finish with them (R29, R50). -/

namespace Sys2Proof.Machine

/-- A team stops where it stands and is gone: its transaction is discarded. -/
def discardTeam (s : State) (u : Nat) : State := dropTeam (abortTx s u .halt) u

/-- What a pre-emption saved of a crew's matrix context goes, and the bank it left in place is owned no more (R383). -/
def dropSaved (s : State) (cu : Nat) (c : Crew) : State :=
  let owned (e : MxEngine) : MxEngine :=
    { e with
      owner0 := if e.owner0 = some cu then none else e.owner0
      owner1 := if e.owner1 = some cu then none else e.owner1 }
  (s.updIsl c.isl fun i => { i with saved := i.saved.filter fun v => v.crew ≠ cu }).updEngine c.cluster owned

/-- A crew stops at the units of Table 20-7 without saving, and everything it holds is freed (R378, R392). -/
def discardCrew (s : State) (cu : Nat) : State :=
  match s.crews.find? cu with
  | none => s
  | some c =>
    let s := (s.teamsOf cu).foldl (fun s ut => discardTeam s ut.1) s
    removeCrew (dropSaved s cu c) cu

/-- The entries of a kernel everywhere go: bins, pools, messages in flight, saved bins (R120, R392, R419). One in a packet
crosses the link and finds no kernel. -/
def discardEntries (s : State) (kid : Nat) : State :=
  { s with
    cores := s.cores.mapVals fun _ c => { c with bins := c.bins.filter fun b => b.2.kernel ≠ kid }
    isls := s.isls.mapVals fun _ i => { i with pool := i.pool.filter fun e => e.kernel ≠ kid }
    msgs := s.msgs.filter fun ue => ue.2.kernel ≠ kid
    crews := s.crews.mapVals fun _ c => if c.kernel = kid then { c with savedBins := [] } else c }

/-- A held kernel's counters are no longer watched. -/
def forgetHold (s : State) (kid : Nat) : State :=
  { s with
    isls := s.isls.mapVals fun _ i =>
      { i with crumbs := (i.crumbs.mapVals fun _ c => { c with waiters := c.waiters.filter (· ≠ .hold kid) }).filter fun lc =>
          !lc.2.waiters.isEmpty || lc.2.bcast } }

/-- Faults of a kernel's code copies leave the fault buffers. -/
def forgetCode (s : State) (kid : Nat) : State :=
  (List.range 25).foldl (fun s i => (List.range 36).foldl (fun s c => faultForget s i (.code kid c)) s) s

/-- Everything of a kernel goes, and its record with it. -/
def dropKernel (s : State) (kid : Nat) : State :=
  match s.kernels.find? kid with
  | none => s
  | some k =>
    let s := (SMap.keys (s.crewsOf kid)).foldl discardCrew s
    let s := forgetCode (forgetHold (discardEntries s kid) kid) kid
    let s := match k.ovfPa with
      | some pa => dropFrame s pa
      | none => s
    let s := { s with cores := s.cores.mapVals fun _ c => { c with code := c.code.filter fun x => x.kernel ≠ kid } }
    let s := (List.range 25).foldl (fun s i => leaveW s i fun w => w.kernel = kid) s
    let s := freeSpans s fun g => g.kernel = kid
    let s := { s with kernels := SMap.del s.kernels kid }
    s.updPcp fun p => { p with
      reserving := if p.reserving = some kid then none else p.reserving
      reached := p.reached.filter fun r => r.1 ≠ kid }

/-- Accepted MESSAGE records that match a kernel and are still queued: queue and SEQ. -/
def queuedMsgs (s : State) (kid : Nat) : List (Nat × Nat) :=
  (s.queues.map fun kq => (kq.2.accepted.filter fun r =>
    r.2.2 = some kid && natBits ((r.1.getD 0 0).toNat) 7 0 = kindMessage).map fun r =>
      (kq.1, natBits ((r.1.getD 15 0).toNat) 31 0)).flatten
/-- The MESSAGE records of a kernel leave the queues. -/
def dropQueued (s : State) (kid : Nat) : State :=
  { s with queues := s.queues.mapVals fun _ q => { q with
      accepted := q.accepted.filter fun r =>
        !(r.2.2 = some kid && natBits ((r.1.getD 0 0).toNat) 7 0 = kindMessage) } }

/-- MESSAGE records of a kernel that have been taken and have not finished: those that wait in the PCP, and those whose
entries are in a pool or in flight (R50). -/
def openMsgs (s : State) (kid : Nat) (k : Kernel) : List (Nat × Nat) :=
  let of_ (es : List LaneEntry) : List (Nat × Nat) := (es.filter fun e => e.kernel = kid).filterMap (·.msg)
  k.waitMsgs.map (fun m => (m.1, m.2.1)) ++ (s.isls.map fun i => of_ i.2.pool).flatten ++ of_ (entriesAway s)

/-- A kernel's record finishes with a code, and after it the MESSAGEs whose entries go with the kernel (R29, R50; after its
first crew the model's choice, log 64). -/
def finishKernel (s : State) (kid : Nat) (k : Kernel) (code msgCode : Code) (w3 : Nat) : State :=
  let waiting := openMsgs s kid k ++ if k.placed = 0 then queuedMsgs s kid else []
  let s := finishRecord (dropKernel s kid) k.queue k.seq kindLaunch code w3
  let s := if k.placed = 0 then dropQueued s kid else s
  waiting.foldl (fun s qs => finishRecord s qs.1 qs.2 kindMessage msgCode (if msgCode = .ok then 0 else w3)) s

/-- A kernel ends with a code (R29, R50). -/
def endKernel (s : State) (kid : Nat) (code : Code) (w3 : Nat) : State :=
  match s.kernels.find? kid with
  | none => s
  | some k => finishKernel s kid k code code w3

/-! ## Words of a record -/

def Rec.q (r : Rec) (i : Nat) : Nat := (List.getD r i 0).toNat
def Rec.kind (r : Rec) : Nat := natBits (r.q 0) 7 0
def Rec.seq (r : Rec) : Nat := natBits (r.q 15) 31 0
def Rec.entry (r : Rec) : Nat := natBits (r.q 0) 63 56
/-- Words of a MESSAGE payload (R34). -/
def Rec.payloadN (r : Rec) : Nat := natBits (r.q 0) 51 48 + 1
def Rec.payload (r : Rec) (i : Nat) : Word := BitVec.ofNat 32 (r.q (1 + i / 2) / 2 ^ (32 * (i % 2)))

/-! ## The entry of a MESSAGE (R33, R65) -/

/-- Entries of a kernel queued on an island. -/
def queuedOnIsl (s : State) (kid isl : Nat) : Nat :=
  ((List.range 36).map fun c => queuedOn s kid (coreKey isl c)).sum
    + ((s.isl isl).pool.filter fun e => e.kernel = kid).length

/-- The island a MESSAGE goes to (R65). -/
def messageIsland (s : State) (kid : Nat) (k : Kernel) (affVa : Nat) : Nat :=
  let few := (argMin (queuedOnIsl s kid) (k.isls.getD [])).getD 0
  if affVa = 0 then few
  else
    match walk s k.tenant affVa with
    | .leaf e => if e.isl < 25 then e.isl else few
    | _ => few

/-- The lane entry of a MESSAGE, for the core of its island with the fewest queued entries (the dispatcher's choice is the
model's, log 65); `none` where the table has no such entry. -/
def msgEntry (s : State) (kid : Nat) (k : Kernel) (q : Nat) (r : Rec) : Option LaneEntry :=
  (k.image.entries[r.entry]?).map fun en =>
    let isl := messageIsland s kid k (natBits (r.q 9) 55 0)
    rerouted s
      { kernel := kid, off := en.off, isl := isl, core := (leastQueued s (entryCrews s kid) kid isl).getD 0
        payload := .words ((List.range (min r.payloadN k.launch.shape.vregs)).map r.payload), msg := some (q, r.seq) }

/-! ## Promotion clocks (R46) -/

def Kernel.taken (k : Kernel) : Bool := k.phase ≠ .accepted
/-- Kernels in the held-kernel table (R45, R48). -/
def heldCount (s : State) : Nat := (s.kernels.filter fun uk => uk.2.taken).length
def heldRoom (s : State) : Bool := heldCount s < 16384

/-- Whether a MESSAGE can be taken now: it waits for its kernel's first crew, or its entry finds room (R67). -/
def msgTakes (s : State) (q : Nat) (kid : Option Nat) (r : Rec) : Bool :=
  match kid with
  | none => true
  | some id =>
    match s.kernels.find? id with
    | none => true
    | some k => k.placed = 0 || ((msgEntry s id k q r).map (accepts s)).getD true
/-- Whether the head of a queue could be taken, were there room in the held-kernel table: a SIGNAL at any time; where its
home holds the addition, the decision that takes it waits (log 60). -/
def headWaits (s : State) (n : Nat) (q : Queue) : Bool :=
  match q.accepted with
  | [] => false
  | (r, (_, k)) :: _ =>
    r.kind ≠ kindMessage || msgTakes s n k r
/-- Whether the head of a queue is ready. -/
def headReady (s : State) (n : Nat) (q : Queue) : Bool :=
  match q.accepted with
  | [] => false
  | (r, _) :: _ => headWaits s n q && (r.kind ≠ kindLaunch || heldRoom s)

/-- The promotion clocks follow the heads; none runs while the held-kernel table is full. -/
def clocks (s : State) : State :=
  let shift (c : Nat) : Nat := match s.pcp.fullSince with
    | some t => if heldRoom s then c + (s.now - max c t) else c
    | none => c
  let s := { s with queues := s.queues.mapVals fun n q =>
    { q with clock := if headWaits s n q then some ((q.clock.map shift).getD s.now) else none } }
  s.updPcp fun p => { p with
    fullSince := if heldRoom s then none else some (p.fullSince.getD s.now) }

end Sys2Proof.Machine
end

