-- ==== Sys2Proof/Machine/Rollback.lean ====
section
/-! DEFINITION. Uncorrectable errors and rollback (R385, R390, R391): which spans are struck, what is discarded and
restored, and the relaunch of a crew (R24, R32, R403) or of the entries of a resident span. -/

namespace Sys2Proof.Machine

/-! ## The start of a crew's teams -/

/-- The teams of a crew as a LAUNCH starts them (R23, R32, R138). -/
def startTeams (s : State) (k : Kernel) (cu : Nat) : State :=
  let off := ((k.image.entries[k.launch.entry]?).map (·.off)).getD 0
  (List.range k.launch.shape.teams).foldl (fun s j =>
    let (sp, s) := s.fresh
    let t : Team :=
      { crew := cu
        index := j
        lanes := k.launch.shape.lanes
        vregs := k.launch.shape.vregs
        regs := { s := scalarsOf k.launch.args }
        flow := { pc := off, mask := fullMask k.launch.shape.lanes }
        sched := { age := s.now, level := k.level, readySince := s.now }
        span := sp }
    { s with teams := s.teams.put s.uid t, uid := s.uid + 1 }) s

/-- Whether a core pins the segment that holds a travelling kernel's launch entry (R403). -/
def pinsEntry (s : State) (kid : Nat) (k : Kernel) (key : Nat) : Bool :=
  let off := ((k.image.entries[k.launch.entry]?).map (·.off)).getD 0
  (s.core key).code.any fun c => c.kernel = kid && c.base ≤ off && off < c.base + c.size

/-- The teams a crew starts with (R403). -/
def startCrewTeams (s : State) (kid : Nat) (k : Kernel) (cu key : Nat) : State :=
  if !k.travels || pinsEntry s kid k key then startTeams s k cu else s

/-! ## What a struck span leaves -/

/-- A packet keeps its place in its stream and loses what it carries. -/
def Packet.emptied (p : Packet) : Packet :=
  { p with cargo := if p.cargo = .returned then p.cargo else .write [], orig := p.orig.map fun _ => .write [] }
/-- Some lane entries of a kernel go, wherever they wait: bins, pools, in flight, saved with a crew. -/
def purgeEntries (s : State) (kid : Nat) (p : LaneEntry → Bool) : State :=
  let mine (e : LaneEntry) : Bool := e.kernel = kid && p e
  let bin (b : Bin) : Bin :=
    { b with
      entries := b.entries.filter fun e => !mine e
      forming := match b.forming with
        | some (sl, ls) =>
          let ls' := ls.filter fun e => !mine e
          if ls'.isEmpty then none else some (sl, ls')
        | none => none }
  let keeps (b : Bin) : Bool := !b.entries.isEmpty || b.forming.isSome
  { s with
    cores := s.cores.mapVals fun _ c =>
      if c.bins.any fun kb => kb.2.kernel = kid then
        let bins := c.bins.map fun kb => (kb.1, if kb.2.kernel = kid then bin kb.2 else kb.2)
        { c with bins := bins.filter fun kb => keeps kb.2 }
      else c
    isls := s.isls.mapVals fun _ i => { i with pool := i.pool.filter fun e => !mine e }
    msgs := s.msgs.filter fun ue => !mine ue.2
    pkts := s.pkts.mapVals fun _ p => if p.entry.any mine then p.emptied else p
    crews := s.crews.mapVals fun _ c => { c with savedBins := c.savedBins.filter fun e => !mine e } }
/-- The bin and pool entries a span spawned that no team has taken go (R390). -/
def purgeSpawned (s : State) (g : SpanTag) : State := purgeEntries s g.kernel fun e => e.span = some g

/-- A late addition leaves, in its place of its stream (R253, R254). -/
def sendAdd (s : State) (op : Nat) (o : Op) (a : LateAdd) (c : Cargo) : State :=
  let p : Packet :=
    { route := routeWord s o.isl a.dst false, src := o.isl, dst := a.dst, sep := o.core, sseq := a.sseq, pa := a.pa,
      tenant := o.tenant, cargo := c, op := op, at_ := o.isl, span := o.span, gen := s.panel.gen }
  { s with pkts := s.pkts.put a.id p }

/-- Operations of some teams are given up: what is not performed never is, and remote writes in flight lose their bytes
but keep their place in their streams (R253, R390). -/
def dropOps (s : State) (teams : List Nat) : State :=
  let mine (o : Op) : Bool := teams.contains o.team
  let lost := s.ops.filter fun io => mine io.2
  let gone := lost.map Prod.fst
  let empty (c : Cargo) : Cargo := match c with
    | .write _ => .write []
    | c => c
  let s := lost.foldl (fun s io => io.2.adds.foldl (fun s a => sendAdd s io.1 io.2 a (.write [])) s) s
  { s with
    ops := s.ops.filter fun io => !mine io.2
    pkts := s.pkts.mapVals fun _ p =>
      if gone.contains p.op then { p with cargo := empty p.cargo, orig := p.orig.map empty } else p }

/-- The copy commands of a span are discarded; they count as completed (R390). -/
def CopyCtx.without (y : CopyCtx) (g : SpanTag) : CopyCtx :=
  let cmds := y.cmds.filter fun c => c.span ≠ some g
  let same := (cmds.head?.map (·.no)) = (y.cmds.head?.map (·.no))
  { y with
    cmds := cmds, timeline := timelineAt (cmds.map (·.no)) y.issued
    stalled := y.stalled && same, stopped := y.stopped && same }
/-- The collective commands of a span are discarded. -/
def CollCtx.without (y : CollCtx) (now : Nat) (g : SpanTag) : CollCtx :=
  let cmds := y.cmds.filter fun c => c.span ≠ some g
  let same := (cmds.head?.map (·.no)) = (y.cmds.head?.map (·.no))
  { y with
    cmds := match cmds with
      | [] => []
      | c :: cs => { c with headAt := some (c.headAt.getD now) } :: cs
    timeline := timelineAt (cmds.map (·.no)) y.issued
    stalled := y.stalled && same, stopped := y.stopped && same }
/-- The matrix commands of a span are discarded; the next one makes a request of its own (R274). -/
def MxCtx.without (m : MxCtx) (now : Nat) (g : SpanTag) : MxCtx :=
  let cmds := m.cmds.filter fun c => c.span ≠ g.span
  let same := (cmds.head?.map (·.no)) = (m.cmds.head?.map (·.no))
  { m with
    cmds := cmds, timeline := timelineAt (cmds.map (·.no)) m.issued
    granted := m.granted && same, stopped := m.stopped && same
    promoted := m.promoted && same, requestedAt := if same then m.requestedAt else now }

/-- The incomplete commands of a resident span leave the crew's contexts, running or saved, with the causes they have raised
(R390). -/
def dropCommands (s : State) (cu : Nat) (c : Crew) (g : SpanTag) : State :=
  let s := match c.copyCtx with
    | some x =>
      let s := s.updIsl c.isl fun i => { i with copy := SMap.upd i.copy x fun y => y.without g }
      mirrorWrite s cu mirrorCopy ((SMap.get ({} : CopyCtx) (s.isl c.isl).copy x).timeline)
    | none => s
  let s := match c.collCtx with
    | some x =>
      let gone := List.filter (fun q : CollCmd => q.span = some g) (SMap.get ({} : CollCtx) (s.isl c.isl).coll x).cmds
      let s := (dropRequests s gone).updIsl c.isl fun i => { i with coll := SMap.upd i.coll x fun y => y.without s.now g }
      mirrorWrite s cu mirrorColl ((SMap.get ({} : CollCtx) (s.isl c.isl).coll x).timeline)
    | none => s
  let s := match c.mxCtx with
    | some n =>
      let s := s.updMx c fun m => m.without s.now g
      mirrorWrite s cu mirrorMatrix ((s.engine c.cluster).ctx n).timeline
    | none => s
  let s := s.updIsl c.isl fun i => { i with saved := i.saved.map fun v =>
    if v.crew = cu then { v with ctx := v.ctx.without s.now g } else v }
  s.updCrew cu fun c => { c with
    savedCopy := c.savedCopy.map fun y => y.without g
    savedColl := c.savedColl.map fun y => y.without s.now g
    pending := c.pending.filter fun e => e.span ≠ some g }

/-! ## The relaunch -/

/-- Ranges go back to the pool, lowest first. -/
def insertRange (r : Nat × Nat) : List (Nat × Nat) → List (Nat × Nat)
  | [] => [r]
  | x :: xs => if r.1 < x.1 then r :: x :: xs else x :: insertRange r xs

/-- The index of a crew that has exited in a range not yet complete goes back to the pool (R24, R64). -/
def returnIndex (s : State) (g : SpanTag) : State :=
  let mine (r : Range) : Bool := r.lo ≤ g.crew && g.crew < r.hi
  s.updKernel g.kernel fun k => { k with
    exited := k.exited - 1
    ranges := k.ranges.map fun r => if mine r then { r with exited := r.exited - 1 } else r
    pool := insertRange (g.crew, g.crew + 1) k.pool }

/-- A rolled-back crew of a kernel that is not resident runs again from its launch entry; one that has exited in a range
not yet complete, under its index (R24, R390). Its fresh L-space and A-space read 0 (log 75). -/
def relaunchCrew (s : State) (kid : Nat) (k : Kernel) (cu : Nat) (c : Crew) (g : SpanTag) : State :=
  let us := SMap.keys (s.teamsOf cu)
  let runs := spanOpen s g
  let s := us.foldl (fun s u => dropTeam (abortTx s u .halt) u) (dropOps s us)
  let s := freeContexts s cu
  let s := dropSaved s cu c
  let s := restoreSpans (purgeSpawned s g) (· = g)
  let s := gangLost s (brokenGangs s c.kernel c.isl (c.core / 4))
  let s := s.event 0x21 0 k.queue k.tenant k.seq (spanWord2 k g) 0
  if c.exited then
    let s := removeCrew s cu
    if runs then returnIndex s g else s
  else
    let s := s.updCrew cu fun c => { c with
      closing := false, lmem := [], amem := [], halt := none, pending := [], commTeam := none, savedCopy := none
      savedColl := none }
    startCrewTeams s kid k cu c.key

/-- The entries that formed a struck team go back to the kernel's bins, in their order, and keep its span number (R390,
R391). -/
def redeliver (s : State) (t : Team) : State :=
  t.formedBy.foldl (fun s e =>
    forward s e.isl { rerouted s e with redo := some t.span }) s

/-- A rolled-back span of a resident kernel: its team goes, the others run on (R390). -/
def relaunchSpan (s : State) (k : Kernel) (cu : Nat) (c : Crew) (g : SpanTag) (u : Nat) (t : Team) : State :=
  let s := dropTeam (abortTx (dropOps s [u]) u .halt) u
  let s := dropCommands s cu c g
  let s := restoreSpans (purgeSpawned s g) (· = g)
  let s := gangLost s (brokenGangs s c.kernel c.isl (c.core / 4))
  redeliver (s.event 0x21 0 k.queue k.tenant k.seq (spanWord2 k g) 0) t

/-- A crew that has exited in a range not yet complete runs again (R64, R390). -/
def relaunchIndex (s : State) (k : Kernel) (g : SpanTag) : State :=
  let s := restoreSpans (purgeSpawned s g) (· = g)
  returnIndex (s.event 0x21 0 k.queue k.tenant k.seq (spanWord2 k g) 0) g

/-- One struck span is rolled back (R390). -/
def rollSpan (s : State) (g : SpanTag) : State :=
  match s.kernels.find? g.kernel with
  | none => s
  | some k =>
    match List.find? (fun uc : Nat × Crew => uc.2.kernel = g.kernel && uc.2.idx = g.crew) s.crews with
    | none => if k.launch.resident then s else relaunchIndex s k g
    | some (cu, c) =>
      if !k.launch.resident then relaunchCrew s g.kernel k cu c g
      else
        match List.find? (fun ut : Nat × Team => ut.2.crew = cu && ut.2.span = g.span) s.teams with
        | some (u, t) => relaunchSpan s k cu c g u t
        | none => (restoreSpans (dropCommands (purgeSpawned s g) cu c g) (· = g)).event 0x21 0 k.queue k.tenant k.seq (spanWord2 k g) 0

/-- Whether two spans are one for R391: the crew, or in a resident kernel the span number. -/
def SpanTag.sameAs (g h : SpanTag) (resident : Bool) : Bool :=
  g.kernel = h.kernel && if resident then g.span = h.span else g.crew = h.crew

/-- The spans of some teams of a crew (R387). -/
def spansOf (s : State) (c : Crew) (k : Kernel) (us : List Nat) : List SpanTag :=
  if k.launch.resident then
    us.filterMap fun u => (s.teams.find? u).map fun t => { kernel := c.kernel, crew := c.idx, span := t.span }
  else [{ kernel := c.kernel, crew := c.idx, span := 0 }]
/-- Every span of a kernel with a crew that stands (R120: a travelling kernel is rolled back as a whole). -/
def crewSpans (s : State) (kid : Nat) : List SpanTag :=
  (s.crewsOf kid).map fun uc => { kernel := kid, crew := uc.2.idx, span := 0 }

/-- Whether a span cannot be rolled back: a full write log has made it so, or there is no log (R389, R417). -/
def noRollback (s : State) (k : Kernel) (g : SpanTag) : Bool := s.host.wlogsz = 0 || k.noRoll.contains g

/-- Some spans of a kernel are struck, at an address where there is one (R389 to R391): they are rolled back, or the
kernel ends. -/
def strikeSpans (s : State) (kid : Nat) (gs : List SpanTag) (addr : Option Nat) : State :=
  match s.kernels.find? kid with
  | none => s
  | some k =>
    let twice (g : SpanTag) : Bool := match addr with
      | some a => k.struck.any fun x => g.sameAs x.1 k.launch.resident && x.2 = a
      | none => false
    if !k.launch.rollback || gs.any (fun g => noRollback s k g || twice g) then clocks (endKernel s kid .tenantfault 0)
    else
      let s := match addr with
        | some a => s.updKernel kid fun k => { k with struck := gs.map (fun g => (g, a)) ++ k.struck }
        | none => s
      if k.travels then
        let s := (purgeEntries s kid fun e => e.payload.travels).updKernel kid fun k => { k with overflow := [] }
        (crewSpans s kid).foldl rollSpan s
      else gs.foldl rollSpan s

/-- A crew struck by UE halts, with the report a UE gets, and the PCP handles it at once (R377, R378, R390); in a
resident kernel the crew's other teams go on. `at_` names the address, where the UE has one (R391). -/
def strikeCrew (s : State) (cu : Nat) (gs : List SpanTag) (at_ : Option Nat) (i : TrapInfo) : State :=
  match s.crews.find? cu with
  | none => s
  | some c =>
    match s.kernels.find? c.kernel with
    | none => s
    | some _ =>
      let before := c.halt.isSome
      let s := haltCrew s cu { i with cause := .ue }
      let s := strikeSpans s c.kernel gs at_
      if before then s else sweep (resumeCrew s cu)

/-! ## Poisoned sectors (R391) -/

/-- A team's read of a poisoned sector raises UE for some lanes. -/
def ueRead (s : State) (cu u : Nat) (lanes : Mask) (va : Nat) : State :=
  let gs := match s.crews.find? cu with
    | some c => ((s.kernels.find? c.kernel).map fun k => spansOf s c k [u]).getD []
    | none => []
  strikeCrew s cu gs (some va)
    { cause := .ue, team := ((s.teams.find? u).map (·.index)).getD 0, addr := va, mask := lanes }

end Sys2Proof.Machine
end

