-- ==== Sys2Proof/Machine/Travel.lean ====
section
/-! DEFINITION. Travelling threads: the resident segment, the checks of a departure, payloads, and where they go (R115 to
R120); and the transfers of control shared by the branches, calls and jumps (R103, R104, R129 to R131). -/

namespace Sys2Proof.Machine

/-! ## Code offsets -/

/-- The segment a core has pinned for a travelling kernel. -/
def pinnedSeg (s : State) (key kernel : Nat) : Option CodeCopy := (s.core key).code.find? fun c => c.kernel = kernel

/-- Whether an offset is a legal target that needs no departure (R104, R115). -/
def inCode (s : State) (x : Issuer) (target : Int) : Bool :=
  if x.k.travels then
    match pinnedSeg s x.c.key x.c.kernel with
    | some c => decide ((c.base : Int) ≤ target ∧ target < c.base + c.size)
    | none => false
  else decide (0 ≤ target ∧ target < x.k.image.codeBytes)

/-- The target of a form B word (R73). -/
def branchTarget (x : Issuer) (disp : BitVec 24) : Int := x.t.flow.pc + 8 * disp.toInt

/-- The TRAVEL_TARGET entry at an offset; of two with different LIVE_V the first in the table (the model's choice, log
62). -/
def travelEntry (k : Kernel) (off : Nat) : Option Entry := k.image.entries.find? fun e => e.off = off && e.target
def segIndex (k : Kernel) (off : Nat) : Option Nat :=
  let i := k.image.segs.findIdx fun g => g.start ≤ off && off < g.start + g.len
  if i < k.image.segs.length then some i else none

/-! ## Payloads -/

/-- The payload of a departing lane (Table 7-4), with the return stack it takes along. -/
def payloadOf (t : Team) (lane liveV : Nat) (ret : List Nat) : Payload :=
  .travel ((List.range 8).map t.regs.sget) ((t.regs.laneFmt.find? lane).getD t.regs.fmt) ret
    ((List.range liveV).map (t.regs.vget lane))
/-- Bytes of a core's departure buffer in use: its payloads in flight. -/
def departing (s : State) (key : Nat) : Nat :=
  ((s.msgs.filter fun ue => ue.2.src = some key).map fun ue => ue.2.payload.bytes).sum

/-- Payloads in flight to one bin. -/
def flyingTo (s : State) (e : LaneEntry) : Nat :=
  (s.msgs.filter fun ue =>
    ue.2.together e && ue.2.payload.travels).length
/-- Keys of bins that payloads in flight to a core will open. -/
def newBinsAt (s : State) (key : Nat) : List (Nat × Nat) :=
  ((s.msgs.filter fun ue => ue.2.payload.travels && coreKey ue.2.isl ue.2.core = key &&
    (binOf (s.core key) ue.2.kernel ue.2.off).isNone).map fun ue => (ue.2.kernel, ue.2.off)).dedup

/-- Whether the target bin takes one more payload, counting those in flight (R119). -/
def binTakes (s : State) (k : Kernel) (e : LaneEntry) : Bool :=
  let key := coreKey e.isl e.core
  match (binOf (s.core key) e.kernel e.off).bind fun bi => SMap.find? (s.core key).bins bi with
  | some b => flyingTo s e < b.room k
  | none =>
    let fresh := newBinsAt s key
    if fresh.contains (e.kernel, e.off) then flyingTo s e < 128
    else (s.core key).bins.length + fresh.length < 32

/-- The figure of a holder: the greatest value where its crew is halted (R120), and where the core has several crews of the
kernel only where all of them are (R120 speaks of one crew: the model's choice, log 80). -/
def figure (s : State) (kernel isl : Nat) (h : Holder) : Nat :=
  let crews := (s.crewsOn (coreKey isl h.core)).filter fun uc => uc.2.kernel = kernel
  if !crews.isEmpty && crews.all fun uc => uc.2.halt.isSome then 2 ^ 64 else h.load
/-- The holder a payload goes to (R68, R120). -/
def holderFor (s : State) (kid : Nat) (k : Kernel) (isl off : Nat) : Option Nat :=
  (segIndex k off).bind fun i =>
    let hs := ((k.segMap.getD i {}).holders).filter (·.inMap)
    argMin (fun c => ((hs.find? fun h => h.core = c).map (figure s kid isl)).getD (2 ^ 65))
      ((List.range 36).filter fun c => hs.any fun h => h.core = c)

/-- An arrival is noted for the holder it reached (R69). -/
def noteArrival (s : State) (e : LaneEntry) : State :=
  s.updKernel e.kernel fun k =>
    let seen (h : Holder) : Holder := if h.core = e.core then { h with lastArrival := s.now } else h
    { k with segMap := k.segMap.map fun m => { m with holders := m.holders.map seen } }

/-- Whether a core holds the segment of an offset, in the map (R69). -/
def inMapAt (k : Kernel) (off core : Nat) : Bool :=
  match segIndex k off with
  | some i => ((k.segMap.getD i {}).holders).any fun h => h.core = core && h.inMap
  | none => false

/-- One payload in flight lands where its holder still stands in the map and its bin has room. -/
def landPayload (s : State) (k : Kernel) (m : Nat × LaneEntry) : State :=
  if inMapAt k m.2.off m.2.core then
    (enterBin (noteArrival { s with msgs := s.msgs.del m.1 } m.2) m.2).getD s
  else s
/-- The payloads of a core's departure buffer and those on the way to a payload's bin land while a departure waits for
their room (log 44). -/
def landFor (s : State) (k : Kernel) (key : Nat) (e : LaneEntry) : State :=
  (s.msgs.filter fun ue => ue.2.payload.travels && (ue.2.src = some key || ue.2.together e)).foldl
    (fun s m => landPayload s k m) s

/-- Slots of a kernel's overflow area (R119). -/
def overflowCap (k : Kernel) : Nat := 128 * k.launch.ovfUnits

/-- One payload leaves: to its holder's bin through the departure buffer, else to the overflow area; `none` where that
is full (R119). -/
def sendPayload (s : State) (x : Issuer) (target : Nat) (p : Payload) : Option State :=
  let core := (holderFor s x.c.kernel x.k x.c.isl target).getD x.c.core
  let e : LaneEntry := { kernel := x.c.kernel, off := target, isl := x.c.isl, core := core, payload := p,
                         src := some x.c.key }
  let room (s : State) : Bool := binTakes s x.k e && departing s x.c.key + p.bytes ≤ 16384
  let s := if room s then s else landFor s x.k x.c.key e
  let area := ((s.kernels.find? x.c.kernel).map (·.overflow.length)).getD 0
  if room s then some (s.addMsg e)
  else if area < overflowCap x.k then
    some (s.updKernel x.c.kernel fun k => { k with overflow := k.overflow ++ [{ e with src := none }] })
  else none

/-- A lane that departs: its target and the return stack it takes along. -/
structure Leaver where
  lane : Nat
  target : Nat
  ret : List Nat
deriving DecidableEq, Repr

/-- The causes of departing lanes: a misaligned target raises MISALIGN only (R115, R151). -/
def leaveCauses (k : Kernel) (ls : List Leaver) : List (Nat × (Nat × Cause)) :=
  ls.filterMap fun l =>
    if l.target % 8 ≠ 0 then some (l.lane, (l.target, .misalign))
    else if (travelEntry k l.target).isNone then some (l.lane, (l.target, .spacebound))
    else none

/-- Payloads in ascending lane order: the state, and the lanes that found no room. -/
def sendAll (x : Issuer) (s : State) : List Leaver → State × List Nat
  | [] => (s, [])
  | l :: ls =>
    let liveV := ((travelEntry x.k l.target).map (·.liveV)).getD 0
    match sendPayload s x l.target (payloadOf x.t l.lane liveV l.ret) with
    | some s => sendAll x s ls
    | none =>
      let (s, stuck) := sendAll x s ls
      (s, l.lane :: stuck)

/-- A transaction aborts with FORBID before the word that caused it has any effect (Table 17-1, R246). -/
def forbid (s : State) (x : Issuer) : State := charge (abortTx s x.u .forbid) x 1

/-- Lanes that are gone from a team: their bits and return stacks (R116). -/
def Team.without (t : Team) (gone : List Nat) : Team :=
  { t with flow := { t.flow.clear (maskOf gone) with
      laneRet := t.flow.laneRet.filter fun lr => !gone.contains lr.1 } }

/-- Registers an operation in flight is still to write: whether they are scalar, the first, how many. -/
def OpKind.pending : OpKind → Option (Bool × (Nat × Nat))
  | .load _ n scalar d => some (scalar, (d, ceilDiv n 4))
  | .atom t _ (some d) _ => some (false, (d, t.regs))
  | .ratom t _ (some d) _ => some (false, (d, t.regs))
  | _ => none
/-- Whether an operation in flight of a team is still to write a register that its departing lanes carry: s0 to s7, or one
of the first `liveV` vector registers (R110, R116, R117). -/
def carriesPending (s : State) (u liveV : Nat) : Bool :=
  s.ops.any fun io => io.2.team = u && match io.2.kind.pending with
    | some (true, d, _) => d < 8
    | some (false, d, _) => d < liveV
    | none => false

/-- Lanes depart (R115, R116, R119): a cause of any lane stops the word before any departs (R10); a lane that finds the
overflow area full stays and raises TRAVELOVF, and the lanes already stored have departed. The word is held while a
register the payloads carry is still to be written. -/
def depart (s : State) (x : Issuer) (ls : List Leaver) (rest : State → Team → State) : State :=
  match worst (leaveCauses x.k ls) with
  | some b => raiseLanes s x b.cause b.lanes b.addr
  | none =>
    if x.t.tx.isSome && !ls.isEmpty then forbid s x
    else if !ls.isEmpty &&
        carriesPending s x.u ((ls.map fun l => ((travelEntry x.k l.target).map (·.liveV)).getD 0).foldl max 0) then s
    else
      let (s, stuck) := sendAll x s ls
      let gone := (ls.map (·.lane)).filter fun l => !stuck.contains l
      let t := x.t.without gone
      if stuck.isEmpty then rest s t else raiseLanes (s.setTeam x.u t) x .travelovf stuck 0

/-! ## Transfers of control -/

def laneRetOf (t : Team) (l : Nat) : List Nat := SMap.get [] t.flow.laneRet l
/-- Return stacks of some lanes changed. -/
def setLaneRets (f : Flow) (ls : List Nat) (g : Nat → List Nat) : Flow :=
  { f with laneRet := ls.foldl (fun m l => SMap.set [] m l (g l)) f.laneRet }

/-- Where the report's ADDR names a code offset. -/
def offsetAddr (target : Int) : Nat := trunc 64 target

/-- A team-scope transfer to one target, with the return stacks it leaves (R73, R103, R104, R115, R129). `deep` lists
the lanes whose return stack overflows. -/
def transfer (s : State) (x : Issuer) (target : Int) (deep : List Nat) (ret : List Nat) (lane : Nat → List Nat) : State :=
  let ls := lanesOf x.t.flow.mask x.t.lanes
  if inCode s x target then
    if target % 8 ≠ 0 then raiseTeam s x .misalign (offsetAddr target)
    else if !deep.isEmpty then raiseLanes s x .stackovf deep 0
    else
      let f := if x.k.travels then setLaneRets x.t.flow ls lane else { x.t.flow with ret := ret }
      finish s x { x.t with flow := { f with pc := target.toNat } } 1
  else if !x.k.travels then raiseTeam s x .spacebound (offsetAddr target)
  else
    let leavers := ls.map fun l => ({ lane := l, target := offsetAddr target, ret := lane l } : Leaver)
    match worst (leaveCauses x.k leavers) with
    | some b => raiseLanes s x b.cause b.lanes b.addr
    | none =>
      if !deep.isEmpty then raiseLanes s x .stackovf deep 0
      else depart s x leavers fun s t => settle s x t x.next 1

/-- A transfer that changes no return stack. -/
def jump (s : State) (x : Issuer) (target : Int) : State := transfer s x target [] x.t.flow.ret (laneRetOf x.t)

/-- CALL and CALLR (R118, R130, R131). -/
def callTo (s : State) (x : Issuer) (target : Int) : State :=
  let ls := lanesOf x.t.flow.mask x.t.lanes
  if x.k.travels then
    transfer s x target (ls.filter fun l => 8 ≤ (laneRetOf x.t l).length) x.t.flow.ret
      fun l => laneRetOf x.t l ++ [x.next]
  else
    transfer s x target (if 8 ≤ x.t.flow.ret.length then ls else []) (x.t.flow.ret ++ [x.next]) (laneRetOf x.t)

/-- Falling past the last word: SPACEBOUND in an ordinary kernel (R104), a departure to the offset reached in a
travelling one (R115, R129). -/
def fallOff (s : State) (x : Issuer) : State :=
  if x.k.travels then
    let ls := (lanesOf x.t.flow.mask x.t.lanes).map fun l =>
      ({ lane := l, target := x.t.flow.pc, ret := laneRetOf x.t l } : Leaver)
    depart s x ls fun s t => settle s x t x.t.flow.pc 1
  else raiseTeam s x .spacebound x.t.flow.pc

end Sys2Proof.Machine
end

