-- ==== Sys2Proof/Machine/Mem.lean ====
section
/-! DEFINITION. What memory words share: addresses (R73, R220), the checks of every lane and the park of a team (R213,
R214, R221), the sets of a transaction (R323, R324, R327), operations in flight, when one can be performed and what
performing it does (R111, R202, R216, R227, R230, R309). -/

namespace Sys2Proof.Machine

/-! ## Addresses -/

/-- A global effective address: a pair of the lane or of the team, plus an offset (R73). -/
def ea64 (x : Issuer) (base : Operand) (ofs : BitVec 24) (lane : Nat) : Nat :=
  trunc 64 ((regVal x.t.regs lane 2 base : Int) + ofs.toInt)
/-- A typed-space effective address (R73). -/
def ea32 (x : Issuer) (base : Operand) (ofs : BitVec 24) (lane : Nat) : Nat :=
  trunc 32 ((regVal x.t.regs lane 1 base : Int) + ofs.toInt)
/-- Whether a typed-space address wraps past 0: it is then out of range (R195). -/
def wraps32 (x : Issuer) (base : Operand) (ofs : BitVec 24) (lane : Nat) : Bool :=
  let e := (regVal x.t.regs lane 1 base : Int) + ofs.toInt
  e < 0 || 2 ^ 32 ≤ e

/-- A wait counter that stands at 63 holds the team (R111). -/
def Counters.get (c : Counters) : Ctr → Nat
  | .ld => c.ld
  | .st => c.st
  | .rm => c.rm
def Counters.add (c : Counters) (k : Ctr) : Counters :=
  match k with
  | .ld => { c with ld := c.ld + 1 }
  | .st => { c with st := c.st + 1 }
  | .rm => { c with rm := c.rm + 1 }
def Counters.fall (c : Counters) (k : Ctr) : Counters :=
  match k with
  | .ld => { c with ld := c.ld - 1 }
  | .st => { c with st := c.st - 1 }
  | .rm => { c with rm := c.rm - 1 }
def Issuer.full (x : Issuer) (k : Ctr) : Bool := x.t.cnt.get k = 63

/-! ## Checks of a global access -/

/-- A translation miss parks the team; a transaction aborts with PAGE first (R214, Table 17-1). The entry lists the
missing lanes of one 4 KiB page, or for a word of team scope the whole mask. -/
def park (s : State) (x : Issuer) (team : Bool) (ms : List (Nat × (Nat × (Bool × Bool)))) (write : Bool) : State :=
  match ms with
  | [] => s
  | (_, (va, (demand, copy))) :: _ =>
    let lanes := (ms.filter fun m => m.2.1 / 4096 = va / 4096).map Prod.fst
    let s := (abortTx s x.u .page).updTeam x.u fun t => { t with
      status := .parked, sched := { t.sched with promoted := none, readySince := s.now } }
    let s := if x.t.txs.waits = 0 then s else tokenBack s x.c.isl x.u
    faultEnter s x.c.isl
      { who := .team x.u, tenant := x.k.tenant, va := va, write := write, lanes := if team then x.t.flow.mask else maskOf lanes, demand := demand,
        copyWanted := copy, kernelSeq := x.k.seq } x.k.queue

/-- An access the panel gave a physical address. -/
structure Hit where
  lane : Nat
  va : Nat
  pa : Nat
  attr : Attr
deriving DecidableEq, Repr

/-- An access of n bytes as a transaction notes it. -/
def Hit.acc (h : Hit) (n : Nat) : Nat × (Nat × Nat) := (h.va, (h.pa, n))

def hitsOf (cs : List (Nat × (Nat × Check))) : List Hit :=
  (oksOf cs).map fun o => { lane := o.1, va := o.2.1, pa := o.2.2.1, attr := o.2.2.2 }

/-- Inside a transaction, a global access to a private or read-shared page (R324). -/
def attrAborts (cs : List (Nat × (Nat × Check))) : Bool := (hitsOf cs).any fun h => h.attr = .priv || h.attr = .shared

/-- Whether a word of some access reads memory as it issues: a wait or queue word, or a reading word of a
transaction. -/
def Want.readsNow (w : Want) (team inTx : Bool) : Bool :=
  match w with
  | .load => inTx
  | .atomic => inTx || team
  | .localCounter => true
  | _ => false

/-- The cause of the highest precedence among a word's accesses is taken: UE strikes the team's span (R390, R391), another
halts its crew. `team` marks a word of team scope, reported with the whole mask (R373). -/
def blame (s : State) (x : Issuer) (team : Bool) (b : Blame) : State :=
  if b.cause = .ue then ueRead s x.t.crew x.u (if team then x.t.flow.mask else maskOf b.lanes.dedup) b.addr
  else if team then raiseTeam s x b.cause b.addr
  else raiseLanes s x b.cause b.lanes.dedup b.addr

/-- The checks of all lanes (R213, R221) with some further causes: a cause traps and no lane parks; in a transaction a page
that is not coherent aborts it; a miss parks the team; a read of a poisoned sector raises UE (R391); else the word goes on.
`team` marks a word of team scope, reported with the whole mask. -/
def checkedWith (s : State) (x : Issuer) (team : Bool) (want : Want) (n : Nat) (las : List (Nat × Nat))
    (more : List (Nat × (Nat × Cause))) (go : State → List Hit → State) : State :=
  let now_ := want.readsNow team x.t.tx.isSome
  let want := if x.t.tx.isSome then want.inTx else want
  let (cs, s) := checkLanes s x.c.isl (some x.c.key) x.k.tenant want n las
  match worst (causesOf cs ++ more) with
  | some b => blame s x team b
  | none =>
    if x.t.tx.isSome && attrAborts cs then charge (abortTx s x.u .attr) x 1
    else
      match missesOf cs with
      | [] =>
        let hs := hitsOf cs
        match hs.filter fun h => now_ && poisoned s h.pa n with
        | [] => go s hs
        | b :: bs => ueRead s x.t.crew x.u (if team then x.t.flow.mask else maskOf ((b :: bs).map (·.lane))) b.va
      | ms => park s x team ms want.writes

def checked (s : State) (x : Issuer) (team : Bool) (want : Want) (n : Nat) (las : List (Nat × Nat))
    (go : State → List Hit → State) : State := checkedWith s x team want n las [] go

/-- Causes of typed-space accesses (R195, R221). -/
def typedCauses (limit n : Nat) (las : List (Nat × Nat)) : List (Nat × (Nat × Cause)) :=
  las.filterMap fun la =>
    if limit < la.2 + n then some (la.1, (la.2, .spacebound))
    else if la.2 % n ≠ 0 then some (la.1, (la.2, .misalign))
    else none

/-- Causes of typed-space accesses at the addresses of a word (R195, R221). -/
def typedEaCauses (x : Issuer) (limit n : Nat) (base : Operand) (ofs : BitVec 24) (act : List Nat) :
    List (Nat × (Nat × Cause)) :=
  act.filterMap fun l =>
    if wraps32 x base ofs l then some (l, (ea32 x base ofs l, .spacebound))
    else (typedCauses limit n [(l, ea32 x base ofs l)]).head?

/-! ## Transactions' sets -/

/-- The lines of some accesses, each its virtual address, its physical address and its bytes, join the sets, or the
transaction aborts (R324, R327, R328). -/
def txJoin (s : State) (u : Nat) (x : Tx) (rd wr : Bool) (as : List (Nat × (Nat × Nat))) : Except TxCode (State × Tx) :=
  let ls := as.map fun a => lineOf a.2.1
  if ls.any fun l => irrevHolds s (some u) wr l then .error .conflict
  else
    let reads := if rd then (x.reads ++ ls).dedup else x.reads
    let wlines := if wr then (x.w.lines ++ ls).dedup else x.w.lines
    if 256 < reads.length then .error .rdcap
    else if 64 < wlines.length then .error .wrcap
    else
      .ok (as.foldl (fun s a => touch (reachLine s (some u) wr false a.2.1 a.2.2 (lineOf a.2.1)) a.2.1 none) s,
        { x with
          reads := reads, w := { x.w with lines := wlines }
          pages := as.map (fun a => (s.uid, (a.1, a.2.1))) ++ x.pages })

/-- The bytes a transaction reads: buffered over those of the home (R323). -/
def txBytes (s : State) (w : TxWrites) (pa n : Nat) : List Byte :=
  (List.range n).map fun j => (w.bytes.find? (pa + j)).getD (memGet s.mem (pa + j))
/-- Bytes buffered by a store or, with `atomic`, by an atomic. -/
def TxWrites.buffer (w : TxWrites) (atomic : Bool) (pa : Nat) (bs : List Byte) : TxWrites :=
  let here := (List.range bs.length).map (pa + ·)
  { w with
    bytes := (here.zip bs).foldl (fun m ab => SMap.put m ab.1 ab.2) w.bytes
    atomics := if atomic then (here ++ w.atomics).dedup else w.atomics.filter fun a => !here.contains a }

/-- An access of the issuing team's open transaction, held behind a held write (R216): its lines join, then `go` has its
effect on the transaction and the registers. -/
def txWord (s : State) (x : Issuer) (tx : Tx) (rd wr : Bool) (as : List (Nat × (Nat × Nat))) (cycles : Nat)
    (go : State → Tx → Tx × Regs) : State :=
  if as.any fun a => attemptHolds s tx false a.2.1 a.2.2 then s
  else
    match txJoin s x.u tx rd wr as with
    | .error c => charge (abortTx s x.u c) x 1
    | .ok (s, tx) =>
      let r := go s tx
      step8 s x { x.t with tx := some r.1, regs := r.2 } cycles

/-! ## Operations in flight -/

/-- A word whose accesses are performed later: it enters the operations and raises its counter once (R111). -/
def enterOp (s : State) (x : Issuer) (ctr : Ctr) (kind : OpKind) (accs : List Access) (strm : Bool) (cycles : Nat) :
    State :=
  let s := s.addOp
    { team := x.u, crew := x.t.crew, kernel := x.c.kernel, tenant := x.k.tenant, isl := x.c.isl, core := x.c.core,
      ctr := ctr, kind := kind, accs := accs, strm := strm, span := x.span }
  step8 s x { x.t with cnt := x.t.cnt.add ctr } cycles

def opsMeet (p q : Op) : Bool :=
  p.kind.space = q.kind.space && p.accs.any fun a => q.accs.any fun b =>
    accMeet (p.kind.byLine || q.kind.byLine) a.addr p.kind.size b.addr q.kind.size

/-- Whether an operation on the team's island has come to its home: no earlier operation of its team meets it (R309), and no
irrevocable attempt holds a line or word of it (R328, R333). -/
def opTurn (s : State) (id : Nat) (o : Op) : Bool :=
  !(s.ops.any fun jo => jo.1 < id && jo.2.team = o.team && jo.2.ctr ≠ .rm && opsMeet jo.2 o) &&
    (o.kind.space ≠ .global || o.accs.all fun a =>
      (linesOf a.addr o.kind.size).all (fun l => !irrevHolds s (some o.team) o.kind.writes l)) &&
    (o.kind.space ≠ .lspace || !o.kind.writes || o.accs.all fun a => !wordHeld s o.crew (some o.team) a.addr o.kind.size)
/-- Whether it can be performed: no migration holds it either (R215, R216). -/
def opReady (s : State) (id : Nat) (o : Op) : Bool :=
  opTurn s id o && (o.kind.space ≠ .global || o.accs.all fun a =>
    !lockHolds s id o.kind.writes a.addr o.kind.size && !heldBefore s id o.kind.writes a.addr o.kind.size)
/-- Whether a locked line holds it (R216). -/
def opLocked (s : State) (id : Nat) (o : Op) : Bool :=
  o.kind.space = .global && o.accs.any fun a => lockOnly s id o.kind.writes a.addr o.kind.size

/-- An operation is done: it leaves, and its counter falls (R111). -/
def retireOp (s : State) (id : Nat) (o : Op) : State :=
  { s with ops := s.ops.del id }.updTeam o.team fun t => { t with cnt := t.cnt.fall o.ctr }

/-- Data that lands in a team's registers: nothing visible for a lane that has ended (R132). -/
def landRegs (s : State) (u lane d n : Nat) (scalar : Bool) (x : Nat) : State :=
  s.updTeam u fun t =>
    { t with regs :=
        if scalar then t.regs.ssetN d (ceilDiv n 4) x
        else if laneIn t.flow.ended lane then t.regs
        else t.regs.vsetN lane d (ceilDiv n 4) x }

/-- Bytes of a typed space. -/
def typedBytes (m : SMap Byte) (a n : Nat) : List Byte := (List.range n).map fun j => SMap.get 0 m (a + j)
def typedPut (m : SMap Byte) (a : Nat) (bs : List Byte) : SMap Byte :=
  ((List.range bs.length).zip bs).foldl (fun m jb => SMap.set 0 m (a + jb.1) jb.2) m
def Crew.typed (c : Crew) : Space → SMap Byte
  | .lspace => c.lmem
  | .aspace => c.amem
  | _ => []

/-- The 16-byte words of L-space that n bytes touch. -/
def wordsOf (a n : Nat) : List Nat := if n = 0 then [] else (List.range ((a + n - 1) / 16 - a / 16 + 1)).map (a / 16 + ·)

/-- Bytes stored in a crew's L-space or A-space; a watched word changes (R333). -/
def crewPut (s : State) (cu : Nat) (by_ : Option Nat) (sp : Space) (a : Nat) (bs : List Byte) : State :=
  match sp with
  | .lspace =>
    let s := s.updCrew cu fun c => { c with lmem := typedPut c.lmem a bs }
    (wordsOf a bs.length).foldl (fun s w => changeWord s cu by_ w) s
  | _ => s.updCrew cu fun c => { c with amem := typedPut c.amem a bs }

/-- Whether the home of an operation's access is its own island; a migration may have moved it (R215). -/
def Op.atHome (o : Op) (pa : Nat) : Bool := homeOf o.isl pa = o.isl

/-- The lanes of a load that read one line see it as it stands at one moment (R202). -/
def loadLine (s : State) (o : Op) (n d : Nat) (scalar : Bool) (line : Nat) : State :=
  let as := o.accs.filter fun a => lineOf a.addr = line
  let offs := as.map fun a => a.addr % 128
  let (bss, s) :=
    if o.atHome (line * 128) then
      coreReadLine s (coreKey o.isl o.core) (some o.team) ((as.head?.map (·.attr)).getD .coherent) o.strm line n offs
    else
      let s := offs.foldl (fun s off => reachLine s (some o.team) false o.strm (line * 128 + off) n line) s
      (offs.map fun off => s.bytes (line * 128 + off) n, s)
  (as.zip bss).foldl (fun s ab => landRegs s o.team ab.1.lane d n scalar (leNat ab.2)) s

/-- A load is performed. -/
def performLoad (s : State) (o : Op) (sp : Space) (n d : Nat) (scalar : Bool) : State :=
  match sp with
  | .global => ((o.accs.map fun a => lineOf a.addr).dedup).foldl (fun s l => loadLine s o n d scalar l) s
  | sp =>
    o.accs.foldl (fun s a =>
      match s.crews.find? o.crew with
      | some c => landRegs s o.team a.lane d n scalar (leNat (typedBytes (c.typed sp) a.addr n))
      | none => s) s

/-- A store is performed: ascending lanes, so the highest one wins a byte (R202). -/
def performStore (s : State) (o : Op) (sp : Space) (n : Nat) : State :=
  o.accs.foldl (fun s a =>
    match sp with
    | .global =>
      if o.atHome a.addr then
        coreWrite s (coreKey o.isl o.core) (some o.team) o.span a.attr o.strm a.addr (leBytes n a.data)
      else homeWrite s (some o.team) o.span none a.addr (leBytes n a.data)
    | sp => crewPut s o.crew (some o.team) sp a.addr (leBytes n a.data)) s

/-- The acquire of a scope by a core (R204, R313). -/
def acquireAt (s : State) (key : Nat) (sc : Option Scope) : State :=
  match sc with
  | some .island => l1Acquire s key
  | some .panel => l1Acquire s key
  | some .sys => l1Acquire s key
  | _ => s

/-- ATOM is performed at its home: ascending lanes (R230). -/
def performAtom (s : State) (o : Op) (t : ATy) (op : AOp) (d : Option Nat) (acq : Option Scope) : State :=
  let s := o.accs.foldl (fun s a =>
    let (old, s) := homeAtomic s (some o.team) t op a.addr a.data a.data2
    match d with
    | some d => landRegs s o.team a.lane d (4 * t.elem.regs) false old
    | none => s) s
  acquireAt s (coreKey o.isl o.core) acq

/-- RED is performed, update-only or at the home (R207, R231); `home` where the home must perform it. -/
def performRed (s : State) (o : Op) (t : ATy) (op : AOp) (home : Bool) : State :=
  let local_ := !home && Config.redLocal s.tick
  o.accs.foldl (fun s a => coreRed s (coreKey o.isl o.core) (some o.team) (local_ && o.atHome a.addr) t op a.addr a.data) s

/-- CFLUSH and CINV are performed on the lines of each access (R227). -/
def performFlush (s : State) (o : Op) (inv : Bool) (n : Nat) : State :=
  o.accs.foldl (fun s a =>
    (linesOf a.addr n).foldl (fun s l => flushLine s (coreKey o.isl o.core) inv l) s) s

/-- The effect of an operation on the team's island. -/
def performOp (s : State) (o : Op) : State :=
  let s := if o.kind.space = .global then o.accs.foldl (fun s a => touch s a.addr none) s else s
  match o.kind with
  | .load sp n scalar d => performLoad s o sp n d scalar
  | .store sp n => performStore s o sp n
  | .atom t op d acq => performAtom s o t op d acq
  | .red t op home => performRed s o t op home
  | .flush n => performFlush s o false n
  | .inv n => performFlush s o true n
  | _ => s

/-- An event: the state after it, or the state as it was where it is not due (log 4). -/
def happen (s : State) (o : Option State) : Result := .next (o.getD s)

/-- Whether the host's accesses are taken: after a warm reset none until READY reads 1 (R416); in recovery only writes of
management registers (R414). -/
def hostOpen (s : State) (mgmt : Bool) : Bool := (!s.host.warm || s.host.ready) && (!s.host.recovery || mgmt)
/-- An access of the host: ignored where it is not taken. -/
def hostTakes (s : State) (mgmt : Bool) (o : Option State) : Result := happen s (if hostOpen s mgmt then o else none)

/-- Whether a team has issued an acquire that is not yet performed: nothing of it issues (R233, R313). -/
def acquiring (s : State) (u : Nat) : Bool :=
  s.ops.any fun io => io.2.team = u && match io.2.kind with
    | .atom _ _ _ (some _) => true
    | .ratom _ _ _ (some _) => true
    | _ => false

/-- What a release at a scope waits for: loads and stores, and at panel scope remote operations too (R313). -/
def releasable (t : Team) (sc : Scope) : Bool :=
  t.cnt.ld = 0 && t.cnt.st = 0 && match sc with
    | .panel => t.cnt.rm = 0
    | .sys => t.cnt.rm = 0
    | _ => true
/-- The write-back of a release at a scope (R203, R313). -/
def releaseAt (s : State) (key : Nat) (sc : Scope) : State :=
  match sc with
  | .island => l1Clean s key
  | .panel => l1Clean s key
  | .sys => l1Clean s key
  | _ => s

end Sys2Proof.Machine
end

