-- ==== Sys2Proof/Machine/Memory.lean ====
section
/-! DEFINITION. Group 4: loads, stores, prefetch and cache maintenance (R220 to R227), with the events that complete
them: LOAD_DATA_WRITTEN and STORE_PERFORMED (R111). -/

namespace Sys2Proof.Machine

/-- Passes of a memory word: two cycles under .b64 (R106). -/
def szCycles (x : Issuer) (sz : Sz) : Nat :=
  passCycles x (match sz with
    | .b64 => 2
    | _ => 1) 0
def Issuer.each (x : Issuer) (act : List Nat) (ea : Nat → Nat) : List (Nat × Nat) :=
  let _ := x
  act.map fun l => (l, ea l)

/-- A load's data read in a transaction (R323). -/
def txLoad (s : State) (x : Issuer) (tx : Tx) (n d : Nat) (scalar : Bool) (hs : List Hit) (cycles : Nat) : State :=
  txWord s x tx true false (hs.map (·.acc n)) cycles fun s tx =>
    (tx, hs.foldl (fun g h =>
      let v := leNat (txBytes s tx.w h.pa n)
      if scalar then g.ssetN d (ceilDiv n 4) v else g.vsetN h.lane d (ceilDiv n 4) v) x.t.regs)

/-- A store's data buffered in a transaction (R323): ascending lanes. -/
def txStore (s : State) (x : Issuer) (tx : Tx) (n : Nat) (data : Nat → Nat) (hs : List Hit) (cycles : Nat) : State :=
  txWord s x tx false true (hs.map (·.acc n)) cycles fun _ tx =>
    (hs.foldl (fun tx h => { tx with w := tx.w.buffer false h.pa (leBytes n (data h.lane)) }) tx, x.t.regs)

/-- A global load of some lanes (R223), after the checks of its word. -/
def loadGlobal (s : State) (x : Issuer) (team : Bool) (n d : Nat) (strm : Bool) (las : List (Nat × Nat)) (cycles : Nat) :
    State :=
  checked s x team .load n las fun s hs =>
    let s := hs.foldl (fun s h => reach s x.c.kernel h.pa) s
    match x.t.tx with
    | some tx => txLoad s x tx n d team hs cycles
    | none =>
      enterOp s x .ld (.load .global n team d)
        (hs.map fun h => { lane := h.lane, addr := h.pa, attr := h.attr, va := h.va }) strm cycles

/-- A global store of some lanes (R223). -/
def storeGlobal (s : State) (x : Issuer) (team : Bool) (n : Nat) (strm : Bool) (las : List (Nat × Nat))
    (data : Nat → Nat) (cycles : Nat) : State :=
  checked s x team .store n las fun s hs =>
    let s := hs.foldl (fun s h => reach s x.c.kernel h.pa) s
    match x.t.tx with
    | some tx => txStore s x tx n data hs cycles
    | none =>
      enterOp s x .st (.store .global n)
        (hs.map fun h => { lane := h.lane, addr := h.pa, attr := h.attr, va := h.va, data := data h.lane }) strm cycles

/-- A lane-scope memory word: nothing when ACTIVE is empty, held by a full counter, REGBOUND for a missing register
(R76, R106, R111). -/
def memWord (s : State) (x : Issuer) (g : Guard) (ctr : Ctr) (bounds : Bool) (cycles : Nat)
    (go : List Nat → State) : State :=
  let act := x.lanes g
  if act.isEmpty then step8 s x x.t cycles
  else if x.full ctr then s
  else if !bounds then raiseLanes s x .regbound act 0
  else go act

/-- LD (R223). -/
def execLd (g : Guard) (sz : Sz) (strm : Bool) (d base : Operand) (ofs : BitVec 24) (s : State) : Result :=
  issue s fun x =>
    memWord s x g .ld (inBounds x.t (ceilDiv sz.bytes 4) d && inBounds x.t 2 base) (szCycles x sz) fun act =>
      loadGlobal s x false sz.bytes (vregOf x.t.regs d) strm (x.each act (ea64 x base ofs)) (szCycles x sz)

/-- ST (R223). -/
def execSt (g : Guard) (sz : Sz) (strm : Bool) (data base : Operand) (ofs : BitVec 24) (s : State) : Result :=
  issue s fun x =>
    memWord s x g .st (inBounds x.t (ceilDiv sz.bytes 4) data && inBounds x.t 2 base) (szCycles x sz) fun act =>
      storeGlobal s x false sz.bytes strm (x.each act (ea64 x base ofs)) (fun l => dataVal x l sz.bytes data)
        (szCycles x sz)

/-- LDS (R224): one access for the team. -/
def execLds (sz : Sz) (strm : Bool) (d base : SReg) (ofs : BitVec 24) (s : State) : Result :=
  issue s fun x =>
    if x.full .ld then s
    else loadGlobal s x true sz.bytes d.toNat strm [(0, ea64 x (.s base) ofs 0)] 1

/-- STS (R224). -/
def execSts (sz : Sz) (strm : Bool) (data base : SReg) (ofs : BitVec 24) (s : State) : Result :=
  issue s fun x =>
    if x.full .st then s
    else storeGlobal s x true sz.bytes strm [(0, ea64 x (.s base) ofs 0)] (fun _ => dataVal x 0 sz.bytes (.s data)) 1

/-- Bytes of the crew's allocation in a typed space (R195, R225). -/
def Issuer.limit (x : Issuer) : Space → Nat
  | .lspace => x.k.image.lspace
  | .aspace => x.k.image.aspace
  | .wspace => x.k.image.wspace
  | _ => 0

/-- A typed-space load (R225). -/
def loadTyped (s : State) (x : Issuer) (g : Guard) (sp : Space) (sz : Sz) (d base : Operand) (ofs : BitVec 24) : State :=
  memWord s x g .ld (inBounds x.t (ceilDiv sz.bytes 4) d && inBounds x.t 1 base) (szCycles x sz) fun act =>
    let las := x.each act (ea32 x base ofs)
    match worst (typedEaCauses x (x.limit sp) sz.bytes base ofs act) with
    | some b => raiseLanes s x b.cause b.lanes b.addr
    | none =>
      enterOp s x .ld (.load sp sz.bytes false (vregOf x.t.regs d)) (las.map fun la => { lane := la.1, addr := la.2 })
        false (szCycles x sz)

/-- A typed-space store (R225). -/
def storeTyped (s : State) (x : Issuer) (g : Guard) (sp : Space) (sz : Sz) (data base : Operand) (ofs : BitVec 24) :
    State :=
  memWord s x g .st (inBounds x.t (ceilDiv sz.bytes 4) data && inBounds x.t 1 base) (szCycles x sz) fun act =>
    let las := x.each act (ea32 x base ofs)
    match worst (typedEaCauses x (x.limit sp) sz.bytes base ofs act) with
    | some b => raiseLanes s x b.cause b.lanes b.addr
    | none =>
      enterOp s x .st (.store sp sz.bytes)
        (las.map fun la => { lane := la.1, addr := la.2, data := dataVal x la.1 sz.bytes data }) false (szCycles x sz)

/-- LDL (R225). -/
def execLdl (g : Guard) (sz : Sz) (_strm : Bool) (d base : Operand) (ofs : BitVec 24) (s : State) : Result :=
  issue s fun x => loadTyped s x g .lspace sz d base ofs
/-- STL (R225). -/
def execStl (g : Guard) (sz : Sz) (_strm : Bool) (data base : Operand) (ofs : BitVec 24) (s : State) : Result :=
  issue s fun x => storeTyped s x g .lspace sz data base ofs
/-- LDA (R225). -/
def execLda (g : Guard) (sz : Sz) (_strm : Bool) (d base : Operand) (ofs : BitVec 24) (s : State) : Result :=
  issue s fun x => loadTyped s x g .aspace sz d base ofs
/-- STA (R225). -/
def execSta (g : Guard) (sz : Sz) (_strm : Bool) (data base : Operand) (ofs : BitVec 24) (s : State) : Result :=
  issue s fun x => storeTyped s x g .aspace sz data base ofs

/-- PREF (R226): the lanes that would neither fault nor park bring their sectors into the L1; with the streaming hint
only into the L2. With a base at or above VREGS the word goes on and raises nothing: R226 says PREF raises no cause, where
R76 would have REGBOUND (the model's choice, log 35). -/
def execPref (g : Guard) (sz : Sz) (strm : Bool) (base : Operand) (ofs : BitVec 24) (s : State) : Result :=
  issue s fun x =>
    let act := x.lanes g
    let cyc := szCycles x sz
    if act.isEmpty || !inBounds x.t 2 base then step8 s x x.t cyc
    else
      let (cs, s) := checkLanes s x.c.isl (some x.c.key) x.k.tenant .load sz.bytes (x.each act (ea64 x base ofs))
      let hs := (hitsOf cs).filter fun h => (linesOf h.pa sz.bytes).all fun l => !irrevHolds s (some x.u) false l
      let s := hs.foldl (fun s h =>
        if strm then reachLine s (some x.u) false true h.pa sz.bytes (lineOf h.pa)
        else (coreRead s x.c.key (some x.u) h.attr false h.pa sz.bytes).2) s
      step8 s x x.t cyc

/-- CFLUSH and CINV (R227): checked as loads, counted by STCNT; they abort a transaction (R246). -/
def maintain (s : State) (x : Issuer) (g : Guard) (sz : Sz) (base : Operand) (ofs : BitVec 24) (kind : OpKind) : State :=
  if x.t.tx.isSome && !(x.lanes g).isEmpty then forbid s x
  else
    memWord s x g .st (inBounds x.t 2 base) (szCycles x sz) fun act =>
      checked s x false .load sz.bytes (x.each act (ea64 x base ofs)) fun s hs =>
        enterOp s x .st kind (hs.map fun h => { lane := h.lane, addr := h.pa, attr := h.attr, va := h.va }) false
          (szCycles x sz)

/-- CFLUSH. -/
def execCflush (g : Guard) (sz : Sz) (_strm : Bool) (base : Operand) (ofs : BitVec 24) (s : State) : Result :=
  issue s fun x => maintain s x g sz base ofs (.flush sz.bytes)
/-- CINV. -/
def execCinv (g : Guard) (sz : Sz) (_strm : Bool) (base : Operand) (ofs : BitVec 24) (s : State) : Result :=
  issue s fun x => maintain s x g sz base ofs (.inv sz.bytes)

/-! ## Completion -/

/-- Whether an operation reads the bytes it reaches in global memory. -/
def OpKind.reads (k : OpKind) (tick : Nat) : Bool :=
  match k with
  | .load sp .. => sp = .global
  | .atom .. => true
  | .red _ _ home => home || !Config.redLocal tick
  | _ => false

/-- The lanes a UE of an operation names: of a word of team scope, the team's whole mask (R337, R373). -/
def Op.blamed (s : State) (o : Op) (as : List Access) : Mask :=
  let all := ((s.teams.find? o.team).map fun t => t.flow.mask).getD 0
  match o.kind with
  | .load _ _ true _ => all
  | .ntfy => all
  | _ => maskOf (as.map (·.lane))

/-- After the last stores of a crew that has exited, no byte of them stays in its core's L1 (R322). -/
def cleanAfter (s : State) (o : Op) : State :=
  if o.ctr = .st && ((s.crews.find? o.crew).map (·.exited)).getD true then l1Clean s (coreKey o.isl o.core) else s

/-- An operation of a counter is performed and leaves, when it can be; a read of a poisoned sector raises UE (R391). One
that a locked line holds takes its place among those held (R215). -/
def complete (s : State) (id : Nat) (ctr : Ctr) : Option State :=
  match s.ops.find? id with
  | none => none
  | some o =>
    if o.ctr = ctr && opReady s id o then
      match o.accs.filter fun a => o.kind.reads s.tick && poisoned s a.addr o.kind.size with
      | [] => some (retireOp (cleanAfter (performOp s o) o) id o)
      | a :: as => some (ueRead (retireOp s id o) o.crew o.team (o.blamed s (a :: as)) a.va)
    else if o.ctr = ctr && opTurn s id o && opLocked s id o then some (hold s id)
    else none

/-- LOAD_DATA_WRITTEN: the data is written to the destination registers (R111). -/
def execLoadDataWritten (op : Nat) (s : State) : Result := happen s (complete s op .ld)
/-- STORE_PERFORMED: the write, flush or invalidation is performed at the team's island (R111). -/
def execStorePerformed (op : Nat) (s : State) : Result := happen s (complete s op .st)

end Sys2Proof.Machine
end

