-- ==== Sys2Proof/Machine/Atomic.lean ====
section
/-! DEFINITION. ATOM and RED (R228 to R233). -/

namespace Sys2Proof.Machine

/-- The operand of a lane: b, and under .cas the compare value and the new value (R229). -/
def atomOperand (s : State) (x : Issuer) (t : ATy) (op : AOp) (b : Operand) (l : Nat) : Nat × Nat :=
  let w := 32 * t.elem.regs
  match op with
  | .cas =>
    let v := regVal x.t.regs l (2 * t.elem.regs) b
    (v % 2 ^ w, v / 2 ^ w)
  | _ => (srcVal s x t.elem l b, 0)

/-- The bounds of an atomic's registers. -/
def atomBounds (x : Issuer) (t : ATy) (op : AOp) (d : Option Operand) (base b : Operand) : Bool :=
  inBounds x.t 2 base && inBounds x.t (if op = .cas then 2 * t.elem.regs else t.elem.regs) b &&
    (d.map (inBounds x.t t.elem.regs)).getD true

/-- What an acquire names: its scope. -/
def acqOf (ord : Ord) (sc : Scope) : Option Scope :=
  match ord with
  | .acq => some sc
  | .ar => some sc
  | _ => none
/-- Whether a releasing word outside a transaction must still wait (R233, R313). -/
def relHolds (x : Issuer) (ord : Ord) (sc : Scope) : Bool :=
  match ord with
  | .rel => x.t.tx.isNone && !releasable x.t sc
  | .ar => x.t.tx.isNone && !releasable x.t sc
  | _ => false
/-- The write-back of a releasing word outside a transaction. -/
def relDone (s : State) (x : Issuer) (ord : Ord) (sc : Scope) : State :=
  match ord with
  | .rel => if x.t.tx.isNone then releaseAt s x.c.key sc else s
  | .ar => if x.t.tx.isNone then releaseAt s x.c.key sc else s
  | _ => s

/-- ATOM or RED inside a transaction: ascending lanes on the buffered bytes (R323, R246). -/
def txAtomic (s : State) (x : Issuer) (tx : Tx) (t : ATy) (op : AOp) (d : Option Nat) (isRed : Bool) (b : Nat → Nat × Nat)
    (hs : List Hit) (cycles : Nat) : State :=
  let n := 4 * t.elem.regs
  txWord s x tx (!isRed) true (hs.map (·.acc n)) cycles fun s tx =>
    hs.foldl (fun (tr : Tx × Regs) h =>
      let old := leNat (txBytes s tr.1.w h.pa n)
      let o := b h.lane
      let new := atomNew t op old o.1 o.2
      ({ tr.1 with w := tr.1.w.buffer true h.pa (leBytes n new) },
        match d with
        | some d => tr.2.vsetN h.lane d t.elem.regs old
        | none => tr.2)) (tx, x.t.regs)

/-- The common part of ATOM and RED. -/
def atomicWord (s : State) (x : Issuer) (g : Guard) (t : ATy) (op : AOp) (ord : Ord) (sc : Scope) (d : Option Operand)
    (base b : Operand) (ctr : Ctr) (kind : OpKind) (isRed : Bool) : State :=
  let cyc := passCycles x t.elem.regs 0
  if relHolds x ord sc && !(x.lanes g).isEmpty then s
  else
    memWord s x g ctr (atomBounds x t op d base b) cyc fun act =>
      checked s x false .atomic (4 * t.elem.regs) (x.each act (ea64 x base 0)) fun s hs =>
        let val := atomOperand s x t op b
        match x.t.tx with
        | some tx => txAtomic s x tx t op (d.map (vregOf x.t.regs)) isRed val hs cyc
        | none =>
          enterOp (relDone s x ord sc) x ctr kind
            (hs.map fun h => { lane := h.lane, addr := h.pa, attr := h.attr, va := h.va, data := (val h.lane).1,
                               data2 := (val h.lane).2 }) false cyc

/-- ATOM (R230). -/
def execAtom (g : Guard) (t : ATy) (op : AOp) (ord : Ord) (scope : Scope) (d : Option Operand) (base b : Operand)
    (s : State) : Result :=
  issue s fun x =>
    atomicWord s x g t op ord scope d base b (if d.isSome then .ld else .st)
      (.atom t op (d.map (vregOf x.t.regs)) (acqOf ord scope)) false

/-- RED (R231): under determinism mode, and with ORD .rel, at the home (R207, R319). -/
def execRed (g : Guard) (t : ATy) (op : AOp) (ord : Ord) (scope : Scope) (base b : Operand) (s : State) : Result :=
  issue s fun x =>
    atomicWord s x g t op ord scope none base b .st (.red t op (x.k.launch.determ || decide (ord = .rel))) true

end Sys2Proof.Machine
end

