-- ==== Sys2Proof/Machine/Remote.lean ====
section
/-! DEFINITION. One-sided operations: PUT, PUTN, PUTM, GET, RATOM (R232 to R241), the packets they send in streams (R253,
R254), PACKET_DELIVERY, which performs them at their home, and REMOTE_ACKNOWLEDGE (R111). -/

namespace Sys2Proof.Machine

/-! ## Packets -/

/-- A packet of an operation enters its stream (R253). -/
def sendPacket (s : State) (op : Nat) (o : Op) (pa : Nat) (c : Cargo) : State :=
  let dst := homeOf o.isl pa
  let k := streamKey o.isl o.core dst
  let st := SMap.get {} s.streams k
  { s with streams := SMap.set {} s.streams k { st with next := st.next + 1 } }.addPkt
    { route := routeWord s o.isl dst false, src := o.isl, dst := dst, sep := o.core, sseq := st.next, pa := pa,
      tenant := o.tenant, cargo := c, op := op, at_ := o.isl, span := o.span, gen := s.panel.gen }

/-- The places that counter additions take in their streams and among the team's packets when their PUTN issues (R238, R253,
R254). -/
def placeAdds (s : State) (o : Op) : List (Nat × Nat) → List LateAdd × State
  | [] => ([], s)
  | a :: rest =>
    let dst := homeOf o.isl a.1
    let k := streamKey o.isl o.core dst
    let st := SMap.get {} s.streams k
    let s' := { s with streams := SMap.set {} s.streams k { st with next := st.next + 1 }, uid := s.uid + 1 }
    let (ls, s'') := placeAdds s' o rest
    ({ id := s.uid, pa := a.1, inc := a.2, dst := dst, sseq := st.next } :: ls, s'')

/-- Endpoint of a copy engine's context (Table 13-3). -/
def copySep (ctx : Nat) : Nat := 0x40 + ctx / 16
/-- A packet of a copy engine enters its stream (R251, R253). -/
def sendEngine (s : State) (isl tenant ctx no piece pa : Nat) (span : Option SpanTag) (c : Cargo) : State :=
  let dst := homeOf isl pa
  let k := streamKey isl (copySep ctx) dst
  let st := SMap.get {} s.streams k
  { s with streams := SMap.set {} s.streams k { st with next := st.next + 1 } }.addPkt
    { route := routeWord s isl dst false, src := isl, dst := dst, sep := copySep ctx, sseq := st.next, pa := pa,
      tenant := tenant, cargo := c, op := s.uid, eng := some (ctx, (no, piece)), at_ := isl, span := span,
      gen := s.panel.gen }

/-- A reply of the home to the issuer of a request. -/
def sendReply (s : State) (p : Packet) (c : Cargo) : State :=
  s.addPkt
    { route := routeWord s p.dst p.src false, src := p.dst, dst := p.src, sep := p.sep, sseq := p.sseq, pa := p.pa,
      tenant := p.tenant, cargo := c, op := p.op, eng := p.eng, at_ := p.dst, gen := s.panel.gen }

/-- A remote word that passed its checks: RMCNT rises, the operation and its packets are entered (R111, R234). `ps` lists
the packets in order; `ctrs` a PUTN's counters, `later` the counter additions that wait for the writes (R254). -/
def enterRemote (s : State) (x : Issuer) (kind : OpKind) (accs : List Access) (ps : List (Nat × Cargo))
    (ctrs : List Access) (later : List (Nat × Nat)) (cycles : Nat) : State :=
  let id := s.uid
  let o : Op :=
    { team := x.u, crew := x.t.crew, kernel := x.c.kernel, tenant := x.k.tenant, isl := x.c.isl, core := x.c.core,
      ctr := .rm, kind := kind, accs := accs, left := ps.length, ctrs := ctrs, span := x.span }
  let s := s.addOp o
  let s := ps.foldl (fun s p => sendPacket s id o p.1 p.2) s
  let (adds, s) := placeAdds s o later
  let s := if adds.isEmpty then s else { s with ops := s.ops.put id { o with adds := adds } }
  step8 s x { x.t with cnt := x.t.cnt.add .rm } cycles

/-! ## The words -/

/-- A lane-scope remote word: it aborts a transaction (R246), else goes on as a memory word counted by RMCNT. -/
def remoteWord (s : State) (x : Issuer) (g : Guard) (bounds : Bool) (cycles : Nat) (go : List Nat → State) : State :=
  if x.t.tx.isSome && !(x.lanes g).isEmpty then forbid s x else memWord s x g .rm bounds cycles go

def accOf (h : Hit) : Access := { lane := h.lane, addr := h.pa, attr := h.attr, va := h.va }

/-- PUT (R234, R235). -/
def execPut (g : Guard) (sz : Sz) (data base : Operand) (ofs : BitVec 24) (s : State) : Result :=
  issue s fun x =>
    let n := sz.bytes
    remoteWord s x g (inBounds x.t (ceilDiv n 4) data && inBounds x.t 2 base) (szCycles x sz) fun act =>
      checked s x false .rwrite n (x.each act (ea64 x base ofs)) fun s hs =>
        enterRemote s x (.put n) (hs.map accOf)
          (hs.map fun h => (h.pa, .write (leBytes n (dataVal x h.lane n data)))) [] [] (szCycles x sz)

/-- GET (R234, R236). -/
def execGet (g : Guard) (sz : Sz) (d base : Operand) (ofs : BitVec 24) (s : State) : Result :=
  issue s fun x =>
    let n := sz.bytes
    remoteWord s x g (inBounds x.t (ceilDiv n 4) d && inBounds x.t 2 base) (szCycles x sz) fun act =>
      checked s x false .rread n (x.each act (ea64 x base ofs)) fun s hs =>
        enterRemote s x (.get n (vregOf x.t.regs d)) (hs.map accOf) (hs.map fun h => (h.pa, .read n h.lane)) [] []
          (szCycles x sz)

/-- RATOM (R232). -/
def execRatom (g : Guard) (t : ATy) (op : AOp) (ord : Ord) (scope : Scope) (d : Option Operand) (base b : Operand)
    (s : State) : Result :=
  issue s fun x =>
    let cyc := passCycles x t.elem.regs 0
    if relHolds x ord scope && !(x.lanes g).isEmpty then s
    else
      remoteWord s x g (atomBounds x t op d base b) cyc fun act =>
        checked s x false .ratomic (4 * t.elem.regs) (x.each act (ea64 x base 0)) fun s hs =>
          let val := atomOperand s x t op b
          enterRemote (relDone s x ord scope) x (.ratom t op (d.map (vregOf x.t.regs)) (acqOf ord scope)) (hs.map accOf)
            (hs.map fun h => (h.pa, .atomic t op h.lane (val h.lane).1 (val h.lane).2)) [] [] cyc

/-- Causes in ascending lane order, so that the lowest reported lane gives the address (R377). -/
def byLane (cs : List (Nat × (Nat × Cause))) : List (Nat × (Nat × Cause)) :=
  ((List.range 1024).map fun l => cs.filter fun c => c.1 = l).flatten

/-- Causes and misses of two accesses per lane taken together. -/
def checked2 (s : State) (x : Issuer) (w1 : Want) (n1 : Nat) (l1 : List (Nat × Nat)) (w2 : Want) (n2 : Nat)
    (l2 : List (Nat × Nat)) (go : State → List Hit → List Hit → State) : State :=
  let (c1, s) := checkLanes s x.c.isl (some x.c.key) x.k.tenant w1 n1 l1
  let (c2, s) := checkLanes s x.c.isl (some x.c.key) x.k.tenant w2 n2 l2
  match worst (byLane (causesOf c1 ++ causesOf c2)) with
  | some b => blame s x false b
  | none =>
    match missesOf c1 ++ missesOf c2 with
    | [] => go s (hitsOf c1) (hitsOf c2)
    | ms => park s x false ms true

/-- PUTN (R237, R238, R254): the additions follow the writes in the counter's stream; where the instruction also writes
other islands, they wait for those writes. -/
def execPutn (g : Guard) (sz : Sz) (data base ctr : Operand) (inc : BitVec 8) (s : State) : Result :=
  issue s fun x =>
    let n := sz.bytes
    remoteWord s x g (inBounds x.t (ceilDiv n 4) data && inBounds x.t 2 base && inBounds x.t 2 ctr) (szCycles x sz)
      fun act =>
        let one := match ctr with
          | .s _ => true
          | _ => false
        let ctrs := (if one then [act.headD 0] else act).map fun l => (l, regVal x.t.regs l 2 ctr)
        checked2 s x .rwrite n (x.each act (ea64 x base 0)) .counter 4 ctrs fun s hs cs =>
          let writes := hs.map fun h => (h.pa, Cargo.write (leBytes n (dataVal x h.lane n data)))
          let late (c : Hit) : Bool := hs.any fun h => homeOf x.c.isl h.pa ≠ homeOf x.c.isl c.pa
          let now_ := (cs.filter fun c => !late c).map fun c => (c.pa, Cargo.notify inc.toNat)
          enterRemote s x (.put n) (hs.map accOf) (writes ++ now_) (cs.map accOf) ((cs.filter late).map fun c => (c.pa, inc.toNat))
            (szCycles x sz)

/-- The addresses a PUTM writes: lane, rank, address (R239). -/
def putmAddrs (x : Issuer) (act ranks : List Nat) (base : Operand) (stride : Nat) : List (Nat × (Nat × Nat)) :=
  (act.map fun l => ranks.map fun i => (l, (i, (ea64 x base 0 l + i * stride) % 2 ^ 64))).flatten

/-- PUTM (R239). -/
def execPutm (g : Guard) (sz : Sz) (data base mask : Operand) (stride : SReg) (s : State) : Result :=
  issue s fun x =>
    let n := sz.bytes
    remoteWord s x g (inBounds x.t (ceilDiv n 4) data && inBounds x.t 2 base) (szCycles x sz) fun act =>
      let m := src32 s x 0 mask
      let set := (x.k.isls.getD [])
      let ranks := (List.range 32).filter fun i => natBits m i i = 1
      let as := putmAddrs x act ranks base (x.t.regs.sget64 stride.toNat).toNat
      let (cs, s) := checkLanes s x.c.isl (some x.c.key) x.k.tenant .rwrite n (as.map fun a => (a.1, a.2.2))
      let outside := if ranks.any fun i => set.length ≤ i then act.map fun l => (l, (ea64 x base 0 l, Cause.mcastdomain))
        else []
      let strays := (as.zip cs).filterMap fun ac =>
        match ac.2.2.2 with
        | .ok pa _ => if some (homeOf x.c.isl pa) = set[ac.1.2.1]? then none
            else some (ac.1.1, (ac.1.2.2, Cause.mcastdomain))
        | _ => none
      match worst (byLane (causesOf cs ++ outside ++ strays)) with
      | some b => blame s x false b
      | none =>
        match missesOf cs with
        | [] =>
          let hs := hitsOf cs
          let s := hs.foldl (fun s h => reach s x.c.kernel h.pa) s
          enterRemote s x (.put n) (hs.map accOf)
            (hs.map fun h => (h.pa, .write (leBytes n (dataVal x h.lane n data)))) [] [] (szCycles x sz)
        | ms => park s x false ms true

/-! ## At the home -/

def Cargo.isReply : Cargo → Bool
  | .readData .. => true
  | .atomicReply .. => true
  | .ack => true
  | _ => false

def Cargo.isColl : Cargo → Bool
  | .coll .. => true
  | _ => false

/-- Whether a request reads its home. -/
def Cargo.reads : Cargo → Bool
  | .read .. => true
  | .atomic .. => true
  | .notify _ => true
  | _ => false

/-- Whether the requests of one team to one home keep their order: those of a sector and, behind all, a counter addition
(R238, R240). `pa` and `n` are of the earlier one. -/
def Packet.behind (p : Packet) (pa n : Nat) : Bool :=
  match p.cargo with
  | .notify _ => true
  | _ => sectorMeet pa n p.pa p.cargo.span
/-- Whether a request of the team that has sent a packet was issued before it and must be performed before it: a packet on
its way, or an addition not yet sent (R238, R240, R314). -/
def teamBefore (s : State) (id : Nat) (p : Packet) : Bool :=
  let teamOf (op : Nat) : Option Nat := (s.ops.find? op).map (·.team)
  let here (dst pa : Nat) : Bool := homeOf dst pa = homeOf p.dst p.pa
  p.eng.isNone &&
    ((s.pkts.any fun jq => jq.1 < id && !jq.2.cargo.isReply && teamOf jq.2.op = teamOf p.op && here jq.2.dst jq.2.pa &&
        p.behind jq.2.pa jq.2.cargo.span) ||
      s.ops.any fun io => some io.2.team = teamOf p.op && io.2.adds.any fun a => a.id < id && here a.dst a.pa && p.behind a.pa 4)

/-- Whether a request's turn has come at its home: in its stream and among the 256 that its source may have unacknowledged
(R253), after the team's earlier requests (R238, R240), with no irrevocable attempt in the way (R328). -/
def packetTurn (s : State) (id : Nat) (p : Packet) : Bool :=
  let st := SMap.get {} s.streams (streamKey p.src p.sep p.dst)
  let n := p.cargo.span
  let wr := p.cargo.writes
  p.sseq = st.perform && p.sseq < st.acked + 256 && !teamBefore s id p && (linesOf p.pa n).all fun l => !irrevHolds s none wr l
/-- Whether a request can be performed at its home: its turn has come, and no lock holds it (R215, R216). -/
def deliverable (s : State) (id : Nat) (p : Packet) : Bool :=
  packetTurn s id p && !lockHolds s id p.cargo.writes p.pa p.cargo.span && !heldBefore s id p.cargo.writes p.pa p.cargo.span

/-- The copy command, at the head of its context, that a copy engine's packet belongs to on an island. -/
def flyingCmd (s : State) (isl : Nat) (tag : Nat × (Nat × Nat)) : Option CopyCmd :=
  let y := SMap.get ({} : CopyCtx) (s.isl isl).copy tag.1
  y.cmds.head?.bind fun c => if c.no = tag.2.1 && c.fly.isSome then some c else none
/-- Whether a packet is of a copy command that has been discarded: what it would have written is not written. -/
def Packet.orphan (p : Packet) (s : State) : Bool :=
  match p.eng with
  | some tag => (flyingCmd s p.src tag).isNone
  | none => false
/-- An answer to a copy engine's packet. -/
def landChunk (s : State) (isl : Nat) (tag : Nat × (Nat × Nat)) (bs : Option (List Byte)) : State :=
  let got (f : CopyFly) : CopyFly :=
    { f with left := f.left - 1, got := match bs with
        | some bs => SMap.put f.got tag.2.2 bs
        | none => f.got }
  let cmd (c : CopyCmd) : CopyCmd := if c.no = tag.2.1 then { c with fly := c.fly.map got } else c
  s.updIsl isl fun i => { i with copy := SMap.upd i.copy tag.1 fun y => { y with cmds := y.cmds.map cmd } }
/-- An uncorrectable error that a copy engine's command meets (R244, R391). -/
def strikeChunk (s : State) (isl : Nat) (tag : Nat × (Nat × Nat)) (read : Bool) : State :=
  match flyingCmd s isl tag, (SMap.get ({} : CopyCtx) (s.isl isl).copy tag.1).crew with
  | some c, some cu =>
    let va := if read then c.src + c.row * c.sstr + c.pos else c.dst + c.row * c.dstr + c.pos
    strikeCrew s cu c.span.toList (some va) { cause := .ue, team := c.teamIdx, engine := 1, cmd := c.no, addr := va }
  | _, _ => s

/-- A request is performed at its home, and answered (R232, R235, R236, R238); a lane entry goes on over the mesh (R249). -/
def performRequest (s : State) (p : Packet) : State :=
  let k := streamKey p.src p.sep p.dst
  let st := SMap.get {} s.streams k
  let s := { s with streams := SMap.set {} s.streams k { st with perform := st.perform + 1 } }
  let s := if p.cargo.span = 0 then s else touch s p.pa (if p.eng.isSome then none else some p.src)
  match p.cargo with
  | .write bs => sendReply (homeWrite s none p.span none p.pa (if p.orphan s then [] else bs)) p .ack
  | .read n lane =>
    let (bs, s) := homeRead s none p.pa n
    sendReply s p (.readData lane bs)
  | .atomic t op lane b b2 =>
    let (old, s) := homeAtomic s none t op p.pa b b2
    sendReply s p (.atomicReply lane old)
  | .notify inc => sendReply (homeAdd s none p.pa inc) p .ack
  | .active e => (sendReply s p .ack).addMsg { e with port := opticalPort p.dst }
  | _ => s

/-- A request meets a poisoned sector (R391): it takes its turn in its stream and is answered, and the issuing crew gets
UE. -/
def requestUe (s : State) (p : Packet) : State :=
  let k := streamKey p.src p.sep p.dst
  let st := SMap.get {} s.streams k
  let s := sendReply { s with streams := SMap.set {} s.streams k { st with perform := st.perform + 1 } } p .ack
  match p.eng, s.ops.find? p.op with
  | some tag, _ => strikeChunk s p.src tag true
  | none, some o =>
    let hit := (o.accs ++ o.ctrs).filter fun a => a.addr = p.pa
    ueRead s o.crew o.team (o.blamed s hit) ((hit.head?.map (·.va)).getD 0)
  | none, none => s

/-- One packet of an operation is acknowledged or has landed; the additions that waited for the writes are sent (R254). -/
def landOne (s : State) (id : Nat) : State :=
  match s.ops.find? id with
  | none => s
  | some o =>
    let left := o.left - 1
    if left = 0 && !o.adds.isEmpty then
      let o' := { o with left := o.adds.length, adds := [] }
      o.adds.foldl (fun s a => sendAdd s id o' a (.notify a.inc)) { s with ops := s.ops.put id o' }
    else { s with ops := s.ops.put id { o with left := left } }

/-- A reply lands at its issuer (R236, R382): its team's registers, running or saved, receive the data. -/
def landReply (s : State) (p : Packet) : State :=
  let k := streamKey p.dst p.sep p.src
  let st := SMap.get {} s.streams k
  let s := { s with streams := SMap.set {} s.streams k { st with acked := st.acked + 1 } }
  let s := match p.eng, p.cargo with
    | some tag, .readData _ bs => landChunk s p.dst tag (some bs)
    | some tag, _ => landChunk s p.dst tag none
    | none, _ => s
  let s := match s.ops.find? p.op, p.cargo with
    | some o, .readData lane bs =>
      match o.kind with
      | .get n d => landRegs s o.team lane d n false (leNat bs)
      | _ => s
    | some o, .atomicReply lane old =>
      match o.kind with
      | .ratom t _ (some d) _ => landRegs s o.team lane d (4 * t.elem.regs) false old
      | _ => s
    | _, _ => s
  landOne s p.op

/-- PACKET_DELIVERY: a packet at its destination's compute stack is performed in its stream's order (R238, R253), or its
reply lands. -/
def execPacketDelivery (pkt : Nat) (s : State) : Result :=
  happen s <|
    match s.pkts.find? pkt with
    | none => none
    | some p =>
      if !p.arrived || !p.whole then none
      else if p.cargo.isReply then some (landReply { s with pkts := s.pkts.del pkt } p)
      else if p.cargo = .returned then none
      else if p.cargo.isColl then
        some { s with
          pkts := s.pkts.del pkt
          collPkts := match p.cargo with
            | .coll id _ => SMap.upd s.collPkts id fun q => { q with left := q.left - 1 }
            | _ => s.collPkts }
      else if deliverable s pkt p then
        let s := { s with pkts := s.pkts.del pkt }
        if p.cargo.reads && poisoned s p.pa p.cargo.span then some (requestUe s p)
        else some (performRequest s p)
      else if packetTurn s pkt p && lockOnly s pkt p.cargo.writes p.pa p.cargo.span then some (hold s pkt)
      else none

/-- The core on which the crew of an operation stands now; a saved crew acquires where it is restored (R233, R381). -/
def Op.keyNow (o : Op) (s : State) : Nat := ((s.crews.find? o.crew).map (·.key)).getD (coreKey o.isl o.core)

/-- REMOTE_ACKNOWLEDGE: every write and addition of the operation is acknowledged, or its data has landed (R111). -/
def execRemoteAcknowledge (op : Nat) (s : State) : Result :=
  happen s <|
    match s.ops.find? op with
    | none => none
    | some o =>
      if o.ctr = .rm && o.left = 0 && o.adds.isEmpty then
        let s := retireOp s op o
        some (match o.kind with
          | .ratom _ _ _ acq => acquireAt s (o.keyNow s) acq
          | _ => s)
      else none

end Sys2Proof.Machine
end

