-- ==== Sys2Proof/Machine/Engine.lean ====
section
/-! DEFINITION. What engine commands share: barrier objects (R345, R346), timelines and their mirror lines (R316, R355),
W-space (R197), and the pages an engine reaches (R204, R214, R244). -/

namespace Sys2Proof.Machine

/-! ## Barrier objects -/

/-- Word 0 and word 1 of a barrier object (Table 18-3) after one update (R346). -/
def barrierNext (w0 w1 b : Nat) (arrive : Bool) : Nat :=
  let pending := natBits w0 35 0 - b
  let left := if arrive then natBits w0 47 40 - 1 else natBits w0 47 40
  let rest := w0 - natBits w0 36 0 - natBits w0 47 40 * 2 ^ 40
  let phase := natBits w0 36 36
  if pending = 0 ∧ left = 0 then
    rest + natBits w1 35 0 + (1 - phase) * 2 ^ 36 + natBits w0 55 48 * 2 ^ 40
  else rest + pending + phase * 2 ^ 36 + left * 2 ^ 40

/-- Update(obj, b, arrive) at an offset of a crew's L-space, indivisible; the watched word changes (R333, R346). -/
def barrierUpdate (s : State) (cu : Nat) (by_ : Option Nat) (off b : Nat) (arrive : Bool) : State :=
  match s.crews.find? cu with
  | none => s
  | some c =>
    let w0 := leNat (typedBytes c.lmem off 8)
    let w1 := leNat (typedBytes c.lmem (off + 8) 8)
    crewPut s cu by_ .lspace off (leBytes 8 (barrierNext w0 w1 b arrive))

/-- Whether an irrevocable attempt that has read a barrier object holds its update (R333). -/
def barHeld (s : State) (cu : Nat) (bar : Option Nat) : Bool :=
  match bar with
  | some o => wordHeld s cu none o 16
  | none => false

/-- The causes of a barrier operand at issue (R244, R286, R345). -/
def barrierCauses (x : Issuer) (off : Nat) : List (Nat × (Nat × Cause)) :=
  typedCauses x.k.image.lspace 16 [(0, off)]
/-- The L-space offset a barrier operand names. -/
def barOffset (x : Issuer) (bar : Bar) : Option Nat := bar.map fun r => (x.t.regs.sget r.toNat).toNat
def barCauses (x : Issuer) (bar : Bar) : List (Nat × (Nat × Cause)) :=
  match barOffset x bar with
  | some off => barrierCauses x off
  | none => []

/-! ## Timelines -/

/-- What a completed command does beside its data: its barrier's last update, then the mirror (R316). -/
def completionRelease (s : State) (cu : Nat) (bar : Option Nat) (bytes off timeline : Nat) : State :=
  let s := match bar with
    | some o => barrierUpdate s cu none o bytes true
    | none => s
  mirrorWrite s cu off timeline

/-! ## Deadline requests (R217, R218) -/

/-- A request enters the controllers' queue (R218). -/
def askDeadline (s : State) (d : Deadline) : Nat × State :=
  (s.uid, { s with deadlines := s.deadlines.put s.uid d, uid := s.uid + 1 })
/-- A unit of a tenant that a pre-emption stops asks for its save, to be served within 10 µs of its stop (R381). -/
def askSave (s : State) (isl tenant : Nat) : State :=
  (askDeadline s { isl := isl, latest := s.now + 20000, save := some tenant }).2
/-- A deadline request is served: late ones are counted (R218). -/
def serveDeadline (s : State) (req : Option Nat) : State :=
  match req with
  | none => s
  | some r =>
    match s.deadlines.find? r with
    | none => s
    | some d =>
      let s := if d.latest < s.now then s.updIsl d.isl fun i => { i with missed := i.missed + 1 } else s
      { s with deadlines := SMap.del s.deadlines r }

/-! ## W-space -/

def wAlloc (s : State) (c : Crew) : Option WAlloc :=
  (s.isl c.isl).wspace.find? fun w => w.kernel = c.kernel && w.cluster = c.core / 4
def wBytes (s : State) (c : Crew) (a n : Nat) : List Byte :=
  match wAlloc s c with
  | some w => typedBytes w.mem a n
  | none => typedBytes [] a n
def wPut (s : State) (c : Crew) (a : Nat) (bs : List Byte) : State :=
  s.updIsl c.isl fun i => { i with wspace := i.wspace.map fun w =>
    if w.kernel = c.kernel && w.cluster = c.core / 4 then { w with mem := typedPut w.mem a bs } else w }

/-! ## The pages an engine reaches -/

/-- What an engine meets at a range of global memory: its physical pieces, a cause, or a missing translation. -/
inductive Reached
  | ok (ps : List (Nat × Nat))
  | cause (c : Cause) (va : Nat)
  | miss (va : Nat) (demand copy : Bool)
deriving DecidableEq, Repr

/-- The checks of an engine's access to a range, piece by piece in ascending order (R244). -/
def reachPieces (s : State) (isl tenant : Nat) (want : Want) : List (Nat × Nat) → Reached × State
  | [] => (.ok [], s)
  | (va, n) :: rest =>
    match checkAccess s isl none tenant want 1 va with
    | (.cause c, s) => (.cause c va, s)
    | (.miss d w, s) => (.miss va d w, s)
    | (.ok pa _, s) =>
      match reachPieces s isl tenant want rest with
      | (.ok ps, s) => (.ok ((pa, n) :: ps), s)
      | r => r
def reachRange (s : State) (isl tenant : Nat) (want : Want) (va n : Nat) : Reached × State :=
  reachPieces s isl tenant want (pieces va n)

def writePieces (s : State) (tag : Option SpanTag) : List (Nat × Nat) → List Byte → State
  | [], _ => s
  | (pa, n) :: rest, bs =>
    writePieces (homeWrite (touch s pa none) none tag none pa (bs.take n)) tag rest (bs.drop n)

/-- A missing translation of a context enters the fault buffer (R214). -/
def engineFault (s : State) (isl : Nat) (who : Faulter) (k : Kernel) (va : Nat) (write demand copy : Bool) : State :=
  faultEnter s isl
    { who := who, tenant := k.tenant, va := va, write := write, demand := demand, copyWanted := copy, kernelSeq := k.seq }
    k.queue

end Sys2Proof.Machine
end

