-- ==== Sys2Proof/Machine/Array.lean ====
section
/-! DEFINITION. The matrix engine's arithmetic: tiles, weight planes, passes (R163 to R168, R267 to R270), the drain
chain and activation tables (R278 to R280), and the phases of iterated commands (R281 to R284, R301). Every sum is a
value of the wide accumulator WA, held as its 40 bits. -/

namespace Sys2Proof.Machine

/-! ## Dense pieces of sparse maps -/

/-- The keys from `lo` to `lo + n - 1` take the values of `f`; 0 is not listed. -/
def fillRange {α : Type} [DecidableEq α] (d : α) (m : SMap α) (lo n : Nat) (f : Nat → α) : SMap α :=
  m.filter (fun kv => kv.1 < lo)
    ++ (List.range n).filterMap (fun j => if f j = d then none else some (lo + j, f j))
    ++ m.filter (fun kv => lo + n ≤ kv.1)

/-! ## Values -/

/-- RoundWA (R152). -/
def roundWA (x : FVal) : Nat := FFmt.wa.round .ne x
def waVal (x : Nat) : FVal := FFmt.wa.val x
/-- The exact sum as the engine forms it: +0 where terms cancel. -/
def addV (a b : FVal) : FVal := FVal.add .ne a b
/-- RoundTZ(·, BF16) of a WA element, as the feedback path and the plane take it (R166, R281, R282). -/
def toBf16 (x : Nat) : Nat := FFmt.bf16.round .tz (waVal x)

/-- An A or B element as the array reads it (R154, R155): subnormals are zeros of their sign, INT8 is signed. -/
def elemVal : MFmt → Nat → FVal
  | .bf16, x => if FFmt.bf16.isSub x then .fin (FFmt.bf16.val x).isNeg 0 0 else FFmt.bf16.val x
  | .fp16, x => if FFmt.fp16.isSub x then .fin (FFmt.fp16.val x).isNeg 0 0 else FFmt.fp16.val x
  | .int8, x => FVal.ofInt false (ival true 8 x) 0
  | .lns6, x => lnsVal x

/-- K positions of a plane (Table 14-1). -/
def planeK : MFmt → Nat
  | .bf16 => 512
  | .fp16 => 512
  | .int8 => 1024
  | .lns6 => 2048

/-- The format of a code of fmt (Table 8-9). -/
def fmtCode (n : Nat) : Option MFmt :=
  match n with
  | 0 => some .bf16
  | 1 => some .fp16
  | 2 => some .int8
  | 3 => some .lns6
  | _ => none
/-- A legal format pair (R163). -/
def legalPair (a b : MFmt) : Bool :=
  a = b || (a = .bf16 && b = .fp16) || (a = .fp16 && b = .bf16)

def fmtA (f : BitVec 24) : Option MFmt := fmtCode (natBits f.toNat 3 0)
def fmtB (f : BitVec 24) : Option MFmt := fmtCode (natBits f.toNat 7 4)
/-- SCALEA and SCALEB (R163). -/
def scaleA (f : BitVec 24) : Int := ival true 8 (natBits f.toNat 15 8)
def scaleB (f : BitVec 24) : Int := ival true 8 (natBits f.toNat 23 16)

/-! ## One element of a pass -/

/-- The exact sum of one group of 32 products (R164); `k` counts the positions left. -/
def groupSum (fa fb : MFmt) (a b : Nat → Nat) (g : Nat) : FVal :=
  (List.range 32).foldl (fun s j => addV s (FVal.mul (elemVal fa (a (32 * g + j))) (elemVal fb (b (32 * g + j)))))
    (.fin false 0 0)
/-- R164: the groups in ascending k; a group past the operand's K adds 0. -/
def passFloat (fa fb : MFmt) (scale : Int) (kA : Nat) (a b : Nat → Nat) (c : Nat) : Nat :=
  (List.range (planeK fb / 32)).foldl (fun c g =>
    let s := if 32 * g < kA then groupSum fa fb a b g else .fin false 0 0
    roundWA (addV (waVal c) (waVal (roundWA (s.scale scale))))) c

/-- One LNS6 product in units of 2^-20 (R165). -/
def lnsTerm (a b : Nat) : Int :=
  let l := lnsL a + lnsL b
  let t : Nat := lnsT (l % 4).toNat * 2 ^ (l / 4 + 8).toNat
  if lnsSign a = lnsSign b then (t : Int) else -(t : Int)
/-- R165. -/
def passLns (scale : Int) (a b : Nat → Nat) (c : Nat) : Nat :=
  let ks := List.range (planeK .lns6)
  if ks.any fun k => a k = 0x30 || b k = 0x30 then FFmt.wa.nanBits
  else
    let acc := ks.foldl (fun s k => if a k = 0x10 || b k = 0x10 then s else s + lnsTerm (a k) (b k)) (0 : Int)
    roundWA (addV (waVal c) (waVal (roundWA (FVal.ofInt false acc (scale - 20)))))

/-- One element of a pass: A elements of format `fa` at K positions below `kA`, B elements of format `fb`. -/
def passElem (fa fb : MFmt) (scale : Int) (kA : Nat) (a b : Nat → Nat) (c : Nat) : Nat :=
  if fb = .lns6 then passLns scale a b c else passFloat fa fb scale kA a b c

/-! ## Tiles -/

def tileKey (bank c i n : Nat) : Nat := ((8 * bank + c) * 256 + i) * 256 + n
/-- The WA bits of element (i, n) of tile c in a bank. -/
def MxEngine.tile (e : MxEngine) (bank c i n : Nat) : Nat := (SMap.get 0 e.tiles (tileKey bank c i n)).toNat
/-- Row i of a tile. -/
def MxEngine.setRow (e : MxEngine) (bank c i : Nat) (f : Nat → Nat) : MxEngine :=
  { e with tiles := fillRange 0 e.tiles (tileKey bank c i 0) 256 fun n => BitVec.ofNat 40 (f n) }
/-- Every row of a tile, from `f i n`. -/
def MxEngine.setTile (e : MxEngine) (bank c : Nat) (f : Nat → Nat → Nat) : MxEngine :=
  { e with tiles := fillRange 0 e.tiles (tileKey bank c 0 0) 65536 fun j => BitVec.ofNat 40 (f (j / 256) (j % 256)) }
/-- A whole bank set to +0. -/
def MxEngine.clearBank (e : MxEngine) (bank : Nat) : MxEngine :=
  { e with tiles := fillRange 0 e.tiles (tileKey bank 0 0 0) 524288 fun _ => 0 }

/-! ## Planes and A rows -/

/-- Code j of the packed LNS6 layout from an offset (R159). -/
def lnsAt (m : SMap Byte) (a j : Nat) : Nat :=
  leNat (typedBytes m (a + 12 * (j / 16)) 12) / 2 ^ (6 * (j % 16)) % 64

/-- Element (k, n) of a B tile at an offset of W-space (Table 14-1). -/
def bElem (m : SMap Byte) (f : MFmt) (base k n : Nat) : Nat :=
  match f with
  | .int8 => leNat (typedBytes m (base + k / 64 * 16384 + 64 * n + k % 64) 1)
  | .lns6 => lnsAt m (base + k / 64 * 16384 + 64 * n) (k % 64)
  | _ => leNat (typedBytes m (base + k / 32 * 16384 + 64 * n + 2 * (k % 32)) 2)
/-- Bytes of a B tile. -/
def tileBytes (f : MFmt) : Nat := if f = .lns6 then 524288 else 262144
/-- The plane MWLD loads (R290). -/
def loadPlane (m : SMap Byte) (f : MFmt) (base : Nat) : SMap Nat :=
  fillRange 0 [] 0 (256 * planeK f) fun j => bElem m f base (j / 256) (j % 256)

/-- Bytes of an A row (R292). -/
def rowBytes (f : MFmt) : Nat := if f = .lns6 then 1536 else 1024
/-- Element k of an A row at an offset of A-space (R292). -/
def aElem (m : SMap Byte) (f : MFmt) (a k : Nat) : Nat :=
  match f with
  | .int8 => leNat (typedBytes m (a + k) 1)
  | .lns6 => lnsAt m a k
  | _ => leNat (typedBytes m (a + 2 * k) 2)

/-- An A row of a pass: the C row it adds into, and its elements. -/
structure ARow where
  m : Nat
  a : Nat → Nat

/-- One pass (R268, R292): every row read from the engine as it stood at the start. -/
def runPass (e : MxEngine) (bank ct : Nat) (acc : Bool) (fa fb : MFmt) (scale : Int) (kA : Nat) (plane : SMap Nat)
    (rows : List ARow) : MxEngine :=
  rows.foldl (fun e' r => e'.setRow bank ct r.m fun n =>
    passElem fa fb scale kA r.a (fun k => SMap.get 0 plane (256 * k + n)) (if acc then e.tile bank ct r.m n else 0)) e

/-- The rows of the slabs, stacked from a C row (R276, R292). -/
def slabRows (s : State) (f : MFmt) : List Slab → Nat → List ARow
  | [], _ => []
  | x :: rest, m =>
    let (mem, base) := match s.crews.find? x.crew with
      | some c => (c.amem, x.off)
      | none => ((s.core x.key).astore, x.abase + x.off)
    ((List.range x.rows).map fun i => { m := m + i, a := fun k => aElem mem f (base + i * rowBytes f) k })
      ++ slabRows s f rest (m + x.rows)
/-- The rows of a feedback pass (R281, R293). -/
def feedbackRows (e : MxEngine) (bank ft : Nat) (tr : Bool) (row0 rows : Nat) : List ARow :=
  (List.range rows).map fun i =>
    { m := row0 + i, a := fun k => toBf16 (if tr then e.tile bank ft k (row0 + i) else e.tile bank ft (row0 + i) k) }

/-! ## The drain chain (R278, R279, R296) -/

def tableWord (v : SMap Word) (off : Nat) : Nat := (SMap.get 0 v (off / 4)).toNat
/-- The exact scaled numbers of finite values, at the least of their exponents. -/
def common3 : FVal → FVal → FVal → Option (Int × (Int × Int))
  | .fin a m e, .fin b n g, .fin c p h =>
    let lo := min e (min g h)
    some (scaled a m e lo, (scaled b n g lo, scaled c p h lo))
  | _, _, _ => none
def tableLo (v : SMap Word) : FVal := FFmt.fp32.val (tableWord v 0)
def tableHi (v : SMap Word) : FVal := FFmt.fp32.val (tableWord v 4)
/-- Whether LO and HI give a range (R280, R302). -/
def tableValid (v : SMap Word) : Bool :=
  match tableLo v, tableHi v with
  | .fin .., .fin .. => (tableLo v).lt (tableHi v)
  | _, _ => false
/-- The segment of a number (R279, R280). -/
def tableSeg (v : SMap Word) (x : FVal) : Nat :=
  if !tableValid v then 0
  else
    match x with
    | .inf neg => if neg then 0 else 255
    | x =>
      match common3 x (tableLo v) (tableHi v) with
      | some (x, (lo, hi)) => (max 0 (min 255 ((x - lo) * 256 / (hi - lo)))).toNat
      | none => 0
/-- Act(V, x) as WA bits (R279). -/
def tableAct (v : SMap Word) (x : FVal) : Nat :=
  if x.isNan then FFmt.wa.nanBits
  else
    let s := tableSeg v x
    roundWA (addV (FVal.mul (FFmt.fp32.val (tableWord v (16 + 8 * s))) x) (FFmt.fp32.val (tableWord v (20 + 8 * s))))

/-- Narrow(x, F) (R166, R278). -/
def narrow (f : MFmt) (x : FVal) : Nat :=
  match f with
  | .bf16 => FFmt.bf16.round .tz x
  | .fp16 => FFmt.fp16.round .tz x
  | .int8 => trunc 8 (roundInt true 8 .tz x)
  | .lns6 => lnsTZ x

/-- One element through the chain (R278). -/
def drainElem (bias : Option FVal) (table : Option (SMap Word)) (quant : Option MFmt) (rs : Int) (c : Nat) : Nat :=
  let x := match bias with
    | some b => roundWA (addV (waVal c) b)
    | none => c
  let x := match table with
    | some v => tableAct v (waVal x)
    | none => x
  match quant with
  | some f => narrow f ((waVal x).scale rs)
  | none => FFmt.fp32.round .tz (waVal x)

/-- Bytes of an output row (R296). -/
def drainBytes : Option MFmt → Nat
  | none => 1024
  | some .int8 => 256
  | some .lns6 => 192
  | some _ => 512
/-- The bytes of a row of 256 outputs. -/
def drainRow (quant : Option MFmt) (f : Nat → Nat) : List Byte :=
  match quant with
  | none => ((List.range 256).map fun n => leBytes 4 (f n)).flatten
  | some .int8 => (List.range 256).map fun n => BitVec.ofNat 8 (f n)
  | some .lns6 => ((List.range 16).map fun g => leBytes 12 (packElems 6 (fun j => f (16 * g + j)) 16)).flatten
  | some _ => ((List.range 256).map fun n => leBytes 2 (f n)).flatten

/-! ## Iterated commands (Table 14-4) -/

/-- The tile the plane takes as B (R282, R301). -/
def planeOf (e : MxEngine) (bank c : Nat) : SMap Nat :=
  fillRange 0 [] 0 65536 fun j => toBf16 (e.tile bank c (j / 256) (j % 256))
/-- dst := A·B, A through feedback and B through the plane: the engine and the plane (R301). -/
def tileProduct (e : MxEngine) (bank dst a : Nat) (tr : Bool) (b : Nat) : MxEngine × SMap Nat :=
  let plane := planeOf e bank b
  (runPass e bank dst false .bf16 .bf16 0 256 plane (feedbackRows e bank a tr 0 256), plane)

/-- Σ kᵢ · tᵢ per element, formed exactly and rounded once (R282). -/
def combineElem : List (FVal × Nat) → FVal
  | [] => .fin false 0 0
  | [(k, x)] => FVal.mul k (waVal x)
  | (k, x) :: rest => addV (FVal.mul k (waVal x)) (combineElem rest)

/-- d of one element in FP32 (R283). -/
def residElem (xn x : Nat) : Nat := FFmt.fp32.round .ne (addV (waVal xn) (waVal x).neg)
def tileElems : List (Nat × Nat) := (List.range 65536).map fun j => (j / 256, j % 256)
/-- The residual of two tiles (R283). -/
def residual (e : MxEngine) (bank xn x : Nat) (frob : Bool) : Nat :=
  let d (ij : Nat × Nat) : Nat := residElem (e.tile bank xn ij.1 ij.2) (e.tile bank x ij.1 ij.2)
  if frob then
    tileElems.foldl (fun r ij =>
      FFmt.fp32.round .ne (addV (FFmt.fp32.val r) (FVal.mul (FFmt.fp32.val (d ij)) (FFmt.fp32.val (d ij))))) 0
  else
    tileElems.foldl (fun r ij =>
      let a := d ij % 2 ^ 31
      if FFmt.fp32.isNan r || FFmt.fp32.isNan a then FFmt.fp32.nanBits else max r a) 0

end Sys2Proof.Machine
end

