-- ==== Sys2Proof/Machine/Matrix.lean ====
section
/-! DEFINITION. The matrix family (15_matrix_instructions): contexts, gangs and their latch, the issue of commands, MTLD
and MTST, MSTAT; and the events that perform commands (R273, R274, R280, R283). -/

namespace Sys2Proof.Machine

/-! ## Contexts and banks (R271, R272, R287, R383) -/

/-- Whether a context can be granted to a crew of a tenant (R271). -/
def ctxGrantable (s : State) (key tenant n : Nat) : Bool :=
  let e := s.engine key
  (e.ctx n).crew.isNone && match (e.ctx (1 - n)).crew with
    | none => true
    | some cu =>
      match s.crews.find? cu with
      | none => true
      | some c => ((s.kernels.find? c.kernel).map (·.tenant)) = some tenant
/-- The lowest context that can be granted. -/
def grantable (s : State) (key tenant : Nat) : Option Nat := [0, 1].find? fun n => ctxGrantable s key tenant n

def MxEngine.owner (e : MxEngine) (b : Nat) : Option Nat := if b = 0 then e.owner0 else e.owner1
def MxEngine.setOwner (e : MxEngine) (b : Nat) (o : Option Nat) : MxEngine :=
  if b = 0 then { e with owner0 := o } else { e with owner1 := o }
/-- Whether a bank has an owner other than context n (R383). -/
def MxEngine.bankTaken (e : MxEngine) (n b : Nat) : Bool :=
  (e.owner b).isSome || ((e.ctx (1 - n)).crew.isSome && (e.ctx (1 - n)).bank = b)

/-- The tiles of a bank as SPILL saves them: RoundNE to FP32 (R166, R383). -/
def spillTiles (e : MxEngine) (bank : Nat) : SMap Word :=
  fillRange 0 [] 0 524288 fun j =>
    BitVec.ofNat 32 (FFmt.fp32.round .ne (waVal (SMap.get 0 e.tiles (524288 * bank + j)).toNat))
/-- Saved tiles written back to a bank, exactly. -/
def MxEngine.fillBank (e : MxEngine) (bank : Nat) (m : SMap Word) : MxEngine :=
  { e with tiles := fillRange 0 e.tiles (524288 * bank) 524288 fun j =>
      BitVec.ofNat 40 (roundWA (FFmt.fp32.val (SMap.get 0 m j).toNat)) }

/-- The bank a context receives: its own number, else the other, else that of the context saved earliest, which is
spilled (R272, R383). -/
def takeBank (s : State) (isl key n : Nat) : Nat × State :=
  let e := s.engine key
  match [n, 1 - n].find? fun b => !e.bankTaken n b with
  | some b => (b, s)
  | none =>
    let owned := [0, 1].filter fun b => (e.owner b).isSome
    let order (b : Nat) : Nat :=
      (((s.isl isl).saved.find? fun v => some v.crew = e.owner b).map (·.order)).getD 0
    let b := (argMin order owned).getD n
    let spill (v : SavedMx) : SavedMx :=
      if e.owner b = some v.crew then { v with tiles := some (spillTiles e b) } else v
    let s := s.updIsl isl fun i => { i with saved := i.saved.map spill }
    (b, s.updEngine key fun e => e.setOwner b none)

/-- The tables are zeroed for a tenant other than the last that held a context (R280). -/
def MxEngine.forTenant (e : MxEngine) (tenant : Nat) : MxEngine :=
  if e.lastTenant = some tenant then e
  else { e with v0 := [], v1 := [], sel := false, lastTenant := some tenant }

/-- A context as it is granted (R271). -/
def MxCtx.fresh (x : MxCtx) (cu bank : Nat) : MxCtx :=
  { crew := some cu, bank := bank, timeline := x.timeline, issued := x.timeline }

/-- The grant of a context to a crew: its timeline goes on and is written to the mirror (R287, R355). -/
def grantCtx (s : State) (cu n : Nat) : State :=
  match s.crews.find? cu with
  | none => s
  | some c =>
    let tenant := ((s.kernels.find? c.kernel).map (·.tenant)).getD 0
    let (b, s) := takeBank s c.isl c.cluster n
    let s := s.updEngine c.cluster fun e =>
      ((e.clearBank b).setCtx n ((e.ctx n).fresh cu b)).forTenant tenant
    mirrorWrite (s.updCrew cu fun c => { c with mxCtx := some n }) cu mirrorMatrix ((s.engine c.cluster).ctx n).timeline

/-- MACQ (R287). -/
def execMacq (p : BitVec 3) (s : State) : Result :=
  issue s fun x =>
    if x.t.tx.isSome then forbid s x
    else
      let put (s : State) (m : Mask) : State := step8 s x { x.t with regs := x.t.regs.pset p.toNat m } 1
      if x.c.mxCtx.isSome then put s (fullMask x.t.lanes)
      else
        match grantable s x.c.cluster x.k.tenant with
        | some n => put (grantCtx s x.t.crew n) (fullMask x.t.lanes)
        | none => put s 0

/-- A word of the group other than MACQ (R285): in a transaction it aborts it; it is held until STCNT is 0. -/
def mxWord (s : State) (f : Issuer → State) : Result :=
  issue s fun x => if x.t.tx.isSome then forbid s x else if x.t.cnt.st ≠ 0 then s else f x
/-- A command, whose issue is a release at island scope (R316): it is held until LDCNT is 0 too (log 23). -/
def mxCommand (s : State) (f : Issuer → State) : Result := mxWord s fun x => if x.t.cnt.ld ≠ 0 then s else f x

/-- The context held by the issuing team's crew, or ENGINEDENY (R271). -/
def withCtx (s : State) (x : Issuer) (f : MxCtx → State) : State :=
  match MxCtx.of s x.c with
  | none => raiseTeam s x .enginedeny 0
  | some m => f m

/-- MREL (R288). -/
def execMrel (s : State) : Result :=
  mxWord s fun x =>
    withCtx s x fun m =>
      if !m.cmds.isEmpty || (s.teamsOf x.t.crew).any fun ut => ut.2.status = .latched then s
      else step8 ((s.updMx x.c mxFree).updCrew x.t.crew fun c => { c with mxCtx := none }) x x.t 1

/-! ## Gangs (R289, R294) -/

/-- Table 15-2 and the checks of MGANG. -/
def gangOk (s : State) (x : Issuer) (g : DWord) : Bool :=
  let n := gangCount g
  let ms := (List.range n).map (gangMember g)
  2 ≤ n && n ≤ 6 && natBits g.toNat 63 44 = 0 && natBits g.toNat 7 4 = 0 && g.toNat / 2 ^ (8 + 6 * n) = 0 &&
    decide ms.Nodup &&
    ms.contains (x.c.core % 4 * 16 + x.t.index) &&
    memberTeam s x.c.kernel x.c.isl (x.c.core / 4) (x.c.core % 4 * 16 + x.t.index) = some x.u

/-- MGANG (R289). -/
def execMgang (n : SReg) (s : State) : Result :=
  mxWord s fun x =>
    let g := x.t.regs.sget64 n.toNat
    if gangCount g = 0 then step8 s x { x.t with gang := 0, gangSeq := 0, gangKept := false } 1
    else if gangOk s x g then step8 s x { x.t with gang := g, gangSeq := 0, gangKept := false } 1
    else raiseTeam s x .enginedeny 0

/-! ## Issue of commands (R273, R285) -/

/-- A command is numbered on a crew's context, for a team, with fmt, the k registers and the table version as they stand
(R273, R280, R290). -/
def MxCtx.number (m : MxCtx) (sel : Bool) (order now : Nat) (team idx span : Nat) (level : Nat) (fmt : BitVec 24)
    (kind : MxKind) (bar : Option Nat) : MxCtx :=
  let cmd : MxCmd :=
    { no := m.issued + 1, team := team, teamIdx := idx, span := span, kind := kind, fmt := fmt, ks := (List.range 16).map (SMap.get 0 m.ks),
      version := sel, bar := bar, issuedAt := now, level := level, order := order }
  { m with
    issued := m.issued + 1
    cmds := m.cmds ++ [cmd]
    requestedAt := if m.cmds.isEmpty then now else m.requestedAt }

/-- The plane format recorded at the issue of a command (R290, R301). -/
def planeAfter (m : MxCtx) (fmt : BitVec 24) : MxKind → MFmt
  | .mwld _ => (fmtB fmt).getD m.planeFmt
  | .mpoly .. => .bf16
  | .miter .. => .bf16
  | _ => m.planeFmt

/-- The team's command enters its crew's context: a release at island scope (R316). -/
def submit (s : State) (cu team : Nat) (t : Team) (kind : MxKind) (bar : Option Nat) : State :=
  match s.crews.find? cu with
  | none => s
  | some c =>
    let s := l1Clean s c.key
    let e := s.engine c.cluster
    let (order, s) := match kind with
      | .mtab _ => (e.mtabOrder + 1, s.updEngine c.cluster fun e => { e with mtabOrder := e.mtabOrder + 1 })
      | _ => (0, s)
    s.updMx c fun m =>
      { m.number e.sel order s.now team t.index t.span t.sched.level t.regs.fmt kind bar with
        planeFmt := planeAfter m t.regs.fmt kind }

/-- A command of the issuing team: held by the limit of 64, stopped by its causes, a missing context among them, else
numbered (R285, R286). -/
def command (s : State) (x : Issuer) (bar : Bar) (causes : Option MxCtx → List (Nat × (Nat × Cause))) (kind : MxCtx → MxKind) :
    State :=
  match MxCtx.of s x.c with
  | none =>
    match worst (causes none ++ barCauses x bar ++ [(0, (0, .enginedeny))]) with
    | some b => raiseTeam s x b.cause b.addr
    | none => s
  | some m =>
    if 64 ≤ m.cmds.length then s
    else
      match worst (causes (some m) ++ barCauses x bar) with
      | some b => raiseTeam s x b.cause b.addr
      | none => step8 (submit s x.t.crew x.u x.t (kind m) (barOffset x bar)) x x.t 1

/-- One cause of a team-scope check, where it fails. -/
def causeIf (bad : Bool) (c : Cause) (addr : Nat) : List (Nat × (Nat × Cause)) := if bad then [(0, (addr, c))] else []

def Issuer.word (x : Issuer) (r : SReg) : Nat := (x.t.regs.sget r.toNat).toNat

/-- MWLD (R290). -/
def execMwld (w : SReg) (bar : Bar) (s : State) : Result :=
  mxCommand s fun x =>
    let base := x.word w
    command s x bar (fun _ =>
      causeIf (fmtB x.t.regs.fmt).isNone .fmtbad 0 ++ causeIf (base % 16384 ≠ 0) .misalign base ++
        causeIf (decide (x.k.image.wspace < base + tileBytes ((fmtB x.t.regs.fmt).getD .bf16))) .spacebound base)
      fun _ => .mwld base

/-- AFMT and the plane format (R163, R292): FMTBAD where they are no legal pair. -/
def pairBad (fmt : BitVec 24) (plane : MFmt) : Bool :=
  match fmtA fmt with
  | some a => !legalPair a plane
  | none => true
/-- The same check where there may be no context. -/
def ctxPairBad (fmt : BitVec 24) (m : Option MxCtx) : Bool := ((m.map fun m => pairBad fmt m.planeFmt)).getD (fmtA fmt).isNone

/-- Rows of a crew's A-space, and where its core holds them. -/
def slabOf (s : State) (cu off rows : Nat) : Slab :=
  let c := s.crews.find? cu
  { crew := cu, off := off, rows := rows, key := (c.map Crew.key).getD 0, abase := (c.map Crew.abase).getD 0 }

/-- MMA (R291 to R293). -/
def execMma (src : MmaSrc) (row0 : BitVec 8) (rows : BitVec 9) (ct : BitVec 3) (acc : Bool) (bar : Bar) (s : State) :
    Result :=
  mxCommand s fun x =>
    let n := rows.toNat
    let past := causeIf (decide (256 < n ∨ 256 < row0.toNat + n)) .spacebound 0
    match src with
    | .plain a =>
      let base := x.word a
      let rb := rowBytes ((fmtA x.t.regs.fmt).getD .bf16)
      command s x bar (fun m =>
        past ++ causeIf (base % 256 ≠ 0) .misalign base ++
          causeIf (decide (x.k.image.aspace < base + n * rb)) .spacebound base ++
          causeIf (ctxPairBad x.t.regs.fmt m) .fmtbad 0)
        fun m => .mma none [slabOf s x.t.crew base n] row0.toNat ct.toNat acc m.planeFmt
    | .feedback ft tr =>
      command s x bar (fun m => past ++ causeIf (m.any fun m => m.planeFmt = .int8 || m.planeFmt = .lns6) .fmtbad 0)
        fun m => .mma (some (ft.toNat, tr)) [slabOf s x.t.crew 0 n] row0.toNat ct.toNat acc m.planeFmt

/-! ## MMAG (R276, R277, R294) -/

/-- The checks of step 4 and the slabs of a full gang; teams in gang order, each with its latch. -/
def jointSlabs (s : State) (ts : List (Nat × (Team × Latch))) : List Slab :=
  ts.map fun q => slabOf s q.2.1.crew q.2.2.asrc q.2.2.rows
def jointCauses (aspace : Nat) (m : MxCtx) (t0 : Team) (l0 : Latch) (ts : List (Nat × (Team × Latch))) :
    List (Nat × (Nat × Cause)) :=
  let rb := rowBytes ((fmtA t0.regs.fmt).getD .bf16)
  causeIf (pairBad t0.regs.fmt m.planeFmt) .fmtbad 0 ++
    causeIf (ts.any fun q => q.2.2.rows ≠ 0 && aspace < q.2.2.asrc + q.2.2.rows * rb) .spacebound 0 ++
    causeIf (decide (256 < l0.row0 + (ts.map fun q => q.2.2.rows).sum)) .spacebound 0

/-- Every member leaves an opened latch, after its MMAG (R276). -/
def unlatch (s : State) (us : List Nat) : State :=
  us.foldl (fun s u => s.updTeam u fun t =>
    { t with
      status := .run, latch := none, gangKept := false
      flow := { t.flow with pc := t.flow.pc + 8 }
      sched := { t.sched with promoted := none, readySince := s.now } }) s

/-- The latch of the gang that a latched team names is looked at (R294, steps 2 to 5). -/
def formLatchOf (s : State) (x : Issuer) (u : Nat) : State :=
  let g := ((s.teams.find? u).map (·.gang)).getD 0
  let seq := ((s.teams.find? u).map (·.gangSeq)).getD 0
  let named := gangTeams s x.c.kernel x.c.isl (x.c.core / 4) g
  let us := named.filterMap id
  if named.contains none then gangLost s us
  else
    let ts := us.filterMap fun u => (s.teams.find? u).bind fun t => t.latch.map fun l => (u, (t, l))
    if ts.length ≠ us.length || ts.any (fun q => q.2.1.status ≠ .latched || q.2.2.seq ≠ seq) then s
    else
      match ts with
      | [] => s
      | (u0, (t0, l0)) :: _ =>
        if ts.any fun q => q.2.1.gang ≠ t0.gang then gangLost s us
        else
          match (s.crews.find? t0.crew).bind (MxCtx.of s) with
          | none => gangRelease s us .enginedeny
          | some m =>
            match worst (jointCauses x.k.image.aspace m t0 l0 ts) with
            | some b => gangRelease s us b.cause
            | none =>
              unlatch (submit s t0.crew u0 t0 (.mma none (jointSlabs s ts) l0.row0 l0.ct l0.acc m.planeFmt) l0.bar) us

/-- Whether a team stands latched. -/
def latched (s : State) (u : Nat) : Bool := ((s.teams.find? u).map (·.status)) = some .latched
/-- After a team has issued MMAG the latch of its gang is looked at, and that of every latched team whose gang names it. -/
def formLatch (s : State) (x : Issuer) : State :=
  let naming := (s.teams.filter fun ut => ut.1 ≠ x.u && ut.2.status = .latched && match s.crews.find? ut.2.crew with
    | some c => c.kernel = x.c.kernel && c.isl = x.c.isl && c.core / 4 = x.c.core / 4 &&
        (gangTeams s x.c.kernel x.c.isl (x.c.core / 4) ut.2.gang).contains (some x.u)
    | none => false).map Prod.fst
  (x.u :: naming).foldl (fun s u => if latched s u && latched s x.u then formLatchOf s x u else s) s

/-- MMAG (R294). -/
def execMmag (asrc : SReg) (row0 : BitVec 8) (rows : BitVec 9) (ct : BitVec 3) (acc : Bool) (bar : Bar) (s : State) :
    Result :=
  mxCommand s fun x =>
    let n := rows.toNat
    let base := x.word asrc
    let first := if gangCount x.t.gang = 0 then none
      else memberTeam s x.c.kernel x.c.isl (x.c.core / 4) (gangMember x.t.gang 0)
    let ctx := (first.bind fun u => (s.teams.find? u).bind fun t => s.crews.find? t.crew).bind (MxCtx.of s)
    let own := first = some x.u
    if 64 ≤ ((ctx.map (·.cmds.length)).getD 0) then s
    else
      match worst (causeIf (gangCount x.t.gang = 0 || (own && ctx.isNone)) .enginedeny 0 ++
          causeIf (decide (256 < n)) .spacebound 0 ++ causeIf (decide (n ≠ 0 ∧ base % 256 ≠ 0)) .misalign base ++
          (if own then barCauses x bar else [])) with
      | some b => raiseTeam s x b.cause b.addr
      | none =>
        let seq := if x.t.gangKept then x.t.gangSeq else x.t.gangSeq + 1
        let l : Latch :=
          { seq := seq, asrc := base, row0 := row0.toNat, rows := n, ct := ct.toNat, acc := acc,
            bar := if own then barOffset x bar else none }
        let s := finish (l1Clean s x.c.key) x
          { x.t with status := .latched, latch := some l, gangSeq := seq, gangKept := false } 1
        formLatch s x

/-! ## Drains, zeroing, iterated commands, tables (R295 to R302) -/

/-- MDRN (R295, R296). -/
def execMdrn (clr : Bool) (quant : Option MFmt) (dst : SReg) (bias : Option SReg) (geom : SReg) (ct : BitVec 3)
    (toW act : Bool) (bar : Bar) (s : State) : Result :=
  mxCommand s fun x =>
    let g := x.word geom
    let row0 := natBits g 7 0
    let n := natBits g 15 8 + 1
    let d := x.word dst
    let pb := drainBytes quant
    let limit := if toW then x.k.image.wspace else x.k.image.aspace
    let b := bias.map x.word
    let biasCauses := match b with
      | some a => causeIf (a % 1024 ≠ 0) .misalign a ++ causeIf (decide (x.k.image.wspace < a + 1024)) .spacebound a
      | none => []
    command s x bar (fun _ =>
      causeIf (decide (256 < row0 + n)) .spacebound 0 ++ causeIf (d % 64 ≠ 0) .misalign d ++
        causeIf (decide (limit < d + n * pb)) .spacebound d ++ biasCauses)
      fun _ => .mdrn ct.toNat d toW b act quant (ival true 8 (natBits g 23 16)) pb row0 n clr

/-- MZRO (R297). -/
def execMzro (mask : BitVec 8) (bar : Bar) (s : State) : Result :=
  mxCommand s fun x => command s x bar (fun _ => []) fun _ => .mzro mask.toNat

/-- MPOLY (R299). -/
def execMpoly (xt yt pt : BitVec 3) (deg : BitVec 4) (bar : Bar) (s : State) : Result :=
  mxCommand s fun x => command s x bar (fun _ => []) fun _ => .mpoly xt.toNat yt.toNat pt.toNat deg.toNat

/-- MITER (R300): the threshold is read at issue. -/
def execMiter (form : MiterForm) (frob : Bool) (xt at_ scr : BitVec 3) (cap : BitVec 8) (thr : BitVec 4) (bar : Bar)
    (s : State) : Result :=
  mxCommand s fun x =>
    command s x bar (fun _ => [])
      fun m => .miter form frob xt.toNat at_.toNat scr.toNat cap.toNat (SMap.get 0 m.ks thr.toNat)

/-- MTAB (R302). -/
def execMtab (w : SReg) (bar : Bar) (s : State) : Result :=
  mxCommand s fun x =>
    let base := x.word w
    command s x bar (fun _ =>
      causeIf (base % 16 ≠ 0) .misalign base ++ causeIf (decide (x.k.image.wspace < base + 2064)) .spacebound base)
      fun _ => .mtab base

/-! ## MTLD, MTST, MSTAT (R298, R303) -/

/-- What MTLD and MTST share: the checks, and the wait for the context's commands. -/
def slabWord (s : State) (v : Operand) (f : Issuer → MxCtx → Nat → State) : Result :=
  mxWord s fun x =>
    match worst (causeIf (!rangeInBounds x.t 32 v) .regbound 0 ++ causeIf (decide (x.t.lanes < 256)) .spacebound 0) with
    | some b => raiseTeam s x b.cause b.addr
    | none =>
      withCtx s x fun m => if !m.cmds.isEmpty then s else f x m (vregOf x.t.regs v)

/-- MTLD (R298). -/
def execMtld (v : Operand) (ct slab : BitVec 3) (s : State) : Result :=
  slabWord s v fun x m base =>
    let e := s.engine x.c.cluster
    let out (l r : Nat) : Nat := FFmt.fp32.round .tz (waVal (e.tile m.bank ct.toNat (32 * slab.toNat + r) l))
    let regs := (List.range 32).foldl (fun g r => writeLanes g 1 (base + r) (fun l => out l r) (List.range 256)) x.t.regs
    step8 s x { x.t with regs := regs } 32

/-- MTST (R298): every FP32 value is a WA value. -/
def execMtst (v : Operand) (ct slab : BitVec 3) (s : State) : Result :=
  slabWord s v fun x m base =>
    let s := s.updEngine x.c.cluster fun e => (List.range 32).foldl (fun e r =>
      e.setRow m.bank ct.toNat (32 * slab.toNat + r) fun l =>
        roundWA (FFmt.fp32.val (x.t.regs.vget l (base + r)).toNat)) e
    step8 s x x.t 32

/-- Table 14-5 and Table 15-6. -/
def mstatValue (e : MxEngine) (n : Nat) (m : MxCtx) (item : Nat) : Word :=
  match item with
  | 0 => BitVec.ofNat 32 (m.loop.iter + m.loop.phase * 2 ^ 8 + m.loop.out * 2 ^ 10)
  | 1 => m.loop.r0
  | 2 => m.loop.rprev
  | 3 => m.loop.rlast
  | _ => BitVec.ofNat 32 (n + m.bank * 2 + (if e.sel then 4 else 0) + (if m.refused then 8 else 0)
      + (if (e.ctx (1 - n)).crew.isSome then 16 else 0) + m.cmds.length * 2 ^ 8)

/-- MSTAT (R303). -/
def execMstat (d : SReg) (item : BitVec 4) (s : State) : Result :=
  mxWord s fun x =>
    withCtx s x fun m =>
      let v := mstatValue (s.engine x.c.cluster) (x.c.mxCtx.getD 0) m item.toNat
      step8 s x { x.t with regs := x.t.regs.sset d.toNat v } 1

/-! ## Performing commands -/

/-- Whether a command works on the array (R274). -/
def MxKind.usesArray : MxKind → Bool
  | .mma .. => true
  | .mpoly .. => true
  | .miter .. => true
  | _ => false
def MxKind.iterated : MxKind → Bool
  | .mpoly .. => true
  | .miter .. => true
  | _ => false

/-- A context at work: its engine's key, crew and head command. -/
structure MxHead where
  key : Nat
  n : Nat
  m : MxCtx
  cu : Nat
  c : Crew
  cmd : MxCmd
deriving DecidableEq, Repr

def mxHead (s : State) (isl cluster n : Nat) : Option MxHead :=
  let key := 9 * isl + cluster
  let m := (s.engine key).ctx n
  match m.crew, m.cmds with
  | some cu, cmd :: _ =>
    if m.stopped || barHeld s cu cmd.bar then none
    else (s.crews.find? cu).map fun c => { key := key, n := n, m := m, cu := cu, c := c, cmd := cmd }
  | _, _ => none

def setMx (s : State) (h : MxHead) (f : MxCtx → MxCtx) : State :=
  s.updEngine h.key fun e => e.setCtx h.n (f (e.ctx h.n))

/-- The head command completes: the timeline advances; the barrier takes its bytes, then the mirror (R273, R286, R316). -/
def mxComplete (s : State) (h : MxHead) (bytes : Nat) : State :=
  let t := timelineAt ((h.m.cmds.drop 1).map (·.no)) h.m.issued
  let s := setMx s h fun m =>
    { m with timeline := t, cmds := m.cmds.drop 1, granted := false, promoted := false, requestedAt := s.now }
  releaseExited (completionRelease s h.cu h.cmd.bar bytes mirrorMatrix t) h.cu

/-- The present array request of a context: what the arbiter orders by (R274), least first. -/
def requestKey (n : Nat) (h : MxHead) : List Nat :=
  [if h.m.promoted then 0 else 1, 255 - h.cmd.level, h.cmd.issuedAt, n]
def lexLt : List Nat → List Nat → Bool
  | a :: as, b :: bs => a < b || (a = b && lexLt as bs)
  | _, _ => false
/-- The heads that ask for the array. -/
def arrayRequests (s : State) (isl cluster : Nat) : List MxHead :=
  ([0, 1].filterMap (mxHead s isl cluster)).filter fun h => h.cmd.kind.usesArray && !h.m.granted

/-- ARRAY_ARBITRATION (R274): the array, held by neither context, goes to one request. -/
def execArrayArbitration (isl cluster : Nat) (s : State) : Result :=
  happen s <|
    let e := s.engine (9 * isl + cluster)
    if e.ctx0.granted || e.ctx1.granted then none
    else
      let give (h : MxHead) : State := setMx s h fun m => { m with granted := true }
      match arrayRequests s isl cluster with
      | [] => none
      | [h] => some (give h)
      | h :: g :: _ => some (give (if lexLt (requestKey g.n g) (requestKey h.n h) then g else h))

/-- ARRAY_REQUEST_PROMOTION (R274). -/
def execArrayRequestPromotion (isl cluster ctx : Nat) (s : State) : Result :=
  happen s <|
    match (arrayRequests s isl cluster).find? fun h => h.n = ctx with
    | some h =>
      if !h.m.promoted && h.m.requestedAt + 16384 ≤ s.now then some (setMx s h fun m => { m with promoted := true })
      else none
    | none => none

/-- An MMA or MMAG (R292, R293). -/
def performMma (s : State) (h : MxHead) (fb : Option (Nat × Bool)) (slabs : List Slab) (row0 ct : Nat)
    (acc : Bool) (bfmt : MFmt) : State :=
  s.updEngine h.key fun e =>
    match fb with
    | some (ft, tr) =>
      runPass e h.m.bank ct acc .bf16 bfmt (scaleB h.cmd.fmt) 256 h.m.plane
        (feedbackRows e h.m.bank ft tr row0 (slabs.map (·.rows)).sum)
    | none =>
      let a := (fmtA h.cmd.fmt).getD .bf16
      runPass e h.m.bank ct acc a bfmt (scaleA h.cmd.fmt + scaleB h.cmd.fmt) (planeK a) h.m.plane
        (slabRows s a slabs row0)

/-- Rows of an MDRN from a first one on (R278, R296): in ascending order, read before they are cleared. -/
def performMdrn (s : State) (h : MxHead) (ct dst : Nat) (toW : Bool) (bias : Option Nat) (act : Bool)
    (quant : Option MFmt) (rs : Int) (pb row0 rows : Nat) (clr : Bool) : State :=
  let e := s.engine h.key
  let table := if act then some (if h.cmd.version then e.v1 else e.v0) else none
  let s := (List.range rows).foldl (fun s i =>
    let biasAt (n : Nat) : Option FVal := bias.map fun b => FFmt.fp32.val (leNat (wBytes s h.c (b + 4 * n) 4))
    let bs := drainRow quant fun n => drainElem (biasAt n) table quant rs (e.tile h.m.bank ct (row0 + i) n)
    if toW then wPut s h.c (dst + i * pb) bs else crewPut s h.cu none .aspace (dst + i * pb) bs) s
  if clr then s.updEngine h.key fun e =>
    (List.range rows).foldl (fun e i => e.setRow h.m.bank ct (row0 + i) fun _ => 0) e
  else s

/-- Whether an MTAB may start loading (R280): the MTABs of the engine before it are done, and no other incomplete command
of either context is bound to the version that is not current. -/
def mtabReady (s : State) (h : MxHead) : Bool :=
  let e := s.engine h.key
  let isTab (c : MxCmd) : Bool := match c.kind with
    | .mtab _ => true
    | _ => false
  let others := (([0, 1].map fun n => ((e.ctx n).cmds.map fun c => (n, c))).flatten).filter fun nc =>
    !(nc.1 = h.n && nc.2.no = h.cmd.no)
  others.all fun nc => nc.2.version = e.sel && !(isTab nc.2 && nc.2.order < h.cmd.order)

/-- An MTAB loads the version that is not current and flips the selector, or is refused (R280, R302). -/
def performMtab (s : State) (h : MxHead) (base : Nat) : State :=
  let v : SMap Word := fillRange 0 [] 0 516 fun j => BitVec.ofNat 32 (leNat (wBytes s h.c (base + 4 * j) 4))
  let ok := tableValid v
  let s := if ok then s.updEngine h.key fun e =>
      if e.sel then { e with v0 := v, sel := false } else { e with v1 := v, sel := true }
    else s
  setMx s h fun m => { m with refused := !ok }

/-- A command that is no iterated one is performed and completes, an MDRN 32 rows at a time (Table 20-7); `none` where it
must wait. -/
def performCommand (s : State) (h : MxHead) : Option State :=
  match h.cmd.kind with
  | .mwld base =>
    let f := (fmtB h.cmd.fmt).getD .bf16
    let plane := loadPlane (((wAlloc s h.c).map (·.mem)).getD []) f base
    some (mxComplete (setMx s h fun m => { m with plane := plane }) h 0)
  | .mma fb slabs row0 ct acc bfmt =>
    if h.m.granted then some (mxComplete (performMma s h fb slabs row0 ct acc bfmt) h 0) else none
  | .mdrn ct dst toW bias act quant rs pb row0 rows clr =>
    let done := h.cmd.done
    let s := performMdrn s h ct (dst + done * pb) toW bias act quant rs pb (row0 + done) (min 32 (rows - done)) clr
    if rows ≤ done + 32 then some (mxComplete s h (rows * pb))
    else some (setMx s h fun m => { m with cmds := { h.cmd with done := done + 32 } :: m.cmds.drop 1 })
  | .mzro mask =>
    let s := s.updEngine h.key fun e => (List.range 8).foldl (fun e c =>
      if mask / 2 ^ c % 2 = 1 then e.setTile h.m.bank c fun _ _ => 0 else e) e
    some (mxComplete s h 0)
  | .mtab base => if mtabReady s h then some (mxComplete (performMtab s h base) h 0) else none
  | .mpoly .. => none
  | .miter .. => none

/-- MATRIX_COMMAND_COMPLETE (R273). -/
def execMatrixCommandComplete (isl cluster ctx : Nat) (s : State) : Result :=
  happen s ((mxHead s isl cluster ctx).bind (performCommand s))

/-! ## Phases of iterated commands (R282 to R284, R299 to R301) -/

def MxHead.k (h : MxHead) (j : Nat) : FVal := FFmt.fp32.val (h.cmd.ks.getD j 0).toNat

/-- The engine after a change of tiles, and the plane of the last product. -/
def putTiles (s : State) (h : MxHead) (e : MxEngine) (plane : Option (SMap Nat)) : State :=
  let s := s.updEngine h.key fun _ => e
  match plane with
  | some p => setMx s h fun m => { m with plane := p }
  | none => s

/-- A phase ends and the command goes on: its loop state is written, and the array is asked for again (R274, R284). -/
def phaseEnd (s : State) (h : MxHead) (l : Loop) : State :=
  setMx s h fun m =>
    { m with
      loop := l, granted := false, promoted := false, requestedAt := s.now
      cmds := { h.cmd with begun := true } :: m.cmds.drop 1 }

/-- One step of MPOLY: phase 0 multiplies, phase 1 adds k(j) on the diagonal (Table 14-4). -/
def mpolyPhase (s : State) (h : MxHead) (x y p deg : Nat) : State :=
  let b := h.m.bank
  let diag (e : MxEngine) (k : FVal) (add : Nat → Nat → FVal) : MxEngine :=
    e.setTile b y fun i n => roundWA (addV (add i n) (FVal.mul k (.fin false (if i = n then 1 else 0) 0)))
  let l : Loop := if h.cmd.begun then h.m.loop else {}
  let e := if h.cmd.begun then s.engine h.key
    else diag (s.engine h.key) (h.k deg) fun _ _ => .fin false 0 0
  if l.phase = 0 then
    let r := tileProduct e b p y false x
    phaseEnd (putTiles s h r.1 (some r.2)) h { l with phase := 1 }
  else
    let e' := diag e (h.k (deg - 1 - l.iter)) fun i n => waVal (e.tile b p i n)
    let s := putTiles s h e' none
    if l.iter + 1 = deg then mxComplete (setMx s h fun m => { m with loop := { l with out := 1 } }) h 0
    else phaseEnd s h { l with iter := l.iter + 1, phase := 0 }

/-- The loop state and OUT after the tests of phase 3 (R283); OUT 0 goes on. -/
def residTest (l : Loop) (r cap : Nat) (thr : Word) : Loop :=
  let v := FFmt.fp32.val r
  let w := BitVec.ofNat 32 r
  let l : Loop := { l with r0 := if l.iter = 0 then w else l.r0, rprev := l.rlast, rlast := w }
  let twice := (FFmt.fp32.val l.r0.toNat).scale 1
  let finite := match v with
    | .fin .. => true
    | _ => false
  let t := FFmt.fp32.val thr.toNat
  if !finite || (1 ≤ l.iter && twice.lt v) then { l with out := 3 }
  else if v.lt t || v.eq t then { l with out := 1 }
  else if l.iter + 1 = cap then { l with out := 2 }
  else { l with iter := l.iter + 1, phase := 0 }

/-- The span that issued the head command, of a kernel with ROLLBACK 1 (R378, R386). -/
def MxHead.tag (h : MxHead) (s : State) : Option SpanTag :=
  match s.kernels.find? h.c.kernel with
  | some k =>
    if k.launch.rollback then
      some { kernel := h.c.kernel, crew := h.c.idx, span := if k.launch.resident then h.cmd.span else 0 }
    else none
  | none => none

/-- A MITER stops for its cause: the context stays at the command (R283). -/
def miterDiverges (s : State) (h : MxHead) (l : Loop) : State :=
  let s := setMx s h fun m =>
    { m with loop := l, stopped := true, granted := false, promoted := false
             cmds := { h.cmd with begun := true } :: m.cmds.drop 1 }
  raiseEngine s h.cu
    { cause := .miterdiv, engine := 2, team := h.cmd.teamIdx, cmd := h.cmd.no, addr := 0, span := h.tag s }

/-- One phase of MITER (Table 14-4, R283): SCR is G, then P, Xn and Q. -/
def miterPhase (s : State) (h : MxHead) (form : MiterForm) (frob : Bool) (x a scr cap : Nat) (thr : Word) : State :=
  let b := h.m.bank
  let e := s.engine h.key
  let l : Loop := if h.cmd.begun then h.m.loop else {}
  let next := { l with phase := l.phase + 1 }
  match l.phase with
  | 0 =>
    let r := match form with
      | .inv => tileProduct e b scr a false x
      | _ => tileProduct e b scr x true x
    phaseEnd (putTiles s h r.1 (some r.2)) h next
  | 1 =>
    let r := tileProduct e b (scr + 1) x false scr
    let r := match form with
      | .quint => tileProduct r.1 b (scr + 3) (scr + 1) false scr
      | _ => r
    phaseEnd (putTiles s h r.1 (some r.2)) h next
  | 2 =>
    let q (i n : Nat) : List (FVal × Nat) := match form with
      | .quint => [(h.k 2, e.tile b (scr + 3) i n)]
      | _ => []
    let e' := e.setTile b (scr + 2) fun i n =>
      roundWA (combineElem ([(h.k 0, e.tile b x i n), (h.k 1, e.tile b (scr + 1) i n)] ++ q i n))
    phaseEnd (putTiles s h e' none) h next
  | _ =>
    let r := residual e b (scr + 2) x frob
    let s := putTiles s h (e.setTile b x fun i n => e.tile b (scr + 2) i n) none
    let l' := residTest l r cap thr
    match l'.out with
    | 0 => phaseEnd s h l'
    | 3 => miterDiverges s h l'
    | _ => mxComplete (setMx s h fun m => { m with loop := l' }) h 0

/-- MITER_PHASE (R283, R284): one phase of the iterated command that has the array. -/
def execMiterPhase (isl cluster ctx : Nat) (s : State) : Result :=
  happen s <|
    (mxHead s isl cluster ctx).bind fun h =>
      if !h.m.granted then none
      else
        match h.cmd.kind with
        | .mpoly x y p deg => some (mpolyPhase s h x y p deg)
        | .miter form frob x a scr cap thr => some (miterPhase s h form frob x a scr cap thr)
        | _ => none

/-- On resumption from MITERDIV the stopped command completes with OUT = 3 (Table 20-1). -/
def miterResumed (s : State) (cu : Nat) : State :=
  match s.crews.find? cu with
  | none => s
  | some c =>
    match c.mxCtx with
    | none => s
    | some n =>
      let m := (s.engine c.cluster).ctx n
      match m.cmds with
      | cmd :: _ =>
        if m.stopped then
          let h : MxHead := { key := c.cluster, n := n, m := m, cu := cu, c := c, cmd := cmd }
          mxComplete (setMx s h fun m => { m with stopped := c.stop }) h 0
        else s
      | [] => s

end Sys2Proof.Machine
end

