-- ==== Sys2Proof/Machine/Flits.lean ====
section
/-! DEFINITION. What a link carries, bit by bit (13_networks): packets and control payloads as bytes (R251, R260), the 80
bytes of a flit (R255), and the lanes that its bits travel on (R256). `hear` is what a receiver makes of a flit whose bits
may have been changed on the way. -/

namespace Sys2Proof.Machine

/-! ## CRC-32C (R31) -/

def crcStep (c : Nat) : Nat := if c % 2 = 1 then (c / 2) ^^^ 0x82F63B78 else c / 2
def crcByte (c : Nat) (b : Byte) : Nat :=
  crcStep (crcStep (crcStep (crcStep (crcStep (crcStep (crcStep (crcStep (c ^^^ b.toNat))))))))
/-- CRC-32C of bytes. -/
def crc32c (bs : List Byte) : Nat := (bs.foldl crcByte 0xFFFFFFFF) ^^^ 0xFFFFFFFF

/-! ## Packets (R251, Table 13-3) -/

def Cargo.vc : Cargo → Nat
  | .write _ => 0
  | .read .. => 0
  | .atomic .. => 0
  | .active _ => 0
  | .notify _ => 2
  | .coll .. => 3
  | _ => 1
def Cargo.opc : Cargo → Nat
  | .write _ => 1
  | .read .. => 2
  | .readData .. => 3
  | .atomic .. => 4
  | .atomicReply .. => 5
  | .notify _ => 6
  | .ack => 7
  | .active _ => 8
  | .coll .. => 9
  | .returned => 0x0F
/-- The codes of OPC that are not reserved. -/
def opcListed (x : Nat) : Bool := (1 ≤ x && x ≤ 9) || x = 0x0F

/-- Data bytes of a packet: LENM1 + 1. -/
def Cargo.dataBytes (c : Cargo) : Nat :=
  max 1 (match c with
    | .readData _ bs => bs.length
    | .coll _ bs => bs.length
    | .atomic t op .. => 4 * t.elem.regs * if op = .cas then 2 else 1
    | .atomicReply .. => 8
    | .returned => 16
    | .ack => 1
    | .active e => 8 + e.payload.bytes
    | c => c.span)
/-- Flits of a packet: the header and its data. -/
def Packet.flitCount (p : Packet) : Nat := 1 + ceilDiv p.cargo.dataBytes 64

/-- The 16 bytes of a packet's header. A returned packet goes from the island that returned it to its sender (R251). -/
def Packet.header (p : Packet) : List Byte :=
  let ends := if p.cargo = .returned then ((p.sentBack.map Prod.fst).getD p.dst, p.src) else (p.src, p.dst)
  leBytes 2 p.route ++ leBytes 1 ends.1 ++ leBytes 1 ends.2 ++ leBytes 1 p.sep ++ leBytes 1 p.cargo.opc ++ leBytes 2 p.sseq
    ++ leBytes 8 (p.pa % 2 ^ 44 + (p.cargo.dataBytes - 1) * 2 ^ 44 + p.tenant * 2 ^ 56)
def Payload.data : Payload → List Word
  | .words ws => ws
  | .travel s fmt ret v =>
    BitVec.ofNat 32 ret.length :: s ++ [BitVec.ofNat 32 fmt.toNat] ++ (List.range 8).map (fun i => BitVec.ofNat 32 (ret.getD i 0)) ++ v
/-- The data of a packet; a returned one carries its original header (R251). The layout of the data of reads, atomics,
additions and active messages is the model's (log 48). -/
def Packet.data (p : Packet) : List Byte :=
  match p.cargo with
  | .write bs => bs
  | .readData _ bs => bs
  | .coll _ bs => bs
  | .atomic t _ _ b b2 => leBytes (4 * t.elem.regs) b ++ leBytes (4 * t.elem.regs) b2
  | .atomicReply _ old => leBytes 8 old
  | .notify inc => leBytes 4 inc
  | .returned => ({ p with cargo := p.orig.getD .ack, route := (p.sentBack.map Prod.snd).getD p.route }).header
  | .active e => leBytes 4 e.kernel ++ leBytes 4 e.off ++ (e.payload.data.map fun w => leBytes 4 w.toNat).flatten
  | _ => []

/-- The first n bytes of a list, with zeros where it is shorter. -/
def padTo (n : Nat) (bs : List Byte) : List Byte := (bs ++ List.replicate n 0).take n
/-- The 64 payload bytes of one flit of a packet. -/
def Packet.flitBytes (p : Packet) (part : Nat) : List Byte :=
  if part = 0 then padTo 64 p.header else padTo 64 (p.data.drop (64 * (part - 1)))

/-- A header with reserved bits set, or with a reserved OPC. -/
def headerOdd (bs : List Byte) : Bool :=
  natBits (leNat ((bs.drop 2).take 1)) 7 5 ≠ 0 || natBits (leNat ((bs.drop 3).take 1)) 7 5 ≠ 0 ||
    natBits (leNat ((bs.drop 8).take 8)) 63 62 ≠ 0 || !opcListed (leNat ((bs.drop 5).take 1))
/-- Data with other bytes from an offset on, its length kept. -/
def overwrite (bs : List Byte) (off : Nat) (new : List Byte) : List Byte :=
  bs.take off ++ (new.take (bs.length - off)) ++ bs.drop (off + new.length)
/-- A packet as its receiver reads it from a flit whose payload changed on the way, with a CRC that does not show it: its
addresses from the header, its bytes from a data flit. OPC, SEP, LENM1 and operands stay, and a returned packet's addresses
(log 48). -/
def Packet.reread (p : Packet) (part : Nat) (bs : List Byte) : Packet :=
  let f (lo n : Nat) : Nat := leNat ((bs.drop lo).take n)
  if part = 0 ∧ p.cargo = .returned then { p with route := f 0 2 }
  else if part = 0 then
    { p with
      route := f 0 2, src := f 2 1, dst := f 3 1, sseq := p.sseq - p.sseq % 65536 + f 6 2
      pa := natBits (f 8 8) 43 0, tenant := natBits (f 8 8) 61 56 }
  else
    let off := 64 * (part - 1)
    { p with cargo := match p.cargo with
        | .write b => .write (overwrite b off bs)
        | .readData l b => .readData l (overwrite b off bs)
        | .coll id b => .coll id (overwrite b off bs)
        | c => c }

/-! ## Control payloads (R260, Table 13-6) -/

def Ctl.bytes (c : Ctl) : List Byte :=
  padTo 64 (match c with
    | .credit fs => leBytes 2 1 ++ ((List.range 4).map fun v => leBytes 2 (fs.getD v 0)).flatten
    | .limits e lim => leBytes 1 2 ++ leBytes 1 e.toNat ++ ((List.range 4).map fun v => leBytes 2 (lim.getD v 0)).flatten
    | .swapreq g l e s no => leBytes 1 3 ++ leBytes 1 g ++ leBytes 1 l ++ leBytes 1 e ++ leBytes 2 s ++ leBytes 1 no.toNat
    | .swapack no agree => leBytes 1 4 ++ leBytes 1 no.toNat ++ leBytes 1 (if agree then 1 else 2)
    | .train code wl bits => leBytes 1 5 ++ leBytes 1 code ++ leBytes 2 wl ++ leBytes 4 bits)

/-- The payload that bytes carry; `none` where a reserved byte or bit is set or a code is not listed. -/
def Ctl.ofBytes (bs : List Byte) : Option Ctl :=
  let f (lo n : Nat) : Nat := leNat ((bs.drop lo).take n)
  let clear (n : Nat) : Bool := (bs.drop n).all fun b => b = 0
  match f 0 1 with
  | 1 => if f 1 1 = 0 ∧ clear 10 then some (.credit ((List.range 4).map fun v => f (2 + 2 * v) 2)) else none
  | 2 => if clear 10 then some (.limits (BitVec.ofNat 8 (f 1 1)) ((List.range 4).map fun v => f (2 + 2 * v) 2)) else none
  | 3 =>
    if f 1 1 < 8 ∧ f 2 1 < 32 ∧ f 3 1 < 32 ∧ clear 7 then
      some (.swapreq (f 1 1) (f 2 1) (f 3 1) (f 4 2) (BitVec.ofNat 8 (f 6 1)))
    else none
  | 4 =>
    if (f 2 1 = 1 ∨ f 2 1 = 2) ∧ clear 3 then some (.swapack (BitVec.ofNat 8 (f 1 1)) (decide (f 2 1 = 1))) else none
  | 5 =>
    if (f 1 1 = 1 ∨ f 1 1 = 2) ∧ f 2 1 < 32 ∧ f 3 1 = 0 ∧ f 4 4 < 2 ^ 16 ∧ clear 8 then
      some (.train (f 1 1) (f 2 1) (f 4 4))
    else none
  | _ => none

/-! ## Flits (R255, Table 13-4) -/

/-- Bytes 0 to 11 of a flit that an end sends now. -/
def flitHead (l : Link) (f : Option Flit) : List Byte :=
  let g := f.getD { fseq := 0 }
  let kind := match f with
    | none => 2
    | some f => if f.ctl.isSome then 1 else 0
  let bit (b : Bool) (n : Nat) : Nat := if b then 2 ^ n else 0
  leBytes 2 g.fseq ++ leBytes 2 l.lastAcc
    ++ leBytes 1 (kind + 4 * g.vc + bit l.nakSend 4 + bit g.first 5 + bit g.last 6) ++ leBytes 1 g.hop ++ leBytes 6 0
/-- The payload of a flit; an idle flit carries zeros. -/
def flitBody (s : State) (f : Option Flit) : List Byte :=
  match f with
  | none => padTo 64 []
  | some f =>
    match f.ctl, f.pkt.bind s.pkts.find? with
    | some c, _ => c.bytes
    | none, some p => p.flitBytes f.part
    | none, none => padTo 64 []
/-- The 80 bytes of a flit. -/
def flitBytes (s : State) (l : Link) (f : Option Flit) : List Byte :=
  let head := flitHead l f
  let body := flitBody s f
  head ++ leBytes 4 (crc32c (head ++ body)) ++ body

/-! ## Lanes (R256) -/

/-- The switched order of an agreed swap (R262, R264): which wavelength each spare stands in for, and the live bitmap. A
wavelength that comes back joins the bitmap with the exchange of the last of the eight waveguides. -/
def Swap.order (w : Swap) (lit : Nat) (y : Lanes) : Nat × SMap Nat :=
  if w.leaving ≠ 16 then (lit, SMap.put y.spare w.guide w.leaving)
  else if w.back then (lit, SMap.del y.spare w.guide)
  else if (List.range 8).all fun g => g = w.guide || SMap.find? y.back (32 * g + w.entering) = some 3 then
    (lit ||| 2 ^ w.entering, y.spare)
  else (lit, y.spare)
/-- Whether sequence number a is at or after b on the circle of 2^16. -/
def seqGe (a b : Nat) : Bool := decide ((a + 65536 - b) % 65536 < 32768)
/-- Whether the other end has agreed to a proposal: its answer has been acted on, or waits to be. -/
def Link.agreedTo (l : Link) (w : Swap) : Bool := w.agreed || l.ctlIn.contains (.swapack w.no true)
/-- The order that carries the flit of a sequence number: from S on the switched one, replays included. -/
def laneOrder (l : Link) (y : Lanes) (fseq : Nat) : Nat × SMap Nat :=
  match y.swap with
  | some w => if l.agreedTo w && seqGe fseq w.s then w.order l.lit y else (l.lit, y.spare)
  | none => (l.lit, y.spare)

/-- The live data wavelengths of a bitmap, ascending. -/
def wavesOf (lit : Nat) : List Nat := (List.range 16).filter fun i => natBits lit i i = 1
/-- The wavelengths of a waveguide by rank: a spare has the rank of the wavelength it replaced. -/
def guideWaves (o : Nat × SMap Nat) (guide : Nat) : List Nat :=
  (wavesOf o.1).map fun w => if SMap.find? o.2 guide = some w then 16 else w
/-- Lanes of a direction. -/
def laneCount (o : Nat × SMap Nat) : Nat := 8 * (wavesOf o.1).length
/-- Beats of a flit over n lanes. -/
def flitBeats (n : Nat) : Nat := ceilDiv 640 n
/-- The flit bit that a beat carries on a wavelength of a waveguide; `none` for an idle lane. -/
def bitAt (o : Nat × SMap Nat) (beat guide wl : Nat) : Option Nat :=
  let ws := guideWaves o guide
  if guide < 8 && ws.contains wl then
    let b := beat * laneCount o + 8 * (ws.findIdx fun w => w = wl) + guide
    if b < 640 then some b else none
  else none

/-- Bytes with one bit turned. -/
def flipBit (bs : List Byte) (b : Nat) : List Byte := bs.modify (b / 8) fun x => x ^^^ BitVec.ofNat 8 (2 ^ (b % 8))

/-! ## What a receiver hears -/

/-- A flit as it arrives: whether its CRC is good, KIND, FSEQ, ACKSEQ and NAK, its control payload, whether it has reserved
bits set or an unlisted code (R260), and its payload where that changed on the way. -/
structure Heard where
  good : Bool := true
  kind : Nat := 2
  fseq : Nat := 0
  ack : Nat := 0
  nak : Bool := false
  ctl : Option Ctl := none
  odd : Bool := false
  body : Option (List Byte) := none
deriving DecidableEq, Repr

/-- A flit that arrives as it was sent. -/
def hearClean (l : Link) (f : Option Flit) : Heard :=
  match f with
  | none => { ack := l.lastAcc, nak := l.nakSend }
  | some f => { kind := if f.ctl.isSome then 1 else 0, fseq := f.fseq, ack := l.lastAcc, nak := l.nakSend, ctl := f.ctl }
/-- A flit read from its bytes. -/
def hearBytes (bs : List Byte) : Heard :=
  let f (lo n : Nat) : Nat := leNat ((bs.drop lo).take n)
  let body := bs.drop 16
  let kind := natBits (f 4 1) 1 0
  let c := Ctl.ofBytes body
  let odd := if kind = 1 then c.isNone || natBits (f 4 1) 7 7 ≠ 0 || natBits (f 5 1) 7 2 ≠ 0 || f 6 6 ≠ 0
    else kind = 0 && natBits (f 4 1) 5 5 = 1 && headerOdd body
  { good := f 12 4 = crc32c (bs.take 12 ++ body)
    kind := kind, fseq := f 0 2, ack := f 2 2, nak := natBits (f 4 1) 4 4 = 1
    ctl := if kind = 1 && !odd then c else none
    odd := odd
    body := some body }
/-- A flit of the end `x` as the end with link `l` and lanes `y` receives it: `flips` names the beats, waveguides and
wavelengths on which its bits were turned. -/
def hear (s : State) (x l : Link) (y : Lanes) (f : Option Flit) (flips : List (Nat × (Nat × Nat))) : Heard :=
  let o := laneOrder l y ((f.map (·.fseq)).getD l.lastAcc)
  match flips.filterMap fun e => bitAt o e.1 e.2.1 e.2.2 with
  | [] => hearClean x f
  | bits =>
    let bs := flitBytes s x f
    let bs' := bits.foldl flipBit bs
    if bs' = bs then hearClean x f else hearBytes bs'

end Sys2Proof.Machine
end

