-- ==== Sys2Proof/Machine/Records.lean ====
section
/-! DEFINITION. Records (02_describing_work) and the PCP's path from a record slot to a taken record (03_launching):
seals and sequence numbers, the rejection order of Table 2-8, images, arbitration, held kernels, SIGNAL and MESSAGE. -/

namespace Sys2Proof.Machine

/-! ## Fields of a record (Tables 2-5 to 2-7) -/

def Rec.ofBytes (bs : List Byte) : Rec :=
  (List.range 16).map fun i => BitVec.ofNat 64 (leNat ((bs.drop (8 * i)).take 8))
def Rec.seal (r : Rec) : Nat := natBits (r.q 15) 63 32
def Rec.residentId (r : Rec) : Nat := natBits (r.q 0) 47 32
def Rec.flag (r : Rec) (b : Nat) : Bool := natBits (r.q 0) b b = 1
def Rec.holdN (r : Rec) : Nat := natBits (r.q 0) 26 24

/-- Bits of each word that a kind leaves reserved (Tables 2-6 and 2-7). -/
def launchReserved : List (Nat × Nat) :=
  [(0, 0x00FF0000F8F00000), (1, 0xFF00000000000000), (2, 0xFF00000000000000), (3, 0xF000000000000000),
   (4, 0xF000000000000000), (5, 0xFFFFFFFF00000000), (10, 0xFF00000000000000), (14, 0xFFFFFFFFFFFFFFFF)]
def messageReserved : List (Nat × Nat) :=
  [(0, 0x00F00000FFFF0000), (9, 0xFF00000000000000), (10, 0xFFFFFFFFFFFFFFFF), (11, 0xFFFFFFFFFFFFFFFF),
   (12, 0xFFFFFFFFFFFFFFFF), (13, 0xFFFFFFFFFFFFFFFF), (14, 0xFFFFFFFFFFFFFFFF)]
def signalReserved : List (Nat × Nat) :=
  [(0, 0xFFFFFFFFFFFF0000), (1, 0xFF00000000000000), (2, 0xFFFFFFFF00000000)] ++
    (List.range 12).map fun i => (3 + i, 0xFFFFFFFFFFFFFFFF)
def Rec.hits (r : Rec) (ms : List (Nat × Nat)) : Bool := ms.any fun m => r.q m.1 &&& m.2 ≠ 0

/-- A reserved field is nonzero (R28, R32 to R34). -/
def Rec.rsvd (r : Rec) : Bool :=
  if r.kind = kindLaunch then
    r.hits launchReserved || (!r.flag 18 && r.residentId ≠ 0) || (!r.flag 17 && natBits (r.q 5) 31 0 ≠ 0)
  else if r.kind = kindMessage then
    r.hits messageReserved || (List.range 16).any fun i => r.payloadN ≤ i && r.payload i ≠ 0
  else r.hits signalReserved

/-- Lanes of a LANES code (Table 2-6). -/
def Rec.shape (r : Rec) : Shape :=
  { teams := natBits (r.q 2) 4 0, lanes := 32 * 2 ^ natBits (r.q 2) 7 5, vregs := natBits (r.q 2) 15 8 + 1 }
/-- R23. -/
def Shape.ok (p : Shape) : Bool :=
  1 ≤ p.teams && p.teams ≤ 16 && p.lanes ≤ 1024 && ceilDiv p.teams 4 * p.lanes * p.vregs ≤ 65536

/-- The fields of a LAUNCH (Table 2-6). -/
def Rec.launch (r : Rec) : Launch :=
  { entry := r.entry
    residentId := r.residentId
    determ := r.flag 19
    resident := r.flag 18
    travel := r.flag 17
    rollback := r.flag 16
    imageVa := natBits (r.q 1) 55 0
    extent := natBits (r.q 2) 55 16 + 1
    shape := r.shape
    affN := natBits (r.q 3) 59 56
    affVa := natBits (r.q 3) 55 0
    sigN := natBits (r.q 4) 59 56
    sigVa := natBits (r.q 4) 55 0
    ovfUnits := natBits (r.q 5) 31 0
    args := (List.range 8).map fun i => BitVec.ofNat 32 (r.q (6 + i / 2) / 2 ^ (32 * (i % 2)))
    holdBase := natBits (r.q 10) 55 0
    holds := (List.range r.holdN).map fun j =>
      (natBits (r.q 11) (16 * j + 15) (16 * j), BitVec.ofNat 32 (r.q (12 + j / 2) / 2 ^ (32 * (j % 2)))) }

/-! ## Acceptance (R29, R38, R40, R43, R418) -/

/-- Whether a queue takes records (R40, R43, R392). -/
def queueOn (s : State) (q : Nat) : Bool :=
  (s.queue q).enable && (s.tenant (s.queue q).tenant).enable && !(s.tenant (s.queue q).tenant).treset

/-- The resident kernel known for a tenant and ID (R29). -/
def knownKernel (s : State) (tenant id : Nat) : Option Nat :=
  (List.find? (fun uk : Nat × Kernel => uk.2.tenant = tenant && uk.2.launch.resident && uk.2.launch.residentId = id)
    s.kernels).map Prod.fst

/-- Whether an entry index names a handler (R33). -/
def Image.handles (i : Image) (e : Nat) : Bool := ((i.entries[e]?).map (·.handler)).getD false

/-- The first rejection reason of Table 2-8 that applies at acceptance. -/
def rejection (s : State) (tenant : Nat) (r : Rec) : Option Code :=
  if !(r.kind = kindLaunch || r.kind = kindMessage || r.kind = kindSignal) then some .badkind
  else if natBits (r.q 0) 15 8 ≠ 1 then some .badversion
  else if r.rsvd then some .rsvd
  else if r.kind = kindLaunch then
    if !r.shape.ok then some .badshape
    else if 4 < r.holdN || (r.holdN ≠ 0 && natBits (r.q 10) 1 0 ≠ 0) then some .badhold
    else if r.flag 18 && (knownKernel s tenant r.residentId).isSome then some .dupres
    else none
  else if r.kind = kindSignal then (if natBits (r.q 1) 1 0 ≠ 0 then some .badhold else none)
  else
    match (knownKernel s tenant r.residentId).bind (SMap.find? s.kernels) with
    | none => some .nores
    | some k => if k.taken && !k.image.handles r.entry then some .badentry else none

def Image.empty : Image :=
  { codeVa := 0, codeBytes := 0, lspace := 0, aspace := 0, wspace := 0, entries := [], segs := [] }

/-- One record is accepted: EXPECT rises, and the record is rejected or enters its queue; a LAUNCH makes its kernel known
(R29, R31, R38). -/
def acceptRec (s : State) (q : Nat) (r : Rec) : State :=
  let x := s.queue q
  let order := s.pcp.accOrder
  let s := s.updQueue q fun x => { x with expect := (x.expect + 1) % 2 ^ 32 }
  let s := s.updPcp fun p => { p with accOrder := order + 1 }
  match rejection s x.tenant r with
  | some c => finishRecord s q r.seq r.kind c 0
  | none =>
    let (k, s) : Option Nat × State :=
      if r.kind = kindLaunch then
        let k : Kernel :=
          { tenant := x.tenant, queue := q, seq := r.seq, launch := r.launch, image := .empty, accept := order }
        (some s.uid, { s with kernels := s.kernels.put s.uid k, uid := s.uid + 1 })
      else if r.kind = kindMessage then (knownKernel s x.tenant r.residentId, s)
      else (none, s)
    s.updQueue q fun x => { x with accepted := x.accepted ++ [(r, (order, k))] }

/-- Waiting copies are accepted while one carries EXPECT (R38). -/
def acceptWaiting : Nat → Nat → State → State
  | 0, _, s => s
  | n + 1, q, s =>
    match (s.queue q).waiting.find? (s.queue q).expect with
    | none => s
    | some r =>
      let s := s.updQueue q fun x => { x with waiting := SMap.del x.waiting x.expect }
      acceptWaiting n q (acceptRec s q r)

/-- A taken copy is checked (R38): SEAL, then SEQ. -/
def takeCopy (s : State) (q slot : Nat) (bs : List Byte) : State :=
  let r := Rec.ofBytes bs
  let x := s.queue q
  let crc := crc32c (bs.take 124)
  let ahead := (r.seq + 2 ^ 32 - x.expect) % 2 ^ 32
  if crc ≠ r.seal then s.event 0x02 0 q x.tenant r.seq (slot + r.seal * 2 ^ 32) crc
  else if ahead = 0 then acceptWaiting 256 q (acceptRec s q r)
  else if ahead ≤ 255 ∧ slot = r.seq % 256 then s.updQueue q fun x => { x with waiting := x.waiting.put r.seq r }
  else s.event 0x03 0 q x.tenant r.seq slot x.expect

/-- The 128 bytes of a slot. -/
def slotBytes (x : Queue) (slot : Nat) : List Byte := (List.range 128).map fun j => SMap.get 0 x.slots (128 * slot + j)
def storeSlots (x : Queue) (off : Nat) (bs : List Byte) : Queue :=
  { x with slots := ((List.range bs.length).zip bs).foldl (fun m jb =>
      if off + jb.1 < 0x8000 then SMap.set 0 m (off + jb.1) jb.2 else m) x.slots }

/-- A write of one TLP to a record window (R37, R40): each slot whose bytes 120 to 127 it touches is taken, in ascending
slot number (R37 gives several slots of one TLP no order: the model's choice, log 79). -/
def windowWrite (s : State) (q off : Nat) (bs : List Byte) : State :=
  if !queueOn s q then s
  else
    let s := s.updQueue q fun x => storeSlots x off bs
    let touched := (List.range 256).filter fun n => off < 128 * n + 128 && 128 * n + 120 < off + bs.length
    touched.foldl (fun s n => takeCopy s q n (slotBytes (s.queue q) n)) s

/-! ## Events of the record path -/

/-- RECORD_SLOT_WRITE (R37). -/
def execRecordSlotWrite (q off : Nat) (bytes : List Byte) (s : State) : Result :=
  hostTakes s false (some (clocks (windowWrite s q off bytes)))
/-- RECORD_WINDOW_WRITE (R37). -/
def execRecordWindowWrite (q off : Nat) (bytes : List Byte) (s : State) : Result :=
  hostTakes s false (some (clocks (windowWrite s q off bytes)))

/-- The flags of KEYBAD (Table 3-9). -/
def keyFlags (s : State) (q key : Nat) : Nat :=
  let x := s.queue q
  (if x.key = 0 then 2 ^ 8 else 0) + (if !x.eth || !queueOn s q then 2 ^ 9 else 0)
    + (if x.key.toNat ≠ key then 2 ^ 10 else 0)

/-- Whether a port drops a frame (R36): a bad FCS, a nonzero UDP checksum that fails, or an IPv6 datagram with a zero
checksum. -/
def frameDropped (f : Frame) : Bool := !f.fcs || f.sum = .bad || (f.v6 && f.sum = .zero)

/-- REQUEST_DATAGRAM (R36, R39): a datagram that is damaged or addressed elsewhere is dropped. Header bytes that a payload
lacks read as 0 (the model's choice, log 67). -/
def execRequestDatagram (addr : BitVec 128) (port : BitVec 16) (frame : Frame) (payload : List Byte) (s : State) :
    Result :=
  let at_ (i n : Nat) : Nat := leNat ((payload.drop i).take n)
  let q := natBits (at_ 0 2) 10 0
  let count := at_ 2 1
  let flags := keyFlags s q (at_ 4 8)
  let tenant := (s.queue q).tenant
  if frameDropped frame || addr ≠ s.host.reqAddr || port.toNat ≠ s.host.reqPort || s.host.reqPort = 0 || !hostOpen s false then .next s
  else if flags ≠ 0 then .next (s.event 0x04 0 q tenant 0 (count + flags) 0)
  else if count = 0 ∨ 8 < count ∨ natBits (at_ 0 2) 15 11 ≠ 0 ∨ at_ 3 1 ≠ 0 ∨ at_ 12 4 ≠ 0 ∨
      payload.length ≠ 16 + 128 * count then
    .next (s.event 0x05 0 q tenant 0 (payload.length % 2 ^ 16 + count * 2 ^ 16) 0)
  else
    .next <| clocks <| (List.range count).foldl (fun s i =>
      let bs := (payload.drop (16 + 128 * i)).take 128
      let slot := (Rec.ofBytes bs).seq % 256
      takeCopy (s.updQueue q fun x => storeSlots x (128 * slot) bs) q slot bs) s

/-! ## Images (R25 to R28) -/

def parseEntry (bs : List Byte) : Entry :=
  let w := leNat (bs.take 8)
  let flags := leNat ((bs.drop 9).take 1)
  { off := natBits w 31 0, fill := natBits w 47 32, timer := natBits w 63 48, liveV := leNat ((bs.drop 8).take 1),
    target := natBits flags 2 2 = 1, handler := natBits flags 1 1 = 1, start := natBits flags 0 0 = 1 }
/-- R26. -/
def entryOk (code vregs : Nat) (bs : List Byte) : Bool :=
  let e := parseEntry bs
  natBits (leNat ((bs.drop 9).take 1)) 7 3 = 0 && leNat (bs.drop 10) = 0 && e.off % 8 = 0 && e.off < code &&
    e.fill % 32 = 0 && e.fill ≤ 1024 && e.liveV ≤ 64 && e.liveV ≤ vregs
def parseSeg (bs : List Byte) : Seg :=
  let w := leNat (bs.take 8)
  let th := leNat ((bs.drop 8).take 2)
  let mr := leNat ((bs.drop 10).take 1)
  { start := natBits w 31 0, len := natBits w 63 32, thresh := if th = 0 then 256 else th,
    maxrep := if mr = 0 then 4 else mr }
/-- R27. -/
def segOk (code : Nat) (bs : List Byte) : Bool :=
  let g := parseSeg bs
  leNat (bs.drop 11) = 0 && g.start % 4096 = 0 && g.len % 8 = 0 && 8 ≤ g.len && g.len ≤ 131072 && g.maxrep ≤ 4 &&
    g.start + g.len ≤ code
def rowsOf16 (bs : List Byte) (n : Nat) : List (List Byte) := (List.range n).map fun i => (bs.drop (16 * i)).take 16
def disjointSegs (gs : List Seg) : Bool :=
  gs.Pairwise fun a b => a.start + a.len ≤ b.start ∨ b.start + b.len ≤ a.start
def inSeg (gs : List Seg) (off : Nat) : Bool := gs.any fun g => g.start ≤ off && off < g.start + g.len

/-- Reading and checking the image when the LAUNCH is taken, with the bytes as they then stand (where they were written
after acceptance, the model's choice, log 68). -/
def readImage (s : State) (tenant : Nat) (l : Launch) : Except Code Image × State :=
  match (if l.imageVa % 256 = 0 then pcpRead s tenant l.imageVa 64 else (none, s)) with
  | (none, s) => (.error .badimage, s)
  | (some d, s) =>
    let w (i : Nat) : Nat := leNat ((d.drop (8 * i)).take 8)
    let nSeg := natBits (w 0) 63 48
    let nEntry := natBits (w 0) 47 32
    let code := natBits (w 2) 31 0
    let aspace := natBits (w 3) 63 32
    let lspace := natBits (w 3) 31 0
    let wspace := natBits (w 4) 31 0
    let codeVa := natBits (w 1) 55 0
    let entryVa := natBits (w 5) 55 0
    let segVa := natBits (w 6) 55 0
    if natBits (w 0) 31 0 ≠ 0x4A584B31 ∨ natBits (w 1) 63 56 ≠ 0 ∨ natBits (w 2) 63 32 ≠ 0 ∨ natBits (w 4) 63 32 ≠ 0 ∨
        natBits (w 5) 63 56 ≠ 0 ∨ natBits (w 6) 63 56 ≠ 0 ∨ w 7 ≠ 0 ∨ 32 < nSeg ∨ nEntry = 0 ∨ 256 < nEntry ∨
        codeVa % 4096 ≠ 0 ∨ code % 8 ≠ 0 ∨ (if nSeg = 0 then 131072 else 4194304) < code ∨ aspace % 256 ≠ 0 ∨
        1048576 < aspace ∨ lspace % 256 ≠ 0 ∨ 245760 < lspace ∨ wspace % 4096 ≠ 0 ∨ 67108864 < wspace ∨
        entryVa % 16 ≠ 0 ∨ segVa % 16 ≠ 0 ∨ (nSeg = 0 ∧ segVa ≠ 0) ∨ l.travel ≠ decide (1 ≤ nSeg) ∨ 8 < l.affN ∨
        l.extent < nSeg then (.error .badimage, s)
    else
      let (eb?, s) := pcpRead s tenant entryVa (16 * nEntry)
      let (sb?, s) := pcpRead s tenant segVa (16 * nSeg)
      match eb?, sb? with
      | some eb, some sb =>
        let entries := (rowsOf16 eb nEntry).map parseEntry
        let segs := (rowsOf16 sb nSeg).map parseSeg
        let flagged := entries.filter fun e => e.start || e.handler || e.target
        if !((rowsOf16 sb nSeg).all (segOk code) && disjointSegs segs &&
            (nSeg = 0 || flagged.all fun e => inSeg segs e.off)) then (.error .badimage, s)
        else if !((rowsOf16 eb nEntry).all (entryOk code l.shape.vregs) &&
            ((entries[l.entry]?).map (·.start)).getD false) then (.error .badentry, s)
        else
          (.ok { codeVa := codeVa, codeBytes := code, lspace := lspace, aspace := aspace, wspace := wspace,
                 entries := entries, segs := segs }, s)
      | _, _ => (.error .badimage, s)

/-- Whether a home holds a read of the image's descriptor or of one of its tables (R216, R328). -/
def imageHeld (s : State) (tenant : Nat) (l : Launch) : Bool :=
  pcpHeld s tenant l.imageVa 64 ||
    match readVa s tenant l.imageVa 64 with
    | none => false
    | some d =>
      let w (i : Nat) : Nat := leNat ((d.drop (8 * i)).take 8)
      pcpHeld s tenant (natBits (w 5) 55 0) (16 * min 256 (natBits (w 0) 47 32)) ||
        pcpHeld s tenant (natBits (w 6) 55 0) (16 * min 32 (natBits (w 0) 63 48))

/-! ## Holds (R47, R48, R336) -/

def holdVa (l : Launch) (j : Nat × Word) : Nat := (l.holdBase + 4 * j.1) % 2 ^ 64

/-- The counters are read in ascending j: their values and lines, or the address of the first that fails. -/
def readHolds (s : State) (tenant : Nat) (l : Launch) : List (Nat × Word) → Except Nat (List (Nat × Bool)) × State
  | [] => (.ok [], s)
  | j :: js =>
    match pcpTouch s tenant (holdVa l j) with
    | (.leaf e, s) =>
      if e.attr ≠ .coherent then (.error (holdVa l j), s)
      else
        let pa := e.pa (holdVa l j)
        let (bs, s) := homeRead (touch s pa none) none pa 4
        match readHolds s tenant l js with
        | (.ok vs, s) => (.ok ((lineOf pa, serialGE (BitVec.ofNat 32 (leNat bs)) j.2) :: vs), s)
        | r => r
    | (_, s) => (.error (holdVa l j), s)

/-- A held kernel becomes ready to place. -/
def releaseKernel (s : State) (kid : Nat) : State :=
  (forgetHold s kid).updKernel kid fun k =>
    if k.phase = .held then { k with phase := .ready, readyAt := s.now, lastPlaced := s.now, retry := false } else k

/-- Whether a home holds the PCP's read of a kernel's counters (R216, R328). -/
def holdsHeld (s : State) (k : Kernel) : Bool :=
  k.launch.holds.any fun j =>
    match walk s k.tenant (holdVa k.launch j) with
    | .leaf e =>
      let pa := e.pa (holdVa k.launch j)
      irrevHolds s none false (lineOf pa) || lockHolds s s.uid false pa 4
    | _ => false
/-- The PCP reads a held kernel's counters: it is released, waits on their lines, or ends with HOLDFAULT. -/
def pollHolds (s : State) (kid : Nat) : State :=
  match s.kernels.find? kid with
  | none => s
  | some k =>
    let s := s.updKernel kid fun k => { k with retry := false }
    match readHolds s k.tenant k.launch k.launch.holds with
    | (.error va, s) => endKernel s kid .holdfault va
    | (.ok vs, s) =>
      if vs.all (·.2) then releaseKernel s kid
      else (vs.map (·.1)).foldl (fun s l => crumbAdd s (.hold kid) l) s

/-- HOLD_COUNTER_WAKE (R47). -/
def execHoldCounterWake (kernel : Nat) (s : State) : Result :=
  happen s <|
    (s.kernels.find? kernel).bind fun k =>
      if k.phase = .held && k.retry && !holdsHeld s k then some (clocks (pollHolds s kernel)) else none

/-! ## Taking a record (R29, R45, R49, R418) -/

/-- A MESSAGE becomes a lane entry on its way to a bin; `none` where it finds no room (R67). -/
def deliverMsg (s : State) (kid : Nat) (k : Kernel) (q : Nat) (r : Rec) : Option State :=
  match msgEntry s kid k q r with
  | none => some (finishRecord s q r.seq kindMessage .badentry 0)
  | some e => if accepts s e then some (s.addMsg { e with port := dispatcherPort e.isl }) else none

/-- A MESSAGE is taken (R29): it waits for the kernel's first crew, or is delivered; one whose kernel has retired has no
team to join and finishes (R419). -/
def takeMessage (s : State) (q : Nat) (r : Rec) (kid : Option Nat) : Option State :=
  match kid with
  | none => some (finishRecord s q r.seq kindMessage .ok 0)
  | some id =>
    match s.kernels.find? id with
    | none => some (finishRecord s q r.seq kindMessage .ok 0)
    | some k =>
      if k.placed = 0 then some (s.updKernel id fun k => { k with waitMsgs := k.waitMsgs ++ [(q, (r.seq, r))] })
      else deliverMsg s id k q r

/-- A counter addition of the PCP is performed or skipped (R49); `none` while an irrevocable attempt or a migration holds
its line. -/
def signalAdd (s : State) (tenant va inc : Nat) : Option (Bool × State) :=
  match pcpTouch s tenant va with
  | (.leaf e, s) =>
    if e.attr = .coherent ∧ e.w then
      let pa := e.pa va
      if writeHeld s s.uid pa 4 then none else some (true, homeAdd (touch s pa none) none pa inc)
    else some (false, s)
  | (_, s) => some (false, s)

/-- MESSAGEs that waited for the table are checked against it (R418). -/
def checkWaiting (s : State) (kid : Nat) (img : Image) : State :=
  let bad (r : Rec) : Bool := !img.handles r.entry
  let waits := ((s.kernels.find? kid).map (·.waitMsgs)).getD []
  let s := s.updKernel kid fun k => { k with waitMsgs := k.waitMsgs.filter fun m => !bad m.2.2 }
  let s := (waits.filter fun m => bad m.2.2).foldl (fun s m => finishRecord s m.1 m.2.1 kindMessage .badentry 0) s
  let mine (x : Rec × (Nat × Option Nat)) : Bool := x.2.2 = some kid && Rec.kind x.1 = kindMessage && bad x.1
  let gone := (s.queues.map fun kq => (kq.2.accepted.filter mine).map fun x => (kq.1, x.1)).flatten
  let s := { s with queues := s.queues.mapVals fun _ q => { q with accepted := q.accepted.filter fun x => !mine x } }
  gone.foldl (fun s x => finishRecord s x.1 (Rec.seq x.2) kindMessage .badentry 0) s

/-- A LAUNCH is taken (R25, R45, R47). -/
def takeLaunch (s : State) (level kid : Nat) : State :=
  match s.kernels.find? kid with
  | none => s
  | some k =>
    match readImage s k.tenant k.launch with
    | (.error c, s) => endKernel s kid c 0
    | (.ok img, s) =>
      let s := s.updKernel kid fun k => { k with image := img, level := level, phase := .held }
      let s := checkWaiting s kid img
      if k.launch.holds.isEmpty then releaseKernel s kid
      else if holdsHeld s { k with image := img } then s.updKernel kid fun k => { k with retry := true }
      else pollHolds s kid

/-- The head record of a queue is taken; `none` where it is not ready after all. A SIGNAL acts for the queue's tenant as it
stands, a LAUNCH or a MESSAGE for the tenant at acceptance (the model's choice where TENANT has been rewritten since,
log 69). -/
def takeHead (s : State) (q : Nat) : Option State :=
  let x := s.queue q
  match x.accepted with
  | [] => none
  | (r, (_, kid)) :: rest =>
    let out (s : State) : State := s.updQueue q fun x => { x with accepted := rest }
    if r.kind = kindLaunch then
      if imageHeld s (((s.kernels.find? (kid.getD 0)).map (·.tenant)).getD 0) r.launch then none
      else some (takeLaunch (out s) x.eff (kid.getD 0))
    else if r.kind = kindMessage then takeMessage (out s) q r kid
    else
      let va := natBits (r.q 1) 55 0
      (signalAdd (out s) x.tenant va (natBits (r.q 2) 31 0)).map fun bs =>
        finishRecord bs.2 q r.seq kindSignal (if bs.1 then .ok else .sigskip) (if bs.1 then 0 else va)

/-! ## Arbitration (R45, R46) -/

/-- Queues with a ready head: numbers, ascending. -/
def readyQueues (s : State) : List Nat := (s.queues.filter fun kq => headReady s kq.1 kq.2).map Prod.fst

/-- The queue whose turn it is at a level, with the records its turn has taken. A turn goes on while its queue's head is
ready and the WEIGHT as it now stands allows one more. -/
def turnAt (s : State) (level : Nat) (ready : List Nat) : Option (Nat × Nat) :=
  let here := ready.filter fun q => (s.queue q).eff = level
  let from_ (p : Nat) : Option (Nat × Nat) :=
    ((here.find? (p ≤ ·)).orElse fun _ => here.head?).map fun q => (q, 0)
  match s.pcp.turns.find? level with
  | some (q, n) => if here.contains q && n ≤ (s.queue q).weight then some (q, n) else from_ (q + 1)
  | none => from_ (SMap.get 0 s.pcp.rot level)

/-- The state of a level's turn after its take number `taken`: `again` while the queue's head stays ready at that level and
its WEIGHT allows one more. -/
def turnAfter (p : Pcp) (level q taken : Nat) (again : Bool) : Pcp :=
  if again then { p with turns := p.turns.put level (q, taken) }
  else { p with turns := SMap.del p.turns level, rot := SMap.set 0 p.rot level (q + 1) }

/-- After a take the queue stands at its LEVEL, and the clocks of queues at or above the level taken start again. -/
def afterTake (s : State) (q level : Nat) : State :=
  { s with queues := s.queues.mapVals fun n x =>
    if n = q then { x with eff := x.level, clock := none }
    else if level ≤ x.eff then { x with clock := x.clock.map fun _ => s.now } else x }

/-- The promotions that are due, one for each 1 ms, evaluated before a decision (R46). -/
def promoteDue (s : State) : State :=
  { s with queues := s.queues.mapVals fun n x =>
    match x.clock with
    | none => x
    | some c =>
      let steps := (s.now - c) / 2000000
      if heldRoom s && headReady s n x && steps ≠ 0 && x.eff < 47 then
        { x with eff := min 47 (x.eff + steps), clock := some (c + 2000000 * steps) }
      else x }

/-- ARBITRATION_DECISION (R45). -/
def execArbitrationDecision (s : State) : Result :=
  happen s <|
    let s := promoteDue s
    let ready := readyQueues s
    match argMin (fun q => 63 - (s.queue q).eff) ready with
    | none => none
    | some best =>
      let level := (s.queue best).eff
      match turnAt s level ready with
      | none => none
      | some (q, n) =>
        (takeHead s q).map fun s =>
          let s := afterTake s q level
          let again := headReady s q (s.queue q) && (s.queue q).eff = level && n + 1 ≤ (s.queue q).weight
          clocks (s.updPcp fun p => turnAfter p level q (n + 1) again)

/-- QUEUE_PROMOTION (R46): a ready head has waited 1 ms. -/
def execQueuePromotion (q : Nat) (s : State) : Result :=
  happen s <|
    let x := s.queue q
    match x.clock with
    | none => none
    | some c =>
      if heldRoom s && headReady s q x && c + 2000000 ≤ s.now && x.eff < 47 then
        some (s.updQueue q fun x => { x with eff := x.eff + 1, clock := some (c + 2000000) })
      else none

/-! ## Queue and tenant registers (R42, R43) -/

/-- Waiting copies of the queues of a tenant are discarded (R43). -/
def dropWaiting (s : State) (t : Nat) : State :=
  { s with queues := s.queues.mapVals fun _ q => if q.tenant = t then { q with waiting := [] } else q }

/-- QCFG_WRITE (R40, R42). A change of LEVEL or WEIGHT clears the promotion and leaves its clock running (R42 and R46 say
nothing of the clock: the model's choice, log 79). -/
def execQcfgWrite (q : Nat) (v : DWord) (s : State) : Result :=
  let x := v.toNat
  hostTakes s false <| some <| clocks <| s.updQueue q fun o =>
    let level := if natBits x 21 16 ≤ 47 then natBits x 21 16 else o.level
    let weight := natBits x 31 24
    let same := level = o.level ∧ weight = o.weight
    { o with
      weight := weight
      level := level
      tenant := if o.enable then o.tenant else natBits x 15 10
      eth := natBits x 1 1 = 1
      enable := natBits x 0 0 = 1
      waiting := if natBits x 0 0 = 1 then o.waiting else []
      eff := if same then o.eff else level }

/-- TCFG_WRITE (R43). -/
def execTcfgWrite (t : Nat) (v : DWord) (s : State) : Result :=
  let on := natBits v.toNat 0 0 = 1
  let s' := s.updTenant t fun x => { x with hbmw := natBits v.toNat 15 8, enable := on }
  hostTakes s false (some (if on then s' else dropWaiting s' t))

/-- RELEASE_HELD (R42, R48): every held kernel of the queue is released. -/
def execReleaseHeld (q : Nat) (s : State) : Result :=
  hostTakes s false <| some <|
    (s.kernels.filter fun uk => uk.2.queue = q && uk.2.phase = .held).foldl (fun s uk => releaseKernel s uk.1) s

end Sys2Proof.Machine
end

