-- ==== Sys2Proof/Machine/Dispatcher.lean ====
section
/-! DEFINITION. Placing work (04_placing): island sets (R58), what a core accepts and which core is chosen (R61, R62), crew
indices and ranges (R63, R64), code copies (R102), and the placement of a crew. -/

namespace Sys2Proof.Machine

/-! ## Sorting -/

def insertBy (f : Nat → List Nat) (x : Nat) : List Nat → List Nat
  | [] => [x]
  | y :: ys => if lexLt (f x) (f y) then x :: y :: ys else y :: insertBy f x ys
/-- A list sorted by a key, first elements kept first on ties. -/
def sortBy (f : Nat → List Nat) (l : List Nat) : List Nat := l.reverse.foldl (fun acc x => insertBy f x acc) []

/-! ## Free ranges -/

/-- The free ranges of [0, limit) between areas in use: base and size. -/
def gapsFrom (used : List (Nat × Nat)) (limit : Nat) : Nat → Nat → List (Nat × Nat)
  | 0, _ => []
  | n + 1, lo =>
    match argMin (·) ((used.filter fun u => lo < u.1 + u.2 && u.2 ≠ 0).map (·.1)) with
    | none => if lo < limit then [(lo, limit - lo)] else []
    | some b =>
      let e := (((used.filter fun u => u.1 = b && u.2 ≠ 0).map fun u => u.1 + u.2).foldl max 0)
      (if lo < b then [(lo, b - lo)] else []) ++ gapsFrom used limit n e
def gaps (used : List (Nat × Nat)) (limit : Nat) : List (Nat × Nat) := gapsFrom used limit (used.length + 1) 0

/-- A base for an allocation of a size, where one is free; size 0 needs none. -/
def fitIn (used : List (Nat × Nat)) (limit size : Nat) : Option Nat :=
  if size = 0 then some 0 else ((gaps used limit).find? fun g => size ≤ g.2).map (·.1)
/-- How many allocations of a size fit. -/
def fitCount (used : List (Nat × Nat)) (limit size most : Nat) : Nat :=
  if size = 0 then most else ((gaps used limit).map fun g => g.2 / size).sum

/-! ## What a core accepts (R61) -/

def lLimit : Nat := 245760
def aLimit : Nat := 1048576
def wLimit : Nat := 67108864
def storeLimit : Nat := 131072

def imageOf (s : State) (kid : Nat) : Image := ((s.kernels.find? kid).map (·.image)).getD .empty
def lUsed (s : State) (key : Nat) : List (Nat × Nat) :=
  (s.crewsOn key).map fun uc => (uc.2.lbase, (imageOf s uc.2.kernel).lspace)
def aUsed (s : State) (key : Nat) : List (Nat × Nat) :=
  (s.crewsOn key).map fun uc => (uc.2.abase, (imageOf s uc.2.kernel).aspace)
def wUsed (s : State) (isl cluster : Nat) : List (Nat × Nat) :=
  ((s.isl isl).wspace.filter fun w => w.cluster = cluster).map fun w => (w.base, w.size)

/-- Teams of a crew in a slot. -/
def Shape.inSlot (p : Shape) (slot : Nat) : Nat := (p.teams + 3 - slot) / 4
def Shape.words (p : Shape) : Nat := p.lanes * p.vregs

def codeHere (s : State) (kid key : Nat) : Bool := (s.core key).code.any fun c => c.kernel = kid
def codeUsed (s : State) (key : Nat) : Nat := ((s.core key).code.map (·.size)).sum
def wHere (s : State) (kid isl cluster : Nat) : Bool :=
  (s.isl isl).wspace.any fun w => w.kernel = kid && w.cluster = cluster

/-- Bytes of code a crew brings to a core: the whole code, or, for a pinning core, room for the longest segment, whichever
it will pin (R61, R68; the model's choice, log 70). -/
def codeNeed (k : Kernel) (pinning : Bool) : Nat :=
  if !k.travels then k.image.codeBytes
  else if pinning then (k.image.segs.map (·.len)).foldl max 0 else 0

/-- Whether a core accepts one more crew of a kernel (R61). -/
def coreAccepts (s : State) (kid : Nat) (k : Kernel) (pinning : Bool) (isl core : Nat) : Bool :=
  let key := coreKey isl core
  let p := k.launch.shape
  core < s.panel.coresOf isl &&
    (List.range 4).all (fun sl =>
      slotWords s key sl + p.inSlot sl * p.words ≤ 65536 && (slotAllots s key sl).length + p.inSlot sl ≤ 16) &&
    (fitIn (lUsed s key) lLimit k.image.lspace).isSome && (fitIn (aUsed s key) aLimit k.image.aspace).isSome &&
    ((codeHere s kid key && !pinning) || codeUsed s key + codeNeed k pinning ≤ storeLimit) &&
    (k.image.wspace = 0 || wHere s kid isl (core / 4) ||
      (fitIn (wUsed s isl (core / 4)) wLimit k.image.wspace).isSome)

/-- The order of R62 among accepting cores. -/
def coreRank (s : State) (kid : Nat) (isl core : Nat) : List Nat :=
  let key := coreKey isl core
  [if wHere s kid isl (core / 4) then 0 else 1, if codeHere s kid key then 0 else 1,
    (s.teams.filter fun ut => ((s.crewsOn key).map (·.1)).contains ut.2.crew).length, core]
def bestCore (s : State) (kid isl : Nat) (cores : List Nat) : Option Nat := (sortBy (coreRank s kid isl) cores).head?

def acceptingCores (s : State) (kid : Nat) (k : Kernel) (pinning : Bool) (isl : Nat) : List Nat :=
  (List.range 36).filter (coreAccepts s kid k pinning isl)

/-! ## Capacity and island sets (R58) -/

/-- Crews an empty core admits. -/
def emptyCore (k : Kernel) : Nat :=
  let p := k.launch.shape
  let n := min (65536 / max (p.inSlot 0 * p.words) 1) (16 / max (p.inSlot 0) 1)
  min n (min (fitCount [] lLimit k.image.lspace n) (fitCount [] aLimit k.image.aspace n))
/-- Crews a core admits as it stands. -/
def freeOnCore (s : State) (kid : Nat) (k : Kernel) (isl core : Nat) : Nat :=
  let key := coreKey isl core
  let p := k.launch.shape
  if !coreAccepts s kid k false isl core then 0
  else
    let bySlot := (List.range 4).map fun sl =>
      if p.inSlot sl = 0 then 16
      else min ((65536 - slotWords s key sl) / max (p.inSlot sl * p.words) 1)
        ((16 - (slotAllots s key sl).length) / p.inSlot sl)
    let n := bySlot.foldl min 16
    min n (min (fitCount (lUsed s key) lLimit k.image.lspace n) (fitCount (aUsed s key) aLimit k.image.aspace n))
def freeOnIsl (s : State) (kid : Nat) (k : Kernel) (isl : Nat) : Nat :=
  ((List.range 36).map (freeOnCore s kid k isl)).sum

/-- Bytes of a range that lie on pages homed on each island. -/
def scoreFrom (s : State) (tenant : Nat) : Nat → Nat → Nat → SMap Nat → SMap Nat
  | 0, _, _, m => m
  | f + 1, va, n, m =>
    if n = 0 then m
    else
      match walk s tenant va with
      | .leaf e =>
        let here := min n ((e.page + 4 ^ e.size) * 4096 - va)
        scoreFrom s tenant f (va + here) (n - here) (SMap.set 0 m e.isl (SMap.get 0 m e.isl + here))
      | _ =>
        let here := min n (4096 - va % 4096)
        scoreFrom s tenant f (va + here) (n - here) m

/-- The affinity ranges of a LAUNCH: as read when its island set was fixed, else as they stand; `none` where the list cannot
be read. -/
def affinity (s : State) (k : Kernel) : Option (List (Nat × Nat)) :=
  if k.launch.affN = 0 then some []
  else k.aff.orElse fun _ => (readVa s k.tenant k.launch.affVa (16 * k.launch.affN)).map fun bs =>
    (List.range k.launch.affN).map fun i => (leNat ((bs.drop (16 * i)).take 8), leNat ((bs.drop (16 * i + 8)).take 8))

/-- The live islands ranked for a kernel (R58). -/
def rankIslands (s : State) (kid : Nat) (k : Kernel) (aff : List (Nat × Nat)) : List Nat :=
  let live := s.liveIsls
  if aff.isEmpty then sortBy (fun d => [2 ^ 20 - freeOnIsl s kid k d, d]) live
  else
    let m := aff.foldl (fun m r => scoreFrom s k.tenant (r.2 / 4096 + 2) r.1 r.2 m) []
    let score (d : Nat) : Nat := 2 ^ 64 - SMap.get 0 m d
    let top := (sortBy (fun d => [score d, d]) live).headD 0
    sortBy (fun d => [score d, hops s top d, d]) live

/-- The island set of a kernel: as fixed, or as it would be were its first crew placed now (R58). -/
def islandSet (s : State) (kid : Nat) (k : Kernel) (aff : List (Nat × Nat)) : List Nat :=
  match k.isls with
  | some l => l
  | none =>
    let ranked := rankIslands s kid k aff
    let c := emptyCore k * s.panel.coresOf (ranked.headD 0)
    let n := if k.travels ∨ k.launch.extent = 1 then 1 else min ranked.length (ceilDiv k.launch.extent (max c 1))
    sortBy (fun d => [d]) (ranked.take n)

/-! ## Crew indices (R63, R64) -/

/-- The next index of a kernel on an island, with the kernel after it is taken; `none` where there is none. -/
def nextIndex (k : Kernel) (isls : List Nat) (isl : Nat) : Option (Nat × Kernel) :=
  if isls.length ≤ 1 ∧ k.ranges.isEmpty ∧ k.pool.isEmpty then
    if k.next < k.launch.extent then some (k.next, { k with next := k.next + 1 }) else none
  else
    match k.ranges.find? fun r => r.isl = isl && r.next < r.hi with
    | some r =>
      some (r.next, { k with ranges := k.ranges.map fun q => if q = r then { r with next := r.next + 1 } else q })
    | none =>
      let grant (lo hi : Nat) (k : Kernel) : Nat × Kernel :=
        (lo, { k with ranges := k.ranges ++ [{ isl := isl, lo := lo, hi := hi, next := lo + 1, exited := 0 }] })
      if k.rangeRetryAt.isSome then none
      else
        match k.pool with
        | (lo, hi) :: rest => some (grant lo hi { k with pool := rest })
        | [] =>
          if k.next < k.launch.extent then
            some (grant k.next (min (k.next + 16) k.launch.extent) { k with next := k.next + 16 })
          else none

/-! ## Where a crew goes (R57) -/

/-- Whether a kernel stands before another in the order of R57. -/
def Kernel.before (a b : Kernel) : Bool := b.level < a.level || (a.level = b.level && a.accept < b.accept)
/-- Whether a kernel still has crews to place. -/
def Kernel.unplaced (k : Kernel) : Bool :=
  k.next < k.launch.extent || !k.pool.isEmpty || k.ranges.any fun r => r.next < r.hi

/-- Whether an island takes a new crew of a kernel: it is live, the tenant does not stand pre-empted there, and no kernel
before it reserves the island (R57, R380). -/
def islandOpen (s : State) (kid : Nat) (k : Kernel) (isl : Nat) : Bool :=
  (s.isl isl).live && !(s.tenant k.tenant).stoppedOn.contains isl && !(s.tenant k.tenant).treset &&
    match s.pcp.reserving.bind fun r => (s.kernels.find? r).map fun q => (r, q) with
    | some (r, q) => r = kid || !q.before k || !(islandSet s r q ((affinity s q).getD [])).contains isl
    | none => true

/-- A placement: island, core and crew index, with the kernel's record after it. -/
structure Plan where
  isl : Nat
  core : Nat
  idx : Nat
  k : Kernel
deriving DecidableEq, Repr

/-- Where the next crew of a ready kernel can go: on the island of its set with the fewest of its crews. -/
def planCrew (s : State) (kid : Nat) (k : Kernel) (isls : List Nat) : Option Plan :=
  let able := isls.filterMap fun i =>
    if !islandOpen s kid k i then none
    else
      match nextIndex k isls i with
      | none => none
      | some (idx, k') =>
        let pins := k.travels && k.placed < k.image.segs.length
        let cores := (acceptingCores s kid k pins i).filter fun c => !pins || !k.pins.contains c
        if pins && cores.length < k.image.segs.length - k.placed then none
        else (bestCore s kid i cores).map fun c => ({ isl := i, core := c, idx := idx, k := k' } : Plan)
  let crews (p : Plan) : Nat := ((s.crewsOf kid).filter fun uc => uc.2.isl = p.isl).length
  match argMin (fun i => ((able.find? fun p => p.isl = i).map crews).getD 0) (able.map (·.isl)) with
  | some i => able.find? fun p => p.isl = i
  | none => none

/-- The overflow area of a travelling kernel (R28): `none` where the island has no room, and the kernel then waits (the
model's choice, log 71). -/
def takeOverflow (s : State) (kid : Nat) (k : Kernel) (isl : Nat) : Option State :=
  if !k.travels || k.launch.ovfUnits = 0 || k.ovfPa.isSome then some s
  else (takeFrame s isl (65536 * k.launch.ovfUnits)).map fun r =>
    r.2.updKernel kid fun k => { k with ovfPa := some r.1 }

/-- Whether a code copy of a kernel waits for a translation. -/
def codeParked (s : State) (kid : Nat) : Bool :=
  let mine (f : FaultEntry) : Bool := match f.who with
    | .code k _ => k = kid
    | _ => false
  s.isls.any fun i => i.2.faults.any (fun f => mine f.2) || i.2.faultWait.any mine

/-- The first page of a range of code that cannot be read: its address, and what the walk found. One that a poisoned sector
stands in the way of can never be read (R391, log 51). -/
def codeFault (s : State) (tenant : Nat) : List (Nat × Nat) → Option (Nat × Walk)
  | [] => none
  | (va, n) :: rest =>
    match walk s tenant va with
    | .leaf e =>
      if e.attr = .none || walkStruck s tenant va || poisoned s (e.pa va) n then some (va, .bad) else codeFault s tenant rest
    | w => some (va, w)

/-- Whether a home holds the read of a page of code (R216, R328). -/
def codeHeld (s : State) (tenant : Nat) (ps : List (Nat × Nat)) : Bool :=
  piecesHeld s false (((pcpPieces s tenant ps).1).getD [])

/-- The code a crew of a kernel brings to a core, page by page: none where it is there, or where the segments of a
travelling kernel are pinned. -/
def codePages (s : State) (kid : Nat) (k : Kernel) (key : Nat) : List (Nat × Nat) :=
  let need := if k.travels then (if k.placed = 0 then k.image.segs.map fun g => (k.image.codeVa + g.start, g.len) else [])
    else if codeHere s kid key then [] else [(k.image.codeVa, k.image.codeBytes)]
  (need.map fun r => pieces r.1 r.2).flatten

/-- Whether a home holds the PCP's read of a kernel's affinity list (R216, R328). -/
def affinityHeld (s : State) (k : Kernel) : Bool :=
  k.launch.affN ≠ 0 && k.aff.isNone && pcpHeld s k.tenant k.launch.affVa (16 * k.launch.affN)

/-- The island set and the next crew of a kernel that can place one now (R57): it is ready, its code copy waits for no page,
no home holds the reads of its affinity list and its code, and its island has room for its overflow area. -/
def placement (s : State) (kid : Nat) (k : Kernel) : Option (List Nat × Plan) :=
  if k.phase ≠ .ready || codeParked s kid || affinityHeld s k then none
  else
    (affinity s k).bind fun aff =>
      let isls := islandSet s kid k aff
      (planCrew s kid k isls).bind fun p =>
        let need := codePages s kid k (coreKey p.isl p.core)
        if (codeFault s k.tenant need).isNone && codeHeld s k.tenant need then none
        else (takeOverflow s kid k p.isl).map fun _ => (isls, p)
/-- Whether a kernel can place a crew now. -/
def placeable (s : State) (kid : Nat) (k : Kernel) : Bool := (placement s kid k).isSome

/-! ## Code copies (R102) -/

/-- A copy of code enters the instruction store of a core, with the bytes as they then stand (where they were written after
the record was accepted, the model's choice, log 68). -/
def loadCode (s : State) (kid : Nat) (k : Kernel) (key base size : Nat) : State :=
  if (s.core key).code.any fun c => c.kernel = kid && c.base = base && c.size = size then s
  else
    let (bs?, s) := pcpRead s k.tenant (k.image.codeVa + base) size
    let bs := bs?.getD []
    let copy : CodeCopy :=
      { kernel := kid, base := base, size := size
        bytes := ((List.range bs.length).zip bs).foldl (fun m jb => SMap.set 0 m jb.1 jb.2) [] }
    s.updCore key fun c => { c with code := c.code ++ [copy] }

/-! ## A crew starts -/

/-- A crew takes its storage on a core and its teams start (R61); those of a travelling kernel's crew only where its core
pins the segment of the launch entry (R403). -/
def startCrew (s : State) (kid : Nat) (k : Kernel) (isl core idx : Nat) : State :=
  let key := coreKey isl core
  let lb := (fitIn (lUsed s key) lLimit k.image.lspace).getD 0
  let ab := (fitIn (aUsed s key) aLimit k.image.aspace).getD 0
  let s := if k.image.wspace = 0 || wHere s kid isl (core / 4) then s
    else
      let wb := (fitIn (wUsed s isl (core / 4)) wLimit k.image.wspace).getD 0
      s.updIsl isl fun i => { i with
        wspace := { kernel := kid, cluster := core / 4, base := wb, size := k.image.wspace
                    mem := sliceOf (SMap.get [] i.wstore (core / 4)) wb k.image.wspace } :: i.wspace }
  let s := if k.travels then s else loadCode s kid k key 0 k.image.codeBytes
  let (mirror, s) := match takeFrame s isl 4096 with
    | some (pa, s) => (some pa, s)
    | none => (none, s)
  let (cu, s) := s.fresh
  let c : Crew :=
    { kernel := kid, idx := idx, isl := isl, core := core, lbase := lb, abase := ab, mirror := mirror
      lmem := sliceOf (s.core key).lstore lb k.image.lspace, amem := sliceOf (s.core key).astore ab k.image.aspace }
  let s := { s with crews := s.crews.put cu c }
  let s := startCrewTeams s kid k cu key
  binsAdvance (l1Acquire s key) key

/-- The MESSAGEs that waited for the first crew are delivered, while the pool has room (R29, R67). -/
def flushMsgs (kid : Nat) : List (Nat × (Nat × List DWord)) → State → State
  | [], s => s.updKernel kid fun k => { k with waitMsgs := [] }
  | m :: ms, s =>
    match s.kernels.find? kid with
    | none => s
    | some k =>
      match deliverMsg s kid k m.1 m.2.2 with
      | some s => flushMsgs kid ms s
      | none => s.updKernel kid fun k => { k with waitMsgs := m :: ms }
def flushWaiting (s : State) (kid : Nat) : State :=
  match s.kernels.find? kid with
  | some k => if k.placed = 0 then s else flushMsgs kid k.waitMsgs s
  | none => s

/-- One crew is placed as planned. -/
def placeCrew (s : State) (kid : Nat) (isls : List Nat) (p : Plan) : State :=
  let k := { p.k with
    isls := some isls
    leader := if p.k.isls.isSome then p.k.leader else (argMin id isls).getD 0
    placed := p.k.placed + 1
    lastPlaced := s.now
    pins := if p.k.travels && p.k.placed < p.k.image.segs.length then p.k.pins ++ [p.core] else p.k.pins }
  let s := { s with kernels := s.kernels.put kid k }
  let s := s.updPcp fun q => { q with reserving := if q.reserving = some kid then none else q.reserving }
  startCrew s kid k p.isl p.core p.idx

/-- The segments of a travelling kernel are pinned, in ascending core number (R68), and the teams of the crew whose core
pins the launch entry start (R403). -/
def pinSegments (s : State) (kid isl : Nat) : State :=
  match s.kernels.find? kid with
  | none => s
  | some k =>
    let cores := sortBy (fun c => [c]) k.pins
    let pairs := cores.zip k.image.segs
    let s := pairs.foldl (fun s cg => loadCode s kid k (coreKey isl cg.1) cg.2.start cg.2.len) s
    let s := (s.crewsOf kid).foldl (fun s uc => if pinsEntry s kid k uc.2.key then startTeams s k uc.1 else s) s
    let holder (c : Nat) : SegMap :=
      { holders := [{ core := c, load := 0, lastArrival := s.now, inMap := true }]
        windows := s.now / 2000 }
    s.updKernel kid fun k => { k with segMap := cores.map holder, mapsDone := s.now / 2000 }

/-- The first crews of a travelling kernel, one on each pinning core (R62). -/
def placePinned (kid : Nat) (isls : List Nat) : Nat → State → State
  | 0, s => s
  | n + 1, s =>
    match s.kernels.find? kid with
    | none => s
    | some k =>
      match planCrew s kid k isls with
      | none => s
      | some p => placePinned kid isls n (placeCrew s kid isls p)

/-- A code page is missing: the copy waits in the fault buffer like any replayable fault, or the kernel ends (R102). -/
def codeStops (s : State) (kid : Nat) (k : Kernel) (isl core va : Nat) (w : Walk) : State :=
  match w with
  | .missing d .. =>
    faultEnter s isl
      { who := .code kid core, tenant := k.tenant, va := va, write := false, demand := d, kernelSeq := k.seq } k.queue
  | _ => endKernel s kid .tenantfault va

/-- The PCP reads the affinity list of a kernel whose island set it fixes (R58). -/
def readAffinity (s : State) (k : Kernel) : State :=
  if k.launch.affN = 0 || k.aff.isSome then s else (pcpRead s k.tenant k.launch.affVa (16 * k.launch.affN)).2
/-- CREW_PLACEMENT (R57 to R63, R102): a kernel before which no other can place a crew places its next one. -/
def execCrewPlacement (kernel : Nat) (s : State) : Result :=
  happen s <|
    (s.kernels.find? kernel).bind fun k =>
      if s.kernels.any fun uq => uq.2.before k && placeable s uq.1 uq.2 then none
      else if k.phase = .ready && k.placed = 0 && !affinityHeld s k && (affinity s k).isNone then some (clocks (endKernel s kernel .badimage 0))
      else
        (placement s kernel k).bind fun ip =>
          let p := ip.2
          let need := codePages s kernel k (coreKey p.isl p.core)
          match codeFault s k.tenant need with
          | some (va, w) => some (clocks (codeStops s kernel k p.isl p.core va w))
          | none =>
            (takeOverflow (readAffinity s k) kernel k p.isl).map fun s =>
              let p := { p with k := { p.k with ovfPa := ((s.kernels.find? kernel).bind (·.ovfPa)), aff := affinity s k } }
              let s := placeCrew s kernel ip.1 p
              let s := if k.travels ∧ k.placed = 0 then
                  pinSegments (placePinned kernel ip.1 (k.image.segs.length - 1) s) kernel p.isl
                else s
              flushWaiting s kernel

/-- RESERVING_KERNEL (R57). -/
def execReservingKernel (s : State) : Result :=
  happen s <|
    if s.pcp.reserving.isSome then none
    else
      let able := s.kernels.filter fun uk => uk.2.phase = .ready && uk.2.unplaced
      match List.find? (fun uk : Nat × Kernel => able.all fun uq => uq.1 = uk.1 || uk.2.before uq.2) able with
      | some (kid, k) =>
        if k.lastPlaced + 2000000 ≤ s.now then some (s.updPcp fun p => { p with reserving := some kid }) else none
      | none => none

/-- RANGE_TAKE_RETRY (R64): the take is repeated to the new leader. -/
def execRangeTakeRetry (kernel isl : Nat) (s : State) : Result :=
  happen s <|
    (s.kernels.find? kernel).bind fun k =>
      if k.rangeRetryAt.isSome && (k.isls.getD []).contains isl then
        some (s.updKernel kernel fun k => { k with rangeRetryAt := none })
      else none

end Sys2Proof.Machine
end

