-- ==== Sys2Proof/Machine/Bins.lean ====
section
/-! DEFINITION. Lane entries on their way (R65 to R67, R119, R120, R249, R419), segment maps and replicas (R68, R69), and
the promotion of teams (R114). -/

namespace Sys2Proof.Machine

/-! ## Arrivals -/

/-- A payload enters the overflow area of its kernel, where there is room (R119). -/
def toOverflow (s : State) (kid : Nat) (k : Kernel) (e : LaneEntry) : Option State :=
  if k.overflow.length < overflowCap k then
    some (s.updKernel kid fun k => { k with overflow := k.overflow ++ [{ e with src := none }] })
  else none

/-- A travelling payload arrives: forwarded from a holder that left the map (R69, R120) or from a core with no crew for it
(R419), into its bin, or to the overflow area; `none` where all are full. -/
def arrive (s : State) (e : LaneEntry) : Option State :=
  match s.kernels.find? e.kernel with
  | none => some s
  | some k =>
    let r := if inMapAt k e.off e.core then e
      else match holderFor s e.kernel k e.isl e.off with
        | some c => { e with core := c }
        | none => e
    let r := if (openCrews s e.kernel).isEmpty then r else rerouted s r
    if (r.isl, r.core) ≠ (e.isl, e.core) then some (forward s e.isl r)
    else
      match enterBin (noteArrival s e) e with
      | some s => some s
      | none => toOverflow s e.kernel k e

/-- Whether a message waits behind another (R248, R249): behind one that stands before its cluster, or behind an earlier
one from the same endpoint port to the same cluster, or behind one of an earlier lane of its SPAWN (R139). Travelling
payloads arrive in any order (R120). -/
def msgBehind (s : State) (id : Nat) (e : LaneEntry) : Bool :=
  s.msgs.any fun jf => jf.1 ≠ id && jf.2.isl = e.isl && jf.2.core / 4 = e.core / 4 &&
    (jf.2.stuck || (jf.1 < id && e.port.isSome && !e.payload.travels && jf.2.port = e.port) || jf.2.ahead e)

/-- ACTIVE_MESSAGE (R249): the entry is keyed into a bin; one that finds no room stays in the router before its core, whose
port toward the cluster it holds. A travelling payload that finds its bin and the overflow area full stays in flight (the
model's choice, log 66). -/
def execActiveMessage (msg : Nat) (s : State) : Result :=
  happen s <|
    (s.msgs.find? msg).bind fun e =>
      if msgBehind s msg e then none
      else
        let s' := { s with msgs := s.msgs.del msg }
        if (s.kernels.find? e.kernel).isNone then some s'
        else if e.payload.travels then arrive s' e
        else
          match enterEntry s' e with
          | some s' => some s'
          | none => if e.stuck then none else some { s with msgs := s.msgs.put msg { e with stuck := true } }

/-- When the timer of a bin's forming team expires (R66). -/
def Bin.expiry (s : State) (b : Bin) : Option Nat :=
  if b.expired then none
  else
    (s.kernels.find? b.kernel).bind fun k =>
      let start : Option Nat := match b.forming with
        | some _ => some b.formStart
        | none => b.entries.head?.map LaneEntry.at_
      start.map (· + ((k.entryAt b.off).map Entry.cycles).getD 4096)

/-- BIN_TIMER_EXPIRY (R66). -/
def execBinTimerExpiry (core bin : Nat) (s : State) : Result :=
  happen s <|
    (SMap.find? (s.core core).bins bin).bind fun b =>
      if !(b.expiry s).any (· ≤ s.now) then none
      else
        some (binAdvance core bin 10 (s.updCore core fun c => { c with bins := c.bins.put bin { b with expired := true } }))

/-- The first pooled entry, in arrival order, that finds a place: it goes there as an active message (R249); and the
rest. -/
def reinjectFrom (s : State) : List LaneEntry → Option (State × List LaneEntry)
  | [] => none
  | e :: es =>
    let e' := rerouted s e
    let takes := if e'.isl = e.isl then flyingEntries s e' < binRoom s e' else accepts s e'
    if takes then some (forward s e.isl e', es) else (reinjectFrom s es).map fun r => (r.1, e :: r.2)

/-- POOL_REINJECT (R67): the room it makes may take MESSAGEs that wait for a kernel's first crew. -/
def execPoolReinject (isl : Nat) (s : State) : Result :=
  happen s <|
    (reinjectFrom s (s.isl isl).pool).map fun r =>
      let s := r.1.updIsl isl fun i => { i with pool := r.2 }
      clocks ((SMap.keys s.kernels).foldl flushWaiting s)

/-- The first overflowed payload, in the order of entry, that finds room in a bin, and the rest (R119). -/
def overflowFrom (s : State) (kid : Nat) (k : Kernel) : List LaneEntry → Option (State × List LaneEntry)
  | [] => none
  | e :: es =>
    let e' := { e with core := (holderFor s kid k e.isl e.off).getD e.core }
    match (if binTakes s k e' then enterBin (noteArrival s e') e' else none) with
    | some s => some (s, es)
    | none => (overflowFrom s kid k es).map fun r => (r.1, e :: r.2)

/-- OVERFLOW_REINJECT (R119). -/
def execOverflowReinject (kernel : Nat) (s : State) : Result :=
  happen s <|
    (s.kernels.find? kernel).bind fun k =>
      (overflowFrom s kernel k k.overflow).map fun r => r.1.updKernel kernel fun k => { k with overflow := r.2 }

/-! ## Segment maps (R68, R69) -/

/-- Lanes of a team in its mask or in an entry of its stack. -/
def Team.present (t : Team) : Nat :=
  (lanesOf (t.flow.stack.foldl (fun m e => m ||| e.saved ||| e.todo) t.flow.mask) t.lanes).length
/-- Teams of a kernel on a core. -/
def teamsAt (s : State) (kid key : Nat) : List Team :=
  let crews := (s.crewsOn key).filter fun uc => uc.2.kernel = kid
  (s.teams.filter fun ut => (SMap.find? crews ut.2.crew).isSome).map Prod.snd
/-- Arrivals of a kernel that wait in the bins of a core, its reserved forming teams among them. -/
def waitingAt (s : State) (kid key : Nat) : Nat :=
  ((s.core key).bins.map fun kb =>
    if kb.2.kernel = kid then kb.2.entries.length + (match kb.2.forming with
      | some (_, ls) => ls.length
      | none => 0)
    else 0).sum
/-- The load figure of a core (R68). -/
def loadOf (s : State) (kid key : Nat) : Nat :=
  waitingAt s kid key + ((teamsAt s kid key).map Team.present).sum

/-- Cores of a kernel that pin a copy no holder of the map stands for lose it once they are empty (R69). -/
def unpin (s : State) (kid : Nat) : State :=
  match s.kernels.find? kid with
  | none => s
  | some k =>
    let isl := (k.isls.getD []).headD 0
    let held (core : Nat) : Bool := k.segMap.any fun m => m.holders.any fun h => h.core = core
    (List.range 36).foldl (fun s c =>
      let key := coreKey isl c
      if held c || waitingAt s kid key ≠ 0 || !(teamsAt s kid key).isEmpty || !codeHere s kid key then s
      else s.updCore key fun x => { x with code := x.code.filter fun y => y.kernel ≠ kid }) s

/-- SEGMENT_MAP_REFRESH (R68, R69). -/
def refreshMap (s : State) (kid : Nat) (k : Kernel) : State :=
  let isl := (k.isls.getD []).headD 0
  let renew (h : Holder) : Holder :=
    { h with load := loadOf s kid (coreKey isl h.core), inMap := true }
  unpin (s.updKernel kid fun k =>
    { k with
      segMap := k.segMap.map fun m => { m with holders := m.holders.map renew }
      mapsDone := k.mapsDone + 1 }) kid

def execSegmentMapRefresh (kernel : Nat) (s : State) : Result :=
  happen s <|
    (s.kernels.find? kernel).bind fun k =>
      if k.travels && !k.segMap.isEmpty && k.mapsDone < s.now / 2000 then some (refreshMap s kernel k) else none

/-- Whether a core of a kernel is idle (R69, R403): it pins nothing, or a replica that is not its segment's last holder
and has had no queued arrival and no running team for a full window; with the segment whose replica it holds. -/
def idleCore (s : State) (kid : Nat) (k : Kernel) (isl core : Nat) : Option (Option Nat) :=
  let key := coreKey isl core
  if !(s.crewsOf kid).any fun uc => uc.2.key = key && !uc.2.saved then none
  else
    match (List.range k.segMap.length).find? fun i =>
        ((k.segMap.getD i {}).holders).any fun h => h.core = core with
    | none => if codeHere s kid key then none else some none
    | some i =>
      let hs := (k.segMap.getD i {}).holders
      let lastTeam := (((s.crewsOn key).filter fun uc => uc.2.kernel = kid).map fun uc => uc.2.lastBusy).foldl max 0
      let quiet := waitingAt s kid key = 0 && (teamsAt s kid key).isEmpty &&
        hs.any fun h => h.core = core && h.inMap && max h.lastArrival lastTeam + 2000 ≤ s.now / 2000 * 2000
      if 2 ≤ hs.length && quiet then some (some i) else none

/-- The idle core of lowest number with room for a segment: one whose store has no room is passed over (the model's choice,
log 72). -/
def pickIdle (s : State) (kid : Nat) (k : Kernel) (isl seg len : Nat) : Option (Nat × Option Nat) :=
  let cands := (List.range 36).filterMap fun c => (idleCore s kid k isl c).map fun o => (c, o)
  cands.find? fun co =>
    let key := coreKey isl co.1
    let freed := (((s.core key).code.filter fun x => x.kernel = kid).map (·.size)).sum
    co.2 ≠ some seg && codeUsed s key - freed + len ≤ storeLimit

/-- A replica of a segment is loaded on an idle core; it enters the map at the next refresh. -/
def addReplica (s : State) (kid : Nat) (k : Kernel) (isl seg core : Nat) (old : Option Nat) (g : Seg) : State :=
  let key := coreKey isl core
  let s := s.updCore key fun x => { x with code := x.code.filter fun y => y.kernel ≠ kid }
  let s := loadCode s kid k key g.start g.len
  let h : Holder := { core := core, load := 0, lastArrival := s.now, inMap := false }
  let leave (i : Nat) (m : SegMap) : SegMap :=
    if old = some i then { m with holders := m.holders.filter fun x => x.core ≠ core }
    else if i = seg then { m with holders := m.holders ++ [h], hot := 0 }
    else m
  let maps := (List.range k.segMap.length).map fun i => leave i (k.segMap.getD i {})
  s.updKernel kid fun k => { k with segMap := maps }

/-- REPLICA_WINDOW (R69): the end of a window of 1 µs for a segment; windows count as consecutive where each one's end was
seen. -/
def replicaWindow (s : State) (kid seg : Nat) (k : Kernel) (m : SegMap) (g : Seg) : State :=
  let isl := (k.isls.getD []).headD 0
  let queued := (m.holders.map fun h => waitingAt s kid (coreKey isl h.core)).sum
  let run := if m.windows + 1 = s.now / 2000 then m.hot else 0
  let hot := if g.thresh < queued then min (run + 1) 3 else 0
  let s := s.updKernel kid fun k => { k with segMap := k.segMap.set seg { m with hot := hot, windows := s.now / 2000 } }
  if hot = 3 && m.holders.length < g.maxrep then
    match pickIdle s kid k isl seg g.len with
    | none => s
    | some (core, old) =>
      let need := pieces (k.image.codeVa + g.start) g.len
      match codeFault s k.tenant need with
      | some (va, w) => if codeParked s kid then s else clocks (codeStops s kid k isl core va w)
      | none => if codeHeld s k.tenant need then s else addReplica s kid k isl seg core old g
  else s

def execReplicaWindow (kernel seg : Nat) (s : State) : Result :=
  happen s <|
    (s.kernels.find? kernel).bind fun k =>
      (k.segMap[seg]?).bind fun m => (k.image.segs[seg]?).bind fun g =>
        if m.windows < s.now / 2000 then some (replicaWindow s kernel seg k m g) else none

/-- REPLICA_RETIREMENT (R69): 50 µs with no arrival; the last holder is never retired. -/
def execReplicaRetirement (kernel seg core : Nat) (s : State) : Result :=
  happen s <|
    (s.kernels.find? kernel).bind fun k =>
      (k.segMap[seg]?).bind fun m =>
        (m.holders.find? fun h => h.core = core).bind fun h =>
          if h.inMap && (m.holders.filter (·.inMap)).length ≥ 2 && h.lastArrival + 100000 ≤ s.now then
            some (unpin (s.updKernel kernel fun k => { k with
              segMap := k.segMap.set seg { m with holders := m.holders.filter fun x => x.core ≠ core } }) kernel)
          else none

/-! ## Promotion of teams (R114) -/

/-- Whether a team may issue at all: it runs, and its crew is neither halted, stopped, saved nor gone. -/
def canIssue (s : State) (t : Team) : Bool :=
  t.status = .run && match s.crews.find? t.crew with
    | some c => c.halt.isNone && !c.stop && !c.saved && !c.exited
    | none => false

/-- TEAM_PROMOTION (R114): 4,096 cycles ready and not chosen. -/
def execTeamPromotion (team : Nat) (s : State) : Result :=
  happen s <|
    (s.teams.find? team).bind fun t =>
      if canIssue s t && t.sched.promoted.isNone && t.sched.readySince + 4096 ≤ s.now then
        some (s.updTeam team fun t => { t with sched := { t.sched with promoted := some (t.sched.readySince + 4096) } })
      else none

end Sys2Proof.Machine
end

