-- ==== Sys2Proof/Machine/Coll.lean ====
section
/-! DEFINITION. Collectives (19_collectives): the group table, COLL, and the events that move chunks along their tree,
complete commands, time out and serve deadline requests (R217, R218). -/

namespace Sys2Proof.Machine

/-! ## The group table (R360, R361) -/

def groupWord (s : State) (isl g w : Nat) : DWord := SMap.get 0 s.groupTab ((256 * isl + g) * 8 + w)
def groupEntry (s : State) (isl g : Nat) : List DWord := (List.range 4).map (groupWord s isl g)

/-- Writable bits of a word of an entry (Table 19-1). -/
def groupRw (w : Nat) : DWord :=
  match w with
  | 0 => 0x003FFF7FC1FFFFFF
  | 1 => 0xFFFFFFFFFFFFFFFF
  | 2 => 0x00000000FFFFFFFF
  | 3 => 0x00FFFFFFFFFFFFFF
  | _ => 0

def groupInst (s : State) (isl g : Nat) : GroupInst := SMap.get {} (s.isl isl).groups g
def updGroup (s : State) (isl g : Nat) (f : GroupInst → GroupInst) : State :=
  s.updIsl isl fun i => { i with groups := SMap.set {} i.groups g (f (SMap.get {} i.groups g)) }

/-- GROUP_TABLE_WRITE (R360, R371): instance numbering restarts. A write of a reserved word changes nothing (R6). -/
def execGroupTableWrite (isl g word : Nat) (v : DWord) (s : State) : Result :=
  let s' := { s with groupTab := SMap.set 0 s.groupTab ((256 * isl + g) * 8 + word) (v &&& groupRw word) }
  hostTakes s false (if groupRw word = 0 then none else some (updGroup s' isl g fun x => { epoch := x.epoch + 1 }))

/-- Fields of an entry. -/
abbrev GEntry := List DWord
def GEntry.word (e : GEntry) (w : Nat) : Nat := (List.getD e w 0).toNat
def GEntry.members (e : GEntry) : List Nat := (List.range 25).filter fun d => e.word 0 / 2 ^ d % 2 = 1
def GEntry.root (e : GEntry) : Nat := natBits (e.word 0) 47 43
def GEntry.fanin (e : GEntry) : Nat := natBits (e.word 0) 42 40
def GEntry.etype (e : GEntry) : Nat := natBits (e.word 0) 50 48
def GEntry.rop (e : GEntry) : Nat := natBits (e.word 0) 53 51
def GEntry.persist (e : GEntry) : Bool := natBits (e.word 0) 37 37 = 1
def GEntry.segb (e : GEntry) : Nat := natBits (e.word 1) 31 0
def GEntry.chunkField (e : GEntry) : Nat := natBits (e.word 1) 63 32
/-- TIMEOUT in core cycles. -/
def GEntry.timeout (e : GEntry) : Nat := 2000 * natBits (e.word 2) 31 0
def GEntry.statVa (e : GEntry) : Nat := natBits (e.word 3) 55 0
/-- The chunk size in use (R361). -/
def GEntry.chunkSize (e : GEntry) : Nat := min (if e.chunkField = 0 then 65536 else e.chunkField) e.segb
def GEntry.nChunks (e : GEntry) : Nat := ceilDiv e.segb (max e.chunkSize 1)
def GEntry.chunkLen (e : GEntry) (c : Nat) : Nat := min e.chunkSize (e.segb - c * e.chunkSize)
/-- The rank of a member (R361). -/
def GEntry.rank (e : GEntry) (d : Nat) : Nat := GEntry.members e |>.findIdx fun m => m = d
def GEntry.ofRank (e : GEntry) (r : Nat) : Option Nat := (GEntry.members e)[r]?

/-- R361. -/
def GEntry.usable (e : GEntry) (tenant isl : Nat) : Bool :=
  natBits (e.word 0) 36 36 = 1 && natBits (e.word 0) 35 30 = tenant && e.members.contains isl &&
    e.members.contains e.root && 1 ≤ e.fanin && e.fanin ≤ 4 && e.etype ≤ 4 && e.rop ≤ 2 && e.chunkField % 4096 = 0 &&
    e.segb % 4 = 0 && 4 ≤ e.segb && e.segb ≤ 2 ^ 28

/-- The digest the engines exchange: every word that must agree, which STAT_VA is not (log 40). -/
def GEntry.digest (e : GEntry) : List DWord := e.take 3

def GEntry.aty (e : GEntry) : ATy :=
  match e.etype with
  | 0 => .f32
  | 1 => .bf16x2
  | 2 => .f16x2
  | 3 => .i32
  | _ => .n32
def GEntry.aop (e : GEntry) : AOp :=
  match e.rop with
  | 0 => .add
  | 1 => .min
  | _ => .max

/-- ⊕ on the elements of two chunks, word by word (R364). -/
def reduceBytes (t : ATy) (op : AOp) : List Byte → List Byte → List Byte
  | a0 :: a1 :: a2 :: a3 :: as, b0 :: b1 :: b2 :: b3 :: bs =>
    leBytes 4 (atomNew t op (leNat [a0, a1, a2, a3]) (leNat [b0, b1, b2, b3]) 0) ++ reduceBytes t op as bs
  | as, _ => as

/-! ## The tree (R366, R369) -/

def liveMembers (s : State) (e : GEntry) : List Nat := e.members.filter fun d => (s.isl d).live
/-- The live members from the root on, wrapping past 24. -/
def treeList (s : State) (e : GEntry) (root : Nat) : List Nat :=
  ((List.range 25).map fun j => (root + j) % 25).filter fun d => e.members.contains d && (s.isl d).live
def treePos (s : State) (e : GEntry) (root d : Nat) : Nat := (treeList s e root).findIdx fun m => m = d
def treeChildren (s : State) (e : GEntry) (root d : Nat) : List Nat :=
  let q := treePos s e root d
  ((List.range e.fanin).map fun j => e.fanin * q + 1 + j).filterMap fun p => (treeList s e root)[p]?
def treeParent (s : State) (e : GEntry) (root d : Nat) : Option Nat :=
  let q := treePos s e root d
  if q = 0 then none else (treeList s e root)[(q - 1) / e.fanin]?
/-- The islands next to a node in the tree. -/
def treeNeighbours (s : State) (e : GEntry) (root d : Nat) : List Nat :=
  (treeParent s e root d).toList ++ treeChildren s e root d
/-- A node and everything below it; the fuel is the number of members. -/
def subtree (s : State) (e : GEntry) (root : Nat) : Nat → Nat → List Nat
  | 0, d => [d]
  | n + 1, d => d :: ((treeChildren s e root d).map (subtree s e root n)).flatten

/-- The island after a node on the tree's way to another. -/
def treeNext (s : State) (e : GEntry) (root d goal : Nat) : Option Nat :=
  match (treeChildren s e root d).find? fun c => (subtree s e root 25 c).contains goal with
  | some c => some c
  | none => treeParent s e root d

/-! ## Instances (R365, R368 to R371) -/

def collInst (s : State) (n : Nat) : CollInst := (s.collInsts.find? n).getD { group := 0, no := 0, entry := [] }
def updInst (s : State) (n : Nat) (f : CollInst → CollInst) : State := { s with collInsts := SMap.upd s.collInsts n f }
def CollInst.begun (i : CollInst) (d : Nat) : Bool := i.keys.any fun k => k.1 = d
def CollInst.has (i : CollInst) (p : CollPart) : Bool := i.formed.any fun f => f.1 = p
/-- The root of the tree a chunk is reduced on: ROOT, or that of the last re-plan before it started. -/
def CollInst.rootOf (i : CollInst) (e : GEntry) (key chunk : Nat) : Nat :=
  ((i.plans.find? fun p => !p.2.contains (key, chunk)).map Prod.fst).getD e.root

/-! ## COLL (R358, R359, R362, R363, R371) -/

def collFree (i : Island) : Option Nat :=
  (List.range 64).find? fun x => ((SMap.get ({} : CollCtx) i.coll x).crew).isNone

/-- The crew's collective context, binding it if it has none (R355, R359). -/
def collBind (s : State) (cu : Nat) : Option (Nat × State) :=
  match s.crews.find? cu with
  | none => none
  | some c =>
    match c.collCtx with
    | some x => some (x, s)
    | none =>
      (collFree (s.isl c.isl)).map fun x =>
        let y := SMap.get {} (s.isl c.isl).coll x
        let s := s.updIsl c.isl fun i => { i with coll := i.coll.put x { y with crew := some cu } }
        (x, mirrorWrite (s.updCrew cu fun c => { c with collCtx := some x }) cu mirrorColl y.timeline)

/-- Every incomplete command of an island's engine. -/
def collLive (i : Island) : List CollCmd := ((SMap.vals i.coll).map (·.cmds)).flatten
/-- With those of its pre-empted crews, which peers wait for (R380). -/
def collCmds (s : State) (isl : Nat) : List CollCmd :=
  collLive (s.isl isl) ++ ((s.crews.filter fun uc => uc.2.isl = isl).map fun uc =>
    ((uc.2.savedColl.map (·.cmds)).getD [])).flatten

/-- Whether another team of the crew is its communication team (R358). -/
def otherTeam (x : Issuer) : Bool := x.c.commTeam.isSome && x.c.commTeam ≠ some x.u

/-- The causes of R358, R361 and R371 for the issuing team, on each active lane. -/
def collDenied (s : State) (x : Issuer) (g : Nat) (e : GEntry) : Option Cause :=
  let isl := x.c.isl
  if otherTeam x then some .enginedeny
  else if !e.usable x.k.tenant isl then some .enginedeny
  else if (liveMembers s e).any fun d => GEntry.digest (groupEntry s d g) ≠ e.digest then some .enginedeny
  else if e.persist && (liveMembers s e).any fun d => (groupInst s d g).begun + 2 ≤ (groupInst s isl g).begun + 1 then
    some .colloverrun
  else none

/-- The causes of each lane (R363). -/
def collLaneCauses (opn : COpn) (e : GEntry) (segs : List (Nat × CollSeg)) : List (Nat × (Nat × Cause)) :=
  (segs.map fun ls =>
    let l := ls.1
    let key := ls.2.key
    let dup := segs.any fun q => q.1 ≠ l && q.2.key = key
    let far := match opn with
      | .ar => if 4096 ≤ key then [(l, (ls.2.va, Cause.spacebound))] else []
      | .bc => if 4096 ≤ key then [(l, (ls.2.va, Cause.spacebound))] else []
      | _ => if e.members.length ≤ key then [(l, (ls.2.va, Cause.mcastdomain))] else []
    (if ls.2.va % 4 ≠ 0 then [(l, (ls.2.va, Cause.misalign))] else []) ++ far ++
      (if dup then [(l, (ls.2.va, Cause.spacebound))] else [])).flatten

/-- Whether the island's previous instance of a group is incomplete (R371). -/
def prevIncomplete (s : State) (isl g : Nat) : Bool :=
  let i := groupInst s isl g
  (collCmds s isl).any fun c => c.group = g && c.epoch = i.epoch && c.instanceNo = i.begun

/-- The instance a command of an island joins: one with its group, number and entry that the island has not begun, or a new
one. Instances that every live member has completed are forgotten. -/
def joinInst (s : State) (isl g no : Nat) (e : GEntry) (determ : Bool) (keys : List Nat) : Nat × State :=
  let old (n : Nat) (i : CollInst) : Bool :=
    (liveMembers s i.entry).all i.begun && !(s.collPkts.any fun p => p.2.inst = n) &&
      !(s.liveIsls.any fun d => (collCmds s d).any fun c => c.inst = n)
  let s := { s with collInsts := s.collInsts.filter fun ni => !old ni.1 ni.2 }
  let enter (i : CollInst) : CollInst := { i with determ := i.determ || determ, keys := i.keys ++ [(isl, keys)] }
  match List.find? (fun ni : Nat × CollInst =>
      ni.2.group = g && ni.2.no = no && ni.2.entry = e.digest && !ni.2.begun isl) s.collInsts with
  | some (n, _) => (n, updInst s n enter)
  | none =>
    let i : CollInst := enter { group := g, no := no, entry := e.digest }
    (s.uid, { s with collInsts := s.collInsts.put s.uid i, uid := s.uid + 1 })

/-- The time at which the first command of a context came to its head is noted (R367). -/
def CollCtx.atHead (y : CollCtx) (now : Nat) : CollCtx :=
  match y.cmds with
  | [] => y
  | c :: cs => { y with cmds := { c with headAt := some (c.headAt.getD now) } :: cs }

/-- The command enters the context of the issuing crew: a release at island scope (R316, R363). -/
def collSubmit (s : State) (x : Issuer) (n : Nat) (opn : COpn) (g : Nat) (e : GEntry) (segs : List CollSeg) (bar : Bar) :
    State :=
  let isl := x.c.isl
  let gi := groupInst s isl g
  let y := SMap.get {} (s.isl isl).coll n
  let determ := natBits (e.word 0) 38 38 = 1 || x.k.launch.determ
  let (no, s) := joinInst s isl g (gi.begun + 1) e determ (segs.map (·.key))
  let cmd : CollCmd :=
    { no := y.issued + 1, team := x.u, teamIdx := x.t.index, opn := opn, group := g, entry := e
      instanceNo := gi.begun + 1, epoch := gi.epoch, inst := no, begunAt := s.now
      segs := segs, bar := barOffset x bar, span := x.span }
  let s := l1Clean s x.c.key
  let s := s.updIsl isl fun i => { i with
    coll := i.coll.put n ({ y with issued := y.issued + 1, cmds := y.cmds ++ [cmd] }.atHead s.now) }
  let s := updGroup s isl g fun q => { q with begun := q.begun + 1 }
  let s := s.updCrew x.t.crew fun c => { c with commTeam := some x.u }
  step8 s x x.t (passCycles x 1 0)

/-- Whether R359 holds a COLL: no context is free, or the crew's has 16 commands not complete. -/
def collFull (s : State) (x : Issuer) : Bool :=
  match collBind s x.t.crew with
  | none => true
  | some (n, s') => 16 ≤ (SMap.get ({} : CollCtx) (s'.isl x.c.isl).coll n).cmds.length

/-- COLL (R358 to R363, R371). The context check comes first. -/
def execColl (gd : Guard) (opn : COpn) (addr key : Operand) (group : BitVec 8) (bar : Bar) (s : State) : Result :=
  issue s fun x =>
    let act := x.lanes gd
    let g := group.toNat
    let e : GEntry := groupEntry s x.c.isl g
    if x.t.tx.isSome then forbid s x
    else if !releasable x.t .island then s
    else if !otherTeam x && collFull s x then s
    else if !act.isEmpty && !(inBounds x.t 2 addr && inBounds x.t 1 key) then raiseLanes s x .regbound act 0
    else
      let segs := act.map fun l => (l, ({ key := src32 s x l key, va := src64 s x l addr } : CollSeg))
      let shared (c : Cause) (a : Nat) : List (Nat × (Nat × Cause)) := act.map fun l => (l, (a, c))
      let causes := ((collDenied s x g e).map fun c => shared c 0).getD [] ++ collLaneCauses opn e segs ++
        ((barCauses x bar).map fun b => shared b.2.2 b.2.1).flatten
      match worst causes with
      | some b => raiseLanes s x b.cause b.lanes.dedup b.addr
      | none =>
        match collDenied s x g e, act, barCauses x bar with
        | some c, [], _ => raiseLanes s x c [] 0
        | none, [], b :: _ => raiseLanes s x b.2.2 [] b.2.1
        | _, _, _ =>
          if !e.persist && prevIncomplete s x.c.isl g then s
          else
            match collBind s x.t.crew with
            | none => s
            | some (n, s') => collSubmit s' x n opn g e (segs.map (·.2)) bar

/-! ## A command at work -/

/-- The head command of a context. -/
structure CollHead where
  isl : Nat
  ctx : Nat
  cu : Nat
  k : Kernel
  cmd : CollCmd
deriving DecidableEq, Repr

def collHead (s : State) (isl ctx : Nat) : Option CollHead :=
  match (s.isl isl).coll.find? ctx with
  | none => none
  | some y =>
    match y.crew, y.cmds with
    | some cu, cmd :: _ =>
      if y.stalled || y.stopped then none
      else
        (s.crews.find? cu).bind fun c => (s.kernels.find? c.kernel).map fun k =>
          { isl := isl, ctx := ctx, cu := cu, k := k, cmd := cmd }
    | _, _ => none

def CollCmd.ge (c : CollCmd) : GEntry := c.entry
def CollCmd.seg (c : CollCmd) (key : Nat) : Option CollSeg := c.segs.find? fun g => g.key = key
def CollCmd.chunkAt (c : CollCmd) (key chunk : Nat) : CollChunk :=
  (c.chunks.find? fun x => x.key = key && x.chunk = chunk).getD { key := key, chunk := chunk }
def CollCmd.setChunk (c : CollCmd) (x : CollChunk) : CollCmd :=
  { c with chunks := (c.chunks.filter fun y => !(y.key = x.key && y.chunk = x.chunk)) ++ [x] }

def updColl (s : State) (isl ctx : Nat) (f : CollCtx → CollCtx) : State :=
  s.updIsl isl fun i => { i with coll := SMap.upd i.coll ctx f }
def setCmd (s : State) (h : CollHead) (c : CollCmd) : State :=
  updColl s h.isl h.ctx fun y => { y with cmds := c :: y.cmds.drop 1 }

/-- Whether the reduction of the command's operation runs along the tree. -/
def CollCmd.reduces (c : CollCmd) : Bool := c.opn = .ar || c.opn = .rs

/-- Whether this island reads its segment of a key (R364). -/
def CollCmd.reads (c : CollCmd) (isl key : Nat) : Bool :=
  (c.seg key).isSome && match c.opn with
    | .ar => true
    | .rs => true
    | .ag => key = c.ge.rank isl
    | .a2a => key ≠ c.ge.rank isl
    | .bc => isl = c.ge.root
/-- Whether this island's segment of a key receives the result (R364). -/
def CollCmd.writes (c : CollCmd) (isl key : Nat) : Bool :=
  (c.seg key).isSome && match c.opn with
    | .ar => true
    | .rs => key = c.ge.rank isl
    | .ag => key ≠ c.ge.rank isl
    | .a2a => key ≠ c.ge.rank isl
    | .bc => isl ≠ c.ge.root

/-- The island a gathered, exchanged or broadcast segment comes from. -/
def CollCmd.source (c : CollCmd) (key : Nat) : Option Nat :=
  if c.opn = .bc then some c.ge.root else c.ge.ofRank key

/-- The incomplete command of an island for an instance. -/
def cmdOf (s : State) (inst isl : Nat) : Option CollCmd := (collCmds s isl).find? fun d => d.inst = inst
/-- The root of the tree of a chunk of a command. -/
def CollHead.root (s : State) (h : CollHead) (key chunk : Nat) : Nat := (collInst s h.cmd.inst).rootOf h.cmd.ge key chunk

/-- Whether no contribution to a chunk can still come from a child's subtree: every island in it has begun the instance, and
each has sent its part on or has none, with no packet of it on its way. -/
def silent (s : State) (h : CollHead) (root child key chunk : Nat) : Bool :=
  let i := collInst s h.cmd.inst
  let below := subtree s h.cmd.ge root 25 child
  let nothing (c : CollCmd) : Bool :=
    let x := c.chunkAt key chunk
    x.sent || ((c.seg key).isNone && x.got.isEmpty)
  below.all (fun d => i.begun d && ((cmdOf s h.cmd.inst d).map nothing).getD true) &&
    !(s.collPkts.any fun p => p.2.inst = h.cmd.inst && p.2.up && p.2.key = key && p.2.chunk = chunk &&
      below.contains p.2.sender)

/-- Keys this island has a part in: its own, and for a reduction every key of the instance. -/
def collKeys (s : State) (h : CollHead) : List Nat :=
  let own := h.cmd.segs.map (·.key)
  if h.cmd.reduces then (own ++ ((collInst s h.cmd.inst).keys.map Prod.snd).flatten).dedup else own

/-- The chunks of an instance that have a result to form, by what its members have named (R364). -/
def CollInst.parts (i : CollInst) (c : CollCmd) : List CollPart :=
  let e := c.ge
  let from_ (src : Option Nat) (ks : List Nat) : List CollPart :=
    (ks.map fun k => (List.range e.nChunks).map fun n => ({ src := src, key := k, chunk := n } : CollPart)).flatten
  match c.opn with
  | .ag => (i.keys.map fun dk => from_ (some dk.1) (dk.2.filter fun k => k = e.rank dk.1)).flatten
  | .a2a => (i.keys.map fun dk => from_ (some dk.1) (dk.2.filter fun k => k ≠ e.rank dk.1)).flatten
  | .bc => ((i.keys.filter fun dk => dk.1 = e.root).map fun dk => from_ (some dk.1) dk.2).flatten
  | _ => from_ none ((i.keys.map Prod.snd).flatten.dedup)
/-- Whether a chunk can have no result any more: the island that would form it has failed, or no longer works on the
instance. -/
def partVoid (s : State) (n : Nat) (e : GEntry) (p : CollPart) : Bool :=
  let i := collInst s n
  let ended (d : Nat) : Bool := !(s.isl d).live || (i.begun d && (cmdOf s n d).isNone)
  !i.has p && match p.src with
    | some d => ended d
    | none => ((treeList s e (i.rootOf e p.key p.chunk)).head?.map ended).getD true
/-- The chunk whose result this island's segment of a key receives. -/
def CollCmd.partFor (c : CollCmd) (isl key chunk : Nat) : CollPart :=
  match c.opn with
  | .ag => { src := c.ge.ofRank key, key := key, chunk := chunk }
  | .a2a => { src := c.ge.ofRank key, key := c.ge.rank isl, chunk := chunk }
  | .bc => { src := some c.ge.root, key := key, chunk := chunk }
  | _ => { src := none, key := key, chunk := chunk }

/-- Pages as an engine reaches them, each homed on its own island. -/
def collPages (s : State) (h : CollHead) (want : Want) : List (Nat × Nat) → Reached × State
  | [] => (.ok [], s)
  | (va, n) :: rest =>
    match reachRange s h.isl h.k.tenant want va n with
    | (.ok ps, s) =>
      if ps.any fun p => p.1 / 2 ^ 39 ≠ h.isl then (.cause .remotels va, s)
      else
        match collPages s h want rest with
        | (.ok qs, s) => (.ok (ps ++ qs), s)
        | r => r
    | r => r
/-- The pages of a chunk as the engine reaches them (R213, R244, R363). -/
def collReach (s : State) (h : CollHead) (want : Want) (va n : Nat) : Reached × State := collPages s h want (pieces va n)

/-- A chunk or record meets a missing translation or a cause (R214, R244). -/
def collFaults (s : State) (h : CollHead) (write : Bool) : Reached → State
  | .miss va d w =>
    engineFault (updColl s h.isl h.ctx fun y => { y with stalled := true }) h.isl (.coll h.ctx) h.k va write d w
  | .cause .ue va => strikeCrew s h.cu h.cmd.span.toList (some va)
      { cause := .ue, team := h.cmd.teamIdx, engine := 3, cmd := h.cmd.no, addr := va }
  | .cause cause va =>
    raiseEngine (updColl s h.isl h.ctx fun y => { y with stopped := true }) h.cu
      { cause := cause, engine := 3, team := h.cmd.teamIdx, cmd := h.cmd.no, addr := va, span := h.cmd.span }
  | .ok _ => s

/-! ## Deadline requests (R217, R218, R367) -/

/-- Requests of an island's engine whose context goes on. -/
def openRequests (i : Island) : List Nat :=
  ((i.coll.filter fun y => !y.2.stalled && !y.2.stopped).map fun y =>
    ((y.2.cmds.head?.map (·.requests)).getD [])).flatten
/-- Whether another request of the island, whose slack is below a row cycle, is to be served first (R217). -/
def waitsTurn (s : State) (isl req : Nat) : Bool :=
  match s.deadlines.find? req with
  | none => false
  | some d => (openRequests (s.isl isl)).any fun r =>
      r ≠ req && match s.deadlines.find? r with
        | some q => q.due && (q.latest < d.latest || (q.latest = d.latest && r < req))
        | none => false

/-- The latest-service time of a request for what became ready at some time (R367). -/
def collLatest (e : GEntry) (ready : Nat) : Nat :=
  ready + if e.timeout = 0 then 40000 else min 40000 (e.timeout / 4)
/-- When the read of a chunk became ready: with its command at the head of the context (log 57). -/
def readReady (s : State) (h : CollHead) : Nat := h.cmd.headAt.getD s.now
/-- When the write of a chunk became ready: with its result here and every local chunk of its number read (log 57). -/
def writeReady (h : CollHead) (x : CollChunk) : Nat :=
  ((h.cmd.chunks.filter fun y => y.chunk = x.chunk).map (·.readyAt)).foldl max x.resultAt
/-- A request for bytes of a tenant's memory. -/
def collAsk (s : State) (h : CollHead) (ready : Nat) (want : Want) (va n : Nat) : Deadline :=
  { isl := h.isl, latest := collLatest h.cmd.ge ready
    spans := match (collReach s h want va n).1 with
      | .ok ps => ps
      | _ => [] }

/-! ## Chunks (R364, R366, R370) -/

/-- A packet of a chunk, and the fabric packets of at most 4,096 bytes that carry it on the collective channel (R251). -/
def addCollPkt (s : State) (p : CollPkt) : State :=
  let id := s.uid
  let parts := max 1 (ceilDiv p.bytes.length 4096)
  let e : GEntry := (collInst s p.inst).entry
  let s := { s with collPkts := s.collPkts.put id { p with left := parts }, uid := id + 1 }
  (List.range parts).foldl (fun s j => s.addPkt
    { route := routeWord s p.sender p.dst false, src := p.sender, dst := p.dst, sep := 0x48, sseq := 0, pa := 0
      tenant := natBits (e.word 0) 35 30, cargo := .coll id ((p.bytes.drop (4096 * j)).take 4096), op := id
      at_ := p.sender }) s

/-- The island's contribution is read (R364); `none` while its home holds the read. -/
def chunkRead (s : State) (h : CollHead) (x : CollChunk) : Option State :=
  let e := h.cmd.ge
  let ready (s : State) (own : List Byte) : State :=
    let s := serveDeadline s x.req
    setCmd s h (h.cmd.setChunk { x with own := some own, readyAt := s.now, req := none })
  match (if h.cmd.reads h.isl x.key then h.cmd.seg x.key else none) with
  | none => some (ready s [])
  | some g =>
    match collReach s h .rread (g.va + x.chunk * e.chunkSize) (e.chunkLen x.chunk) with
    | (.ok ps, s) =>
      if piecesHeld s false ps then none
      else if ps.any fun p => poisoned s p.1 p.2 then
        let va := g.va + x.chunk * e.chunkSize
        some (strikeCrew s h.cu h.cmd.span.toList (some va)
          { cause := .ue, team := h.cmd.teamIdx, engine := 3, cmd := h.cmd.no, addr := va })
      else
        let (bs, s) := readPieces s ps
        some (ready s bs)
    | (r, s) => some (collFaults s h false r)

/-- A node's value: its own contribution, then its children's in ascending position (R366). -/
def nodeValue (s : State) (h : CollHead) (x : CollChunk) : Nat × List Byte :=
  let e := h.cmd.ge
  let own := x.own.getD []
  let parts := (if own.isEmpty then [] else [(2 ^ h.isl, own)]) ++
    (treeChildren s e (h.root s x.key x.chunk) h.isl).filterMap fun c => (x.got.find? fun p => p.1 = c).map (·.2)
  match parts with
  | [] => (0, [])
  | p :: ps => ps.foldl (fun v q => (v.1 ||| q.1, reduceBytes e.aty e.aop v.2 q.2)) p

/-- A result goes on along the tree of its chunk from an island: to the next one on the way to its receiver, or to every
neighbour but the one it came from (R366). -/
def spread (s : State) (e : GEntry) (isl : Nat) (from_ : Option Nat) (p : CollPkt) : State :=
  let root := (collInst s p.inst).rootOf e p.key p.chunk
  let next := match p.dest with
    | some d => if d = isl then [] else (treeNext s e root isl d).toList
    | none => (treeNeighbours s e root isl).filter fun d => some d ≠ from_
  next.foldl (fun s d => addCollPkt s { p with sender := isl, dst := d, up := false, tree := true, moving := true }) s

/-- The value of a node goes onward: to its parent, or as the result down the tree. -/
def sendNode (s : State) (h : CollHead) (x : CollChunk) : State :=
  let e := h.cmd.ge
  let v := nodeValue s h x
  let pkt (d : Nat) : CollPkt :=
    { group := h.cmd.group, inst := h.cmd.inst, key := x.key, chunk := x.chunk, sender := h.isl, dst := d, up := true
      mask := v.1, bytes := v.2 }
  match treeParent s e (h.root s x.key x.chunk) h.isl with
  | some p =>
    let s := setCmd s h (h.cmd.setChunk { x with sent := true })
    if v.1 = 0 then s else addCollPkt s (pkt p)
  | none =>
    let s := updInst s h.cmd.inst fun i =>
      { i with formed := i.formed ++ [({ src := none, key := x.key, chunk := x.chunk }, v.1)] }
    let s := setCmd s h (h.cmd.setChunk
      { x with sent := true, result := if v.1 = 0 then none else some v, resultAt := s.now })
    if v.1 = 0 then s else spread s e h.isl none (pkt h.isl)

/-- A gathered, exchanged or broadcast segment is sent along the tree; the packet names the key it has at its receiver. -/
def sendSource (s : State) (h : CollHead) (x : CollChunk) : State :=
  let e := h.cmd.ge
  let s := setCmd s h (h.cmd.setChunk { x with sent := true })
  let part : CollPart := { src := some h.isl, key := x.key, chunk := x.chunk }
  let pkt (key : Nat) (dest : Option Nat) : CollPkt :=
    { group := h.cmd.group, inst := h.cmd.inst, key := key, chunk := x.chunk, sender := h.isl, dst := h.isl, up := false
      tree := true, dest := dest, mask := 2 ^ h.isl, bytes := x.own.getD [] }
  if !h.cmd.reads h.isl x.key then s
  else
    let s := updInst s h.cmd.inst fun i =>
      { i with formed := i.formed ++ [(part, 2 ^ h.isl)] }
    match h.cmd.opn with
    | .a2a =>
      match e.ofRank x.key with
      | some d => if (s.isl d).live then spread s e h.isl none (pkt (e.rank h.isl) (some d)) else s
      | none => s
    | _ => spread s e h.isl none (pkt x.key none)

/-- Whether a chunk of a command that is written here is done with: written, or without a result. -/
def writeDone (s : State) (h : CollHead) (key chunk : Nat) : Bool :=
  let p := h.cmd.partFor h.isl key chunk
  let i := collInst s h.cmd.inst
  !h.cmd.writes h.isl key || (h.cmd.chunkAt key chunk).written || partVoid s h.cmd.inst h.cmd.ge p ||
    (i.formed.any fun f => f.1 = p && f.2 = 0) || (p.src.any i.begun && !(i.parts h.cmd).contains p)

/-- The result of a chunk is written to this island's segment (R364), and its bytes are subtracted from the barrier; those
of the last chunk are left to the command's completion (R346). A chunk that a replay writes again is subtracted once
(R368). `none` while something holds the write. -/
def chunkWrite_ (s : State) (h : CollHead) (x : CollChunk) (bs : List Byte) : Option State :=
  let e := h.cmd.ge
  match h.cmd.seg x.key with
  | none => some (setCmd s h (h.cmd.setChunk { x with written := true }))
  | some g =>
    match collReach s h .rwrite (g.va + x.chunk * e.chunkSize) bs.length with
    | (.ok ps, s) =>
      if piecesHeld s true ps || barHeld s h.cu h.cmd.bar then none
      else
        let s := serveDeadline (writePieces s h.cmd.span ps bs) x.wreq
        let h' := { h with cmd := h.cmd.setChunk { x with written := true, wreq := none, counted := true } }
        let last := h'.cmd.segs.all fun g => (List.range e.nChunks).all fun c => writeDone s h' g.key c
        let n := if x.counted then 0 else bs.length
        let s := setCmd s h { h'.cmd with bytes := h.cmd.bytes + if last then n else 0 }
        some (match h.cmd.bar with
          | some o => if last || n = 0 then s else barrierUpdate s h.cu none o n false
          | none => s)
    | (r, s) => some (collFaults s h true r)

/-- Whether every local segment of the command has its chunk of a number read (R364). -/
def allRead (h : CollHead) (chunk : Nat) : Bool :=
  h.cmd.segs.all fun g => !h.cmd.reads h.isl g.key || (h.cmd.chunkAt g.key chunk).own.isSome

/-- The part of a chunk that has been read is sent; a node first waits for its children, unless it flushes (R370). -/
def sendPart (s : State) (h : CollHead) (x : CollChunk) (flush : Bool) : Option State :=
  if h.cmd.reduces then
    let root := h.root s x.key x.chunk
    let have_ (c : Nat) : Bool := x.got.any (fun p => p.1 = c) || silent s h root c x.key x.chunk
    if flush || (treeChildren s h.cmd.ge root h.isl).all have_ then some (sendNode s h x) else none
  else some (sendSource s h x)

/-- The next step of a chunk on an island: the deadline request of its read, the read, the send, the request of its write,
the write. `flush` sends without the contributions that are missing (R370). -/
def chunkStep (s : State) (h : CollHead) (key chunk : Nat) (flush : Bool) : Option State :=
  let x := h.cmd.chunkAt key chunk
  let e := h.cmd.ge
  if e.nChunks ≤ chunk || !(collKeys s h).contains key then none
  else if x.own.isNone then
    match x.req, h.cmd.reads h.isl key with
    | none, true =>
      let va := ((h.cmd.seg key).map (·.va)).getD 0 + chunk * e.chunkSize
      let (r, s) := askDeadline s (collAsk s h (readReady s h) .rread va (e.chunkLen chunk))
      some (setCmd s h (h.cmd.setChunk { x with req := some r }))
    | some r, _ => if waitsTurn s h.isl r then none else chunkRead s h x
    | none, false => chunkRead s h x
  else if !x.sent then sendPart s h x flush
  else if h.cmd.writes h.isl key && !x.written && allRead h chunk then
    match x.result, x.wreq with
    | none, _ => none
    | some v, none =>
      let va := ((h.cmd.seg key).map (·.va)).getD 0 + chunk * e.chunkSize
      let (r, s) := askDeadline s (collAsk s h (writeReady h x) .rwrite va v.2.length)
      some (setCmd s h (h.cmd.setChunk { x with wreq := some r }))
    | some (_, bs), some r => if waitsTurn s h.isl r then none else chunkWrite_ s h x bs
  else none

/-- The head command of a context that a pre-emption stops: the chunk it has read is still sent (Table 20-7). -/
def collStopping (s : State) (isl ctx : Nat) : Option CollHead :=
  let y := SMap.get ({} : CollCtx) (s.isl isl).coll ctx
  match y.crew, y.cmds with
  | some cu, cmd :: _ =>
    (s.crews.find? cu).bind fun c =>
      if !c.stop || !y.stopped then none
      else (s.kernels.find? c.kernel).map fun k => { isl := isl, ctx := ctx, cu := cu, k := k, cmd := cmd }
  | _, _ => none
/-- Whether a command has read a chunk whose part is not sent: it stops only once it is (Table 20-7). -/
def CollCmd.unsent (c : CollCmd) : Bool := c.chunks.any fun x => x.own.isSome && !x.sent
/-- The send of a chunk that stands read in a context that stops; with the last the context stands at its boundary, and its
save is asked for (R381). -/
def stoppingSend (s : State) (h : CollHead) (key chunk : Nat) (flush : Bool) : Option State :=
  let x := h.cmd.chunkAt key chunk
  if x.own.isSome && !x.sent then
    (sendPart s h x flush).map fun s =>
      let left := (SMap.get ({} : CollCtx) (s.isl h.isl).coll h.ctx).cmds.any (·.unsent)
      if left then s else askSave s h.isl h.k.tenant
  else none

/-- COLL_CHUNK_COMPLETE (R364, R366). -/
def execCollChunkComplete (isl ctx key chunk : Nat) (s : State) : Result :=
  happen s <|
    match collHead s isl ctx with
    | some h => chunkStep s h key chunk false
    | none => (collStopping s isl ctx).bind fun h => stoppingSend s h key chunk false

/-- Whether a node has waited TIMEOUT since its own contribution to a chunk was ready (R370). -/
def waited (s : State) (h : CollHead) (key chunk : Nat) : Bool :=
  let x := h.cmd.chunkAt key chunk
  let e := h.cmd.ge
  h.cmd.reduces && e.timeout ≠ 0 && x.own.isSome && !x.sent && x.readyAt + e.timeout ≤ s.now

/-- CHUNK_TIMEOUT (R370): a node that has waited TIMEOUT for its children flushes what it holds. -/
def execChunkTimeout (isl ctx key chunk : Nat) (s : State) : Result :=
  happen s <|
    match collHead s isl ctx with
    | some h => if waited s h key chunk then chunkStep s h key chunk true else none
    | none => (collStopping s isl ctx).bind fun h =>
        if waited s h key chunk then stoppingSend s h key chunk true else none

/-- A late contribution is dropped and counted on every live member (R370). -/
def dropLate (s : State) (p : CollPkt) : State :=
  if p.mask = 0 then s
  else (liveMembers s (collInst s p.inst).entry).foldl (fun s d =>
    updGroup s d p.group fun g => { g with late := min (g.late + 1) (2 ^ 64 - 1) }) s

/-- A packet is placed in the command of its instance. -/
def placePkt (isl now : Nat) (p : CollPkt) (c : CollCmd) : CollCmd :=
  let x := c.chunkAt p.key p.chunk
  if p.up then
    if x.sent || x.got.any (fun q => q.1 = p.sender) then c
    else c.setChunk { x with got := x.got ++ [(p.sender, (p.mask, p.bytes))] }
  else if c.writes isl p.key && x.result.isNone then
    c.setChunk { x with result := some (p.mask, p.bytes), resultAt := now }
  else c

/-- A packet reaches its receiver's engine, which sends a result on along the tree (R366). -/
def reachEngine (s : State) (id : Nat) (p : CollPkt) : State :=
  let s := { s with collPkts := s.collPkts.put id { p with moving := false } }
  if p.tree && p.moving then spread s (collInst s p.inst).entry p.dst (some p.sender) p else s

/-- COLLECTIVE_PACKET (R365, R366, R370): placed by group, instance, key, chunk and sender; one of an instance the island
has not begun is buffered. -/
def execCollectivePacket (pkt : Nat) (s : State) : Result :=
  happen s <|
    (s.collPkts.find? pkt).bind fun p =>
      if p.left ≠ 0 then none
      else
      let s := reachEngine s pkt p
      let out := { s with collPkts := SMap.del s.collPkts pkt }
      let mine (c : CollCmd) : Bool := c.inst = p.inst
      if p.dest.any fun d => d ≠ p.dst then some out
      else
      match (collLive (s.isl p.dst)).find? mine with
      | some c =>
        let late := p.up && (c.chunkAt p.key p.chunk).sent && !(c.chunkAt p.key p.chunk).got.any fun q => q.1 = p.sender
        if late then some (dropLate out p)
        else
          some (out.updIsl p.dst fun i => { i with
            coll := i.coll.mapVals fun _ y => { y with
              cmds := y.cmds.map fun c => if mine c then placePkt p.dst s.now p c else c } })
      | none =>
        if (collCmds s p.dst).any mine || !(collInst s p.inst).begun p.dst then (if p.moving then some s else none)
        else some (if p.up then dropLate out p else out)

/-! ## Completion (R365) -/

/-- Whether a command is complete on its island: what it waits for has begun, the result of every chunk of the instance is
formed and has reached every live member (R368), and this island has sent and written its parts. -/
def collDone (s : State) (h : CollHead) : Bool :=
  let e := h.cmd.ge
  let i := collInst s h.cmd.inst
  let waited := h.cmd.reduces && e.timeout ≠ 0 && h.cmd.begunAt + e.timeout ≤ s.now
  let begun := match h.cmd.opn with
    | .bc => i.begun e.root || !(s.isl e.root).live
    | _ => (liveMembers s e).all i.begun || waited
  begun && (i.parts h.cmd).all (fun p => i.has p || partVoid s h.cmd.inst e p) &&
    !(s.collPkts.any fun p => p.2.inst = h.cmd.inst && !p.2.up && p.2.moving) &&
    (collKeys s h).all fun key => (List.range e.nChunks).all fun c =>
      ((h.cmd.chunkAt key c).sent || !(h.cmd.reduces || h.cmd.reads h.isl key)) && writeDone s h key c

/-- The contributor mask: the AND over the results of the instance's chunks. -/
def contributors (s : State) (h : CollHead) : Nat :=
  match ((collInst s h.cmd.inst).formed.map Prod.snd).filter (· ≠ 0) with
  | [] => ((liveMembers s h.cmd.ge).map (2 ^ ·)).sum
  | m :: ms => ms.foldl (· &&& ·) m

/-- A command whose work is done: the status record by a deadline request, the barrier, the timeline and its mirror
(R365). -/
def collFinish (s : State) (h : CollHead) : Option State :=
  if !collDone s h then none
  else
    match h.cmd.sreq with
    | none =>
      let (r, s) := askDeadline s (collAsk s h s.now .counter h.cmd.ge.statVa 16)
      some (setCmd s h { h.cmd with sreq := some r })
    | some r =>
      let g := groupInst s h.isl h.cmd.group
      let rec_ := leBytes 8 (contributors s h + h.cmd.instanceNo % 2 ^ 32 * 2 ^ 32) ++ leBytes 8 g.late
      match collReach s h .counter h.cmd.ge.statVa 16 with
      | (.ok ps, s) =>
        if waitsTurn s h.isl r || piecesHeld s true ps || barHeld s h.cu h.cmd.bar then none
        else
          let s := serveDeadline (writePieces s h.cmd.span ps rec_) (some r)
          let y := SMap.get ({} : CollCtx) (s.isl h.isl).coll h.ctx
          let t := timelineAt ((y.cmds.drop 1).map (·.no)) y.issued
          let s := updColl s h.isl h.ctx fun y => { y with timeline := t, cmds := y.cmds.drop 1 }.atHead s.now
          some (releaseExited (completionRelease s h.cu h.cmd.bar h.cmd.bytes mirrorColl t) h.cu)
      | (r, s) => some (collFaults s h true r)

/-- COLL_COMPLETE (R365). -/
def execCollComplete (isl ctx : Nat) (s : State) : Result :=
  happen s <| (collHead s isl ctx).bind (collFinish s)

/-! ## Deadlines, failures and re-plans -/

/-- DEADLINE_SLACK (R218): the slack of a request falls below a row cycle of 48 ns. -/
def execDeadlineSlack (isl req : Nat) (s : State) : Result :=
  happen s <|
    (s.deadlines.find? req).bind fun d =>
      if d.isl = isl && !d.due && d.latest < s.now + 96 then
        some { s with deadlines := s.deadlines.put req { d with due := true } }
      else none

/-- Every command changes, running or saved, by its island. -/
def mapCmds (s : State) (f : Nat → CollCmd → CollCmd) : State :=
  { s with
    crews := s.crews.mapVals fun _ c => { c with
      savedColl := c.savedColl.map fun y => { y with cmds := y.cmds.map (f c.isl) } }
    isls := s.isls.mapVals fun d i => { i with coll := i.coll.mapVals fun _ y => { y with cmds := y.cmds.map (f d) } } }

/-- A chunk is replayed: what was combined and received of it is discarded; each island's own contribution stays. -/
def CollCmd.replay (c : CollCmd) (again : Nat → Nat → Bool) : CollCmd :=
  { c with chunks := c.chunks.map fun x =>
      if again x.key x.chunk then { x with got := [], sent := false, result := none, written := false, wreq := none } else x }

/-- Whether the result of a chunk stands on an island: in its command, behind it, or in a packet kept for it. -/
def resultAtIsl (s : State) (n d key chunk : Nat) : Bool :=
  match cmdOf s n d with
  | some c => !c.writes d key || (c.chunkAt key chunk).result.isSome || (c.chunkAt key chunk).written
  | none => (collInst s n).begun d || s.collPkts.any fun p => p.2.inst = n && p.2.dst = d && !p.2.up && !p.2.moving &&
      p.2.key = key && p.2.chunk = chunk
/-- Whether a chunk's result has reached every live member that receives it: of a reduction all, of an exchange one. -/
def reachedAll (s : State) (n : Nat) (p : CollPart) : Bool :=
  let e : GEntry := (collInst s n).entry
  let exchanged := p.src.bind fun d => (cmdOf s n d).bind fun c =>
    if c.opn = .a2a then some (e.rank d, (e.ofRank p.key).toList) else none
  let (key, goal) := exchanged.getD (p.key, liveMembers s e)
  (collInst s n).has p && (goal.filter fun d => some d ≠ p.src).all fun d =>
    !(s.isl d).live || (resultAtIsl s n d key p.chunk &&
      !(s.collPkts.any fun q => q.2.inst = n && q.2.dst = d && !q.2.up && q.2.moving && q.2.key = key &&
        q.2.chunk = p.chunk && (q.2.dest.getD d) = d))

/-- The chunks of an instance whose result has not reached every live member are replayed over the live members (R368): of a
reduction from the members' contributions, of another collective from the member it comes from. -/
def replayInst (s : State) (n : Nat) : State :=
  let again (key chunk : Nat) : Bool := !reachedAll s n { src := none, key := key, chunk := chunk }
  let resend (d key chunk : Nat) : Bool :=
    let p : CollPart := { src := some d, key := key, chunk := chunk }
    (collInst s n).has p && !reachedAll s n p
  let redo (c : CollCmd) : Bool := c.inst = n && c.reduces
  let gone := ((s.liveIsls.map fun d => ((collCmds s d).filter redo).map fun c =>
    (c.chunks.filter fun x => again x.key x.chunk).filterMap (·.wreq)).flatten).flatten
  let sends (d : Nat) (c : CollCmd) : CollCmd :=
    if c.inst = n && !c.reduces then
      { c with chunks := c.chunks.map fun x => if resend d x.key x.chunk then { x with sent := false } else x }
    else if redo c then c.replay again
    else c
  let formed := (collInst s n).formed.filter fun f => match f.1.src with
    | some d => !resend d f.1.key f.1.chunk
    | none => !again f.1.key f.1.chunk
  let reduced := s.liveIsls.any fun d => (collCmds s d).any redo
  let s := mapCmds s sends
  let s := { s with
    deadlines := s.deadlines.filter fun d => !gone.contains d.1
    collPkts := s.collPkts.filter fun p => !(reduced && p.2.inst = n && again p.2.key p.2.chunk) }
  updInst s n fun i => { i with formed := formed }

/-- An island fails: its packets go, and the chunks of its groups restart (R368). -/
def collIslandFails (s : State) (isl : Nat) : State :=
  let lost (p : CollPkt) : Bool := p.dst = isl || (p.sender = isl && p.moving)
  let s := { s with collPkts := s.collPkts.filter fun kp => !lost kp.2 }
  let mine := s.collInsts.filter fun ni => (GEntry.members ni.2.entry).contains isl
  mine.foldl (fun s ni => replayInst s ni.1) s

/-- Chunks of an instance that some member has started. -/
def startedChunks (s : State) (n : Nat) : List (Nat × Nat) :=
  ((s.liveIsls.filterMap (cmdOf s n)).map fun c => c.chunks.map fun x => (x.key, x.chunk)).flatten ++
    ((s.collPkts.filter fun p => p.2.inst = n).map fun p => (p.2.key, p.2.chunk))
/-- The links of a route, from its route word; the fuel is its greatest number of hops. -/
def routeLinks (s : State) : Nat → Nat → Nat → List (Nat × Nat)
  | 0, _, _ => []
  | f + 1, isl, route =>
    match s.panel.peer isl (route % 16) with
    | some (j, q) => (isl, route % 16) :: (j, q) :: routeLinks s f j (route / 16)
    | none => []
/-- Whether the plan of an instance that is in force for the chunks not yet started uses a link: its tree does, up or
down. -/
def planUses (s : State) (i : CollInst) (isl port : Nat) : Bool :=
  let e : GEntry := i.entry
  let root := (i.plans.head?.map Prod.fst).getD e.root
  (liveMembers s e).any fun d =>
    match treeParent s e root d with
    | some p => (routeLinks s 4 d (routeWord s d p false) ++ routeLinks s 4 p (routeWord s p d false)).contains (isl, port)
    | none => false
/-- A link falls below 8 wavelengths or leaves LSTATE 1: outside determinism mode the engines may move the root of the
chunks not yet started to any live member (R369, log 57). -/
def replan (s : State) (isl port : Nat) : State :=
  let c := Config.choice s.tick
  s.collInsts.foldl (fun s ni =>
    let live := liveMembers s ni.2.entry
    if ni.2.determ || !planUses s ni.2 isl port || c % 2 = 0 then s
    else
      match live[c / 2 % max live.length 1]? with
      | some r => updInst s ni.1 fun i => { i with plans := (r, startedChunks s ni.1) :: i.plans }
      | none => s) s

end Sys2Proof.Machine
end

