-- ==== Sys2Proof/Machine/Copy.lean ====
section
/-! DEFINITION. The copy engine: CPY, CPYT and COPY_CHUNK_WRITTEN (R242 to R245). -/

namespace Sys2Proof.Machine

/-- Free contexts of a copy engine: 16 each, four engines. -/
def copyFree (i : Island) (e : Nat) : List Nat :=
  (List.range 16).map (16 * e + ·) |>.filter fun x => ((SMap.get ({} : CopyCtx) i.copy x).crew).isNone
/-- The context a crew is bound to at its first command: the lowest free one of the engine with the most (R242). -/
def copyPick (i : Island) : Option Nat :=
  match argMin (fun e => 16 - (copyFree i e).length) (List.range 4) with
  | some e => (copyFree i e).head?
  | none => none

/-- The crew's copy context, binding it if it has none: the context's timeline goes to the mirror (R355). -/
def copyBind (s : State) (cu : Nat) : Option (Nat × State) :=
  match s.crews.find? cu with
  | none => none
  | some c =>
    match c.copyCtx with
    | some x => some (x, s)
    | none =>
      (copyPick (s.isl c.isl)).map fun x =>
        let y := SMap.get {} (s.isl c.isl).copy x
        let s := s.updIsl c.isl fun i => { i with copy := i.copy.put x { y with crew := some cu } }
        (x, mirrorWrite (s.updCrew cu fun c => { c with copyCtx := some x }) cu mirrorCopy y.timeline)

/-- Bytes past a range's last row (R244). -/
def spanEnd (base rowb rows stride : Nat) : Nat :=
  if rowb = 0 ∨ rows = 0 then base else base + (rows - 1) * stride + rowb

/-- Causes of one side of a copy (R196, R244). -/
def sideCauses (x : Issuer) (sp : Space) (base rowb rows stride : Nat) : List (Nat × (Nat × Cause)) :=
  match sp with
  | .global => []
  | .cspace => [(0, (base, .enginedeny))]
  | sp => if x.limit sp < spanEnd base rowb rows stride then [(0, (base, .spacebound))] else []

/-- The common part of CPY and CPYT: the checks, the binding and the numbering (R242 to R244). -/
def issueCopy (s : State) (x : Issuer) (dst src rowb rows sstr dstr : Nat) (dsp ssp : Space) (bar : Bar)
    (geo : List (Nat × (Nat × Cause))) : State :=
  if x.t.tx.isSome then forbid s x
  else if !releasable x.t .island then s
  else
    match worst (geo ++ sideCauses x dsp dst rowb rows dstr ++ sideCauses x ssp src rowb rows sstr ++ barCauses x bar) with
    | some b => raiseTeam s x b.cause b.addr
    | none =>
      match copyBind s x.t.crew with
      | none => s
      | some (n, s') =>
        let y := SMap.get {} (s'.isl x.c.isl).copy n
        if 64 ≤ y.cmds.length then s
        else
          let cmd : CopyCmd :=
            { no := y.issued + 1, team := x.u, teamIdx := x.t.index, dsp := dsp, ssp := ssp, dst := dst, src := src, rowb := rowb, rows := rows,
              sstr := sstr, dstr := dstr, bar := barOffset x bar, span := x.span }
          let s := l1Clean s' x.c.key
          let s := s.updIsl x.c.isl fun i => { i with
            copy := i.copy.put n { y with issued := y.issued + 1, cmds := y.cmds ++ [cmd] } }
          step8 s x x.t 1

/-- CPY (R243): one row of LEN bytes. -/
def execCpy (dst src len : SReg) (dsp ssp : Space) (bar : Bar) (s : State) : Result :=
  issue s fun x =>
    issueCopy s x (x.t.regs.sget64 dst.toNat).toNat (x.t.regs.sget64 src.toNat).toNat (x.t.regs.sget len.toNat).toNat 1 0 0
      dsp ssp bar []

/-- CPYT (R243). -/
def execCpyt (dst src geo : SReg) (dsp ssp : Space) (bar : Bar) (s : State) : Result :=
  issue s fun x =>
    let g (j : Nat) : Nat := (x.t.regs.sget (geo.toNat + j)).toNat
    issueCopy s x (x.t.regs.sget64 dst.toNat).toNat (x.t.regs.sget64 src.toNat).toNat (g 0) (g 1) (g 2) (g 3) dsp ssp bar
      (if 2 ^ 24 < g 0 ∨ 2 ^ 20 < g 1 then [(0, (0, .spacebound))] else [])

/-! ## Chunks -/

/-- The next chunk of a command: source, destination and length (R243). -/
def CopyCmd.chunk (c : CopyCmd) : Nat × (Nat × Nat) :=
  if c.rows ≤ c.row then (0, (0, 0))
  else (c.src + c.row * c.sstr + c.pos, (c.dst + c.row * c.dstr + c.pos, min 4096 (c.rowb - c.pos)))
/-- The command after a chunk of n bytes. -/
def CopyCmd.after (c : CopyCmd) (n : Nat) : CopyCmd :=
  if c.pos + n < c.rowb then { c with pos := c.pos + n } else { c with row := c.row + 1, pos := 0 }
/-- What a chunk reads where earlier chunks of its command have written over the source (R245, log 20): each byte as it
stands, or as it stood before the command. -/
def CopyCmd.seen (c : CopyCmd) (tick a : Nat) (bs : List Byte) : List Byte :=
  if c.before.isEmpty then bs
  else bs.mapIdx fun i b =>
    match c.before.find? (a + i) with
    | some v => if Config.choice tick / 2 ^ i % 2 = 0 then b else v
    | none => b
/-- The command remembers the source bytes that a chunk at `b` writes over; `old` is what they hold. -/
def CopyCmd.remember (c : CopyCmd) (b : Nat) (old : List Byte) : CopyCmd :=
  if c.dsp = c.ssp && b < spanEnd c.src c.rowb c.rows c.sstr && c.src < b + old.length then
    { c with
      before := old.zipIdx.foldl (fun m vi => if (SMap.find? m (b + vi.2)).isSome then m else SMap.put m (b + vi.2) vi.1)
        c.before }
  else c
def CopyCmd.done (c : CopyCmd) : Bool := c.rows ≤ c.row || c.rowb = 0

/-- A command's context changes. -/
def updCopy (s : State) (isl ctx : Nat) (f : CopyCtx → CopyCtx) : State :=
  s.updIsl isl fun i => { i with copy := SMap.upd i.copy ctx f }

/-- A chunk meets a missing translation or a cause (R214, R244). -/
def copyFaults (s : State) (ctx : Nat) (cmd : CopyCmd) (cu : Nat) (c : Crew) (k : Kernel) (write : Bool) :
    Reached → State
  | .miss va d w => if c.stop then s else engineFault (updCopy s c.isl ctx fun y => { y with stalled := true }) c.isl (.copy ctx) k va write d w
  | .cause .ue va => strikeCrew s cu cmd.span.toList (some va)
      { cause := .ue, team := cmd.teamIdx, engine := 1, cmd := cmd.no, addr := va }
  | .cause cause va =>
    raiseEngine (updCopy s c.isl ctx fun y => { y with stopped := true }) cu
      { cause := cause, engine := 1, team := cmd.teamIdx, cmd := cmd.no, addr := va, span := cmd.span }
  | .ok _ => s

/-- Whether a physical piece is homed on another island, so that a packet carries it (R251). -/
def afar (isl : Nat) (p : Nat × Nat) : Bool := homeOf isl p.1 ≠ isl
/-- The source pieces of a chunk that another island holds are asked for. -/
def chunkAsk (s : State) (ctx : Nat) (c : Crew) (k : Kernel) (cmd : CopyCmd) (ps : List (Nat × Nat)) : State :=
  let far := ps.zipIdx.filter fun pj => afar c.isl pj.1
  let s := far.foldl (fun s pj =>
    sendEngine s c.isl k.tenant ctx cmd.no pj.2 pj.1.1 cmd.span (.read pj.1.2 pj.2)) s
  updCopy s c.isl ctx fun y => { y with
    cmds := { cmd with fly := some { reading := true, left := far.length } } :: y.cmds.drop 1 }
/-- The bytes of a chunk's source pieces: those that came, the others as they stand. -/
def sourceBytes (s : State) (got : SMap (List Byte)) : List ((Nat × Nat) × Nat) → List Byte × State
  | [] => ([], s)
  | (p, j) :: rest =>
    let (bs, s) := match SMap.find? got j with
      | some bs => (bs, s)
      | none => readPieces s [p]
    let r := sourceBytes s got rest
    (bs ++ r.1, r.2)
/-- The bytes of a chunk at its global destination: written, or sent where another island holds it. -/
def chunkPieces (s : State) (ctx : Nat) (c : Crew) (k : Kernel) (cmd : CopyCmd) :
    List ((Nat × Nat) × Nat) → List Byte → State
  | [], _ => s
  | (p, j) :: rest, bs =>
    let s := if afar c.isl p then sendEngine s c.isl k.tenant ctx cmd.no j p.1 cmd.span (.write (bs.take p.2))
      else writePieces s cmd.span [p] (bs.take p.2)
    chunkPieces s ctx c k cmd rest (bs.drop p.2)
/-- Bytes written by a chunk at its destination. -/
def chunkWrite (s : State) (ctx cu : Nat) (c : Crew) (k : Kernel) (cmd : CopyCmd) (a : Nat) (ps : List (Nat × Nat))
    (bs : List Byte) : State :=
  match cmd.dsp with
  | .global => chunkPieces s ctx c k cmd ps.zipIdx bs
  | .wspace => wPut s c a bs
  | sp => crewPut s cu none sp a bs

/-- After a chunk of n bytes: the barrier, and at the last chunk the timeline and its mirror (R243, R316, R346). -/
def chunkDone (s : State) (ctx cu : Nat) (c : Crew) (cmd : CopyCmd) (n : Nat) : State :=
  let cmd' := cmd.after n
  if cmd'.done then
    let y := SMap.get ({} : CopyCtx) (s.isl c.isl).copy ctx
    let t := timelineAt ((y.cmds.drop 1).map (·.no)) y.issued
    let s := updCopy s c.isl ctx fun y => { y with timeline := t, cmds := y.cmds.drop 1 }
    releaseExited (completionRelease s cu cmd.bar n mirrorCopy t) cu
  else
    let s := updCopy s c.isl ctx fun y => { y with cmds := cmd' :: y.cmds.drop 1 }
    match cmd.bar with
    | some o => barrierUpdate s cu none o n false
    | none => s

/-- A chunk's bytes go to their destination: the chunk is done, or waits for the writes that packets carry to be
acknowledged (R243). -/
def chunkOut (s : State) (ctx cu : Nat) (c : Crew) (k : Kernel) (cmd : CopyCmd) (b n : Nat) (qs : List (Nat × Nat))
    (bs old : List Byte) : State :=
  let s := chunkWrite s ctx cu c k cmd b qs bs
  let cmd := cmd.remember b old
  match (qs.filter (afar c.isl)).length with
  | 0 => chunkDone s ctx cu c { cmd with fly := none } n
  | far => updCopy s c.isl ctx fun y => { y with
      cmds := { cmd with fly := some { reading := false, left := far } } :: y.cmds.drop 1 }

/-- One chunk of the command at the head of a context, its remote source pieces having come if `got` holds them; `none`
where it must wait. -/
def copyChunk (s : State) (ctx cu : Nat) (c : Crew) (k : Kernel) (cmd : CopyCmd) (got : Option (SMap (List Byte))) :
    Option State :=
  let (a, (b, n)) := cmd.chunk
  let cmd0 := cmd
  let cmd := { cmd with fly := none }
  let s := if cmd0.fly.isNone then s else updCopy s c.isl ctx fun y => { y with cmds := cmd :: y.cmds.drop 1 }
  if barHeld s cu cmd.bar || (cmd.dsp = .lspace && wordHeld s cu none b n) then none
  else if n = 0 then some (chunkDone s ctx cu c cmd 0)
  else
    let srcR := if cmd.ssp = .global then reachRange s c.isl k.tenant .rread a n else (Reached.ok [], s)
    match srcR with
    | (.ok ps, s1) =>
      let dstR := if cmd.dsp = .global then reachRange s1 c.isl k.tenant .rwrite b n else (Reached.ok [], s1)
      match dstR with
      | (.ok qs, s2) =>
        let near (p : Nat × Nat) : Bool := !afar c.isl p
        if piecesHeld s2 false (ps.filter near) || piecesHeld s2 true (qs.filter near) then none
        else if got.isNone && ps.any (afar c.isl) then some (chunkAsk s2 ctx c k cmd ps)
        else if (ps.filter near).any fun p => poisoned s2 p.1 p.2 then
          some (strikeCrew s2 cu cmd.span.toList (some a)
            { cause := .ue, team := cmd.teamIdx, engine := 1, cmd := cmd.no, addr := a })
        else
          let (bs, s3) := match cmd.ssp with
            | .global => sourceBytes s2 (got.getD []) ps.zipIdx
            | .wspace => (wBytes s2 c a n, s2)
            | sp => (typedBytes (c.typed sp) a n, s2)
          let old := match cmd.dsp with
            | .global => (readPieces s3 qs).1
            | .wspace => wBytes s3 c b n
            | sp => typedBytes (c.typed sp) b n
          some (chunkOut s3 ctx cu c k cmd b n qs (cmd.seen s.tick a bs) old)
      | (r, s2) => some (copyFaults s2 ctx cmd cu c k true r)
    | (r, s1) => some (copyFaults s1 ctx cmd cu c k false r)

/-- The next step of a context's chunk: while packets carry it, it waits for their answers. -/
def chunkNext (s : State) (ctx cu : Nat) (c : Crew) (k : Kernel) (cmd : CopyCmd) : Option State :=
  match cmd.fly with
  | none => copyChunk s ctx cu c k cmd none
  | some f =>
    if f.left ≠ 0 then none
    else if f.reading then copyChunk s ctx cu c k cmd (some f.got)
    else if barHeld s cu cmd.bar then none
    else some (chunkDone s ctx cu c { cmd with fly := none } cmd.chunk.2.2)

/-- Whether a chunk of a context is on the fabric. -/
def chunkFlies (s : State) (isl ctx : Nat) : Bool :=
  ((SMap.get ({} : CopyCtx) (s.isl isl).copy ctx).cmds.head?.bind (·.fly)).isSome

/-- COPY_CHUNK_WRITTEN (R243, R244): the next chunk of a context is read and written. A context that a pre-emption stops
goes on to the end of a chunk that packets carry (Table 20-7), and its save is asked for there (R381). -/
def execCopyChunkWritten (isl ctx : Nat) (s : State) : Result :=
  happen s <|
    match (s.isl isl).copy.find? ctx with
    | none => none
    | some y =>
      match y.crew, y.cmds with
      | some cu, cmd :: _ =>
        match s.crews.find? cu with
        | none => none
        | some c =>
          if y.stalled || (y.stopped && !(c.stop && cmd.fly.isSome)) then none
          else
            match s.kernels.find? c.kernel with
            | none => none
            | some k => (chunkNext s ctx cu c k cmd).map fun s =>
              if y.stopped && !chunkFlies s isl ctx then askSave s isl k.tenant else s
      | _, _ => none

end Sys2Proof.Machine
end

