-- ==== Sys2Proof/Machine/Preempt.lean ====
section
/-! DEFINITION. Pre-emption (R380 to R384): the stop of a tenant's crews, what is saved and what stays, and their
restoration. -/

namespace Sys2Proof.Machine

/-! ## Stopping (Tables 20-2, 20-7, 20-8) -/

/-- The islands a write of PREEMPT names: the live ones where ISLANDS is 0. -/
def namedIsls (s : State) (mask : Nat) : List Nat :=
  if mask = 0 then s.liveIsls else (List.range s.panel.nIsl).filter fun d => natBits mask d d = 1

def crewTenant (s : State) (c : Crew) : Option Nat := (s.kernels.find? c.kernel).map (·.tenant)
/-- The crews of a tenant, by a property. -/
def tenantCrews (s : State) (t : Nat) (p : Crew → Bool) : List (Nat × Crew) :=
  s.crews.filter fun uc => crewTenant s uc.2 = some t && p uc.2

/-- The saves that a stopped crew asks for at once, one for each unit that stands at its boundary: its teams, its matrix
context, a copy context with no chunk on the fabric, a collective context with no chunk read and unsent (R380, R381). -/
def askSaves (s : State) (t : Nat) (c : Crew) : State :=
  let atRest : List Bool :=
    [true, c.mxCtx.isSome, (c.copyCtx.map fun x => !chunkFlies s c.isl x).getD false,
      (c.collCtx.map fun x => !((SMap.get ({} : CollCtx) (s.isl c.isl).coll x).cmds.any (·.unsent))).getD false]
  (atRest.filter id).foldl (fun s _ => askSave s c.isl t) s

/-- A crew stops: its teams as at a halt, its contexts at their units (R380, Table 20-7). -/
def stopCrew (s : State) (cu : Nat) (c : Crew) : State :=
  let s := if c.halt.isSome then s else (s.teamsOf cu).foldl (fun s ut => stopTeam s c.isl ut.1) s
  let s := match c.copyCtx with
    | some x => (faultForget s c.isl (.copy x)).updIsl c.isl fun i => { i with
        copy := SMap.upd i.copy x fun y => { y with stalled := false, stopped := true } }
    | none => s
  let s := match c.collCtx with
    | some x => (faultForget s c.isl (.coll x)).updIsl c.isl fun i => { i with
        coll := SMap.upd i.coll x fun y => { y with stalled := false, stopped := true } }
    | none => s
  let s := s.updMx c fun m => { m with stopped := true, granted := false }
  s.updCrew cu fun c => { c with stop := true }

/-- The two actions of PREEMPT: bits 0 and 1. A write that sets both is ignored (R380). -/
def preemptActs (x : DWord) : Bool × Bool := (natBits x.toNat 0 0 = 1, natBits x.toNat 1 1 = 1)
/-- The fields a write of PREEMPT stores. -/
def preemptFields (s : State) (t : Nat) (x : DWord) : State :=
  s.updTenant t fun y => { y with preIsls := natBits x.toNat 56 32, preMode := natBits x.toNat 8 8 = 1 }

/-- The saves of a tenant are served; late ones are counted (R218). -/
def serveSaves (s : State) (t : Nat) : State :=
  (s.deadlines.filter fun d => d.2.save = some t).foldl (fun s d => serveDeadline s (some d.1)) s

/-- PREEMPT_STOP: every crew of the tenant on the named islands stops, an exited one whose commands are not complete too;
the save of each unit is to be served within 10 µs of its stop (R380, R381). -/
def execPreemptStop (t : Nat) (x : DWord) (s : State) : Result :=
  hostTakes s false <|
    let y := s.tenant t
    if preemptActs x ≠ (true, false) ∨ y.preResume ∨ y.preStop then none
    else
      let s := preemptFields s t x
      let isls := namedIsls s (natBits x.toNat 56 32)
      let crews := tenantCrews s t fun c => isls.contains c.isl && !c.saved
      let s := crews.foldl (fun s uc => askSaves (stopCrew s uc.1 uc.2) t uc.2) s
      some (s.updTenant t fun y => { y with preStop := true, saveMode := y.preMode, stoppedOn := (isls ++ y.stoppedOn).dedup })

/-! ## Saving (Table 20-9, R382, R383) -/

/-- Whether a stopped crew can be saved: its loads and stores are drained, its GETs have landed and no chunk of its copies
is on the fabric. -/
def drained (s : State) (cu : Nat) : Bool :=
  !(((s.crews.find? cu).bind (CopyCtx.of s)).any fun y => y.cmds.any fun c => c.fly.isSome) &&
    !s.ops.any fun io => io.2.crew = cu && match io.2.ctr, io.2.kind with
      | .rm, .get .. => true
      | .rm, _ => false
      | _, _ => true
/-- Whether the crew's collective context has a chunk read whose part is still to be sent (Table 20-7). -/
def sendsChunk (s : State) (c : Crew) : Bool :=
  ((c.collCtx.bind (collStopping s c.isl)).map fun h => h.cmd.unsent).getD false

/-- A saved command asks for its chunks again when it goes on. -/
def CollCmd.unasked (c : CollCmd) : CollCmd :=
  { c with chunks := c.chunks.map fun x => { x with req := none, wreq := none }, sreq := none, headAt := none }

/-- The matrix context of a crew is saved: under SPILL with its tiles, under BANKFLIP they stay and the bank is owned. -/
def saveMx (s : State) (cu : Nat) (c : Crew) (flip : Bool) : State :=
  match c.mxCtx with
  | none => s
  | some n =>
    let e := s.engine c.cluster
    let m := e.ctx n
    let v : SavedMx :=
      { crew := cu, engine := c.cluster, ctx := { m with crew := none }
        tiles := if flip then none else some (spillTiles e m.bank)
        v0 := e.v0, v1 := e.v1, sel := e.sel, order := c.saveOrder }
    let s := s.updIsl c.isl fun i => { i with saved := i.saved ++ [v] }
    s.updEngine c.cluster fun e =>
      let e := e.setCtx n (mxFree m)
      if flip then e.setOwner m.bank (some cu) else e

/-- The entries of a kernel's bins on a core. -/
def binEntries (s : State) (kid key : Nat) : List LaneEntry :=
  ((s.core key).bins.map fun kb =>
    if kb.2.kernel = kid then (match kb.2.forming with
      | some (_, ls) => ls
      | none => []) ++ kb.2.entries else []).flatten

/-- A stopped crew is saved and its core, typed spaces and contexts are freed; its private lines are written back, since it
may go on at another core (R309). -/
def saveCrew (s : State) (cu : Nat) (flip : Bool) : State :=
  match s.crews.find? cu with
  | none => s
  | some c =>
    let order := s.pcp.saveOrder
    let s := l1Clean s c.key
    let s := s.updPcp fun p => { p with saveOrder := order + 1 }
    let c := { c with saveOrder := order }
    let copy := CopyCtx.of s c
    let coll := CollCtx.of s c
    let s := saveMx s cu c flip
    let s := leaveTyped (freeContexts ((s.updCrew cu fun c => { c with mxCtx := none })) cu) c
    let s := s.updCrew cu fun c => { c with
      saved := true, stop := false, saveOrder := order
      savedCopy := copy.map fun y => { y with crew := none }
      savedColl := coll.map fun y => { y with crew := none, cmds := y.cmds.map (·.unasked) } }
    if (s.crewsOn c.key).any fun uc => uc.2.kernel = c.kernel then s
    else
      let es := binEntries s c.kernel c.key
      let s := s.updCrew cu fun c => { c with savedBins := es }
      let travels := ((s.kernels.find? c.kernel).map (·.travels)).getD false
      s.updCore c.key fun k => { k with
        bins := k.bins.filter fun kb => kb.2.kernel ≠ c.kernel
        code := if travels then k.code else k.code.filter fun x => x.kernel ≠ c.kernel }

/-- PREEMPT_STOP_DONE: every stopped crew is saved once it is drained; STOP reads 0 and an event is written (R380). -/
def execPreemptStopDone (t : Nat) (s : State) : Result :=
  happen s <|
    let y := s.tenant t
    let crews := tenantCrews s t fun c => c.stop
    if !y.preStop || crews.any fun uc => !drained s uc.1 || sendsChunk s uc.2 then none
    else
      let s := crews.foldl (fun s uc => saveCrew s uc.1 y.saveMode) s
      let s := (serveSaves s t).updTenant t fun y => { y with preStop := false }
      some (s.event 0x23 0 0 t 0 0 0)

/-! ## Restoring (R381 to R384) -/

/-- Words and teams a crew's teams take in a slot. -/
def crewSlot (s : State) (cu slot : Nat) : Nat × Nat :=
  let ts := ((s.teamsOf cu).map Prod.snd).filter fun t => t.index % 4 = slot
  ((ts.map fun t => t.lanes * t.vregs).sum, ts.length)
/-- Whether a core takes a saved crew (R61, R381). -/
def takesSaved (s : State) (cu : Nat) (c : Crew) (k : Kernel) (core : Nat) : Bool :=
  let key := coreKey c.isl core
  core < s.panel.coresOf c.isl && (!k.travels || core = c.core) && core / 4 = c.core / 4 &&
    (List.range 4).all (fun sl =>
      slotWords s key sl + (crewSlot s cu sl).1 ≤ 65536 && (slotAllots s key sl).length + (crewSlot s cu sl).2 ≤ 16) &&
    (fitIn (lUsed s key) lLimit k.image.lspace).isSome && (fitIn (aUsed s key) aLimit k.image.aspace).isSome &&
    (k.travels || c.exited || codeHere s c.kernel key || codeUsed s key + k.image.codeBytes ≤ storeLimit)

/-- Whether the crew's halt or a pending cause comes from an engine: its context stays stopped. -/
def engineHeld (c : Crew) (engine : Nat) : Bool :=
  ((c.halt.map (·.engine)) = some engine) || c.pending.any fun e => e.engine = engine

/-- The matrix context of a saved crew is restored on a context of its cluster's engine (R383). -/
def restoreMx (s : State) (cu n : Nat) (c : Crew) (tenant : Nat) (v : SavedMx) : State :=
  let key := c.cluster
  let other := ((s.engine key).ctx (1 - n)).crew.isSome
  let (bank, s) : Nat × State := match v.tiles with
    | none => (v.ctx.bank, s.updEngine key fun e => e.setOwner v.ctx.bank none)
    | some m =>
      let (b, s) := takeBank s c.isl key n
      (b, s.updEngine key fun e => e.fillBank b m)
  let s := s.updEngine key fun e =>
    let e := e.setCtx n { v.ctx with
      crew := some cu, bank := bank, granted := false, requestedAt := s.now, stopped := engineHeld c 2 }
    if other then e else { e with v0 := v.v0, v1 := v.v1, sel := v.sel, lastTenant := some tenant }
  let s := s.updIsl c.isl fun i => { i with saved := i.saved.filter fun w => w.crew ≠ cu }
  mirrorWrite (s.updCrew cu fun c => { c with mxCtx := some n }) cu mirrorMatrix v.ctx.timeline

/-- A copy context takes up what was saved. -/
def restoreCopy (s : State) (cu x : Nat) (c : Crew) (y : CopyCtx) : State :=
  let s := s.updIsl c.isl fun i => { i with
    copy := i.copy.put x { y with crew := some cu, stalled := false, stopped := engineHeld c 1 } }
  mirrorWrite (s.updCrew cu fun c => { c with copyCtx := some x, savedCopy := none }) cu mirrorCopy y.timeline
/-- A collective context takes up what was saved. -/
def restoreColl (s : State) (cu x : Nat) (c : Crew) (y : CollCtx) : State :=
  let s := s.updIsl c.isl fun i => { i with
    coll := i.coll.put x ({ y with crew := some cu, stalled := false, stopped := engineHeld c 3 }.atHead s.now) }
  mirrorWrite (s.updCrew cu fun c => { c with collCtx := some x, savedColl := none }) cu mirrorColl y.timeline

/-- A context for each that was saved: none needed, or a free one; `none` where one is lacking. -/
def freeFor (need : Bool) (free : Option Nat) : Option (Option Nat) :=
  if need then free.map some else some none

/-- A saved crew is restored on a core of its cluster; `none` while no core or no context is free. The restoration changes
its L-space, which wakes every team that sleeps unwatched on the core (R333). -/
def restoreCrew (s : State) (cu : Nat) : Option State :=
  (s.crews.find? cu).bind fun c =>
    (s.kernels.find? c.kernel).bind fun k =>
      let i := s.isl c.isl
      let v := i.saved.find? fun v => v.crew = cu
      (bestCore s c.kernel c.isl ((List.range 36).filter (takesSaved s cu c k))).bind fun core =>
        let key := coreKey c.isl core
        let need := if k.travels || c.exited || codeHere s c.kernel key then [] else pieces k.image.codeVa k.image.codeBytes
        match codeFault s k.tenant need with
        | some (va, w) => if codeParked s c.kernel then none else some (codeStops s c.kernel k c.isl core va w)
        | none =>
          if codeHeld s k.tenant need then none
          else (freeFor v.isSome (grantable s c.cluster k.tenant)).bind fun mx =>
            (freeFor c.savedCopy.isSome (copyPick i)).bind fun cp =>
              (freeFor c.savedColl.isSome (collFree i)).map fun cl =>
                let s := if k.travels || c.exited then s else loadCode s c.kernel k key 0 k.image.codeBytes
                let lb := (fitIn (lUsed s key) lLimit k.image.lspace).getD 0
                let ab := (fitIn (aUsed s key) aLimit k.image.aspace).getD 0
                let s := s.updCrew cu fun c => { c with core := core, lbase := lb, abase := ab, saved := false, savedBins := [] }
                let s := match mx, v with
                  | some n, some v => restoreMx s cu n { c with core := core } k.tenant v
                  | _, _ => s
                let s := match cp, c.savedCopy with
                  | some x, some y => restoreCopy s cu x c y
                  | _, _ => s
                let s := match cl, c.savedColl with
                  | some x, some y => restoreColl s cu x c y
                  | _, _ => s
                let s := { s with teams := s.teams.mapVals fun _ t =>
                  if t.crew = cu then { t with sched := { t.sched with readySince := s.now } } else t }
                let s := c.savedBins.foldl (fun s e => s.addMsg { e with core := core }) s
                let s := ((s.core key).unwatched).foldl (fun s u => wakeWaiter s (.team u)) s
                binsAdvance (redirectBins (l1Acquire s key) c.kernel c.key) key

/-- Saved crews of a tenant, in the order in which they were saved. -/
def savedCrews (s : State) (t : Nat) : List Nat :=
  let l := tenantCrews s t fun c => c.saved
  sortBy (fun cu => [((SMap.find? l cu).map (·.saveOrder)).getD 0]) (SMap.keys l)
/-- Every saved crew that can be restored is; one whose awaited entries have gone elsewhere meanwhile exits (R133). A
restoration's deadline requests are made and served within it (R381; log 76). -/
def restoreAll (s : State) (t : Nat) : State :=
  sweep ((savedCrews s t).foldl (fun s cu => (restoreCrew s cu).getD s) s)

/-- PREEMPT_RESUME (R380). -/
def execPreemptResume (t : Nat) (x : DWord) (s : State) : Result :=
  hostTakes s false <|
    let y := s.tenant t
    if preemptActs x ≠ (false, true) ∨ y.preStop ∨ y.preResume then none
    else
      some (restoreAll ((preemptFields s t x).updTenant t fun y => { y with preResume := true }) t)

/-- PREEMPT_RESUME_DONE: crews that waited for a core or a context are restored; with the last, RESUME reads 0 and an event
is written (R380, R383). -/
def execPreemptResumeDone (t : Nat) (s : State) : Result :=
  happen s <|
    if !(s.tenant t).preResume then none
    else
      let s := restoreAll s t
      if (savedCrews s t).isEmpty then
        some ((s.updTenant t fun y => { y with preResume := false, stoppedOn := [] }).event 0x23 0 0 t 0 0 0)
      else some s

end Sys2Proof.Machine
end

