-- ==== Sys2Proof/Machine/Deadlines.lean ====
section
/-! DEFINITION. The two classes of request at the channel controllers (R217, R218): which normal requests an event would
perform, which deadline requests are to be served before them, and the order of deadline requests among themselves. -/

namespace Sys2Proof.Machine

/-! ## Normal requests (Table 11-9) -/

/-- Whether the L2 of its home holds every sector of some bytes: such a request reaches no controller. -/
def l2Holds (s : State) (pa n : Nat) : Bool :=
  (linesOf pa n).all fun line =>
    (SMap.get [] (s.isl (lineIsl line)).l2 (l2Key line)).any fun x =>
      x.line = line && x.sectors ||| sectorBits pa n line = x.sectors
/-- The pieces of a copy engine's next chunk on its own island. -/
def copySpans (s : State) (isl ctx : Nat) : List (Nat × Nat) :=
  let y := SMap.get ({} : CopyCtx) (s.isl isl).copy ctx
  match y.crew.bind s.crews.find?, y.cmds with
  | some c, cmd :: _ =>
    let (a, (b, n)) := cmd.chunk
    let at_ (sp : Space) (want : Want) (va : Nat) : List (Nat × Nat) :=
      match (if sp = .global then reachRange s isl ((crewTenant s c).getD 0) want va n else (Reached.ok [], s)).1 with
      | .ok ps => ps.filter fun p => !afar isl p
      | _ => []
    at_ cmd.ssp .rread a ++ at_ cmd.dsp .rwrite b
  | _, _ => []
/-- The normal requests that an event performs, with the number of the operation, where it is one. -/
def normalSpans (s : State) : Instr → Option Nat × List (Nat × Nat)
  | .loadDataWritten id | .storePerformed id =>
    match s.ops.find? id with
    | some o =>
      let key := coreKey o.isl o.core
      (some id, if o.kind.space ≠ .global then [] else
        (o.accs.map fun a => (a.addr, o.kind.size)).filter fun p =>
          !l2Holds s p.1 p.2 && ((s.core key).l1Find (lineOf p.1)).isNone)
    | none => (none, [])
  | .packetDelivery id =>
    match s.pkts.find? id with
    | some p => (some p.op, if p.cargo.isReply || p.cargo.isColl || l2Holds s p.pa p.cargo.span then [] else [(p.pa, p.cargo.span)])
    | none => (none, [])
  | .copyChunkWritten isl ctx => (none, copySpans s isl ctx)
  | _ => (none, [])

/-! ## Deadline requests -/

/-- Whether the saves of a tenant can be served now: what they save stands at its boundary. -/
def saveReady (s : State) (t : Nat) : Bool :=
  (s.tenant t).preStop && (tenantCrews s t fun c => c.stop).all fun uc => drained s uc.1 && !sendsChunk s uc.2
/-- Whether a request can be served now. -/
def servable (s : State) (req : Nat) (d : Deadline) : Bool :=
  match d.save with
  | some t => saveReady s t
  | none => (s.isl d.isl).coll.any fun y => (collHead s d.isl y.1).any fun h =>
      h.cmd.chunks.any (fun x =>
        (x.req = some req || x.wreq = some req) && (chunkStep s h x.key x.chunk false).isSome) ||
        (h.cmd.sreq = some req && (collFinish s h).isSome)
/-- The requests whose slack is below a row cycle and that can be served now. -/
def dueNow (s : State) : List (Nat × Deadline) := s.deadlines.filter fun rd => rd.2.due && servable s rd.1 rd.2
/-- Whether two requests go to one channel of an island: a save reaches every channel. -/
def Deadline.meets (d : Deadline) (p : Nat × Nat) : Bool :=
  lineIsl (lineOf p.1) = d.isl && (d.save.isSome || (linesOf p.1 p.2).any fun l =>
    d.spans.any fun q => (linesOf q.1 q.2).any fun m => channelOf (128 * m) = channelOf (128 * l))
/-- Whether an earlier request and a deadline request reach one sector: they keep the order in which they came (R217). -/
def Deadline.follows (d : Deadline) (req : Nat) (op : Option Nat) (p : Nat × Nat) : Bool :=
  op.any (· < req) && d.spans.any fun q => sectorMeet p.1 p.2 q.1 q.2

/-- The deadline requests that an event serves. -/
def servedBy (s : State) : Instr → List (Nat × Deadline)
  | .collChunkComplete isl ctx key chunk =>
    match collHead s isl ctx with
    | some h =>
      let x := h.cmd.chunkAt key chunk
      s.deadlines.filter fun rd => x.req = some rd.1 || x.wreq = some rd.1
    | none => []
  | .collComplete isl ctx =>
    match collHead s isl ctx with
    | some h => s.deadlines.filter fun rd => h.cmd.sreq = some rd.1
    | none => []
  | .preemptStopDone t => s.deadlines.filter fun rd => rd.2.save = some t
  | _ => []
/-- The order of service among due requests of an island: the earliest latest-service time first (Table 11-9). -/
def dueBefore (a b : Nat × Deadline) : Bool :=
  a.2.isl = b.2.isl && (a.2.latest < b.2.latest || (a.2.latest = b.2.latest && a.1 < b.1))

/-- Whether an event waits for a due deadline request: it would perform a normal request of the same channel, or serve a
request of a later latest-service time (R217, R218). -/
def waitsForDue (s : State) (i : Instr) : Bool :=
  let due := dueNow s
  if due.isEmpty then false
  else
    let (op, ps) := normalSpans s i
    let mine := servedBy s i
    ps.any (fun p => due.any fun rd => rd.2.meets p && !rd.2.follows rd.1 op p) ||
      mine.any fun a => due.any fun b => !(mine.map Prod.fst).contains b.1 && dueBefore b a

end Sys2Proof.Machine
end

