-- ==== Sys2Proof/Machine/Control.lean ====
section
/-! DEFINITION. Control, calls, ending, traps, work creation, queries and the index, format and coefficient registers
(08_control_scalar_instructions, R123 to R151). -/

namespace Sys2Proof.Machine

/-! ## Branches (R123 to R129) -/

/-- NOP (R134). -/
def execNop (s : State) : Result := issue s fun x => step8 s x x.t 1

/-- BRA (Table 8-1). -/
def execBra (disp : BitVec 24) (s : State) : Result := issue s fun x => jump s x (branchTarget x disp)

/-- BRC (Table 8-1). -/
def execBrc (c : SReg) (disp : BitVec 24) (s : State) : Result :=
  issue s fun x => if x.t.regs.sget c.toNat ≠ 0 then jump s x (branchTarget x disp) else step8 s x x.t 1

/-- The greatest reconvergence depth (Table 7-1). -/
def maxDepth (lanes : Nat) : Nat := 32 + 192 / (8 + lanes / 4)

/-- The lanes of ACTIVE whose condition holds (R124). -/
def takers (s : State) (x : Issuer) (act : List Nat) (c : Operand) : List Nat := act.filter fun l => condVal s x l c

/-- A branch of BRV or BRK that leaves the resident segment: its lanes depart, nothing is pushed (R129). -/
def departBranch (s : State) (x : Issuer) (target : Int) (ts : List Nat) (cycles : Nat) : State :=
  depart s x (ts.map fun l => { lane := l, target := offsetAddr target, ret := laneRetOf x.t l }) fun s t =>
    settle s x t x.next cycles

/-- BRV (R125). -/
def execBrv (g : Guard) (c : Operand) (disp : BitVec 24) (s : State) : Result :=
  issue s fun x =>
    let act := x.lanes g
    let cyc := passCycles x 1 0
    if !act.isEmpty && !inBounds x.t 1 c then raiseLanes s x .regbound act 0
    else
      let ts := takers s x act c
      let target := branchTarget x disp
      if !inCode s x target && x.k.travels then departBranch s x target ts cyc
      else if !inCode s x target && !ts.isEmpty then raiseLanes s x .spacebound ts (offsetAddr target)
      else if maxDepth x.t.lanes ≤ x.t.flow.stack.length then raiseLanes s x .stackovf act 0
      else
        let t := maskOf ts
        let f := x.t.flow
        let e : RecEntry :=
          { st := .first, off := some x.next, saved := f.mask, todo := f.mask &&& ~~~t, fmt := x.t.regs.fmt }
        let flow := if t ≠ 0 then { f with mask := t, pc := target.toNat, stack := e :: f.stack }
          else { f with pc := x.next, stack := { e with st := .second, off := none, todo := 0 } :: f.stack }
        finish s x { x.t with flow := flow } cyc

/-- BRK (R126). -/
def execBrk (g : Guard) (c : Operand) (disp : BitVec 24) (s : State) : Result :=
  issue s fun x =>
    let act := x.lanes g
    let cyc := passCycles x 1 0
    if !act.isEmpty && !inBounds x.t 1 c then raiseLanes s x .regbound act 0
    else
      let ts := takers s x act c
      let target := branchTarget x disp
      let f := x.t.flow
      let t := maskOf ts
      let left (stack : List RecEntry) : Team := { x.t with flow := { f with mask := f.mask &&& ~~~t, stack := stack } }
      if ts.isEmpty then step8 s x x.t cyc
      else if !inCode s x target && x.k.travels then departBranch s x target ts cyc
      else if !inCode s x target then raiseLanes s x .spacebound ts (offsetAddr target)
      else
        let fresh (_ : Unit) : State :=
          if maxDepth x.t.lanes ≤ f.stack.length then raiseLanes s x .stackovf act 0
          else
            let e : RecEntry :=
              { st := .brk, off := some target.toNat, saved := f.mask, todo := t, fmt := x.t.regs.fmt }
            settle s x (left (e :: f.stack)) x.next cyc
        match f.stack with
        | e :: rest =>
          if e.st = .brk ∧ e.off = some target.toNat then
            settle s x (left ({ e with todo := e.todo ||| t } :: rest)) x.next cyc
          else fresh ()
        | [] => fresh ()

/-- JOIN (R127). -/
def execJoin (s : State) : Result :=
  issue s fun x =>
    let f := x.t.flow
    let j := f.pc
    match f.stack with
    | [] => step8 s x x.t 1
    | e :: rest =>
      if e.st = .first ∧ e.todo ≠ 0 then
        finish s x { x.t with
          regs := { x.t.regs with fmt := e.fmt }
          flow := { f with
            mask := e.todo, pc := e.off.getD (2 ^ 32 - 1)
            stack := { e with todo := 0, off := some j, st := .second } :: rest } } 1
      else if e.st = .first ∨ (e.st = .second ∧ (e.off = some j ∨ e.off = none)) ∨ (e.st = .brk ∧ e.off = some j) then
        settle s x { x.t with
          regs := { x.t.regs with fmt := e.fmt }
          flow := { f with mask := e.saved, stack := rest } } (j + 8) 1
      else step8 s x x.t 1

/-! ## Calls and jumps (R130, R131) -/

/-- CALL. -/
def execCall (disp : BitVec 24) (s : State) : Result := issue s fun x => callTo s x (branchTarget x disp)
/-- CALLR. -/
def execCallr (a : SReg) (s : State) : Result := issue s fun x => callTo s x (x.t.regs.sget a.toNat).toNat
/-- JMPR. -/
def execJmpr (a : SReg) (s : State) : Result := issue s fun x => jump s x (x.t.regs.sget a.toNat).toNat

/-- RET in a travelling kernel (R118, R131): lanes whose popped offset is that of the lowest lane, in the resident
segment, go on there; every other lane departs to its own. A lane with an empty return stack raises STACKOVF, below the
causes of the others' offsets (R373); where the lowest lane is such a lane, the offset is that of the lowest lane that has
one (R131 gives none then: the model's choice, log 81). -/
def retTravel (s : State) (x : Issuer) : State :=
  let ls := lanesOf x.t.flow.mask x.t.lanes
  let low := ls.filter fun l => (laneRetOf x.t l).isEmpty
  let full := ls.filter fun l => !low.contains l
  let pop (l : Nat) : Nat := (laneRetOf x.t l).getLastD 0
  let rest (l : Nat) : List Nat := (laneRetOf x.t l).dropLast
  let p := pop (full.headD 0)
  let stay := if inCode s x p && p % 8 = 0 then full.filter fun l => pop l = p else []
  let go : List Leaver := (full.filter fun l => !stay.contains l).map fun l =>
    { lane := l, target := pop l, ret := rest l }
  match worst (leaveCauses x.k go ++ low.map fun l => (l, (0, .stackovf))) with
  | some b => raiseLanes s x b.cause b.lanes b.addr
  | none =>
    depart s x go fun s t =>
      let t := { t with flow := setLaneRets t.flow stay rest }
      if stay.isEmpty then settle s x t x.next 1 else settle s x t p 1

/-- RET. -/
def execRet (s : State) : Result :=
  issue s fun x =>
    if x.k.travels then retTravel s x
    else
      match x.t.flow.ret.getLast? with
      | none => raiseTeam s x .stackovf 0
      | some p => transfer s x p [] x.t.flow.ret.dropLast (laneRetOf x.t)

/-! ## Ending, yielding, trapping and marking -/

/-- EXIT (R132, R133). -/
def execExit (g : Guard) (crew : Bool) (s : State) : Result :=
  issue s fun x =>
    if crew then endTeam (charge (closeCrew s x.t.crew) x 1) x.u
    else settle s x { x.t with flow := x.t.flow.clear (x.active g) } x.next (passCycles x 1 0)

/-- YIELD (R134). -/
def execYield (s : State) : Result :=
  issue s fun x => step8 s x { x.t with sched := { x.t.sched with age := s.now } } 1

/-- TRAP (R135): BREAK for the whole mask, with its code. -/
def execTrap (code : BitVec 16) (s : State) : Result :=
  issue s fun x => raise s x.u .brk x.t.flow.mask 0 code.toNat

/-- MARK (R136): the span of a resident team of a rollback kernel closes and the next opens. -/
def execMark (s : State) : Result :=
  issue s fun x =>
    if x.t.tx.isSome then forbid s x
    else if x.t.cnt.st ≠ 0 ∨ x.t.cnt.rm ≠ 0 then s
    else
      match teamSpan s x.t with
      | none => step8 s x x.t 1
      | some g =>
        let (sp, s) := (closeSpan s g).fresh
        step8 s x { x.t with span := sp, formedBy := [] } 1

/-! ## SPAWN (R137 to R139) -/

/-- One lane's entry is formed, where it is accepted. -/
def spawnOne (s : State) (x : Issuer) (no off core lane : Nat) (ws : List Word) : Bool × State :=
  let e := rerouted s { kernel := x.c.kernel, off := off, isl := x.c.isl, core := core, payload := .words ws,
                        port := clusterPort x.c.isl x.c.core, span := x.span, spawn := some (no, lane) }
  if !accepts s e then (false, s)
  else (true, if e.isl = x.c.isl then s.addMsg e else forward s x.c.isl e)

/-- Entries of the active lanes in ascending order, and the lanes accepted. -/
def spawnAll (x : Issuer) (no off : Nat) (dest : Nat → Nat) (ws : Nat → List Word) : State → List Nat → State × List Nat
  | s, [] => (s, [])
  | s, l :: ls =>
    let (ok, s) := spawnOne s x no off (dest l) l (ws l)
    let (s, oks) := spawnAll x no off dest ws s ls
    (s, if ok then l :: oks else oks)

/-- SPAWN (R137 to R139): it holds its team until its stores are performed, as its release at island scope asks. -/
def execSpawn (g : Guard) (pay dest : Operand) (entry : BitVec 8) (lenm1 : BitVec 4) (pd : BitVec 3) (s : State) :
    Result :=
  issue s fun x =>
    let act := x.lanes g
    let n := lenm1.toNat + 1
    if act.isEmpty then step8 s x x.t (passCycles x 1 0)
    else if x.t.tx.isSome then forbid s x
    else if x.t.cnt.ld ≠ 0 ∨ x.t.cnt.st ≠ 0 then s
    else if !rangeInBounds x.t n pay || !inBounds x.t 1 dest then raiseLanes s x .regbound act 0
    else
      match (x.k.image.entries[entry.toNat]?).filter (·.handler) with
      | none => raiseLanes s x .spacebound act entry.toNat
      | some e =>
        let r := vregOf x.t.regs pay
        let words (l : Nat) : List Word := (List.range n).map fun i => x.t.regs.vget l (r + i)
        let (s', oks) := spawnAll x s.uid e.off (fun l => src32 s x l dest) words (l1Clean s x.c.key) act
        step8 s' x { x.t with regs := writePred x.t.regs pd.toNat (fun l => oks.contains l) act } (passCycles x 1 0)

/-! ## Queries and state reads (R140, R141) -/

/-- The value of a QRY item (Table 8-6). -/
def qryValue (s : State) (x : Issuer) : QryItem → Nat
  | .grade => s.panel.gradeCode
  | .nisl => s.panel.nIsl
  | .lrows => 5
  | .lcols => 5
  | .llast => s.panel.nIsl - 20
  | .icores => s.panel.coresOf x.c.isl
  | .pcores => (s.liveIsls.map s.panel.coresOf).sum
  | .topo => (Config.topoPage x.k.tenant).toNat * 4096
  | .lanes => x.k.launch.shape.lanes
  | .teams => x.k.launch.shape.teams
  | .vregs => x.k.launch.shape.vregs
  | .extent => x.k.launch.extent
  | .nset => (x.k.isls.getD []).length
  | .setrank => ((x.k.isls.getD []).filter fun i => i < x.c.isl).length
  | .cycle => s.now
/-- QRY (R140). -/
def execQry (d : SReg) (item : QryItem) (s : State) : Result :=
  issue s fun x =>
    let n := match item with
      | .topo | .extent | .cycle => 2
      | _ => 1
    step8 s x { x.t with regs := x.t.regs.ssetN d.toNat n (qryValue s x item) } 1

/-- The word a SREG selector reads (Table 8-7). -/
def sregValue (x : Issuer) (a : Nat) : Word :=
  if a < 32 then maskWord x.t.flow.mask a
  else match a with
    | 32 => maskSummary x.t.flow.mask
    | 33 => BitVec.ofNat 32 x.t.flow.stack.length
    | 34 =>
      if x.k.travels then
        BitVec.ofNat 32 (laneRetOf x.t ((lanesOf x.t.flow.mask x.t.lanes).headD 0)).length
      else BitVec.ofNat 32 x.t.flow.ret.length
    | 35 => BitVec.ofNat 32 x.t.cnt.ld
    | 36 => BitVec.ofNat 32 x.t.cnt.st
    | 37 => BitVec.ofNat 32 x.t.cnt.rm
    | 38 => BitVec.ofNat 32 x.t.sched.level
    | _ => 0

/-- SREG (R141). -/
def execSreg (d : SReg) (a : Operand) (s : State) : Result :=
  issue s fun x =>
    step8 s x { x.t with regs := x.t.regs.sset d.toNat (sregValue x (src32 s x 0 a)) } 1

/-! ## MSET, index, format and coefficient registers -/

/-- MSET (R146): lanes leave the mask, and the mask only. -/
def execMset (g : Guard) (a : Operand) (s : State) : Result :=
  issue s fun x =>
    let act := x.lanes g
    let cyc := passCycles x 1 0
    if !act.isEmpty && !inBounds x.t 1 a then raiseLanes s x .regbound act 0
    else
      let gone := act.filter fun l => !condVal s x l a
      settle s x { x.t with flow := { x.t.flow with mask := x.t.flow.mask &&& ~~~(maskOf gone) } } x.next cyc

/-- SETIX (R147). -/
def execSetix (n : BitVec 2) (a : Operand) (imm : BitVec 16) (s : State) : Result :=
  issue s fun x =>
    step8 s x { x.t with regs := x.t.regs.ixset n.toNat (BitVec.ofNat 16 (src32 s x 0 a + imm.toNat)) } 1

/-- SETFMT (R148): lanes lose the fmt they arrived with (R121). -/
def execSetfmt (src : FmtSrc) (s : State) : Result :=
  issue s fun x =>
    let f : BitVec 24 := match src with
      | .imm i => i
      | .reg r => (x.t.regs.sget r.toNat).setWidth 24
    step8 s x { x.t with regs := { x.t.regs with fmt := f, laneFmt := [] } } 1

/-- GETFMT (R148). -/
def execGetfmt (d : SReg) (s : State) : Result :=
  issue s fun x => step8 s x { x.t with regs := x.t.regs.sset d.toNat (x.t.regs.fmt.setWidth 32) } 1

/-- SETK (R149). -/
def execSetk (n : BitVec 4) (a : Operand) (s : State) : Result :=
  issue s fun x =>
    match x.c.mxCtx with
    | none => raiseTeam s x .enginedeny 0
    | some _ =>
      let v := BitVec.ofNat 32 (src32 s x 0 a)
      step8 (s.updMx x.c fun m => { m with ks := SMap.set 0 m.ks n.toNat v }) x x.t 1

/-- GETK (R149). -/
def execGetk (d : SReg) (n : BitVec 4) (s : State) : Result :=
  issue s fun x =>
    match MxCtx.of s x.c with
    | none => raiseTeam s x .enginedeny 0
    | some m => step8 s x { x.t with regs := x.t.regs.sset d.toNat (SMap.get 0 m.ks n.toNat) } 1

/-- WAITC (R150): the team is held until its counters stand at or below the fields. -/
def execWaitc (ld st rm : BitVec 6) (s : State) : Result :=
  issue s fun x =>
    if x.t.cnt.ld ≤ ld.toNat ∧ x.t.cnt.st ≤ st.toNat ∧ x.t.cnt.rm ≤ rm.toNat then step8 s x x.t 1 else s

/-! ## XFER (R151) -/

/-- XFER. -/
def execXfer (g : Guard) (t : Operand) (s : State) : Result :=
  issue s fun x =>
    let act := x.lanes g
    let cyc := passCycles x 1 0
    if act.isEmpty then step8 s x x.t cyc
    else if x.t.tx.isSome then forbid s x
    else if !inBounds x.t 1 t then raiseLanes s x .regbound act 0
    else if !x.k.travels then raiseLanes s x .spacebound act (src32 s x (act.headD 0) t)
    else
      depart s x (act.map fun l => { lane := l, target := src32 s x l t, ret := laneRetOf x.t l }) fun s t =>
        settle s x t x.next cyc

end Sys2Proof.Machine
end

