-- ==== Sys2Proof/Machine/Vector.lean ====
section
/-! DEFINITION. Vector integer instructions (R168 to R177) and pair words (R82, R83). -/

namespace Sys2Proof.Machine

/-- A two-source operation, element by element (R169, R172). -/
def vec2Op (s : State) (g : Guard) (t : ITy) (d a b : Operand) (op : IntOp) : Result :=
  issue s fun x => laneOp s x g t.elem d [a, b] fun l =>
    t.elem.map2 (op t.elem.sgn t.elem.w) (srcVal s x t.elem l a) (srcVal s x t.elem l b)
/-- The same with an immediate (R81). -/
def vecImmOp (s : State) (g : Guard) (t : ITy) (d a : Operand) (imm : Nat) (op : IntOp) : Result :=
  issue s fun x => laneOp s x g t.elem d [a] fun l => op t.elem.sgn t.elem.w (srcVal s x t.elem l a) imm
/-- A one-source operation, element by element. -/
def vec1Op (s : State) (g : Guard) (t : ITy) (d a : Operand) (op : Nat → Nat → Nat) : Result :=
  issue s fun x => laneOp s x g t.elem d [a] fun l => t.elem.map1 (op t.elem.w) (srcVal s x t.elem l a)
/-- A shift: one count of 32 bits, or a count per element under packed types (R174). -/
def vecShift (s : State) (g : Guard) (t : ITy) (d a b : Operand) (op : IntOp) : Result :=
  issue s fun x => laneOp s x g t.elem d [a, b] fun l =>
    let n := srcVal s x t.elem l b
    t.elem.map2 (op t.elem.sgn t.elem.w) (srcVal s x t.elem l a) (if t.packed then n else n % 2 ^ 32)

/-- VADD (R172, R173). -/
def execVadd (g : Guard) (t : ITy) (sat : Bool) (d a b : Operand) (s : State) : Result :=
  vec2Op s g t d a b (if sat then iAddSat else iAdd)

/-- VSUB (R172, R173). -/
def execVsub (g : Guard) (t : ITy) (sat : Bool) (d a b : Operand) (s : State) : Result :=
  vec2Op s g t d a b (if sat then iSubSat else iSub)

/-- VMUL (R172). -/
def execVmul (g : Guard) (t : ITy) (d a b : Operand) (s : State) : Result := vec2Op s g t d a b iMul

/-- VMULH (R172). -/
def execVmulh (g : Guard) (t : ITy) (d a b : Operand) (s : State) : Result := vec2Op s g t d a b iMulh

/-- VMIN (R172). -/
def execVmin (g : Guard) (t : ITy) (d a b : Operand) (s : State) : Result := vec2Op s g t d a b iMin

/-- VMAX (R172). -/
def execVmax (g : Guard) (t : ITy) (d a b : Operand) (s : State) : Result := vec2Op s g t d a b iMax

/-- VAND (R172). -/
def execVand (g : Guard) (t : ITy) (d a b : Operand) (s : State) : Result := vec2Op s g t d a b iAnd

/-- VOR (R172). -/
def execVor (g : Guard) (t : ITy) (d a b : Operand) (s : State) : Result := vec2Op s g t d a b iOr

/-- VXOR (R172). -/
def execVxor (g : Guard) (t : ITy) (d a b : Operand) (s : State) : Result := vec2Op s g t d a b iXor

/-- VSHL (R174). -/
def execVshl (g : Guard) (t : ITy) (d a b : Operand) (s : State) : Result := vecShift s g t d a b iShl

/-- VSHR (R174). -/
def execVshr (g : Guard) (t : ITy) (d a b : Operand) (s : State) : Result := vecShift s g t d a b iShr

/-- VSRA (R174). -/
def execVsra (g : Guard) (t : ITy) (d a b : Operand) (s : State) : Result := vecShift s g t d a b iSra

/-- VADD with an immediate (R81). -/
def execVaddImm (g : Guard) (t : ITy) (d a : Operand) (imm : BitVec 24) (s : State) : Result :=
  vecImmOp s g t d a (immArith t imm) iAdd

/-- VSUB with an immediate (R81). -/
def execVsubImm (g : Guard) (t : ITy) (d a : Operand) (imm : BitVec 24) (s : State) : Result :=
  vecImmOp s g t d a (immArith t imm) iSub

/-- VMUL with an immediate (R81). -/
def execVmulImm (g : Guard) (t : ITy) (d a : Operand) (imm : BitVec 24) (s : State) : Result :=
  vecImmOp s g t d a (immArith t imm) iMul

/-- VMIN with an immediate (R81). -/
def execVminImm (g : Guard) (t : ITy) (d a : Operand) (imm : BitVec 24) (s : State) : Result :=
  vecImmOp s g t d a (immArith t imm) iMin

/-- VMAX with an immediate (R81). -/
def execVmaxImm (g : Guard) (t : ITy) (d a : Operand) (imm : BitVec 24) (s : State) : Result :=
  vecImmOp s g t d a (immArith t imm) iMax

/-- VAND with an immediate (R81). -/
def execVandImm (g : Guard) (t : ITy) (d a : Operand) (imm : BitVec 24) (s : State) : Result :=
  vecImmOp s g t d a (immLogic imm) iAnd

/-- VOR with an immediate (R81). -/
def execVorImm (g : Guard) (t : ITy) (d a : Operand) (imm : BitVec 24) (s : State) : Result :=
  vecImmOp s g t d a (immLogic imm) iOr

/-- VXOR with an immediate (R81). -/
def execVxorImm (g : Guard) (t : ITy) (d a : Operand) (imm : BitVec 24) (s : State) : Result :=
  vecImmOp s g t d a (immLogic imm) iXor

/-- VSHL with an immediate (R81). -/
def execVshlImm (g : Guard) (t : ITy) (d a : Operand) (imm : BitVec 24) (s : State) : Result :=
  vecImmOp s g t d a (immLogic imm) iShl

/-- VSHR with an immediate (R81). -/
def execVshrImm (g : Guard) (t : ITy) (d a : Operand) (imm : BitVec 24) (s : State) : Result :=
  vecImmOp s g t d a (immLogic imm) iShr

/-- VSRA with an immediate (R81). -/
def execVsraImm (g : Guard) (t : ITy) (d a : Operand) (imm : BitVec 24) (s : State) : Result :=
  vecImmOp s g t d a (immLogic imm) iSra

/-- VMAD: a × b + c (R172). -/
def execVmad (g : Guard) (t : ITy) (d a b c : Operand) (s : State) : Result :=
  issue s fun x => laneOp s x g t.elem d [a, b, c] fun l =>
    t.elem.map3 (fun a b c => iAdd t.elem.sgn t.elem.w (iMul t.elem.sgn t.elem.w a b) c)
      (srcVal s x t.elem l a) (srcVal s x t.elem l b) (srcVal s x t.elem l c)
/-- VABS (R173). -/
def execVabs (g : Guard) (t : ITy) (sat : Bool) (d a : Operand) (s : State) : Result :=
  vec1Op s g t d a (if sat then iAbsSat else iAbs)
/-- VNEG (R173). -/
def execVneg (g : Guard) (t : ITy) (sat : Bool) (d a : Operand) (s : State) : Result :=
  vec1Op s g t d a (if sat then iNegSat else iNeg)
/-- VNOT (R172). -/
def execVnot (g : Guard) (t : ITy) (d a : Operand) (s : State) : Result := vec1Op s g t d a iNot
/-- VPOPC (R172). -/
def execVpopc (g : Guard) (t : ITy) (d a : Operand) (s : State) : Result := vec1Op s g t d a popcount
/-- VCLZ (R172). -/
def execVclz (g : Guard) (t : ITy) (d a : Operand) (s : State) : Result := vec1Op s g t d a clz
/-- VMOV (R172): the bits as they stand (R153). -/
def execVmov (g : Guard) (t : ITy) (d a : Operand) (s : State) : Result := vec1Op s g t d a fun _ a => a
/-- VBFE (R174). -/
def execVbfe (g : Guard) (t : ITy) (d a b : Operand) (s : State) : Result :=
  vec2Op s g t d a b fun sg w a b => bitExtract sg w a (b % 2 ^ 32)
/-- VBFI (R174). -/
def execVbfi (g : Guard) (t : ITy) (d a b c : Operand) (s : State) : Result :=
  issue s fun x => laneOp s x g t.elem d [a, b, c] fun l =>
    bitInsert t.elem.w (srcVal s x t.elem l a) (srcVal s x t.elem l b) (srcVal s x t.elem l c % 2 ^ 32)

/-- A comparison: all ones or 0 in each element of a vector register, or 1 or 0 in a predicate (R175, R181). -/
def cmpWord (s : State) (x : Issuer) (g : Guard) (e : Elem) (d a b : Operand) (holds : Nat → Nat → Bool) : State :=
  let act := x.lanes g
  let bounds := inBounds x.t e.regs d && inBounds x.t e.regs a && inBounds x.t e.regs b
  let regs := match d with
    | .k c => writePred x.t.regs (c.toNat - 0x90) (fun l => holds (srcVal s x e l a) (srcVal s x e l b)) act
    | d => writeLanes x.t.regs e.regs (vregOf x.t.regs d)
        (fun l => e.map2 (fun a b => if holds a b then 2 ^ e.w - 1 else 0) (srcVal s x e l a) (srcVal s x e l b)) act
  laneWord s x act bounds (passCycles x e.regs 0) { x.t with regs := regs }

/-- VCMP (R175). -/
def execVcmp (g : Guard) (t : ITy) (cc : Cc) (d a b : Operand) (s : State) : Result :=
  issue s fun x => cmpWord s x g t.elem d a b fun a b =>
    cc.holds (ival t.elem.sgn t.elem.w a) (ival t.elem.sgn t.elem.w b)
/-- VSEL (R176): c is one 32-bit value for the whole lane. -/
def execVsel (g : Guard) (t : ITy) (d a b c : Operand) (s : State) : Result :=
  issue s fun x =>
    let act := x.lanes g
    let bounds := inBounds x.t t.regs d && inBounds x.t t.regs a && inBounds x.t t.regs b && inBounds x.t 1 c
    laneWord s x act bounds (passCycles x t.regs 0)
      { x.t with
        regs := writeLanes x.t.regs t.regs (vregOf x.t.regs d)
          (fun l => if condVal s x l c then srcVal s x t.elem l a else srcVal s x t.elem l b) act }
/-- VMOVI (R177). -/
def execVmovi (g : Guard) (t : ITy) (d : Operand) (imm : BitVec 24) (s : State) : Result :=
  issue s fun x => laneOp s x g t.elem d [] fun _ => immArith t imm

/-! ## Pair words -/

/-- The operation of a half on 32-bit lanes: D, then S (R82). -/
def popVal : Pop → Nat → Nat → Nat
  | .vadd, a, b => iAdd true 32 a b
  | .vsub, a, b => iSub true 32 a b
  | .vmul, a, b => iMul true 32 a b
  | .vmin, a, b => iMin true 32 a b
  | .vmax, a, b => iMax true 32 a b
  | .vand, a, b => iAnd true 32 a b
  | .vor, a, b => iOr true 32 a b
  | .vxor, a, b => iXor true 32 a b
  | .vshl, a, b => iShl true 32 a b
  | .vshr, a, b => iShr true 32 a b
  | .vsra, a, b => iSra true 32 a b
  | .vmov, _, b => b
  | .fadd, a, b => fAdd .fp32 .ne a b
  | .fsub, a, b => fSub .fp32 .ne a b
  | .fmul, a, b => fMul .fp32 .ne a b
  | .fmin, a, b => FFmt.fp32.minMax false a b
  | .fmax, a, b => FFmt.fp32.minMax true a b
def popFloat : Pop → Bool
  | .fadd | .fsub | .fmul | .fmin | .fmax => true
  | _ => false

/-- S of a half for a lane (R82). -/
def halfSrc (g : Regs) (h : Half) (lane : Nat) : Nat :=
  if h.imm then
    if popFloat h.pop then FFmt.fp32.round .ne (FVal.ofInt false h.s.toInt 0) else trunc 32 h.s.toInt
  else (g.vget lane h.s.toNat).toNat
def halfVal (g : Regs) (h : Half) (lane : Nat) : Nat :=
  popVal h.pop (g.vget lane h.d.toNat).toNat (halfSrc g h lane)
/-- ACT(h) (R83). -/
def halfMask (t : Team) (h : Half) : Mask :=
  t.flow.mask &&& (match h.hpred with
    | .always => BitVec.allOnes 1024
    | .p0 => t.regs.pget 0
    | .p1 => t.regs.pget 1
    | .notP0 => ~~~(t.regs.pget 0))
def halfBounds (t : Team) (h : Half) : Bool := h.d.toNat < t.vregs && (h.imm || h.s.toNat < t.vregs)

/-- A pair word (R83): every read of both halves before any write; when a register is missing, the lanes active in
either half raise REGBOUND (R76) and neither half writes. -/
def execPairWord (h0 h1 : Half) (s : State) : Result :=
  issue s fun x =>
    let l0 := lanesOf (halfMask x.t h0) x.t.lanes
    let l1 := lanesOf (halfMask x.t h1) x.t.lanes
    let act := lanesOf (halfMask x.t h0 ||| halfMask x.t h1) x.t.lanes
    let g0 := l0.foldl (fun g l => g.vset l h0.d.toNat (BitVec.ofNat 32 (halfVal x.t.regs h0 l))) x.t.regs
    let g1 := l1.foldl (fun g l => g.vset l h1.d.toNat (BitVec.ofNat 32 (halfVal x.t.regs h1 l))) g0
    laneWord s x act (halfBounds x.t h0 && halfBounds x.t h1) (passCycles x 1 0) { x.t with regs := g1 }

end Sys2Proof.Machine
end

