-- ==== Sys2Proof/Machine/VecFloat.lean ====
section
/-! DEFINITION. Vector float instructions (R178 to R182): the exact result narrowed once. -/

namespace Sys2Proof.Machine

/-- A two-source float operation, element by element (R182). -/
def flt2Op (s : State) (g : Guard) (t : FTy) (d a b : Operand) (op : FFmt → Nat → Nat → Nat) : Result :=
  issue s fun x => laneOp s x g t.elem d [a, b] fun l =>
    t.elem.map2 (op t.fmt) (srcVal s x t.elem l a) (srcVal s x t.elem l b)
/-- The same with an immediate, to nearest (R81). -/
def fltImmOp (s : State) (g : Guard) (t : FTy) (d a : Operand) (imm : BitVec 24) (op : FFmt → Nat → Nat → Nat) :
    Result :=
  issue s fun x => laneOp s x g t.elem d [a] fun l =>
    t.elem.map2 (op t.fmt) (srcVal s x t.elem l a) (immFloat t imm)
/-- A one-source float operation, element by element. -/
def flt1Op (s : State) (g : Guard) (t : FTy) (d a : Operand) (op : FFmt → FVal → Nat) : Result :=
  issue s fun x => laneOp s x g t.elem d [a] fun l =>
    t.elem.map1 (fun y => op t.fmt (t.fmt.val y)) (srcVal s x t.elem l a)

/-- FADD (R178). -/
def execFadd (g : Guard) (t : FTy) (rm : Rm) (d a b : Operand) (s : State) : Result :=
  flt2Op s g t d a b fun f => fAdd f rm

/-- FADD with an immediate (R81). -/
def execFaddImm (g : Guard) (t : FTy) (d a : Operand) (imm : BitVec 24) (s : State) : Result :=
  fltImmOp s g t d a imm fun f => fAdd f .ne

/-- FSUB (R178). -/
def execFsub (g : Guard) (t : FTy) (rm : Rm) (d a b : Operand) (s : State) : Result :=
  flt2Op s g t d a b fun f => fSub f rm

/-- FSUB with an immediate (R81). -/
def execFsubImm (g : Guard) (t : FTy) (d a : Operand) (imm : BitVec 24) (s : State) : Result :=
  fltImmOp s g t d a imm fun f => fSub f .ne

/-- FMUL (R178). -/
def execFmul (g : Guard) (t : FTy) (rm : Rm) (d a b : Operand) (s : State) : Result :=
  flt2Op s g t d a b fun f => fMul f rm

/-- FMUL with an immediate (R81). -/
def execFmulImm (g : Guard) (t : FTy) (d a : Operand) (imm : BitVec 24) (s : State) : Result :=
  fltImmOp s g t d a imm fun f => fMul f .ne

/-- FDIV (R178). -/
def execFdiv (g : Guard) (t : FTy) (rm : Rm) (d a b : Operand) (s : State) : Result :=
  flt2Op s g t d a b fun f => fDiv f rm

/-- FMIN (R180): the rounding mode has no effect. -/
def execFmin (g : Guard) (t : FTy) (_rm : Rm) (d a b : Operand) (s : State) : Result :=
  flt2Op s g t d a b fun f => f.minMax false

/-- FMIN with an immediate (R81). -/
def execFminImm (g : Guard) (t : FTy) (d a : Operand) (imm : BitVec 24) (s : State) : Result :=
  fltImmOp s g t d a imm fun f => f.minMax false

/-- FMAX (R180): the rounding mode has no effect. -/
def execFmax (g : Guard) (t : FTy) (_rm : Rm) (d a b : Operand) (s : State) : Result :=
  flt2Op s g t d a b fun f => f.minMax true

/-- FMAX with an immediate (R81). -/
def execFmaxImm (g : Guard) (t : FTy) (d a : Operand) (imm : BitVec 24) (s : State) : Result :=
  fltImmOp s g t d a imm fun f => f.minMax true

/-- FFMA (R178): a × b + c exactly, then one rounding. -/
def execFfma (g : Guard) (t : FTy) (rm : Rm) (d a b c : Operand) (s : State) : Result :=
  issue s fun x => laneOp s x g t.elem d [a, b, c] fun l =>
    t.elem.map3 (fFma t.fmt rm) (srcVal s x t.elem l a) (srcVal s x t.elem l b) (srcVal s x t.elem l c)
/-- FCMP (R181): the rounding mode has no effect. -/
def execFcmp (g : Guard) (t : FTy) (_rm : Rm) (cc : Fcc) (d a b : Operand) (s : State) : Result :=
  issue s fun x => cmpWord s x g t.elem d a b fun a b => cc.holds (t.fmt.val a) (t.fmt.val b)
/-- FRCP (R178, Table 10-4). -/
def execFrcp (g : Guard) (t : FTy) (rm : Rm) (d a : Operand) (s : State) : Result :=
  flt1Op s g t d a fun f v => f.div rm (.fin false 1 0) v
/-- FRSQ (R178, Table 10-4). -/
def execFrsq (g : Guard) (t : FTy) (rm : Rm) (d a : Operand) (s : State) : Result := flt1Op s g t d a fun f => f.rsqrt rm
/-- FSQRT (R178, Table 10-4). -/
def execFsqrt (g : Guard) (t : FTy) (rm : Rm) (d a : Operand) (s : State) : Result := flt1Op s g t d a fun f => f.sqrt rm
/-- FEX2 (R178, R179). -/
def execFex2 (g : Guard) (t : FTy) (rm : Rm) (d a : Operand) (s : State) : Result := flt1Op s g t d a fun f => f.exp2 rm
/-- FLG2 (R178, R179). -/
def execFlg2 (g : Guard) (t : FTy) (rm : Rm) (d a : Operand) (s : State) : Result := flt1Op s g t d a fun f => f.log2 rm
/-- FSIN (R178, R179). -/
def execFsin (g : Guard) (t : FTy) (rm : Rm) (d a : Operand) (s : State) : Result :=
  flt1Op s g t d a fun f => f.trig false rm
/-- FCOS (R178, R179). -/
def execFcos (g : Guard) (t : FTy) (rm : Rm) (d a : Operand) (s : State) : Result :=
  flt1Op s g t d a fun f => f.trig true rm
/-- FFRC (R178): exact, so the rounding mode has no effect. -/
def execFfrc (g : Guard) (t : FTy) (_rm : Rm) (d a : Operand) (s : State) : Result := flt1Op s g t d a fun f => f.frc
/-- FRND (R178). -/
def execFrnd (g : Guard) (t : FTy) (rm : Rm) (d a : Operand) (s : State) : Result := flt1Op s g t d a fun f => f.rnd rm

end Sys2Proof.Machine
end

