-- ==== Sys2Proof/Machine/Convert.lean ====
section
/-! DEFINITION. Conversions and packing: CVT, HPACK, LPACK, LUNP (R183 to R187). -/

namespace Sys2Proof

/-- Width of the element a conversion type names (Table 10-6). -/
def CTy.w : CTy → Nat
  | .i32 | .n32 | .f32 => 32
  | .i64 | .n64 | .f64 => 64
  | .i16 | .n16 | .f16 | .bf16 => 16
  | .i8 | .n8 => 8
  | .lns6 => 6
def CTy.sgn : CTy → Bool
  | .i32 | .i64 | .i16 | .i8 => true
  | _ => false
/-- The float format a conversion type names; LNS6 is apart. -/
def CTy.fmt? : CTy → Option Machine.FFmt
  | .f32 => some .fp32
  | .f64 => some .fp64
  | .f16 => some .fp16
  | .bf16 => some .bf16
  | _ => none

end Sys2Proof

namespace Sys2Proof.Machine

/-- The register image of a class-11 code as a source of CVT (R184). -/
def cvtCode (src : CTy) (c : Int) : Nat :=
  match src.fmt? with
  | some f => f.round .ne (FVal.ofInt false c 0)
  | none => trunc (if src.w = 64 then 64 else 32) c

/-- The element CVT reads: bits SEL names of the register image (R184). -/
def cvtElem (s : State) (x : Issuer) (src : CTy) (sel : BitVec 2) (lane : Nat) (a : Operand) : Nat :=
  let img := match a with
    | .k c => cvtCode src (codeInt c.toNat)
    | a => regVal x.t.regs lane src.regs a
  let _ := s
  img / 2 ^ (src.w * sel.toNat) % 2 ^ src.w

/-- The exact value of a float source element (R160, R185). -/
def cvtVal (src : CTy) (e : Nat) : FVal :=
  match src.fmt? with
  | some f => f.val e
  | none => if src = .lns6 then lnsVal e else FVal.ofInt false (ival src.sgn src.w e) 0

/-- The register image of a result: narrow types filled with the sign for .i16 and .i8, with zeros else (R184). -/
def cvtFill (dst : CTy) (r : Nat) : Nat := if dst.sgn && dst.w < 32 then trunc 32 (ival true dst.w r) else r

/-- The result of one element and whether CHK traps on it (R185). -/
def cvtOne (dst src : CTy) (rm : Rm) (e : Nat) : Nat × Bool :=
  match dst.fmt? with
  | some f => (f.round rm (cvtVal src e), false)
  | none =>
    if dst = .lns6 then (lnsNE (cvtVal src e), false)
    else if src.isFloat then
      (trunc dst.w (roundInt dst.sgn dst.w rm (cvtVal src e)), badFloat dst.sgn dst.w rm (cvtVal src e))
    else
      let v := ival src.sgn src.w e
      (trunc dst.w (clampInt dst.sgn dst.w v), outOfRange dst.sgn dst.w v)

/-- CVT (R183 to R185): ARITH for the lanes out of range when CHK is set, and then no lane is written. -/
def execCvt (g : Guard) (dst src : CTy) (chk : Bool) (rm : Rm) (sel : BitVec 2) (d a : Operand) (s : State) : Result :=
  issue s fun x =>
    let act := x.lanes g
    let one (l : Nat) := cvtOne dst src rm (cvtElem s x src sel l a)
    let bad := act.filter fun l => (one l).2
    let bounds := inBounds x.t dst.regs d && inBounds x.t src.regs a
    let cyc := passCycles x (max dst.regs src.regs) 0
    if act.isEmpty || !bounds || !chk || bad.isEmpty then
      laneWord s x act bounds cyc
        { x.t with regs := writeLanes x.t.regs dst.regs (vregOf x.t.regs d) (fun l => cvtFill dst (one l).1) act }
    else raiseLanes s x .arith bad 0

/-- HPACK (R186): operands read as FP32. -/
def execHpack (g : Guard) (t : FTy) (rm : Rm) (d a b : Operand) (s : State) : Result :=
  issue s fun x => laneOp s x g (FTy.elem .f32) d [a, b] fun l =>
    let e := FTy.elem .f32
    t.fmt.round rm (FFmt.fp32.val (srcVal s x e l a)) + t.fmt.round rm (FFmt.fp32.val (srcVal s x e l b)) * 2 ^ 16

/-- The 96-bit integer of sixteen codes (R159). -/
def lnsPack (f : Nat → Nat) : Nat := packElems 6 f 16

/-- LPACK (R187). -/
def execLpack (g : Guard) (raw : Bool) (d a : Operand) (s : State) : Result :=
  issue s fun x =>
    let act := x.lanes g
    let r := vregOf x.t.regs a
    let code (l j : Nat) := if raw then (x.t.regs.vget l (r + j)).toNat % 64
      else lnsNE (FFmt.fp32.val (x.t.regs.vget l (r + j)).toNat)
    laneWord s x act (rangeInBounds x.t 3 d && rangeInBounds x.t 16 a) (passCycles x 2 0)
      { x.t with regs := writeLanes x.t.regs 3 (vregOf x.t.regs d) (fun l => lnsPack (code l)) act }

/-- LUNP (R187). -/
def execLunp (g : Guard) (raw : Bool) (d a : Operand) (s : State) : Result :=
  issue s fun x =>
    let act := x.lanes g
    let q (l : Nat) := x.t.regs.vgetN l (vregOf x.t.regs a) 3
    let out (l j : Nat) := if raw then elemAt 6 j (q l) else FFmt.fp32.round .ne (lnsVal (elemAt 6 j (q l)))
    laneWord s x act (rangeInBounds x.t 16 d && rangeInBounds x.t 3 a) (passCycles x 4 0)
      { x.t with regs := writeLanes x.t.regs 16 (vregOf x.t.regs d) (fun l => packElems 32 (out l) 16) act }

end Sys2Proof.Machine
end

