-- ==== Sys2Proof/Machine/CrossLane.lean ====
section
/-! DEFINITION. Cross-lane instructions and mask instructions: SHFL, PSHW, BCST, VRED, VSCAN (R188 to R194), MBAL, MANY,
MALL, MPOP (R145). -/

namespace Sys2Proof.Machine

/-- The partner of a lane, where it exists (R188). -/
def partner (mode : ShMode) (lanes l b : Nat) : Option Nat :=
  match mode with
  | .idx => if b < lanes then some b else none
  | .up => if b ≤ l then some (l - b) else none
  | .down => if l + b < lanes then some (l + b) else none
  | .xor => if l ^^^ b < lanes then some (l ^^^ b) else none

/-- The bounds of SHFL, PSHW and BCST. -/
def shBounds (x : Issuer) (n : Nat) (d a b : Operand) : Bool := inBounds x.t n d && inBounds x.t n a && inBounds x.t 1 b

/-- SHFL (R189): a pull; a lane without a partner receives its own value. -/
def execShfl (g : Guard) (t : ITy) (mode : ShMode) (d a b : Operand) (s : State) : Result :=
  issue s fun x =>
    let act := x.lanes g
    let src (l : Nat) := (partner mode x.t.lanes l (src32 s x l b)).getD l
    laneWord s x act (shBounds x t.regs d a b) (passCycles x 4 0)
      { x.t with regs := writeLanes x.t.regs t.regs (vregOf x.t.regs d) (fun l => regVal x.t.regs (src l) t.regs a) act }

/-- PSHW (R190): a push, in ascending source lane; it writes lanes outside the mask too. -/
def execPshw (g : Guard) (t : ITy) (mode : ShMode) (d a b : Operand) (s : State) : Result :=
  issue s fun x =>
    let act := x.lanes g
    let regs := act.foldl (fun r l =>
      match partner mode x.t.lanes l (src32 s x l b) with
      | some k => r.vsetN k (vregOf x.t.regs d) t.regs (regVal x.t.regs l t.regs a)
      | none => r) x.t.regs
    laneWord s x act (shBounds x t.regs d a b) (passCycles x 4 0) { x.t with regs := regs }

/-- BCST (R191). -/
def execBcst (g : Guard) (t : ITy) (d a b : Operand) (s : State) : Result :=
  issue s fun x =>
    let act := x.lanes g
    let k := src32 s x 0 b % x.t.lanes
    laneWord s x act (shBounds x t.regs d a b) (passCycles x 4 0)
      { x.t with regs := writeLanes x.t.regs t.regs (vregOf x.t.regs d) (fun _ => regVal x.t.regs k t.regs a) act }

/-- The operation ⊕ of VRED and VSCAN (R192). -/
def redOp (op : ROp) (t : RTy) (rm : Rm) (a b : Nat) : Nat :=
  let e := t.elem
  match op, e.flt with
  | .add, none => iAdd e.sgn e.w a b
  | .add, some f => fAdd f rm a b
  | .min, none => iMin e.sgn e.w a b
  | .min, some f => f.minMax false a b
  | .max, none => iMax e.sgn e.w a b
  | .max, some f => f.minMax true a b
  | .and, _ => a &&& b
  | .or, _ => a ||| b
  | .xor, _ => a ^^^ b
/-- The identity of ⊕ (R194). -/
def redIdent (op : ROp) (t : RTy) : Nat :=
  let e := t.elem
  match op, e.flt with
  | .min, none => trunc e.w (intMax e.sgn e.w)
  | .max, none => trunc e.w (intMin e.sgn e.w)
  | .min, some f => f.infBits
  | .max, some f => f.signBit + f.infBits
  | .and, _ => 2 ^ e.w - 1
  | _, _ => 0

/-- Comb (R193). A value that meets no other goes on bit for bit, a not-a-number with its payload too: no operation is
performed on it (R153 speaks of operations; the model's choice, log 77). -/
def comb (f : Nat → Nat → Nat) : Option Nat → Option Nat → Option Nat
  | none, v => v
  | u, none => u
  | some a, some b => some (f a b)
/-- One level of the tree: neighbours combined; a position without one goes up as it is (log 77). -/
def combPairs (f : Nat → Nat → Nat) : List (Option Nat) → List (Option Nat)
  | a :: b :: rest => comb f a b :: combPairs f rest
  | rest => rest
/-- The tree of R193, for up to 2^fuel positions. -/
def combTree (f : Nat → Nat → Nat) : Nat → List (Option Nat) → Option Nat
  | 0, xs => xs.headD none
  | n + 1, xs => combTree f n (combPairs f xs)

/-- VRED (R193). -/
def execVred (g : Guard) (op : ROp) (t : RTy) (rm : Rm) (d a : Operand) (s : State) : Result :=
  issue s fun x =>
    let act := x.lanes g
    let leaves := (List.range x.t.lanes).map fun l =>
      if act.contains l then some (regVal x.t.regs l t.regs a) else none
    let r := (combTree (redOp op t rm) 10 leaves).getD 0
    let regs := match d with
      | .s n => x.t.regs.ssetN n.toNat t.regs r
      | d => writeLanes x.t.regs t.regs (vregOf x.t.regs d) (fun _ => r) act
    laneWord s x act (inBounds x.t t.regs d && inBounds x.t t.regs a) (passCycles x 3 8) { x.t with regs := regs }

/-- The scan of the active lanes, ascending: the values written (R194). -/
def scanFrom (f : Nat → Nat → Nat) (excl : Bool) (val : Nat → Nat) : Option Nat → Nat → List Nat → List (Nat × Nat)
  | _, _, [] => []
  | acc, ident, l :: ls =>
    let now := match acc with
      | none => val l
      | some a => f a (val l)
    (l, if excl then acc.getD ident else now) :: scanFrom f excl val (some now) ident ls

/-- VSCAN (R194). -/
def execVscan (g : Guard) (op : ROp) (t : RTy) (excl : Bool) (rm : Rm) (d a : Operand) (s : State) : Result :=
  issue s fun x =>
    let act := x.lanes g
    let vals := scanFrom (redOp op t rm) excl (fun l => regVal x.t.regs l t.regs a) none (redIdent op t) act
    laneWord s x act (inBounds x.t t.regs d && inBounds x.t t.regs a) (passCycles x 3 8)
      { x.t with
        regs := writeLanes x.t.regs t.regs (vregOf x.t.regs d)
          (fun l => ((vals.find? fun p => p.1 = l).map Prod.snd).getD 0) act }

/-! ## Mask instructions (R145) -/

/-- Y: the lanes of ACTIVE whose condition holds; REGBOUND where its register is missing (R76). -/
def maskWordOp (s : State) (g : Guard) (d : SReg) (a : Operand) (f : Issuer → List Nat → List Nat → Nat) : Result :=
  issue s fun x =>
    let act := x.lanes g
    let y := act.filter fun l => condVal s x l a
    if !act.isEmpty && !inBounds x.t 1 a then raiseLanes s x .regbound act 0
    else step8 s x { x.t with regs := x.t.regs.sset d.toNat (BitVec.ofNat 32 (f x act y)) } (passCycles x 1 0)

/-- MBAL. -/
def execMbal (g : Guard) (d : SReg) (a w : Operand) (s : State) : Result :=
  maskWordOp s g d a fun x _ y =>
    let w := src32 s x 0 w
    if 32 ≤ w then 0 else (maskWord (maskOf y) w).toNat
/-- MANY. -/
def execMany (g : Guard) (d : SReg) (a : Operand) (s : State) : Result :=
  maskWordOp s g d a fun _ _ y => if y.isEmpty then 0 else 1
/-- MALL. -/
def execMall (g : Guard) (d : SReg) (a : Operand) (s : State) : Result :=
  maskWordOp s g d a fun _ act y => if y = act then 1 else 0
/-- MPOP. -/
def execMpop (g : Guard) (d : SReg) (a : Operand) (s : State) : Result :=
  maskWordOp s g d a fun _ _ y => y.length

end Sys2Proof.Machine
end

