-- ==== Sys2Proof/Machine/Topology.lean ====
section
/-! DEFINITION. The topology table (R54 to R56): the states of links, routes, and the table's bytes as the PCP rewrites
them. -/

namespace Sys2Proof.Machine

/-! ## Links -/

def popcount16 (x : Nat) : Nat := ((List.range 16).filter fun i => natBits x i i = 1).length
/-- LIVE_WL of a link end. -/
def Link.wl (l : Link) : Nat := popcount16 l.lit
/-- A link by its lower end. -/
def linkName (s : State) (isl port : Nat) : Nat :=
  match s.panel.peer isl port with
  | some (j, q) => min (16 * isl + port) (16 * j + q)
  | none => 16 * isl + port

/-! ## Routes (R55) -/

/-- Walks of n hops from an island, hop sequences in ascending order: hops, links, and where they end. -/
def walks (s : State) (isl : Nat) : Nat → List (List Nat × (List Nat × Nat))
  | 0 => [([], ([], isl))]
  | n + 1 => ((walks s isl n).map fun w =>
      ((List.range 8).filter (portUsable s w.2.2)).filterMap fun p =>
        (s.panel.peer w.2.2 p).map fun jq => (w.1 ++ [p], (w.2.1 ++ [linkName s w.2.2 p], jq.1))).flatten

/-- The route word of a hop sequence. -/
def hopsWord (hs : List Nat) : Nat := ((List.range 4).map fun h => hs.getD h 15 * 16 ^ h).sum

/-- ROUTE0 and ROUTE1 of a source, from its walks of one to four hops, shortest first. -/
def routesTo (ws : List (List Nat × (List Nat × Nat))) (b : Nat) : Nat × Nat :=
  let here := ws.filter fun w => w.2.2 = b
  match here with
  | [] => (0xFFFF, 0xFFFF)
  | w :: rest =>
    match rest.find? fun v => v.2.1.all fun l => !w.2.1.contains l with
    | some v => (hopsWord w.1, hopsWord v.1)
    | none => (hopsWord w.1, 0xFFFF)

def routesFrom (s : State) (a : Nat) : List (Nat × Nat) :=
  let ws := ((List.range 4).map fun n => walks s a (n + 1)).flatten
  (List.range s.panel.nIsl).map fun b =>
    if a = b ∨ !(s.isl a).live ∨ !(s.isl b).live then (0xFFFF, 0xFFFF) else routesTo ws b

/-! ## The table (Tables 4-2 and 4-3) -/

def islandBytes (s : State) (a : Nat) : List Byte :=
  let p := s.panel
  let rs := routesFrom s a
  let port (q : Nat) : Nat := if hasPort s a q then (s.link a q).lstate * 32 + (s.link a q).wl else 0
  let laser (q g : Nat) : Nat := if hasPort s a q then (Config.laser a q g).toNat else 0xFF
  leBytes 1 (p.siteCode a) ++ leBytes 1 (p.coresOf a) ++ leBytes 1 (if (s.isl a).live then 1 else 0) ++ leBytes 5 0
    ++ (List.range 9).map (fun q => BitVec.ofNat 8 (port q)) ++ leBytes 7 0
    ++ ((List.range 9).map fun q => (List.range 4).map fun g => BitVec.ofNat 8 (laser q g)).flatten ++ leBytes 4 0
    ++ ((List.range 25).map fun b =>
        let r := rs.getD b (0xFFFF, 0xFFFF)
        leBytes 2 r.1 ++ leBytes 2 r.2).flatten ++ leBytes 92 0

def topologyBytes (s : State) : List Byte :=
  let p := s.panel
  leBytes 8 (0x4C324254 + p.nIsl * 2 ^ 32 + (p.empty.getD 0xFF) * 2 ^ 40 + p.gradeCode * 2 ^ 48)
    ++ leBytes 8 p.gen ++ leBytes 8 p.lit ++ leBytes 40 0
    ++ ((List.range p.nIsl).map (islandBytes s)).flatten

/-- The cells of bytes from an address that differ from an empty one. -/
def cellsFrom (a : Nat) : List Byte → List Host.Cell
  | [] => []
  | b :: bs => if b = emptyByte then cellsFrom (a + 1) bs else (a, b) :: cellsFrom (a + 1) bs

/-- The PCP rewrites the table, under an odd and then an even generation (R56). -/
def topologyUpdate (s : State) : State :=
  let s := { s with panel := { s.panel with gen := (s.panel.gen + 2) % 2 ^ 32 } }
  { s with mem := (s.mem.filter fun c => c.1 < topoBase) ++ cellsFrom topoBase (topologyBytes s) }

/-- The table with the laser modules that deliver light now (R263). -/
def lightUpdate (s : State) : State :=
  topologyUpdate { s with panel := { s.panel with lit := 2 ^ 20 - 1 - s.panel.dark } }

/-- A fabric event (R266). -/
structure FabricEvent where
  kind : Nat
  isl : Nat
  port : Nat
  oldWl : Nat
  laser : Nat := 0xFF
  guide : Nat := 0
  wl : Nat := 0
deriving DecidableEq, Repr

/-- A fabric event is written with the link end as it now stands. -/
def fabricEvent (s : State) (e : FabricEvent) : State :=
  let l := s.link e.isl e.port
  s.event e.kind 0 0 0 0
    (e.isl + e.port * 2 ^ 8 + l.lstate * 2 ^ 16 + e.oldWl * 2 ^ 24 + l.wl * 2 ^ 32 + e.laser * 2 ^ 40
      + e.guide * 2 ^ 48 + e.wl * 2 ^ 56) s.now

end Sys2Proof.Machine
end

