-- ==== Sys2Proof/Machine/Fabric.lean ====
section
/-! DEFINITION. The Lenper fabric (13_networks): packets between islands (R241, R250 to R252), flits and their retry
buffers (R257), credits and limits (R258, R259), control flits (R260), weak lanes and swaps (R261, R262, R264), loss of
light and restriping (R263). A link end is named by its island and port: it receives what its peer's end sends. -/

namespace Sys2Proof.Machine

/-! ## Sending (R257, R258) -/

def Link.usedOn (l : Link) (v : Nat) : Nat := (l.used.filter fun x => x.1 = v).length
def Link.usedIn (l : Link) (v h : Nat) : Nat := (l.used.filter fun x => x.1 = v ∧ x.2 % 4 = h).length
/-- Slots of a channel that are in use at the other end still: their flits have not left them. -/
def Link.busyOn (l : Link) (v : Nat) : Nat := (l.used.filter fun x => x.1 = v ∧ x.2 < 4).length
/-- Slots of a channel in use beyond the four of each hop class. -/
def Link.sharedUse (l : Link) (v : Nat) : Nat := ((List.range 4).map fun h => l.usedIn v h - 4).sum
/-- Whether a data flit has credit (R258). -/
def Link.credit? (l : Link) (f : Flit) : Bool :=
  let lim := l.limit.getD f.vc 0
  l.usedOn f.vc < lim && (l.usedIn f.vc f.hop < 4 || l.sharedUse f.vc < lim - 16)
def Ctl.isLimits : Ctl → Bool
  | .limits .. => true
  | _ => false
/-- Whether a flit can be sent now: none into a full retry buffer; a data flit only on a link in LSTATE 1, with credit, and
under the limits of every LIMITS flit accepted (R257 to R259, R263). -/
def Link.sends (l : Link) (f : Flit) : Bool :=
  l.retry.length < 8192 &&
    if f.ctl.isSome then l.lstate = 1 || l.lstate = 2
    else l.lstate = 1 && l.credit? f && !l.ctlIn.any Ctl.isLimits

/-- The first flit that can be sent, of the control flits alone or of all: data flits of one channel and hop class keep
their order. -/
def Link.pick (l : Link) (ctlOnly : Bool) : List (Nat × Nat) → List Flit → Option (Flit × List Flit)
  | _, [] => none
  | blocked, f :: fs =>
    if l.sends f && (f.ctl.isSome || (!ctlOnly && !blocked.contains (f.vc, f.hop))) then some (f, fs)
    else (l.pick ctlOnly (if f.ctl.isSome then blocked else (f.vc, f.hop) :: blocked) fs).map fun r => (r.1, f :: r.2)

/-- Flits are numbered and sent while they can be. -/
def Link.pump (ctlOnly : Bool) : Nat → Link → Link
  | 0, l => l
  | n + 1, l =>
    match l.pick ctlOnly [] l.out with
    | none => l
    | some (f, rest) =>
      let f := { f with fseq := l.nextFseq }
      Link.pump ctlOnly n { l with
        nextFseq := (l.nextFseq + 1) % 65536
        out := rest
        retry := l.retry ++ [f]
        wire := l.wire ++ [f]
        used := if f.ctl.isSome then l.used else l.used ++ [(f.vc, f.hop)] }

/-- Slots of each channel that a receiving end holds in use. -/
def inUse (s : State) (isl port v : Nat) : Nat :=
  match s.panel.peer isl port with
  | some (j, q) => (s.link j q).busyOn v
  | none => 0
/-- The slot-cycles of a receiving end are counted up to now, in core cycles (R259). -/
def countSlots (s : State) (isl port : Nat) : State :=
  s.updLink isl port fun l => { l with
    since := s.now
    slotCycles := (List.range 4).map fun v => l.slotCycles.getD v 0 + inUse s isl port v * (s.now - l.since) }

/-- A sending end sends what it can, of the control flits or of all; the occupancy at its peer changes, and a switch-over
whose flit S is sent is made (R262). -/
def pumpEnd (s : State) (isl port : Nat) (ctlOnly : Bool) : State :=
  let l := s.link isl port
  let l' := Link.pump ctlOnly l.out.length l
  if l' = l then s
  else
    let s := match s.panel.peer isl port with
      | some (j, q) => countSlots s j q
      | none => s
    let s := s.updLink isl port fun _ => l'
    match (s.laneOf isl port).peerSwap with
    | some w => if seqGe l'.nextFseq ((w.s + 1) % 65536) then s.updLanes isl port fun y => { y with peerSwap := none } else s
    | none => s
/-- A control flit is queued for sending: no credit holds it back. -/
def sendCtl (s : State) (isl port : Nat) (c : Ctl) : State :=
  pumpEnd (s.updLink isl port fun l => { l with out := l.out ++ [{ fseq := 0, ctl := some c }] }) isl port true

/-- A CREDIT for the slots freed, save on channels still at or above a reduced limit (R258, R259). -/
def sendCredit (s : State) (isl port : Nat) : State :=
  let l := s.link isl port
  let give := (List.range 4).map fun v => if inUse s isl port v < l.rlimit.getD v 0 then l.freed.getD v 0 else 0
  if give.sum = 0 then s
  else
    let s := s.updLink isl port fun l => { l with freed := (List.range 4).map fun v => l.freed.getD v 0 - give.getD v 0 }
    sendCtl s isl port (.credit give)
/-- The oldest slots in use of a channel and hop class are marked free. -/
def markFree : List (Nat × Nat) → Nat → Nat → Nat → List (Nat × Nat)
  | [], _, _, _ => []
  | x :: xs, v, h, n => if x = (v, h) ∧ n ≠ 0 then (v, h + 4) :: markFree xs v h (n - 1) else x :: markFree xs v h n
/-- Slots of a channel and hop class are freed at a receiving end of a link that is up: their flits have left it. -/
def giveBack (s : State) (isl port v h n : Nat) : State :=
  match s.panel.peer isl port with
  | none => s
  | some (j, q) =>
    if n = 0 ∨ ((s.link isl port).lstate ≠ 1 ∧ (s.link isl port).lstate ≠ 2) then s
    else
      let s := (countSlots s isl port).updLink j q fun l => { l with used := markFree l.used v h n }
      let s := s.updLink isl port fun l => { l with
        freed := (List.range 4).map fun w => l.freed.getD w 0 + if w = v then n else 0 }
      sendCredit s isl port

/-- What has happened once a flit has left an island: its slot there is free, and behind the last one nothing of its
packet is left to send on. -/
def flitLeft (s : State) (isl : Nat) (f : Flit) : State :=
  let s := match f.came with
    | some c => giveBack s isl c f.vc (f.hop - 1) 1
    | none => s
  match if f.last then f.pkt.bind fun id => (s.pkts.find? id).map fun p => (id, p) else none with
  | some (id, p) => { s with pkts := s.pkts.put id { p with legs := SMap.del p.legs f.hop } }
  | none => s
/-- A sending end sends what it can. -/
def pumpLink (s : State) (isl port : Nat) : State :=
  let before := (s.link isl port).out.filter fun f => f.ctl.isNone
  let s := pumpEnd s isl port false
  let after := (s.link isl port).out
  (before.filter fun f => !after.contains f).foldl (fun s f => flitLeft s isl f) s

/-! ## Flits that are withdrawn -/

/-- The flits of a packet on one link end: those not sent go, and free the slots they hold; of those sent nothing is left
but their place in the sequence. -/
def withdrawFlits (id : Nat) (s : State) (isl port : Nat) : State :=
  let mine (f : Flit) : Bool := f.pkt = some id
  let l := s.link isl port
  if !(l.out ++ l.retry ++ l.wire).any mine then s
  else
    let bare (f : Flit) : Flit := if mine f then { f with pkt := none } else f
    let s := s.updLink isl port fun l => { l with
      out := l.out.filter fun f => !mine f, retry := l.retry.map bare, wire := l.wire.map bare }
    (l.out.filter mine).foldl (fun s f => match f.came with
      | some c => giveBack s isl c f.vc (f.hop - 1) 1
      | none => s) s
/-- A packet leaves the slots it holds where its header stands. -/
def leaveSlots (s : State) (p : Packet) : State :=
  match p.came with
  | some c => if p.onLink || p.arrived then s else giveBack s p.at_ c p.cargo.vc (p.hop - 1) p.got
  | none => s
/-- Every flit of a packet is withdrawn from the fabric. -/
def withdraw (s : State) (id : Nat) (p : Packet) : State :=
  (SMap.keys s.links).foldl (fun s k => withdrawFlits id s (k / 16) (k % 16)) (leaveSlots s p)

/-! ## Packets (R241, R251, R252) -/

/-- Where a packet is going: a returned one to its sender. -/
def Packet.dest (p : Packet) : Nat := if p.cargo = .returned then p.src else p.dst

/-- A packet as an island returns it to its sender, on that island's own ROUTE0, with its original header (R251). -/
def Packet.back (s : State) (p : Packet) (isl : Nat) : Packet :=
  { p with
    cargo := .returned
    orig := if p.cargo = .returned then p.orig else some p.cargo
    sentBack := some (isl, if p.cargo = .returned then (p.sentBack.map Prod.snd).getD p.route else p.route)
    route := routeWord s isl p.src false
    at_ := isl, hop := 0, onLink := false, came := none, got := 0, whole := true, legs := []
    arrived := decide (isl = p.src) }
/-- A packet goes back to its sender from an island. -/
def bounce (s : State) (id : Nat) (p : Packet) (isl : Nat) : State :=
  let s := withdraw s id p
  { s with pkts := s.pkts.put id (p.back s isl) }

/-- A packet's header leaves by a port with the flits that stand with it; the others follow as they come. -/
def putOnLink (s : State) (id : Nat) (p : Packet) (port : Nat) : State :=
  let n := if p.hop = 0 then p.flitCount else p.got
  let flits := (List.range n).map fun j =>
    ({ fseq := 0, part := j, vc := p.cargo.vc, hop := p.hop, first := decide (j = 0), last := p.whole && j + 1 = n
       pkt := some id, came := p.came } : Flit)
  let leg : Leg := { isl := p.at_, port := port, came := p.came }
  let s := { s with pkts := s.pkts.put id { p with
    route := p.route / 16 + 0xF000, onLink := true, legs := SMap.put p.legs p.hop leg } }
  pumpLink (s.updLink p.at_ port fun l => { l with out := l.out ++ flits }) p.at_ port

/-- Whether another packet of a packet's channel and hop class goes before it: one whose flits still leave by the port, or
one that came in by the same port earlier and has not left. -/
def portQueue (s : State) (p : Packet) (port : Nat) : Bool :=
  s.pkts.any fun jq =>
    let q := jq.2
    q.cargo.vc = p.cargo.vc &&
      ((SMap.find? q.legs p.hop).any (fun g => g.isl = p.at_ && (g.port = port || (g.came.isSome && g.came = p.came))) ||
        (q.at_ = p.at_ && q.came.isSome && q.came = p.came && !q.onLink && !q.arrived && q.hop = p.hop && q.turn < p.turn))
/-- Whether backpressure holds a packet before a port: the link restripes, its header has no credit, or another packet goes
before it (R258, R263). -/
def portHolds (s : State) (p : Packet) (port : Nat) : Bool :=
  !(s.link p.at_ port).sends { fseq := 0, vc := p.cargo.vc, hop := p.hop } || portQueue s p port
/-- Whether a source holds a request: 256 packets of its stream are not acknowledged (R253). -/
def windowHolds (s : State) (p : Packet) : Bool :=
  p.hop = 0 && p.at_ = p.src && !p.cargo.isReply && !p.cargo.isColl && p.cargo ≠ .returned &&
    decide ((SMap.get ({} : Stream) s.streams (streamKey p.src p.sep p.dst)).acked + 256 ≤ p.sseq)

/-- PACKET_RELAY (R251): delivered where hop 0 is 15, sent on, or returned. A packet whose table names no route yet
waits at its sender (R241). -/
def execPacketRelay (pkt : Nat) (s : State) : Result :=
  happen s <|
    match s.pkts.find? pkt with
    | none => none
    | some p =>
      if p.onLink || p.arrived || windowHolds s p then none
      else
        let start := p.hop = 0
        let p := if start && p.route % 16 = 15 && p.at_ ≠ p.dest then
            { p with route := routeWord s p.at_ p.dest false, gen := s.panel.gen }
          else p
        let port := p.route % 16
        if port = 15 then
          if p.at_ = p.dest then some (leaveSlots { s with pkts := s.pkts.put pkt { p with arrived := true, came := none } } p)
          else if start then none
          else some (bounce s pkt p p.at_)
        else if portUsable s p.at_ port then
          if portHolds s p port then none else some (putOnLink s pkt p port)
        else some (bounce s pkt p p.at_)

/-- PACKET_RETURN (R241): the sender resends on the routes of the newest generation: on ROUTE0 where that is newer than
the one it last sent on, else on ROUTE0 and ROUTE1 in turn. -/
def execPacketReturn (pkt : Nat) (s : State) : Result :=
  happen s <|
    match s.pkts.find? pkt with
    | none => none
    | some p =>
      match p.orig with
      | none => none
      | some c =>
        if p.cargo = .returned && p.arrived then
          let r1 := routeWord s p.src p.dst true
          let alt := p.gen = s.panel.gen && !p.alt && r1 % 16 ≠ 15
          some { s with pkts := s.pkts.put pkt { p with
            cargo := c, orig := none, sentBack := none, arrived := false, at_ := p.src, hop := 0, came := none, alt := alt
            gen := s.panel.gen
            route := if alt then r1 else routeWord s p.src p.dst false } }
        else none

/-! ## Swaps that take effect (R262, R264) -/

def laneKey (guide wl : Nat) : Nat := 32 * guide + wl

/-- A proposal goes to the other end, with S at least 256 above the last flit accepted (R262, log 19). -/
def propose (s : State) (isl port guide leaving entering : Nat) (back : Bool) : State :=
  let l := s.link isl port
  let no := (s.laneOf isl port).nextNo
  let at_ := (l.lastAcc + 256 + Config.choice s.tick % 4096) % 65536
  let s := s.updLanes isl port fun x => { x with
    nextNo := no + 1
    swap := some { guide := guide, leaving := leaving, entering := entering, s := at_, no := no, sentAt := s.now, back := back } }
  sendCtl s isl port (.swapreq guide leaving entering at_ no)

/-- An agreed swap takes effect at the receiving end: the spare stands in, a returning wavelength is added back, or the
spare is handed back. A spare that stood in for a wavelength added back is then owed: it is handed back by a second
exchange, now or after a later window (R264). -/
def makeSwap (s : State) (isl port : Nat) (w : Swap) : State :=
  let old := (s.link isl port).wl
  let wl := if w.leaving = 16 then w.entering else w.leaving
  let k := laneKey w.guide wl
  let o := w.order (s.link isl port).lit (s.laneOf isl port)
  let standsIn := SMap.find? (s.laneOf isl port).spare w.guide = some wl
  let joined := o.1 ≠ (s.link isl port).lit
  let s := s.updLink isl port fun l => { l with lit := o.1 }
  let s := s.updLanes isl port fun y =>
    if w.leaving ≠ 16 then
      { y with swap := none, spare := o.2, errs := SMap.del y.errs k, margins := SMap.del y.margins k }
    else
      { y with
        swap := none, spare := o.2
        owed := if w.back then y.owed.filter (· ≠ w.guide)
          else if standsIn then w.guide :: y.owed.filter (· ≠ w.guide) else y.owed
        back := if w.back then y.back
          else if joined then y.back.filter fun kb => kb.1 % 32 ≠ wl
          else SMap.put y.back k 3 }
  if w.back then s
  else
    let s := fabricEvent s { kind := 0x1A, isl := isl, port := port, oldWl := old, guide := w.guide, wl := wl }
    let s := if joined then topologyUpdate s else s
    if w.leaving = 16 && standsIn then propose s isl port w.guide 16 wl true else s

/-! ## Receiving (R257) -/

/-- A flit of a packet at the other end: the header comes to stand there, another flit joins it or follows it on; a packet
whose header has reserved bits or a reserved OPC is discarded (R251). The slot of a flit whose packet has gone is free. -/
def landPacket (s : State) (isl port : Nat) (f : Flit) (h : Heard) : State :=
  match f.pkt.bind fun id => (s.pkts.find? id).map fun p => (id, p) with
  | none => giveBack s isl port f.vc f.hop 1
  | some (id, p) =>
    if h.odd then
      let s := withdraw s id p
      giveBack { s with pkts := s.pkts.del id } isl port f.vc f.hop 1
    else
      let p := match h.body with
        | some bs => p.reread f.part bs
        | none => p
      if f.part = 0 then
        { s with pkts := s.pkts.put id { p with
            at_ := isl, onLink := false, came := some port, hop := f.hop + 1, got := 1, whole := f.last
            turn := (s.link isl port).accepted } }
      else
        match SMap.find? p.legs (f.hop + 1) with
        | some g =>
          let f := { f with fseq := 0, hop := f.hop + 1, came := some port }
          let s := { s with pkts := s.pkts.put id p }
          pumpLink (s.updLink isl g.port fun l => { l with out := l.out ++ [f] }) isl g.port
        | none =>
          let s := { s with pkts := s.pkts.put id { p with got := p.got + 1, whole := f.last } }
          if p.arrived then giveBack s isl port f.vc f.hop 1 else s

/-- A flit is accepted: in order and good. An agreed swap takes effect at flit S. -/
def acceptFlit (s : State) (isl port : Nat) (f : Flit) (h : Heard) : State :=
  let s := s.updLink isl port fun l => { l with
    lastAcc := h.fseq, accepted := l.accepted + 1, badSince := none, nakDue := none
    dataIn := l.dataIn + if h.kind = 0 then 1 else 0
    ctlIn := l.ctlIn ++ h.ctl.toList }
  let s := if h.odd then fabricEvent s { kind := 0x1C, isl := isl, port := port, oldWl := (s.link isl port).wl } else s
  let s := match (s.laneOf isl port).swap with
    | some w => if (s.link isl port).agreedTo w && h.fseq = w.s then makeSwap s isl port w else s
    | none => s
  if h.kind = 0 then landPacket s isl port f h else s

/-- ACKSEQ and NAK reach a sending end: the flits covered leave its retry buffer, and on a NAK every other is sent again, in
order, ahead of new ones. -/
def hearAck (s : State) (isl port : Nat) (h : Heard) : State :=
  let l := s.link isl port
  let left := l.retry.filter fun g => !seqGe h.ack g.fseq
  let s := if left.length = l.retry.length ∧ !h.nak then s
    else s.updLink isl port fun l => { l with retry := left, wire := if h.nak then left else l.wire }
  pumpLink s isl port

/-- A flit is dropped: the next flit sent carries NAK. -/
def dropFlit (s : State) (isl port : Nat) : State :=
  s.updLink isl port fun l => { l with
    badSince := some (l.badSince.getD s.now)
    nakDue := some (l.nakDue.getD (s.now + 512))
    nakSend := l.nakSend || l.nakDue.isNone }

/-- FLIT_RECEIVED (R257): the oldest flit on the wire, or an idle flit where there is none; `flips` names the bits that were
turned on the way. -/
def execFlitReceived (isl port : Nat) (flips : List (Nat × (Nat × Nat))) (s : State) : Result :=
  happen s <|
    match s.panel.peer isl port with
    | none => none
    | some (j, q) =>
      let x := s.link j q
      let l := s.link isl port
      if l.lstate = 0 ∨ l.lstate = 3 then none
      else
        let h := hear s x l (s.laneOf isl port) x.wire.head? flips
        let s := s.updLink j q fun x => { x with wire := x.wire.drop 1, nakSend := false }
        if !h.good || h.kind = 3 then some (dropFlit s isl port)
        else if h.kind = 2 then some (hearAck (s.updLink isl port fun l => { l with badSince := none }) isl port h)
        else if h.fseq = (l.lastAcc + 1) % 65536 then
          some (hearAck (acceptFlit s isl port (x.wire.head?.getD { fseq := h.fseq }) h) isl port h)
        else some (dropFlit s isl port)

/-- NAK_REPEAT (R257): 256 ns after a NAK with no flit accepted. -/
def execNakRepeat (isl port : Nat) (s : State) : Result :=
  happen s <|
    match (s.link isl port).nakDue with
    | some t =>
      if t ≤ s.now then some (s.updLink isl port fun x => { x with nakDue := some (s.now + 512), nakSend := true }) else none
    | none => none

/-! ## A link that goes down -/

/-- Packets with flits that a link end has not delivered: not sent, or not among those its peer has accepted. -/
def packetsOn (s : State) (isl port : Nat) : List Nat :=
  let l := s.link isl port
  let last := ((s.panel.peer isl port).map fun jq => (s.link jq.1 jq.2).lastAcc).getD 0
  ((l.out ++ l.retry.filter fun f => !seqGe last f.fseq).filterMap (·.pkt)).dedup

/-- A link end forgets its traffic; its packets return to their senders (R251). -/
def clearEnd (s : State) (isl port : Nat) : State :=
  let s := (packetsOn s isl port).foldl (fun s id =>
    match s.pkts.find? id with
    | some p => bounce s id p isl
    | none => s) s
  s.updLink isl port fun l => { l with
    lstate := 3, out := [], retry := [], wire := [], used := [], nakDue := none, nakSend := false, badSince := none
    freed := [0, 0, 0, 0] }

/-- The module that feeds the lowest dark wavelength, where it is dark (R266). -/
def darkModule (s : State) (isl port bits : Nat) : Nat :=
  match (List.range 16).find? fun w => natBits bits w w = 1 with
  | some w =>
    let m := (Config.laser isl port (w / 4)).toNat
    if m < 20 ∧ natBits s.panel.dark m m = 1 then m else 0xFF
  | none => 0xFF

/-- Both ends of a link enter LSTATE 3 (R257, R263): where no light is left, `lost` are the wavelengths that went last. -/
def linkDown (s : State) (isl port : Nat) (lost : Option Nat) : State :=
  match s.panel.peer isl port with
  | none => s
  | some (j, q) =>
    let w := (s.link isl port).wl
    let v := (s.link j q).wl
    let s := clearEnd (clearEnd s isl port) j q
    let forget (x : Lanes) : Lanes := { x with swap := none, peerSwap := none, restripe := none, darkBits := 0 }
    let s := (s.updLanes isl port forget).updLanes j q forget
    let out (l : Link) : Link := if lost.isSome then { l with lit := 0 } else l
    let s := (s.updLink isl port out).updLink j q out
    let laser (a b : Nat) : Nat := (lost.map (darkModule s a b)).getD 0xFF
    let s := fabricEvent s { kind := 0x19, isl := isl, port := port, oldWl := w, laser := laser isl port }
    lightUpdate (replan (fabricEvent s { kind := 0x19, isl := j, port := q, oldWl := v, laser := laser j q }) isl port)

/-- LINK_DOWN_TIMEOUT (R257): no flit is accepted for 10 µs. -/
def execLinkDownTimeout (isl port : Nat) (s : State) : Result :=
  happen s <|
    let l := s.link isl port
    match s.panel.peer isl port, l.badSince with
    | some _, some t => if (l.lstate = 1 ∨ l.lstate = 2) ∧ t + 20000 ≤ s.now then some (linkDown s isl port none) else none
    | _, _ => none

/-! ## Limits (R259) -/

/-- Limits in proportion to slot-cycles: 128 each, the other 3,584 shared; remainders in ascending channel. -/
def newLimits (u : List Nat) : List Nat :=
  let part (v : Nat) : Nat := 128 + 3584 * u.getD v 0 / max u.sum 1
  let rest := 4096 - ((List.range 4).map part).sum
  (List.range 4).map fun v => part v + if v < rest then 1 else 0

/-- The limits a receiver announces: reductions at once, and the increases it can afford, in ascending channel, beside what
every other channel could fill: its use, its new limit, or one that the sender may still obey (`open_`). -/
def affordable (used open_ old want : List Nat) : List Nat :=
  let low := (List.range 4).map fun v => min (old.getD v 0) (want.getD v 0)
  (List.range 4).foldl (fun lim v =>
    let others := (((List.range 4).filter (· ≠ v)).map fun w => max (max (used.getD w 0) (open_.getD w 0)) (lim.getD w 0)).sum
    if others + max (used.getD v 0) (want.getD v 0) ≤ 4096 then lim.set v (want.getD v 0)
    else lim.set v (min (old.getD v 0) (want.getD v 0))) low

/-- The limits the sender may obey now: those last announced and, until it has acknowledged them, those before. -/
def Link.openLimits (l : Link) : List Nat :=
  if (l.out ++ l.retry).any fun f => f.ctl.any Ctl.isLimits then
    (List.range 4).map fun v => max (l.rlimit.getD v 0) (l.rlimitOld.getD v 0)
  else l.rlimit

/-- LIMITS_PERIOD (R259): every 1,024 link cycles. -/
def execLimitsPeriod (isl port : Nat) (s : State) : Result :=
  happen s <|
    let l := s.link isl port
    if l.lstate ≠ 1 ∨ s.now / 2048 ≤ l.period then none
    else
      let s := countSlots s isl port
      let u := (s.link isl port).slotCycles
      let s := s.updLink isl port fun l => { l with slotCycles := [0, 0, 0, 0], period := s.now / 2048, dataIn := 0 }
      if l.dataIn = 0 ∨ u.sum = 0 then some s
      else
        let lim := affordable ((List.range 4).map (inUse s isl port)) l.openLimits l.rlimit (newLimits u)
        if lim = l.rlimit then some s
        else
          let s := s.updLink isl port fun l => { l with rlimitOld := l.openLimits, rlimit := lim, epoch := l.epoch + 1 }
          some (sendCtl s isl port (.limits (l.epoch + 1) lim))

/-! ## Control flits (R260) -/

/-- The oldest control payload a link end has not acted on, taken from it. -/
def takeCtl (s : State) (isl port : Nat) : Option (Ctl × State) :=
  match (s.link isl port).ctlIn with
  | [] => none
  | c :: rest => some (c, s.updLink isl port fun l => { l with ctlIn := rest })

/-- Slots of a channel that a credit returns: those freed at the other end (which hop classes they were in a CREDIT does not
say: that the sender knows it is the model's choice, log 46), and after them the oldest. -/
def dropUsed (us : List (Nat × Nat)) (v n : Nat) : List (Nat × Nat) :=
  (List.range n).foldl (fun us _ =>
    if us.any fun x => x.1 = v && 4 ≤ x.2 then us.eraseP fun x => x.1 = v && 4 ≤ x.2 else us.eraseP fun x => x.1 = v) us

/-- CREDIT. -/
def execCredit (isl port : Nat) (s : State) : Result :=
  happen s <|
    match takeCtl s isl port with
    | some (.credit freed, s) =>
      some (pumpLink (s.updLink isl port fun l => { l with
        used := (List.range 4).foldl (fun u v => dropUsed u v (freed.getD v 0)) l.used }) isl port)
    | _ => none

/-- LIMITS (R259). -/
def execLimits (isl port : Nat) (s : State) : Result :=
  happen s <|
    match takeCtl s isl port with
    | some (.limits _ lim, s) => some (pumpLink (s.updLink isl port fun l => { l with limit := lim }) isl port)
    | _ => none

/-! ## Weak lanes and swaps (R261, R262, R264) -/

/-- The exchange that a wavelength asks for after its window. -/
def judge (s : State) (isl port guide wl : Nat) : State :=
  let y := s.laneOf isl port
  let k := laneKey guide wl
  let open_ := y.swap.isSome || y.restripe.isSome || (s.link isl port).lstate ≠ 1
  let weak := wl < 16 && SMap.find? y.spare guide ≠ some wl &&
    natBits (s.link isl port).lit wl wl = 1 && (2 ≤ SMap.get 0 y.errs k || 2 ≤ SMap.get 0 y.margins k)
  if weak then
    if (SMap.find? y.spare guide).isSome then
      fabricEvent s { kind := 0x1B, isl := isl, port := port, oldWl := (s.link isl port).wl, guide := guide, wl := wl }
    else if open_ then s
    else propose s isl port guide wl 16 false
  else if open_ then s
  else if y.owed.contains guide && SMap.find? y.spare guide = some wl then propose s isl port guide 16 wl true
  else if SMap.find? y.back k = some 2 then propose s isl port guide 16 wl false
  else s

/-- One wavelength's window: its counts of windows above the limits, or of clean windows. -/
def sampleLane (y : Lanes) (guide wl : Nat) (noisy thin : Bool) : Lanes :=
  let k := laneKey guide wl
  match SMap.find? y.back k with
  | some n => if n = 3 then y else { y with back := SMap.put y.back k (if noisy || thin then 0 else min (n + 1) 2) }
  | none => { y with
      errs := SMap.set 0 y.errs k (if noisy then min (SMap.get 0 y.errs k + 1) 2 else 0)
      margins := SMap.set 0 y.margins k (if thin then min (SMap.get 0 y.margins k + 1) 2 else 0) }

/-- Every wavelength of a link direction, the spares among them. -/
def allLanes : List (Nat × Nat) := ((List.range 8).map fun g => (List.range 17).map fun w => (g, w)).flatten

/-- LANE_SAMPLE_WINDOW (R261, R264): each window of 65,536 link cycles, every wavelength is judged. `samples` names those
with errors or another margin; the others were clean. -/
def execLaneSampleWindow (isl port : Nat) (samples : List LaneSample) (s : State) : Result :=
  happen s <|
    if (s.panel.peer isl port).isNone ∨ s.now / 131072 ≤ (s.link isl port).window then none
    else
      let of_ (gw : Nat × Nat) : Option LaneSample := samples.find? fun x => (x.guide, x.wl) = gw
      let s := s.updLink isl port fun l => { l with window := s.now / 131072 }
      let s := s.updLanes isl port fun y => allLanes.foldl (fun y gw =>
        sampleLane y gw.1 gw.2 ((of_ gw).any fun x => 1024 < x.errors) ((of_ gw).any fun x => x.margin < 25)) y
      some (allLanes.foldl (fun s gw => judge s isl port gw.1 gw.2) s)

/-- SWAPREQ (R262): agreed to unless the end has a proposal open, restripes, or has sent flit S. -/
def execSwapreq (isl port : Nat) (s : State) : Result :=
  happen s <|
    match takeCtl s isl port with
    | some (.swapreq guide leaving entering at_ no, s) =>
      let y := s.laneOf isl port
      let sent := seqGe (s.link isl port).nextFseq ((at_ + 1) % 65536)
      let agree := y.swap.isNone && y.peerSwap.isNone && y.restripe.isNone && !sent
      let s := if agree then s.updLanes isl port fun y => { y with
          peerSwap := some { guide := guide, leaving := leaving, entering := entering, s := at_, no := no, sentAt := s.now } }
        else s
      some (sendCtl s isl port (.swapack no agree))
    | _ => none

/-- SWAPACK (R262): agreed, the swap takes effect at flit S. -/
def execSwapack (isl port : Nat) (s : State) : Result :=
  happen s <|
    match takeCtl s isl port with
    | some (.swapack no agree, s) =>
      match (s.laneOf isl port).swap with
      | some w =>
        if w.no ≠ no ∨ w.agreed then some s
        else if !agree then some (s.updLanes isl port fun y => { y with swap := none })
        else if seqGe (s.link isl port).lastAcc w.s then some (makeSwap s isl port w)
        else some (s.updLanes isl port fun y => { y with swap := some { w with agreed := true } })
      | none => some s
    | _ => none

/-- SWAP_TIMEOUT (R262): a proposal with no answer within 4 µs is abandoned. -/
def execSwapTimeout (isl port : Nat) (s : State) : Result :=
  happen s <|
    match (s.laneOf isl port).swap with
    | some w =>
      if !(s.link isl port).agreedTo w && w.sentAt + 8000 ≤ s.now then some (s.updLanes isl port fun y => { y with swap := none }) else none
    | none => none

/-! ## Light (R263, R264) -/

def bitsOf (ws : List Nat) : Nat := ((ws.filter (· < 16)).dedup.map (2 ^ ·)).sum
/-- The wavelengths of a bitmap that are in no other. -/
def lessBits (a b : Nat) : Nat := ((List.range 16).filter fun i => natBits a i i = 1 && natBits b i i = 0).map (2 ^ ·) |>.sum

/-- The table is rewritten once both ends of a link have come to the same state (R56, R263). -/
def bothThen (s : State) (isl port st : Nat) (f : State → State) : State :=
  match s.panel.peer isl port with
  | some (j, q) => if (s.link j q).lstate = st then f s else s
  | none => s

/-- A link end stops sending data and keeps what it had; open proposals are abandoned (R263). -/
def startRestripe (s : State) (isl port dark : Nat) : State :=
  let old := (s.link isl port).wl
  let was := (s.laneOf isl port).restripe
  let s := s.updLanes isl port fun y => { y with
    swap := none
    peerSwap := none
    restripe := some (y.restripe.getD (old, darkModule s isl port dark)) }
  let s := s.updLink isl port fun l => { l with lstate := 2 }
  if was.isSome then s else replan (bothThen s isl port 2 topologyUpdate) isl port

/-- An end resumes on a new bitmap: it replays from its retry buffer and reports (R263). -/
def endRestripe (s : State) (isl port bits : Nat) : State :=
  match (s.laneOf isl port).restripe with
  | none => s
  | some (old, m) =>
    let spareGone := lessBits 0xF bits = 0xF
    let s := s.updLanes isl port fun y => { y with
      restripe := none, darkBits := 0, peerSwap := none, spare := if spareGone then [] else y.spare
      owed := if spareGone then [] else y.owed }
    let s := s.updLink isl port fun l => { l with lstate := 1, lit := bits, wire := l.retry, badSince := none }
    let s := fabricEvent (pumpLink s isl port) { kind := 0x18, isl := isl, port := port, oldWl := old, laser := m }
    let s := bothThen s isl port 1 lightUpdate
    if popcount16 bits < 8 then replan s isl port else s

/-- A receiving end sees no light on some wavelengths (R263): TRAIN 1 on the reverse direction. -/
def loseLight (s : State) (isl port dark : Nat) : State :=
  let l := s.link isl port
  let gone := lessBits l.lit (lessBits l.lit dark)
  if (l.lstate ≠ 1 ∧ l.lstate ≠ 2) ∨ gone = 0 then s
  else
    let left := lessBits (lessBits l.lit dark) (s.laneOf isl port).darkBits
    if left = 0 then linkDown s isl port (some gone)
    else
      let s := (startRestripe s isl port gone).updLanes isl port fun y => { y with darkBits := y.darkBits ||| gone }
      sendCtl s isl port (.train 1 (popcount16 left) left)

/-- LIGHT_LOSS (R263): 64 ns without light. -/
def execLightLoss (isl port : Nat) (dark : List Nat) (s : State) : Result :=
  happen s <| if hasPort s isl port then some (loseLight s isl port (bitsOf dark)) else none

/-- Every end of a link: of the islands' ports, and of the service tile's. -/
def linkEnds (s : State) : List (Nat × Nat) :=
  ((serviceTile :: List.range s.panel.nIsl).map fun i => (List.range 9).map fun p => (i, p)).flatten

/-- LASER_MODULE_DARK (R263, R413): the wavelengths a module feeds lose their light everywhere. LIT is published with the
new LIVE_WL of a link, or at once where the module feeds none that is up. -/
def execLaserModuleDark (m : Nat) (s : State) : Result :=
  happen s <|
    if m < 20 ∧ natBits s.panel.dark m m = 0 then
      let s := { s with panel := { s.panel with dark := s.panel.dark + 2 ^ m } }
      let ends := linkEnds s
      let fed (ip : Nat × Nat) : Nat :=
        let groups := (List.range 4).filter fun g => (Config.laser ip.1 ip.2 g).toNat = m
        bitsOf ((groups.map fun g => [4 * g, 4 * g + 1, 4 * g + 2, 4 * g + 3]).flatten)
      let s' := ends.foldl (fun s ip => loseLight s ip.1 ip.2 (fed ip)) s
      some (if s' = s then lightUpdate s else s')
    else none

/-- TRAIN (R263): code 1 is answered with code 2; the end that saw the loss answers code 2 with its own. -/
def execTrain (isl port : Nat) (s : State) : Result :=
  happen s <|
    match takeCtl s isl port with
    | some (.train code _ bits, s) =>
      let l := s.link isl port
      let own := (s.laneOf isl port).darkBits
      let both := lessBits (lessBits bits own) (lessBits 0xFFFF l.lit)
      if l.lstate = 3 ∨ l.lstate = 0 then some s
      else if code = 1 then
        if both = 0 then some (linkDown s isl port (some (lessBits l.lit bits)))
        else
          let s := if (s.laneOf isl port).restripe.isSome then s else startRestripe s isl port (lessBits l.lit bits)
          some (sendCtl s isl port (.train 2 (popcount16 both) both))
      else if (s.laneOf isl port).restripe.isNone then some s
      else
        let s := if own ≠ 0 then sendCtl s isl port (.train 2 (popcount16 both) both) else s
        some (endRestripe s isl port both)
    | _ => none

/-- LIGHT_RETURN (R264): the wavelength is sampled as an idle lane. A dark module is relit only by a reset (R413). -/
def execLightReturn (isl port wl : Nat) (s : State) : Result :=
  happen s <|
    let l := s.link isl port
    let m := (Config.laser isl port (wl / 4)).toNat
    if 16 ≤ wl ∨ (l.lstate ≠ 1 ∧ l.lstate ≠ 2) ∨ natBits l.lit wl wl = 1 ∨ (m < 20 ∧ natBits s.panel.dark m m = 1) then none
    else some (s.updLanes isl port fun y => { y with
      back := (List.range 8).foldl (fun b g => SMap.put b (laneKey g wl) 0) y.back })

end Sys2Proof.Machine
end

