-- ==== Sys2Proof/Machine/Failure.lean ====
section
/-! DEFINITION. The failure of an island (R53, R55, R58, R64, R221, R241, R252, R368). -/

namespace Sys2Proof.Machine

/-! ## Remote operations and packets (R241, R252) -/

/-- The operations with a request, an unsent addition or a reply that the island takes with it: requests whose home it is,
by the address they reach, and its own replies. -/
def lostOps (s : State) (isl : Nat) : List Nat :=
  ((s.pkts.filter fun ip => (!ip.2.cargo.isReply && homeOf ip.2.dst ip.2.pa = isl) || (ip.2.cargo.isReply && ip.2.src = isl)).map
    (fun ip => ip.2.op) ++ SMap.keys (s.ops.filter fun io => io.2.adds.any fun a => homeOf a.dst a.pa = isl)).dedup
/-- The next place in a stream. -/
def takePlace (s : State) (src sep dst : Nat) : Nat × State :=
  let k := streamKey src sep dst
  let st := SMap.get {} s.streams k
  (st.next, { s with streams := SMap.set {} s.streams k { st with next := st.next + 1 } })
/-- Requests on their way to the island whose page has moved to another home go there (R216, R241); those whose home the
island is and that go by another island are answered without effect. -/
def forwardMoved (s : State) (isl : Nat) : State :=
  s.pkts.foldl (fun s ip =>
    let p := ip.2
    let home := homeOf p.dst p.pa
    if p.cargo.isReply || p.cargo.isColl || p.src = isl || (p.dst = isl) = (home = isl) then s
    else if p.dst = isl then
      let (n, s) := takePlace (withdraw s ip.1 p) p.src p.sep home
      { s with pkts := s.pkts.put ip.1 { p with
          route := routeWord s p.src home false, dst := home, sseq := n, cargo := p.orig.getD p.cargo, orig := none
          sentBack := none, gen := s.panel.gen, at_ := p.src, hop := 0, onLink := false, arrived := false, came := none
          got := 0, whole := true, legs := [] } }
    else
      { s with pkts := s.pkts.put ip.1 p.emptied }) s
/-- Unsent additions to the island whose counter has moved to another home take a place in the stream there (R241). -/
def forwardAdds (s : State) (isl : Nat) : State :=
  s.ops.foldl (fun s io =>
    let r := io.2.adds.foldl (fun (r : List LateAdd × State) a =>
      let home := homeOf a.dst a.pa
      if a.dst ≠ isl || home = isl then (r.1 ++ [a], r.2)
      else
        let (n, s) := takePlace r.2 io.2.isl io.2.core home
        (r.1 ++ [{ a with dst := home, sseq := n }], s)) ([], s)
    if r.1 = io.2.adds then s else { r.2 with ops := r.2.ops.put io.1 { io.2 with adds := r.1 } }) s

/-- The chunks of copy engines that lose a packet with the island: the engine's island, the tag, whether it is a read. -/
def lostChunks (s : State) (isl : Nat) : List (Nat × ((Nat × (Nat × Nat)) × Bool)) :=
  s.pkts.filterMap fun ip =>
    let engine := if ip.2.cargo.isReply then ip.2.dst else ip.2.src
    let reads := match ip.2.cargo with
      | .read .. => true
      | .readData .. => true
      | _ => false
    if (ip.2.src = isl || ip.2.dst = isl) && engine ≠ isl then ip.2.eng.map fun t => (engine, (t, reads)) else none

/-- Packets of the island go, those it was relaying go back to their senders, and the slots of those that have come in from
its links are free. -/
def failPackets (s : State) (isl : Nat) : State :=
  let through := ((List.range 9).map fun q => packetsOn s isl q).flatten
  s.pkts.foldl (fun s ip =>
    let p := ip.2
    if p.src = isl || p.dst = isl then
      let s := withdraw s ip.1 p
      { s with pkts := s.pkts.del ip.1 }
    else if p.at_ = isl || through.contains ip.1 then
      let s := withdraw s ip.1 p
      { s with pkts := s.pkts.put ip.1 { p.back s isl with at_ := p.src, arrived := true } }
    else s) s

/-- The lane entries that packets of the island carry stand at the islands they were bound for: they go on from there (the
model's choice, log 63). -/
def landEntries (s : State) (isl : Nat) : State :=
  s.pkts.foldl (fun s ip =>
    match ip.2.entry with
    | some e => if ip.2.src = isl || ip.2.dst = isl then
        let s := withdraw s ip.1 ip.2
        ({ s with pkts := s.pkts.del ip.1 }).addMsg { e with port := opticalPort ip.2.dst }
      else s
    | none => s) s

/-- The crews whose remote operations are lost receive UE (R241). -/
def strikeLost (s : State) (ids : List Nat) : State :=
  ids.foldl (fun s id =>
    match s.ops.find? id with
    | some o => ueRead s o.crew o.team (o.blamed s o.accs) ((o.accs.head?.map (·.va)).getD 0)
    | none => s) s

/-! ## Kernels (R64) -/

/-- Crew indices of some ranges that have been placed. -/
def placedIn (rs : List Range) : List Nat := (rs.map fun r => (List.range (r.next - r.lo)).map (r.lo + ·)).flatten

/-- The spans of the crews of some ranges are rolled back (R390); those that had been placed are reported. -/
def restoreRanges (s : State) (kid : Nat) (k : Kernel) (rs : List Range) : State :=
  let mine (g : SpanTag) : Bool := g.kernel = kid && rs.any fun r => r.lo ≤ g.crew && g.crew < r.hi
  let s := restoreSpans s mine
  (placedIn rs).foldl (fun s i => s.event 0x21 0 k.queue k.tenant k.seq i 0) s

/-- The lane entries of a kernel on the island go to another island that holds it (R65, R419). -/
def moveEntries (s : State) (kid isl : Nat) : State :=
  let ofBin (kb : Nat × Bin) : List LaneEntry :=
    if kb.2.kernel = kid then (match kb.2.forming with
      | some (_, ls) => ls
      | none => []) ++ kb.2.entries else []
  let inBins := ((List.range 36).map fun c => ((s.core (coreKey isl c)).bins.map ofBin).flatten).flatten
  let pooled := (s.isl isl).pool.filter fun e => e.kernel = kid
  let flying := (s.msgs.filter fun ue => ue.2.kernel = kid && ue.2.isl = isl).map Prod.snd
  let s := (List.range 36).foldl (fun s c => s.updCore (coreKey isl c) fun x =>
    { x with bins := x.bins.filter fun kb => kb.2.kernel ≠ kid }) s
  let s := s.updIsl isl fun i => { i with pool := i.pool.filter fun e => e.kernel ≠ kid }
  let s := { s with msgs := s.msgs.filter fun ue => !(ue.2.kernel = kid && ue.2.isl = isl) }
  (inBins ++ pooled ++ flying).foldl (fun s e => s.addMsg (rerouted s { e with src := none })) s

/-- The parts of a range of indices that some ranges, granted again or pooled since, leave. -/
def without (taken : List (Nat × Nat)) (lo hi : Nat) : List (Nat × Nat) :=
  let mine := ((List.range (hi - lo)).map (lo + ·)).filter fun i => !taken.any fun r => r.1 ≤ i && i < r.2
  mine.foldr (fun i acc => match acc with
    | (a, b) :: rest => if a = i + 1 then (i, b) :: rest else (i, i + 1) :: (a, b) :: rest
    | [] => [(i, i + 1)]) []

/-- A kernel whose island set held the failed island: it ends, or its ranges return to the pool and another member leads
(R64). A kernel left with no island ends, and one with a span there that cannot be rolled back, as a UE in it would end it
(R389; the spec settles neither: the model's choice, log 51). -/
def failKernel (s : State) (kid isl : Nat) : State :=
  match s.kernels.find? kid with
  | none => s
  | some k =>
    let isls := (k.isls.getD []).filter (· ≠ isl)
    if !((k.isls.getD []).contains isl) then s
    else
      let lost (r : Range) : Bool := r.isl = isl && r.exited < r.hi - r.lo
      let inside (a b : Range) : Bool := b.lo ≤ a.lo && a.hi ≤ b.hi && a ≠ b
      let rs := k.ranges.filter fun r => lost r && !k.ranges.any fun q => lost q && inside r q
      let struck := placedIn rs ++ (SMap.vals ((s.crewsOf kid).filter fun uc => uc.2.isl = isl)).map (·.idx)
      if !k.launch.rollback || isls.isEmpty || struck.any (fun i => noRollback s k { kernel := kid, crew := i, span := 0 }) ||
          k.noRoll.any (fun g => struck.contains g.crew) then clocks (endKernel s kid .tenantfault 0)
      else
      let gone (r : Range) : Bool := lost r
      let later := k.ranges.filter fun r => !lost r && rs.any (inside r)
      let taken := (later.map fun r => (r.lo, r.hi)) ++ k.pool
      let here := SMap.keys ((s.crewsOf kid).filter fun uc => uc.2.isl = isl)
      let s := here.foldl (fun s cu => discardCrew (dropOps s (SMap.keys (s.teamsOf cu))) cu) s
      let s := (placedIn rs).foldl (fun s i => purgeSpawned s { kernel := kid, crew := i, span := 0 }) s
      let s := restoreRanges s kid k rs
      let lead := k.leader = isl
      let s := s.updKernel kid fun k => { k with
        isls := some isls
        ranges := k.ranges.filter fun r => !gone r
        pool := (rs.map fun r => without taken r.lo r.hi).flatten.foldl (fun p r => insertRange r p) k.pool
        exited := k.exited - ((rs.map (·.exited)).sum - (later.map (·.exited)).sum)
        placed := k.placed
        leader := if lead then (argMin id isls).getD 0 else k.leader
        rangeRetryAt := if lead then some s.now else k.rangeRetryAt }
      moveEntries s kid isl

/-! ## The island -/

/-- The links of the island go down at their other ends, which report it (R257, R266). -/
def dropLinks (s : State) (isl : Nat) : State :=
  (List.range 9).foldl (fun s p =>
    match s.panel.peer isl p with
    | none => s
    | some (j, q) =>
      let l := s.link j q
      if l.lstate ≠ 1 ∧ l.lstate ≠ 2 then s
      else
        let s := replan s j q
        let forget (x : Lanes) : Lanes := { x with swap := none, peerSwap := none, restripe := none, darkBits := 0 }
        let s := (clearEnd (clearEnd s isl p) j q).updLanes j q forget
        fabricEvent s { kind := 0x19, isl := j, port := q, oldWl := l.wl }) s

/-- An island stops (R64, R413): what stood on it is gone, translations that name it are dropped (R221), held kernels read
their counters again, collectives replay (R368), and the table is rewritten, with LIT unless a restripe that will publish
it is under way (R56, R263). -/
def islandFails (s : State) (isl : Nat) : State :=
  let lost := lostOps s isl
  let chunks := lostChunks s isl
  let s := s.updIsl isl fun i => { i with live := false }
  let s := tlbDrop s fun e => e.isl = isl
  let s := collIslandFails s isl
  let s := dropLinks (failPackets (forwardAdds (forwardMoved (landEntries s isl) isl) isl) isl) isl
  let s := (SMap.keys s.kernels).foldl (fun s kid => failKernel s kid isl) s
  let s := chunks.foldl (fun s c => strikeChunk s c.1 c.2.1 c.2.2) (strikeLost s lost)
  let s := { s with kernels := s.kernels.mapVals fun _ k => if k.phase = Phase.held then { k with retry := true } else k }
  let s := s.updPcp fun p => { p with
    migrations := p.migrations.filter fun m => m.2.src / 2 ^ 39 ≠ isl && m.2.dst / 2 ^ 39 ≠ isl }
  let s := { s with deadlines := s.deadlines.filter fun d => d.2.isl ≠ isl }
  let s := s.updIsl isl fun i => { i with faults := [], faultWait := [], crumbs := [], token := none, tokenAsk := [] }
  if s.lanes.any fun ky => ky.2.restripe.isSome then topologyUpdate s else lightUpdate s

/-- ISLAND_FAILURE (R64). -/
def execIslandFailure (isl : Nat) (s : State) : Result :=
  happen s <| if (s.isl isl).live then some (clocks (islandFails s isl)) else none

end Sys2Proof.Machine
end

