-- ==== Sys2Proof/Machine/Interrupt.lean ====
section
/-! DEFINITION. CREWCTL (R378), tenant reset (R392), uncorrectable errors (R390, R391) and the retirement of kernels
(R116, R322, R393). -/

namespace Sys2Proof.Machine

/-! ## CREWCTL -/

/-- The halted crew a HANDLE names (R378). -/
def haltedBy (s : State) (t : Nat) (handle : Word) : Option (Nat × Crew) :=
  if handle = 0 then none
  else (tenantCrews s t fun c => (c.halt.map (·.handle)) = some handle).head?

/-- A saved crew stopped by MITERDIV resumes: its saved command completes with OUT = 3 (Table 20-1), where no rollback has
discarded it. -/
def savedMiter (s : State) (cu : Nat) (c : Crew) : State :=
  let head := ((s.isl c.isl).saved.find? fun v => v.crew = cu).bind fun v => v.ctx.cmds.head?
  let bar := head.bind (·.bar)
  if (head.map (·.no)) ≠ c.halt.map (·.cmd) then s
  else
  let s := s.updIsl c.isl fun i => { i with saved := i.saved.map fun v =>
    if v.crew = cu then
      { v with ctx := { v.ctx with
          cmds := v.ctx.cmds.drop 1, timeline := timelineAt ((v.ctx.cmds.drop 1).map (·.no)) v.ctx.issued } }
    else v }
  match bar with
  | some o => barrierUpdate s cu none o 0 true
  | none => s

/-- A crew continues as Table 20-1 gives; bins of its core may launch into it again. -/
def resumeOn (s : State) (cu : Nat) (c : Crew) : State :=
  let miter := (c.halt.map (·.engine)) = some 2
  let s := if !miter then s else if c.saved then savedMiter s cu c else miterResumed s cu
  let s := resumeCrew s cu
  sweep (if c.saved then s else binsAdvance s c.key)

/-- CREWCTL RESUME. -/
def execCrewctlResume (t : Nat) (handle : Word) (s : State) : Result :=
  hostTakes s false ((haltedBy s t handle).map fun uc => resumeOn s uc.1 uc.2)

/-- CREWCTL END: the kernel ends with TENANTFAULT and performs no signals. -/
def execCrewctlEnd (t : Nat) (handle : Word) (s : State) : Result :=
  hostTakes s false ((haltedBy s t handle).map fun uc => clocks (endKernel s uc.2.kernel .tenantfault 0))

/-- CREWCTL ROLLBACK: the span the report names is rolled back; in a resident kernel the crew's other teams resume. -/
def execCrewctlRollback (t : Nat) (handle : Word) (s : State) : Result :=
  hostTakes s false <|
    (haltedBy s t handle).bind fun uc =>
      (s.kernels.find? uc.2.kernel).map fun k =>
        let team := (uc.2.halt.map (·.team)).getD 0
        let us := ((s.teamsOf uc.1).filter fun ut => ut.2.index = team).map Prod.fst
        let gs := match uc.2.halt.bind (·.span) with
          | some g => [g]
          | none => spansOf s uc.2 k us
        let s := strikeSpans s uc.2.kernel gs none
        match s.crews.find? uc.1 with
        | some c => resumeOn s uc.1 c
        | none => s

/-! ## Tenant reset (R392) -/

/-- The typed spaces a tenant's crews hold, running or saved, are zeroed. -/
def zeroTyped (s : State) (t : Nat) : State :=
  let mine (kid : Nat) : Bool := ((s.kernels.find? kid).map (·.tenant)) = some t
  let s := { s with
    crews := s.crews.mapVals fun _ c => if mine c.kernel then { c with lmem := [], amem := [] } else c
    isls := s.isls.mapVals fun _ i => { i with
      wspace := i.wspace.map fun w => if mine w.kernel then { w with mem := [] } else w } }
  (tenantCrews s t fun _ => true).foldl (fun s uc =>
    let key := uc.2.cluster
    let s := match uc.2.mxCtx with
      | some n => s.updEngine key fun e => e.clearBank ((s.engine key).ctx n).bank
      | none => s
    s.updEngine key fun e => [0, 1].foldl (fun e b => if e.owner b = some uc.1 then e.clearBank b else e) e) s

/-- Queued records other than LAUNCHes, which finish with their kernels. -/
def queuedOthers (s : State) (t : Nat) : List (Nat × Rec) :=
  (s.queues.map fun kq =>
    if kq.2.tenant = t then (kq.2.accepted.filter fun r => Rec.kind r.1 ≠ kindLaunch).map fun r => (kq.1, r.1) else []).flatten

/-- TENANT_RESET (R392): records are refused and finished, crews and commands stop without saving, kernels end with
RESET, typed spaces are zeroed and freed. -/
def execTenantReset (t : Nat) (s : State) : Result :=
  hostTakes s false <|
    if (s.tenant t).treset then none
    else
      let others := queuedOthers s t
      let s := s.updTenant t fun y => { y with treset := true }
      let s := { s with queues := s.queues.mapVals fun _ q =>
        if q.tenant = t then { q with accepted := [], waiting := [] } else q }
      let s := zeroTyped s t
      let mine := s.kernels.filter fun uk => uk.2.tenant = t
      let order := sortBy (fun u => [((SMap.find? mine u).map (·.accept)).getD 0]) (SMap.keys mine)
      let s := order.foldl (fun s kid => endKernel s kid .reset 0) s
      some (clocks (others.foldl (fun s qr => finishRecord s qr.1 qr.2.seq qr.2.kind .reset 0) s))

/-- TENANT_RESET_DONE: GO reads 0 and an event is written. -/
def execTenantResetDone (t : Nat) (s : State) : Result :=
  happen s <|
    if (s.tenant t).treset then
      some ((s.updTenant t fun y => { y with treset := false }).event 0x24 0 0 t 0 0 0)
    else none

/-! ## Uncorrectable errors (R390, R391) -/

/-- The latched teams, but for those of some struck ones, whose gang lists a team on a core: its uncorrectable error breaks
their latch (R277, R385). -/
def coreGangs (s : State) (c : Crew) (struck : List Nat) : List Nat :=
  (s.teams.filter fun ut =>
    ut.2.status = .latched && !struck.contains ut.1 && match s.crews.find? ut.2.crew with
      | some d => d.kernel = c.kernel && d.cluster = c.cluster &&
          (List.range (gangCount ut.2.gang)).any fun i => gangMember ut.2.gang i / 16 = c.core % 4
      | none => false).map Prod.fst

/-- A crew struck in its state: in a resident kernel, in the spans of some of its teams. -/
def strikeState (s : State) (cu : Nat) (us : List Nat) : State :=
  match s.crews.find? cu with
  | none => s
  | some c =>
    match s.kernels.find? c.kernel with
    | none => s
    | some k =>
      let team := ((us.head?.bind fun u => s.teams.find? u).map (·.index)).getD 0
      let gone := if k.launch.resident then us else SMap.keys (s.teamsOf cu)
      let s := if c.saved then s else gangLost s (coreGangs s c gone)
      strikeCrew s cu (spansOf s c k us) none { cause := .ue, team := team }

/-- The crews that use W-space on a cluster's fondant die. -/
def fondantCrews (s : State) (isl cluster : Nat) : List Nat :=
  SMap.keys (s.crews.filter fun uc => uc.2.isl = isl && uc.2.core / 4 = cluster &&
    (s.isl isl).wspace.any fun w => w.cluster = cluster && w.kernel = uc.2.kernel)

/-- The sectors of one line with log records are restored with the spans that wrote them; those without stay poisoned
(R391). The first sector's physical address, beyond the virtual ones, stands for them among the addresses of R391. -/
def strikeSectors (s : State) (i : Nat) (secs : List Nat) : State :=
  let logged (sec : Nat) : List LogRec := (s.isl i).log.filter fun r => r.sector = sec
  let bare := secs.filter fun sec => (logged sec).isEmpty && !(s.isl i).poison.contains sec
  let at_ := some (2 ^ 64 + secs.headD 0)
  ((secs.flatMap logged).map (·.tag)).dedup.foldl (fun s g =>
    match List.find? (fun uc : Nat × Crew => uc.2.kernel = g.kernel && uc.2.idx = g.crew) s.crews with
    | some (cu, _) =>
      let mine := (s.teamsOf cu).filter fun ut => ut.2.span = g.span
      strikeCrew s cu [g] at_ { cause := .ue, team := (mine.head?.map fun ut => ut.2.index).getD 0 }
    | none => strikeSpans s g.kernel [g] at_) (s.updIsl i fun x => { x with poison := bare ++ x.poison })

/-- The island an error is logged on. -/
def ueIsland (s : State) : UeSite → Nat
  | .registers u => ((s.teams.find? u).bind fun t => (s.crews.find? t.crew).map (·.isl)).getD 0
  | .lspace cu => ((s.crews.find? cu).map (·.isl)).getD 0
  | .aspace cu => ((s.crews.find? cu).map (·.isl)).getD 0
  | .fondant isl _ => isl
  | .sector pa => pa / 2 ^ 39
  | .line pa => pa / 2 ^ 39

/-- UNCORRECTABLE_ERROR (R390): the spans whose state it reaches are struck. -/
def execUncorrectableError (site : UeSite) (s : State) : Result :=
  happen s <|
    let s := s.updIsl (ueIsland s site) fun i => { i with ueSeen := true }
    match site with
    | .registers u => (s.teams.find? u).map fun t => strikeState s t.crew [u]
    | .lspace cu => some (strikeState s cu (SMap.keys (s.teamsOf cu)))
    | .aspace cu => some (strikeState s cu (SMap.keys (s.teamsOf cu)))
    | .fondant isl cluster =>
      some ((fondantCrews s isl cluster).foldl (fun s cu => strikeState s cu (SMap.keys (s.teamsOf cu))) s)
    | .sector pa => if pa < 2 ^ 44 then some (strikeSectors s (pa / 2 ^ 39) [pa / 32 * 32]) else none
    | .line pa =>
      if pa < 2 ^ 44 then
        some (strikeSectors s (pa / 2 ^ 39) ((List.range 4).map fun j => pa / 128 * 128 + 32 * j))
      else none

/-! ## Retirement (R116, R322, R393) -/

/-- Whether an entry of a kernel stands anywhere that can still form a team (R116, R419). -/
def entriesLeft (s : State) (kid : Nat) (k : Kernel) : Bool :=
  !(openCrews s kid).isEmpty &&
    (!k.overflow.isEmpty || (entriesAway s).any (fun e => e.kernel = kid) ||
      s.cores.any (fun kc => kc.2.bins.any fun b => b.2.kernel = kid) ||
      s.isls.any fun i => i.2.pool.any fun e => e.kernel = kid)

/-- Whether a kernel retires now. -/
def retires (s : State) (kid : Nat) (k : Kernel) : Bool :=
  let crews := s.crewsOf kid
  k.phase = .ready && k.placed ≠ 0 && !k.unplaced && !(s.ops.any fun io => io.2.kernel = kid) &&
    if k.travels then
      crews.all (fun uc => (s.teamsOf uc.1).isEmpty && enginesIdle s uc.2 && uc.2.halt.isNone && !uc.2.saved && !uc.2.stop) &&
        !entriesLeft s kid k
    else crews.isEmpty

/-- The signals of the list from an entry on: the state after them and the first skipped address (R32); `none` while one
must wait. An entry whose address has bits above the low 56 is skipped and reported with all 64 (the model's choice, log
73). -/
def signalsFrom (tenant : Nat) : List (List Byte) → State → Option Nat → Option (State × Option Nat)
  | [], s, skip => some (s, skip)
  | bs :: rest, s, skip =>
    let va := leNat (bs.take 8)
    let inc := leNat ((bs.drop 8).take 4)
    let first (s : State) : State × Option Nat := (s, some (skip.getD va))
    if leNat (bs.drop 12) ≠ 0 ∨ va % 4 ≠ 0 ∨ 2 ^ 56 ≤ va then signalsFrom tenant rest (first s).1 (first s).2
    else
      match signalAdd s tenant va inc with
      | none => none
      | some (true, s) => signalsFrom tenant rest s skip
      | some (false, s) => signalsFrom tenant rest (first s).1 (first s).2

/-- The retirement signals of a kernel (R32, R393). -/
def retireSignals (s : State) (k : Kernel) : Option (State × Option Nat) :=
  if k.launch.sigN = 0 then some (s, none)
  else
    let n := 16 * k.launch.sigN
    if pcpHeld s k.tenant k.launch.sigVa n then none
    else
      match (if k.launch.sigVa % 16 = 0 then pcpRead s k.tenant k.launch.sigVa n else (none, s)) with
      | (none, s) => some (s, some k.launch.sigVa)
      | (some bs, s) => signalsFrom k.tenant (rowsOf16 bs k.launch.sigN) s none

/-- KERNEL_RETIREMENT (R393): signals, spans, status word. -/
def execKernelRetirement (kernel : Nat) (s : State) : Result :=
  happen s <|
    (s.kernels.find? kernel).bind fun k =>
      if !retires s kernel k then none
      else
        (retireSignals s k).map fun r =>
          let s := (r.1.crewsOf kernel).foldl (fun s uc => removeCrew (l1Clean s uc.2.key) uc.1) r.1
          clocks (finishKernel s kernel k (if r.2.isSome then .sigskip else .ok) .ok (r.2.getD 0))

end Sys2Proof.Machine
end

