-- ==== Sys2Proof/Machine/Pages.lean ====
section
/-! DEFINITION. Events of the page tables and of pages: demand pages and fault replies (R102, R214), copies of read-shared
pages (R205), TLBINV and PTROOT (R210, R212), migration (R60, R215, R216), and the host's accesses to panel memory. -/

namespace Sys2Proof.Machine

/-! ## Replays (R214) -/

/-- A faulter goes on: its access is made again. -/
def replayFault (s : State) (isl : Nat) (who : Faulter) : State :=
  match who with
  | .team u => s.updTeam u fun t => { t with
      status := if t.status = .parked then .run else t.status, sched := { t.sched with readySince := s.now } }
  | .copy x => updCopy s isl x fun y => { y with stalled := false }
  | .coll x => updColl s isl x fun y => { y with stalled := false }
  | .code .. => s

/-- An entry of a fault buffer leaves it and its access replays. -/
def replayEntry (s : State) (isl entry : Nat) (f : FaultEntry) : State := faultLeave (replayFault s isl f.who) isl entry

/-- The queue of the kernel a fault entry is for. -/
def FaultEntry.queue (s : State) (f : FaultEntry) : Nat :=
  match List.find? (fun uk : Nat × Kernel => uk.2.seq = f.kernelSeq ∧ uk.2.tenant = f.tenant) s.kernels with
  | some uk => uk.2.queue
  | none => 0

/-- DEMAND_PAGE_FILL (R214): the page is created and the access replays; with no frame anywhere the fault goes to the
host. -/
def execDemandPageFill (isl entry : Nat) (s : State) : Result :=
  happen s <|
    (SMap.find? (s.isl isl).faults entry).bind fun f =>
      if !f.demand || f.copyWanted then none
      else
        match walk s f.tenant f.va with
        | .missing true pte level size x =>
          if (pteGroup pte level size).any fun a => writeHeld s s.uid a 8 then none
          else
          let want := match f.who with
            | .code .. => pcpRank s f.va size
            | _ => isl
          match demandCreate s want pte level size x with
          | some s => some (replayEntry s isl entry f)
          | none =>
            let f' := { f with demand := false }
            let s := s.updIsl isl fun i => { i with faults := SMap.del i.faults entry }
            some (faultEnter s isl f' (f.queue s))
        | _ => some (replayEntry s isl entry f)

/-- READ_SHARED_COPY (R205): a copy of the page is made in the island's memory and the load replays. The copy of the
topology table is kept equal to the table. -/
def execReadSharedCopy (isl entry : Nat) (s : State) : Result :=
  happen s <|
    (SMap.find? (s.isl isl).faults entry).bind fun f =>
      if !f.copyWanted then none
      else
        match walk s f.tenant f.va with
        | .leaf e =>
          if e.isl = 32 then some (replayEntry (s.updIsl isl fun i => { i with topo := true }) isl entry f)
          else if e.attr ≠ .shared ∨ e.isl = isl then some (replayEntry s isl entry f)
          else
            let n := pageBytes e.size
            (takeFrame (recallUpdates s e.isl e.frame n) isl n).map fun r =>
              let s := r.2
              let moved := (s.mem.filter fun c => e.frame ≤ c.1 && c.1 < e.frame + n).map fun c =>
                (c.1 - e.frame + r.1, c.2)
              let s := moved.foldl (fun s c => s.wr c.1 [c.2]) s
              let s := s.updIsl isl fun i => { i with
                replicas := { tenant := f.tenant, va := 4096 * e.page, home := e.frame, size := n, base := r.1 } :: i.replicas }
              replayEntry s isl entry f
        | _ => some (replayEntry s isl entry f)

/-- An engine access that fails: its context stops with NOTMAPPED (R214, R244). -/
def failEngine (s : State) (cu engine va : Nat) (cmd : Option (Nat × (Nat × Option SpanTag))) : State :=
  raiseEngine s cu
    { cause := .notmapped, engine := engine
      team := (cmd.map Prod.fst).getD 0, cmd := (cmd.map fun q => q.2.1).getD 0, addr := va, span := cmd.bind fun q => q.2.2 }

/-- A failing reply (R214, R379): the access raises NOTMAPPED; a code copy ends its kernel (R102). -/
def failEntry (s : State) (isl entry : Nat) (f : FaultEntry) : State :=
  let s := faultLeave s isl entry
  match f.who with
  | .team u => raise (s.updTeam u fun t => { t with status := .run }) u .notmapped f.lanes f.va 0
  | .copy x =>
    let y := SMap.get ({} : CopyCtx) (s.isl isl).copy x
    let s := updCopy s isl x fun y => { y with stalled := false, stopped := true }
    failEngine s (y.crew.getD 0) 1 f.va (y.cmds.head?.map fun c => (c.teamIdx, (c.no, c.span)))
  | .coll x =>
    let y := SMap.get ({} : CollCtx) (s.isl isl).coll x
    let s := updColl s isl x fun y => { y with stalled := false, stopped := true }
    failEngine s (y.crew.getD 0) 3 f.va (y.cmds.head?.map fun c => (c.teamIdx, (c.no, c.span)))
  | .code k _ => clocks (endKernel s k .tenantfault f.va)

/-- What a reply does to the entry it names: one for an entry that does not wait for the host is ignored (R214). -/
def reply (s : State) (isl entry : Nat) (fail : Bool) : State :=
  match SMap.find? (s.isl isl).faults entry with
  | none => s
  | some f => if f.demand then s else if fail then failEntry s isl entry f else replayEntry s isl entry f

/-- FAULTREPLY (Table 11-8): FAIL and ISLAND keep what is written, and the reply acts at once. -/
def execFaultreply (x : DWord) (s : State) : Result :=
  let isl := natBits x.toNat 20 16
  let fail := natBits x.toNat 32 32 = 1
  hostTakes s false <| some <|
    reply (s.updHost fun h => { h with replyFail := fail, replyIsl := isl }) isl (natBits x.toNat 9 0) fail

/-! ## TLBINV and PTROOT -/

/-- PTROOT (Table 11-5): ignored while the tenant is enabled. -/
def execPtrootWrite (t : Nat) (x : DWord) (s : State) : Result :=
  hostTakes s false <|
    if (s.tenant t).enable then none
    else some (s.updTenant t fun y => { y with ptroot := natBits x.toNat 43 7 * 2 ^ 7 })

/-- The write of TLBINV's GO (Table 11-7). -/
def execTlbinvGo (x : DWord) (s : State) : Result :=
  hostTakes s false <|
    if s.host.tlbGo then none
    else some (s.updHost fun h => { h with
      tlbAll := natBits x.toNat 1 1 = 1, tlbGo := natBits x.toNat 0 0 = 1, tlbFrom := s.uid })

/-- What an invalidation covers: tenant, first address, bytes; `none` where SIZE is 12 to 15. -/
def invRange (h : HostRegs) : Option (Nat × (Nat × Nat)) :=
  let t := natBits h.tlbRange 5 0
  let size := natBits h.tlbRange 11 8
  if h.tlbAll then some (t, (0, 2 ^ 56))
  else if 12 ≤ size then none
  else some (t, (natBits h.tlbRange 55 12 * 4096 / pageBytes size * pageBytes size, pageBytes size))

/-- The address at its home of a byte that a replica holds. -/
def Replica.atHome (r : Replica) (pa : Nat) : Nat := if r.base ≤ pa && pa < r.base + r.size then r.home + (pa - r.base) else pa
/-- Replicas leave an island with their frames; loads in flight from them go on at the home (R320). -/
def dropReplicas (s : State) (p : Replica → Bool) : State :=
  (List.range s.panel.nIsl).foldl (fun s i =>
    let gone := (s.isl i).replicas.filter p
    let s := { s with ops := s.ops.mapVals fun _ o =>
      if o.kind.space = .global then { o with accs := o.accs.map fun a => { a with addr := gone.foldl (fun pa r => r.atHome pa) a.addr } }
      else o }
    let s := gone.foldl (fun s r => dropFrame s r.base) s
    s.updIsl i fun x => { x with replicas := x.replicas.filter fun r => !p r }) s

/-- Every TLB loses the entries of a tenant that overlap a range, and the replicas of its pages go (R205, R212). -/
def invalidate (s : State) (t va n : Nat) : State :=
  let meets (a m : Nat) : Bool := a < va + n && va < a + m
  let s := tlbDrop s fun e => e.tenant = t && meets (4096 * e.page) (pageBytes e.size)
  dropReplicas s fun r => r.tenant = t && meets r.va r.size

/-- Whether an access at a virtual address no longer agrees with the tenant's tables: its physical address, its attribute,
or its right to write (R212). -/
def outdated (s : State) (t : Nat) (write : Bool) (va pa : Nat) (attr : Attr) : Bool :=
  match walk s t va with
  | .leaf e => e.attr ≠ attr || (e.attr ≠ .shared && e.pa va ≠ pa) || (write && !e.w)
  | _ => true
/-- Whether an access that began after the write of GO still uses an entry of the range that has changed: of an operation,
an open transaction or a copy engine (R212). -/
def usesOld (s : State) (t va n : Nat) : Bool :=
  let inside (a : Nat) : Bool := va ≤ a && a < va + n
  let tenantOf (c : Nat) : Option Nat := (s.crews.find? c).bind fun c => (s.kernels.find? c.kernel).map (·.tenant)
  (s.pkts.any fun ip => s.host.tlbFrom ≤ ip.1 && ip.2.eng.isSome && ip.2.tenant = t) ||
  (s.ops.any fun io => s.host.tlbFrom ≤ io.1 && io.2.tenant = t && io.2.kind.space = .global &&
    ((io.2.accs.any fun a => inside a.va && outdated s t io.2.kind.writes a.va a.addr a.attr) ||
      io.2.ctrs.any fun a => inside a.va && outdated s t true a.va a.addr a.attr)) ||
  s.teams.any fun ut => tenantOf ut.2.crew = some t && match ut.2.tx with
    | some x => x.pages.any fun p => s.host.tlbFrom ≤ p.1 && inside p.2.1 &&
        outdated s t (x.w.lines.contains (lineOf p.2.2)) p.2.1 p.2.2 .coherent
    | none => false

/-- TLBINV_DONE (R212): no access that began after the write of GO uses an old entry once GO reads 0. -/
def execTlbinvDone (s : State) : Result :=
  happen s <|
    if !s.host.tlbGo || ((invRange s.host).map fun r => usesOld s r.1 r.2.1 r.2.2).getD false then none
    else
      let s' := match invRange s.host with
        | some (t, (va, n)) => invalidate s t va n
        | none => s
      some (s'.updHost fun h => { h with tlbGo := false })

/-! ## Migration (R60, R215, R216) -/

/-- The leaf entry that maps an address: where it lies, its level and its value. -/
def leafEntry (s : State) (va : Nat) : Nat → Nat → Option (Nat × (Nat × Nat))
  | level, table =>
    let pte := table + 8 * pteIndex va level
    let x := s.rd pte 8
    if natBits x 0 0 = 0 then none
    else if natBits x 1 1 = 1 then some (pte, (level, x))
    else
      match level with
      | 0 => none
      | l + 1 => leafEntry s va l (pteAddr x)

/-- Touches of a page in one window: by an island, and all others. -/
def pageTouches (s : State) (e : TlbEntry) (isl window : Nat) : Nat × Nat :=
  let mine := (s.pcp.touches.filter fun kt =>
    e.frame / 4096 ≤ kt.1 && kt.1 < e.frame / 4096 + 4 ^ e.size).map fun kt => kt.2.inWindow window
  let here := (mine.map fun t => SMap.get 0 t.remote isl).sum
  let all := (mine.map fun t => t.other + (t.remote.map Prod.snd).sum).sum
  (here, all - here)
def migrates (n : Nat × Nat) : Bool := 64 ≤ n.1 && 4 * n.2 ≤ n.1

/-- Whether a running kernel of the tenant keeps the page where it is (R60). -/
def pagePinned (s : State) (tenant : Nat) (e : TlbEntry) : Bool :=
  let lo := e.frame / 4096
  let va := 4096 * e.page
  let n := pageBytes e.size
  s.kernels.any fun uk => uk.2.tenant = tenant &&
    ((s.pcp.reached.any fun r => r.1 = uk.1 && lo ≤ r.2 && r.2 < lo + 4 ^ e.size) ||
      (uk.2.taken && ((affinity s uk.2).getD []).any fun r => r.1 < va + n && va < r.1 + r.2))

/-- Every L1 copy of a page's lines is recalled (R200, R208). -/
def recallPage (s : State) (isl base n : Nat) : State :=
  (List.range 36).foldl (fun s c =>
    let key := coreKey isl c
    let ls := (s.core key).l1Lines.filter fun l => base ≤ l.line * 128 && l.line * 128 < base + n
    ls.foldl (fun s l => evict (s.updCore key fun k => k.l1Drop l.line) l) s) s

/-- MIGRATION_WINDOW (R60, R215): a page is locked at its old home and its copy to another island begins. -/
def execMigrationWindow (tenant va toIsl : Nat) (s : State) : Result :=
  happen s <|
    match walk s tenant va with
    | .leaf e =>
      let n := pageBytes e.size
      let w := s.now / 200000
      let due := migrates (pageTouches s e toIsl w) || (w ≠ 0 && migrates (pageTouches s e toIsl (w - 1)))
      if 32 ≤ e.isl ∨ e.isl = toIsl ∨ 64 * 2 ^ 20 < n ∨ !(s.isl toIsl).live ∨ !due ∨ pagePinned s tenant e ∨
          (lockedBy s e.frame).isSome then none
      else
        (takeFrame (recallPage s e.isl e.frame n) toIsl n).map fun r =>
          let m : Migration := { tenant := tenant, va := 4096 * e.page, size := n, src := e.frame, dst := r.1 }
          { r.2 with
            pcp := { r.2.pcp with migrations := r.2.pcp.migrations.put r.2.uid m }
            uid := r.2.uid + 1 }
    | _ => none

/-- A physical address at its new home. -/
def Migration.move (m : Migration) (pa : Nat) : Nat := if m.src ≤ pa && pa < m.src + m.size then m.dst + (pa - m.src) else pa

/-- The page's bytes lie in their new frame. -/
def moveBytes (s : State) (m : Migration) : State :=
  let inside := s.mem.filter fun c => m.src ≤ c.1 && c.1 < m.src + m.size
  let s := { s with mem := s.mem.filter fun c => !(m.src ≤ c.1 && c.1 < m.src + m.size) }
  inside.foldl (fun s c => s.wr (m.move c.1) [c.2]) s

/-- The entries of the page, and what they hold. -/
def Migration.entries (m : Migration) (s : State) : List Nat × Nat :=
  match leafEntry s m.va 5 (s.tenant m.tenant).ptroot with
  | none => ([], 0)
  | some (pte, (level, x)) => (pteGroup pte level (natBits x 10 7), x)
/-- The page's entries name the new home (R215). -/
def moveEntry (s : State) (m : Migration) : State :=
  let (as, x) := m.entries s
  let y := m.dst / 2 ^ 39 * 2 ^ 59 + m.dst % 2 ^ 39 / 2 ^ 11 * 2 ^ 11 + x % 2 ^ 11
  as.foldl (fun s a => homeWrite s none none none a (leBytes 8 y)) s

/-- Accesses in flight, held writes and log records of the page go to its new home (R216). -/
def moveAccesses (s : State) (m : Migration) : State :=
  let logged := (s.isl (m.src / 2 ^ 39)).log.filter fun r => m.move r.sector ≠ r.sector
  let s := s.updIsl (m.src / 2 ^ 39) fun i => { i with log := i.log.filter fun r => m.move r.sector = r.sector }
  let s := s.updIsl (m.dst / 2 ^ 39) fun i => { i with
    log := logged.map (fun r => { r with sector := m.move r.sector }) ++ i.log }
  let global (o : Op) : Bool := o.kind.space = .global
  { s with
    ops := s.ops.mapVals fun _ o =>
      if global o then
        { o with accs := o.accs.map fun a => { a with addr := m.move a.addr }
                 ctrs := o.ctrs.map fun a => { a with addr := m.move a.addr }
                 adds := o.adds.map fun a => { a with pa := m.move a.pa } }
      else o
    pkts := s.pkts.mapVals fun _ p => { p with pa := m.move p.pa }
    held := s.held.map fun h => { h with pa := m.move h.pa } }

/-- A migration is given up: its frame goes free, and what was held is performed at the old home, in its order (log 42). -/
def giveUp (s : State) (mig : Nat) (m : Migration) : State :=
  let s := (dropFrame s m.dst).updPcp fun p => { p with migrations := p.migrations.put mig { m with dst := m.src, done := true } }
  clearLocks s

/-- MIGRATION_COPY_DONE (R215): what watches or has read the old lines is woken or aborted, the entry is rewritten and
invalidated, and the held accesses go on at the new home; the locks clear with the last held write. A page that a kernel has
come to keep where it is does not move (R60). -/
def execMigrationCopyDone (mig : Nat) (s : State) : Result :=
  happen s <|
    (s.pcp.migrations.find? mig).bind fun m =>
      let lines := ((s.teams.map fun ut => match ut.2.tx with
          | some x => x.reads ++ x.w.lines
          | none => []).flatten ++ SMap.keys (s.isl (m.src / 2 ^ 39)).crumbs).dedup.filter
        fun l => m.src ≤ l * 128 && l * 128 < m.src + m.size
      let stays := match walk s m.tenant m.va with
        | .leaf e => pagePinned s m.tenant e
        | _ => true
      if m.done then none
      else if stays then some (giveUp s mig m)
      else if lines.any (fun l => irrevHolds s none true l) || (m.entries s).1.any fun a => writeHeld s s.uid a 8 then none
      else
        let s := lines.foldl (fun s l => changeLine (conflictOn s none true l) l) s
        let s := moveEntry (moveBytes s m) m
        let s := invalidate s m.tenant m.va m.size
        let s := moveAccesses s m
        let s := s.updPcp fun p => { p with
          migrations := p.migrations.put mig { m with done := true }
          touches := p.touches.filter fun kt => !(m.src / 4096 ≤ kt.1 && kt.1 < (m.src + m.size) / 4096)
          reached := p.reached.map fun r => (r.1, m.move (4096 * r.2) / 4096) }
        some (clearLocks (dropFrame (forgetRange s m.src m.size) m.src))

/-! ## The host's accesses -/

/-- The physical pieces of a host access, creating demand pages (R59); `none` where a page is not mapped. -/
def hostPieces (s : State) (tenant : Nat) : List (Nat × Nat) → Option (List (Nat × Nat)) × State
  | [] => (some [], s)
  | (va, n) :: rest =>
    match pcpTouch s tenant va with
    | (.leaf e, s) =>
      match hostPieces s tenant rest with
      | (some ps, s) => (some ((e.pa va, n) :: ps), s)
      | r => r
    | (_, s) => (none, s)

/-- The host's bytes reach their homes, or stand held there (R216, R328). -/
def hostWrite (s : State) : List (Nat × Nat) → List Byte → State
  | [], _ => s
  | (pa, n) :: rest, bs => hostWrite (writeWhenFree (touch s pa none) pa (bs.take n)) rest (bs.drop n)
/-- Whether a range touches a page that the PCP maps and alone writes: the topology table, a mirror line (R54, R355). -/
def pcpPage (s : State) (tenant : Nat) (ps : List (Nat × Nat)) : Bool :=
  ps.any fun p => match walk s tenant p.1 with
    | .leaf e => !e.w && specialPage s tenant p.1 = some e
    | _ => false

/-- HOST_MEMORY_ACCESS: an access of the host to a tenant's memory is performed at its home (R204, R208, R321, R330); a
write that a migration or an irrevocable attempt holds stands held there. -/
def execHostMemoryAccess (tenant va : Nat) (acc : HostAcc) (s : State) : Result :=
  hostTakes s false <|
    let n := match acc with
      | .read n => n
      | .write bs => bs.length
    match hostPieces s tenant (pieces va n) with
    | (none, s) => some s
    | (some ps, s) =>
      match acc with
      | .read _ => if piecesHeld s false ps then none else some (readPieces s ps).2
      | .write bs => some (if pcpPage s tenant (pieces va n) then s else hostWrite s ps bs)

end Sys2Proof.Machine
end

