-- ==== Sys2Proof/Machine/Platform.lean ====
section
/-! DEFINITION. The platform (27_platform): clocks and heat, boot, attestation, reset, and the registers of BAR0 that the
host writes. -/

namespace Sys2Proof.Machine

/-! ## The event ring (R51, R52) -/

/-- EQHEAD_WRITE (R52): ignored where the ring would hold more than its entries. -/
def execEqheadWrite (x : DWord) (s : State) : Result :=
  hostTakes s false <|
    let head := natBits x.toNat 31 0
    if 2 ^ s.host.eqSize < (s.host.eqTail + 2 ^ 32 - head) % 2 ^ 32 then none
    else some (s.updHost fun h => { h with eqHead := head })

/-- EQ_RING_WRITE: EQSIZE or EQBASE; HEAD and TAIL become 0. -/
def execEqRingWrite (size : Bool) (x : DWord) (s : State) : Result :=
  hostTakes s false <| some <| s.updHost fun h =>
    { h with
      eqBase := if size then h.eqBase else natBits x.toNat 63 12 * 2 ^ 12
      eqSize := if size then natBits x.toNat 4 0 else h.eqSize
      eqHead := 0
      eqTail := 0 }

/-- EQLOST_WRITE: any value sets it to 0. -/
def execEqlostWrite (_x : DWord) (s : State) : Result :=
  hostTakes s false (some (s.updHost fun h => { h with eqLost := 0 }))

/-! ## Clocks and heat (R412, R413) -/

/-- A reading of the sensors. -/
def sense (s : State) (isl : Option Nat) (watts celsius : Nat) : State :=
  match isl with
  | some d => if d < s.panel.nIsl then s.updIsl d fun i => { i with draw := watts, heat := celsius, acted := false } else s
  | none => { s with
      panel := { s.panel with draw := watts }
      isls := s.isls.mapVals fun _ i => { i with acted := false } }
/-- What the panel draws, in watts. -/
def panelDraw (s : State) : Nat := s.panel.draw + (s.isls.map fun i => i.2.draw).sum
/-- An island draws more than its limit (Table 27-1), the panel more than PWRLIM, or the island stands at 95 °C. -/
def tooMuch (s : State) (isl : Nat) : Bool :=
  1500 < (s.isl isl).draw || s.host.pwrLim * 100 < panelDraw s || 95 ≤ (s.isl isl).heat
/-- The draws have fallen 5% below both limits, and the island is below 95 °C. -/
def littleEnough (s : State) (isl : Nat) : Bool :=
  (s.isl isl).draw ≤ 1425 && panelDraw s ≤ s.host.pwrLim * 95 && (s.isl isl).heat < 95

/-- CLOCK_STEP: 100 MHz down, to 1.0 GHz, or up, to 2.0 GHz, once for each reading that asks for it (log 78). -/
def execClockStep (isl : Nat) (raise : Bool) (s : State) : Result :=
  happen s <|
    let i := s.isl isl
    let asked := if raise then i.clock < 20 && littleEnough s isl else 10 < i.clock && tooMuch s isl
    if !i.live || i.acted || !asked then none
    else
      let c := if raise then i.clock + 1 else i.clock - 1
      some ((s.updIsl isl fun i => { i with clock := c, acted := true }).event 0x30 0 0 0 0 (isl + c * 2 ^ 8) 0)

/-- THERMAL_STOP: the island stops and is handled as failed. -/
def execThermalStop (isl : Nat) (s : State) : Result :=
  happen s <| if (s.isl isl).live then some (clocks (islandFails s isl)) else none

/-! ## Reset (R416) -/

/-- Islands that logged an uncorrectable error since the last reset. -/
def scrubList (s : State) : List Nat := (List.range s.panel.nIsl).filter fun d => (s.isl d).ueSeen
/-- PSTAT.SCRUBBED, or another set of islands as bits. -/
def islBits (ds : List Nat) : Nat := (ds.map fun d => 2 ^ d).sum
/-- The areas that kernels, crews and replicas hold are free again. -/
def freeAreas (s : State) : State :=
  let s := s.kernels.foldl (fun s uk => match uk.2.ovfPa with
    | some pa => dropFrame s pa
    | none => s) s
  let s := s.crews.foldl (fun s uc => match uc.2.mirror with
    | some pa => dropFrame s (pa / 4096 * 4096)
    | none => s) s
  dropReplicas s fun _ => true

/-- What every reset leaves: no work, no copies, and of the links those that are down. -/
def cleared (s : State) (host : HostRegs) (mem : List Host.Cell) (isls : SMap Island) : State :=
  { State.reset with
    panel := { s.panel with lit := 2 ^ 20 - 1, dark := 0 }
    host := host
    pcp := { handles := s.pcp.handles }
    mem := mem
    hostMem := s.hostMem
    links := SMap.mapVals (s.links.filter fun l => l.2.lstate = 3) fun _ l => { lstate := 3, lit := l.lit }
    isls := isls
    inbox := s.inbox
    tick := s.tick
    uid := s.uid
    now := s.now }

/-- A warm reset (Table 27-4): boot goes on at stage 3, or, where a cold boot has not come that far, at its own stage: an
image that has not been verified does not run (R414; log 38). -/
def warmly (s : State) : State :=
  let s := freeAreas s
  let ds := scrubList s
  let early := s.host.stage < 3
  let host : HostRegs :=
    { scrubbed := islBits ds, stage := min s.host.stage 3, recovery := s.host.recovery, warm := true
      stuck := early && s.host.stuck, firmware := s.host.firmware
      reqAddr := s.host.reqAddr, reqPort := s.host.reqPort, wlogsz := s.host.wlogsz, pwrLim := s.host.pwrLim }
  let isls := s.isls.mapVals fun d i =>
    { ({} : Island) with frames := i.frames, poison := if ds.contains d then [] else i.poison }
  cleared s host (s.mem.filter fun c => !(c.1 < topoBase && ds.contains (c.1 / 2 ^ 39))) isls

/-- PWRLIM's reset value, the most it takes (Table 27-5, R417). -/
def Panel.pwrMax (p : Panel) : Nat := if p.gradeB then 385 else 400

/-- A cold reset: boot runs from stage 1. The topology table stands until stage 4 builds it again: SITE and CORES change
only at power-on (R54, R395). -/
def coldly (s : State) : State :=
  { cleared s { stage := 1, pwrLim := s.panel.pwrMax } (s.mem.filter fun c => topoBase ≤ c.1) [] with links := [] }

/-- WARM_RESET. -/
def execWarmReset (s : State) : Result := hostTakes s true (some (warmly s))
/-- COLD_RESET. -/
def execColdReset (s : State) : Result := hostTakes s true (some (coldly s))
/-- POWER_ON (R414): no table stands, and its GEN is 0. -/
def execPowerOn (s : State) : Result :=
  .next { coldly s with mem := [], panel := { (coldly s).panel with gen := 0 } }

/-! ## Boot (R414) -/

/-- An end of a link after training: up with every wavelength lit between live islands, down otherwise. -/
def trainedEnd (s : State) (isl port : Nat) : Link :=
  if !hasPort s isl port then {}
  else if standing s isl && (s.panel.peer isl port).any fun jq => standing s jq.1 then
    { lstate := 1, lit := 2 ^ 16 - 1, since := s.now, period := s.now / 2048, window := s.now / 131072 }
  else { lstate := 3 }

/-- Every link is trained and the table is built; a link that leaves LSTATE 3, or enters it, is reported (R266). -/
def trainLinks (s : State) : State :=
  let ends := linkEnds s
  let t := ends.foldl (fun m dp => m.updLink dp.1 dp.2 fun _ => trainedEnd s dp.1 dp.2) { s with links := [], lanes := [] }
  topologyUpdate (ends.foldl (fun m dp =>
    let l := s.link dp.1 dp.2
    let l' : Link := State.link t dp.1 dp.2
    if (l.lstate = 3 ∧ l'.lstate ≠ 3) ∨ (l.lstate ≠ 3 ∧ l'.lstate = 3) then
      fabricEvent m { kind := 0x19, isl := dp.1, port := dp.2, oldWl := l.wl }
    else m) t)

/-- An image is verified: its signature over its SM3 digest is good under the fused key (R414). -/
def verifies (image : BootImage) : Bool := Config.sm2Verifies Config.fusedKey (Config.sm3 image.bytes) image.sig

/-- BOOT_STAGE: the running stage completes; the next runs where its image is verified.
Stage 3 loads the repair maps. Islands that fail stage 3 or 4 are not LIVE. -/
def execBootStage (image : BootImage) (failed : List Nat) (s : State) : Result :=
  happen s <|
    let k := s.host.stage
    if s.host.ready || s.host.stuck || k = 0 || 5 < k then none
    else
      let s := if k ≠ 3 then s else (List.range s.panel.nIsl).foldl (fun s d =>
        s.updIsl d fun i => { i with live := !failed.contains d, repair := SMap.get [] s.panel.repair d }) s
      let s := if k ≠ 4 then s else trainLinks ((List.range s.panel.nIsl).foldl (fun s d =>
        s.updIsl d fun i => { i with live := i.live && !failed.contains d }) s)
      some <| s.updHost fun h =>
        if k = 5 then { h with ready := true }
        else
          let h := if k < 3 then { h with firmware := h.firmware.put (k + 1) (Config.sm3 image.bytes) } else h
          if verifies image then { h with stage := k + 1 } else { h with recovery := true, stuck := true }

/-! ## Attestation (R415) -/

/-- PSTAT (Table 27-5). -/
def HostRegs.pstat (h : HostRegs) : Nat :=
  h.scrubbed * 2 ^ 32 + h.stage * 2 ^ 4 + (if h.recovery then 8 else 0) + (if h.warm then 4 else 0)
    + (if h.ready then 1 else 0)

/-- The digest of the firmware of a boot stage. -/
def firmwareDigest (s : State) (stage : Nat) : BitVec 256 := (s.host.firmware.find? stage).getD (Config.unread stage)
/-- Bytes 0 to 191 of the report (Table 27-3). -/
def attestBody (s : State) : List Byte :=
  (List.range 32).map (fun i => SMap.get 0 s.host.attNonce i)
    ++ leBytes 32 (firmwareDigest s 2).toNat ++ leBytes 32 (firmwareDigest s 3).toNat
    ++ leBytes 8 Config.serial.toNat ++ leBytes 1 s.panel.gradeCode ++ leBytes 7 0 ++ leBytes 16 s.host.pstat
    ++ leBytes 64 Config.identityKey.toNat
/-- The report: its first 192 bytes, and the signature over their digest. -/
def attestReport (s : State) : List Byte :=
  attestBody s ++ leBytes 64 (Config.sm2Sign s.tick (Config.sm3 (attestBody s))).toNat

/-- ATTEST: GO is written. -/
def execAttest (s : State) : Result :=
  hostTakes s true <| if s.host.attGo then none else some (s.updHost fun h => { h with attGo := true })

/-- ATTEST_DONE: the report is written and GO reads 0. -/
def execAttestDone (s : State) : Result :=
  happen s <|
    if !s.host.attGo then none
    else
      let bs := attestReport s
      some (s.updHost fun h => { h with
        attGo := false
        attReport := ((List.range 256).zip bs).foldl (fun m ib => SMap.set 0 m ib.1 ib.2) [] })

/-! ## Management registers (R417) -/

/-- Whether any tenant is enabled. -/
def anyEnabled (s : State) : Bool := s.tenants.any fun t => t.2.enable

/-- The bytes of a word stored in a register of bytes. -/
def putWord (m : SMap Byte) (off : Nat) (x : DWord) : SMap Byte :=
  ((List.range 8).zip (leBytes 8 x.toNat)).foldl (fun m ib => SMap.set 0 m (off + ib.1) ib.2) m

/-- A write of a management register that takes effect; `none` where it is ignored or changes nothing. -/
def mgmtWrite (s : State) (off : Nat) (x : DWord) : Option State :=
  let v := x.toNat
  let free := !anyEnabled s
  match off with
  | 0x308 => if v / 2 % 2 = 1 then some (coldly s) else if v % 2 = 1 then some (warmly s) else none
  | 0x310 => if free then some (s.updHost fun h => { h with reqAddr := (h.reqAddr >>> 64) <<< 64 ||| x.setWidth 128 }) else none
  | 0x318 => if free then some (s.updHost fun h => { h with
      reqAddr := (h.reqAddr <<< 64) >>> 64 ||| (x.setWidth 128) <<< 64 }) else none
  | 0x320 => if free then some (s.updHost fun h => { h with reqPort := v % 2 ^ 16 }) else none
  | 0x328 =>
    let n := v % 2 ^ 8
    if free ∧ (n = 0 ∨ (20 ≤ n ∧ n ≤ 34)) then some (s.updHost fun h => { h with wlogsz := n }) else none
  | 0x330 => if v % 2 ^ 9 ≤ s.panel.pwrMax then some (s.updHost fun h => { h with pwrLim := v % 2 ^ 9 }) else none
  | 0x360 => if s.host.attGo ∨ v % 2 = 0 then none else some (s.updHost fun h => { h with attGo := true })
  | _ =>
    if 0x340 ≤ off ∧ off < 0x360 ∧ off % 8 = 0 ∧ !s.host.attGo then
      some (s.updHost fun h => { h with attNonce := putWord h.attNonce (off - 0x340) x })
    else none

/-- MGMT_REGISTER_WRITE (R417). -/
def execMgmtRegisterWrite (off : Nat) (x : DWord) (s : State) : Result := hostTakes s true (mgmtWrite s off x)

/-! ## Every other register (R5, R6, R41) -/

/-- A write of a queue's register (Table 3-3). -/
def queueRegWrite (q r : Nat) (x : DWord) (s : State) : Result :=
  match r with
  | 0x00 => execQcfgWrite q x s
  | 0x08 => hostTakes s false (some (s.updQueue q fun y => { y with key := x }))
  | 0x10 => hostTakes s false (if (s.queue q).enable then none
      else some (s.updQueue q fun y => { y with expect := x.toNat % 2 ^ 32 }))
  | 0x18 => hostTakes s false (some (s.updQueue q fun y => { y with statVa := natBits x.toNat 55 3 * 8 }))
  | 0x20 => if x.toNat % 2 = 1 then execReleaseHeld q s else .next s
  | _ => .next s

/-- A write of a tenant's register (Tables 3-5, 11-5, 20-5). -/
def tenantRegWrite (t r : Nat) (x : DWord) (s : State) : Result :=
  match r with
  | 0x00 => execTcfgWrite t x s
  | 0x08 => execPtrootWrite t x s
  | 0x10 =>
    match preemptActs x with
    | (true, true) => .next s
    | (true, false) => execPreemptStop t x s
    | (false, true) => execPreemptResume t x s
    | (false, false) => hostTakes s false (some (preemptFields s t x))
  | 0x18 => hostTakes s false (some (s.updTenant t fun y => { y with trapRing := natBits x.toNat 55 14 * 2 ^ 14 }))
  | 0x20 =>
    match natBits x.toNat 33 32 with
    | 1 => execCrewctlResume t (x.setWidth 32) s
    | 2 => execCrewctlEnd t (x.setWidth 32) s
    | 3 => execCrewctlRollback t (x.setWidth 32) s
    | _ => .next s
  | 0x28 => if x.toNat % 2 = 1 then execTenantReset t s else .next s
  | _ => .next s

/-- A write of TLBINV's range (Table 11-7). -/
def tlbRangeWrite (x : DWord) (s : State) : Result :=
  hostTakes s false <|
    if s.host.tlbGo then none
    else some (s.updHost fun h => { h with
      tlbRange := natBits x.toNat 55 12 * 2 ^ 12 + natBits x.toNat 11 8 * 2 ^ 8 + natBits x.toNat 5 0 })

/-- REGISTER_WRITE: an 8-byte write at an offset of BAR0; reserved offsets and read-only registers keep their values. -/
def execRegisterWrite (off : Nat) (x : DWord) (s : State) : Result :=
  if off % 8 ≠ 0 then .next s
  else if 0x100000 ≤ off ∧ off < 0x120000 then queueRegWrite ((off - 0x100000) / 0x40) (off % 0x40) x s
  else if 0x080000 ≤ off ∧ off < 0x081000 then tenantRegWrite ((off - 0x080000) / 0x40) (off % 0x40) x s
  else if 0x300000 ≤ off ∧ off < 0x300000 + 0x4000 * s.panel.nIsl then
    execGroupTableWrite ((off - 0x300000) / 0x4000) (off % 0x4000 / 64) (off % 64 / 8) x s
  else
    match off with
    | 0x100 => execEqRingWrite false x s
    | 0x108 => execEqRingWrite true x s
    | 0x110 => execEqheadWrite x s
    | 0x120 => execEqlostWrite x s
    | 0x200 => tlbRangeWrite x s
    | 0x208 => execTlbinvGo x s
    | 0x210 => execFaultreply x s
    | _ => execMgmtRegisterWrite off x s

/-! ## What the host reads (R5, R42) -/

def bit (b : Bool) : Nat := if b then 1 else 0
/-- A queue's registers (Table 3-3). QKEY reads 0, and RELEASE_HELD reads 0: its write is done in one step. -/
def queueRead (s : State) (q r : Nat) : Nat :=
  let x := s.queue q
  match r with
  | 0x00 => x.weight * 2 ^ 24 + x.level * 2 ^ 16 + x.tenant * 2 ^ 10 + bit x.eth * 2 + bit x.enable
  | 0x10 => x.expect
  | 0x18 => x.statVa
  | 0x28 => x.status.toNat
  | _ => 0
/-- A tenant's registers (Tables 3-5, 11-5, 20-6 and PREEMPT). CREWCTL reads 0. -/
def tenantRead (s : State) (t r : Nat) : Nat :=
  let x := s.tenant t
  match r with
  | 0x00 => x.hbmw * 2 ^ 8 + bit x.enable
  | 0x08 => x.ptroot
  | 0x10 => x.preIsls * 2 ^ 32 + bit x.preMode * 2 ^ 8 + bit x.preResume * 2 + bit x.preStop
  | 0x18 => x.trapRing
  | 0x28 => bit x.treset
  | _ => 0
/-- The 8 bytes of a map of bytes at an offset. -/
def wordOf (m : SMap Byte) (off : Nat) : Nat := leNat ((List.range 8).map fun i => SMap.get 0 m (off + i))
/-- The other registers (Tables 3-9, 11-7, 11-8 and 27-5). -/
def hostRead (s : State) (off : Nat) : Nat :=
  let h := s.host
  match off with
  | 0x100 => h.eqBase
  | 0x108 => h.eqSize
  | 0x110 => h.eqHead
  | 0x118 => h.eqTail
  | 0x120 => h.eqLost
  | 0x200 => h.tlbRange
  | 0x208 => bit h.tlbAll * 2 + bit h.tlbGo
  | 0x210 => bit h.replyFail * 2 ^ 32 + h.replyIsl * 2 ^ 16
  | 0x300 => h.pstat
  | 0x310 => h.reqAddr.toNat % 2 ^ 64
  | 0x318 => h.reqAddr.toNat / 2 ^ 64
  | 0x320 => h.reqPort
  | 0x328 => h.wlogsz
  | 0x330 => h.pwrLim
  | 0x360 => bit h.attGo
  | _ => if 0x340 ≤ off ∧ off < 0x360 then wordOf h.attNonce (off - 0x340) else 0

/-- The queue and the window offset that an offset of BAR2 names (R35). -/
def bar2Window (off : Nat) : Nat × Nat := (off / 0x10000, off % 0x10000)
/-- An 8-byte read at an offset of BAR2 (Table 3-1): slots and reserved offsets read 0. -/
def bar2Read (s : State) (off : Nat) : Nat :=
  let (q, r) := bar2Window off
  match r with
  | 0x8000 => (s.queue q).status.toNat
  | 0x8008 => (s.queue q).expect
  | _ => 0
/-- A write of one TLP at an offset of BAR2. -/
def bar2Write (off : Nat) (bytes : List Byte) (s : State) : Result :=
  let (q, r) := bar2Window off
  execRecordWindowWrite q r bytes s

/-- An 8-byte read at an offset of BAR0. A read changes nothing, so it is no step; reserved offsets read 0 (R6). -/
def bar0Read (s : State) (off : Nat) : Nat :=
  if 0x100000 ≤ off ∧ off < 0x120000 then queueRead s ((off - 0x100000) / 0x40) (off % 0x40)
  else if 0x080000 ≤ off ∧ off < 0x081000 then tenantRead s ((off - 0x080000) / 0x40) (off % 0x40)
  else if 0x300000 ≤ off ∧ off < 0x300000 + 0x4000 * s.panel.nIsl then
    (SMap.get 0 s.groupTab ((off - 0x300000) / 8)).toNat
  else if 0x200000 ≤ off ∧ off < 0x202000 then memNat s.mem (topoBase + (off - 0x200000)) 8
  else if 0x1000 ≤ off ∧ off < 0x1100 then wordOf s.host.attReport (off - 0x1000)
  else hostRead s off

end Sys2Proof.Machine
end

