-- ==== Sys2Proof/Machine/Scalar.lean ====
section
/-! DEFINITION. Scalar integer arithmetic (R142 to R144) and the register moves of team scope: SETIX, SETFMT, GETFMT
(R147, R148). -/

namespace Sys2Proof.Machine

/-- A scalar operation: sD, or the pair, receives `f` of the sources read in the type (R122, R143). -/
def scalarOp (s : State) (t : ITy) (d : SReg) (f : Issuer → Nat) : Result :=
  issue s fun x => step8 s x { x.t with regs := x.t.regs.ssetN d.toNat t.regs (f x) } 1
/-- A two-source scalar operation. -/
def scalar2Op (s : State) (t : ITy) (d : SReg) (a b : Operand) (op : IntOp) : Result :=
  scalarOp s t d fun x => op t.elem.sgn t.elem.w (srcVal s x t.elem 0 a) (srcVal s x t.elem 0 b)
/-- A scalar operation with an immediate as second source (R81). -/
def scalarImmOp (s : State) (t : ITy) (d : SReg) (a : Operand) (imm : Nat) (op : IntOp) : Result :=
  scalarOp s t d fun x => op t.elem.sgn t.elem.w (srcVal s x t.elem 0 a) imm
/-- A scalar shift: the count is the low register, unsigned (R143). -/
def scalarShift (s : State) (t : ITy) (d : SReg) (a b : Operand) (op : IntOp) : Result :=
  scalarOp s t d fun x => op t.elem.sgn t.elem.w (srcVal s x t.elem 0 a) (srcVal s x t.elem 0 b % 2 ^ 32)

/-- SMOV (R142). -/
def execSmov (t : ITy) (d : SReg) (a : Operand) (s : State) : Result := scalarOp s t d fun x => srcVal s x t.elem 0 a
/-- SMOVI (R142). -/
def execSmovi (t : ITy) (d : SReg) (imm : BitVec 24) (s : State) : Result := scalarOp s t d fun _ => immArith t imm
/-- SMOVH (R142). -/
def execSmovh (d : SReg) (imm : BitVec 24) (s : State) : Result :=
  scalarOp s .n32 d fun x => imm.toNat * 2 ^ 8 + (x.t.regs.sget d.toNat).toNat % 2 ^ 8

/-- SADD (Table 8-8). -/
def execSadd (t : ITy) (d : SReg) (a b : Operand) (s : State) : Result := scalar2Op s t d a b iAdd

/-- SADD with an immediate (R81). -/
def execSaddImm (t : ITy) (d : SReg) (a : Operand) (imm : BitVec 24) (s : State) : Result :=
  scalarImmOp s t d a (immArith t imm) iAdd

/-- SSUB (Table 8-8). -/
def execSsub (t : ITy) (d : SReg) (a b : Operand) (s : State) : Result := scalar2Op s t d a b iSub

/-- SSUB with an immediate (R81). -/
def execSsubImm (t : ITy) (d : SReg) (a : Operand) (imm : BitVec 24) (s : State) : Result :=
  scalarImmOp s t d a (immArith t imm) iSub

/-- SMUL (Table 8-8). -/
def execSmul (t : ITy) (d : SReg) (a b : Operand) (s : State) : Result := scalar2Op s t d a b iMul

/-- SMUL with an immediate (R81). -/
def execSmulImm (t : ITy) (d : SReg) (a : Operand) (imm : BitVec 24) (s : State) : Result :=
  scalarImmOp s t d a (immArith t imm) iMul

/-- SMULH (Table 8-8). -/
def execSmulh (t : ITy) (d : SReg) (a b : Operand) (s : State) : Result := scalar2Op s t d a b iMulh

/-- SDIV (Table 8-8). -/
def execSdiv (t : ITy) (d : SReg) (a b : Operand) (s : State) : Result := scalar2Op s t d a b iDiv

/-- SREM (Table 8-8). -/
def execSrem (t : ITy) (d : SReg) (a b : Operand) (s : State) : Result := scalar2Op s t d a b iRem

/-- SAND (Table 8-8). -/
def execSand (t : ITy) (d : SReg) (a b : Operand) (s : State) : Result := scalar2Op s t d a b iAnd

/-- SAND with an immediate (R81). -/
def execSandImm (t : ITy) (d : SReg) (a : Operand) (imm : BitVec 24) (s : State) : Result :=
  scalarImmOp s t d a (immLogic imm) iAnd

/-- SOR (Table 8-8). -/
def execSor (t : ITy) (d : SReg) (a b : Operand) (s : State) : Result := scalar2Op s t d a b iOr

/-- SOR with an immediate (R81). -/
def execSorImm (t : ITy) (d : SReg) (a : Operand) (imm : BitVec 24) (s : State) : Result :=
  scalarImmOp s t d a (immLogic imm) iOr

/-- SXOR (Table 8-8). -/
def execSxor (t : ITy) (d : SReg) (a b : Operand) (s : State) : Result := scalar2Op s t d a b iXor

/-- SXOR with an immediate (R81). -/
def execSxorImm (t : ITy) (d : SReg) (a : Operand) (imm : BitVec 24) (s : State) : Result :=
  scalarImmOp s t d a (immLogic imm) iXor

/-- SMIN (Table 8-8). -/
def execSmin (t : ITy) (d : SReg) (a b : Operand) (s : State) : Result := scalar2Op s t d a b iMin

/-- SMIN with an immediate (R81). -/
def execSminImm (t : ITy) (d : SReg) (a : Operand) (imm : BitVec 24) (s : State) : Result :=
  scalarImmOp s t d a (immArith t imm) iMin

/-- SMAX (Table 8-8). -/
def execSmax (t : ITy) (d : SReg) (a b : Operand) (s : State) : Result := scalar2Op s t d a b iMax

/-- SMAX with an immediate (R81). -/
def execSmaxImm (t : ITy) (d : SReg) (a : Operand) (imm : BitVec 24) (s : State) : Result :=
  scalarImmOp s t d a (immArith t imm) iMax

/-- SSHL (Table 8-8). -/
def execSshl (t : ITy) (d : SReg) (a b : Operand) (s : State) : Result := scalarShift s t d a b iShl

/-- SSHL with an immediate (R81). -/
def execSshlImm (t : ITy) (d : SReg) (a : Operand) (imm : BitVec 24) (s : State) : Result :=
  scalarImmOp s t d a (immLogic imm) iShl

/-- SSHR (Table 8-8). -/
def execSshr (t : ITy) (d : SReg) (a b : Operand) (s : State) : Result := scalarShift s t d a b iShr

/-- SSHR with an immediate (R81). -/
def execSshrImm (t : ITy) (d : SReg) (a : Operand) (imm : BitVec 24) (s : State) : Result :=
  scalarImmOp s t d a (immLogic imm) iShr

/-- SSRA (Table 8-8). -/
def execSsra (t : ITy) (d : SReg) (a b : Operand) (s : State) : Result := scalarShift s t d a b iSra

/-- SSRA with an immediate (R81). -/
def execSsraImm (t : ITy) (d : SReg) (a : Operand) (imm : BitVec 24) (s : State) : Result :=
  scalarImmOp s t d a (immLogic imm) iSra

/-- SCMP (R144). -/
def execScmp (t : ITy) (cc : Cc) (d : SReg) (a b : Operand) (s : State) : Result :=
  scalar2Op s t d a b fun sg w a b => if cc.holds (ival sg w a) (ival sg w b) then 1 else 0
/-- SSEL (Table 8-8): a if c is not 0. -/
def execSsel (t : ITy) (d : SReg) (a b c : Operand) (s : State) : Result :=
  scalarOp s t d fun x => if srcVal s x t.elem 0 c ≠ 0 then srcVal s x t.elem 0 a else srcVal s x t.elem 0 b
/-- SBFE (Table 8-8). -/
def execSbfe (t : ITy) (d : SReg) (a b : Operand) (s : State) : Result :=
  scalar2Op s t d a b fun sg w a b => bitExtract sg w a (b % 2 ^ 32)
/-- SBFI (Table 8-8). -/
def execSbfi (t : ITy) (d : SReg) (a b c : Operand) (s : State) : Result :=
  scalarOp s t d fun x => bitInsert t.elem.w (srcVal s x t.elem 0 a) (srcVal s x t.elem 0 b) (srcVal s x t.elem 0 c % 2 ^ 32)
/-- SPOPC (Table 8-8). -/
def execSpopc (t : ITy) (d : SReg) (a : Operand) (s : State) : Result :=
  scalarOp s t d fun x => popcount t.elem.w (srcVal s x t.elem 0 a)
/-- SCLZ (Table 8-8). -/
def execSclz (t : ITy) (d : SReg) (a : Operand) (s : State) : Result :=
  scalarOp s t d fun x => clz t.elem.w (srcVal s x t.elem 0 a)

end Sys2Proof.Machine
end

