-- ==== Sys2Proof/Machine/Txn.lean ====
section
/-! DEFINITION. Transactions: TXB, TXO, TXE, TXR, TXA, TXS (R323 to R342), the irrevocable token and the wake of a team
(R328, R332). -/

namespace Sys2Proof.Machine

/-- A team asks for its island's irrevocable token, once (R328). -/
def askToken (s : State) (x : Issuer) : State :=
  if x.t.txs.asked then s
  else
    (s.updTeam x.u fun t => { t with txs := { t.txs with asked := true } }).updIsl x.c.isl fun i =>
      { i with tokenAsk := i.tokenAsk ++ [x.u] }

/-- TXB (R338): it opens a transaction with the restart point of R323; at 16 conflicts in a row it first asks for the
island's irrevocable token and is held until it has it (R328). -/
def execTxb (disp : BitVec 24) (s : State) : Result :=
  issue s fun x =>
    let target := branchTarget x disp
    if x.t.tx.isSome then charge (abortTx s x.u .nest) x 1
    else if !inCode s x target then raiseTeam s x .spacebound (offsetAddr target)
    else if x.t.cnt.ld ≠ 0 ∨ x.t.cnt.st ≠ 0 then s
    else
      let mine := decide ((s.isl x.c.isl).token = some x.u)
      if 16 ≤ x.t.txs.conflicts ∧ !mine then askToken s x
      else
        let code := if x.t.txs.again then x.t.txs.code else .none
        step8 (l1Acquire s x.c.key) x { x.t with
          tx := some { restart := x.t.flow, abortPath := target.toNat, irrev := mine, opened := s.now }
          txs := { x.t.txs with code := code, again := false, asked := false } } 1

/-- TXO (R326, R339): a target with a checkpoint of the write set; a fifth aborts with NEST. -/
def execTxo (disp : BitVec 24) (s : State) : Result :=
  issue s fun x =>
    match x.t.tx with
    | none => step8 s x x.t 1
    | some tx =>
      let target := branchTarget x disp
      if target < 0 ∨ (x.k.image.codeBytes : Int) ≤ target then raiseTeam s x .spacebound (offsetAddr target)
      else if !inCode s x target then forbid s x
      else if 4 ≤ tx.alts.length then charge (abortTx s x.u .nest) x 1
      else step8 s x { x.t with tx := some { tx with alts := (target.toNat, tx.w) :: tx.alts } } 1

/-! ## Commit (R318, R340) -/

/-- The buffered bytes of one line reach the home: logged unless an atomic wrote them, and a change to the line. -/
def commitLine (s : State) (u : Nat) (tag : Option SpanTag) (w : TxWrites) (line : Nat) : State :=
  let mine := w.bytes.filter fun ab => lineOf ab.1 = line
  let s := mine.foldl (fun s ab => reachLine s (some u) true false ab.1 1 line) s
  let s := invalidateOthers s line none
  let s := mine.foldl (fun s ab => if w.atomics.contains ab.1 then s else logWrite s tag ab.1 1) s
  let s := mine.foldl (fun s ab => s.wr ab.1 [ab.2]) s
  changeLine s line

/-- All buffered writes and counter additions, at one point (R318, R353). -/
def commitWrites (s : State) (u : Nat) (tag : Option SpanTag) (w : TxWrites) : State :=
  let lines := (w.bytes.map fun ab => lineOf ab.1).dedup
  let s := lines.foldl (fun s l => commitLine s u tag w l) s
  w.adds.foldl (fun s a => homeAdd s (some u) a.1 a.2) s

/-- Whether a migration holds a write of the commit (R216). -/
def commitHeld (s : State) (tx : Tx) : Bool :=
  tx.w.bytes.any (fun ab => attemptHolds s tx true ab.1 1) || tx.w.adds.any fun a => attemptHolds s tx true a.1 4

/-- TXE (R340). -/
def execTxe (s : State) : Result :=
  issue s fun x =>
    match x.t.tx with
    | none => step8 s x x.t 1
    | some tx =>
      if x.t.cnt.ld ≠ 0 ∨ x.t.cnt.st ≠ 0 ∨ (x.t.cnt.rm ≠ 0 ∧ !tx.w.adds.isEmpty) ∨ commitHeld s tx then s
      else
        let t := { x.t with tx := none, txs := { x.t.txs with conflicts := 0 } }
        let s := watchDrop (l1Clean s x.c.key) x.u
        let s := commitWrites (tokenDrop (s.setTeam x.u t) x.c.isl x.u) x.u x.span tx.w
        step8 s x t 1

/-- TXR, and a wait that fails inside a transaction (R326, R335): the newest alternative, or sleep on the read set. -/
def retryTx (s : State) (x : Issuer) (tx : Tx) : State :=
  match tx.alts with
  | (target, w) :: rest =>
    finish s x { x.t with
      tx := some { tx with w := w, alts := rest }
      flow := { tx.restart with pc := target } } 1
  | [] =>
    let s := s.setTeam x.u { x.t with tx := some tx }
    sleepTeam (charge (abortTx s x.u .sleep) x 1) x.u tx.reads tx.words

/-- TXR (R326). -/
def execTxr (s : State) : Result :=
  issue s fun x =>
    match x.t.tx with
    | none => step8 s x x.t 1
    | some tx => retryTx s x tx

/-- TXA (R340). -/
def execTxa (s : State) : Result :=
  issue s fun x =>
    match x.t.tx with
    | none => step8 s x x.t 1
    | some _ => charge (abortTx s x.u .explicit) x 1

/-- The word TXS writes (Table 18-2). -/
def txsWord (s : State) (x : Issuer) : Nat :=
  x.t.txs.code.code + x.t.txs.conflicts * 2 ^ 8 + (if x.t.tx.isSome then 2 ^ 16 else 0)
    + ((x.t.tx.map fun tx => tx.alts.length).getD 0) * 2 ^ 17
    + if (s.isl x.c.isl).token = some x.u then 2 ^ 20 else 0

/-- TXS (R342). -/
def execTxs (d : SReg) (s : State) : Result :=
  issue s fun x => step8 s x { x.t with regs := x.t.regs.sset d.toNat (BitVec.ofNat 32 (txsWord s x)) } 1

/-! ## Events -/

/-- TEAM_WAKE: a sleeping team becomes ready; the panel may wake it at any time (R330, R332). -/
def execTeamWake (team : Nat) (s : State) : Result :=
  happen s <|
    match s.teams.find? team with
    | none => none
    | some t =>
      match t.status with
      | .sleeping .. =>
        some ((crumbForget s team).updTeam team fun t =>
          { t with status := .run, wakeDue := false, sched := { t.sched with readySince := s.now } })
      | _ => none

/-- IRREVOCABLE_TOKEN_GRANT: the free token of an island goes to the team that asked first (R328). -/
def execIrrevocableTokenGrant (isl : Nat) (s : State) : Result :=
  happen s <|
    match (s.isl isl).token, (s.isl isl).tokenAsk with
    | none, u :: rest => some (s.updIsl isl fun i => { i with token := some u, tokenAsk := rest })
    | _, _ => none

/-- IRREVOCABLE_TIMEOUT: an irrevocable attempt that has not ended 1 ms after its TXB aborts with LONG (R328). -/
def execIrrevocableTimeout (team : Nat) (s : State) : Result :=
  happen s <|
    match s.teams.find? team with
    | none => none
    | some t =>
      match t.tx with
      | none => none
      | some x => if x.irrev && x.opened + 2000000 ≤ s.now then some (abortTx s team .long) else none

end Sys2Proof.Machine
end

