-- ==== Sys2Proof/Machine/Sync.lean ====
section
/-! DEFINITION. FENCE, barrier objects, queues, notify counters and timelines (R313, R334, R335, R343 to R357). Outside a
transaction a waiting instruction is the transaction of R334, taken here in one step: it completes, or its team sleeps
at it. -/

namespace Sys2Proof.Machine

/-- Whether a FENCE outside a transaction must still wait: an acquire too for the team's reads that it orders, the atomics
without a destination among them, which STCNT counts (R307, R313, R314; log 23). -/
def fenceHolds (x : Issuer) (ord : Ord) (sc : Scope) : Bool :=
  relHolds x ord sc || (ord = .acq && (x.t.cnt.ld ≠ 0 || x.t.cnt.st ≠ 0 || ((sc = .panel || sc = .sys) && x.t.cnt.rm ≠ 0)))

/-- FENCE (R313, R343, R344). -/
def execFence (ord : Ord) (scope : Scope) (s : State) : Result :=
  issue s fun x =>
    if x.t.tx.isSome then (if x.t.cnt.ld = 0 then step8 s x x.t 1 else s)
    else if fenceHolds x ord scope then s
    else step8 (acquireAt (relDone s x ord scope) x.c.key (acqOf ord scope)) x x.t 1

/-- A cause of a team-scope word of the group, if there is one, else what follows (R337). -/
def orRaise (s : State) (x : Issuer) (cs : List (Nat × (Nat × Cause))) (go : State) : State :=
  match worst cs with
  | some b => raiseTeam s x b.cause b.addr
  | none => go

/-- Whether an earlier typed-space operation of the team still touches n bytes of L-space (R309). -/
def ownPending (s : State) (x : Issuer) (a n : Nat) : Bool :=
  s.ops.any fun io => io.2.team = x.u && io.2.kind.space = .lspace &&
    io.2.accs.any fun q => accMeet false q.addr io.2.kind.size a n

/-- Whether an earlier access of the team to n bytes of global memory, at its own home, is not yet performed (R309), or a
home holds an access to them (R216); an irrevocable wait only a lock holds (R328, R334). -/
def wordWaits (s : State) (x : Issuer) (write : Bool) (pa n : Nat) : Bool :=
  s.ops.any (fun io => io.2.team = x.u && io.2.ctr ≠ .rm && io.2.kind.space = .global &&
    io.2.accs.any fun a => accMeet io.2.kind.byLine a.addr io.2.kind.size pa n) ||
  if 16 ≤ x.t.txs.waits then lockOnly s s.uid write pa n else lockHolds s s.uid write pa n

/-- A wait outside a transaction over the accesses it makes, each to a write or a read of some bytes: it is held while one
of them is; where another team's irrevocable attempt has a line of them it aborts with CONFLICT and begins again, and
after the 16th it first asks for the irrevocable token (R328, R334). -/
def waitOn (s : State) (x : Issuer) (as : List (Bool × (Nat × Nat))) (go : State) : State :=
  if 16 ≤ x.t.txs.waits && (s.isl x.c.isl).token ≠ some x.u then askToken s x
  else if as.any fun a => wordWaits s x a.1 a.2.1 a.2.2 then s
  else if as.any fun a => irrevHolds s (some x.u) a.1 (lineOf a.2.1) then
    (charge s x 1).updTeam x.u fun t => { t with txs := { t.txs with waits := t.txs.waits + 1 } }
  else go
/-- A wait outside a transaction ends: its count goes, and the token back (R328, R334). -/
def waitOver (s : State) (x : Issuer) : State :=
  if x.t.txs.waits = 0 then s
  else (tokenBack s x.c.isl x.u).updTeam x.u fun t => { t with txs := { t.txs with waits := 0 } }

/-! ## Barrier objects -/

/-- BINI (R347): performed at once, inside a transaction too. -/
def execBini (bar : SReg) (bytes arr : Operand) (s : State) : Result :=
  issue s fun x =>
    let off := (x.t.regs.sget bar.toNat).toNat
    let b := src64 s x 0 bytes
    let a := src32 s x 0 arr
    let big := if 2 ^ 36 ≤ b ∨ 255 < a then [(0, (off, Cause.spacebound))] else []
    if ownPending s x off 16 || wordHeld s x.t.crew (some x.u) off 16 then s
    else
      orRaise s x (barrierCauses x off ++ big) <|
        step8 (crewPut s x.t.crew (some x.u) .lspace off
          (leBytes 8 (b + a * 2 ^ 40 + a * 2 ^ 48) ++ leBytes 8 b)) x x.t 1

/-- PHASE of a barrier object (Table 18-3). -/
def phaseAt (c : Crew) (off : Nat) : Nat := natBits (leNat (typedBytes c.lmem off 8)) 36 36

/-- BARV (R348): an arrival, and the phase before it. -/
def execBarv (d : Option SReg) (bar : SReg) (bytes : Operand) (s : State) : Result :=
  issue s fun x =>
    let off := (x.t.regs.sget bar.toNat).toNat
    if x.t.cnt.ld ≠ 0 ∨ x.t.cnt.st ≠ 0 ∨ wordHeld s x.t.crew (some x.u) off 16 then s
    else
      orRaise s x (barrierCauses x off) <|
        let regs := match d with
          | some r => x.t.regs.sset r.toNat (BitVec.ofNat 32 (phaseAt x.c off))
          | none => x.t.regs
        step8 (barrierUpdate s x.t.crew (some x.u) off (src64 s x 0 bytes) true) x { x.t with regs := regs } 1

/-! ## Waits (R334, R335) -/

/-- A wait on an L-space word: what it waits for stands, or the team sleeps on the word, or retries its transaction. -/
def waitWord (s : State) (x : Issuer) (word : Nat) (ready : Bool) (sc : Option Scope) : State :=
  match x.t.tx with
  | some tx =>
    let tx := { tx with words := if tx.words.contains word then tx.words else word :: tx.words }
    if ready then step8 (acquireAt s x.c.key sc) x { x.t with tx := some tx } 1 else retryTx s x tx
  | none => if ready then step8 (acquireAt s x.c.key sc) x x.t 1 else sleepTeam (charge s x 1) x.u [] [word]

/-- A wait on a word of n bytes of global memory at a home address. -/
def waitLine (s : State) (x : Issuer) (va pa n : Nat) (ready : Nat → Bool) (sc : Option Scope) : State :=
  match x.t.tx with
  | some tx =>
    if attemptHolds s tx false pa n then s
    else
    match txJoin s x.u tx true false [(va, (pa, n))] with
    | .error c => charge (abortTx s x.u c) x 1
    | .ok (s, tx) =>
      if ready (leNat (txBytes s tx.w pa n)) then step8 (acquireAt s x.c.key sc) x { x.t with tx := some tx } 1
      else retryTx s x tx
  | none =>
    waitOn s x [(false, (pa, n))] <|
      let (bs, s) := homeRead s (some x.u) pa n
      waitOver (if ready (leNat bs) then step8 (acquireAt s x.c.key sc) x x.t 1 else sleepTeam (charge s x 1) x.u [lineOf pa] []) x

/-- BWT (R349). -/
def execBwt (bar : SReg) (ph : Operand) (s : State) : Result :=
  issue s fun x =>
    let off := (x.t.regs.sget bar.toNat).toNat
    if ownPending s x off 16 then s
    else
      orRaise s x (barrierCauses x off) <|
        waitWord s x (off / 16) (decide (phaseAt x.c off ≠ src32 s x 0 ph % 2)) (some .island)

/-! ## Queues (R350 to R352) -/

/-- A queue descriptor (Table 18-4). -/
structure Desc where
  head : Nat
  tail : Nat
  ring : Nat
  slots : Nat
  elem : Nat
deriving DecidableEq, Repr

def descOf (bs : List Byte) : Desc :=
  let x := leNat bs
  let w := natBits x 159 128
  { head := natBits x 31 0, tail := natBits x 63 32, ring := natBits x 119 64, slots := 2 ^ natBits w 4 0,
    elem := 4 * 2 ^ natBits w 10 8 }
def Desc.count (d : Desc) : Nat := (d.tail + 2 ^ 32 - d.head) % 2 ^ 32

/-- The checks each attempt makes of the descriptor (R351). -/
def descCauses (bs : List Byte) (e va : Nat) : List (Nat × (Nat × Cause)) :=
  let x := leNat bs
  let w := natBits x 159 128
  let d := descOf bs
  let bad := natBits x 127 120 ≠ 0 ∨ natBits w 31 11 ≠ 0 ∨ natBits w 7 5 ≠ 0 ∨ natBits x 255 160 ≠ 0 ∨ 4 < natBits w 10 8 ∨
    16 < natBits w 4 0 ∨ natBits w 10 8 ≠ e ∨ d.slots < d.count
  (if bad then [(0, (va, Cause.spacebound))] else []) ++
    if natBits w 10 8 ≤ 4 ∧ d.ring % d.elem ≠ 0 then [(0, (va, .misalign))] else []

/-- The descriptor of a queue instruction is checked and read; `go` gets its bytes and address, and the transaction whose
read set it has joined, if one is open. -/
def withDesc (s : State) (x : Issuer) (e : Nat) (q : SReg) (go : State → Option Tx → Hit → Desc → State) : State :=
  let va := (x.t.regs.sget64 q.toNat).toNat
  checked s x true .localCounter 32 [(0, va)] fun s hs =>
    let h := hs.headD { lane := 0, va := va, pa := 0, attr := .coherent }
    let pa := h.pa
    match x.t.tx with
    | some tx =>
      if attemptHolds s tx false pa 32 then s
      else
      match txJoin s x.u tx true false [(va, (pa, 32))] with
      | .error c => charge (abortTx s x.u c) x 1
      | .ok (s, tx) =>
        let bs := txBytes s tx.w pa 32
        orRaise s x (descCauses bs e va) (go s (some tx) h (descOf bs))
    | none =>
      waitOn s x [(false, (pa, 32))] <|
        let (bs, s) := homeRead s (some x.u) pa 32
        orRaise s x (descCauses bs e va) (go s none h (descOf bs))

/-- The causes of writing the descriptor, as Effect does (R213, R351). -/
def descWrite (s : State) (x : Issuer) (q : SReg) : List (Nat × (Nat × Cause)) :=
  causesOf (checkLanes s x.c.isl (some x.c.key) x.k.tenant (if x.t.tx.isSome then .txWrite else .atomic) 32
    [(0, (x.t.regs.sget64 q.toNat).toNat)]).1

/-- A wait that is not ready: it sleeps on the descriptor's line, or retries its transaction. -/
def notReady (s : State) (x : Issuer) (tx : Option Tx) (pa : Nat) : State :=
  match tx with
  | some tx => retryTx s x tx
  | none => waitOver (sleepTeam (charge s x 1) x.u [lineOf pa] []) x

/-- QPSH (R351, R352). -/
def execQpsh (e : BitVec 3) (q r : SReg) (s : State) : Result :=
  issue s fun x =>
    if relHolds x .rel .island then s
    else
      withDesc s x e.toNat q fun s tx h d =>
        let pa := h.pa
        if d.slots ≤ d.count then notReady s x tx pa
        else
          checkedWith s x true .atomic d.elem [(0, d.ring + d.tail % d.slots * d.elem)] (descWrite s x q) fun s hs =>
            let sh := hs.headD h
            let slot := sh.pa
            let data := leBytes d.elem (x.t.regs.sgetN r.toNat (d.elem / 4))
            let tail := leBytes 4 ((d.tail + 1) % 2 ^ 32)
            match tx with
            | some tx =>
              txWord s x tx false true [(h.va + 4, (pa + 4, 4)), sh.acc d.elem] 1 fun _ tx =>
                ({ tx with w := (tx.w.buffer false slot data).buffer false (pa + 4) tail }, x.t.regs)
            | none =>
              waitOn s x [(true, (slot, d.elem)), (true, (pa, 32))] <|
                let s := homeWrite (l1Clean s x.c.key) (some x.u) x.span none slot data
                waitOver (step8 (homeWrite s (some x.u) x.span none (pa + 4) tail) x x.t 1) x

/-- QPOP (R351, R352). -/
def execQpop (e : BitVec 3) (d q : SReg) (s : State) : Result :=
  issue s fun x =>
    withDesc s x e.toNat q fun s tx h ds =>
      let pa := h.pa
      if ds.count = 0 then notReady s x tx pa
      else
        checkedWith s x true .localCounter ds.elem [(0, ds.ring + ds.head % ds.slots * ds.elem)] (descWrite s x q) fun s hs =>
          let sh := hs.headD h
          let slot := sh.pa
          let head := leBytes 4 ((ds.head + 1) % 2 ^ 32)
          let out (bs : List Byte) : Regs := x.t.regs.ssetN d.toNat (ds.elem / 4) (leNat bs)
          match tx with
          | some tx =>
            if attemptHolds s tx false slot ds.elem then s
            else
            match txJoin s x.u tx true false [sh.acc ds.elem] with
            | .error c => charge (abortTx s x.u c) x 1
            | .ok (s, tx) =>
              txWord (l1Acquire s x.c.key) x tx false true [h.acc 4] 1 fun s tx =>
                ({ tx with w := tx.w.buffer false pa head }, out (txBytes s tx.w slot ds.elem))
          | none =>
            waitOn s x [(false, (slot, ds.elem)), (true, (pa, 32))] <|
              let (bs, s) := homeRead s (some x.u) slot ds.elem
              let s := homeWrite s (some x.u) x.span none pa head
              waitOver (step8 (l1Acquire s x.c.key) x { x.t with regs := out bs } 1) x

/-! ## Notify counters (R353, R354) -/

/-- NTFY (R353): outside a transaction a release at panel scope and a remote addition; inside one the addition is
performed at commit. -/
def execNtfy (ctr : SReg) (inc : Operand) (s : State) : Result :=
  issue s fun x =>
    let va := (x.t.regs.sget64 ctr.toNat).toNat
    let n := src32 s x 0 inc
    match x.t.tx with
    | some tx =>
      checked s x true .counter 4 [(0, va)] fun s hs =>
        let pa := (hs.head?.map (·.pa)).getD 0
        txWord s x tx false true [(va, (pa, 4))] 1 fun _ tx =>
          ({ tx with w := { tx.w with adds := tx.w.adds ++ [(pa, n)] } }, x.t.regs)
    | none =>
      if !releasable x.t .panel then s
      else
        checked s x true .counter 4 [(0, va)] fun s hs =>
          enterRemote (l1Clean s x.c.key) x .ntfy (hs.map accOf) (hs.map fun h => (h.pa, .notify n)) [] [] 1

/-- NWT (R354). -/
def execNwt (ctr : SReg) (tgt : Operand) (s : State) : Result :=
  issue s fun x =>
    let va := (x.t.regs.sget64 ctr.toNat).toNat
    let t := BitVec.ofNat 32 (src32 s x 0 tgt)
    checked s x true .localCounter 4 [(0, va)] fun s hs =>
      waitLine s x va ((hs.head?.map (·.pa)).getD 0) 4 (fun v => serialGE (BitVec.ofNat 32 v) t) (some .panel)

/-! ## Timelines (R355 to R357) -/

/-- The timeline and the last number of a crew's context of a kind, where it is bound to one. -/
def boundCtx (s : State) (c : Crew) : Eng → Option (Nat × Nat)
  | .cp => (CopyCtx.of s c).map fun y => (y.timeline, y.issued)
  | .mx => (MxCtx.of s c).map fun y => (y.timeline, y.issued)
  | .cl => (CollCtx.of s c).map fun y => (y.timeline, y.issued)
def mirrorOff : Eng → Nat
  | .cp => mirrorCopy
  | .mx => mirrorMatrix
  | .cl => mirrorColl

/-- TLRD (R356). -/
def execTlrd (eng : Eng) (mode : TlMode) (d : SReg) (s : State) : Result :=
  issue s fun x =>
    match boundCtx s x.c eng with
    | none => raiseTeam s x .enginedeny 0
    | some (v, n) =>
      let r := match mode with
        | .value => v
        | .issued => n
        | .addr => (Config.mirrorPage x.k.tenant x.c.isl x.t.crew).toNat * 4096 + x.c.mirror.getD 0 % 4096 + mirrorOff eng
      step8 s x { x.t with regs := x.t.regs.sset64 d.toNat (BitVec.ofNat 64 r) } 1

/-- TLWT (R357): the wait on the mirror word. -/
def execTlwt (eng : Eng) (n : SReg) (s : State) : Result :=
  issue s fun x =>
    match boundCtx s x.c eng with
    | none => raiseTeam s x .enginedeny 0
    | some (v, _) =>
      let want := (x.t.regs.sget64 n.toNat).toNat
      match x.c.mirror with
      | some pa => waitLine s x (2 ^ 56) (pa + mirrorOff eng) 8 (fun v => decide (want ≤ v)) (some .island)
      | none => if want ≤ v then step8 (acquireAt s x.c.key (some .island)) x x.t 1 else s

end Sys2Proof.Machine
end

