-- ==== Sys2Proof/Machine/Dispatch.lean ====
section
/-! DEFINITION. The one match of the machine: every instruction word and every event to its meaning. -/

namespace Sys2Proof.Machine

def exec (i : Instr) (s : State) : Host.Outcome State Fault Refusal :=
  match i with
  | .nop => Sys2Proof.Machine.execNop s
  | .bra disp => Sys2Proof.Machine.execBra disp s
  | .brc c disp => Sys2Proof.Machine.execBrc c disp s
  | .brv g c disp => Sys2Proof.Machine.execBrv g c disp s
  | .join => Sys2Proof.Machine.execJoin s
  | .brk g c disp => Sys2Proof.Machine.execBrk g c disp s
  | .call disp => Sys2Proof.Machine.execCall disp s
  | .callr a => Sys2Proof.Machine.execCallr a s
  | .ret => Sys2Proof.Machine.execRet s
  | .jmpr a => Sys2Proof.Machine.execJmpr a s
  | .exit g crew => Sys2Proof.Machine.execExit g crew s
  | .yield => Sys2Proof.Machine.execYield s
  | .trap code => Sys2Proof.Machine.execTrap code s
  | .mark => Sys2Proof.Machine.execMark s
  | .spawn g pay dest entry lenm1 pd => Sys2Proof.Machine.execSpawn g pay dest entry lenm1 pd s
  | .qry d item => Sys2Proof.Machine.execQry d item s
  | .sreg d a => Sys2Proof.Machine.execSreg d a s
  | .smov t d a => Sys2Proof.Machine.execSmov t d a s
  | .smovi t d imm => Sys2Proof.Machine.execSmovi t d imm s
  | .smovh d imm => Sys2Proof.Machine.execSmovh d imm s
  | .sadd t d a b => Sys2Proof.Machine.execSadd t d a b s
  | .saddImm t d a imm => Sys2Proof.Machine.execSaddImm t d a imm s
  | .ssub t d a b => Sys2Proof.Machine.execSsub t d a b s
  | .ssubImm t d a imm => Sys2Proof.Machine.execSsubImm t d a imm s
  | .smul t d a b => Sys2Proof.Machine.execSmul t d a b s
  | .smulImm t d a imm => Sys2Proof.Machine.execSmulImm t d a imm s
  | .smulh t d a b => Sys2Proof.Machine.execSmulh t d a b s
  | .sdiv t d a b => Sys2Proof.Machine.execSdiv t d a b s
  | .srem t d a b => Sys2Proof.Machine.execSrem t d a b s
  | .sand t d a b => Sys2Proof.Machine.execSand t d a b s
  | .sandImm t d a imm => Sys2Proof.Machine.execSandImm t d a imm s
  | .sor t d a b => Sys2Proof.Machine.execSor t d a b s
  | .sorImm t d a imm => Sys2Proof.Machine.execSorImm t d a imm s
  | .sxor t d a b => Sys2Proof.Machine.execSxor t d a b s
  | .sxorImm t d a imm => Sys2Proof.Machine.execSxorImm t d a imm s
  | .sshl t d a b => Sys2Proof.Machine.execSshl t d a b s
  | .sshlImm t d a imm => Sys2Proof.Machine.execSshlImm t d a imm s
  | .sshr t d a b => Sys2Proof.Machine.execSshr t d a b s
  | .sshrImm t d a imm => Sys2Proof.Machine.execSshrImm t d a imm s
  | .ssra t d a b => Sys2Proof.Machine.execSsra t d a b s
  | .ssraImm t d a imm => Sys2Proof.Machine.execSsraImm t d a imm s
  | .smin t d a b => Sys2Proof.Machine.execSmin t d a b s
  | .sminImm t d a imm => Sys2Proof.Machine.execSminImm t d a imm s
  | .smax t d a b => Sys2Proof.Machine.execSmax t d a b s
  | .smaxImm t d a imm => Sys2Proof.Machine.execSmaxImm t d a imm s
  | .scmp t cc d a b => Sys2Proof.Machine.execScmp t cc d a b s
  | .ssel t d a b c => Sys2Proof.Machine.execSsel t d a b c s
  | .sbfe t d a b => Sys2Proof.Machine.execSbfe t d a b s
  | .sbfi t d a b c => Sys2Proof.Machine.execSbfi t d a b c s
  | .spopc t d a => Sys2Proof.Machine.execSpopc t d a s
  | .sclz t d a => Sys2Proof.Machine.execSclz t d a s
  | .mbal g d a w => Sys2Proof.Machine.execMbal g d a w s
  | .many g d a => Sys2Proof.Machine.execMany g d a s
  | .mall g d a => Sys2Proof.Machine.execMall g d a s
  | .mpop g d a => Sys2Proof.Machine.execMpop g d a s
  | .mset g a => Sys2Proof.Machine.execMset g a s
  | .setix n a imm => Sys2Proof.Machine.execSetix n a imm s
  | .setfmt src => Sys2Proof.Machine.execSetfmt src s
  | .getfmt d => Sys2Proof.Machine.execGetfmt d s
  | .setk n a => Sys2Proof.Machine.execSetk n a s
  | .getk d n => Sys2Proof.Machine.execGetk d n s
  | .waitc ld st rm => Sys2Proof.Machine.execWaitc ld st rm s
  | .xfer g t => Sys2Proof.Machine.execXfer g t s
  | .vadd g t sat d a b => Sys2Proof.Machine.execVadd g t sat d a b s
  | .vaddImm g t d a imm => Sys2Proof.Machine.execVaddImm g t d a imm s
  | .vsub g t sat d a b => Sys2Proof.Machine.execVsub g t sat d a b s
  | .vsubImm g t d a imm => Sys2Proof.Machine.execVsubImm g t d a imm s
  | .vmul g t d a b => Sys2Proof.Machine.execVmul g t d a b s
  | .vmulImm g t d a imm => Sys2Proof.Machine.execVmulImm g t d a imm s
  | .vmulh g t d a b => Sys2Proof.Machine.execVmulh g t d a b s
  | .vmad g t d a b c => Sys2Proof.Machine.execVmad g t d a b c s
  | .vmin g t d a b => Sys2Proof.Machine.execVmin g t d a b s
  | .vminImm g t d a imm => Sys2Proof.Machine.execVminImm g t d a imm s
  | .vmax g t d a b => Sys2Proof.Machine.execVmax g t d a b s
  | .vmaxImm g t d a imm => Sys2Proof.Machine.execVmaxImm g t d a imm s
  | .vabs g t sat d a => Sys2Proof.Machine.execVabs g t sat d a s
  | .vneg g t sat d a => Sys2Proof.Machine.execVneg g t sat d a s
  | .vand g t d a b => Sys2Proof.Machine.execVand g t d a b s
  | .vandImm g t d a imm => Sys2Proof.Machine.execVandImm g t d a imm s
  | .vor g t d a b => Sys2Proof.Machine.execVor g t d a b s
  | .vorImm g t d a imm => Sys2Proof.Machine.execVorImm g t d a imm s
  | .vxor g t d a b => Sys2Proof.Machine.execVxor g t d a b s
  | .vxorImm g t d a imm => Sys2Proof.Machine.execVxorImm g t d a imm s
  | .vnot g t d a => Sys2Proof.Machine.execVnot g t d a s
  | .vshl g t d a b => Sys2Proof.Machine.execVshl g t d a b s
  | .vshlImm g t d a imm => Sys2Proof.Machine.execVshlImm g t d a imm s
  | .vshr g t d a b => Sys2Proof.Machine.execVshr g t d a b s
  | .vshrImm g t d a imm => Sys2Proof.Machine.execVshrImm g t d a imm s
  | .vsra g t d a b => Sys2Proof.Machine.execVsra g t d a b s
  | .vsraImm g t d a imm => Sys2Proof.Machine.execVsraImm g t d a imm s
  | .vbfe g t d a b => Sys2Proof.Machine.execVbfe g t d a b s
  | .vbfi g t d a b c => Sys2Proof.Machine.execVbfi g t d a b c s
  | .vpopc g t d a => Sys2Proof.Machine.execVpopc g t d a s
  | .vclz g t d a => Sys2Proof.Machine.execVclz g t d a s
  | .vcmp g t cc d a b => Sys2Proof.Machine.execVcmp g t cc d a b s
  | .vsel g t d a b c => Sys2Proof.Machine.execVsel g t d a b c s
  | .vmov g t d a => Sys2Proof.Machine.execVmov g t d a s
  | .vmovi g t d imm => Sys2Proof.Machine.execVmovi g t d imm s
  | .fadd g t rm d a b => Sys2Proof.Machine.execFadd g t rm d a b s
  | .faddImm g t d a imm => Sys2Proof.Machine.execFaddImm g t d a imm s
  | .fsub g t rm d a b => Sys2Proof.Machine.execFsub g t rm d a b s
  | .fsubImm g t d a imm => Sys2Proof.Machine.execFsubImm g t d a imm s
  | .fmul g t rm d a b => Sys2Proof.Machine.execFmul g t rm d a b s
  | .fmulImm g t d a imm => Sys2Proof.Machine.execFmulImm g t d a imm s
  | .ffma g t rm d a b c => Sys2Proof.Machine.execFfma g t rm d a b c s
  | .fmin g t rm d a b => Sys2Proof.Machine.execFmin g t rm d a b s
  | .fminImm g t d a imm => Sys2Proof.Machine.execFminImm g t d a imm s
  | .fmax g t rm d a b => Sys2Proof.Machine.execFmax g t rm d a b s
  | .fmaxImm g t d a imm => Sys2Proof.Machine.execFmaxImm g t d a imm s
  | .fcmp g t rm cc d a b => Sys2Proof.Machine.execFcmp g t rm cc d a b s
  | .frcp g t rm d a => Sys2Proof.Machine.execFrcp g t rm d a s
  | .frsq g t rm d a => Sys2Proof.Machine.execFrsq g t rm d a s
  | .fsqrt g t rm d a => Sys2Proof.Machine.execFsqrt g t rm d a s
  | .fdiv g t rm d a b => Sys2Proof.Machine.execFdiv g t rm d a b s
  | .fex2 g t rm d a => Sys2Proof.Machine.execFex2 g t rm d a s
  | .flg2 g t rm d a => Sys2Proof.Machine.execFlg2 g t rm d a s
  | .fsin g t rm d a => Sys2Proof.Machine.execFsin g t rm d a s
  | .fcos g t rm d a => Sys2Proof.Machine.execFcos g t rm d a s
  | .ffrc g t rm d a => Sys2Proof.Machine.execFfrc g t rm d a s
  | .frnd g t rm d a => Sys2Proof.Machine.execFrnd g t rm d a s
  | .cvt g dst src chk rm sel d a => Sys2Proof.Machine.execCvt g dst src chk rm sel d a s
  | .lpack g raw d a => Sys2Proof.Machine.execLpack g raw d a s
  | .lunp g raw d a => Sys2Proof.Machine.execLunp g raw d a s
  | .hpack g t rm d a b => Sys2Proof.Machine.execHpack g t rm d a b s
  | .shfl g t mode d a b => Sys2Proof.Machine.execShfl g t mode d a b s
  | .pshw g t mode d a b => Sys2Proof.Machine.execPshw g t mode d a b s
  | .bcst g t d a b => Sys2Proof.Machine.execBcst g t d a b s
  | .vred g op t rm d a => Sys2Proof.Machine.execVred g op t rm d a s
  | .vscan g op t excl rm d a => Sys2Proof.Machine.execVscan g op t excl rm d a s
  | .pairWord h0 h1 => Sys2Proof.Machine.execPairWord h0 h1 s
  | .ld g sz strm d base ofs => Sys2Proof.Machine.execLd g sz strm d base ofs s
  | .st g sz strm data base ofs => Sys2Proof.Machine.execSt g sz strm data base ofs s
  | .lds sz strm d base ofs => Sys2Proof.Machine.execLds sz strm d base ofs s
  | .sts sz strm data base ofs => Sys2Proof.Machine.execSts sz strm data base ofs s
  | .ldl g sz strm d base ofs => Sys2Proof.Machine.execLdl g sz strm d base ofs s
  | .stl g sz strm data base ofs => Sys2Proof.Machine.execStl g sz strm data base ofs s
  | .lda g sz strm d base ofs => Sys2Proof.Machine.execLda g sz strm d base ofs s
  | .sta g sz strm data base ofs => Sys2Proof.Machine.execSta g sz strm data base ofs s
  | .pref g sz strm base ofs => Sys2Proof.Machine.execPref g sz strm base ofs s
  | .cflush g sz strm base ofs => Sys2Proof.Machine.execCflush g sz strm base ofs s
  | .cinv g sz strm base ofs => Sys2Proof.Machine.execCinv g sz strm base ofs s
  | .atom g t op ord scope d base b => Sys2Proof.Machine.execAtom g t op ord scope d base b s
  | .red g t op ord scope base b => Sys2Proof.Machine.execRed g t op ord scope base b s
  | .put g sz data base ofs => Sys2Proof.Machine.execPut g sz data base ofs s
  | .putn g sz data base ctr inc => Sys2Proof.Machine.execPutn g sz data base ctr inc s
  | .putm g sz data base mask stride => Sys2Proof.Machine.execPutm g sz data base mask stride s
  | .get g sz d base ofs => Sys2Proof.Machine.execGet g sz d base ofs s
  | .ratom g t op ord scope d base b => Sys2Proof.Machine.execRatom g t op ord scope d base b s
  | .cpy dst src len dsp ssp bar => Sys2Proof.Machine.execCpy dst src len dsp ssp bar s
  | .cpyt dst src geo dsp ssp bar => Sys2Proof.Machine.execCpyt dst src geo dsp ssp bar s
  | .macq p => Sys2Proof.Machine.execMacq p s
  | .mrel => Sys2Proof.Machine.execMrel s
  | .mgang n => Sys2Proof.Machine.execMgang n s
  | .mwld w bar => Sys2Proof.Machine.execMwld w bar s
  | .mma src row0 rows ct acc bar => Sys2Proof.Machine.execMma src row0 rows ct acc bar s
  | .mmag asrc row0 rows ct acc bar => Sys2Proof.Machine.execMmag asrc row0 rows ct acc bar s
  | .mdrn clr quant dst bias geom ct toW act bar => Sys2Proof.Machine.execMdrn clr quant dst bias geom ct toW act bar s
  | .mzro mask bar => Sys2Proof.Machine.execMzro mask bar s
  | .mtld v ct slab => Sys2Proof.Machine.execMtld v ct slab s
  | .mtst v ct slab => Sys2Proof.Machine.execMtst v ct slab s
  | .mpoly x y p deg bar => Sys2Proof.Machine.execMpoly x y p deg bar s
  | .miter form frob x a scr cap thr bar => Sys2Proof.Machine.execMiter form frob x a scr cap thr bar s
  | .mtab w bar => Sys2Proof.Machine.execMtab w bar s
  | .mstat d item => Sys2Proof.Machine.execMstat d item s
  | .txb disp => Sys2Proof.Machine.execTxb disp s
  | .txo disp => Sys2Proof.Machine.execTxo disp s
  | .txe => Sys2Proof.Machine.execTxe s
  | .txr => Sys2Proof.Machine.execTxr s
  | .txa => Sys2Proof.Machine.execTxa s
  | .txs d => Sys2Proof.Machine.execTxs d s
  | .fence ord scope => Sys2Proof.Machine.execFence ord scope s
  | .bini bar bytes arr => Sys2Proof.Machine.execBini bar bytes arr s
  | .barv d bar bytes => Sys2Proof.Machine.execBarv d bar bytes s
  | .bwt bar ph => Sys2Proof.Machine.execBwt bar ph s
  | .qpsh e q r => Sys2Proof.Machine.execQpsh e q r s
  | .qpop e d q => Sys2Proof.Machine.execQpop e d q s
  | .ntfy ctr inc => Sys2Proof.Machine.execNtfy ctr inc s
  | .nwt ctr tgt => Sys2Proof.Machine.execNwt ctr tgt s
  | .tlrd eng mode d => Sys2Proof.Machine.execTlrd eng mode d s
  | .tlwt eng n => Sys2Proof.Machine.execTlwt eng n s
  | .coll g opn addr key group bar => Sys2Proof.Machine.execColl g opn addr key group bar s
  | .recordSlotWrite q off bytes => Sys2Proof.Machine.execRecordSlotWrite q off bytes s
  | .requestDatagram addr port frame payload => Sys2Proof.Machine.execRequestDatagram addr port frame payload s
  | .arbitrationDecision => Sys2Proof.Machine.execArbitrationDecision s
  | .queuePromotion q => Sys2Proof.Machine.execQueuePromotion q s
  | .holdCounterWake kernel => Sys2Proof.Machine.execHoldCounterWake kernel s
  | .crewPlacement kernel => Sys2Proof.Machine.execCrewPlacement kernel s
  | .reservingKernel => Sys2Proof.Machine.execReservingKernel s
  | .rangeTakeRetry kernel isl => Sys2Proof.Machine.execRangeTakeRetry kernel isl s
  | .islandFailure isl => Sys2Proof.Machine.execIslandFailure isl s
  | .activeMessage msg => Sys2Proof.Machine.execActiveMessage msg s
  | .binTimerExpiry core bin => Sys2Proof.Machine.execBinTimerExpiry core bin s
  | .poolReinject isl => Sys2Proof.Machine.execPoolReinject isl s
  | .overflowReinject kernel => Sys2Proof.Machine.execOverflowReinject kernel s
  | .segmentMapRefresh kernel => Sys2Proof.Machine.execSegmentMapRefresh kernel s
  | .replicaWindow kernel seg => Sys2Proof.Machine.execReplicaWindow kernel seg s
  | .replicaRetirement kernel seg core => Sys2Proof.Machine.execReplicaRetirement kernel seg core s
  | .teamPromotion team => Sys2Proof.Machine.execTeamPromotion team s
  | .loadDataWritten op => Sys2Proof.Machine.execLoadDataWritten op s
  | .storePerformed op => Sys2Proof.Machine.execStorePerformed op s
  | .remoteAcknowledge op => Sys2Proof.Machine.execRemoteAcknowledge op s
  | .demandPageFill isl entry => Sys2Proof.Machine.execDemandPageFill isl entry s
  | .readSharedCopy isl entry => Sys2Proof.Machine.execReadSharedCopy isl entry s
  | .migrationWindow tenant va toIsl => Sys2Proof.Machine.execMigrationWindow tenant va toIsl s
  | .migrationCopyDone mig => Sys2Proof.Machine.execMigrationCopyDone mig s
  | .teamWake team => Sys2Proof.Machine.execTeamWake team s
  | .irrevocableTokenGrant isl => Sys2Proof.Machine.execIrrevocableTokenGrant isl s
  | .irrevocableTimeout team => Sys2Proof.Machine.execIrrevocableTimeout team s
  | .copyChunkWritten isl ctx => Sys2Proof.Machine.execCopyChunkWritten isl ctx s
  | .arrayArbitration isl cluster => Sys2Proof.Machine.execArrayArbitration isl cluster s
  | .arrayRequestPromotion isl cluster ctx => Sys2Proof.Machine.execArrayRequestPromotion isl cluster ctx s
  | .matrixCommandComplete isl cluster ctx => Sys2Proof.Machine.execMatrixCommandComplete isl cluster ctx s
  | .miterPhase isl cluster ctx => Sys2Proof.Machine.execMiterPhase isl cluster ctx s
  | .collectivePacket pkt => Sys2Proof.Machine.execCollectivePacket pkt s
  | .collChunkComplete isl ctx key chunk => Sys2Proof.Machine.execCollChunkComplete isl ctx key chunk s
  | .collComplete isl ctx => Sys2Proof.Machine.execCollComplete isl ctx s
  | .chunkTimeout isl ctx key chunk => Sys2Proof.Machine.execChunkTimeout isl ctx key chunk s
  | .deadlineSlack isl req => Sys2Proof.Machine.execDeadlineSlack isl req s
  | .packetRelay pkt => Sys2Proof.Machine.execPacketRelay pkt s
  | .packetReturn pkt => Sys2Proof.Machine.execPacketReturn pkt s
  | .packetDelivery pkt => Sys2Proof.Machine.execPacketDelivery pkt s
  | .flitReceived isl port flips => Sys2Proof.Machine.execFlitReceived isl port flips s
  | .nakRepeat isl port => Sys2Proof.Machine.execNakRepeat isl port s
  | .linkDownTimeout isl port => Sys2Proof.Machine.execLinkDownTimeout isl port s
  | .limitsPeriod isl port => Sys2Proof.Machine.execLimitsPeriod isl port s
  | .credit isl port => Sys2Proof.Machine.execCredit isl port s
  | .limits isl port => Sys2Proof.Machine.execLimits isl port s
  | .swapreq isl port => Sys2Proof.Machine.execSwapreq isl port s
  | .swapack isl port => Sys2Proof.Machine.execSwapack isl port s
  | .train isl port => Sys2Proof.Machine.execTrain isl port s
  | .laneSampleWindow isl port samples => Sys2Proof.Machine.execLaneSampleWindow isl port samples s
  | .swapTimeout isl port => Sys2Proof.Machine.execSwapTimeout isl port s
  | .lightLoss isl port dark => Sys2Proof.Machine.execLightLoss isl port dark s
  | .laserModuleDark m => Sys2Proof.Machine.execLaserModuleDark m s
  | .uncorrectableError site => Sys2Proof.Machine.execUncorrectableError site s
  | .kernelRetirement kernel => Sys2Proof.Machine.execKernelRetirement kernel s
  | .preemptStopDone t => Sys2Proof.Machine.execPreemptStopDone t s
  | .preemptResumeDone t => Sys2Proof.Machine.execPreemptResumeDone t s
  | .tenantResetDone t => Sys2Proof.Machine.execTenantResetDone t s
  | .bootStage image failed => Sys2Proof.Machine.execBootStage image failed s
  | .qcfgWrite q x => Sys2Proof.Machine.execQcfgWrite q x s
  | .tcfgWrite t x => Sys2Proof.Machine.execTcfgWrite t x s
  | .releaseHeld q => Sys2Proof.Machine.execReleaseHeld q s
  | .ptrootWrite t x => Sys2Proof.Machine.execPtrootWrite t x s
  | .eqheadWrite x => Sys2Proof.Machine.execEqheadWrite x s
  | .eqRingWrite size x => Sys2Proof.Machine.execEqRingWrite size x s
  | .eqlostWrite x => Sys2Proof.Machine.execEqlostWrite x s
  | .tlbinvGo x => Sys2Proof.Machine.execTlbinvGo x s
  | .tlbinvDone => Sys2Proof.Machine.execTlbinvDone s
  | .faultreply x => Sys2Proof.Machine.execFaultreply x s
  | .groupTableWrite isl g word x => Sys2Proof.Machine.execGroupTableWrite isl g word x s
  | .preemptStop t x => Sys2Proof.Machine.execPreemptStop t x s
  | .preemptResume t x => Sys2Proof.Machine.execPreemptResume t x s
  | .crewctlResume t handle => Sys2Proof.Machine.execCrewctlResume t handle s
  | .crewctlEnd t handle => Sys2Proof.Machine.execCrewctlEnd t handle s
  | .crewctlRollback t handle => Sys2Proof.Machine.execCrewctlRollback t handle s
  | .tenantReset t => Sys2Proof.Machine.execTenantReset t s
  | .warmReset => Sys2Proof.Machine.execWarmReset s
  | .coldReset => Sys2Proof.Machine.execColdReset s
  | .attest => Sys2Proof.Machine.execAttest s
  | .attestDone => Sys2Proof.Machine.execAttestDone s
  | .mgmtRegisterWrite off x => Sys2Proof.Machine.execMgmtRegisterWrite off x s
  | .clockStep isl raise => Sys2Proof.Machine.execClockStep isl raise s
  | .thermalStop isl => Sys2Proof.Machine.execThermalStop isl s
  | .registerWrite off x => Sys2Proof.Machine.execRegisterWrite off x s
  | .hostMemoryAccess tenant va acc => Sys2Proof.Machine.execHostMemoryAccess tenant va acc s
  | .recordWindowWrite q off bytes => Sys2Proof.Machine.execRecordWindowWrite q off bytes s
  | .lightReturn isl port wl => Sys2Proof.Machine.execLightReturn isl port wl s
  | .powerOn => Sys2Proof.Machine.execPowerOn s

end Sys2Proof.Machine
end

