-- ==== Sys2Proof/Machine/Interlock.lean ====
section
/-! DEFINITION. Register interlocks (R110): the registers a word names, and those that an earlier operation of the team is
still to write. A GET's destination is not interlocked (R236). -/

namespace Sys2Proof.Machine

/-- Operands with the number of registers each names. -/
abbrev Named := List (Operand × Nat)
def each (n : Nat) (os : List Operand) : Named := os.map fun o => (o, n)
def sreg (r : SReg) (n : Nat) : Named := [(.s r, n)]
def barReg : Bar → Named
  | some r => sreg r 1
  | none => []
def halfRegs (h : Half) : List Operand := if h.imm then [.v h.d] else [.v h.d, .v h.s]
def atomRegs (t : ATy) (op : AOp) (d : Option Operand) (base b : Operand) : Named :=
  each t.regs d.toList ++ [(base, 2), (b, if op = .cas then 2 * t.regs else t.regs)]
/-- Registers QRY writes (Table 8-6). -/
def qryRegs : QryItem → Nat
  | .topo | .extent | .cycle => 2
  | _ => 1

/-- Every vector and scalar register that a word reads or writes. -/
def namedRegs : Instr → Named
  | .nop | .bra _ | .join | .call _ | .ret | .exit .. | .yield | .trap _ | .mark | .waitc .. | .macq _ | .mrel
  | .mzro _ none | .txb _ | .txo _ | .txe | .txr | .txa | .fence .. => []
  | .brc c _ => sreg c 1
  | .brv _ c _ | .brk _ c _ | .mset _ c | .xfer _ c => each 1 [c]
  | .callr a | .jmpr a => sreg a 1
  | .spawn _ pay dest _ lenm1 _ => [(pay, lenm1.toNat + 1), (dest, 1)]
  | .qry d item => sreg d (qryRegs item)
  | .sreg d a => sreg d 1 ++ each 1 [a]
  | .smovi t d _ => sreg d t.regs
  | .smovh d _ | .getfmt d | .getk d _ | .mstat d _ | .txs d => sreg d 1
  | .smov t d a | .spopc t d a | .sclz t d a | .saddImm t d a _ | .ssubImm t d a _ | .smulImm t d a _
  | .sandImm t d a _ | .sorImm t d a _ | .sxorImm t d a _ | .sshlImm t d a _ | .sshrImm t d a _ | .ssraImm t d a _
  | .sminImm t d a _ | .smaxImm t d a _ => sreg d t.regs ++ each t.regs [a]
  | .sadd t d a b | .ssub t d a b | .smul t d a b | .smulh t d a b | .sdiv t d a b | .srem t d a b | .sand t d a b
  | .sor t d a b | .sxor t d a b | .smin t d a b | .smax t d a b | .scmp t _ d a b | .sshl t d a b | .sshr t d a b
  | .ssra t d a b | .sbfe t d a b => sreg d t.regs ++ each t.regs [a, b]
  | .ssel t d a b c | .sbfi t d a b c => sreg d t.regs ++ each t.regs [a, b, c]
  | .mbal _ d a w => sreg d 1 ++ each 1 [a, w]
  | .many _ d a | .mall _ d a | .mpop _ d a => sreg d 1 ++ each 1 [a]
  | .setix _ a _ | .setk _ a => each 1 [a]
  | .setfmt (.imm _) => []
  | .setfmt (.reg r) => sreg r 1
  | .vadd _ t _ d a b | .vsub _ t _ d a b | .vmul _ t d a b | .vmulh _ t d a b | .vmin _ t d a b | .vmax _ t d a b
  | .vand _ t d a b | .vor _ t d a b | .vxor _ t d a b | .vshl _ t d a b | .vshr _ t d a b | .vsra _ t d a b
  | .vbfe _ t d a b | .vcmp _ t _ d a b => each t.regs [d, a, b]
  | .vaddImm _ t d a _ | .vsubImm _ t d a _ | .vmulImm _ t d a _ | .vminImm _ t d a _ | .vmaxImm _ t d a _
  | .vandImm _ t d a _ | .vorImm _ t d a _ | .vxorImm _ t d a _ | .vshlImm _ t d a _ | .vshrImm _ t d a _
  | .vsraImm _ t d a _ | .vabs _ t _ d a | .vneg _ t _ d a | .vnot _ t d a | .vpopc _ t d a | .vclz _ t d a
  | .vmov _ t d a => each t.regs [d, a]
  | .vmad _ t d a b c | .vbfi _ t d a b c => each t.regs [d, a, b, c]
  | .vsel _ t d a b c => each t.regs [d, a, b] ++ each 1 [c]
  | .vmovi _ t d _ => each t.regs [d]
  | .fadd _ t _ d a b | .fsub _ t _ d a b | .fmul _ t _ d a b | .fmin _ t _ d a b | .fmax _ t _ d a b
  | .fcmp _ t _ _ d a b | .fdiv _ t _ d a b => each t.regs [d, a, b]
  | .faddImm _ t d a _ | .fsubImm _ t d a _ | .fmulImm _ t d a _ | .fminImm _ t d a _ | .fmaxImm _ t d a _ =>
    each t.regs [d, a]
  | .ffma _ t _ d a b c => each t.regs [d, a, b, c]
  | .frcp _ t _ d a | .frsq _ t _ d a | .fsqrt _ t _ d a | .fex2 _ t _ d a | .flg2 _ t _ d a | .fsin _ t _ d a
  | .fcos _ t _ d a | .ffrc _ t _ d a | .frnd _ t _ d a => each t.regs [d, a]
  | .cvt _ dst src _ _ _ d a => each dst.regs [d] ++ each src.regs [a]
  | .lpack _ _ d a => each 3 [d] ++ each 16 [a]
  | .lunp _ _ d a => each 16 [d] ++ each 3 [a]
  | .hpack _ _ _ d a b => each 1 [d, a, b]
  | .shfl _ t _ d a b | .pshw _ t _ d a b | .bcst _ t d a b => each t.regs [d, a] ++ each 1 [b]
  | .vred _ _ t _ d a | .vscan _ _ t _ _ d a => each t.regs [d, a]
  | .pairWord h0 h1 => each 1 (halfRegs h0 ++ halfRegs h1)
  | .ld _ sz _ d base _ | .st _ sz _ d base _ | .put _ sz d base _ | .get _ sz d base _ => [(d, sz.regs), (base, 2)]
  | .lds sz _ d base _ | .sts sz _ d base _ => sreg d sz.regs ++ sreg base 2
  | .ldl _ sz _ d base _ | .stl _ sz _ d base _ | .lda _ sz _ d base _ | .sta _ sz _ d base _ =>
    [(d, sz.regs), (base, 1)]
  | .pref _ _ _ base _ | .cflush _ _ _ base _ | .cinv _ _ _ base _ => [(base, 2)]
  | .atom _ t op _ _ d base b | .ratom _ t op _ _ d base b => atomRegs t op d base b
  | .red _ t op _ _ base b => atomRegs t op none base b
  | .putn _ sz data base ctr _ => [(data, sz.regs), (base, 2), (ctr, 2)]
  | .putm _ sz data base mask stride => [(data, sz.regs), (base, 2), (mask, 1)] ++ sreg stride 2
  | .cpy dst src len _ _ bar => sreg dst 2 ++ sreg src 2 ++ sreg len 1 ++ barReg bar
  | .cpyt dst src geo _ _ bar => sreg dst 2 ++ sreg src 2 ++ sreg geo 4 ++ barReg bar
  | .mgang n => sreg n 2
  | .mwld w bar | .mtab w bar => sreg w 1 ++ barReg bar
  | .mma (.plain a) _ _ _ _ bar | .mmag a _ _ _ _ bar => sreg a 1 ++ barReg bar
  | .mma (.feedback ..) _ _ _ _ bar | .mzro _ bar | .mpoly _ _ _ _ bar | .miter _ _ _ _ _ _ _ bar => barReg bar
  | .mdrn _ _ dst bias geom _ _ _ bar =>
    sreg dst 1 ++ (match bias with
      | some b => sreg b 1
      | none => []) ++ sreg geom 1 ++ barReg bar
  | .mtld v _ _ | .mtst v _ _ => each 32 [v]
  | .bini bar bytes arr => sreg bar 1 ++ each 2 [bytes] ++ each 1 [arr]
  | .barv d bar bytes => (match d with
      | some r => sreg r 1
      | none => []) ++ sreg bar 1 ++ each 2 [bytes]
  | .bwt bar ph => sreg bar 1 ++ each 1 [ph]
  | .qpsh e q r | .qpop e r q => sreg q 2 ++ sreg r (2 ^ e.toNat)
  | .ntfy ctr x | .nwt ctr x => sreg ctr 2 ++ each 1 [x]
  | .tlrd _ _ d => sreg d 2
  | .tlwt _ n => sreg n 2
  | .coll _ _ addr key _ bar => [(addr, 2), (key, 1)] ++ barReg bar
  | _ => []

/-- The registers an operand names: whether they are scalar, and the first. -/
def regsAt (g : Regs) : Operand → Option (Bool × Nat)
  | .s r => some (true, r.toNat)
  | .k _ => none
  | o => some (false, vregOf g o)

/-- R110: an operation in flight of the team is still to write a register that the word names. -/
def interlocked (s : State) (u : Nat) (g : Regs) (i : Instr) : Bool :=
  s.ops.any fun io => io.2.team = u && match io.2.kind.pending with
    | none => false
    | some (sc, d, n) => (namedRegs i).any fun on => match regsAt g on.1 with
      | some (sc', r) => sc = sc' && r < d + n && d < r + on.2
      | none => false

end Sys2Proof.Machine
end

