-- ==== Sys2Proof/Machine/Schedule.lean ====
section
/-! DEFINITION. What a step does around `exec`: fetching and issuing a team's word (R102 to R104, R110 to R114), the moves
that can be made in a state, and the schedule the machine follows when its inbox is empty (log 4). -/

namespace Sys2Proof.Machine

/-! ## Fetch (R102, R103) -/

/-- The bytes at a team's program counter, where the core holds them. -/
def fetch (s : State) (x : Issuer) : Option (List Byte) :=
  ((s.core x.c.key).code.find? fun y =>
    y.kernel = x.c.kernel && y.base ≤ x.t.flow.pc && x.t.flow.pc + 8 ≤ y.base + y.size).map fun y =>
      (List.range 8).map fun j => SMap.get 0 y.bytes (x.t.flow.pc - y.base + j)

/-- The instruction at a team's program counter. -/
def fetched (s : State) (x : Issuer) : Option Instr :=
  match fetch s x with
  | some bs =>
    match decodeBytes bs with
    | .ok (i, _) => some i
    | .error _ => none
  | none => none

/-! ## Issue -/

/-- Whether a team has asked for the irrevocable token of its island and waits for it (R328). -/
def awaitsToken (s : State) (x : Issuer) : Bool := x.t.txs.asked && (s.isl x.c.isl).token ≠ some x.u
/-- Whether a team can issue its next word at all: it is in none of the other states of Table 7-3, no acquire of it is in
flight, and it waits for no token. -/
def issues (s : State) (x : Issuer) : Bool := canIssue s x.t && !acquiring s x.u && !awaitsToken s x

/-- The time at which the slot of a team can begin a word. -/
def slotTime (s : State) (x : Issuer) : Nat := SMap.get 0 (s.core x.c.key).slotFree (x.t.index % 4)

/-- A held team: its time held does not count towards promotion (R114). -/
def holdTeam (s : State) (u : Nat) : State :=
  { s.updTeam u fun t => { t with sched := { t.sched with readySince := s.now } } with cur := none }

/-- A word changed neither the team, its crew nor its slot: the team was held and nothing has happened. -/
def wasHeld (s : State) (x : Issuer) (s' : State) : Bool :=
  slotTime s' x = slotTime s x && s'.teams.find? x.u = some x.t && s'.crews.find? x.t.crew = some x.c
/-- Where a move ends: no team issues, writes that wait at their homes are performed where nothing holds them, and the
clocks of R46 follow the heads of the queues. -/
def endMove (s : State) : State := clocks (drainHeld { s with cur := none })
/-- After a word of a team. -/
def afterWord (s : State) (x : Issuer) (s' : State) : State := if wasHeld s x s' then holdTeam s x.u else endMove s'

/-- The word at the program counter, or what stands in its place: a fall past the code (R104), a word that decodes to
nothing (R88). -/
def wordAt (s : State) (x : Issuer) : Result :=
  match fetch s x with
  | none => .next (fallOff s x)
  | some _ =>
    match fetched s x with
    | none => .next (raiseTeam s x .illop 0)
    | some i => if interlocked s x.u x.t.regs i then .next s else exec i s

/-- Whether a team is ready (Table 7-3): it can issue, and nothing holds its next word. -/
def ready (s : State) (u : Nat) : Bool :=
  let s := { s with cur := some u }
  match issuer s with
  | .error _ => false
  | .ok x => issues s x && match wordAt s x with
    | .next s' => !wasHeld s x s'
    | _ => true

/-- Cycles pass in which nothing happens: for a team that is not ready they do not count towards promotion (R114). -/
def passTime (s : State) (n : Nat) : State :=
  if n = 0 then s
  else { s with
    now := s.now + n
    teams := s.teams.mapVals fun u t =>
      if ready s u then t else { t with sched := { t.sched with readySince := s.now + n } } }

/-- What the panel does at a time of its own: timers of bins run out (R66), and at each boundary of 1 µs the maps are
refreshed and then the windows end (R68, R69). -/
def timed (s : State) : List (Nat × Instr) :=
  let bins := (s.cores.map fun c => c.2.bins.filterMap fun b => (b.2.expiry s).map fun t => (t, Instr.binTimerExpiry c.1 b.1)).flatten
  let maps := s.kernels.filter fun k => k.2.travels && !k.2.segMap.isEmpty
  bins ++ maps.map (fun k => (2000 * (k.2.mapsDone + 1), .segmentMapRefresh k.1))
    ++ (maps.map fun k => (List.range (min k.2.segMap.length k.2.image.segs.length)).map fun g =>
      (2000 * ((k.2.segMap.getD g {}).windows + 1), .replicaWindow k.1 g)).flatten
/-- The first of them, where it is before a time. -/
def nextTimed (s : State) (end_ : Nat) : Option (Nat × Instr) :=
  let ts := timed s
  (argMin (fun n => (ts.getD n (end_, .powerOn)).1) (List.range ts.length)).bind fun n =>
    ts[n]?.filter fun t => t.1 < end_
/-- Time goes on to `end_`, and what falls due before it happens when it is due. -/
def passTo (end_ : Nat) : Nat → State → State
  | 0, s => passTime s (end_ - s.now)
  | fuel + 1, s =>
    match nextTimed s end_ with
    | none => passTime s (end_ - s.now)
    | some (t, i) =>
      let s := passTime s (t - s.now)
      match exec i s with
      | .next s' => passTo end_ fuel { endMove s' with cur := s.cur }
      | _ => passTo end_ fuel s
/-- How many happenings some cycles can hold: at most as many boundaries as micro-seconds for each map, and an expiry for
each entry of a bin. -/
def timedMost (s : State) (n : Nat) : Nat :=
  let entries := ((s.cores.map fun c => c.2.bins.map fun b =>
    1 + b.2.entries.length + (b.2.forming.map fun f => f.2.length).getD 0).flatten).sum
  let maps := (s.kernels.map fun k => 1 + k.2.segMap.length).sum
  entries + (n / 2000 + 1) * maps
/-- Cycles pass. What falls due at their end is still to happen (log 4). -/
def pass (s : State) (n : Nat) : State := if n = 0 then s else passTo (s.now + n) (timedMost s n) s

/-! ## Choosing a team (R113) -/

/-- When a team was promoted: at the event, or, where 4,096 cycles have passed without it, then (R114). -/
def promotedAt (now : Nat) (t : Team) : Option Nat :=
  t.sched.promoted.orElse fun _ => if t.sched.readySince + 4096 ≤ now then some (t.sched.readySince + 4096) else none
/-- The order of R113: promoted teams in the order of their promotion, then the higher level, then the older team; of teams
alike in all of these the lower number goes first (the spec names no further order: the model's choice, log 4). -/
def teamKey (now u : Nat) (t : Team) : List Nat :=
  (match promotedAt now t with
    | some n => [0, n]
    | none => [1, 0]) ++ [255 - t.sched.level, t.sched.age, u]

/-- The teams of a slot that may issue, in the order of R113. -/
def slotTeams (s : State) (key slot : Nat) : List Nat :=
  let here := s.teams.filter fun ut => ut.2.index % 4 = slot && canIssue s ut.2 &&
    (match s.crews.find? ut.2.crew with
      | some c => c.key = key
      | none => false)
  sortBy (fun u => ((SMap.find? here u).map (teamKey s.now u)).getD []) (SMap.keys here)

/-- Whether a team's slot chooses it: no team before it in the order of R113 is ready. -/
def slotChooses (s : State) (x : Issuer) : Bool :=
  !((slotTeams s x.c.key (x.t.index % 4)).takeWhile (· ≠ x.u)).any (ready s)
/-- Whether a team's next word asks for a matrix context that its crew does not hold. -/
def asksCtx (s : State) (x : Issuer) : Bool :=
  x.c.mxCtx.isNone && match fetched s x with
    | some (.macq _) => true
    | _ => false
/-- Whether a team of another crew issues MACQ on the same engine in this cycle and is granted first: the higher level, then
the older team (R287). -/
def macqAfter (s : State) (x : Issuer) : Bool :=
  asksCtx s x && (SMap.keys s.teams).any fun v =>
    match issuer { s with cur := some v } with
    | .ok y =>
      y.t.crew ≠ x.t.crew && y.c.cluster = x.c.cluster && asksCtx s y && slotTime s y ≤ s.now && ready s v &&
        slotChooses s y && lexLt [255 - y.t.sched.level, y.t.sched.age, v] [255 - x.t.sched.level, x.t.sched.age, x.u]
    | .error _ => false
/-- Whether a team issues its word now. -/
def chosen (s : State) (x : Issuer) : Bool := slotChooses s x && !macqAfter s x

/-- A team issues its next word, once its slot is free, where the slot chooses it. -/
def issueTeam (s : State) (u : Nat) : Result :=
  let s := { s with cur := some u }
  match issuer s with
  | .error _ => .next { s with cur := none }
  | .ok x =>
    if !issues s x then .next (holdTeam s u)
    else
      let s := pass s (slotTime s x - s.now)
      match issuer s with
      | .error _ => .next { s with cur := none }
      | .ok x =>
        if !issues s x || !chosen s x then .next { s with cur := none }
        else
          match wordAt s x with
          | .next s' => .next (afterWord s x s')
          | .fault f => .fault f
          | .refused r => .refused r

/-! ## Moves -/

/-- An event: one that is not well formed changes nothing, nor one that waits for a due deadline request (R218), and no team
issues. -/
def runEvent (s : State) (i : Instr) : Result :=
  match (if i.isWord || !i.wf || waitsForDue s i then .next s else exec i s) with
  | .next s' => .next (endMove s')
  | .fault f => .fault f
  | .refused r => .refused r

/-- A move: the issue of a team's word, an event, or a reading of the sensors. -/
def perform (s : State) : Move → Result
  | .issue u => issueTeam s u
  | .sense isl watts celsius => .next (endMove (sense s isl watts celsius))
  | .event i => runEvent s i

/-- The event that completes an operation. -/
def opEvent (id : Nat) (o : Op) : Instr :=
  match o.ctr with
  | .ld => .loadDataWritten id
  | .st => .storePerformed id
  | .rm => .remoteAcknowledge id

/-- Events of an island's engines, buffers and tables. -/
def islEvents (s : State) (i : Nat) (x : Island) : List Instr :=
  [.irrevocableTokenGrant i, .poolReinject i, .clockStep i false, .clockStep i true]
    ++ (x.faults.map fun f => [.demandPageFill i f.1, .readSharedCopy i f.1]).flatten
    ++ (x.copy.map fun y => .copyChunkWritten i y.1)
    ++ (x.coll.map fun y =>
        .collComplete i y.1 :: match (collHead s i y.1).orElse fun _ => collStopping s i y.1 with
          | none => []
          | some h => ((collKeys s h).map fun k => ((List.range h.cmd.ge.nChunks).map fun c =>
              [.collChunkComplete i y.1 k c, .chunkTimeout i y.1 k c]).flatten).flatten).flatten

/-- Events of a matrix engine. -/
def engineEvents (key : Nat) : List Instr :=
  let i := key / 9
  let c := key % 9
  [.matrixCommandComplete i c 0, .matrixCommandComplete i c 1, .miterPhase i c 0, .miterPhase i c 1, .arrayArbitration i c,
    .arrayRequestPromotion i c 0, .arrayRequestPromotion i c 1]

/-- Events of a link end. -/
def linkEvents (key : Nat) (l : Link) : List Instr :=
  let i := key / 16
  let p := key % 16
  [.flitReceived i p [], .credit i p, .limits i p, .swapreq i p, .swapack i p, .train i p, .nakRepeat i p,
    .swapTimeout i p, .linkDownTimeout i p] ++ if l.slotCycles.all (· = 0) && l.dataIn = 0 then [] else [.limitsPeriod i p]

/-- Events of a kernel. -/
def kernelEvents (kid : Nat) (k : Kernel) : List Instr :=
  [.holdCounterWake kid, .crewPlacement kid, .overflowReinject kid, .segmentMapRefresh kid, .kernelRetirement kid]
    ++ (k.isls.getD []).map (fun i => .rangeTakeRetry kid i)
    ++ ((List.range k.segMap.length).map fun g =>
        .replicaWindow kid g :: ((k.segMap.getD g {}).holders.map fun h => .replicaRetirement kid g h.core)).flatten

/-- Events of a team. -/
def teamEvents (u : Nat) (t : Team) : List Instr :=
  (if t.wakeDue then [.teamWake u] else []) ++ [.irrevocableTimeout u, .teamPromotion u]

/-- Pages that some TLB holds and that a remote island has touched (R60). -/
def pageEvents (s : State) : List Instr :=
  let held := (s.isls.map fun i => i.2.tlb).flatten ++ (s.cores.map fun c => c.2.tlb).flatten
  (s.pcp.touches.map fun kt => ((held.filter fun e => e.frame / 4096 ≤ kt.1 && kt.1 < e.frame / 4096 + 4 ^ e.size).map
    fun e => (kt.2.here.remote ++ kt.2.before.remote).map fun r => .migrationWindow e.tenant (4096 * e.page) r.1).flatten).flatten

/-- Every event the panel brings about itself. -/
def ownEvents (s : State) : List Instr :=
  s.ops.map (fun o => opEvent o.1 o.2)
    ++ (s.pkts.map fun p => [.packetDelivery p.1, .packetRelay p.1, .packetReturn p.1]).flatten
    ++ (s.links.map fun l => linkEvents l.1 l.2).flatten
    ++ s.msgs.map (fun m => .activeMessage m.1)
    ++ s.collPkts.map (fun p => .collectivePacket p.1)
    ++ s.deadlines.map (fun d => .deadlineSlack d.2.isl d.1)
    ++ (s.isls.map fun i => islEvents s i.1 i.2).flatten
    ++ (s.engines.map fun e => engineEvents e.1).flatten
    ++ (s.cores.map fun c => c.2.bins.map fun b => .binTimerExpiry c.1 b.1).flatten
    ++ (s.teams.map fun t => teamEvents t.1 t.2).flatten
    ++ .reservingKernel :: (s.kernels.map fun k => kernelEvents k.1 k.2).flatten
    ++ s.queues.map (fun q => .queuePromotion q.1)
    ++ [.arbitrationDecision, .tlbinvDone, .attestDone]
    ++ (s.tenants.map fun t => [.preemptStopDone t.1, .preemptResumeDone t.1, .tenantResetDone t.1]).flatten
    ++ s.pcp.migrations.map (fun m => .migrationCopyDone m.1)
    ++ pageEvents s

/-- Slots whose datapath is free, with their teams. -/
def slotMoves (s : State) : List Move :=
  ((SMap.keys s.cores).map fun key => ((List.range 4).map fun sl =>
    if SMap.get 0 (s.core key).slotFree sl ≤ s.now then (slotTeams s key sl).map Move.issue else []).flatten).flatten

/-! ## The schedule (log 4) -/

/-- Whether a move does anything: it stops the machine, or it changes more than the count of a held team's time. -/
def moves (s : State) (m : Move) : Bool :=
  match perform s m with
  | .next s' =>
    match m with
    | .issue u => s' ≠ holdTeam s u && s' ≠ { s with cur := none }
    | _ => s' ≠ s
  | _ => true

/-- Moves in the order in which they are tried: the panel's own events, beginning at another one each step, then the free
slots. -/
def order (s : State) : List Move :=
  let es := ownEvents s
  (es.rotateLeft (s.tick % max es.length 1)).map Move.event ++ slotMoves s

/-- Nothing can be done in this cycle. -/
def idle (s : State) : State := pass { s with cur := none } 1

/-- The next move of the schedule, or a cycle in which nothing happens. -/
def schedule (s : State) : Result :=
  match (order s).find? (moves s) with
  | some m => perform s m
  | none => .next (idle s)

/-! ## The inbox -/

/-- The queue that a move writes records to. -/
def recordQueue : Move → Option Nat
  | .event (.recordSlotWrite q _ _) | .event (.recordWindowWrite q _ _) => some q
  | .event (.requestDatagram _ _ _ bs) => some (natBits (leNat (bs.take 2)) 10 0)
  | _ => none
/-- Whether an item takes place in the cycle of the one before it: no time passes, and no word, whose slot may have to be
waited for, is issued. -/
def Item.sameCycle (j : Item) : Bool :=
  j.wait = 0 && match j.move with
    | .issue _ => false
    | _ => true
/-- The next item and what stays in the inbox: of records that complete in one cycle, whatever else takes place in it,
that of the lowest-numbered queue first (R29). -/
def nextItem : List Item → Option (Item × List Item)
  | [] => none
  | it :: rest =>
    match recordQueue it.move with
    | none => some (it, rest)
    | some q =>
      let others := (rest.takeWhile Item.sameCycle).map fun j => (recordQueue j.move).getD q
      match argMin (fun n => others.getD n q) ((List.range others.length).filter fun n => others.getD n q < q) with
      | none => some (it, rest)
      | some n =>
        match rest[n]? with
        | none => some (it, rest)
        | some first => some ({ wait := it.wait, move := first.move }, { wait := 0, move := it.move } :: rest.eraseIdx n)

/-- One step: the next move of the inbox after its wait, or the schedule's. -/
def advance (s : State) : Result :=
  match nextItem s.inbox with
  | some (it, rest) => perform (pass { s with inbox := rest, tick := s.tick + 1 } it.wait) it.move
  | none => schedule { s with tick := s.tick + 1 }

/-! ## Placing one word (log 11) -/

/-- A kernel with nothing but a code area of 4 KiB, 256 vector registers and no typed space. -/
def lonelyKernel (s : State) : Kernel :=
  { tenant := 0, queue := 0, seq := 0
    launch :=
      { entry := 0, residentId := 0, determ := false, resident := false, travel := false, rollback := false, imageVa := 0
        extent := 1, shape := { teams := 1, lanes := 32, vregs := 256 }, affN := 0, affVa := 0, sigN := 0, sigVa := 0
        ovfUnits := 0, args := [], holdBase := 0, holds := [] }
    image := { codeVa := 0, codeBytes := 4096, lspace := 0, aspace := 0, wspace := 0, entries := [], segs := [] }
    phase := .ready, accept := 0, readyAt := s.now, isls := some [0], next := 1, placed := 1, lastPlaced := s.now
    ranges := [{ isl := 0, lo := 0, hi := 1, next := 1, exited := 0 }] }

/-- A team of 32 lanes on island 0, core 0, whose next word is `w`, and an inbox that issues it. -/
def placeWord (s : State) (w : Nat) : State :=
  let kid := s.uid
  let cu := s.uid + 1
  let u := s.uid + 2
  let bytes := ((List.range 8).zip (leBytes 8 w)).foldl (fun m ib => SMap.set 0 m ib.1 ib.2) []
  let s := { s with
    uid := s.uid + 3
    kernels := s.kernels.put kid (lonelyKernel s)
    crews := s.crews.put cu { kernel := kid, idx := 0, isl := 0, core := 0 }
    teams := s.teams.put u
      { crew := cu, index := 0, lanes := 32, vregs := 256
        flow := { pc := 0, mask := fullMask 32 }
        sched := { age := s.now, level := 0, readySince := s.now } }
    inbox := [{ wait := 0, move := .issue u }] }
  s.updCore 0 fun k => { k with code := { kernel := kid, base := 0, size := 4096, bytes := bytes } :: k.code }

end Sys2Proof.Machine
end

