-- ==== Sys2Proof/Machine/Step.lean ====
section
/-! DEFINITION. The step of the machine. -/

namespace Sys2Proof.Machine

/-- One step: one move of the panel (log 4). -/
def step (s : State) : Host.Outcome State Fault Refusal := advance s

/-- `s` with the word `w` where the next step fetches it, and a team whose issue is the next step (log 11). -/
def State.withFetchWord (s : State) (_nbits w : Nat) : State := placeWord s w

end Sys2Proof.Machine
end

