-- ==== Sys2Proof/Safety.lean ====
section
/-! DEFINITION. The terms in which claims are stated: the issue and completion of a word, what stays as it was, and the
invariants of a safe run. -/

namespace Sys2Proof.Machine

/-! ## Invariants -/

/-- Between steps no word is half issued, and both memories are in canonical form. -/
def State.wf (s : State) : Prop := s.cur = none ∧ Memory.wf s.mem ∧ Memory.wf s.hostMem

/-! ## A word and its team -/

/-- The word that issues in `s` is that of team `x.u`, with its record, crew and kernel. -/
def Issues (s : State) (x : Issuer) : Prop := issuer s = .ok x

/-- A team's record at another word, after a word it issued in `s`: ready again from now on (R114, R375). -/
def Team.at_ (t : Team) (pc : Nat) (s : State) : Team :=
  { t with
    flow := { t.flow with pc := pc }
    sched := { t.sched with promoted := none, readySince := s.now, recent := (s.now :: t.sched.recent).take 8 } }

/-- Every byte of panel memory and of host memory reads as before. -/
def SameBytes (s s' : State) : Prop := ∀ a, memGet s'.mem a = memGet s.mem a ∧ memGet s'.hostMem a = memGet s.hostMem a

/-- Nothing changes outside team `u`'s record and the times the slots of core `key` are free. -/
def OnlyTeam (s s' : State) (u key : Nat) : Prop :=
  { s' with teams := s.teams, cores := s.cores } = s ∧
    (∀ v, v ≠ u → s'.teams.find? v = s.teams.find? v) ∧
    (∀ k, { s'.core k with slotFree := [] } = { s.core k with slotFree := [] }) ∧
    (∀ k, k ≠ key → s'.core k = s.core k) ∧ SameBytes s s'

/-- `i` completes in `s` and changes only its team's record, which becomes `t` at offset `pc`. -/
def Gives (i : Instr) (s : State) (x : Issuer) (t : Team) (pc : Nat) : Prop :=
  ∃ s', exec i s = .next s' ∧ s'.teams.find? x.u = some (t.at_ pc s) ∧ OnlyTeam s s' x.u x.c.key

/-- Registers that agree but for scalar registers `r` to `r + n - 1`. -/
def SameButScalar (g g' : Regs) (r n : Nat) : Prop :=
  g'.v = g.v ∧ g'.p = g.p ∧ g'.ix = g.ix ∧ g'.fmt = g.fmt ∧ g'.laneFmt = g.laneFmt ∧
    ∀ q, q < r ∨ r + n ≤ q → g'.sget q = g.sget q

/-- `i` completes at the next word, having written `v` to scalar registers `d` to `d + n - 1` and nothing else. -/
def WritesScalar (i : Instr) (s : State) (x : Issuer) (d n v : Nat) : Prop :=
  ∃ g, Gives i s x { x.t with regs := g } (x.t.flow.pc + 8) ∧ SameButScalar x.t.regs g d n ∧ g.sgetN d n = v

/-- Registers that agree but for registers `r` to `r + n - 1` of some lanes. -/
def SameButLanes (g g' : Regs) (ls : List Nat) (r n : Nat) : Prop :=
  g'.s = g.s ∧ g'.p = g.p ∧ g'.ix = g.ix ∧ g'.fmt = g.fmt ∧ g'.laneFmt = g.laneFmt ∧
    ∀ l q, q < 256 → l ∉ ls ∨ q < r ∨ r + n ≤ q → g'.vget l q = g.vget l q

/-! ## Integer results (Tables 8-8 and 10-2) -/

/-- A condition of R144 on two values of a width. -/
def condBits {w : Nat} (c : Cc) (sgn : Bool) (a b : BitVec w) : Bool :=
  let lt (a b : BitVec w) : Bool := if sgn then a.slt b else a.ult b
  match c with
  | .eq => a == b
  | .ne => a != b
  | .lt => lt a b
  | .le => !lt b a
  | .gt => lt b a
  | .ge => !lt a b

def divBits {w : Nat} (sgn : Bool) (a b : BitVec w) : BitVec w :=
  if b = 0 then BitVec.allOnes w else if sgn then a.sdiv b else a / b
def remBits {w : Nat} (sgn : Bool) (a b : BitVec w) : BitVec w :=
  if b = 0 then a else if sgn then a.srem b else a % b
def mulhBits {w : Nat} (sgn : Bool) (a b : BitVec w) : BitVec w :=
  BitVec.ofInt w (readInt sgn a * readInt sgn b / 2 ^ w)
def minBits {w : Nat} (sgn : Bool) (a b : BitVec w) : BitVec w := if condBits .lt sgn b a then b else a
def maxBits {w : Nat} (sgn : Bool) (a b : BitVec w) : BitVec w := if condBits .lt sgn a b then b else a
/-- SBFE: `len` bits from bit `pos` of the value extended by its sign or by zeros. -/
def extractBits {w : Nat} (sgn : Bool) (a : BitVec w) (pos len : Nat) : BitVec w :=
  if sgn then ((a.signExtend (w + 256)).extractLsb' pos (min len w)).signExtend w
  else ((a.setWidth (w + 256)).extractLsb' pos (min len w)).setWidth w
/-- SBFI: bits `pos` to `min (pos + len) w - 1` of `a` replaced by the low bits of `b`. -/
def InsertBits {w : Nat} (a b r : BitVec w) (pos len : Nat) : Prop :=
  ∀ i, i < w → r.getLsbD i = if pos ≤ i ∧ i < pos + min len w then b.getLsbD (i - pos) else a.getLsbD i

/-- Saturation to the range of a width (R173). -/
def satBits (w : Nat) (sgn : Bool) (x : Int) : BitVec w :=
  BitVec.ofInt w (if sgn then max (-(2 ^ (w - 1))) (min (2 ^ (w - 1) - 1) x) else max 0 (min (2 ^ w - 1) x))

/-! ## Lane results -/

/-- `i` completes at the next word, having written `f l` to registers `d` to `d + n - 1` of each lane `l` of `act`, and
nothing else. -/
def WritesLanes (i : Instr) (s : State) (x : Issuer) (act : List Nat) (d n : Nat) (f : Nat → Nat) : Prop :=
  ∃ g, Gives i s x { x.t with regs := g } (x.t.flow.pc + 8) ∧ SameButLanes x.t.regs g act d n ∧
    ∀ l ∈ act, g.vgetN l d n = f l

/-- `i` completes at the next word, having written element `e` of the destination of each lane `l` of `act` with
`f l e`, and nothing else. -/
def WritesElems (i : Instr) (s : State) (x : Issuer) (act : List Nat) (d : Nat) (ty : Elem)
    (f : Nat → Nat → BitVec ty.w) : Prop :=
  ∃ g, Gives i s x { x.t with regs := g } (x.t.flow.pc + 8) ∧ SameButLanes x.t.regs g act d ty.regs ∧
    ∀ l ∈ act, ∀ e, e < ty.n → elemAt ty.w e (g.vgetN l d ty.regs) = (f l e).toNat

/-- `i` completes at the next word, having written predicate `p` for the lanes of `act` with `f`, and nothing else. -/
def WritesPred (i : Instr) (s : State) (x : Issuer) (act : List Nat) (p : Nat) (f : Nat → Bool) : Prop :=
  ∃ g, Gives i s x { x.t with regs := g } (x.t.flow.pc + 8) ∧
    g.s = x.t.regs.s ∧ g.v = x.t.regs.v ∧ g.ix = x.t.regs.ix ∧ g.fmt = x.t.regs.fmt ∧
    (∀ q, q ≠ p → g.pget q = x.t.regs.pget q) ∧
    ∀ l, l < 1024 → laneIn (g.pget p) l = if l ∈ act then f l else laneIn (x.t.regs.pget p) l

/-- The registers a lane word names exist for its team, or no lane is active (R76, R106). -/
def LaneReady (x : Issuer) (act : List Nat) (n : Nat) (os : List Operand) : Prop :=
  x.t.vregs ≤ 256 ∧ x.t.lanes ≤ 1024 ∧ (act = [] ∨ os.all (inBounds x.t n) = true)

/-! ## Flow -/

/-- `i` completes at `pc` and changes only the return stacks of its team: the team's own to `ret`, that of each lane as
`lane` gives it. -/
def Goes (i : Instr) (s : State) (x : Issuer) (ret : List Nat) (lane : Nat → List Nat) (pc : Nat) : Prop :=
  ∃ r, (∀ l, SMap.get [] r l = lane l) ∧
    Gives i s x { x.t with flow := { x.t.flow with ret := ret, laneRet := r } } pc

/-- The mask whose lanes are those of a list. -/
def MaskIs (m : Mask) (ls : List Nat) : Prop := ∀ l, l < 1024 → laneIn m l = decide (l ∈ ls)

/-- `i` ends with the cause taken by the issuing team's crew: lanes and address as the trap report lists them (R372 to
R377). -/
def Traps (i : Instr) (s : State) (x : Issuer) (c : Cause) (lanes : Mask) (addr : Nat) : Prop :=
  exec i s = .next (raise s x.u c lanes addr 0)

/-! ## Memory words -/

/-- From `b`, the state after a word's checks, nothing changes outside the operations in flight but pages noted as reached,
the times the slots of the cores are free, and the record of team `u`. -/
def OnlyEnters (b s' : State) (u : Nat) : Prop :=
  { s' with teams := b.teams, cores := b.cores, pcp := b.pcp, ops := b.ops, uid := b.uid, pkts := b.pkts,
            streams := b.streams } = b ∧
    (∀ v, v ≠ u → s'.teams.find? v = b.teams.find? v) ∧
    (∀ k, { s'.core k with slotFree := [] } = { b.core k with slotFree := [] }) ∧
    { s'.pcp with reached := [] } = { b.pcp with reached := [] } ∧ SameBytes b s'

/-- The other teams stand as before, but that a sleeping one may have been woken (R330). -/
def OthersStand (s s' : State) (u : Nat) : Prop :=
  ∀ v, v ≠ u → (s'.teams.find? v).map (fun t => { t with wakeDue := false, ovf := [] }) =
    (s.teams.find? v).map fun t => { t with wakeDue := false, ovf := [] }

/-- Every access of a word passes its checks (R213, R221); `hs` lists lanes, addresses, home addresses and attributes. -/
def Granted (s : State) (x : Issuer) (w : Want) (n : Nat) (las : List (Nat × Nat)) (hs : List Hit) : Prop :=
  (checkLanes s x.c.isl (some x.c.key) x.k.tenant w n las).1 = hs.map fun h => (h.lane, (h.va, Check.ok h.pa h.attr))

/-- The state after the checks of a word, with the translations they fetched. -/
def afterChecks (s : State) (x : Issuer) (w : Want) (n : Nat) (las : List (Nat × Nat)) : State :=
  (checkLanes s x.c.isl (some x.c.key) x.k.tenant w n las).2

/-- An operation of the issuing team in flight (R111). -/
def opOf (x : Issuer) (ctr : Ctr) (kind : OpKind) (accs : List Access) (strm : Bool) : Op :=
  { team := x.u, crew := x.t.crew, kernel := x.c.kernel, tenant := x.k.tenant, isl := x.c.isl, core := x.c.core,
    ctr := ctr, kind := kind, accs := accs, strm := strm, span := x.span }

/-- `i` completes: one operation enters, its counter rises once, and beside these nothing changes from `b`, the state that
its checks and its release leave, but what `OnlyEnters` names. -/
def Enters (i : Instr) (s : State) (x : Issuer) (b : State) (ctr : Ctr) (kind : OpKind) (accs : List Access)
    (strm : Bool) : Prop :=
  ∃ s', exec i s = .next s' ∧ s'.ops = b.ops.put b.uid (opOf x ctr kind accs strm) ∧ s'.uid = b.uid + 1 ∧
    s'.pkts = b.pkts ∧ s'.streams = b.streams ∧
    s'.teams.find? x.u = some ({ x.t with cnt := x.t.cnt.add ctr }.at_ (x.t.flow.pc + 8) s) ∧ OnlyEnters b s' x.u

/-- `i` completes: RMCNT rises once, one remote operation enters, and packet j of `ps` (home address and cargo) enters the
stream of its home, numbered after those before it; the additions of `later` (home address and increment) wait for the
writes, in the places of their streams and the numbers of packets that follow (R111, R234, R253, R254). `ctrs` are the
counters of the word. -/
def EntersRemote (i : Instr) (s : State) (x : Issuer) (b : State) (kind : OpKind) (accs : List Access)
    (ps : List (Nat × Cargo)) (later : List (Nat × Nat)) (ctrs : List Access := []) : Prop :=
  ∃ s', exec i s = .next s' ∧
    (∃ adds, s'.ops = b.ops.put b.uid { opOf x .rm kind accs false with left := ps.length, ctrs := ctrs, adds := adds } ∧
      adds.map (fun a => (a.pa, a.inc)) = later ∧
      ∀ j a, adds[j]? = some a → a.id = b.uid + 1 + ps.length + j ∧ a.dst = homeOf x.c.isl a.pa ∧
        a.sseq = (SMap.get {} b.streams (streamKey x.c.isl x.c.core a.dst)).next +
          (ps.filter fun r => homeOf x.c.isl r.1 = a.dst).length +
          ((later.take j).filter fun r => homeOf x.c.isl r.1 = a.dst).length) ∧
    s'.uid = b.uid + 1 + ps.length + later.length ∧
    s'.teams.find? x.u = some ({ x.t with cnt := x.t.cnt.add .rm }.at_ (x.t.flow.pc + 8) s) ∧
    (∀ j p, ps[j]? = some p → ∃ q, s'.pkts.find? (b.uid + 1 + j) = some q ∧ q.pa = p.1 ∧ q.cargo = p.2 ∧
      q.op = b.uid ∧ q.src = x.c.isl ∧ q.dst = homeOf x.c.isl p.1 ∧ q.sep = x.c.core ∧ q.tenant = x.k.tenant ∧
      q.span = x.span ∧
      q.sseq = (SMap.get {} b.streams (streamKey x.c.isl x.c.core (homeOf x.c.isl p.1))).next +
        ((ps.take j).filter fun r => homeOf x.c.isl r.1 = homeOf x.c.isl p.1).length) ∧
    (∀ k, k < b.uid + 1 → s'.pkts.find? k = b.pkts.find? k) ∧ OnlyEnters b s' x.u

/-- No L1 holds a line and no team has an open transaction: what an access finds is what the homes hold. -/
def Quiet (s : State) : Prop := (∀ k, (s.core k).l1 = []) ∧ ∀ ut ∈ s.teams, ut.2.tx = none

/-- Panel memory reads `bs` from `a` upward and elsewhere as in `s`. -/
def StoresAt (s s' : State) (a : Nat) (bs : List Byte) : Prop :=
  s'.bytes a bs.length = bs ∧ ∀ b, b < a ∨ a + bs.length ≤ b → memGet s'.mem b = memGet s.mem b

/-- Panel memory reads as in `s`. -/
def SameMem (s s' : State) : Prop := ∀ a, memGet s'.mem a = memGet s.mem a

/-- Operation `id` of team `u` is gone and its counter has fallen once. -/
def Left (s s' : State) (id : Nat) (o : Op) (t t' : Team) : Prop :=
  s'.ops = s.ops.del id ∧ s'.teams.find? o.team = some t' ∧ t'.cnt = t.cnt.fall o.ctr

/-! ## Synchronisation -/

/-- `i` completes with its team at the next word as `t`; beside teams, L1 copies and translations nothing of cores,
engines, operations and memory changes. -/
def Passes (i : Instr) (s : State) (x : Issuer) (t : Team) : Prop :=
  ∃ s', exec i s = .next s' ∧ s'.teams.find? x.u = some (t.at_ (x.t.flow.pc + 8) s) ∧ SameBytes s s' ∧
    s'.ops = s.ops ∧ s'.pkts = s.pkts ∧ s'.engines = s.engines ∧ s'.crews = s.crews ∧ s'.kernels = s.kernels

/-- A team's record when a wait of it outside a transaction ends: its count of conflicts goes, and with it its request for
the irrevocable token (R328, R334). -/
def Team.waited (t : Team) : Team :=
  if t.txs.waits = 0 then t else { t with txs := { t.txs with waits := 0, asked := false } }

/-- A wait outside a transaction may try: it has met fewer than 16 conflicts, or its team has the irrevocable token (R328,
R334). -/
def MayWait (s : State) (x : Issuer) : Prop := x.t.txs.waits < 16 ∨ (s.isl x.c.isl).token = some x.u

/-- `i` puts its team to sleep on lines and words, where it stands (R326, R331, R333). -/
def Sleeps (i : Instr) (s : State) (x : Issuer) (lines words : List Nat) : Prop :=
  ∃ s' t, exec i s = .next s' ∧ s'.teams.find? x.u = some t ∧ t.status = .sleeping lines words ∧ t.flow = x.t.flow ∧
    t.regs = x.t.regs ∧ t.tx = x.t.tx ∧ (t.txs = x.t.txs ∨ t.txs = x.t.waited.txs) ∧ SameBytes s s' ∧ s'.ops = s.ops ∧
    s'.crews = s.crews

/-- A command of the issuing team enters its crew's matrix context, numbered after those before it, with fmt, the
coefficients and the table version as they stand (R273, R280, R285, R290). -/
def Submits (i : Instr) (s : State) (x : Issuer) (m : MxCtx) (kind : MxKind) (bar : Option Nat) : Prop :=
  ∃ s' m' cmd, exec i s = .next s' ∧ MxCtx.of s' x.c = some m' ∧ m'.cmds = m.cmds ++ [cmd] ∧ m'.issued = m.issued + 1 ∧
    m'.timeline = m.timeline ∧ m'.ks = m.ks ∧ m'.plane = m.plane ∧ m'.bank = m.bank ∧
    cmd.no = m.issued + 1 ∧ cmd.team = x.u ∧ cmd.kind = kind ∧ cmd.fmt = x.t.regs.fmt ∧
    cmd.ks = (List.range 16).map (SMap.get 0 m.ks) ∧ cmd.version = (s.engine x.c.cluster).sel ∧ cmd.bar = bar ∧
    s'.teams.find? x.u = some (x.t.at_ (x.t.flow.pc + 8) s) ∧
    OthersStand s s' x.u ∧ s'.crews = s.crews ∧ s'.ops = s.ops ∧ s'.pkts = s.pkts ∧
    (s'.engine x.c.cluster).tiles = (s.engine x.c.cluster).tiles

end Sys2Proof.Machine
end

