-- ==== Sys2Proof/Certificates/Slice0/Obligations.lean ====
section
/-! DEFINITION. The statements about the model, each from the rules of spec/ that its docstring names. -/

open Sys2Proof Sys2Proof.Machine

/-! ## Scalar words (08_control_scalar_instructions) -/

/-- R143, Table 8-8: what each scalar operation writes, as an operation on bit vectors of the type's width W. `A`, `B`
and `C` are the sources, `I` an arithmetic immediate and `L` a logical one (R81), `n` a shift count read as 32 bits. -/
def scalarResults (t : ITy) (d : SReg) (a b c : Operand) (imm : BitVec 24) (A B C : BitVec t.elem.w) (n : Nat) :
    List (Instr × BitVec t.elem.w) :=
  let I : BitVec t.elem.w := if t.signed then imm.signExtend t.elem.w else imm.setWidth t.elem.w
  let L : BitVec t.elem.w := imm.setWidth t.elem.w
  let sg := t.signed
  [(.sadd t d a b, A + B), (.saddImm t d a imm, A + I), (.ssub t d a b, A - B), (.ssubImm t d a imm, A - I),
   (.smul t d a b, A * B), (.smulImm t d a imm, A * I), (.smulh t d a b, mulhBits sg A B),
   (.sdiv t d a b, divBits sg A B), (.srem t d a b, remBits sg A B),
   (.sand t d a b, A &&& B), (.sandImm t d a imm, A &&& L), (.sor t d a b, A ||| B), (.sorImm t d a imm, A ||| L),
   (.sxor t d a b, A ^^^ B), (.sxorImm t d a imm, A ^^^ L),
   (.sshl t d a b, A <<< n), (.sshlImm t d a imm, A <<< imm.toNat),
   (.sshr t d a b, A >>> n), (.sshrImm t d a imm, A >>> imm.toNat),
   (.ssra t d a b, A.sshiftRight n), (.ssraImm t d a imm, A.sshiftRight imm.toNat),
   (.smin t d a b, minBits sg A B), (.sminImm t d a imm, minBits sg A I),
   (.smax t d a b, maxBits sg A B), (.smaxImm t d a imm, maxBits sg A I),
   (.ssel t d a b c, if C ≠ 0 then A else B)]

/-- R122, R142, R143 and R81: for every well-formed scalar type, each scalar operation of Table 8-8 completes with its
result in sD or the pair, and changes nothing else but the offset. The sources are taken as the model reads them, below
2^W (`SourcesFit` says when). -/
def Obligations.ScalarResults : Prop :=
  ∀ (s : State) (x : Issuer) (t : ITy) (d : SReg) (a b c : Operand) (imm : BitVec 24),
    Issues s x → t.plain = true →
    (∀ o ∈ [a, b, c], srcVal s x t.elem 0 o < 2 ^ t.elem.w) →
    ∀ ir ∈ scalarResults t d a b c imm (BitVec.ofNat _ (srcVal s x t.elem 0 a)) (BitVec.ofNat _ (srcVal s x t.elem 0 b))
        (BitVec.ofNat _ (srcVal s x t.elem 0 c)) (srcVal s x t.elem 0 b % 2 ^ 32),
      WritesScalar ir.1 s x d.toNat t.regs ir.2.toNat

/-- R142 and Table 8-8: moves, comparison, bit fields and counts of the scalar unit. `n` is the count word of SBFE. -/
def scalarMoves (t : ITy) (d : SReg) (a b : Operand) (cc : Cc) (imm : BitVec 24) (A B : BitVec t.elem.w) (n : Nat) :
    List (Instr × BitVec t.elem.w) :=
  let W := t.elem.w
  [(.smov t d a, A), (.smovi t d imm, if t.signed then imm.signExtend W else imm.setWidth W),
   (.scmp t cc d a b, if condBits cc t.signed A B then 1 else 0),
   (.sbfe t d a b, extractBits t.signed A (n % 256) (n / 256 % 256)),
   (.spopc t d a, BitVec.ofNat W ((List.range W).countP A.getLsbD)),
   (.sclz t d a, BitVec.ofNat W (W - A.toNat.size))]

/-- R142, R143, R144: SMOV, SMOVI, SCMP, SBFE, SPOPC and SCLZ write their result and nothing else; SMOVH replaces the
upper 24 bits of its register; SBFI replaces the bits its count word names. -/
def Obligations.ScalarMoves : Prop :=
  ∀ (s : State) (x : Issuer) (t : ITy) (d : SReg) (a b c : Operand) (cc : Cc) (imm : BitVec 24),
    Issues s x → t.plain = true →
    (∀ o ∈ [a, b, c], srcVal s x t.elem 0 o < 2 ^ t.elem.w) →
    let A := BitVec.ofNat t.elem.w (srcVal s x t.elem 0 a)
    let B := BitVec.ofNat t.elem.w (srcVal s x t.elem 0 b)
    let n := srcVal s x t.elem 0 b % 2 ^ 32
    let m := srcVal s x t.elem 0 c % 2 ^ 32
    (∀ ir ∈ scalarMoves t d a b cc imm A B n, WritesScalar ir.1 s x d.toNat t.regs ir.2.toNat) ∧
    WritesScalar (.smovh d imm) s x d.toNat 1 (imm.toNat * 256 + (x.t.regs.sget d.toNat).toNat % 256) ∧
    ∃ R, InsertBits A B R (m % 256) (m / 256 % 256) ∧ WritesScalar (.sbfi t d a b c) s x d.toNat t.regs R.toNat

/-- R53, R140, R355 and Table 8-6: the value of each item of QRY. -/
def queryItems (s : State) (x : Issuer) : List (QryItem × Nat) :=
  let set := x.k.isls.getD []
  let cores (d : Nat) : Nat := if s.panel.cores35.contains d then 35 else 36
  let n := if s.panel.empty.isSome then 24 else 25
  [(.grade, if s.panel.gradeB then 0x0B else 0x0A), (.nisl, n), (.lrows, 5), (.lcols, 5), (.llast, n - 20),
   (.icores, cores x.c.isl), (.pcores, (((List.range n).filter fun d => (s.isl d).live).map cores).sum),
   (.topo, (Config.topoPage x.k.tenant).toNat * 4096), (.lanes, x.k.launch.shape.lanes),
   (.teams, x.k.launch.shape.teams), (.vregs, x.k.launch.shape.vregs), (.extent, x.k.launch.extent),
   (.nset, set.length), (.setrank, (set.filter fun i => i < x.c.isl).length), (.cycle, s.now)]

/-- R140, R141 and R148: QRY writes the value of its item, in a register or a pair; SREG the word of the mask, the
summary word, the depths, the counters and the level that its selector names, and 0 for no other; GETFMT writes fmt. -/
def Obligations.QueriesRead : Prop :=
  ∀ (s : State) (x : Issuer) (d : SReg) (a : Operand), Issues s x →
    (∀ iv ∈ queryItems s x, let n := if iv.1.wide then 2 else 1
      WritesScalar (.qry d iv.1) s x d.toNat n (iv.2 % 2 ^ (32 * n))) ∧
    WritesScalar (.getfmt d) s x d.toNat 1 x.t.regs.fmt.toNat ∧
    let sel := src32 s x 0 a
    let low := (lanesOf x.t.flow.mask x.t.lanes).headD 0
    let depth := if x.k.travels then (laneRetOf x.t low).length else x.t.flow.ret.length
    (sel < 32 → ∃ W : Word, (∀ j < 32, W.getLsbD j = laneIn x.t.flow.mask (32 * sel + j)) ∧
      WritesScalar (.sreg d a) s x d.toNat 1 W.toNat) ∧
    (sel = 32 → ∃ W : Word, (∀ j < 32, (W.getLsbD j = true ↔ ∃ i < 32, laneIn x.t.flow.mask (32 * j + i) = true)) ∧
      WritesScalar (.sreg d a) s x d.toNat 1 W.toNat) ∧
    (∀ v ∈ [(33, x.t.flow.stack.length), (34, depth), (35, x.t.cnt.ld), (36, x.t.cnt.st), (37, x.t.cnt.rm),
        (38, x.t.sched.level)], sel = v.1 → WritesScalar (.sreg d a) s x d.toNat 1 (v.2 % 2 ^ 32)) ∧
    (38 < sel → WritesScalar (.sreg d a) s x d.toNat 1 0)

/-- R145: MBAL, MANY, MALL and MPOP over the lanes Y of ACTIVE whose condition holds, where ACTIVE is empty or the
condition's register exists. -/
def Obligations.MaskWordsCount : Prop :=
  ∀ (s : State) (x : Issuer) (g : Guard) (d : SReg) (a w : Operand), Issues s x →
    x.lanes g = [] ∨ inBounds x.t 1 a = true → x.t.lanes ≤ 1024 →
    let Y := (x.lanes g).filter fun l => condVal s x l a
    let n := src32 s x 0 w
    (∃ W : Word, (∀ j < 32, W.getLsbD j = decide (n < 32 ∧ 32 * n + j ∈ Y)) ∧
      WritesScalar (.mbal g d a w) s x d.toNat 1 W.toNat) ∧
    WritesScalar (.many g d a) s x d.toNat 1 (if Y = [] then 0 else 1) ∧
    WritesScalar (.mall g d a) s x d.toNat 1 (if Y = x.lanes g then 1 else 0) ∧
    WritesScalar (.mpop g d a) s x d.toNat 1 Y.length

/-- R134, R146 to R148 and R150: NOP, YIELD, MSET where a lane stays in the mask, SETIX, SETFMT, and WAITC where its
counters stand low enough, each with its one effect on the team; a WAITC whose counters stand higher holds the team. -/
def Obligations.TeamRegistersSet : Prop :=
  ∀ (s : State) (x : Issuer), Issues s x →
    let pc := x.t.flow.pc + 8
    Gives .nop s x x.t pc ∧
    Gives .yield s x { x.t with sched := { x.t.sched with age := s.now } } pc ∧
    (∀ n a imm, ∃ r, Gives (.setix n a imm) s x { x.t with regs := r } pc ∧
      (r.ixget n.toNat).toNat = (src32 s x 0 a + imm.toNat) % 2 ^ 16 ∧ (∀ m, m ≠ n.toNat → r.ixget m = x.t.regs.ixget m) ∧
      r.s = x.t.regs.s ∧ r.v = x.t.regs.v ∧ r.p = x.t.regs.p ∧ r.fmt = x.t.regs.fmt) ∧
    (∀ i, Gives (.setfmt (.imm i)) s x { x.t with regs := { x.t.regs with fmt := i, laneFmt := [] } } pc) ∧
    (∀ r, Gives (.setfmt (.reg r)) s x
      { x.t with regs := { x.t.regs with fmt := (x.t.regs.sget r.toNat).setWidth 24, laneFmt := [] } } pc) ∧
    (∀ ld st rm, x.t.cnt.ld ≤ ld.toNat ∧ x.t.cnt.st ≤ st.toNat ∧ x.t.cnt.rm ≤ rm.toNat →
      Gives (.waitc ld st rm) s x x.t pc) ∧
    (∀ ld st rm, ¬(x.t.cnt.ld ≤ ld.toNat ∧ x.t.cnt.st ≤ st.toNat ∧ x.t.cnt.rm ≤ rm.toNat) →
      exec (.waitc ld st rm) s = .next s) ∧
    (∀ g a m, x.lanes g = [] ∨ inBounds x.t 1 a = true → x.t.lanes ≤ 1024 → m ≠ 0 →
      (∀ l < 1024, laneIn m l = (laneIn x.t.flow.mask l && !decide (l ∈ x.lanes g ∧ condVal s x l a = false))) →
      Gives (.mset g a) s x { x.t with flow := { x.t.flow with mask := m } } pc)

/-! ## Vector words (10_vector_instructions) -/

/-- R169 and R172 to R174, Table 10-2: what each element of a lane receives. `A`, `B`, `C` are the elements of the
sources, `I` and `L` the immediates (R81), `n` the shift count. -/
def vectorResults (g : Guard) (t : ITy) (d a b c : Operand) :
    List (Instr × (BitVec t.elem.w → BitVec t.elem.w → BitVec t.elem.w → Nat → BitVec t.elem.w)) :=
  let sg := t.elem.sgn
  let w := t.elem.w
  [(.vadd g t false d a b, fun A B _ _ => A + B), (.vsub g t false d a b, fun A B _ _ => A - B),
   (.vadd g t true d a b, fun A B _ _ => satBits w sg (readInt sg A + readInt sg B)),
   (.vsub g t true d a b, fun A B _ _ => satBits w sg (readInt sg A - readInt sg B)),
   (.vmul g t d a b, fun A B _ _ => A * B), (.vmulh g t d a b, fun A B _ _ => mulhBits sg A B),
   (.vmad g t d a b c, fun A B C _ => A * B + C),
   (.vmin g t d a b, fun A B _ _ => minBits sg A B), (.vmax g t d a b, fun A B _ _ => maxBits sg A B),
   (.vand g t d a b, fun A B _ _ => A &&& B), (.vor g t d a b, fun A B _ _ => A ||| B),
   (.vxor g t d a b, fun A B _ _ => A ^^^ B), (.vnot g t d a, fun A _ _ _ => ~~~A),
   (.vabs g t false d a, fun A _ _ _ => if A.msb then -A else A), (.vneg g t false d a, fun A _ _ _ => -A),
   (.vabs g t true d a, fun A _ _ _ => satBits w true A.toInt.natAbs),
   (.vneg g t true d a, fun A _ _ _ => satBits w true (-A.toInt)),
   (.vshl g t d a b, fun A _ _ n => A <<< n), (.vshr g t d a b, fun A _ _ n => A >>> n),
   (.vsra g t d a b, fun A _ _ n => A.sshiftRight n),
   (.vpopc g t d a, fun A _ _ _ => BitVec.ofNat w ((List.range w).countP A.getLsbD)),
   (.vclz g t d a, fun A _ _ _ => BitVec.ofNat w (w - A.toNat.size)), (.vmov g t d a, fun A _ _ _ => A)]

/-- The same for the words of types that are not packed only: immediates (R81), VMOVI (R177) and VBFE (R174). -/
def plainVectorResults (g : Guard) (t : ITy) (d a b : Operand) (imm : BitVec 24) :
    List (Instr × (BitVec t.elem.w → BitVec t.elem.w → BitVec t.elem.w → Nat → BitVec t.elem.w)) :=
  let sg := t.elem.sgn
  let w := t.elem.w
  let I : BitVec w := if sg then imm.signExtend w else imm.setWidth w
  let L : BitVec w := imm.setWidth w
  [(.vaddImm g t d a imm, fun A _ _ _ => A + I), (.vsubImm g t d a imm, fun A _ _ _ => A - I),
   (.vmulImm g t d a imm, fun A _ _ _ => A * I), (.vminImm g t d a imm, fun A _ _ _ => minBits sg A I),
   (.vmaxImm g t d a imm, fun A _ _ _ => maxBits sg A I), (.vandImm g t d a imm, fun A _ _ _ => A &&& L),
   (.vorImm g t d a imm, fun A _ _ _ => A ||| L), (.vxorImm g t d a imm, fun A _ _ _ => A ^^^ L),
   (.vshlImm g t d a imm, fun A _ _ _ => A <<< imm.toNat), (.vshrImm g t d a imm, fun A _ _ _ => A >>> imm.toNat),
   (.vsraImm g t d a imm, fun A _ _ _ => A.sshiftRight imm.toNat), (.vmovi g t d imm, fun _ _ _ _ => I),
   (.vbfe g t d a b, fun A _ _ n => extractBits sg A (n % 256) (n / 256 % 256))]

/-- R106, R168, R169 and R172 to R174: for every integer type, each vector operation writes each element of its
destination in the lanes of ACTIVE, from registers as they stood before it, and nothing else. -/
def Obligations.VectorResults : Prop :=
  ∀ (s : State) (x : Issuer) (g : Guard) (t : ITy) (d a b c : Operand) (imm : BitVec 24),
    Issues s x → d.isVec = true → LaneReady x (x.lanes g) t.elem.regs [d, a, b, c] →
    (∀ o ∈ [a, b, c], ∀ l ∈ x.lanes g, srcVal s x t.elem l o < 2 ^ (32 * t.elem.regs)) →
    let E (o : Operand) (l e : Nat) : BitVec t.elem.w := BitVec.ofNat _ (elemAt t.elem.w e (srcVal s x t.elem l o))
    let n (l e : Nat) : Nat := if t.packed then (E b l e).toNat else srcVal s x t.elem l b % 2 ^ 32
    let results := vectorResults g t d a b c ++ if t.plain then plainVectorResults g t d a b imm else []
    (∀ ir ∈ results, WritesElems ir.1 s x (x.lanes g) (vregOf x.t.regs d) t.elem
      fun l e => ir.2 (E a l e) (E b l e) (E c l e) (n l e)) ∧
    (t.plain = true → ∃ R : Nat → Nat → BitVec t.elem.w,
      (∀ l, InsertBits (E a l 0) (E b l 0) (R l 0) (srcVal s x t.elem l c % 256)
        (srcVal s x t.elem l c / 256 % 256)) ∧
      WritesElems (.vbfi g t d a b c) s x (x.lanes g) (vregOf x.t.regs d) t.elem R)

/-- R175, R181: VCMP and FCMP write all ones or 0 to each element of a vector destination, or 1 or 0 per lane to a
predicate; the integer conditions are those of R144 on the elements' values. R176: VSEL chooses per lane. -/
def Obligations.ComparesSelect : Prop :=
  ∀ (s : State) (x : Issuer) (g : Guard) (d a b c : Operand), Issues s x →
    (∀ (t : ITy) (cc : Cc) (p : BitVec 8), 0x90 ≤ p.toNat → p.toNat ≤ 0x96 → t.plain = true →
      LaneReady x (x.lanes g) t.elem.regs [a, b] →
      (∀ o ∈ [a, b], ∀ l ∈ x.lanes g, srcVal s x t.elem l o < 2 ^ t.elem.w) →
      WritesPred (.vcmp g t cc (.k p) a b) s x (x.lanes g) (p.toNat - 0x90) fun l =>
        condBits cc t.elem.sgn (BitVec.ofNat t.elem.w (srcVal s x t.elem l a)) (BitVec.ofNat _ (srcVal s x t.elem l b))) ∧
    (∀ (t : ITy) (cc : Cc), d.isVec = true → LaneReady x (x.lanes g) t.elem.regs [d, a, b] →
      WritesElems (.vcmp g t cc d a b) s x (x.lanes g) (vregOf x.t.regs d) t.elem fun l e =>
        if condBits cc t.elem.sgn (BitVec.ofNat t.elem.w (elemAt t.elem.w e (srcVal s x t.elem l a)))
          (BitVec.ofNat _ (elemAt t.elem.w e (srcVal s x t.elem l b))) then BitVec.allOnes _ else 0) ∧
    (∀ (t : FTy) (rm : Rm) (cc : Fcc) (p : BitVec 8), 0x90 ≤ p.toNat → p.toNat ≤ 0x96 →
      LaneReady x (x.lanes g) t.elem.regs [a, b] →
      WritesPred (.fcmp g t rm cc (.k p) a b) s x (x.lanes g) (p.toNat - 0x90) fun l =>
        cc.holds (t.fmt.val (srcVal s x t.elem l a)) (t.fmt.val (srcVal s x t.elem l b))) ∧
    (∀ (t : FTy) (rm : Rm) (cc : Fcc), d.isVec = true → LaneReady x (x.lanes g) t.elem.regs [d, a, b] →
      WritesElems (.fcmp g t rm cc d a b) s x (x.lanes g) (vregOf x.t.regs d) t.elem fun l e =>
        if cc.holds (t.fmt.val (elemAt t.elem.w e (srcVal s x t.elem l a)))
          (t.fmt.val (elemAt t.elem.w e (srcVal s x t.elem l b))) then BitVec.allOnes _ else 0) ∧
    ∀ (t : ITy), d.isVec = true → LaneReady x (x.lanes g) t.regs [d, a, b] → LaneReady x (x.lanes g) 1 [c] →
      WritesLanes (.vsel g t d a b c) s x (x.lanes g) (vregOf x.t.regs d) t.regs fun l =>
        (if src32 s x l c ≠ 0 then srcVal s x t.elem l a else srcVal s x t.elem l b) % 2 ^ (32 * t.regs)

/-- R178 to R180, Table 10-3: each float word rounds the exact result of its function once, in its rounding mode, or to
nearest for an immediate (R81). -/
def floatResults (g : Guard) (t : FTy) (rm : Rm) (d a b c : Operand) (imm : BitVec 24) :
    List (Instr × (Nat → Nat → Nat → Nat)) :=
  let f := t.fmt
  let I : Nat := elemAt t.elem.w 0 (immFloat t imm)
  [(.fadd g t rm d a b, fun A B _ => f.round rm (FVal.add rm (f.val A) (f.val B))),
   (.faddImm g t d a imm, fun A _ _ => f.round .ne (FVal.add .ne (f.val A) (f.val I))),
   (.fsub g t rm d a b, fun A B _ => f.round rm (FVal.add rm (f.val A) (f.val B).neg)),
   (.fsubImm g t d a imm, fun A _ _ => f.round .ne (FVal.add .ne (f.val A) (f.val I).neg)),
   (.fmul g t rm d a b, fun A B _ => f.round rm (FVal.mul (f.val A) (f.val B))),
   (.fmulImm g t d a imm, fun A _ _ => f.round .ne (FVal.mul (f.val A) (f.val I))),
   (.ffma g t rm d a b c, fun A B C => f.round rm (FVal.add rm (FVal.mul (f.val A) (f.val B)) (f.val C))),
   (.fmin g t rm d a b, fun A B _ => f.minMax false A B), (.fminImm g t d a imm, fun A _ _ => f.minMax false A I),
   (.fmax g t rm d a b, fun A B _ => f.minMax true A B), (.fmaxImm g t d a imm, fun A _ _ => f.minMax true A I),
   (.fdiv g t rm d a b, fun A B _ => f.div rm (f.val A) (f.val B)),
   (.frcp g t rm d a, fun A _ _ => f.div rm (.fin false 1 0) (f.val A)),
   (.frsq g t rm d a, fun A _ _ => f.rsqrt rm (f.val A)), (.fsqrt g t rm d a, fun A _ _ => f.sqrt rm (f.val A)),
   (.fex2 g t rm d a, fun A _ _ => f.exp2 rm (f.val A)), (.flg2 g t rm d a, fun A _ _ => f.log2 rm (f.val A)),
   (.fsin g t rm d a, fun A _ _ => f.trig false rm (f.val A)), (.fcos g t rm d a, fun A _ _ => f.trig true rm (f.val A)),
   (.ffrc g t rm d a, fun A _ _ => f.frc (f.val A)), (.frnd g t rm d a, fun A _ _ => f.rnd rm (f.val A))]

/-- R106, R168, R169 and R178 to R182: every float word completes with its rounded result in each element of each lane of
ACTIVE, to the element's width, and nothing else changed; no flag, trap or stop depends on the operands. -/
def Obligations.FloatResults : Prop :=
  ∀ (s : State) (x : Issuer) (g : Guard) (t : FTy) (rm : Rm) (d a b c : Operand) (imm : BitVec 24),
    Issues s x → d.isVec = true → LaneReady x (x.lanes g) t.elem.regs [d, a, b, c] →
    (t.packed = true → imm.toNat < 2 ^ 16) →
    let E (o : Operand) (l e : Nat) : Nat := elemAt t.elem.w e (srcVal s x t.elem l o)
    ∀ ir ∈ floatResults g t rm d a b c imm,
      WritesElems ir.1 s x (x.lanes g) (vregOf x.t.regs d) t.elem fun l e =>
        BitVec.ofNat _ (ir.2 (E a l e) (E b l e) (E c l e))

/-! ## Conversions, packing, cross-lane and pair words (05_instruction_words, 10_vector_instructions) -/

/-- R184, R185, Table 10-6: the register image of the result of CVT for an element of value `v`, or `n` where it is an
integer: rounded or clamped to the destination's type, then filled with its sign or with zeros. -/
def cvtImage (dst src : CTy) (rm : Rm) (v : FVal) (n : Int) : Nat :=
  let fill (r : BitVec dst.w) : Nat :=
    (if dst.sgn then r.signExtend (32 * dst.regs) else r.setWidth (32 * dst.regs)).toNat
  match dst.fmt? with
  | some f => f.round rm v
  | none =>
    if dst = .lns6 then lnsNE v
    else if src.isFloat then fill (BitVec.ofInt dst.w (roundInt dst.sgn dst.w rm v))
    else fill (satBits dst.w dst.sgn n)

/-- R185: `bad`. An integer result is out of range: of a float that is NaN, infinite or rounds beyond the type, of an
integer that the type does not hold. -/
def cvtBad (dst src : CTy) (rm : Rm) (v : FVal) (n : Int) : Bool :=
  let lo : Int := if dst.sgn then -(2 ^ (dst.w - 1)) else 0
  let hi : Int := if dst.sgn then 2 ^ (dst.w - 1) - 1 else 2 ^ dst.w - 1
  let out (y : Int) : Bool := decide (y < lo ∨ hi < y)
  !dst.isFloat && if src.isFloat then
    match v with
    | .nan | .inf _ => true
    | .fin neg m e => out (roundToInt rm neg m e)
  else out n

/-- R183 to R185: CVT writes the converted element of every lane of ACTIVE; with CHK a value out of range raises ARITH for
its lanes and nothing is written. R186, R187: HPACK packs two rounded values, LPACK sixteen codes into three registers,
LUNP unpacks them. -/
def conversionsPack : Prop :=
  ∀ (s : State) (x : Issuer) (g : Guard) (d a b : Operand) (rm : Rm), Issues s x → d.isVec = true → x.t.vregs ≤ 256 →
    x.t.lanes ≤ 1024 →
    let act := x.lanes g
    let va := vregOf x.t.regs a
    let D := vregOf x.t.regs d
    (∀ (dst src : CTy) (chk : Bool) (sel : BitVec 2),
      act = [] ∨ (inBounds x.t dst.regs d = true ∧ inBounds x.t src.regs a = true) →
      let e (l : Nat) : Nat := cvtElem s x src sel l a
      let v (l : Nat) : FVal := cvtVal src (e l)
      let n (l : Nat) : Int := if src.sgn then (BitVec.ofNat src.w (e l)).toInt else (e l : Int)
      let bad := act.filter fun l => cvtBad dst src rm (v l) (n l)
      (chk = false ∨ bad = [] → WritesLanes (.cvt g dst src chk rm sel d a) s x act D dst.regs
        fun l => cvtImage dst src rm (v l) (n l) % 2 ^ (32 * dst.regs)) ∧
      (chk = true → bad ≠ [] → Traps (.cvt g dst src chk rm sel d a) s x .arith (maskOf bad) 0)) ∧
    (∀ t : FTy, t.packed = true → LaneReady x act 1 [d, a, b] →
      let r (l : Nat) (o : Operand) : Nat := t.fmt.round rm (FFmt.fp32.val (srcVal s x (FTy.elem .f32) l o))
      WritesLanes (.hpack g t rm d a b) s x act D 1 fun l => (r l a + r l b * 2 ^ 16) % 2 ^ 32) ∧
    (∀ raw : Bool, act = [] ∨ (rangeInBounds x.t 3 d = true ∧ rangeInBounds x.t 16 a = true) →
      ∃ f, WritesLanes (.lpack g raw d a) s x act D 3 f ∧ ∀ l ∈ act, ∀ j < 16, elemAt 6 j (f l) =
        (if raw then (x.t.regs.vget l (va + j)).toNat else lnsNE (FFmt.fp32.val (x.t.regs.vget l (va + j)).toNat)) % 64) ∧
    ∀ raw : Bool, act = [] ∨ (rangeInBounds x.t 16 d = true ∧ rangeInBounds x.t 3 a = true) →
      ∃ f, WritesLanes (.lunp g raw d a) s x act D 16 f ∧ ∀ l ∈ act, ∀ j < 16,
        let q := elemAt 6 j (x.t.regs.vgetN l va 3)
        elemAt 32 j (f l) = (if raw then q else FFmt.fp32.round .ne (lnsVal q)) % 2 ^ 32

/-- R188: the lane a mode names from lane l and the number b, or none. -/
def partnerLane (mode : ShMode) (lanes l b : Nat) : Option Nat :=
  let k : Int := match mode with
    | .idx => b
    | .up => (l : Int) - b
    | .down => l + b
    | .xor => ((l ^^^ b : Nat) : Int)
  if 0 ≤ k ∧ k < lanes then some k.toNat else none

/-- R188 to R191: SHFL pulls from the partner, or its own lane; PSHW pushes to the partner, the highest lane winning; BCST
gives every lane of ACTIVE the value of one. -/
def lanesExchange : Prop :=
  ∀ (s : State) (x : Issuer) (g : Guard) (t : ITy) (mode : ShMode) (d a b : Operand), Issues s x →
    let act := x.lanes g
    let D := vregOf x.t.regs d
    d.isVec = true → LaneReady x act t.regs [d, a] → LaneReady x act 1 [b] →
    let other (l : Nat) := partnerLane mode x.t.lanes l (src32 s x l b)
    let value (l : Nat) : Nat := regVal x.t.regs l t.regs a % 2 ^ (32 * t.regs)
    WritesLanes (.shfl g t mode d a b) s x act D t.regs (fun l => value ((other l).getD l)) ∧
    WritesLanes (.bcst g t d a b) s x act D t.regs (fun _ => value (src32 s x 0 b % x.t.lanes)) ∧
    ∃ r, Gives (.pshw g t mode d a b) s x { x.t with regs := r } (x.t.flow.pc + 8) ∧
      SameButLanes x.t.regs r (List.range x.t.lanes) D t.regs ∧
      (∀ k, (∀ l ∈ act, other l ≠ some k) → r.vgetN k D t.regs = x.t.regs.vgetN k D t.regs) ∧
      ∀ l ∈ act, ∀ k, other l = some k → (∀ m ∈ act, l < m → other m ≠ some k) → r.vgetN k D t.regs = value l

/-- R193: the value of positions q to q + 2^n − 1 of the tree: neighbours are combined, and an ABSENT one takes no part. -/
def treeValue (f : Nat → Nat → Nat) (leaf : Nat → Option Nat) (q : Nat) : Nat → Option Nat
  | 0 => leaf q
  | n + 1 =>
    match treeValue f leaf q n, treeValue f leaf (q + 2 ^ n) n with
    | some u, some v => some (f u v)
    | some u, none => some u
    | none, v => v

/-- R194: the lanes of a list combined from the left. -/
def runningValue (f : Nat → Nat → Nat) (A : Nat → Nat) : List Nat → Option Nat
  | [] => none
  | l :: ls => some (ls.foldl (fun v m => f v (A m)) (A l))

/-- R192 to R194: VRED writes the value of its tree over the lanes of ACTIVE, in a scalar register or in each of those
lanes, and VSCAN the values combined up to each lane, or before it, the first of these being the identity; with ACTIVE
empty nothing is written. (A team of LANES that is no power of two, which only a bin's FILL gives, has absent positions up
to the next: log 77.) -/
def lanesCombine : Prop :=
  ∀ (s : State) (x : Issuer) (g : Guard) (op : ROp) (t : RTy) (rm : Rm) (d a : Operand) (sd : SReg), Issues s x →
    x.t.vregs ≤ 256 → x.t.lanes ≤ 1024 → d.isVec = true →
    let act := x.lanes g
    let D := vregOf x.t.regs d
    let w := 32 * t.regs
    let f := redOp op t rm
    let A (l : Nat) : Nat := regVal x.t.regs l t.regs a
    let tree := (treeValue f (fun q => if q ∈ act then some (A q) else none) 0 10).getD 0
    (act = [] → ∀ i ∈ [Instr.vred g op t rm (.s sd) a, .vred g op t rm d a, .vscan g op t false rm d a,
      .vscan g op t true rm d a], Gives i s x x.t (x.t.flow.pc + 8)) ∧
    (act ≠ [] → inBounds x.t t.regs a = true →
      WritesScalar (.vred g op t rm (.s sd) a) s x sd.toNat t.regs (tree % 2 ^ w) ∧
      (inBounds x.t t.regs d = true →
        WritesLanes (.vred g op t rm d a) s x act D t.regs (fun _ => tree % 2 ^ w) ∧
        ∀ excl : Bool, WritesLanes (.vscan g op t excl rm d a) s x act D t.regs fun l =>
          (runningValue f A (act.filter fun m => if excl then m < l else m ≤ l)).getD (redIdent op t) % 2 ^ w)) ∧
    (t.isFloat = false → op = .add → tree = ((act.map fun l => BitVec.ofNat w (A l)).sum).toNat)

/-- R192, R194: the operation ⊕ on the patterns of two values, and its identity. -/
def combineValues : Prop :=
  ∀ (t : RTy) (rm : Rm) (a b : Nat), let w := t.elem.w
    let sg := t.elem.sgn
    let A := BitVec.ofNat w a
    let B := BitVec.ofNat w b
    a < 2 ^ w → b < 2 ^ w →
    (t.isFloat = false →
      redOp .add t rm a b = (A + B).toNat ∧ redOp .min t rm a b = (minBits sg A B).toNat ∧
      redOp .max t rm a b = (maxBits sg A B).toNat ∧ redOp .and t rm a b = (A &&& B).toNat ∧
      redOp .or t rm a b = (A ||| B).toNat ∧ redOp .xor t rm a b = (A ^^^ B).toNat ∧
      (∀ op, (op = .and ∨ op = .min ∧ sg = false) → redIdent op t = 2 ^ w - 1) ∧
      (∀ op, op ∈ [ROp.add, .or, .xor] ∨ op = .max ∧ sg = false → redIdent op t = 0) ∧
      (sg = true → redIdent .min t = 2 ^ (w - 1) - 1 ∧ redIdent .max t = 2 ^ (w - 1))) ∧
    ∀ f, t.elem.flt = some f →
      redOp .add t rm a b = f.round rm (FVal.add rm (f.val a) (f.val b)) ∧
      redOp .min t rm a b = f.minMax false a b ∧ redOp .max t rm a b = f.minMax true a b ∧ redIdent .add t = 0 ∧
      f.val (redIdent .min t) = .inf false ∧ f.val (redIdent .max t) = .inf true

/-- R82: the operation of a half on D and S. -/
def pairValue (p : Pop) (D S : Word) : Word :=
  let flt (v : FVal) : Word := BitVec.ofNat 32 (FFmt.fp32.round .ne v)
  let F (x : Word) : FVal := FFmt.fp32.val x.toNat
  match p with
  | .vadd => D + S
  | .vsub => D - S
  | .vmul => D * S
  | .vmin => minBits true D S
  | .vmax => maxBits true D S
  | .vand => D &&& S
  | .vor => D ||| S
  | .vxor => D ^^^ S
  | .vshl => D <<< S.toNat
  | .vshr => D >>> S.toNat
  | .vsra => D.sshiftRight S.toNat
  | .vmov => S
  | .fadd => flt (FVal.add .ne (F D) (F S))
  | .fsub => flt (FVal.add .ne (F D) (F S).neg)
  | .fmul => flt (FVal.mul (F D) (F S))
  | .fmin => BitVec.ofNat 32 (FFmt.fp32.minMax false D.toNat S.toNat)
  | .fmax => BitVec.ofNat 32 (FFmt.fp32.minMax true D.toNat S.toNat)

/-- R82, R83: a pair word whose registers exist, or with no lane to run in, writes both halves from registers as they stood
before it, each in the lanes of the mask that its predicate admits; where both write one register, the second half's value
stands. With a register missing it raises REGBOUND (R76) for the lanes active in either half: which lanes it names for two
halves R76 does not say, and the model's choice is log 25. -/
def pairWordsWrite : Prop :=
  ∀ (s : State) (x : Issuer) (h0 h1 : Half), Issues s x → x.t.vregs ≤ 256 → x.t.lanes ≤ 1024 →
    let runs (h : Half) (l : Nat) : Bool := l < x.t.lanes && laneIn x.t.flow.mask l && match h.hpred with
      | .always => true
      | .p0 => laneIn (x.t.regs.pget 0) l
      | .p1 => laneIn (x.t.regs.pget 1) l
      | .notP0 => !laneIn (x.t.regs.pget 0) l
    let act := (List.range x.t.lanes).filter fun l => runs h0 l || runs h1 l
    let exist := ∀ h ∈ [h0, h1], h.d.toNat < x.t.vregs ∧ (h.imm = true ∨ h.s.toNat < x.t.vregs)
    let S (h : Half) (l : Nat) : Word :=
      if h.imm then if popFloat h.pop then BitVec.ofNat 32 (FFmt.fp32.round .ne (FVal.ofInt false h.s.toInt 0))
        else h.s.signExtend 32
      else x.t.regs.vget l h.s.toNat
    let V (h : Half) (l : Nat) : Word := pairValue h.pop (x.t.regs.vget l h.d.toNat) (S h l)
    (exist ∨ act = [] → ∃ r, Gives (.pairWord h0 h1) s x { x.t with regs := r } (x.t.flow.pc + 8) ∧
      r.s = x.t.regs.s ∧ r.p = x.t.regs.p ∧ r.ix = x.t.regs.ix ∧ r.fmt = x.t.regs.fmt ∧ r.laneFmt = x.t.regs.laneFmt ∧
      ∀ l q, q < 256 → r.vget l q =
        if runs h1 l = true ∧ q = h1.d.toNat then V h1 l
        else if runs h0 l = true ∧ q = h0.d.toNat then V h0 l else x.t.regs.vget l q) ∧
    (¬exist → act ≠ [] → Traps (.pairWord h0 h1) s x .regbound (maskOf act) 0)

/-- R82, R83, R183 to R194: conversions, packing, exchanges between lanes, reductions and pair words complete with their
results. -/
def Obligations.PackAndCrossLane : Prop :=
  conversionsPack ∧ lanesExchange ∧ lanesCombine ∧ combineValues ∧ pairWordsWrite

/-! ## Control (08_control_scalar_instructions) -/

/-- R73, R104, R115, R129, Table 8-1: BRA, BRC and JMPR go to a target inside the code, or the resident segment, and
change nothing else; a BRC whose register is 0 goes on at the next word. -/
def branchesJumpRule : Prop :=
  ∀ (s : State) (x : Issuer) (c a : SReg) (disp : BitVec 24), Issues s x →
    let dest := branchTarget x disp
    let p : Nat := (x.t.regs.sget a.toNat).toNat
    dest = x.t.flow.pc + 8 * disp.toInt ∧
    (inCode s x dest = true → dest % 8 = 0 → Goes (.bra disp) s x x.t.flow.ret (laneRetOf x.t) dest.toNat ∧
      (x.t.regs.sget c.toNat ≠ 0 → Goes (.brc c disp) s x x.t.flow.ret (laneRetOf x.t) dest.toNat)) ∧
    (x.t.regs.sget c.toNat = 0 → Gives (.brc c disp) s x x.t (x.t.flow.pc + 8)) ∧
    (inCode s x p = true → p % 8 = 0 → Goes (.jmpr a) s x x.t.flow.ret (laneRetOf x.t) p)

/-- R118, R130, R131: CALL and CALLR push the offset of the next word, RET pops it: on the team's stack of 8 in an
ordinary kernel, on the stack of every lane of the mask in a travelling one. -/
def callsReturnRule : Prop :=
  ∀ (s : State) (x : Issuer) (a : SReg) (disp : BitVec 24), Issues s x →
    let ls := lanesOf x.t.flow.mask x.t.lanes
    let next := x.t.flow.pc + 8
    let calls : List (Instr × Int) :=
      [(.call disp, branchTarget x disp), (.callr a, (x.t.regs.sget a.toNat).toNat)]
    let lane (l : Nat) := laneRetOf x.t l
    (x.k.travels = false →
      (x.t.flow.ret.length < 8 → ∀ it ∈ calls, inCode s x it.2 = true → it.2 % 8 = 0 →
        Goes it.1 s x (x.t.flow.ret ++ [next]) lane it.2.toNat) ∧
      (∀ (rest : List Nat) (p : Nat), x.t.flow.ret = rest ++ [p] → inCode s x p = true → p % 8 = 0 → Goes .ret s x rest lane p)) ∧
    (x.k.travels = true → ls ≠ [] →
      ((∀ l ∈ ls, (lane l).length < 8) → ∀ it ∈ calls, inCode s x it.2 = true → it.2 % 8 = 0 →
        Goes it.1 s x x.t.flow.ret (fun l => if l ∈ ls then lane l ++ [next] else lane l) it.2.toNat) ∧
      (∀ p : Nat, (∀ l ∈ ls, (lane l).getLast? = some p) → inCode s x p = true → p % 8 = 0 →
        Goes .ret s x x.t.flow.ret (fun l => if l ∈ ls then (lane l).dropLast else lane l) p))

/-- R73, R104, R115, R118, R129 to R131: branches, calls and returns. -/
def Obligations.BranchesAndCalls : Prop := branchesJumpRule ∧ callsReturnRule

/-- R124, R125: BRV below the greatest depth, with a target inside the code, pushes one entry and runs the lanes that take
it; where none does it goes on with the whole mask. `T` is the set of the rule. -/
def divergePushesRule : Prop :=
  ∀ (s : State) (x : Issuer) (g : Guard) (c : Operand) (disp : BitVec 24) (T : Mask), Issues s x → x.t.lanes ≤ 1024 →
    x.lanes g = [] ∨ inBounds x.t 1 c = true → inCode s x (branchTarget x disp) = true →
    x.t.flow.stack.length < 32 + 192 / (8 + x.t.lanes / 4) →
    MaskIs T ((x.lanes g).filter fun l => src32 s x l c ≠ 0) →
    let f := x.t.flow
    let e : RecEntry :=
      { st := .first, off := some (f.pc + 8), saved := f.mask, todo := f.mask &&& ~~~T, fmt := x.t.regs.fmt }
    (T ≠ 0 → Gives (.brv g c disp) s x { x.t with flow := { f with mask := T, stack := e :: f.stack } }
      (branchTarget x disp).toNat) ∧
    (T = 0 → Gives (.brv g c disp) s x
      { x.t with flow := { f with stack := { e with st := .second, off := none, todo := 0 } :: f.stack } } (f.pc + 8))

/-- R124, R126: BRK without a taker goes on; with takers, some lane staying, they wait in the BREAK entry of the target,
merged with the top entry where that is one of the same target, else pushed. -/
def breakWaitsRule : Prop :=
  ∀ (s : State) (x : Issuer) (g : Guard) (c : Operand) (disp : BitVec 24) (T : Mask), Issues s x → x.t.lanes ≤ 1024 →
    x.lanes g = [] ∨ inBounds x.t 1 c = true → inCode s x (branchTarget x disp) = true →
    MaskIs T ((x.lanes g).filter fun l => src32 s x l c ≠ 0) →
    let f := x.t.flow
    let dest := (branchTarget x disp).toNat
    let onward (stack : List RecEntry) : Prop :=
      Gives (.brk g c disp) s x { x.t with flow := { f with mask := f.mask &&& ~~~T, stack := stack } } (f.pc + 8)
    (T = 0 → Gives (.brk g c disp) s x x.t (f.pc + 8)) ∧
    (T ≠ 0 → f.mask &&& ~~~T ≠ 0 →
      (∀ e rest, f.stack = e :: rest → e.st = .brk → e.off = some dest → onward ({ e with todo := e.todo ||| T } :: rest)) ∧
      ((∀ e rest, f.stack = e :: rest → ¬(e.st = .brk ∧ e.off = some dest)) →
        f.stack.length < 32 + 192 / (8 + x.t.lanes / 4) →
        onward ({ st := .brk, off := some dest, saved := f.mask, todo := T, fmt := x.t.regs.fmt } :: f.stack)))

/-- R124 to R126: BRV and BRK. -/
def Obligations.DivergeAndBreak : Prop := divergePushesRule ∧ breakWaitsRule

/-- R127: JOIN at offset J, with no entry, with one whose other path is to run, with one that ends here, with another. -/
def Obligations.JoinReconverges : Prop :=
  ∀ (s : State) (x : Issuer), Issues s x →
    let f := x.t.flow
    let j := f.pc
    (f.stack = [] → Gives .join s x x.t (j + 8)) ∧
    ∀ e rest, f.stack = e :: rest →
      (e.st = .first → e.todo ≠ 0 → ∀ o, e.off = some o →
        Gives .join s x { x.t with
          regs := { x.t.regs with fmt := e.fmt }
          flow := { f with mask := e.todo, stack := { e with st := .second, off := some j, todo := 0 } :: rest } } o) ∧
      ((e.st = .first ∧ e.todo = 0) ∨ (e.st = .second ∧ (e.off = some j ∨ e.off = none)) ∨ (e.st = .brk ∧ e.off = some j) →
        e.saved ≠ 0 → Gives .join s x { x.t with
          regs := { x.t.regs with fmt := e.fmt }, flow := { f with mask := e.saved, stack := rest } } (j + 8)) ∧
      ((e.st = .second ∧ e.off ≠ some j ∧ e.off ≠ none) ∨ (e.st = .brk ∧ e.off ≠ some j) →
        Gives .join s x x.t (j + 8))

/-- R128: Settle(next), one turn of its loop at a time. -/
def Obligations.SettleUnwinds : Prop :=
  ∀ (t : Team) (next : Nat),
    let f := t.flow
    let at_ (g : Flow) (fmt : BitVec 24) : Team := { t with flow := g, regs := { t.regs with fmt := fmt } }
    (f.mask ≠ 0 → settled t next = some (at_ { f with pc := next } t.regs.fmt)) ∧
    (f.mask = 0 → f.stack = [] → settled t next = none) ∧
    ∀ e rest, f.mask = 0 → f.stack = e :: rest →
      (e.todo ≠ 0 → ∀ o, e.off = some o →
        (e.st = .first → settled t next = some (at_
          { f with mask := e.todo, pc := o, stack := { e with st := .second, off := none, todo := 0 } :: rest } e.fmt)) ∧
        (e.st ≠ .first → settled t next = some (at_
          { f with mask := e.todo, pc := o, stack := { e with todo := 0 } :: rest } e.fmt))) ∧
      (e.todo = 0 →
        let up := at_ { f with mask := e.saved, stack := rest } e.fmt
        (∀ o, e.st = .brk → e.off = some o → settled t next = settled up (o + 8)) ∧
        (∀ o, e.st = .second → e.off = some o → settled t next = settled up (o + 8)) ∧
        (e.st = .first ∨ (e.st = .second ∧ e.off = none) → settled t next = settled up next))

/-- R116, R128, R132, R133: EXIT clears the lanes of ACTIVE from the mask and every entry, and the team goes on where it
settles; where it settles nowhere it ends. EXIT.crew ends it and closes its crew. -/
def Obligations.ExitEnds : Prop :=
  ∀ (s : State) (x : Issuer) (g : Guard), Issues s x →
    let gone := x.active g
    let f := x.t.flow
    let t : Team := { x.t with flow := { f with
      mask := f.mask &&& ~~~gone
      stack := f.stack.map fun e => { e with saved := e.saved &&& ~~~gone, todo := e.todo &&& ~~~gone } } }
    (∀ t', settled t (f.pc + 8) = some t' → Gives (.exit g false) s x t' t'.flow.pc) ∧
    (settled t (f.pc + 8) = none →
      exec (.exit g false) s = .next (endTeam (charge (s.setTeam x.u t) x (passes f.mask)) x.u)) ∧
    exec (.exit g true) s = .next (endTeam (charge (closeCrew s x.t.crew) x 1) x.u)

/-! ## Traps, marks, spawns and departures -/

/-- R372 to R377 (20_interruption): a cause of a team whose crew is not halted. The crew is halted for it, named as the
team's; the tenant's SERIAL rises by one; the team keeps its registers, has no open transaction and stands where it
raised, or for BREAK and GANGLOST at the next word. -/
def Obligations.TrapHaltsCrew : Prop :=
  ∀ (s : State) (x : Issuer) (cause : Cause) (lanes : Mask) (addr code : Nat), Issues s x → x.c.halt = none →
    let s' := raise s x.u cause lanes addr code
    (∃ c h, s'.crews.find? x.t.crew = some c ∧ c.halt = some h ∧ h.cause = cause ∧ h.team = x.t.index ∧ h.engine = 0 ∧
      h.cmd = 0) ∧
    (s'.tenant x.k.tenant).serial = ((s.tenant x.k.tenant).serial + 1) % 2 ^ 32 ∧
    ∃ t, s'.teams.find? x.u = some t ∧ t.regs = x.t.regs ∧ t.tx = none ∧ t.status = .run ∧
      (x.t.tx = none → t.flow =
        if cause = .brk ∨ cause = .ganglost then { x.t.flow with pc := x.t.flow.pc + 8 } else x.t.flow)

/-- R135: TRAP raises BREAK for the whole mask with its code. R76, R104, R106, R109, R115, R124, R130: where the words of
control and of lanes raise a cause instead of completing, in an ordinary kernel. -/
def Obligations.ControlTraps : Prop :=
  ∀ (s : State) (x : Issuer) (g : Guard) (c : Operand) (a d : SReg) (code : BitVec 16) (disp : BitVec 24), Issues s x →
    x.k.travels = false →
    let dest := branchTarget x disp
    let p : Nat := (x.t.regs.sget a.toNat).toNat
    let mask := x.t.flow.mask
    let act := x.lanes g
    let T := act.filter fun l => condVal s x l c
    exec (.trap code) s = .next (raise s x.u .brk mask 0 code.toNat) ∧
    (inCode s x dest = false → Traps (.bra disp) s x .spacebound mask (offsetAddr dest) ∧
      Traps (.call disp) s x .spacebound mask (offsetAddr dest)) ∧
    (inCode s x p = true → p % 8 ≠ 0 → Traps (.jmpr a) s x .misalign mask (offsetAddr p) ∧
      Traps (.callr a) s x .misalign mask (offsetAddr p)) ∧
    (inCode s x dest = true → dest % 8 = 0 → 8 ≤ x.t.flow.ret.length →
      lanesOf mask x.t.lanes ≠ [] → Traps (.call disp) s x .stackovf (maskOf (lanesOf mask x.t.lanes)) 0) ∧
    (x.t.flow.ret = [] → Traps .ret s x .stackovf mask 0) ∧
    (act = [] ∨ inBounds x.t 1 c = true → inCode s x dest = true → maxDepth x.t.lanes ≤ x.t.flow.stack.length →
      Traps (.brv g c disp) s x .stackovf (maskOf act) 0) ∧
    (act ≠ [] → inBounds x.t 1 c = false → ∀ i ∈ [Instr.brv g c disp, .brk g c disp, .mset g c, .many g d c, .mall g d c,
        .mpop g d c, .mbal g d c (.s a)], Traps i s x .regbound (maskOf act) 0) ∧
    (act ≠ [] → inBounds x.t 1 c = true → T ≠ [] → inCode s x dest = false →
      Traps (.brv g c disp) s x .spacebound (maskOf T) (offsetAddr dest) ∧
      Traps (.brk g c disp) s x .spacebound (maskOf T) (offsetAddr dest)) ∧
    (act ≠ [] → inBounds x.t 1 c = true → x.t.tx = none → Traps (.xfer g c) s x .spacebound (maskOf act)
      (src32 s x (act.headD 0) c))

/-- R136, R387: MARK outside a transaction, its stores and remote operations done, closes the span of a resident team of a
rollback kernel: the log of every island holds no record of it, and the team opens a new span; elsewhere it only goes
on, and with operations outstanding it holds its team. -/
def marksRule : Prop :=
  ∀ (s : State) (x : Issuer), Issues s x → x.t.tx = none →
    (x.t.cnt.st ≠ 0 ∨ x.t.cnt.rm ≠ 0 → exec .mark s = .next s) ∧
    (x.t.cnt.st = 0 → x.t.cnt.rm = 0 →
      (x.k.launch.rollback = false ∨ x.k.launch.resident = false → Gives .mark s x x.t (x.t.flow.pc + 8)) ∧
      (x.k.launch.rollback = true → x.k.launch.resident = true →
        let g : SpanTag := { kernel := x.c.kernel, crew := x.c.idx, span := x.t.span }
        ∃ s', exec .mark s = .next s' ∧ (∀ i, (s'.isl i).log = (s.isl i).log.filter fun r => r.tag ≠ g) ∧
          s'.teams.find? x.u = some ({ x.t with span := s.uid, formedBy := [] }.at_ (x.t.flow.pc + 8) s) ∧
          (∀ v, v ≠ x.u → s'.teams.find? v = s.teams.find? v) ∧ s'.crews = s.crews ∧ SameBytes s s'))

/-- R137 to R139, R316: SPAWN of a handler entry forms one lane entry for every lane its target island accepts, with that
lane's words, and its predicate says which were accepted; nothing else of the team changes. An entry that is forwarded to
another island (R65) leaves in a packet. -/
def spawnsRule : Prop :=
  ∀ (s : State) (x : Issuer) (g : Guard) (pay dest : Operand) (entry : BitVec 8) (lenm1 : BitVec 4) (pd : BitVec 3)
    (e : Entry), Issues s x → x.t.tx = none → x.t.cnt.ld = 0 → x.t.cnt.st = 0 → x.lanes g ≠ [] → x.t.lanes ≤ 1024 →
    rangeInBounds x.t (lenm1.toNat + 1) pay = true → inBounds x.t 1 dest = true →
    x.k.image.entries[entry.toNat]? = some e → e.handler = true →
    ∃ (s' : State) (oks : List Nat) (r : Regs), exec (.spawn g pay dest entry lenm1 pd) s = .next s' ∧ oks.Sublist (x.lanes g) ∧
      s'.teams.find? x.u = some ({ x.t with regs := r }.at_ (x.t.flow.pc + 8) s) ∧
      r.v = x.t.regs.v ∧ r.s = x.t.regs.s ∧ r.ix = x.t.regs.ix ∧ r.fmt = x.t.regs.fmt ∧
      (∀ q, q ≠ pd.toNat → r.pget q = x.t.regs.pget q) ∧
      (∀ l < 1024, laneIn (r.pget pd.toNat) l = if l ∈ x.lanes g then decide (l ∈ oks)
        else laneIn (x.t.regs.pget pd.toNat) l) ∧
      (∀ j l, oks[j]? = some l → ∃ m, m.kernel = x.c.kernel ∧ m.off = e.off ∧ m.span = x.span ∧
        m.payload = .words ((List.range (lenm1.toNat + 1)).map fun i => x.t.regs.vget l (vregOf x.t.regs pay + i)) ∧
        (m.isl = x.c.isl → s'.msgs.find? (s.uid + j) = some m) ∧
        (m.isl ≠ x.c.isl → ∃ p, s'.pkts.find? (s.uid + j) = some p ∧ p.cargo = .active m ∧ p.src = x.c.isl ∧ p.dst = m.isl)) ∧
      s'.uid = s.uid + oks.length ∧
      (∀ k, k < s.uid → s'.msgs.find? k = s.msgs.find? k ∧ s'.pkts.find? k = s.pkts.find? k) ∧ s'.ops = s.ops ∧
      s'.crews = s.crews ∧ OthersStand s s' x.u

/-- R136 to R139, R316, R387: what MARK closes and SPAWN forms. -/
def Obligations.SpansAndSpawns : Prop := marksRule ∧ spawnsRule

/-- R110, R115, R116, R119, R151: XFER in a travelling kernel, outside a transaction, to aligned TRAVEL_TARGET entries. A
register the payloads carry and an operation is still to write holds it. Else, where the overflow area has a slot for
every payload, each lane of ACTIVE departs and leaves the mask and every entry of the stack, and the team goes on where it
settles, or is gone. The payload of a single lane, with none in flight, goes to the bin of its holder where that has room,
and else to the overflow area. With ACTIVE empty it only goes on; where its lanes' targets are misaligned, or are no
entries, it raises MISALIGN or SPACEBOUND. -/
def Obligations.XferDeparts : Prop :=
  ∀ (s : State) (x : Issuer) (g : Guard) (a : Operand), Issues s x → x.k.travels = true →
    let act := x.lanes g
    let pc := x.t.flow.pc + 8
    let goal (l : Nat) : Nat := src32 s x l a
    let liveV (l : Nat) : Nat := ((travelEntry x.k (goal l)).map (·.liveV)).getD 0
    let late (l : Nat) : Bool := carriesPending s x.u (liveV l)
    let t := x.t.without act
    (act = [] → Gives (.xfer g a) s x x.t pc) ∧
    (act ≠ [] → x.t.tx = none → inBounds x.t 1 a = true →
      ((∀ l ∈ act, goal l % 8 ≠ 0) → Traps (.xfer g a) s x .misalign (maskOf act) (goal (act.headD 0))) ∧
      ((∀ l ∈ act, goal l % 8 = 0 ∧ travelEntry x.k (goal l) = none) →
        Traps (.xfer g a) s x .spacebound (maskOf act) (goal (act.headD 0))) ∧
      ((∀ l ∈ act, goal l % 8 = 0 ∧ (travelEntry x.k (goal l)).isSome) →
        ((∃ l ∈ act, late l = true) → exec (.xfer g a) s = .next s) ∧
        ((∀ l ∈ act, late l = false) →
          (x.k.overflow.length + act.length ≤ 128 * x.k.launch.ovfUnits → x.u < s.uid →
            ∃ s', exec (.xfer g a) s = .next s' ∧
              (∀ t', settled t pc = some t' → s'.teams.find? x.u = some (t'.at_ t'.flow.pc s)) ∧
              (settled t pc = none → s'.teams.find? x.u = none)) ∧
          ∀ l core, act = [l] → s.msgs = [] → liveV l ≤ 109 →
            holderFor s x.c.kernel x.k x.c.isl (goal l) = some core →
            let key := coreKey x.c.isl core
            let fmt := (x.t.regs.laneFmt.find? l).getD x.t.regs.fmt
            let payload : Payload := .travel ((List.range 8).map x.t.regs.sget) fmt (laneRetOf x.t l)
              ((List.range (liveV l)).map (x.t.regs.vget l))
            let e : LaneEntry :=
              { kernel := x.c.kernel, off := goal l, isl := x.c.isl, core := core, payload := payload, src := some x.c.key }
            let Departs (s1 : State) : Prop :=
              (∀ t', settled t pc = some t' → exec (.xfer g a) s = .next (finish s1 x t' (passes x.t.flow.mask))) ∧
              (settled t pc = none →
                exec (.xfer g a) s = .next (endTeam (charge (s1.setTeam x.u t) x (passes x.t.flow.mask)) x.u))
            (∀ bi b, binOf (s.core key) x.c.kernel (goal l) = some bi → SMap.find? (s.core key).bins bi = some b →
              (0 < b.room x.k → Departs (s.addMsg e)) ∧
              (b.room x.k = 0 → x.k.overflow.length < 128 * x.k.launch.ovfUnits → Departs (s.updKernel x.c.kernel fun k =>
                { k with overflow := k.overflow ++ [{ e with src := none }] }))) ∧
            (binOf (s.core key) x.c.kernel (goal l) = none → (s.core key).bins.length < 32 → Departs (s.addMsg e)))))

/-! ## State of the engines read by words -/

/-- R141, R149, R303, R342, R356, Tables 15-6, 18-2: SETK and GETK on the coefficients of the crew's matrix context,
MSTAT, TXS and TLRD of their words. -/
def Obligations.EngineStateReads : Prop :=
  ∀ (s : State) (x : Issuer) (d : SReg) (a : Operand) (n : BitVec 4), Issues s x →
    (∀ c m, x.c.mxCtx = some c → MxCtx.of s x.c = some m →
      WritesScalar (.getk d n) s x d.toNat 1 (SMap.get 0 m.ks n.toNat).toNat ∧
      (∃ s', exec (.setk n a) s = .next s' ∧ s'.teams.find? x.u = some (x.t.at_ (x.t.flow.pc + 8) s) ∧
        SameBytes s s' ∧ ∃ m', MxCtx.of s' x.c = some m' ∧ { m' with ks := [] } = { m with ks := [] } ∧
          ∀ j, SMap.get 0 m'.ks j = if j = n.toNat then BitVec.ofNat 32 (src32 s x 0 a) else SMap.get 0 m.ks j) ∧
      (x.t.tx = none → x.t.cnt.st = 0 → c < 2 →
        let e := s.engine x.c.cluster
        ∀ iv ∈ [(0, m.loop.iter + m.loop.phase * 2 ^ 8 + m.loop.out * 2 ^ 10), (1, m.loop.r0.toNat),
            (2, m.loop.rprev.toNat), (3, m.loop.rlast.toNat),
            (4, c + m.bank * 2 + (if e.sel then 4 else 0) + (if m.refused then 8 else 0) +
              (if (e.ctx (1 - c)).crew.isSome then 16 else 0) + m.cmds.length * 2 ^ 8)],
          WritesScalar (.mstat d (BitVec.ofNat 4 iv.1)) s x d.toNat 1 (iv.2 % 2 ^ 32))) ∧
    (x.c.mxCtx = none → Traps (.getk d n) s x .enginedeny x.t.flow.mask 0 ∧
      Traps (.setk n a) s x .enginedeny x.t.flow.mask 0) ∧
    WritesScalar (.txs d) s x d.toNat 1 ((x.t.txs.code.code + x.t.txs.conflicts * 2 ^ 8 +
      (if x.t.tx.isSome then 2 ^ 16 else 0) + ((x.t.tx.map fun tx => tx.alts.length).getD 0) * 2 ^ 17 +
      (if (s.isl x.c.isl).token = some x.u then 2 ^ 20 else 0)) % 2 ^ 32) ∧
    (∀ eng v, boundCtx s x.c eng = some v →
      WritesScalar (.tlrd eng .value d) s x d.toNat 2 (v.1 % 2 ^ 64) ∧
      WritesScalar (.tlrd eng .issued d) s x d.toNat 2 (v.2 % 2 ^ 64)) ∧
    (∀ eng mode, boundCtx s x.c eng = none → Traps (.tlrd eng mode d) s x .enginedeny x.t.flow.mask 0)

/-! ## Memory words (11_memory, 12_memory_instructions) -/

/-- R205, R210 to R213, R221: the checks of one access of n bytes by a core none of whose lookups hold the address, in
their order: its alignment, its 56 bits, whether the walk reads a poisoned sector (that such a walk is a read of the
access is log 51), what the walk finds, the permission of the page and its home. The topology table is read in the
island's copy of it, which a first load waits for (that it stands as island 32 is the model's own, log 16). -/
def accessesCheckedRule : Prop :=
  ∀ (s : State) (isl key tenant n va : Nat) (w : Want),
    let r := (checkAccess s isl (some key) tenant w n va).1
    (va % n ≠ 0 → r = .cause .misalign) ∧
    (va % n = 0 → 2 ^ 56 ≤ va → r = .cause .notmapped) ∧
    (va % n = 0 → va < 2 ^ 56 → (∀ e ∈ (s.core key).tlb, e.covers tenant va = false) →
      (∀ e ∈ (s.isl isl).tlb, e.covers tenant va = false) →
      (walkStruck s tenant va = true → r = .cause .ue) ∧
      (walkStruck s tenant va = false →
      (walk s tenant va = .bad → r = .cause .notmapped) ∧
      (∀ demand pte level size x, walk s tenant va = .missing demand pte level size x → r = .miss demand false) ∧
      ∀ e, walk s tenant va = .leaf e → w ∈ [Want.load, .store, .atomic, .rread, .rwrite, .ratomic, .counter] →
        let denied := e.attr = .none ∨
          (w ∈ [Want.store, .atomic, .rwrite, .ratomic, .counter] ∧ (e.w = false ∨ e.attr = .shared)) ∨
          (w ∈ [Want.atomic, .ratomic, .counter] ∧ e.attr ≠ .coherent)
        (denied → r = .cause .perm) ∧
        (¬denied → (e.isl = isl ∧ isl ≠ 32) ∨ w ∈ [Want.rread, .rwrite, .ratomic, .counter] → r = .ok (e.pa va) e.attr) ∧
        (¬denied → e.isl = 32 → w = .load → r = if (s.isl isl).topo then .ok (e.pa va) e.attr else .miss true true) ∧
        (¬denied → e.isl ≠ isl → e.isl ≠ 32 → w ∈ [Want.load, .store, .atomic] → (w = .load → e.attr ≠ .shared) →
          r = .cause .remotels)))

/-- R73: a global effective address is a pair plus the sign-extended offset modulo 2^64, a typed-space one a register plus
it modulo 2^32. -/
def addressesAddRule : Prop :=
  ∀ (x : Issuer) (ofs : BitVec 24) (lane : Nat),
    (∀ r : SReg, BitVec.ofNat 64 (ea64 x (.s r) ofs lane) = x.t.regs.sget64 r.toNat + ofs.signExtend 64 ∧
      ea64 x (.s r) ofs lane < 2 ^ 64) ∧
    (∀ v : BitVec 8, BitVec.ofNat 64 (ea64 x (.v v) ofs lane) = x.t.regs.vget64 lane v.toNat + ofs.signExtend 64 ∧
      BitVec.ofNat 32 (ea32 x (.v v) ofs lane) = x.t.regs.vget lane v.toNat + ofs.signExtend 32 ∧
      ea32 x (.v v) ofs lane < 2 ^ 32)

/-- R210 to R212: the checks of accesses leave the operations in flight, the packets and the time as they are; where no L1
holds a line and no transaction is open, all that they change is the translations in the TLBs and the lines the walker
brings into the L2. -/
def checksTranslateRule : Prop :=
  ∀ (s : State) (isl tenant n : Nat) (core : Option Nat) (w : Want) (las : List (Nat × Nat)),
    let b := (checkLanes s isl core tenant w n las).2
    b.ops = s.ops ∧ b.uid = s.uid ∧ b.pkts = s.pkts ∧ b.streams = s.streams ∧ b.now = s.now ∧ b.crews = s.crews ∧
    (Quiet s → { b with cores := s.cores, isls := s.isls } = s ∧
      (∀ k, { b.core k with tlb := [] } = { s.core k with tlb := [] }) ∧
      ∀ j, { b.isl j with tlb := [], l2 := [] } = { s.isl j with tlb := [], l2 := [] })

/-- R73, R210 to R213 and R221: how the address of an access forms and what its checks find. -/
def Obligations.AddressesChecked : Prop := accessesCheckedRule ∧ addressesAddRule ∧ checksTranslateRule

/-- R106, R111, R220 to R227: outside a transaction, with their registers there, their counter below 63 and every access
granted, LD, ST, LDS, STS, CFLUSH and CINV enter one operation with the accesses of their lanes and raise LDCNT or STCNT
once; nothing is read or stored yet. -/
def Obligations.GlobalWordsEnter : Prop :=
  ∀ (s : State) (x : Issuer) (g : Guard) (sz : Sz) (strm : Bool) (d base : Operand) (sd sb : SReg) (ofs : BitVec 24)
    (hs : List Hit), Issues s x → x.t.tx = none →
    let n := sz.bytes
    let act := x.lanes g
    let las := act.map fun l => (l, ea64 x base ofs l)
    let one := [(0, ea64 x (.s sb) ofs 0)]
    let stored (o : Operand) (l : Nat) : Nat := dataVal x l n o
    let after (w : Want) (las : List (Nat × Nat)) : State := afterChecks s x w n las
    (act ≠ [] → inBounds x.t (ceilDiv n 4) d = true → inBounds x.t 2 base = true →
      (x.t.cnt.ld ≠ 63 → Granted s x .load n las hs →
        Enters (.ld g sz strm d base ofs) s x (after .load las) .ld (.load .global n false (vregOf x.t.regs d)) (hs.map accOf) strm) ∧
      (x.t.cnt.st ≠ 63 → Granted s x .store n las hs →
        Enters (.st g sz strm d base ofs) s x (after .store las) .st (.store .global n)
          (hs.map fun h => { accOf h with data := stored d h.lane }) strm)) ∧
    (x.t.cnt.ld ≠ 63 → Granted s x .load n one hs →
      Enters (.lds sz strm sd sb ofs) s x (after .load one) .ld (.load .global n true sd.toNat) (hs.map accOf) strm) ∧
    (x.t.cnt.st ≠ 63 → Granted s x .store n one hs →
      Enters (.sts sz strm sd sb ofs) s x (after .store one) .st (.store .global n)
        (hs.map fun h => { accOf h with data := stored (.s sd) 0 }) strm) ∧
    (act ≠ [] → inBounds x.t 2 base = true → x.t.cnt.st ≠ 63 → Granted s x .load n las hs →
      Enters (.cflush g sz strm base ofs) s x (after .load las) .st (.flush n) (hs.map accOf) false ∧
      Enters (.cinv g sz strm base ofs) s x (after .load las) .st (.inv n) (hs.map accOf) false)

/-- R195, R221, R225: LDL, STL, LDA and STA inside the crew's allocation, aligned; an LDL of one lane outside it, past 0
among that, or misaligned raises SPACEBOUND or MISALIGN. -/
def Obligations.TypedWordsEnter : Prop :=
  ∀ (s : State) (x : Issuer) (g : Guard) (sz : Sz) (strm : Bool) (d base : Operand) (ofs : BitVec 24), Issues s x →
    let n := sz.bytes
    let act := x.lanes g
    let whole (l : Nat) : Int := (regVal x.t.regs l 1 base : Int) + ofs.toInt
    let inRange (l : Nat) : Prop := 0 ≤ whole l ∧ whole l < 2 ^ 32
    let fits (limit : Nat) : Prop :=
      ∀ l ∈ act, inRange l ∧ ea32 x base ofs l % n = 0 ∧ ea32 x base ofs l + n ≤ limit
    let accs : List Access := act.map fun l => { lane := l, addr := ea32 x base ofs l }
    let stores : List Access := act.map fun l => { lane := l, addr := ea32 x base ofs l, data := dataVal x l n d }
    act ≠ [] → inBounds x.t (ceilDiv n 4) d = true → inBounds x.t 1 base = true →
    (x.t.cnt.ld ≠ 63 →
      (fits x.k.image.lspace → Enters (.ldl g sz strm d base ofs) s x s .ld
        (.load .lspace n false (vregOf x.t.regs d)) accs false) ∧
      (fits x.k.image.aspace → Enters (.lda g sz strm d base ofs) s x s .ld
        (.load .aspace n false (vregOf x.t.regs d)) accs false) ∧
      (∀ l, act = [l] → ¬inRange l ∨ x.k.image.lspace < ea32 x base ofs l + n →
        Traps (.ldl g sz strm d base ofs) s x .spacebound (maskOf [l]) (ea32 x base ofs l)) ∧
      (∀ l, act = [l] → inRange l → ea32 x base ofs l + n ≤ x.k.image.lspace → ea32 x base ofs l % n ≠ 0 →
        Traps (.ldl g sz strm d base ofs) s x .misalign (maskOf [l]) (ea32 x base ofs l))) ∧
    (x.t.cnt.st ≠ 63 →
      (fits x.k.image.lspace → Enters (.stl g sz strm d base ofs) s x s .st (.store .lspace n) stores false) ∧
      (fits x.k.image.aspace → Enters (.sta g sz strm d base ofs) s x s .st (.store .aspace n) stores false))

/-- R228 to R233, R313: ATOM and RED, with a release first written back from the L1, enter one operation with the operands
of every lane; under .cas the operand pair is the compare value and the new value. -/
def Obligations.AtomicWordsEnter : Prop :=
  ∀ (s : State) (x : Issuer) (g : Guard) (t : ATy) (op : AOp) (ord : Ord) (sc : Scope) (d : Option Operand)
    (base b : Operand) (hs : List Hit), Issues s x → x.t.tx = none →
    let act := x.lanes g
    let m := t.elem.regs
    let w := 2 ^ (32 * m)
    let operand (l : Nat) : Nat × Nat :=
      if op = .cas then (regVal x.t.regs l (2 * m) b % w, regVal x.t.regs l (2 * m) b / w) else (srcVal s x t.elem l b, 0)
    let accs := hs.map fun h => { accOf h with data := (operand h.lane).1, data2 := (operand h.lane).2 }
    let las := act.map fun l => (l, ea64 x base 0 l)
    let b' := relDone (afterChecks s x .atomic (4 * m) las) x ord sc
    act ≠ [] → inBounds x.t 2 base = true → inBounds x.t (if op = .cas then 2 * m else m) b = true →
    (∀ o, d = some o → inBounds x.t m o = true) →
    (ord = .rel ∨ ord = .ar → releasable x.t sc = true) →
    Granted s x .atomic (4 * m) las hs →
    (x.t.cnt.get (if d.isSome then .ld else .st) ≠ 63 →
      Enters (.atom g t op ord sc d base b) s x b' (if d.isSome then .ld else .st)
        (.atom t op (d.map (vregOf x.t.regs)) (acqOf ord sc)) accs false) ∧
    (x.t.cnt.st ≠ 63 → d = none →
      Enters (.red g t op ord sc base b) s x b' .st
        (.red t op (x.k.launch.determ || decide (ord = .rel))) accs false)

/-- R232, R234 to R240, R253, R254: PUT, GET, RATOM, PUTN and PUTM, every access granted, send packets to the homes,
numbered in their streams; the additions of a PUTN that also writes another island wait for its writes. That each access
is one packet, and that they are numbered by lane, is the model's choice (log 34): the rules give the order alone. -/
def Obligations.RemoteWordsSend : Prop :=
  ∀ (s : State) (x : Issuer) (g : Guard) (sz : Sz) (d base ctr mask : Operand) (stride : SReg) (ofs : BitVec 24)
    (inc : BitVec 8) (t : ATy) (op : AOp) (ord : Ord) (sc : Scope) (rd : Option Operand) (hs cs : List Hit), Issues s x →
    x.t.tx = none → x.lanes g ≠ [] → x.t.cnt.rm ≠ 63 → inBounds x.t 2 base = true →
    let n := sz.bytes
    let act := x.lanes g
    let las := act.map fun l => (l, ea64 x base ofs l)
    let las0 := act.map fun l => (l, ea64 x base 0 l)
    let write (h : Hit) : Nat × Cargo := (h.pa, .write (leBytes n (dataVal x h.lane n d)))
    (inBounds x.t (ceilDiv n 4) d = true →
      (Granted s x .rwrite n las hs →
        EntersRemote (.put g sz d base ofs) s x (afterChecks s x .rwrite n las) (.put n) (hs.map accOf) (hs.map write) []) ∧
      (Granted s x .rread n las hs →
        EntersRemote (.get g sz d base ofs) s x (afterChecks s x .rread n las) (.get n (vregOf x.t.regs d)) (hs.map accOf)
          (hs.map fun h => (h.pa, .read n h.lane)) []) ∧
      (let counters := (match ctr with
          | .s _ => [act.headD 0]
          | _ => act).map fun l => (l, regVal x.t.regs l 2 ctr);
        inBounds x.t 2 ctr = true → Granted s x .rwrite n las0 hs →
        let s1 := afterChecks s x .rwrite n las0;
        Granted s1 x .counter 4 counters cs →
        let waits (c : Hit) : Bool := hs.any fun h => homeOf x.c.isl h.pa ≠ homeOf x.c.isl c.pa;
        EntersRemote (.putn g sz d base ctr inc) s x (afterChecks s1 x .counter 4 counters) (.put n) (hs.map accOf)
          (hs.map write ++ (cs.filter fun c => !waits c).map fun c => (c.pa, .notify inc.toNat))
          ((cs.filter waits).map fun c => (c.pa, inc.toNat)) (cs.map accOf)) ∧
      (let ranks := (List.range 32).filter fun i => (src32 s x 0 mask).testBit i;
        let set := x.k.isls.getD [];
        let accesses := (act.map fun l => ranks.map fun i =>
          (l, (ea64 x base 0 l + i * (x.t.regs.sget64 stride.toNat).toNat) % 2 ^ 64)).flatten;
        Granted s x .rwrite n accesses hs → (∀ i ∈ ranks, i < set.length) →
        (hs.map fun h => some (homeOf x.c.isl h.pa)) = (act.map fun _ => ranks.map fun i => set[i]?).flatten →
        EntersRemote (.putm g sz d base mask stride) s x (afterChecks s x .rwrite n accesses) (.put n) (hs.map accOf)
          (hs.map write) [])) ∧
    (let m := t.elem.regs;
      let w := 2 ^ (32 * m);
      let operand (l : Nat) : Nat × Nat :=
        if op = .cas then (regVal x.t.regs l (2 * m) d % w, regVal x.t.regs l (2 * m) d / w) else (srcVal s x t.elem l d, 0);
      inBounds x.t (if op = .cas then 2 * m else m) d = true → (∀ o, rd = some o → inBounds x.t m o = true) →
      (ord = .rel ∨ ord = .ar → releasable x.t sc = true) → Granted s x .ratomic (4 * m) las0 hs →
      EntersRemote (.ratom g t op ord sc rd base d) s x (relDone (afterChecks s x .ratomic (4 * m) las0) x ord sc)
        (.ratom t op (rd.map (vregOf x.t.regs)) (acqOf ord sc)) (hs.map accOf)
        (hs.map fun h => (h.pa, .atomic t op h.lane (operand h.lane).1 (operand h.lane).2)) [])

/-- R76, R106, R111, R246: a memory word of lane scope with no active lane only goes on; one whose counter stands at 63
holds its team, changing nothing; with a register missing it raises REGBOUND. PREF goes on with every register as it was,
whatever its addresses. -/
def Obligations.MemoryWordsIdle : Prop :=
  ∀ (s : State) (x : Issuer) (g : Guard) (sz : Sz) (strm : Bool) (d base ctr mask : Operand) (stride : SReg)
    (ofs : BitVec 24) (inc : BitVec 8) (t : ATy) (op : AOp) (ord : Ord) (sc : Scope), Issues s x →
    let loads := [Instr.ld g sz strm d base ofs, .ldl g sz strm d base ofs, .lda g sz strm d base ofs]
    let stores := [Instr.st g sz strm d base ofs, .stl g sz strm d base ofs, .sta g sz strm d base ofs]
    let remote := [Instr.put g sz d base ofs, .get g sz d base ofs, .putn g sz d base ctr inc,
      .putm g sz d base mask stride]
    let others := [Instr.cflush g sz strm base ofs, .cinv g sz strm base ofs, .pref g sz strm base ofs,
      .atom g t op ord sc (some d) base d, .red g t op ord sc base d, .ratom g t op ord sc none base d]
    (x.lanes g = [] → ∀ i ∈ loads ++ stores ++ remote ++ others, Gives i s x x.t (x.t.flow.pc + 8)) ∧
    (x.lanes g ≠ [] →
      (x.t.cnt.ld = 63 → ∀ i ∈ loads, exec i s = .next s) ∧ (x.t.cnt.st = 63 → ∀ i ∈ stores, exec i s = .next s) ∧
      (x.t.cnt.rm = 63 → x.t.tx = none → ∀ i ∈ remote, exec i s = .next s) ∧
      (x.t.cnt.ld ≠ 63 → inBounds x.t (ceilDiv sz.bytes 4) d = false → ∀ i ∈ loads,
        Traps i s x .regbound (maskOf (x.lanes g)) 0) ∧
      (x.t.cnt.st ≠ 63 → inBounds x.t (ceilDiv sz.bytes 4) d = false → ∀ i ∈ stores,
        Traps i s x .regbound (maskOf (x.lanes g)) 0)) ∧
    ∃ s', exec (.pref g sz strm base ofs) s = .next s' ∧
      s'.teams.find? x.u = some (x.t.at_ (x.t.flow.pc + 8) s) ∧ s'.ops = s.ops

/-! ## Operations performed -/

/-- R111, R132, R225: a load of L-space or A-space that can be performed writes each of its lanes that has not ended from
the crew's bytes, lowest byte lowest, leaves, and lets LDCNT fall once; no byte of memory changes. -/
def typedLoadsLandRule : Prop :=
  ∀ (s : State) (id n d : Nat) (o : Op) (sp : Space) (c : Crew) (t : Team),
    s.ops.find? id = some o → o.ctr = .ld → opReady s id o = true → o.kind = .load sp n false d →
    sp = .lspace ∨ sp = .aspace → s.crews.find? o.crew = some c → s.teams.find? o.team = some t →
    (o.accs.map (·.lane)).Nodup → d + ceilDiv n 4 ≤ 256 →
    ∃ s' t', exec (.loadDataWritten id) s = .next s' ∧ Left s s' id o t t' ∧ SameBytes s s' ∧ s'.crews = s.crews ∧
      SameButLanes t.regs t'.regs ((o.accs.map (·.lane)).filter fun l => !laneIn t.flow.ended l) d (ceilDiv n 4) ∧
      ∀ a ∈ o.accs, laneIn t.flow.ended a.lane = false →
        t'.regs.vgetN a.lane d (ceilDiv n 4) = leNat (typedBytes (c.typed sp) a.addr n)

/-- R4, R111, R132, R203, R223, R224: a global load of coherent memory, of lanes that have not ended or of the team, lands
the bytes of its home, and changes no byte of memory. -/
def globalLoadsLandRule : Prop :=
  ∀ (s : State) (id n d : Nat) (o : Op) (t : Team), Quiet s → (∀ i, (s.isl i).poison = []) →
    s.ops.find? id = some o → o.ctr = .ld → opReady s id o = true → s.teams.find? o.team = some t →
    (∀ a ∈ o.accs, a.attr = .coherent) → (o.accs.map (·.lane)).Nodup → d + ceilDiv n 4 ≤ 256 →
    (o.kind = .load .global n false d →
      ∃ s' t', exec (.loadDataWritten id) s = .next s' ∧ Left s s' id o t t' ∧ SameBytes s s' ∧
        SameButLanes t.regs t'.regs ((o.accs.map (·.lane)).filter fun l => !laneIn t.flow.ended l) d (ceilDiv n 4) ∧
        ∀ a ∈ o.accs, laneIn t.flow.ended a.lane = false → t'.regs.vgetN a.lane d (ceilDiv n 4) = s.rd a.addr n) ∧
    (∀ a, o.accs = [a] → o.kind = .load .global n true d →
      ∃ s' t', exec (.loadDataWritten id) s = .next s' ∧ Left s s' id o t t' ∧ SameBytes s s' ∧
        SameButScalar t.regs t'.regs d (ceilDiv n 4) ∧ t'.regs.sgetN d (ceilDiv n 4) = s.rd a.addr n)

/-- R4, R111, R203, R223 to R225: loads of typed spaces and of global memory. -/
def Obligations.LoadsLand : Prop := typedLoadsLandRule ∧ globalLoadsLandRule

/-- R4, R111, R202, R203, R225: a store that can be performed writes the bytes of each lane, in ascending order of lanes, so
that the last one wins a byte: of the crew's typed space, or of coherent memory at its home. Outside those bytes nothing
of the memory changes. -/
def Obligations.StoresPerform : Prop :=
  ∀ (s : State) (id n : Nat) (o : Op) (t : Team) (c : Crew), s.ops.find? id = some o → o.ctr = .st →
    opReady s id o = true → s.teams.find? o.team = some t → s.crews.find? o.crew = some c →
    (∀ sp, o.kind = .store sp n → sp = .lspace ∨ sp = .aspace →
      ∃ s' t' c', exec (.storePerformed id) s = .next s' ∧ Left s s' id o t t' ∧ SameBytes s s' ∧
        s'.crews.find? o.crew = some c' ∧ c'.typed sp = o.accs.foldl (fun m a => typedPut m a.addr (leBytes n a.data))
          (c.typed sp) ∧ { c' with lmem := c.lmem, amem := c.amem } = c ∧
        (sp = .lspace → c'.amem = c.amem) ∧ (sp = .aspace → c'.lmem = c.lmem)) ∧
    (o.kind = .store .global n → Quiet s → (∀ a ∈ o.accs, a.attr = .coherent) →
      ∃ s' t', exec (.storePerformed id) s = .next s' ∧ Left s s' id o t t' ∧ t'.regs = t.regs ∧
        (∀ a, memGet s'.mem a =
          memGet (o.accs.foldl (fun m q => memPut m q.addr (leBytes n q.data)) s.mem) a) ∧
        (∀ a, o.accs = [a] → StoresAt s s' a.addr (leBytes n a.data)))

/-- R230, R231, R388: an ATOM or a RED of one lane that has not ended, at its home: the cell takes the operation's value,
a destination takes the value before, no other byte changes. -/
def atomicsPerformRule : Prop :=
  ∀ (s : State) (id : Nat) (o : Op) (t : Team) (a : Access) (ty : ATy) (op : AOp) (d : Option Nat) (acq : Option Scope),
    Quiet s → (∀ i, (s.isl i).poison = []) → s.ops.find? id = some o → opReady s id o = true →
    s.teams.find? o.team = some t → o.accs = [a] → laneIn t.flow.ended a.lane = false →
    let n := 4 * ty.elem.regs
    let old := s.rd a.addr n
    (o.kind = .atom ty op d acq → o.ctr ≠ .rm → (∀ r, d = some r → r + ty.elem.regs ≤ 256) →
      ∃ s' t', exec (opEvent id o) s = .next s' ∧ Left s s' id o t t' ∧
        StoresAt s s' a.addr (leBytes n (atomNew ty op old a.data a.data2)) ∧
        (d = none → t'.regs = t.regs) ∧
        (∀ r, d = some r → SameButLanes t.regs t'.regs [a.lane] r ty.elem.regs ∧
          t'.regs.vgetN a.lane r ty.elem.regs = old)) ∧
    (o.kind = .red ty op true → o.ctr = .st →
      ∃ s' t', exec (.storePerformed id) s = .next s' ∧ Left s s' id o t t' ∧ t'.regs = t.regs ∧
        StoresAt s s' a.addr (leBytes n (atomNew ty op old a.data 0)))

/-- Table 12-5 on the integer types that are not packed, as operations on bit vectors; .cas and .exch on every type. -/
def atomicValuesRule : Prop :=
  ∀ (t : ATy) (old b b2 : Nat), let w := t.elem.w
    (t.elem.flt = none → t.elem.n = 1 → old < 2 ^ w → b < 2 ^ w →
      let A := BitVec.ofNat w old
      let B := BitVec.ofNat w b
      atomNew t .add old b b2 = (A + B).toNat ∧ atomNew t .min old b b2 = (minBits t.elem.sgn A B).toNat ∧
      atomNew t .max old b b2 = (maxBits t.elem.sgn A B).toNat ∧ atomNew t .and old b b2 = (A &&& B).toNat ∧
      atomNew t .or old b b2 = (A ||| B).toNat ∧ atomNew t .xor old b b2 = (A ^^^ B).toNat) ∧
    atomNew t .exch old b b2 = b ∧ atomNew t .cas old b b2 = if old = b then b2 else old

/-- R230, R231, R388 and Table 12-5: atomics at their home and the values they store. -/
def Obligations.AtomicsPerform : Prop := atomicsPerformRule ∧ atomicValuesRule

/-- R227, R231: a flush, an invalidation or a RED whose turn has come is performed and leaves. R111, R240: a remote
operation leaves, and RMCNT falls, once all its packets are acknowledged or landed and its additions are sent. -/
def operationsLeaveRule : Prop :=
  ∀ (s : State) (id : Nat) (o : Op) (t : Team), s.ops.find? id = some o → s.teams.find? o.team = some t →
    (∀ n, o.kind = .flush n ∨ o.kind = .inv n ∨ (∃ ty op, o.kind = .red ty op false) → o.ctr = .st →
      opReady s id o = true → (∀ i, (s.isl i).poison = []) → t.tx = none →
      ∃ s' t', exec (.storePerformed id) s = .next s' ∧ Left s s' id o t t' ∧ t'.regs = t.regs) ∧
    (o.ctr = .rm → o.left = 0 → o.adds = [] →
      ∃ s' t', exec (.remoteAcknowledge id) s = .next s' ∧ Left s s' id o t t' ∧ t'.regs = t.regs ∧ SameBytes s s' ∧
        s'.pkts = s.pkts ∧ s'.streams = s.streams)

/-! ## One-sided operations at their home -/

/-- R232, R235, R236, R238, R253: a request whose turn in its stream has come is performed at its home and answered: a
write stores its bytes, a read returns those there, an atomic returns the value before and stores the new one, a counter
addition adds modulo 2^32. The stream's next request is the one after. -/
def Obligations.RequestsPerform : Prop :=
  ∀ (s : State) (id : Nat) (p : Packet), Quiet s → (∀ i, (s.isl i).poison = []) → s.pkts.find? id = some p →
    id < s.uid → p.arrived = true → p.whole = true → p.orphan s = false → deliverable s id p = true →
    let key := streamKey p.src p.sep p.dst
    let Answers (s' : State) (c : Cargo) : Prop :=
      exec (.packetDelivery id) s = .next s' ∧ s'.pkts.find? id = none ∧
        (SMap.get {} s'.streams key).perform = (SMap.get {} s.streams key).perform + 1 ∧
        ∃ q, s'.pkts.find? s.uid = some q ∧ q.cargo = c ∧ q.src = p.dst ∧ q.dst = p.src ∧ q.op = p.op ∧ q.sep = p.sep ∧
          q.at_ = p.dst
    (∀ bs, p.cargo = .write bs → ∃ s', Answers s' .ack ∧ StoresAt s s' p.pa bs) ∧
    (∀ n lane, p.cargo = .read n lane → ∃ s', Answers s' (.readData lane (s.bytes p.pa n)) ∧ SameMem s s') ∧
    (∀ t op lane b b2, p.cargo = .atomic t op lane b b2 → let n := 4 * t.elem.regs
      ∃ s', Answers s' (.atomicReply lane (s.rd p.pa n)) ∧
        StoresAt s s' p.pa (leBytes n (atomNew t op (s.rd p.pa n) b b2))) ∧
    (∀ inc, p.cargo = .notify inc → ∃ s', Answers s' .ack ∧
      StoresAt s s' p.pa (leBytes 4 ((s.rd p.pa 4 + inc) % 2 ^ 32)))

/-- R232, R236: a reply lands at its issuer: data and old values in the registers of their lane, and one packet fewer is
awaited; no byte of memory changes. -/
def repliesLandRule : Prop :=
  ∀ (s : State) (id : Nat) (p : Packet) (o : Op) (t : Team), s.pkts.find? id = some p → p.arrived = true →
    p.whole = true → p.eng = none → s.ops.find? p.op = some o → s.teams.find? o.team = some t → o.adds = [] →
    let Lands (s' : State) (t' : Team) : Prop := exec (.packetDelivery id) s = .next s' ∧ s'.pkts = s.pkts.del id ∧
      s'.ops.find? p.op = some { o with left := o.left - 1 } ∧ s'.teams.find? o.team = some t' ∧ SameBytes s s' ∧
      { t' with regs := t.regs } = t
    (p.cargo = .ack → ∃ s', Lands s' t) ∧
    (∀ n d lane bs, p.cargo = .readData lane bs → o.kind = .get n d → bs.length = n → d + ceilDiv n 4 ≤ 256 →
      laneIn t.flow.ended lane = false →
      ∃ s' t', Lands s' t' ∧ SameButLanes t.regs t'.regs [lane] d (ceilDiv n 4) ∧
        t'.regs.vgetN lane d (ceilDiv n 4) = leNat bs) ∧
    (∀ ty op d acq lane old, p.cargo = .atomicReply lane old → o.kind = .ratom ty op (some d) acq →
      old < 2 ^ (32 * ty.elem.regs) → d + ty.elem.regs ≤ 256 → laneIn t.flow.ended lane = false →
      ∃ s' t', Lands s' t' ∧ SameButLanes t.regs t'.regs [lane] d ty.elem.regs ∧
        t'.regs.vgetN lane d ty.elem.regs = old)

/-- R111, R227, R231, R232, R236, R240: the ends of operations on the team's island and of remote ones. -/
def Obligations.OperationsLeave : Prop := operationsLeaveRule ∧ repliesLandRule

/-! ## Transactions (17_transactions, 18_sync_instructions) -/

/-- R323, R328, R338: TXB outside a transaction, its abort path inside the code and its loads and stores done, opens one at
its own offset; it is irrevocable where its team holds the token. After 16 conflicts in a row without the token it asks
for the token and waits. -/
def Obligations.TransactionOpens : Prop :=
  ∀ (s : State) (x : Issuer) (disp : BitVec 24), Issues s x → x.t.tx = none →
    inCode s x (branchTarget x disp) = true → x.t.cnt.ld = 0 → x.t.cnt.st = 0 →
    let mine := (s.isl x.c.isl).token = some x.u
    (x.t.txs.conflicts < 16 ∨ mine → Passes (.txb disp) s x { x.t with
      tx := some { restart := x.t.flow, abortPath := (branchTarget x disp).toNat, irrev := decide mine, opened := s.now }
      txs := { x.t.txs with code := if x.t.txs.again then x.t.txs.code else .none, again := false, asked := false } }) ∧
    (16 ≤ x.t.txs.conflicts → ¬mine → x.t.txs.asked = false →
      ∃ s', exec (.txb disp) s = .next s' ∧ (s'.isl x.c.isl).tokenAsk = (s.isl x.c.isl).tokenAsk ++ [x.u] ∧
        s'.teams.find? x.u = some { x.t with txs := { x.t.txs with asked := true } } ∧ SameBytes s s')

/-- R326, R339, R340, Table 17-1: in a transaction TXO registers an alternative with its checkpoint, TXR goes to the newest
one with the writes of its checkpoint and every line read, or abandons the attempt and sleeps, and TXA goes to the abort
path with the mask and stacks of the restart point. No byte of memory changes. -/
def Obligations.AlternativesRun : Prop :=
  ∀ (s : State) (x : Issuer) (tx : Tx) (disp : BitVec 24), Issues s x → x.t.tx = some tx →
    (tx.alts.length < 4 → inCode s x (branchTarget x disp) = true → 0 ≤ branchTarget x disp →
      branchTarget x disp < x.k.image.codeBytes →
      Gives (.txo disp) s x { x.t with tx := some { tx with alts := ((branchTarget x disp).toNat, tx.w) :: tx.alts } }
        (x.t.flow.pc + 8)) ∧
    (∀ target w rest, tx.alts = (target, w) :: rest →
      Gives .txr s x { x.t with tx := some { tx with w := w, alts := rest }, flow := tx.restart } target) ∧
    (tx.alts = [] → ∃ s' t, exec .txr s = .next s' ∧ s'.teams.find? x.u = some t ∧
      t.status = .sleeping tx.reads tx.words ∧ t.tx = none ∧ t.txs.code = .sleep ∧ t.flow = tx.restart ∧
      t.regs = x.t.regs ∧ SameBytes s s') ∧
    ∃ s' t, exec .txa s = .next s' ∧ s'.teams.find? x.u = some t ∧ t.tx = none ∧ t.txs.code = .explicit ∧
      t.txs.conflicts = 0 ∧ t.flow = { tx.restart with pc := tx.abortPath } ∧ t.regs = x.t.regs ∧ SameBytes s s'

/-- R341: outside a transaction TXO, TXE, TXR and TXA take one issue cycle and have no other effect; the last abort code
stays. -/
def Obligations.TransactionWordsOutside : Prop :=
  ∀ (s : State) (x : Issuer) (disp : BitVec 24), Issues s x → x.t.tx = none →
    ∀ i ∈ [Instr.txo disp, .txe, .txr, .txa], Gives i s x x.t (x.t.flow.pc + 8) ∧
      ∀ s', exec i s = .next s' → SMap.get 0 (s'.core x.c.key).slotFree (x.t.index % 4) = s.now + 1

/-- R325: an abort sets the PC, the mask and both stacks back to the restart point, or to the abort path with the mask and
stacks of the restart point; every register, the k registers of every context and fmt keep their values; what the
attempt buffered reaches no memory. -/
def Obligations.AbortRestores : Prop :=
  ∀ (s : State) (u : Nat) (t : Team) (tx : Tx) (c : TxCode), s.teams.find? u = some t → t.tx = some tx →
    ∃ t', (abortTx s u c).teams.find? u = some t' ∧ t'.tx = none ∧ t'.regs = t.regs ∧ t'.gang = t.gang ∧
      t'.cnt = t.cnt ∧ SameBytes s (abortTx s u c) ∧ (abortTx s u c).engines = s.engines ∧
      (c ∈ [TxCode.conflict, .trap, .page, .halt, .sleep] → t'.flow = tx.restart) ∧
      (c ∈ [TxCode.rdcap, .wrcap, .nest, .forbid, .attr, .explicit, .long] →
        t'.flow = { tx.restart with pc := tx.abortPath })

/-- R216, R318, R323, R340: with its operations done and no migration holding a write of it, TXE stores every byte the
attempt buffered and no other, closes the transaction and clears the count of conflicts, where no counter addition is
buffered. -/
def Obligations.CommitStores : Prop :=
  ∀ (s : State) (x : Issuer) (tx : Tx), Issues s x → x.t.tx = some tx → x.t.cnt.ld = 0 → x.t.cnt.st = 0 →
    tx.w.adds = [] → (SMap.keys tx.w.bytes).Nodup → (∀ k, (s.core k).l1 = []) → commitHeld s tx = false →
    (∀ ut ∈ s.teams, ut.1 ≠ x.u → ut.2.tx = none) →
    ∃ s', exec .txe s = .next s' ∧
      s'.teams.find? x.u = some ({ x.t with tx := none, txs := { x.t.txs with conflicts := 0 } }.at_
        (x.t.flow.pc + 8) s) ∧
      ∀ a, memGet s'.mem a = (tx.w.bytes.find? a).getD (memGet s.mem a)

/-- R216, R323, R324, R327: inside a transaction, where its sets have room and no held write stands before the line, a
store is buffered and its line joins the write set,
and a load of one lane takes buffered bytes over those of the home and joins the read set; no byte of memory changes. -/
def Obligations.TransactionBuffers : Prop :=
  ∀ (s : State) (x : Issuer) (tx : Tx) (g : Guard) (sz : Sz) (strm : Bool) (d base : Operand) (ofs : BitVec 24) (l : Nat)
    (h : Hit),
    Issues s x → x.t.tx = some tx → (∀ k, (s.core k).l1 = []) → (∀ ut ∈ s.teams, ut.1 ≠ x.u → ut.2.tx = none) →
    (∀ i, (s.isl i).poison = []) → x.lanes g = [l] → h.attr = .coherent →
    inBounds x.t (ceilDiv sz.bytes 4) d = true → inBounds x.t 2 base = true → x.t.vregs ≤ 256 →
    let n := sz.bytes
    let line := h.pa / 128
    attemptHolds s tx false h.pa n = false →
    (x.t.cnt.st ≠ 63 → Granted s x .txWrite n [(l, ea64 x base ofs l)] [h] → tx.reads.length ≤ 256 →
      (tx.w.lines ++ [line]).dedup.length ≤ 64 →
      ∃ s' tx', exec (.st g sz strm d base ofs) s = .next s' ∧ SameBytes s s' ∧ s'.ops = s.ops ∧
        s'.teams.find? x.u = some ({ x.t with tx := some tx' }.at_ (x.t.flow.pc + 8) s) ∧
        line ∈ tx'.w.lines ∧ tx'.reads = tx.reads ∧
        (∀ j < n, tx'.w.bytes.find? (h.pa + j) = (leBytes n (dataVal x l n d))[j]?) ∧
        ∀ a, a < h.pa ∨ h.pa + n ≤ a → tx'.w.bytes.find? a = tx.w.bytes.find? a) ∧
    (d.isVec = true → x.t.cnt.ld ≠ 63 → Granted s x .txRead n [(l, ea64 x base ofs l)] [h] →
      tx.w.lines.length ≤ 64 → (tx.reads ++ [line]).dedup.length ≤ 256 →
      ∃ s' tx' r, exec (.ld g sz strm d base ofs) s = .next s' ∧ SameBytes s s' ∧ s'.ops = s.ops ∧
        s'.teams.find? x.u = some ({ x.t with tx := some tx', regs := r }.at_ (x.t.flow.pc + 8) s) ∧
        line ∈ tx'.reads ∧ tx'.w = tx.w ∧ SameButLanes x.t.regs r [l] (vregOf x.t.regs d) (ceilDiv n 4) ∧
        r.vgetN l (vregOf x.t.regs d) (ceilDiv n 4) =
          leNat ((List.range n).map fun j => (tx.w.bytes.find? (h.pa + j)).getD (memGet s.mem (h.pa + j))))

/-- R246, R289, R359, Table 17-1: a word that a transaction forbids aborts it with FORBID, its own effect not begun. -/
def Obligations.TransactionForbids : Prop :=
  ∀ (s : State) (x : Issuer) (tx : Tx) (g : Guard) (sz : Sz) (a b c : Operand) (r1 r2 r3 : SReg) (ofs : BitVec 24)
    (sp : Space) (bar : Bar) (p : BitVec 3) (opn : COpn) (grp : BitVec 8) (e : BitVec 8) (n : BitVec 4),
    Issues s x → x.t.tx = some tx → x.lanes g ≠ [] →
    ∀ i ∈ [Instr.mark, .spawn g a b e n p, .xfer g a, .put g sz a b ofs, .get g sz a b ofs, .putn g sz a b c e,
        .putm g sz a b c r1, .cflush g sz true a ofs, .cinv g sz true a ofs, .cpy r1 r2 r3 sp sp bar,
        .cpyt r1 r2 r3 sp sp bar, .macq p, .mrel, .mgang r1, .mwld r1 bar, .mzro grp bar, .mtab r1 bar, .mtld a p p,
        .mtst a p p, .mstat r1 n, .mpoly p p p n bar, .coll g opn a b grp bar],
      ∃ s' t, exec i s = .next s' ∧ s'.teams.find? x.u = some t ∧ t.tx = none ∧ t.txs.code = .forbid ∧
        t.flow = { tx.restart with pc := tx.abortPath } ∧ t.regs = x.t.regs ∧ SameBytes s s' ∧ s'.ops = s.ops ∧
        s'.pkts = s.pkts ∧ s'.msgs = s.msgs ∧ s'.engines = s.engines

/-! ## Fences, barriers, queues, counters and timelines (16, 18) -/

/-- R203, R204, R307, R313, R343, R344: FENCE outside a transaction. A release at island scope or wider leaves no dirty
private line in the core's L1, an acquire no read-shared line and no clean byte of a private one; inside a transaction it
only waits for loads. What it must wait for holds its team; that an acquire waits for the loads and stores of its team
and, at panel scope or wider, its remote operations is the model's choice (log 23). -/
def Obligations.FencesOrder : Prop :=
  ∀ (s : State) (x : Issuer) (ord : Ord) (sc : Scope), Issues s x →
    (x.t.tx.isSome → (x.t.cnt.ld = 0 → Gives (.fence ord sc) s x x.t (x.t.flow.pc + 8)) ∧
      (x.t.cnt.ld ≠ 0 → exec (.fence ord sc) s = .next s)) ∧
    let wide := sc ∈ [Scope.panel, .sys]
    let held := (ord ≠ .acq ∧ releasable x.t sc = false) ∨ (ord = .acq ∧ (x.t.cnt.ld ≠ 0 ∨ x.t.cnt.st ≠ 0 ∨ wide ∧ x.t.cnt.rm ≠ 0))
    (x.t.tx = none → ¬held →
      ∃ s', exec (.fence ord sc) s = .next s' ∧ s'.teams.find? x.u = some (x.t.at_ (x.t.flow.pc + 8) s) ∧
        OthersStand s s' x.u ∧ s'.crews = s.crews ∧ s'.ops = s.ops ∧ s'.pkts = s.pkts ∧ s'.engines = s.engines ∧
        s'.hostMem = s.hostMem ∧ (ord = .acq → s'.mem = s.mem ∧ s'.kernels = s.kernels) ∧
        (ord = .rel ∨ ord = .ar → sc ∈ [Scope.island, .panel, .sys] →
          ∀ l ∈ (s'.core x.c.key).l1Lines, l.kind = .priv → l.dirty = []) ∧
        (ord = .acq ∨ ord = .ar → sc ∈ [Scope.island, .panel, .sys] →
          ∀ l ∈ (s'.core x.c.key).l1Lines, l.kind ≠ .shared ∧ (l.kind = .priv → l.dirty ≠ [] ∧ l.clean = []))) ∧
    (x.t.tx = none → held → exec (.fence ord sc) s = .next s)

/-- R346: every update of a barrier object, on its words 0 and 1. -/
def Obligations.BarrierUpdates : Prop :=
  ∀ (w0 w1 b : Nat) (arrive : Bool), w0 < 2 ^ 64 → w1 < 2 ^ 64 →
    let pending (w : Nat) := natBits w 35 0
    let phase (w : Nat) := natBits w 36 36
    let left (w : Nat) := natBits w 47 40
    let init (w : Nat) := natBits w 55 48
    let p := max ((pending w0 : Int) - b) 0
    let l := if arrive then max ((left w0 : Int) - 1) 0 else left w0
    let w := barrierNext w0 w1 b arrive
    w < 2 ^ 64 ∧ init w = init w0 ∧ natBits w 39 37 = natBits w0 39 37 ∧ natBits w 63 56 = natBits w0 63 56 ∧
    (p = 0 ∧ l = 0 → phase w = 1 - phase w0 ∧ pending w = pending w1 ∧ left w = init w0) ∧
    (¬(p = 0 ∧ l = 0) → phase w = phase w0 ∧ (pending w : Int) = p ∧ (left w : Int) = l)

/-- R345 to R349: BINI writes the whole object; BARV applies one update with an arrival and gives the phase before it; BWT
goes on where the phase differs from its bit, and sleeps on the object's word where not. No irrevocable attempt has read
the object (R333). -/
def Obligations.BarrierWords : Prop :=
  ∀ (s : State) (x : Issuer) (bar : SReg) (bytes arr : Operand) (d : Option SReg), Issues s x →
    let off := (x.t.regs.sget bar.toNat).toNat
    let b := src64 s x 0 bytes
    let a := src32 s x 0 arr
    let word (c : Crew) (o : Nat) : Nat := leNat (typedBytes c.lmem o 8)
    let phase := natBits (word x.c off) 36 36
    off % 16 = 0 → off + 16 ≤ x.k.image.lspace →
    (ownPending s x off 16 = false → wordHeld s x.t.crew (some x.u) off 16 = false → b < 2 ^ 36 → a < 256 →
      ∃ s' c, exec (.bini bar bytes arr) s = .next s' ∧ s'.teams.find? x.u = some (x.t.at_ (x.t.flow.pc + 8) s) ∧
        s'.crews.find? x.t.crew = some c ∧ word c off = b + a * 2 ^ 40 + a * 2 ^ 48 ∧ word c (off + 8) = b ∧
        (∀ o, o < off ∨ off + 16 ≤ o → SMap.get 0 c.lmem o = SMap.get 0 x.c.lmem o) ∧ SameBytes s s') ∧
    (ownPending s x off 16 = false → wordHeld s x.t.crew (some x.u) off 16 = false → 2 ^ 36 ≤ b ∨ 255 < a →
      Traps (.bini bar bytes arr) s x .spacebound x.t.flow.mask off) ∧
    (x.t.cnt.ld = 0 → x.t.cnt.st = 0 → wordHeld s x.t.crew (some x.u) off 16 = false →
      ∃ s' c r, exec (.barv d bar bytes) s = .next s' ∧
        s'.teams.find? x.u = some ({ x.t with regs := r }.at_ (x.t.flow.pc + 8) s) ∧
        (d = none → r = x.t.regs) ∧ (∀ q, d = some q → r = x.t.regs.sset q.toNat (BitVec.ofNat 32 phase)) ∧
        s'.crews.find? x.t.crew = some c ∧
        word c off = barrierNext (word x.c off) (word x.c (off + 8)) b true ∧ word c (off + 8) = word x.c (off + 8) ∧
        SameBytes s s') ∧
    (ownPending s x off 16 = false → x.t.tx = none →
      (phase ≠ src32 s x 0 arr % 2 → Passes (.bwt bar arr) s x x.t) ∧
      (phase = src32 s x 0 arr % 2 → Sleeps (.bwt bar arr) s x [] [off / 16]))

/-- The checks of a wait word on global memory, outside a transaction: its one access passes, to the home address `pa`. -/
def waitGranted (s : State) (x : Issuer) (w : Want) (n va pa : Nat) : Prop :=
  Granted s x w n [(0, va)] [{ lane := 0, va := va, pa := pa, attr := .coherent }]

/-- R216, R309, R334, R354, R357: NWT and TLWT outside a transaction, no earlier access of their team and no held one before
the word they read, go on where the counter or the mirror word stands far enough, and
else put their team to sleep on its line; no byte of memory changes. R353: NTFY sends one addition to its counter. -/
def countersWait : Prop :=
  ∀ (s : State) (x : Issuer) (ctr : SReg) (a : Operand) (eng : Eng) (pa : Nat) (v : Nat × Nat), Issues s x → Quiet s →
    x.t.tx = none → MayWait s x → (∀ i, (s.isl i).poison = []) →
    let va := (x.t.regs.sget64 ctr.toNat).toNat
    let tgt := BitVec.ofNat 32 (src32 s x 0 a)
    (waitGranted s x .localCounter 4 va pa → wordWaits s x false pa 4 = false →
      (serialGE (BitVec.ofNat 32 (s.rd pa 4)) tgt = true → Passes (.nwt ctr a) s x x.t.waited) ∧
      (serialGE (BitVec.ofNat 32 (s.rd pa 4)) tgt = false → Sleeps (.nwt ctr a) s x [pa / 128] [])) ∧
    (boundCtx s x.c eng = some v → ∀ line, x.c.mirror = some line →
      let at_ := line + match eng with
        | .cp => 0
        | .mx => 8
        | .cl => 16
      wordWaits s x false at_ 8 = false →
      ((x.t.regs.sget64 ctr.toNat).toNat ≤ s.rd at_ 8 → Passes (.tlwt eng ctr) s x x.t.waited) ∧
      (s.rd at_ 8 < (x.t.regs.sget64 ctr.toNat).toNat → Sleeps (.tlwt eng ctr) s x [at_ / 128] [])) ∧
    (boundCtx s x.c eng = none → Traps (.tlwt eng ctr) s x .enginedeny x.t.flow.mask 0) ∧
    (releasable x.t .panel = true → waitGranted s x .counter 4 va pa →
      EntersRemote (.ntfy ctr a) s x (l1Clean (afterChecks s x .counter 4 [(0, va)]) x.c.key) .ntfy
        [{ lane := 0, addr := pa, attr := .coherent, va := va }] [(pa, .notify (src32 s x 0 a))] []) ∧
    (releasable x.t .panel = false → exec (.ntfy ctr a) s = .next s)

/-- R328, R334: an NWT outside a transaction that meets the sets of another team's irrevocable attempt aborts and begins
again, one conflict more; after 16 it asks for its island's irrevocable token and waits. -/
def waitsConflict : Prop :=
  ∀ (s : State) (x : Issuer) (ctr : SReg) (a : Operand) (pa : Nat), Issues s x → x.t.tx = none →
    let va := (x.t.regs.sget64 ctr.toNat).toNat
    let s1 := afterChecks s x .localCounter 4 [(0, va)]
    waitGranted s x .localCounter 4 va pa →
    (MayWait s1 x → wordWaits s1 x false pa 4 = false → irrevHolds s1 (some x.u) false (pa / 128) = true →
      ∃ s', exec (.nwt ctr a) s = .next s' ∧ SameBytes s1 s' ∧ s'.teams.find? x.u =
        some ({ x.t with txs := { x.t.txs with waits := x.t.txs.waits + 1 } }.at_ x.t.flow.pc s)) ∧
    (¬MayWait s1 x → x.t.txs.asked = false →
      ∃ s', exec (.nwt ctr a) s = .next s' ∧ SameBytes s1 s' ∧
        (s'.isl x.c.isl).tokenAsk = (s1.isl x.c.isl).tokenAsk ++ [x.u] ∧
        s'.teams.find? x.u = some { x.t with txs := { x.t.txs with asked := true } })

/-- R216, R309, R328, R334, R353, R354, R357: counters and timelines, and waits that meet irrevocable attempts. -/
def Obligations.CounterWords : Prop := countersWait ∧ waitsConflict

/-- R309, R350 to R352: QPSH and QPOP outside a transaction on a queue whose descriptor stands its checks, no earlier access
of their team and no held one before the bytes they touch: a push into a queue
with room stores the element in the slot of TAIL and then TAIL + 1; a pop of one that is not empty reads the slot of HEAD
and stores HEAD + 1; else the team sleeps on the descriptor's line. -/
def Obligations.QueueWords : Prop :=
  ∀ (s : State) (x : Issuer) (e : BitVec 3) (q r : SReg) (pa slot : Nat), Issues s x → Quiet s → x.t.tx = none →
    MayWait s x → (∀ i, (s.isl i).poison = []) →
    let va := (x.t.regs.sget64 q.toNat).toNat
    let desc := s.bytes pa 32
    let d := descOf desc
    let s1 := (homeRead (afterChecks s x .localCounter 32 [(0, va)]) (some x.u) pa 32).2
    let at_ (n : Nat) : Nat := d.ring + n % d.slots * d.elem
    waitGranted s x .localCounter 32 va pa → wordWaits s x false pa 32 = false → descCauses desc e.toNat va = [] →
    (releasable x.t .island = true → d.slots ≤ d.count → Sleeps (.qpsh e q r) s x [pa / 128] []) ∧
    (d.count = 0 → Sleeps (.qpop e r q) s x [pa / 128] []) ∧
    (releasable x.t .island = false → exec (.qpsh e q r) s = .next s) ∧
    (releasable x.t .island = true → d.count < d.slots → waitGranted s1 x .atomic d.elem (at_ d.tail) slot →
      descWrite s1 x q = [] → wordWaits s x true slot d.elem = false → wordWaits s x true pa 32 = false →
      slot + d.elem ≤ pa ∨ pa + 32 ≤ slot →
      ∃ s', exec (.qpsh e q r) s = .next s' ∧ s'.teams.find? x.u = some (x.t.waited.at_ (x.t.flow.pc + 8) s) ∧
        s'.bytes slot d.elem = leBytes d.elem (x.t.regs.sgetN r.toNat (d.elem / 4)) ∧
        s'.rd (pa + 4) 4 = (d.tail + 1) % 2 ^ 32 ∧
        ∀ b, (b < slot ∨ slot + d.elem ≤ b) → (b < pa + 4 ∨ pa + 8 ≤ b) → memGet s'.mem b = memGet s.mem b) ∧
    (d.count ≠ 0 → waitGranted s1 x .localCounter d.elem (at_ d.head) slot → descWrite s1 x q = [] →
      wordWaits s x false slot d.elem = false → wordWaits s x true pa 32 = false →
      ∃ s' g, exec (.qpop e r q) s = .next s' ∧
        s'.teams.find? x.u = some ({ x.t.waited with regs := g }.at_ (x.t.flow.pc + 8) s) ∧
        SameButScalar x.t.regs g r.toNat (d.elem / 4) ∧ g.sgetN r.toNat (d.elem / 4) = s.rd slot d.elem ∧
        StoresAt s s' pa (leBytes 4 ((d.head + 1) % 2 ^ 32)))

/-! ## Commands of the engines (12_memory_instructions, 15_matrix_instructions, 19_collectives) -/

/-- R242 to R244, R316: CPY and CPYT outside a transaction, their loads and stores performed and their spaces and barrier in
bounds, bind their crew's context where it has none and put their command, numbered after those before it, behind the
others. (That a command waits for the loads of its team too is the model's reading of the release, log 23.) -/
def copiesSubmit : Prop :=
  ∀ (s s0 : State) (x : Issuer) (dst src r : SReg) (dsp ssp : Space) (bar : Bar) (n : Nat) (y : CopyCtx), Issues s x →
    x.t.tx = none → x.t.cnt.ld = 0 → x.t.cnt.st = 0 → barCauses x bar = [] →
    (match x.c.copyCtx with
      | some k => n = k ∧ s0 = s
      | none => copyBind s x.t.crew = some (n, s0)) →
    y = SMap.get {} (s0.isl x.c.isl).copy n → y.cmds.length < 64 →
    let a : Nat := (x.t.regs.sget64 dst.toNat).toNat
    let b : Nat := (x.t.regs.sget64 src.toNat).toNat
    let geo (j : Nat) : Nat := (x.t.regs.sget (r.toNat + j)).toNat
    let cmd (rowb rows sstr dstr : Nat) : CopyCmd :=
      { no := y.issued + 1, team := x.u, teamIdx := x.t.index, dsp := dsp, ssp := ssp, dst := a, src := b, rowb := rowb, rows := rows,
        sstr := sstr, dstr := dstr, bar := bar.map fun q => (x.t.regs.sget q.toNat).toNat, span := x.span }
    let Queued (i : Instr) (rowb rows sstr dstr : Nat) : Prop :=
      sideCauses x dsp a rowb rows dstr = [] → sideCauses x ssp b rowb rows sstr = [] →
      ∃ s', exec i s = .next s' ∧ s'.teams.find? x.u = some (x.t.at_ (x.t.flow.pc + 8) s) ∧ s'.crews = s0.crews ∧
        s'.ops = s.ops ∧ s'.pkts = s.pkts ∧
        SMap.get {} (s'.isl x.c.isl).copy n = { y with issued := y.issued + 1, cmds := y.cmds ++ [cmd rowb rows sstr dstr] }
    Queued (.cpy dst src r dsp ssp bar) (geo 0) 1 0 0 ∧
    (geo 0 ≤ 2 ^ 24 → geo 1 ≤ 2 ^ 20 → Queued (.cpyt dst src r dsp ssp bar) (geo 0) (geo 1) (geo 2) (geo 3))

/-- R358, R359, R363, R371: COLL on a group its team may use, its segments legal and no earlier instance in its way, queues
one command with the segment of every lane, of the next instance. (`atHead` notes when it came to its context's head, the
model's own field, log 57.) -/
def collectiveSubmits : Prop :=
  ∀ (s s0 : State) (x : Issuer) (g : Guard) (opn : COpn) (addr key : Operand) (group : BitVec 8) (bar : Bar) (n : Nat)
    (y : CollCtx), Issues s x → x.t.tx = none → x.t.cnt.ld = 0 → x.t.cnt.st = 0 → barCauses x bar = [] →
    x.lanes g = [] ∨ (inBounds x.t 2 addr = true ∧ inBounds x.t 1 key = true) →
    let e : GEntry := groupEntry s x.c.isl group.toNat
    let segs := (x.lanes g).map fun l => (l, ({ key := src32 s x l key, va := src64 s x l addr } : CollSeg))
    collDenied s x group.toNat e = none → collLaneCauses opn e segs = [] →
    e.persist = true ∨ prevIncomplete s x.c.isl group.toNat = false →
    (match x.c.collCtx with
      | some k => n = k ∧ s0 = s
      | none => collBind s x.t.crew = some (n, s0)) →
    y = SMap.get {} (s0.isl x.c.isl).coll n → y.cmds.length < 16 →
    ∃ s' cmd, exec (.coll g opn addr key group bar) s = .next s' ∧
      s'.teams.find? x.u = some (x.t.at_ (x.t.flow.pc + 8) s) ∧ s'.ops = s.ops ∧ s'.pkts = s.pkts ∧
      SMap.get {} (s'.isl x.c.isl).coll n = ({ y with issued := y.issued + 1, cmds := y.cmds ++ [cmd] } : CollCtx).atHead s.now ∧
      cmd.no = y.issued + 1 ∧ cmd.team = x.u ∧ cmd.opn = opn ∧ cmd.group = group.toNat ∧ cmd.entry = e ∧
      cmd.segs = segs.map (·.2) ∧ cmd.instanceNo = (groupInst s0 x.c.isl group.toNat).begun + 1 ∧
      (groupInst s' x.c.isl group.toNat).begun = cmd.instanceNo ∧
      (∃ c, s'.crews.find? x.t.crew = some c ∧ c.commTeam = some x.u)

/-- R273, R285, R286, R290 to R302: with a context that has room, their stores performed, and every operand in its bounds,
MWLD, MMA, MDRN, MZRO, MPOLY, MITER and MTAB number one command. -/
def matrixSubmits : Prop :=
  ∀ (s : State) (x : Issuer) (m : MxCtx) (bar : Bar) (r dst geom : SReg) (bias : Option SReg) (row0 cap : BitVec 8)
    (rows : BitVec 9) (ct t1 t2 t3 ft : BitVec 3) (deg thr : BitVec 4) (acc tr clr toW act frob : Bool) (form : MiterForm)
    (quant : Option MFmt) (mask : BitVec 8),
    Issues s x → x.t.tx = none → x.t.cnt.ld = 0 → x.t.cnt.st = 0 → MxCtx.of s x.c = some m → m.cmds.length < 64 →
    barCauses x bar = [] →
    let at_ := bar.map fun q => (x.t.regs.sget q.toNat).toNat
    let word (q : SReg) : Nat := (x.t.regs.sget q.toNat).toNat
    let B := word r
    let n := rows.toNat
    let fits := n ≤ 256 ∧ row0.toNat + n ≤ 256
    (∀ f, fmtB x.t.regs.fmt = some f → B % 16384 = 0 → B + tileBytes f ≤ x.k.image.wspace →
      Submits (.mwld r bar) s x m (.mwld B) at_) ∧
    (∀ f, fmtA x.t.regs.fmt = some f → legalPair f m.planeFmt = true → fits → B % 256 = 0 →
      B + n * rowBytes f ≤ x.k.image.aspace → Submits (.mma (.plain r) row0 rows ct acc bar) s x m
        (.mma none [slabOf s x.t.crew B n] row0.toNat ct.toNat acc m.planeFmt) at_) ∧
    (m.planeFmt ≠ .int8 → m.planeFmt ≠ .lns6 → fits → Submits (.mma (.feedback ft tr) row0 rows ct acc bar) s x m
      (.mma (some (ft.toNat, tr)) [slabOf s x.t.crew 0 n] row0.toNat ct.toNat acc m.planeFmt) at_) ∧
    (let G := word geom;
      let D := word dst;
      let first := G % 256;
      let count := G / 256 % 256 + 1;
      first + count ≤ 256 → D % 64 = 0 →
      D + count * drainBytes quant ≤ (if toW then x.k.image.wspace else x.k.image.aspace) →
      (∀ q, bias = some q → word q % 1024 = 0 ∧ word q + 1024 ≤ x.k.image.wspace) →
      Submits (.mdrn clr quant dst bias geom ct toW act bar) s x m
        (.mdrn ct.toNat D toW (bias.map word) act quant (BitVec.ofNat 8 (G / 2 ^ 16)).toInt (drainBytes quant) first count
          clr) at_) ∧
    Submits (.mzro mask bar) s x m (.mzro mask.toNat) at_ ∧
    Submits (.mpoly t1 t2 t3 deg bar) s x m (.mpoly t1.toNat t2.toNat t3.toNat deg.toNat) at_ ∧
    Submits (.miter form frob t1 t2 t3 cap thr bar) s x m
      (.miter form frob t1.toNat t2.toNat t3.toNat cap.toNat (SMap.get 0 m.ks thr.toNat)) at_ ∧
    (B % 16 = 0 → B + 2064 ≤ x.k.image.wspace → Submits (.mtab r bar) s x m (.mtab B) at_)

/-- R242 to R244, R273, R285 to R302, R358 to R363: the words that command an engine. -/
def Obligations.CommandsEnter : Prop := copiesSubmit ∧ collectiveSubmits ∧ matrixSubmits

/-- R271, R287 to R289: MACQ holds a context and says so in its predicate, or says that none is free; MREL gives it back
when it has no command; MGANG sets the gang register to a gang that names its team, or clears it. -/
def contextsHeld : Prop :=
  ∀ (s : State) (x : Issuer) (p : BitVec 3) (r : SReg), Issues s x → x.t.tx = none →
    let pc := x.t.flow.pc + 8
    let pred (v : Mask) : Team := { x.t with regs := x.t.regs.pset p.toNat v }
    (x.c.mxCtx.isSome = true → Gives (.macq p) s x (pred (fullMask x.t.lanes)) pc) ∧
    (x.c.mxCtx = none → grantable s x.c.cluster x.k.tenant = none → Gives (.macq p) s x (pred 0) pc) ∧
    (∀ n, x.c.mxCtx = none → grantable s x.c.cluster x.k.tenant = some n →
      ∃ s' c m, exec (.macq p) s = .next s' ∧ s'.teams.find? x.u = some ((pred (fullMask x.t.lanes)).at_ pc s) ∧
        s'.crews.find? x.t.crew = some c ∧ c.mxCtx = some n ∧ MxCtx.of s' c = some m ∧ m.crew = some x.t.crew ∧
        m.cmds = [] ∧ m.ks = [] ∧ m.timeline = ((s.engine x.c.cluster).ctx n).timeline ∧
        ∀ t i e, t < 8 → i < 256 → e < 256 → (s'.engine x.c.cluster).tile m.bank t i e = 0) ∧
    (x.t.cnt.st = 0 → ∀ m, MxCtx.of s x.c = some m → m.cmds = [] →
      (∀ ut ∈ s.teamsOf x.t.crew, ut.2.status ≠ .latched) →
      ∃ s' c, exec .mrel s = .next s' ∧ s'.teams.find? x.u = some (x.t.at_ pc s) ∧
        s'.crews.find? x.t.crew = some c ∧ c.mxCtx = none ∧ SameBytes s s' ∧
        ∀ n, x.c.mxCtx = some n → ((s'.engine x.c.cluster).ctx n).crew = none) ∧
    (x.t.cnt.st = 0 → let G := x.t.regs.sget64 r.toNat
      (G.toNat % 16 = 0 → Gives (.mgang r) s x { x.t with gang := 0, gangSeq := 0, gangKept := false } pc) ∧
      (gangOk s x G = true → Gives (.mgang r) s x { x.t with gang := G, gangSeq := 0, gangKept := false } pc) ∧
      (G.toNat % 16 ≠ 0 → gangOk s x G = false → Traps (.mgang r) s x .enginedeny x.t.flow.mask 0))

/-- R276, R277, R294: MMAG that finds every other member of its gang latched with the same number opens the latch: one
command with the slab of every member enters the context of the first member's crew, and all go on at the next word;
while a member is missing its team is latched and stays where it stands. `us` are the teams of the gang, `L` their
latches. -/
def gangsOpen : Prop :=
  ∀ (s : State) (x : Issuer) (asrc : SReg) (row0 : BitVec 8) (rows : BitVec 9) (ct : BitVec 3) (acc : Bool) (bar : Bar)
    (u0 : Nat) (rest : List Nat) (t0 : Team) (c0 : Crew) (m : MxCtx) (T : Nat → Team) (L : Nat → Latch), Issues s x →
    SMap.risingFrom 0 s.teams = true → x.t.tx = none → x.t.cnt.ld = 0 → x.t.cnt.st = 0 → 0 < gangCount x.t.gang →
    gangTeams s x.c.kernel x.c.isl (x.c.core / 4) x.t.gang = (u0 :: rest).map some → (u0 :: rest).Nodup →
    x.u ∈ u0 :: rest →
    let base : Nat := (x.t.regs.sget asrc.toNat).toNat
    let n := rows.toNat
    let seq := if x.t.gangKept then x.t.gangSeq else x.t.gangSeq + 1
    s.teams.find? u0 = some t0 → s.crews.find? t0.crew = some c0 → MxCtx.of s c0 = some m → m.cmds.length < 64 →
    n ≤ 256 → (n ≠ 0 → base % 256 = 0) → (x.u = u0 → barCauses x bar = []) →
    (∀ u ∈ u0 :: rest, s.teams.find? u = some (T u)) →
    L x.u = { seq := seq, asrc := base, row0 := row0.toNat, rows := n, ct := ct.toNat, acc := acc,
              bar := if x.u = u0 then bar.map (fun q => (x.t.regs.sget q.toNat).toNat) else none } →
    (∀ ut ∈ s.teams, ut.2.status = .latched → some x.u ∈ gangTeams s x.c.kernel x.c.isl (x.c.core / 4) ut.2.gang →
      ut.2.gang = x.t.gang) →
    (∀ v ∈ u0 :: rest, v ≠ x.u → (T v).status ≠ .latched →
      ∃ s', exec (.mmag asrc row0 rows ct acc bar) s = .next s' ∧ s'.engines = s.engines ∧
        ∃ t, s'.teams.find? x.u = some t ∧ t.status = .latched ∧ t.latch = some (L x.u) ∧ t.flow = x.t.flow ∧
          t.regs = x.t.regs) ∧
    ((∀ v ∈ u0 :: rest, v ≠ x.u → (T v).status = .latched ∧ (T v).latch = some (L v) ∧ (L v).seq = seq ∧
        (T v).gang = x.t.gang) →
      let ts := (u0 :: rest).map fun u => (u, (T u, L u))
      jointCauses x.k.image.aspace m t0 (L u0) ts = [] →
      ∃ s' m' cmd, exec (.mmag asrc row0 rows ct acc bar) s = .next s' ∧ MxCtx.of s' c0 = some m' ∧
        m'.cmds = m.cmds ++ [cmd] ∧ cmd.team = u0 ∧ cmd.no = m.issued + 1 ∧ cmd.bar = (L u0).bar ∧
        cmd.kind = .mma none ((u0 :: rest).map fun u => slabOf s (T u).crew (L u).asrc (L u).rows) (L u0).row0 (L u0).ct
          (L u0).acc m.planeFmt ∧
        ∀ u ∈ u0 :: rest, ∃ t, s'.teams.find? u = some t ∧ t.status = .run ∧ t.latch = none ∧ t.regs = (T u).regs ∧
          t.flow = { (T u).flow with pc := (T u).flow.pc + 8 })

/-- R278, R298: MTLD reads a slab of 32 rows of a tile, rounded toward zero to FP32, into 32 registers of 256 lanes; MTST
writes one, every value exactly; each waits for the commands of its context. -/
def slabsMove : Prop :=
  ∀ (s : State) (x : Issuer) (m : MxCtx) (v : Operand) (ct slab : BitVec 3), Issues s x → x.t.tx = none →
    x.t.cnt.st = 0 → rangeInBounds x.t 32 v = true → 256 ≤ x.t.lanes → x.t.vregs ≤ 256 → MxCtx.of s x.c = some m →
    let R := vregOf x.t.regs v
    let row (r : Nat) : Nat := 32 * slab.toNat + r
    let e := s.engine x.c.cluster
    (m.cmds ≠ [] → exec (.mtld v ct slab) s = .next s ∧ exec (.mtst v ct slab) s = .next s) ∧
    (m.cmds = [] →
      (∃ g, Gives (.mtld v ct slab) s x { x.t with regs := g } (x.t.flow.pc + 8) ∧
        SameButLanes x.t.regs g (List.range 256) R 32 ∧
        ∀ r l, r < 32 → l < 256 →
          g.vget l (R + r) = BitVec.ofNat 32 (FFmt.fp32.round .tz (waVal (e.tile m.bank ct.toNat (row r) l)))) ∧
      ∃ s', exec (.mtst v ct slab) s = .next s' ∧ s'.teams.find? x.u = some (x.t.at_ (x.t.flow.pc + 8) s) ∧
        SameBytes s s' ∧ s'.crews = s.crews ∧ s'.ops = s.ops ∧
        ∀ b t i l, t < 8 → i < 256 → l < 256 → (s'.engine x.c.cluster).tile b t i l =
          if b = m.bank ∧ t = ct.toNat ∧ row 0 ≤ i ∧ i < row 32 then
            roundWA (FFmt.fp32.val (x.t.regs.vget l (R + (i - row 0))).toNat) % 2 ^ 40
          else e.tile b t i l)

/-- R271, R276, R277, R287 to R289, R294, R298: the matrix words that take effect as they issue. -/
def Obligations.MatrixWords : Prop := contextsHeld ∧ gangsOpen ∧ slabsMove

/-! ## Records and queues (02_describing_work, 03_launching) -/

/-- R37 to R39: one whole record written to its slot, in a window or by a datagram, is taken. A damaged record changes
nothing of its queue but the slot; an intact one that carries EXPECT is accepted, in order of acceptance, or finishes
rejected with its code in the status word; one up to 255 ahead waits in its own slot; any other is dropped. -/
def recordsAcceptedRule : Prop :=
  ∀ (s : State) (q n : Nat) (bytes : List Byte), hostOpen s false = true → queueOn s q = true → n < 256 →
    bytes.length = 128 → (s.queue q).expect < 2 ^ 32 →
    let r := Rec.ofBytes bytes
    let x := s.queue q
    let ahead := (r.seq + 2 ^ 32 - x.expect) % 2 ^ 32
    ∀ i ∈ [Instr.recordSlotWrite q (128 * n) bytes, .recordWindowWrite q (128 * n) bytes],
      ∃ t, exec i s = .next t ∧
        let y := t.queue q
        let Unmoved : Prop := y.expect = x.expect ∧ y.accepted = x.accepted ∧ y.status = x.status
        (r.seal ≠ crc32c (bytes.take 124) → Unmoved ∧ y.waiting = x.waiting) ∧
        (r.seal = crc32c (bytes.take 124) →
          (ahead = 0 → x.waiting.find? ((x.expect + 1) % 2 ^ 32) = none →
            (rejection s x.tenant r = none → y.expect = (x.expect + 1) % 2 ^ 32 ∧ y.status = x.status ∧
              ∃ k, y.accepted = x.accepted ++ [(r, (s.pcp.accOrder, k))]) ∧
            (∀ c, rejection s x.tenant r = some c → x.statVa = 0 → y.expect = (x.expect + 1) % 2 ^ 32 ∧
              y.accepted = x.accepted ∧ y.status = statusAfter x.status r.seq c)) ∧
          (ahead ≠ 0 → ahead ≤ 255 → n = r.seq % 256 → Unmoved ∧ y.waiting = x.waiting.put r.seq r) ∧
          (255 < ahead ∨ ahead ≠ 0 ∧ n ≠ r.seq % 256 → Unmoved ∧ y.waiting = x.waiting))

/-- R36, R39: a datagram of one record, whole, to the panel's address and with the queue's key, is the write of that record
to slot SEQ modulo 256; a frame with a bad FCS, a nonzero checksum that fails, IPv6 with a zero checksum, or one to another
address or port changes nothing. -/
def datagramsRule : Prop :=
  ∀ (s : State) (q key : Nat) (addr : BitVec 128) (port : BitVec 16) (frame : Frame) (bytes payload : List Byte),
    hostOpen s false = true →
    let carries := leBytes 2 q ++ leBytes 2 1 ++ leBytes 8 key ++ leBytes 4 0 ++ bytes
    let drops := frame.fcs = false ∨ frame.sum = .bad ∨ (frame.v6 = true ∧ frame.sum = .zero)
    (q < 2048 → key < 2 ^ 64 → bytes.length = 128 → keyFlags s q key = 0 → addr = s.host.reqAddr →
      port.toNat = s.host.reqPort → s.host.reqPort ≠ 0 → ¬drops →
      ∃ t, exec (.requestDatagram addr port frame carries) s = .next t ∧
        exec (.recordSlotWrite q (128 * ((Rec.ofBytes bytes).seq % 256)) bytes) s = .next t) ∧
    (drops ∨ addr ≠ s.host.reqAddr ∨ port.toNat ≠ s.host.reqPort →
      exec (.requestDatagram addr port frame payload) s = .next s)

/-- R45: the queue whose turn it is among queues `here`, ready at one level: the one whose turn goes on, while its WEIGHT
allows one more, else the next above the last one, the lowest after the highest. -/
def turnOf (s : State) (level : Nat) (here : List Nat) (q : Nat) : Prop :=
  let from_ (r : Nat) : Prop :=
    (r ≤ q ∧ ∀ p ∈ here, r ≤ p → q ≤ p) ∨ ((∀ p ∈ here, p < r) ∧ ∀ p ∈ here, q ≤ p)
  match s.pcp.turns.find? level with
  | some (p, n) => if p ∈ here ∧ n ≤ (s.queue p).weight then p = q else from_ (p + 1)
  | none => from_ (SMap.get 0 s.pcp.rot level)

/-- R29, R45, R46, R49: a decision raises the levels that are due and takes the head of the queue whose turn it is at the
highest level, which then stands at its LEVEL. A SIGNAL adds to its counter, where no home holds that, and finishes; a
MESSAGE finishes where its kernel has retired (with OK: the model's choice, log 55), waits for its kernel's first crew, or
leaves as an active message; a LAUNCH leaves the state in which its record waits. -/
def arbitrationRule : Prop :=
  ∀ (s : State) (q order : Nat) (kid : Option Nat) (r : Rec) (rest : List (Rec × (Nat × Option Nat))),
    SMap.risingFrom 0 s.queues = true → Quiet s →
    let raised := promoteDue s
    let level := (raised.queue q).eff
    (s.queue q).accepted = (r, (order, kid)) :: rest → q ∈ readyQueues s →
    (∀ p ∈ readyQueues s, (raised.queue p).eff ≤ level) → level ≤ 63 →
    turnOf s level ((readyQueues s).filter fun p => (raised.queue p).eff = level) q →
    let Taken (t : State) : Prop := exec .arbitrationDecision s = .next t ∧ (t.queue q).eff = (s.queue q).level ∧
      (t.queue q).accepted = rest ∧
      ∀ p, p ≠ q → (t.queue p).eff = (raised.queue p).eff ∧ (t.queue p).accepted = (s.queue p).accepted
    let status (t : State) : Prop := (t.queue q).status = statusAfter (s.queue q).status r.seq .ok
    let va := natBits (r.q 1) 55 0
    (r.kind = kindSignal → (s.queue q).statVa = 0 → ∀ e, walk s (s.queue q).tenant va = .leaf e → e.attr = .coherent →
      e.w = true → writeHeld s s.uid (e.pa va) 4 = false → ∃ t, Taken t ∧ status t ∧ t.rd (e.pa va) 4 = (s.rd (e.pa va) 4 + natBits (r.q 2) 31 0) % 2 ^ 32) ∧
    (r.kind = kindMessage → (s.queue q).statVa = 0 → kid.bind s.kernels.find? = none →
      ∃ t, Taken t ∧ status t ∧ t.kernels = s.kernels) ∧
    (∀ id k, r.kind = kindMessage → kid = some id → s.kernels.find? id = some k →
      (k.placed = 0 → ∃ t, Taken t ∧
        t.kernels.find? id = some { k with waitMsgs := k.waitMsgs ++ [(q, (r.seq, r))] }) ∧
      ∀ e, k.placed ≠ 0 → msgEntry s id k q r = some e →
        ∃ t, Taken t ∧ t.msgs = s.msgs.put s.uid { e with port := dispatcherPort e.isl }) ∧
    (∀ id k, r.kind = kindLaunch → kid = some id → s.kernels.find? id = some k →
      imageHeld s k.tenant r.launch = false →
      ∃ t, exec .arbitrationDecision s = .next t ∧ (t.queue q).eff = (s.queue q).level ∧
        (t.queue q).accepted.Sublist rest ∧ ∀ k', t.kernels.find? id = some k' → k'.phase ≠ .accepted)

/-- R46: a ready head that has waited 1 ms raises its queue's level by one, and its clock starts again from there. -/
def promotionRule : Prop :=
  ∀ (s : State) (q c : Nat), (s.queue q).clock = some c → heldRoom s = true → headReady s q (s.queue q) = true →
    c + 2000000 ≤ s.now → (s.queue q).eff < 47 →
    exec (.queuePromotion q) s =
      .next (s.updQueue q fun x => { x with eff := (s.queue q).eff + 1, clock := some (c + 2000000) })

/-- R47, R48: when a counter a held kernel waits on has changed, its counters are read again: it is released once every one
has reached its target, waits on the lines of the counters or is to read them again otherwise, and ends where one is no
coherent memory of its tenant. A write of RELEASE releases every held kernel of the queue. -/
def holdsRule : Prop :=
  (∀ (s : State) (kid : Nat) (k : Kernel), s.kernels.find? kid = some k → k.phase = .held → k.retry = true → Quiet s →
    holdsHeld s k = false →
    let va (j : Nat × Word) : Nat := (k.launch.holdBase + 4 * j.1) % 2 ^ 64
    let Readable (j : Nat × Word) (e : TlbEntry) : Prop := walk s k.tenant (va j) = .leaf e ∧ e.attr = .coherent
    let Reached (j : Nat × Word) : Prop :=
      ∀ e, Readable j e → serialGE (BitVec.ofNat 32 (s.rd (e.pa (va j)) 4)) j.2 = true
    ((∀ j ∈ k.launch.holds, ∃ e, Readable j e) → (∀ j ∈ k.launch.holds, Reached j) →
      ∃ t, exec (.holdCounterWake kid) s = .next t ∧ t.kernels.find? kid =
        some { k with phase := .ready, readyAt := s.now, lastPlaced := s.now, retry := false }) ∧
    ((∀ j ∈ k.launch.holds, ∃ e, Readable j e) → (∃ j ∈ k.launch.holds, ¬Reached j) →
      ∃ t k', exec (.holdCounterWake kid) s = .next t ∧ t.kernels.find? kid = some k' ∧ k'.phase = .held ∧
        (k'.retry = true ∨ ∀ j ∈ k.launch.holds, ∀ e, Readable j e →
          ∃ c, (t.isl (e.pa (va j) / 2 ^ 39)).crumbs.find? (e.pa (va j) / 128) = some c ∧ .hold kid ∈ c.waiters)) ∧
    ((∃ j ∈ k.launch.holds, walk s k.tenant (va j) = .bad ∨
        ∃ e, walk s k.tenant (va j) = .leaf e ∧ e.attr ≠ .coherent) →
      (∀ j ∈ k.launch.holds, ∀ p l z e, walk s k.tenant (va j) ≠ .missing true p l z e) →
      ∃ t, exec (.holdCounterWake kid) s = .next t ∧ t.kernels.find? kid = none)) ∧
  ∀ (s : State) (q : Nat), hostOpen s false = true → SMap.risingFrom 0 s.kernels = true →
    ∃ t, exec (.releaseHeld q) s = .next t ∧ ∀ kid, t.kernels.find? kid = (s.kernels.find? kid).map fun k =>
      if k.queue = q ∧ k.phase = .held then
        { k with phase := .ready, readyAt := s.now, lastPlaced := s.now, retry := false }
      else k

/-- R42, R43: the fields that a write of QCFG or TCFG leaves; TENANT keeps its value while the queue is enabled, a LEVEL
above 47 is not taken, and a queue or tenant that is not enabled loses the copies that wait. -/
def queueRegistersRule : Prop :=
  (∀ (s : State) (q : Nat) (v : DWord), hostOpen s false = true →
    let x := s.queue q
    let level := natBits v.toNat 21 16
    ∃ t, exec (.qcfgWrite q v) s = .next t ∧ (t.queue q).weight = natBits v.toNat 31 24 ∧
      (t.queue q).level = (if level ≤ 47 then level else x.level) ∧
      (t.queue q).tenant = (if x.enable then x.tenant else natBits v.toNat 15 10) ∧
      (t.queue q).eth = decide (natBits v.toNat 1 1 = 1) ∧ (t.queue q).enable = decide (natBits v.toNat 0 0 = 1) ∧
      (t.queue q).waiting = (if natBits v.toNat 0 0 = 1 then x.waiting else []) ∧
      (t.queue q).expect = x.expect ∧ (t.queue q).key = x.key ∧ (t.queue q).accepted = x.accepted) ∧
  ∀ (s : State) (n : Nat) (v : DWord), hostOpen s false = true →
    ∃ t, exec (.tcfgWrite n v) s = .next t ∧
      t.tenant n = { s.tenant n with hbmw := natBits v.toNat 15 8, enable := decide (natBits v.toNat 0 0 = 1) } ∧
      ∀ q, (t.queue q).waiting =
        if natBits v.toNat 0 0 ≠ 1 ∧ (s.queue q).tenant = n then [] else (s.queue q).waiting

/-- R36 to R48: records from their slot to the PCP's hands. -/
def Obligations.RecordsTaken : Prop :=
  recordsAcceptedRule ∧ datagramsRule ∧ arbitrationRule ∧ promotionRule ∧ holdsRule ∧ queueRegistersRule

/-! ## Kernels placed and retired (04_placing, 20_interruption) -/

/-- R57, R61, R62: where the next crew of a kernel goes: of the islands of its set that take it, have an index for it and
hold a core that accepts it, the one with the fewest of its crews, the lowest first (the model's choice, log 59); there the
accepting core of lowest rank. -/
def goesTo (s : State) (kid : Nat) (k : Kernel) (isls : List Nat) (pins : Bool) (isl core idx : Nat) (k1 : Kernel) : Prop :=
  let Able (i : Nat) : Prop :=
    islandOpen s kid k i = true ∧ (nextIndex k isls i).isSome = true ∧ acceptingCores s kid k pins i ≠ []
  let crews (i : Nat) : Nat := ((s.crewsOf kid).filter fun uc => uc.2.isl = i).length
  isls.Pairwise (· < ·) ∧ isl ∈ isls ∧ Able isl ∧
    (∀ i ∈ isls, Able i → crews isl < crews i ∨ crews isl = crews i ∧ isl ≤ i) ∧
    nextIndex k isls isl = some (idx, k1) ∧ core ∈ acceptingCores s kid k pins isl ∧
    ∀ c ∈ acceptingCores s kid k pins isl, c ≠ core → lexLt (coreRank s kid isl core) (coreRank s kid isl c) = true

/-- R57 to R63, R102: a ready kernel before which no other can place a crew, which waits for no code page and whose code can
be read, places its next crew on the core that these rules name, with the next index; the first crew of a travelling kernel
of one segment pins it. Which island of the set takes it is the model's choice (`goesTo`, log 59). -/
def crewsPlacedRule : Prop :=
  ∀ (s : State) (kid : Nat) (k k1 : Kernel) (aff : List (Nat × Nat)) (isl core idx : Nat), s.kernels.find? kid = some k →
    k.phase = .ready → codeParked s kid = false → k.waitMsgs = [] →
    s.kernels.any (fun uq => uq.2.before k && placeable s uq.1 uq.2) = false → affinityHeld s k = false →
    affinity s k = some aff → k.launch.ovfUnits = 0 ∨ k.ovfPa.isSome = true →
    let isls := islandSet s kid k aff
    let Readable (pages : List (Nat × Nat)) : Prop :=
      codeFault s k.tenant pages = none ∧ codeHeld s k.tenant pages = false
    let Placed (n : Nat) (pins : List Nat) : Prop :=
      ∃ t cu c k', exec (.crewPlacement kid) s = .next t ∧ s.uid ≤ cu ∧ t.crews.find? cu = some c ∧ c.kernel = kid ∧
        c.idx = idx ∧ c.isl = isl ∧ c.core = core ∧ t.kernels.find? kid = some k' ∧ k'.placed = n ∧ k'.pins = pins ∧
        k'.isls = some isls ∧ k'.next = k1.next ∧ k'.lastPlaced = s.now
    (k.travels = false → goesTo s kid k isls false isl core idx k1 →
      codeHere s kid (coreKey isl core) = true ∨ Readable (pieces k.image.codeVa k.image.codeBytes) →
      Placed (k.placed + 1) k.pins) ∧
    (k.travels = true → k.placed ≠ 0 → k.image.segs.length ≤ k.placed → goesTo s kid k isls false isl core idx k1 →
      Placed (k.placed + 1) k.pins) ∧
    ∀ g, k.travels = true → k.placed = 0 → k.image.segs = [g] → k.pins = [] → goesTo s kid k isls true isl core idx k1 →
      Readable (pieces (k.image.codeVa + g.start) g.len) → Placed 1 [core]

/-- R57: the ready kernel with crews to place that stands before all others reserves once it has placed none for 1 ms. R64:
a take repeated to a new leader is answered. -/
def reservationRule : Prop :=
  (∀ (s : State) (kid : Nat) (k : Kernel), SMap.risingFrom 0 s.kernels = true → s.kernels.find? kid = some k →
    k.phase = .ready → k.unplaced = true → s.pcp.reserving = none → k.lastPlaced + 2000000 ≤ s.now →
    (∀ q j, s.kernels.find? q = some j → q ≠ kid → j.phase = .ready → j.unplaced = true → k.before j = true) →
    exec .reservingKernel s = .next (s.updPcp fun p => { p with reserving := some kid })) ∧
  ∀ (s : State) (kid isl : Nat) (k : Kernel) (at_ : Nat), s.kernels.find? kid = some k → k.rangeRetryAt = some at_ →
    isl ∈ k.isls.getD [] →
    exec (.rangeTakeRetry kid isl) s = .next (s.updKernel kid fun k => { k with rangeRetryAt := none })

/-- R32, R50, R322, R393: a kernel whose work is done retires: its crews and its record leave, the addition of a signal list
of one entry is made, and its LAUNCH finishes with OK where it names none or one. -/
def retirementRule : Prop :=
  ∀ (s : State) (kid : Nat) (k : Kernel), s.kernels.find? kid = some k → retires s kid k = true →
    let Gone (t : State) : Prop := exec (.kernelRetirement kid) s = .next t ∧ t.kernels.find? kid = none
    (k.launch.sigN = 0 → ∃ t, Gone t ∧ t.crewsOf kid = []) ∧
    (k.launch.sigN = 0 → s.crewsOf kid = [] → openMsgs s kid k = [] → (s.queue k.queue).statVa = 0 →
      ∃ t, Gone t ∧ (∀ q, q ≠ kid → t.kernels.find? q = s.kernels.find? q) ∧
        (t.queue k.queue).status = statusAfter (s.queue k.queue).status k.seq .ok ∧
        (t.queue k.queue).accepted = (s.queue k.queue).accepted) ∧
    ∀ e0 e va inc, k.launch.sigN = 1 → k.launch.sigVa % 16 = 0 → Quiet s → s.crewsOf kid = [] → openMsgs s kid k = [] →
      (s.queue k.queue).statVa = 0 → walk s k.tenant k.launch.sigVa = .leaf e0 → e0.attr ≠ .none →
      pcpHeld s k.tenant k.launch.sigVa 16 = false → va < 2 ^ 56 → va % 4 = 0 → inc < 2 ^ 32 →
      s.bytes (e0.pa k.launch.sigVa) 16 = leBytes 8 va ++ leBytes 4 inc ++ leBytes 4 0 →
      walk s k.tenant va = .leaf e → e.attr = .coherent → e.w = true →
      writeHeld s s.uid (e.pa va) 4 = false →
      ∃ t, Gone t ∧ t.rd (e.pa va) 4 = (s.rd (e.pa va) 4 + inc) % 2 ^ 32 ∧
        (t.queue k.queue).status = statusAfter (s.queue k.queue).status k.seq .ok

/-- R50, R57 to R64, R322, R393: the life of a kernel from its first crew to its retirement. -/
def Obligations.KernelsPlaceAndRetire : Prop := crewsPlacedRule ∧ reservationRule ∧ retirementRule

/-! ## Lane entries, segment maps and teams (04_placing, 07_control_flow, 17_transactions) -/

/-- R65, R66, R67, R120, R248, R249: an active message that waits behind no other and whose core has an open crew of its
kernel takes a free bin where its core has none of its key, as the one entry, or its island's pool where no bin is free;
one of a SPAWN finds no earlier lane's entry in the pool (R139); a travelling payload does so where its core stands in the
map. One whose kernel is gone is dropped. R66: a bin whose timer has run out forms a team from what it holds, in the slot
and crew that take it. -/
def entriesKeyedRule : Prop :=
  (∀ (s : State) (id : Nat) (e : LaneEntry) (k : Kernel), s.msgs.find? id = some e → msgBehind s id e = false →
    s.kernels.find? e.kernel = some k → e.msg = none → 2 ≤ k.fillAt e.off →
    (e.payload.travels = true ∨ (s.isl e.isl).pool.any (fun x => x.ahead e) = false) →
    (e.payload.travels = true → inMapAt k e.off e.core = true) →
    (openCrews s e.kernel).any (fun c => c.isl = e.isl && c.core = e.core) = true →
    let key := coreKey e.isl e.core
    binOf (s.core key) e.kernel e.off = none →
    (∀ bi, freeKey (s.core key).bins 32 = some bi →
      ∃ t, exec (.activeMessage id) s = .next t ∧ t.msgs = s.msgs.del id ∧ t.teams = s.teams ∧
        let kept : LaneEntry := { e with at_ := s.now, src := none, port := none, stuck := false, spawn := none }
        (t.core key).bins = (s.core key).bins.put bi { kernel := e.kernel, off := e.off, entries := [kept] }) ∧
    (freeKey (s.core key).bins 32 = none → e.payload.travels = false → (s.isl e.isl).pool.length < 65536 →
      ∃ t, exec (.activeMessage id) s = .next t ∧ t.msgs = s.msgs.del id ∧ t.teams = s.teams ∧ t.cores = s.cores ∧
        (t.isl e.isl).pool = (s.isl e.isl).pool ++ [e])) ∧
  (∀ (s : State) (id : Nat) (e : LaneEntry), s.msgs.find? id = some e → msgBehind s id e = false →
    s.kernels.find? e.kernel = none → exec (.activeMessage id) s = .next { s with msgs := s.msgs.del id }) ∧
  ∀ (s : State) (key bi : Nat) (b : Bin) (k : Kernel) (e : LaneEntry) (es : List LaneEntry),
    SMap.find? (s.core key).bins bi = some b → s.kernels.find? b.kernel = some k → b.forming = none →
    b.entries = e :: es → b.entries.length < min (k.fillAt b.off) 128 → k.fillAt b.off ≤ 1024 → b.expired = false →
    e.at_ + ((k.entryAt b.off).map Entry.cycles).getD 4096 ≤ s.now →
    (∀ slot cu j, formSlot s b.kernel k key (k.fillAt b.off) = some slot → joinCrew s b.kernel key slot = some (cu, j) →
      ∃ t m, exec (.binTimerExpiry key bi) s = .next t ∧ t.teams = s.teams.put s.uid m ∧ m.crew = cu ∧ m.index = j ∧
        m.lanes = k.fillAt b.off ∧ m.flow.pc = b.off ∧ MaskIs m.flow.mask (List.range b.entries.length) ∧
        (t.core key).bins = SMap.del ((s.core key).bins) bi) ∧
    (formSlot s b.kernel k key (k.fillAt b.off) = none → exec (.binTimerExpiry key bi) s =
      .next (s.updCore key fun c => { c with bins := c.bins.put bi { b with expired := true } }))

/-- R66: a bin that is due reserves a forming team of its first FILL entries in the slot with the most free words; a full
reservation, or one whose timer has run out, launches as a team of those lanes in the crew of lowest index that has
room. -/
def binsLaunchRule : Prop :=
  ∀ (s : State) (key bi : Nat) (b : Bin) (k : Kernel), SMap.find? (s.core key).bins bi = some b →
    s.kernels.find? b.kernel = some k →
    let fill := k.fillAt b.off
    (∀ slot, b.forming = none → min fill 128 ≤ b.entries.length ∨ b.expired = true ∧ b.entries ≠ [] →
      formSlot s b.kernel k key fill = some slot →
      ∃ t, binMove s key bi = some t ∧ t.teams = s.teams ∧ ∃ b', (t.core key).bins = (s.core key).bins.put bi b' ∧
        b'.forming = some (slot, b.entries.take fill) ∧ b'.entries = b.entries.drop fill) ∧
    ∀ slot ls cu j, b.forming = some (slot, ls) → ls.length = fill ∨ b.expired = true ∧ ls ≠ [] →
      ls.length ≤ 1024 → joinCrew s b.kernel key slot = some (cu, j) →
      ∃ t m, binMove s key bi = some t ∧ t.teams = s.teams.put s.uid m ∧ m.crew = cu ∧ m.index = j ∧ m.lanes = fill ∧
        m.vregs = k.launch.shape.vregs ∧ m.flow.pc = b.off ∧ MaskIs m.flow.mask (List.range ls.length) ∧
        m.flow.stack = [] ∧ m.sched.level = k.level

/-- R67, R119, R249, R251: the first pooled entry that finds a place again goes there as an active message of its
dispatcher, to another island in a packet of the dispatcher's stream (log 63); the first overflowed payload whose bin
takes it enters it. -/
def reinjectionRule : Prop :=
  (∀ (s : State) (isl : Nat) (e : LaneEntry) (es : List LaneEntry), (s.isl isl).pool = e :: es →
    let e' := rerouted s e
    let sent : LaneEntry := { e' with src := none, port := dispatcherPort e.isl, stuck := false }
    (e'.isl = e.isl → flyingEntries s e' < binRoom s e' →
      ∃ t, exec (.poolReinject isl) s = .next t ∧ t.msgs.find? s.uid = some sent ∧ (t.isl isl).pool = es) ∧
    (e'.isl ≠ e.isl → accepts s e' = true →
      ∃ t p, exec (.poolReinject isl) s = .next t ∧ (t.isl isl).pool = es ∧ t.pkts.find? s.uid = some p ∧
        p.cargo = .active sent ∧ p.src = e.isl ∧ p.dst = e'.isl ∧ p.sep = 0x50 ∧
        p.sseq = (SMap.get {} s.streams (streamKey e.isl 0x50 e'.isl)).next)) ∧
  ∀ (s : State) (kid bi : Nat) (k : Kernel) (e : LaneEntry) (es : List LaneEntry) (b : Bin),
    s.kernels.find? kid = some k → k.overflow = e :: es → e.kernel = kid → e.msg = none →
    let e' : LaneEntry := { e with core := (holderFor s kid k e.isl e.off).getD e.core }
    let key := coreKey e'.isl e'.core
    binTakes s k e' = true → binOf (s.core key) kid e.off = some bi → SMap.find? (s.core key).bins bi = some b →
    b.kernel = kid → b.off = e.off → b.forming = none → b.expired = false →
    b.entries.length + 1 < min (k.fillAt e.off) 128 →
    ∃ t, exec (.overflowReinject kid) s = .next t ∧ (t.kernels.find? kid).map (·.overflow) = some es ∧
      t.teams = s.teams ∧ t.msgs = s.msgs ∧
      let kept : LaneEntry := { e' with at_ := s.now, src := none, port := none, stuck := false, spawn := none }
      (t.core key).bins = (s.core key).bins.put bi { b with entries := b.entries ++ [kept] }

/-- R68, R69: the refresh of a segment map each 1 µs publishes every holder with its load; a window in which more than
THRESH arrivals waited counts one more than the window before, another starts the count again; in the third the lowest
idle core with room (log 72) takes a replica; a holder with no arrival for 50 µs leaves the map where another stands in
it. -/
def segmentMapsRule : Prop :=
  ∀ (s : State) (kid : Nat) (k : Kernel), s.kernels.find? kid = some k →
    let isl := (k.isls.getD []).headD 0
    (k.travels = true → k.segMap ≠ [] → k.mapsDone < s.now / 2000 →
      ∃ t k', exec (.segmentMapRefresh kid) s = .next t ∧ t.kernels.find? kid = some k' ∧
        k'.mapsDone = k.mapsDone + 1 ∧ k'.segMap.length = k.segMap.length ∧
        ∀ m ∈ k'.segMap, ∀ h ∈ m.holders, h.inMap = true ∧ h.load = loadOf s kid (coreKey isl h.core)) ∧
    (∀ i m g, k.segMap[i]? = some m → k.image.segs[i]? = some g → m.windows < s.now / 2000 →
      let queued := (m.holders.map fun h => waitingAt s kid (coreKey isl h.core)).sum
      let run := if m.windows + 1 = s.now / 2000 then m.hot else 0
      let after (n : Nat) : State :=
        s.updKernel kid fun k => { k with segMap := k.segMap.set i { m with hot := n, windows := s.now / 2000 } }
      (queued ≤ g.thresh → exec (.replicaWindow kid i) s = .next (after 0)) ∧
      (g.thresh < queued → run < 2 → exec (.replicaWindow kid i) s = .next (after (run + 1))) ∧
      let Fits (c : Nat) : Prop := ∃ old, idleCore s kid k isl c = some old ∧ old ≠ some i ∧
        codeUsed s (coreKey isl c) -
          (((s.core (coreKey isl c)).code.filter fun x => x.kernel = kid).map (·.size)).sum + g.len ≤ 131072
      let need := pieces (k.image.codeVa + g.start) g.len
      ∀ core, g.thresh < queued → run = 2 → m.holders.length < g.maxrep → core < 36 → Fits core →
        (∀ c, c < core → ¬Fits c) → codeFault s k.tenant need = none → codeHeld s k.tenant need = false →
        ∃ t, exec (.replicaWindow kid i) s = .next t ∧
          (t.core (coreKey isl core)).code.any (fun c => c.kernel = kid && c.base = g.start && c.size = g.len) = true) ∧
    ∀ i m h, k.segMap[i]? = some m → h ∈ m.holders → (m.holders.map (·.core)).Nodup → h.inMap = true →
      2 ≤ (m.holders.filter (·.inMap)).length → h.lastArrival + 100000 ≤ s.now →
      ∃ t, exec (.replicaRetirement kid i h.core) s = .next t ∧ t.kernels.find? kid =
        some { k with segMap := k.segMap.set i { m with holders := m.holders.filter fun y => y.core ≠ h.core } }

/-- R65 to R69, R119, R249: lane entries find bins, bins form teams, segments find replicas. -/
def Obligations.EntriesFormTeams : Prop := entriesKeyedRule ∧ binsLaunchRule ∧ reinjectionRule ∧ segmentMapsRule

/-- R114, R328, R330: a ready team not chosen for 4,096 cycles is promoted at the time they ended; a sleeping team
wakes where it stands; a free token goes to the team that asked first; an irrevocable attempt 1 ms old aborts with LONG. -/
def Obligations.TeamsWake : Prop :=
  ∀ (s : State) (u : Nat) (t : Team), s.teams.find? u = some t →
    (canIssue s t = true → t.sched.promoted = none → t.sched.readySince + 4096 ≤ s.now →
      ∃ s', exec (.teamPromotion u) s = .next s' ∧ s'.teams.find? u = some { t with
          sched := { t.sched with promoted := some (t.sched.readySince + 4096) } } ∧
        { s' with teams := s.teams } = s ∧ ∀ v, v ≠ u → s'.teams.find? v = s.teams.find? v) ∧
    (∀ ls ws, t.status = .sleeping ls ws →
      ∃ s', exec (.teamWake u) s = .next s' ∧ s'.teams.find? u = some { t with
          status := .run, wakeDue := false, ovf := [], sched := { t.sched with readySince := s.now } } ∧
        (∀ v, v ≠ u → s'.teams.find? v = s.teams.find? v) ∧ SameBytes s s') ∧
    (∀ isl us, (s.isl isl).token = none → (s.isl isl).tokenAsk = u :: us →
      exec (.irrevocableTokenGrant isl) s = .next (s.updIsl isl fun i => { i with token := some u, tokenAsk := us })) ∧
    ∀ tx, t.tx = some tx → tx.irrev = true → tx.opened + 2000000 ≤ s.now →
      ∃ s' t', exec (.irrevocableTimeout u) s = .next s' ∧ s'.teams.find? u = some t' ∧ t'.tx = none ∧
        t'.txs.code = .long ∧ t'.flow = { tx.restart with pc := tx.abortPath } ∧ t'.regs = t.regs ∧ SameBytes s s'

/-! ## Pages (11_memory) -/

/-- A team of a fault entry runs again from now on, and the entry is free (R214). -/
def replays (s t : State) (isl entry u : Nat) (t0 : Team) : Prop :=
  SMap.find? (t.isl isl).faults entry = none ∧
    t.teams.find? u = some { t0 with status := .run, sched := { t0.sched with readySince := s.now } }

/-- R59, R210, R214, R379: a missing demand page whose island has a frame is mapped there, its entry valid, and its access
replays; a reply of the host replays the access of an entry that waits for it, or raises NOTMAPPED, and is ignored for any
other (what a reply leaves of a waiting entry is log 52, the fields it leaves log 41). R205: a page read-shared from another
island gets a copy in the reader's memory, and the topology table one that stays equal to it. -/
def faultsRule : Prop :=
  ∀ (s : State) (isl entry : Nat) (f : FaultEntry), SMap.find? (s.isl isl).faults entry = some f → isl < 25 →
    (s.isl isl).faultWait = [] →
    (∀ pte level size x u t0, f.demand = true → f.copyWanted = false → f.who = .team u → s.teams.find? u = some t0 →
      t0.status = .parked → Quiet s → walk s f.tenant f.va = .missing true pte level size x →
      (pteGroup pte level size).any (fun a => writeHeld s s.uid a 8) = false → pte % 8 = 0 → level ≤ 2 →
      4 * level ≤ size → size ≤ 4 * level + 3 → (s.isl isl).live = true → hasFrame s isl (pageBytes size) = true →
      ∃ t pa, exec (.demandPageFill isl entry) s = .next t ∧ replays s t isl entry u t0 ∧ pa % pageBytes size = 0 ∧
        pa / 2 ^ 39 = isl ∧ (pa % 2 ^ 39, pageBytes size) ∈ (t.isl isl).frames ∧
        t.rd pte 8 = isl * 2 ^ 59 + pa % 2 ^ 39 + x % 2 ^ 11 / 2 * 2 + 1) ∧
    (∀ e, f.copyWanted = true → walk s f.tenant f.va = .leaf e → e.isl = 32 →
      ∃ t, exec (.readSharedCopy isl entry) s = .next t ∧ SMap.find? (t.isl isl).faults entry = none ∧
        (t.isl isl).topo = true ∧ t.mem = s.mem) ∧
    (∀ e, f.copyWanted = true → s.wf → Quiet s → walk s f.tenant f.va = .leaf e → e.attr = .shared → e.isl ≠ isl → e.isl ≠ 32 →
      hasFrame s isl (pageBytes e.size) = true →
      ∃ t base, exec (.readSharedCopy isl entry) s = .next t ∧ SMap.find? (t.isl isl).faults entry = none ∧
        ({ tenant := f.tenant, va := 4096 * e.page, home := e.frame, size := pageBytes e.size, base := base } : Replica) ∈
          (t.isl isl).replicas ∧
        ∀ a, a < pageBytes e.size → memGet t.mem (base + a) = memGet s.mem (e.frame + a)) ∧
    ∀ x : DWord, hostOpen s false = true → natBits x.toNat 20 16 = isl → natBits x.toNat 9 0 = entry →
      let noted := s.updHost fun h => { h with replyFail := decide (natBits x.toNat 32 32 = 1), replyIsl := isl }
      (∀ u t0, natBits x.toNat 32 32 = 0 → f.demand = false → f.who = .team u → s.teams.find? u = some t0 →
        t0.status = .parked →
        ∃ t, exec (.faultreply x) s = .next t ∧ replays s t isl entry u t0 ∧ t.host = noted.host ∧ SameBytes s t) ∧
      (∀ u, natBits x.toNat 32 32 = 1 → f.demand = false → f.who = .team u → exec (.faultreply x) s = .next
        (raise ((faultLeave noted isl entry).updTeam u fun t => { t with status := .run }) u .notmapped f.lanes f.va 0)) ∧
      (f.demand = true → exec (.faultreply x) s = .next noted)

/-- R210, R212, Tables 11-5 and 11-7: PTROOT takes its field while the tenant is not enabled; a GO stores its fields, and
once no access that began after it uses an old entry it is done: no TLB holds an entry that it covers. -/
def translationRule : Prop :=
  ∀ (s : State) (x : DWord),
    (∀ n, hostOpen s false = true → (s.tenant n).enable = false → exec (.ptrootWrite n x) s =
      .next (s.updTenant n fun y => { y with ptroot := natBits x.toNat 43 7 * 2 ^ 7 })) ∧
    (∀ n, hostOpen s false = true → (s.tenant n).enable = true → exec (.ptrootWrite n x) s = .next s) ∧
    (hostOpen s false = true → s.host.tlbGo = false → exec (.tlbinvGo x) s = .next (s.updHost fun h =>
      { h with tlbAll := decide (natBits x.toNat 1 1 = 1), tlbGo := decide (natBits x.toNat 0 0 = 1), tlbFrom := s.uid })) ∧
    (s.host.tlbGo = true → invRange s.host = none →
      exec .tlbinvDone s = .next (s.updHost fun h => { h with tlbGo := false })) ∧
    ∀ tenant va n, s.host.tlbGo = true → invRange s.host = some (tenant, (va, n)) → usesOld s tenant va n = false →
      ∃ t, exec .tlbinvDone s = .next t ∧ t.host.tlbGo = false ∧
        let Clear (e : TlbEntry) : Prop := e.tenant = tenant →
          4096 * e.page + pageBytes e.size ≤ va ∨ va + n ≤ 4096 * e.page
        (∀ kc ∈ t.cores, ∀ e ∈ kc.2.tlb, Clear e) ∧ ∀ ki ∈ t.isls, ∀ e ∈ ki.2.tlb, Clear e

/-- R60, R215, R216: a page that one remote island has touched more than enough in its window is locked and its copy to
that island begins; when the copy is done, where nothing has read or watches its lines and no copy of it is kept, the
accesses in flight go on at the new home, which holds the page's bytes, and the migration ends where it held none; a page
that a kernel keeps where it is stays. How touches are counted and when a migration ends is log 42. -/
def migrationRule : Prop :=
  (∀ (s : State) (tenant va isl : Nat) (e : TlbEntry), walk s tenant va = .leaf e → e.isl < 32 → e.isl ≠ isl → Quiet s →
    let n := pageBytes e.size
    n ≤ 64 * 2 ^ 20 → (s.isl isl).live = true → migrates (pageTouches s e isl (s.now / 200000)) = true →
    pagePinned s tenant e = false → lockedBy s e.frame = none → hasFrame s isl n = true →
    ∃ t base, exec (.migrationWindow tenant va isl) s = .next t ∧ t.pcp.migrations.find? s.uid = some
        { tenant := tenant, va := 4096 * e.page, size := n, src := e.frame, dst := base } ∧ base / 2 ^ 39 = isl ∧
      ∀ a, a < base ∨ base + n ≤ a → memGet t.mem a = memGet s.mem a) ∧
  (∀ (s : State) (m : Migration), s.wf → m.src + m.size ≤ m.dst ∨ m.dst + m.size ≤ m.src →
    (∀ a, a < m.size → memGet s.mem (m.dst + a) = 0) →
    ∀ a, a < m.size → memGet (moveBytes s m).mem (m.dst + a) = memGet s.mem (m.src + a)) ∧
  ∀ (s : State) (id : Nat) (m : Migration) (e : TlbEntry), s.pcp.migrations.find? id = some m → m.done = false →
    SMap.risingFrom 0 s.pcp.migrations = true → walk s m.tenant m.va = .leaf e →
    (pagePinned s m.tenant e = true → ∃ t, exec (.migrationCopyDone id) s = .next t ∧ t.ops = s.ops ∧ t.pkts = s.pkts ∧
      t.mem = s.mem ∧ ∀ m', t.pcp.migrations.find? id = some m' → m'.done = true) ∧
    (pagePinned s m.tenant e = false → (∀ ut ∈ s.teams, ut.2.tx = none) → (s.isl (m.src / 2 ^ 39)).crumbs = [] →
      (∀ i, (s.isl i).replicas = []) → (m.entries s).1.any (fun a => writeHeld s s.uid a 8) = false →
      ∃ t, exec (.migrationCopyDone id) s = .next t ∧
        (s.pcp.holds = [] → t.pcp.migrations.find? id = none) ∧
        (∀ m', t.pcp.migrations.find? id = some m' → m'.done = true) ∧
        (∀ i o, s.ops.find? i = some o → o.kind.space = .global → t.ops.find? i = some { o with
          accs := o.accs.map fun a => { a with addr := m.move a.addr },
          ctrs := o.ctrs.map fun a => { a with addr := m.move a.addr },
          adds := o.adds.map fun a => { a with pa := m.move a.pa } }) ∧
        ∀ i p, s.pkts.find? i = some p → t.pkts.find? i = some { p with pa := m.move p.pa })

/-- R204, R208, R216, R321: a write of the host in one mapped page is performed at its home, or stands held there where the
home holds it; a read of it changes no byte, and waits while it is held; a write to a page that the PCP alone writes (R54,
R355), or to an address that is not mapped, stores nothing. -/
def hostAccessRule : Prop :=
  ∀ (s : State) (tenant va : Nat), hostOpen s false = true → Quiet s →
    (∀ e bs, walk s tenant va = .leaf e → bs ≠ [] → va % 4096 + bs.length ≤ 4096 →
      let open_ : Prop := e.w = true ∨ specialPage s tenant va ≠ some e
      let held := writeHeld s s.uid (e.pa va) bs.length
      let i0 := Instr.hostMemoryAccess tenant va (.write bs)
      let ps := [(e.pa va, bs.length)]
      (open_ → held = false → ∃ t, exec i0 s = .next t ∧ StoresAt s t (e.pa va) bs) ∧
      (open_ → held = true → ∃ t, exec i0 s = .next t ∧ SameBytes s t ∧
        t.held = s.held ++ [{ no := s.uid, pa := e.pa va, bytes := bs }]) ∧
      (¬open_ → ∃ t, exec i0 s = .next t ∧ SameBytes s t ∧ t.held = s.held) ∧
      (piecesHeld s false ps = false →
        ∃ t, exec (.hostMemoryAccess tenant va (.read bs.length)) s = .next t ∧ SameBytes s t) ∧
      (piecesHeld s false ps = true → exec (.hostMemoryAccess tenant va (.read bs.length)) s = .next s)) ∧
    ∀ bs, walk s tenant va = .bad → bs ≠ [] →
      ∃ t, exec (.hostMemoryAccess tenant va (.write bs)) s = .next t ∧ SameBytes s t

/-- R59, R60, R204, R205, R208 to R216, R379: pages filled, copied, invalidated, migrated and reached by the host. -/
def Obligations.PagesMove : Prop := faultsRule ∧ translationRule ∧ migrationRule ∧ hostAccessRule

/-! ## Engines at work (12_remote_and_copy, 14_matrix_engine, 15_matrix_instructions) -/

/-- R243 to R245: the next chunk of a copy between typed spaces of a crew is written, each byte as the source stands or,
where the command has written over it, as it stood before the command; the command goes on, or completes and its context's
timeline advances; a command with nothing to copy completes. Stated for a command that names no barrier, of a crew that
has no mirror line and has not exited. -/
def copyChunksRule : Prop :=
  ∀ (s : State) (isl ctx cu : Nat) (y : CopyCtx) (cmd : CopyCmd) (rest : List CopyCmd) (c : Crew) (k : Kernel),
    (s.isl isl).copy.find? ctx = some y → y.crew = some cu → y.cmds = cmd :: rest → y.stalled = false →
    y.stopped = false → s.crews.find? cu = some c → s.kernels.find? c.kernel = some k → c.isl = isl →
    cmd.bar = none → c.mirror = none → c.exited = false →
    let nos := rest.map (·.no)
    let done : CopyCtx := { y with timeline := timelineAt nos y.issued, cmds := rest }
    (∀ f, cmd.fly = some f → f.left ≠ 0 → exec (.copyChunkWritten isl ctx) s = .next s) ∧
    (∀ f, cmd.fly = some f → f.left = 0 → f.reading = false →
      let cmd' := { cmd with fly := none }.after (min 4096 (cmd.rowb - cmd.pos))
      cmd.row < cmd.rows →
      ∃ t, exec (.copyChunkWritten isl ctx) s = .next t ∧ t.crews = s.crews ∧ SameBytes s t ∧
        (t.isl isl).copy.find? ctx = some (if cmd'.done then done else { y with cmds := cmd' :: rest })) ∧
    (cmd.fly = none → cmd.rows ≤ cmd.row →
      ∃ t, exec (.copyChunkWritten isl ctx) s = .next t ∧ (t.isl isl).copy.find? ctx = some done ∧
        t.crews = s.crews ∧ SameBytes s t) ∧
    (cmd.fly = none → cmd.row < cmd.rows → cmd.pos < cmd.rowb → cmd.ssp = .lspace ∨ cmd.ssp = .aspace →
      cmd.dsp = .lspace ∨ cmd.dsp = .aspace →
      let n := min 4096 (cmd.rowb - cmd.pos)
      let src := cmd.src + cmd.row * cmd.sstr + cmd.pos
      let dst := cmd.dst + cmd.row * cmd.dstr + cmd.pos
      let bs := typedBytes (c.typed cmd.ssp) src n
      (cmd.dsp = .lspace → wordHeld s cu none dst n = false) →
      let cmd' := (cmd.remember dst (typedBytes (c.typed cmd.dsp) dst n)).after n
      ∃ t c' got, exec (.copyChunkWritten isl ctx) s = .next t ∧ t.crews.find? cu = some c' ∧ got.length = bs.length ∧
        (∀ i v, got[i]? = some v → bs[i]? = some v ∨ cmd.before.find? (src + i) = some v) ∧
        c'.typed cmd.dsp = typedPut (c.typed cmd.dsp) dst got ∧
        { c' with lmem := c.lmem, amem := c.amem } = c ∧ SameBytes s t ∧
        (t.isl isl).copy.find? ctx = some (if cmd'.done then done else { y with cmds := cmd' :: rest }))

/-- Context `ctx` of an engine, its state `m` and its crew `c`, is at work on `cmd`, with `rest` behind it (R273). -/
def worksOn (s : State) (isl cluster ctx cu : Nat) (m : MxCtx) (c : Crew) (cmd : MxCmd) (rest : List MxCmd) : Prop :=
  ctx < 2 ∧ m = (s.engine (9 * isl + cluster)).ctx ctx ∧ m.crew = some cu ∧ m.cmds = cmd :: rest ∧ m.stopped = false ∧
    s.crews.find? cu = some c ∧ m.bank < 2

/-- The head command of a context is complete, and its timeline stands before the next (R273, R316). -/
def completes (t : State) (isl cluster ctx : Nat) (m : MxCtx) (rest : List MxCmd) : Prop :=
  let m' := (t.engine (9 * isl + cluster)).ctx ctx
  m'.cmds = rest ∧ m'.timeline = timelineAt (rest.map (·.no)) m.issued ∧ m'.granted = false

/-- R268, R273, R274, R282, R284, R290, R292, R297, R301: a command with no barrier and no mirror is performed and
completes: MZRO clears the tiles of its mask, MWLD loads the plane, an MMA that has the array adds its pass into its rows,
from the A-space of its crew or what its core holds of it, and waits while it has not; the first phase of MITER forms its
product and asks for the array again. -/
def commandsWorkRule : Prop :=
  ∀ (s : State) (isl cluster ctx cu : Nat) (m : MxCtx) (c : Crew) (cmd : MxCmd) (rest : List MxCmd),
    worksOn s isl cluster ctx cu m c cmd rest → cmd.bar = none → c.mirror = none → c.exited = false →
    let e := s.engine (9 * isl + cluster)
    let tileOf (t : State) := (t.engine (9 * isl + cluster)).tile
    let plane (k n : Nat) : Nat := SMap.get 0 m.plane (256 * k + n)
    let i0 := Instr.matrixCommandComplete isl cluster ctx
    (∀ mask, cmd.kind = .mzro mask → ∃ t, exec i0 s = .next t ∧ completes t isl cluster ctx m rest ∧
      ∀ ct i n, ct < 8 → i < 256 → n < 256 →
        tileOf t m.bank ct i n = if mask.testBit ct then 0 else e.tile m.bank ct i n) ∧
    (∀ base f, cmd.kind = .mwld base → fmtB cmd.fmt = some f →
      ∃ t, exec i0 s = .next t ∧ completes t isl cluster ctx m rest ∧ (t.engine (9 * isl + cluster)).tiles = e.tiles ∧
        ∀ k n, k < planeK f → n < 256 → SMap.get 0 ((t.engine (9 * isl + cluster)).ctx ctx).plane (256 * k + n) =
          bElem (((wAlloc s c).map (·.mem)).getD []) f base k n) ∧
    (∀ fa sl row0 ct acc bfmt, cmd.kind = .mma none [sl] row0 ct acc bfmt →
      fmtA cmd.fmt = some fa → row0 + sl.rows ≤ 256 → ct < 8 →
      let (mem, a) := match s.crews.find? sl.crew with
        | some c' => (c'.amem, sl.off)
        | none => ((s.core sl.key).astore, sl.abase + sl.off)
      (m.granted = false → exec i0 s = .next s) ∧
      (m.granted = true → ∃ t, exec i0 s = .next t ∧ completes t isl cluster ctx m rest ∧
        ∀ b d i n, d < 8 → i < 256 → n < 256 → tileOf t b d i n =
          if b = m.bank ∧ d = ct ∧ row0 ≤ i ∧ i < row0 + sl.rows then
            passElem fa bfmt (scaleA cmd.fmt + scaleB cmd.fmt) (planeK fa)
              (fun k => aElem mem fa (a + (i - row0) * rowBytes fa) k) (fun k => plane k n)
              (if acc then e.tile m.bank ct i n else 0) % 2 ^ 40
          else e.tile b d i n)) ∧
    ∀ form frob x a scr cap thr, cmd.kind = .miter form frob x a scr cap thr → m.granted = true → cmd.begun = false →
      scr < 8 →
      ∃ t, exec (.miterPhase isl cluster ctx) s = .next t ∧
        (let m' := (t.engine (9 * isl + cluster)).ctx ctx
         m'.cmds = { cmd with begun := true } :: rest ∧ m'.loop.phase = 1 ∧ m'.granted = false ∧
           m'.requestedAt = s.now) ∧
        ∀ b d i n, d < 8 → i < 256 → n < 256 → tileOf t b d i n =
          if b = m.bank ∧ d = scr then
            let left (k : Nat) : Nat := if form = .inv then e.tile b a i k else e.tile b x k i
            passElem .bf16 .bf16 0 256 (fun k => toBf16 (left k))
              (fun k => if k < 256 then toBf16 (e.tile b x k n) else 0) 0 % 2 ^ 40
          else e.tile b d i n

/-- R274: the array, held by neither context, goes to the request that stands first; a request not granted for 16,384 cycles
is promoted. -/
def arrayRule : Prop :=
  ∀ (s : State) (isl cluster : Nat),
    (∀ h, arrayRequests s isl cluster = [h] → (s.engine (9 * isl + cluster)).ctx0.granted = false →
      (s.engine (9 * isl + cluster)).ctx1.granted = false →
      exec (.arrayArbitration isl cluster) s = .next (setMx s h fun m => { m with granted := true })) ∧
    (∀ h g, arrayRequests s isl cluster = [h, g] → (s.engine (9 * isl + cluster)).ctx0.granted = false →
      (s.engine (9 * isl + cluster)).ctx1.granted = false →
      let first := if lexLt (requestKey g.n g) (requestKey h.n h) then g else h
      exec (.arrayArbitration isl cluster) s = .next (setMx s first fun m => { m with granted := true })) ∧
    ∀ h ctx, (arrayRequests s isl cluster).find? (fun h => h.n = ctx) = some h → h.m.promoted = false →
      h.m.requestedAt + 16384 ≤ s.now →
      exec (.arrayRequestPromotion isl cluster ctx) s = .next (setMx s h fun m => { m with promoted := true })

/-- R283: the tests of phase 3 on the residual r of iteration i: OUT 3 where r is no finite number or, past the first, more
than twice r0; else OUT 1 where r is at most the threshold; else OUT 2 at the cap; else the next iteration. -/
def residualRule : Prop :=
  ∀ (l : Loop) (r cap : Nat) (thr : Word), r < 2 ^ 32 → l.out = 0 →
    let v := FFmt.fp32.val r
    let t := FFmt.fp32.val thr.toNat
    let r0 := if l.iter = 0 then v else FFmt.fp32.val l.r0.toNat
    let Finite : Prop := ∃ neg m e, v = .fin neg m e
    let Grown : Prop := 1 ≤ l.iter ∧ (r0.scale 1).lt v = true
    let l' := residTest l r cap thr
    (¬Finite ∨ Grown → l'.out = 3) ∧
    (Finite → ¬Grown → (v.lt t = true ∨ v.eq t = true) → l'.out = 1) ∧
    (Finite → ¬Grown → v.lt t = false → v.eq t = false → l.iter + 1 = cap → l'.out = 2) ∧
    (Finite → ¬Grown → v.lt t = false → v.eq t = false → l.iter + 1 ≠ cap →
      l'.out = 0 ∧ l'.iter = l.iter + 1 ∧ l'.phase = 0) ∧
    l'.rlast = BitVec.ofNat 32 r ∧ l'.rprev = l.rlast ∧ (l.iter = 0 → l'.r0 = BitVec.ofNat 32 r)

/-- R243, R244, R273, R274, R283, R284, R292, R297: the copy engine and the matrix engine at work. -/
def Obligations.EnginesWork : Prop := copyChunksRule ∧ commandsWorkRule ∧ arrayRule ∧ residualRule

/-! ## Collectives at work (19_collectives) -/

/-- R6, R360, R371: a write of a group-table word keeps its writable bits and starts the group's numbering again; one of a
reserved word changes nothing. -/
def groupTableRule : Prop :=
  ∀ (s : State) (isl g w : Nat) (v : DWord), hostOpen s false = true →
    (w < 4 → g < 256 →
      ∃ t, exec (.groupTableWrite isl g w v) s = .next t ∧ groupWord t isl g w = v &&& groupRw w ∧
        (∀ i h u, i < 25 → h < 256 → u < 8 → isl < 25 → ¬(i = isl ∧ h = g ∧ u = w) →
          groupWord t i h u = groupWord s i h u) ∧
        groupInst t isl g = { epoch := (groupInst s isl g).epoch + 1 } ∧ SameBytes s t) ∧
    (4 ≤ w → exec (.groupTableWrite isl g w v) s = .next s)

/-- A packet of a chunk from one island to another is on its way, a result along the tree (R365, R366). -/
def sends (t : State) (p : CollPkt) (sender dst : Nat) (up : Bool) (mask : Nat) (bytes : List Byte) : Prop :=
  ∃ n q, t.collPkts.find? n = some q ∧ q.group = p.group ∧ q.inst = p.inst ∧ q.key = p.key ∧ q.chunk = p.chunk ∧
    q.sender = sender ∧ q.dst = dst ∧ q.dest = p.dest ∧ q.up = up ∧ q.tree = !up ∧ q.mask = mask ∧ q.bytes = bytes ∧
    q.moving = true

/-- R365, R366, R370: a packet whose data have all come is placed in the command of its instance, a contribution once per
sender; what goes down the tree goes on to the neighbours of its receiver, or to the next island on the way to the one it is
for. A late contribution is dropped and counted on every live member, and one of an instance not begun at its receiver is
kept. -/
def collectivePacketsRule : Prop :=
  ∀ (s : State) (id : Nat) (p : CollPkt), s.collPkts.find? id = some p → p.left = 0 →
    let mine (c : CollCmd) : Bool := c.inst = p.inst
    let placed (t : State) : Prop := t.collPkts.find? id = none ∧ (t.isl p.dst).coll =
      (s.isl p.dst).coll.mapVals fun _ y => { y with cmds := y.cmds.map fun c => if mine c then placePkt p.dst s.now p c else c }
    let root := (collInst s p.inst).rootOf (collInst s p.inst).entry p.key p.chunk
    (∀ d, p.dest = some d → d ≠ p.dst → p.tree = true → p.moving = true → id < s.uid →
      ∃ t, exec (.collectivePacket id) s = .next t ∧ t.collPkts.find? id = none ∧ (t.isl p.dst).coll = (s.isl p.dst).coll ∧
        ∀ n, treeNext s (collInst s p.inst).entry root p.dst d = some n → sends t p p.dst n false p.mask p.bytes) ∧
    (∀ c, (collLive (s.isl p.dst)).find? mine = some c → p.dest = none →
      (p.up = true → p.tree = false → (c.chunkAt p.key p.chunk).sent = false →
        ∃ t, exec (.collectivePacket id) s = .next t ∧ placed t) ∧
      (p.up = false → p.tree = true → p.moving = true → id < s.uid →
        ∃ t, exec (.collectivePacket id) s = .next t ∧ placed t ∧
          ∀ d ∈ treeNeighbours s (collInst s p.inst).entry root p.dst, d ≠ p.sender →
            sends t p p.dst d false p.mask p.bytes) ∧
      (p.up = true → p.tree = false → (c.chunkAt p.key p.chunk).sent = true → p.mask ≠ 0 →
        ((c.chunkAt p.key p.chunk).got.any fun q => q.1 = p.sender) = false →
        ∃ t, exec (.collectivePacket id) s = .next t ∧ t.collPkts = s.collPkts.del id ∧
          ∀ d ∈ liveMembers s (collInst s p.inst).entry,
            (groupInst t d p.group).late = min ((groupInst s d p.group).late + 1) (2 ^ 64 - 1))) ∧
    (∀ c, p.up = true → (c.chunkAt p.key p.chunk).sent = false →
      ((c.chunkAt p.key p.chunk).got.any fun q => q.1 = p.sender) = false →
      ((placePkt p.dst s.now p c).chunkAt p.key p.chunk).got =
        (c.chunkAt p.key p.chunk).got ++ [(p.sender, (p.mask, p.bytes))]) ∧
    ((collLive (s.isl p.dst)).find? mine = none → (collInst s p.inst).begun p.dst = false → p.tree = false →
      p.dest = none → p.moving = true →
      exec (.collectivePacket id) s = .next { s with collPkts := s.collPkts.put id { p with moving := false } })

/-- The head command of a context after a step. -/
def headAfter (t : State) (isl ctx : Nat) : Option CollCmd := ((t.isl isl).coll.find? ctx).bind (·.cmds.head?)

/-- A deadline request of an engine has come in, for what became ready at some time (R217, R367; when a read and a write
become ready is the model's choice, log 57). -/
def asks (s t : State) (isl : Nat) (e : GEntry) (ready : Nat) : Prop :=
  ∃ d, t.deadlines = s.deadlines.put s.uid d ∧ d.isl = isl ∧ d.latest = collLatest e ready ∧ d.due = false ∧ d.save = none

/-- R217, R364, R366, R367, R370: the steps of a chunk of the command at the head of a context. A deadline request comes
before the read of a segment and the write of a result, and an urgent one of an earlier time before it; its latest time
counts from `readReady` and `writeReady` (log 57). A part that is read is sent, by a node of a reduction once every child's
contribution is in hand or after TIMEOUT, and a gathered, exchanged or broadcast one along the tree. -/
def chunksRule : Prop :=
  ∀ (s : State) (isl ctx key chunk : Nat) (h : CollHead), collHead s isl ctx = some h → Quiet s →
    (∀ i, (s.isl i).poison = []) →
    let x := h.cmd.chunkAt key chunk
    let e := h.cmd.ge
    let step := Instr.collChunkComplete isl ctx key chunk
    let Now (i : Instr) (P : State → CollChunk → Prop) : Prop :=
      ∃ t c, exec i s = .next t ∧ headAfter t isl ctx = some c ∧ P t (c.chunkAt key chunk)
    let root := h.root s key chunk
    let parent := treeParent s e root isl
    let v := nodeValue s h x
    let pkt : CollPkt := { group := h.cmd.group, inst := h.cmd.inst, key := key, chunk := chunk, sender := isl, dst := 0,
                           up := true, mask := 0, bytes := [] }
    let Onward (t : State) (y : CollChunk) : Prop := y.sent = true ∧ SameBytes s t ∧
      (∀ q, parent = some q → v.1 ≠ 0 → sends t pkt isl q true v.1 v.2) ∧ (parent = none → v.1 ≠ 0 →
        y.result = some v ∧ y.resultAt = s.now ∧ ∀ d ∈ treeNeighbours s e root isl, sends t pkt isl d false v.1 v.2)
    chunk < e.nChunks → (collKeys s h).contains key = true →
    (x.own = none → x.req = none → h.cmd.reads isl key = true →
      Now step fun t y => asks s t isl e (readReady s h) ∧ y.req = some s.uid ∧ SameBytes s t) ∧
    (x.own = none → x.req = none → h.cmd.reads isl key = false → Now step fun t y => y.own = some [] ∧ SameBytes s t) ∧
    (∀ r g ps, x.own = none → x.req = some r → waitsTurn s isl r = false → h.cmd.reads isl key = true →
      h.cmd.seg key = some g →
      (collReach s h .rread (g.va + chunk * e.chunkSize) (e.chunkLen chunk)).1 = .ok ps → piecesHeld s false ps = false →
      Now step fun t y => y.own = some ((ps.map fun p => s.bytes p.1 p.2).flatten) ∧ y.readyAt = s.now ∧ y.req = none ∧
        SameBytes s t) ∧
    (x.own ≠ none → x.sent = false → h.cmd.reduces = true →
      (∀ c ∈ treeChildren s e root isl, x.got.any (fun p => p.1 = c) = true) → Now step Onward) ∧
    (x.own ≠ none → x.sent = false → h.cmd.reduces = true → e.timeout ≠ 0 → x.readyAt + e.timeout ≤ s.now →
      Now (.chunkTimeout isl ctx key chunk) Onward) ∧
    (∀ own, x.own = some own → x.sent = false → h.cmd.opn = .bc ∨ h.cmd.opn = .ag → h.cmd.reads isl key = true →
      Now step fun t y => y.sent = true ∧ SameBytes s t ∧
        ∀ d ∈ treeNeighbours s e root isl, sends t pkt isl d false (2 ^ isl) own) ∧
    (∀ own d n, x.own = some own → x.sent = false → h.cmd.opn = .a2a → h.cmd.reads isl key = true →
      e.ofRank key = some d → (s.isl d).live = true → d ≠ isl → treeNext s e (h.root s (e.rank isl) chunk) isl d = some n →
      Now step fun t y => y.sent = true ∧ SameBytes s t ∧
        sends t { pkt with key := e.rank isl, dest := some d } isl n false (2 ^ isl) own) ∧
    ∀ m bs, x.own ≠ none → x.sent = true → h.cmd.writes isl key = true → x.written = false → allRead h chunk = true →
      x.result = some (m, bs) →
      (x.wreq = none → Now step fun t y => asks s t isl e (writeReady h x) ∧ y.wreq = some s.uid ∧ SameBytes s t) ∧
      ∀ r g pa, x.wreq = some r → waitsTurn s isl r = false → h.cmd.seg key = some g → h.cmd.bar = none →
        (collReach s h .rwrite (g.va + chunk * e.chunkSize) bs.length).1 = .ok [(pa, bs.length)] →
        piecesHeld s true [(pa, bs.length)] = false →
        Now step fun t y => y.written = true ∧ StoresAt s t pa bs

/-- R217, R365, R367: a command whose chunks are done asks for the deadline of its status record, and completes: the record
is written and the timeline takes the command, of a crew with no barrier, mirror or exit. R218: a deadline request is due
once its slack is below 48 ns. -/
def collCompletionRule : Prop :=
  (∀ (s : State) (isl ctx : Nat) (h : CollHead) (y : CollCtx) (rest : List CollCmd), collHead s isl ctx = some h →
    (s.isl isl).coll.find? ctx = some y → y.cmds = h.cmd :: rest → collDone s h = true →
    (h.cmd.sreq = none → ∃ t, exec (.collComplete isl ctx) s = .next t ∧
      asks s t isl h.cmd.ge s.now ∧
      headAfter t isl ctx = some { h.cmd with sreq := some s.uid } ∧ SameBytes s t) ∧
    ∀ r pa c, h.cmd.sreq = some r → Quiet s → h.cmd.bar = none → s.crews.find? h.cu = some c → c.mirror = none →
      c.exited = false → (collReach s h .counter h.cmd.ge.statVa 16).1 = .ok [(pa, 16)] → waitsTurn s isl r = false →
      piecesHeld s true [(pa, 16)] = false →
      ∃ t, exec (.collComplete isl ctx) s = .next t ∧
        StoresAt s t pa (leBytes 8 (contributors s h + h.cmd.instanceNo % 2 ^ 32 * 2 ^ 32) ++
          leBytes 8 (groupInst s isl h.cmd.group).late) ∧
        (t.isl isl).coll.find? ctx = some
          (CollCtx.atHead { y with timeline := timelineAt (rest.map (·.no)) y.issued, cmds := rest } s.now)) ∧
  ∀ (s : State) (isl req : Nat) (d : Deadline), s.deadlines.find? req = some d → d.isl = isl → d.due = false →
    d.latest < s.now + 96 →
    exec (.deadlineSlack isl req) s = .next { s with deadlines := s.deadlines.put req { d with due := true } }

/-- R217, R218, R360, R365 to R367, R370, R371: chunks move along their tree and commands complete. -/
def Obligations.CollectivesWork : Prop :=
  groupTableRule ∧ collectivePacketsRule ∧ chunksRule ∧ collCompletionRule

/-! ## The fabric (13_networks) -/

/-- A control payload that a link end has queued for sending or has sent. -/
def tells (s : State) (i p : Nat) (c : Ctl) : Prop :=
  ∃ f ∈ (s.link i p).out ++ (s.link i p).wire, f.ctl = some c

/-- R241, R251 to R253, R258: a packet whose stream has 256 unacknowledged before it, or which its port holds, waits; one at
its destination is handed over; one with an island still to cross queues the flits of it that stand there on the port its
route names, where that link stands, and turns back to its sender where it does not, with the route it had; a returned one
is sent again on a route of the newest generation. That the flits of one packet may cross several islands at once is
R258's; when a port holds a packet is the model's choice (log 46). -/
def packetsRule : Prop :=
  ∀ (s : State) (id : Nat) (p : Packet), s.pkts.find? id = some p → p.onLink = false →
    (p.arrived = false → windowHolds s p = true → exec (.packetRelay id) s = .next s) ∧
    (p.arrived = false → windowHolds s p = false → p.route % 16 = 15 → p.at_ = p.dest →
      ∃ t, exec (.packetRelay id) s = .next t ∧ t.pkts = s.pkts.put id { p with arrived := true, came := none }) ∧
    (p.arrived = false → windowHolds s p = false → p.route % 16 ≠ 15 → portUsable s p.at_ (p.route % 16) = true →
      (portHolds s p (p.route % 16) = true → exec (.packetRelay id) s = .next s) ∧
      (portHolds s p (p.route % 16) = false → ∃ t p', exec (.packetRelay id) s = .next t ∧ t.pkts.find? id = some p' ∧
        p'.onLink = true ∧ p'.route = p.route / 16 + 0xF000 ∧ p'.cargo = p.cargo ∧
        let n := if p.hop = 0 then 1 + ceilDiv p.cargo.dataBytes 64 else p.got
        ∀ part < n,
          ∃ f ∈ (t.link p.at_ (p.route % 16)).wire ++ (t.link p.at_ (p.route % 16)).out, f.pkt = some id ∧ f.part = part ∧
            f.vc = p.cargo.vc ∧ f.hop = p.hop ∧ f.first = decide (part = 0) ∧ f.last = (p.whole && decide (part + 1 = n)))) ∧
    (p.arrived = false → windowHolds s p = false → p.route % 16 ≠ 15 → portUsable s p.at_ (p.route % 16) = false →
      ∃ t p', exec (.packetRelay id) s = .next t ∧ t.pkts = s.pkts.put id p' ∧ p'.cargo = .returned ∧
        (p.cargo ≠ .returned → p'.orig = some p.cargo ∧ p'.sentBack = some (p.at_, p.route)) ∧
        p'.route = routeWord s p.at_ p.src false ∧ p'.at_ = p.at_ ∧ p'.hop = 0 ∧ p'.arrived = decide (p.at_ = p.src)) ∧
    ∀ c, p.orig = some c → p.cargo = .returned → p.arrived = true →
      let r1 := routeWord s p.src p.dst true
      let alt := p.gen = s.panel.gen && !p.alt && r1 % 16 ≠ 15
      exec (.packetReturn id) s = .next { s with pkts := s.pkts.put id { p with
        cargo := c, orig := none, sentBack := none, arrived := false, at_ := p.src, hop := 0, came := none, alt := alt
        gen := s.panel.gen, route := if alt then r1 else routeWord s p.src p.dst false } }

/-- R255 to R257 (what an idle flit does to the timer of the link, and when that starts, are logs 45 and 48): a good flit in
order is accepted and acknowledged; one that is bad or out of order is dropped, and the next
flit sent carries NAK, once until a flit is accepted, and again each 256 ns; an idle flit is no flit accepted in sequence;
a NAK sends again every flit that it does not acknowledge, in order; an end that accepts none for 10 µs takes the link
down. -/
def flitsRule : Prop :=
  ∀ (s : State) (i p j q : Nat), s.panel.peer i p = some (j, q) → (i, p) ≠ (j, q) → p < 16 → q < 16 →
    (s.link i p).lstate = 1 ∨ (s.link i p).lstate = 2 →
    let l := s.link i p
    let x := s.link j q
    let dropped : State := (s.updLink j q fun x => { x with wire := x.wire.drop 1, nakSend := false }).updLink i p
      fun l => { l with
        badSince := some (l.badSince.getD s.now), nakDue := some (l.nakDue.getD (s.now + 512))
        nakSend := l.nakSend || l.nakDue.isNone }
    (∀ f rest, x.wire = f :: rest → f.fseq = (l.lastAcc + 1) % 65536 →
      ∃ t, exec (.flitReceived i p []) s = .next t ∧ (t.link i p).lastAcc = f.fseq ∧
        (t.link i p).accepted = l.accepted + 1 ∧ (t.link i p).nakDue = none ∧ (t.link i p).badSince = none ∧
        (t.link i p).ctlIn = l.ctlIn ++ f.ctl.toList) ∧
    (∀ f rest, x.wire = f :: rest → f.fseq ≠ (l.lastAcc + 1) % 65536 →
      exec (.flitReceived i p []) s = .next dropped) ∧
    (∀ flips, (hear s x l (s.laneOf i p) x.wire.head? flips).good = false →
      exec (.flitReceived i p flips) s = .next dropped) ∧
    (x.wire = [] → ∃ t, exec (.flitReceived i p []) s = .next t ∧ (t.link i p).badSince = none ∧
      (t.link i p).lastAcc = l.lastAcc ∧ (t.link i p).accepted = l.accepted ∧
      (x.nakSend = true → ∃ more, (t.link i p).wire = (l.retry.filter fun g => !seqGe x.lastAcc g.fseq) ++ more)) ∧
    (∀ due, l.nakDue = some due → due ≤ s.now → exec (.nakRepeat i p) s =
      .next (s.updLink i p fun l => { l with nakDue := some (s.now + 512), nakSend := true })) ∧
    ∀ t0, l.badSince = some t0 → t0 + 20000 ≤ s.now →
      ∃ t, exec (.linkDownTimeout i p) s = .next t ∧ (t.link i p).lstate = 3 ∧ (t.link j q).lstate = 3 ∧
        (t.link i p).retry = [] ∧ (t.link j q).retry = [] ∧ (t.link i p).wire = [] ∧ (t.link j q).wire = []

/-- R258 to R260: a CREDIT frees the slots it counts, a LIMITS sets the limits it names, and what waited for them is sent. A
period of limits ends each 1,024 link cycles; one in which no data flit was accepted leaves the limits as they are, and
another works towards limits of 128 and a share of 3,584 in proportion to the slot-cycles, as far as the slots allow. How
the share is rounded (`newLimits`) and in what order limits change (`affordable`) is the model's choice (log 46). -/
def creditsRule : Prop :=
  (∀ (s : State) (i p : Nat), let l := s.link i p
    (∀ freed rest, l.ctlIn = .credit freed :: rest →
      let l1 : Link := { l with
        ctlIn := rest, used := (List.range 4).foldl (fun u v => dropUsed u v (freed.getD v 0)) l.used }
      (l.out = [] → ∃ t, exec (.credit i p) s = .next t ∧ t.link i p = l1) ∧
      ∀ f, l.out = [f] → f.ctl = none → l1.sends f = true →
        ∃ t, exec (.credit i p) s = .next t ∧ { f with fseq := l.nextFseq } ∈ (t.link i p).wire) ∧
    (∀ epoch lim rest, l.ctlIn = .limits epoch lim :: rest →
      let l1 : Link := { l with ctlIn := rest, limit := lim }
      (l.out = [] → ∃ t, exec (.limits i p) s = .next t ∧ t.link i p = l1) ∧
      ∀ f, l.out = [f] → f.ctl = none → l1.sends f = true →
        ∃ t, exec (.limits i p) s = .next t ∧ { f with fseq := l.nextFseq } ∈ (t.link i p).wire) ∧
    (l.lstate = 1 → l.period < s.now / 2048 →
      let u := (List.range 4).map fun v => l.slotCycles.getD v 0 + inUse s i p v * (s.now - l.since)
      ∃ t, exec (.limitsPeriod i p) s = .next t ∧ (t.link i p).period = s.now / 2048 ∧
        (t.link i p).slotCycles = [0, 0, 0, 0] ∧ (t.link i p).dataIn = 0 ∧
        (t.link i p).rlimit = if l.dataIn = 0 ∨ u.sum = 0 then l.rlimit
          else affordable ((List.range 4).map (inUse s i p)) l.openLimits l.rlimit (newLimits u))) ∧
  ∀ u : List Nat, u.length = 4 → u.sum ≠ 0 → (newLimits u).sum = 4096 ∧ ∀ v < 4, 128 ≤ (newLimits u).getD v 0

/-- R241, R251 to R253, R255 to R260: packets, flits, credits and limits. -/
def Obligations.FabricMoves : Prop := packetsRule ∧ flitsRule ∧ creditsRule

/-- R261, R262, R264: each sampling window counts, for every wavelength, the windows in a row above each limit; the second
in a row on a live wavelength of a guide whose spare is free proposes the exchange. The other end agrees unless it has one
open, restripes or has sent flit S. An answer of no, or none within 4 µs, ends the proposal; agreed, it takes effect when
flit S has come. A lit wavelength that returns is sampled as an idle lane. That a proposal is turned down while one stands
agreed and not yet made, and that the exchange is made at once where S was already accepted, is the model's choice (log
47). -/
def lanesRule : Prop :=
  ∀ (s : State) (i p j q : Nat), s.panel.peer i p = some (j, q) →
    let y := s.laneOf i p
    let l := s.link i p
    (∀ xs, s.now / 131072 ≤ l.window → exec (.laneSampleWindow i p xs) s = .next s) ∧
    (∀ x : LaneSample, l.window < s.now / 131072 → x.guide < 8 → x.wl < 17 →
      (∃ t, exec (.laneSampleWindow i p [x]) s = .next t ∧ (t.link i p).window = s.now / 131072 ∧
        ∀ g < 8, ∀ w < 17, let k := laneKey g w
          SMap.find? y.back k = none →
          SMap.get 0 (t.laneOf i p).errs k =
            (if x.guide = g ∧ x.wl = w ∧ 1024 < x.errors then min (SMap.get 0 y.errs k + 1) 2 else 0) ∧
          SMap.get 0 (t.laneOf i p).margins k =
            (if x.guide = g ∧ x.wl = w ∧ x.margin < 25 then min (SMap.get 0 y.margins k + 1) 2 else 0)) ∧
      (1024 < x.errors → SMap.get 0 y.errs (laneKey x.guide x.wl) = 1 → y.spare = [] → y.back = [] → y.swap = none →
        y.restripe = none → l.lstate = 1 → x.wl < 16 → natBits l.lit x.wl x.wl = 1 →
        ∃ t w, exec (.laneSampleWindow i p [x]) s = .next t ∧ (t.laneOf i p).swap = some w ∧ w.guide = x.guide ∧
          w.leaving = x.wl ∧ w.entering = 16 ∧ w.sentAt = s.now ∧ w.no = y.nextNo ∧ w.agreed = false ∧
          tells t i p (.swapreq w.guide w.leaving w.entering w.s w.no))) ∧
    (∀ guide leaving entering at_ no rest, l.ctlIn = .swapreq guide leaving entering at_ no :: rest →
      (y.swap = none → y.peerSwap = none → y.restripe = none → l.out = [] →
        1 ≤ (at_ + 65536 - l.nextFseq) % 65536 → (at_ + 65536 - l.nextFseq) % 65536 < 32768 →
        at_ < 65536 → l.nextFseq < 65536 →
        ∃ t, exec (.swapreq i p) s = .next t ∧ tells t i p (.swapack no true) ∧
          (t.laneOf i p).peerSwap = some
            { guide := guide, leaving := leaving, entering := entering, s := at_, no := no, sentAt := s.now }) ∧
      (y.swap ≠ none ∨ y.peerSwap ≠ none ∨ y.restripe ≠ none ∨ seqGe l.nextFseq ((at_ + 1) % 65536) = true →
        ∃ t, exec (.swapreq i p) s = .next t ∧ tells t i p (.swapack no false) ∧ (t.laneOf i p).swap = y.swap)) ∧
    (∀ w, y.swap = some w → w.agreed = false →
      (∀ rest, l.ctlIn = .swapack w.no false :: rest → exec (.swapack i p) s =
        .next ((s.updLink i p fun l => { l with ctlIn := rest }).updLanes i p fun y => { y with swap := none })) ∧
      (∀ rest, l.ctlIn = .swapack w.no true :: rest → seqGe l.lastAcc w.s = false → exec (.swapack i p) s =
        .next ((s.updLink i p fun l => { l with ctlIn := rest }).updLanes i p fun y =>
          { y with swap := some { w with agreed := true } })) ∧
      (∀ rest, l.ctlIn = .swapack w.no true :: rest → seqGe l.lastAcc w.s = true → w.leaving ≠ 16 →
        ∃ t, exec (.swapack i p) s = .next t ∧ (t.laneOf i p).swap = none ∧
          (t.laneOf i p).spare = SMap.put y.spare w.guide w.leaving) ∧
      (l.agreedTo w = false → w.sentAt + 8000 ≤ s.now →
        exec (.swapTimeout i p) s = .next (s.updLanes i p fun y => { y with swap := none }))) ∧
    (∀ w f rest, y.swap = some w → w.agreed = true → w.leaving ≠ 16 → (i, p) ≠ (j, q) → p < 16 → q < 16 →
      l.lstate = 1 ∨ l.lstate = 2 → (s.link j q).wire = f :: rest → f.fseq = w.s → f.fseq = (l.lastAcc + 1) % 65536 →
      ∃ t, exec (.flitReceived i p []) s = .next t ∧ (t.laneOf i p).swap = none ∧
        (t.laneOf i p).spare = SMap.put y.spare w.guide w.leaving) ∧
    ∀ wl < 16, l.lstate = 1 ∨ l.lstate = 2 → natBits l.lit wl wl = 0 →
      let m := (Config.laser i p (wl / 4)).toNat
      natBits s.panel.dark m m = 0 →
      ∃ t, exec (.lightReturn i p wl) s = .next t ∧ ∀ g < 8, SMap.find? (t.laneOf i p).back (laneKey g wl) = some 0

/-- R263, R413: an end that loses light on some of its wavelengths stops sending data, gives up an open exchange and tells
the other end which are left; a link with none left goes down; dark wavelengths that were not lit change nothing. TRAIN 1
is answered with what both ends can use, and TRAIN 2 ends the restripe on it (the answers are log 47). A laser module that
goes dark stays dark. -/
def lightRule : Prop :=
  (∀ (s : State) (i p j q : Nat), s.panel.peer i p = some (j, q) → (s.link i p).lstate = 1 ∨ (s.link i p).lstate = 2 →
    let l := s.link i p
    let y := s.laneOf i p
    (∀ dark, hasPort s i p = true →
      let gone := lessBits l.lit (lessBits l.lit (bitsOf dark))
      let left := lessBits (lessBits l.lit (bitsOf dark)) y.darkBits
      (gone = 0 → exec (.lightLoss i p dark) s = .next s) ∧
      (gone ≠ 0 → left = 0 → ∃ t, exec (.lightLoss i p dark) s = .next t ∧ (t.link i p).lstate = 3 ∧
        (t.link j q).lstate = 3 ∧ (t.link i p).lit = 0 ∧ (t.link j q).lit = 0) ∧
      (gone ≠ 0 → left ≠ 0 → ∃ t, exec (.lightLoss i p dark) s = .next t ∧ (t.link i p).lstate = 2 ∧
        (t.laneOf i p).darkBits = y.darkBits ||| gone ∧ (t.laneOf i p).swap = none ∧
        tells t i p (.train 1 (popcount16 left) left))) ∧
    ∀ code lives bits rest, l.ctlIn = .train code lives bits :: rest →
      let both := lessBits (lessBits bits y.darkBits) (lessBits 0xFFFF l.lit)
      (code = 1 → both = 0 → ∃ t, exec (.train i p) s = .next t ∧ (t.link i p).lstate = 3 ∧ (t.link j q).lstate = 3) ∧
      (code = 1 → both ≠ 0 → ∃ t, exec (.train i p) s = .next t ∧ tells t i p (.train 2 (popcount16 both) both) ∧
        (y.restripe = none → (t.link i p).lstate = 2)) ∧
      (code = 2 → ∀ r, y.restripe = some r → ∃ t, exec (.train i p) s = .next t ∧ (t.link i p).lstate = 1 ∧
        (t.link i p).lit = both ∧ (t.laneOf i p).restripe = none)) ∧
  ∀ (s : State), ∀ m < 20,
    (natBits s.panel.dark m m = 0 →
      ∃ t, exec (.laserModuleDark m) s = .next t ∧ t.panel.dark = s.panel.dark + 2 ^ m) ∧
    (natBits s.panel.dark m m = 1 → exec (.laserModuleDark m) s = .next s)

/-- R390, R391, R412, R413: an error in the registers of a team of a kernel without rollback ends the kernel; one in a
sector or a line that no span has written poisons it (the poison of a sector is log 51); a clock steps down by 100 MHz
where a reading exceeds a limit and up where the draws have fallen 5% below, once for each reading (the readings are log
78), and reports; an island that stops, or gets too hot, is lost, and no other with it. -/
def failuresRule : Prop :=
  ∀ (s : State),
    (∀ isl, (s.isl isl).live = true →
      (∃ t, exec (.islandFailure isl) s = .next t ∧ exec (.thermalStop isl) s = .next t ∧ (t.isl isl).live = false ∧
        ∀ d, d ≠ isl → (t.isl d).live = (s.isl d).live) ∧
      let i := s.isl isl
      let pwr := s.host.pwrLim
      let stepped (c : Nat) : State :=
        (s.updIsl isl fun i => { i with clock := c, acted := true }).event 0x30 0 0 0 0 (isl + c * 2 ^ 8) 0
      let down := Instr.clockStep isl false
      let up := Instr.clockStep isl true
      (i.acted = false → 10 < i.clock → 1500 < i.draw ∨ pwr * 100 < panelDraw s ∨ 95 ≤ i.heat →
        exec down s = .next (stepped (i.clock - 1)) ∧ ((stepped (i.clock - 1)).isl isl).clock = i.clock - 1) ∧
      (i.acted = false → i.clock < 20 → i.draw ≤ 1425 → panelDraw s ≤ pwr * 95 → i.heat < 95 →
        exec up s = .next (stepped (i.clock + 1)) ∧ ((stepped (i.clock + 1)).isl isl).clock = i.clock + 1) ∧
      (i.acted = true → exec down s = .next s ∧ exec up s = .next s) ∧
      (i.draw ≤ 1500 → panelDraw s ≤ pwr * 100 → i.heat < 95 → exec down s = .next s) ∧
      (1425 < i.draw ∨ pwr * 95 < panelDraw s ∨ 95 ≤ i.heat → exec up s = .next s)) ∧
    (∀ isl, (s.isl isl).live = false →
      exec (.islandFailure isl) s = .next s ∧ exec (.thermalStop isl) s = .next s) ∧
    (∀ u team c k, s.teams.find? u = some team → s.crews.find? team.crew = some c → s.kernels.find? c.kernel = some k →
      k.launch.rollback = false →
      ∃ t, exec (.uncorrectableError (.registers u)) s = .next t ∧ t.kernels.find? c.kernel = none) ∧
    ∀ pa < 2 ^ 44, let i := pa / 2 ^ 39
      let Poisons (site : UeSite) (secs : List Nat) : Prop := (∀ r ∈ (s.isl i).log, r.sector ∉ secs) →
        ∃ t, exec (.uncorrectableError site) s = .next t ∧ (∀ x ∈ secs, x ∈ (t.isl i).poison) ∧
          (t.isl i).ueSeen = true ∧ SameBytes s t ∧ t.crews = s.crews ∧ t.teams = s.teams
      Poisons (.sector pa) [pa / 32 * 32] ∧
        Poisons (.line pa) ((List.range 4).map fun j => pa / 128 * 128 + 32 * j)

/-- R261 to R264, R390, R391, R412, R413: weak lanes, light and failures. -/
def Obligations.FailuresHandled : Prop := lanesRule ∧ lightRule ∧ failuresRule

/-! ## The host's controls (03_launching, 20_interruption, 27_platform) -/

/-- R379 to R384: STOP stops every crew of the tenant on the named islands, and RESUME asks for their restoration; a write
that sets both bits, or one of either while STOP or RESUME reads 1, changes nothing. Each ends with an event of kind 0x23,
and its bit reads 0. That a write with neither bit stores its fields is log 41; the deadline requests of saves and
restorations are log 76, and how writes of registers before READY are taken log 38. -/
def preemptionRule : Prop :=
  ∀ (s : State) (n : Nat) (x : DWord),
    (hostOpen s false = true → (s.tenant n).preStop = false → (s.tenant n).preResume = false →
      (preemptActs x = (true, false) → ∃ t, exec (.preemptStop n x) s = .next t ∧ (t.tenant n).preStop = true ∧
        (∀ i ∈ namedIsls s (natBits x.toNat 56 32), i ∈ (t.tenant n).stoppedOn) ∧
        ∀ cu c, s.crews.find? cu = some c → crewTenant s c = some n →
          c.isl ∈ namedIsls s (natBits x.toNat 56 32) → c.saved = false →
          ∃ c', t.crews.find? cu = some c' ∧ c'.stop = true) ∧
      (preemptActs x = (false, true) → exec (.preemptResume n x) s =
        .next (restoreAll ((preemptFields s n x).updTenant n fun y => { y with preResume := true }) n))) ∧
    (preemptActs x = (true, true) ∨ (s.tenant n).preStop = true ∨ (s.tenant n).preResume = true →
      exec (.preemptStop n x) s = .next s ∧ exec (.preemptResume n x) s = .next s) ∧
    (∀ crews, (s.tenant n).preStop = true → tenantCrews s n (fun c => c.stop) = crews →
      (∀ uc ∈ crews, drained s uc.1 = true ∧ sendsChunk s uc.2 = false) →
      let mode := (s.tenant n).saveMode
      let saved := crews.foldl (fun m uc => saveCrew m uc.1 mode) s
      ∃ t : State, exec (.preemptStopDone n) s = .next (t.event 0x23 0 0 n 0 0 0) ∧ (t.tenant n).preStop = false ∧
        t.crews = saved.crews ∧ t.teams = saved.teams ∧ t.cores = saved.cores ∧ t.engines = saved.engines) ∧
    ((s.tenant n).preStop = true →
      (∃ uc ∈ tenantCrews s n fun c => c.stop, drained s uc.1 = false ∨ sendsChunk s uc.2 = true) →
      exec (.preemptStopDone n) s = .next s) ∧
    ((s.tenant n).preResume = true → let t := restoreAll s n
      ((savedCrews t n).isEmpty = true → exec (.preemptResumeDone n) s =
        .next ((t.updTenant n fun y => { y with preResume := false, stoppedOn := [] }).event 0x23 0 0 n 0 0 0)) ∧
      ((savedCrews t n).isEmpty = false → exec (.preemptResumeDone n) s = .next t))

/-- R378: the controls of a halted crew: RESUME, END and ROLLBACK act on the crew their handle names, and on none where no
crew of the tenant has it. ROLLBACK rolls back the span that the halt's report names. -/
def crewControlsRule : Prop :=
  ∀ (s : State) (n : Nat) (h : Word), hostOpen s false = true →
    (∀ cu c, haltedBy s n h = some (cu, c) →
      exec (.crewctlResume n h) s = .next (resumeOn s cu c) ∧
      exec (.crewctlEnd n h) s = .next (clocks (endKernel s c.kernel .tenantfault 0)) ∧
      ∀ k, s.kernels.find? c.kernel = some k →
        let team := (c.halt.map (·.team)).getD 0
        let us := ((s.teamsOf cu).filter fun ut => ut.2.index = team).map Prod.fst
        let gs := match c.halt.bind (·.span) with
          | some g => [g]
          | none => spansOf s c k us
        let t := strikeSpans s c.kernel gs none
        (∀ c', t.crews.find? cu = some c' → exec (.crewctlRollback n h) s = .next (resumeOn t cu c')) ∧
        (t.crews.find? cu = none → exec (.crewctlRollback n h) s = .next t)) ∧
    (haltedBy s n h = none → ∀ i ∈ [Instr.crewctlResume n h, .crewctlEnd n h, .crewctlRollback n h],
      exec i s = .next s) ∧
    haltedBy s n 0 = none

/-- R392: a tenant reset takes every record of the tenant from its queues; when it is done GO reads 0 and an event is
written. Stated for a tenant with no kernel, whose queues have no status copy. -/
def tenantResetRule : Prop :=
  ∀ (s : State) (n : Nat),
    (hostOpen s false = true → (s.tenant n).treset = false → (∀ uk ∈ s.kernels, uk.2.tenant ≠ n) →
      SMap.risingFrom 0 s.queues = true → (∀ q, (s.queue q).tenant = n → (s.queue q).statVa = 0) →
      ∃ t, exec (.tenantReset n) s = .next t ∧ (t.tenant n).treset = true ∧ t.kernels = s.kernels ∧
        ∀ q, (s.queue q).tenant = n → (t.queue q).accepted = [] ∧ (t.queue q).waiting = []) ∧
    ((s.tenant n).treset = true → exec (.tenantResetDone n) s =
      .next ((s.updTenant n fun y => { y with treset := false }).event 0x24 0 0 n 0 0 0))

/-- R54, R395, R414, R416, Tables 27-2 and 27-4: power-on and a cold reset leave boot at stage 1 with no memory and no
work, a cold reset with the topology table as it stands (log 5); a warm reset leaves boot at stage 3, or where it had come
to before that (log 38), no work, and every byte of memory of the islands that logged no error; a stage that completes
goes on to the next where the signature over its image's SM3 digest is good under the fused key, and to recovery where it
is not. The functions SM3 and SM2 are free values (log 18), and the image of a stage is what its event brings (logs 11,
38). -/
def bootRule : Prop :=
  ∀ (s : State),
    let Cold (t : State) : Prop := t.isls = [] ∧ t.kernels = [] ∧ t.crews = [] ∧ t.teams = [] ∧ t.queues = [] ∧
      t.tenants = [] ∧ t.ops = [] ∧ t.host = { stage := 1, pwrLim := s.panel.pwrMax }
    (∃ t, exec .powerOn s = .next t ∧ Cold t ∧ t.mem = [] ∧ t.panel.gen = 0) ∧
    (hostOpen s true = true → ∃ t, exec .coldReset s = .next t ∧ Cold t ∧ t.panel.gen = s.panel.gen ∧
      (∀ c ∈ t.mem, topoBase ≤ c.1) ∧ ∀ a, topoBase ≤ a → memGet t.mem a = memGet s.mem a) ∧
    (hostOpen s true = true → ∃ t, exec .warmReset s = .next t ∧ t.host.stage = min s.host.stage 3 ∧ t.host.warm = true ∧
      t.host.firmware = s.host.firmware ∧ t.host.recovery = s.host.recovery ∧
      t.host.ready = false ∧ t.host.pwrLim = s.host.pwrLim ∧ t.host.wlogsz = s.host.wlogsz ∧
      t.host.reqAddr = s.host.reqAddr ∧ t.host.reqPort = s.host.reqPort ∧ t.kernels = [] ∧ t.crews = [] ∧
      t.teams = [] ∧ t.queues = [] ∧ t.tenants = [] ∧ t.ops = [] ∧
      ∀ a, a < topoBase → a / 2 ^ 39 < s.panel.nIsl → (s.isl (a / 2 ^ 39)).ueSeen = false →
        memGet t.mem a = memGet s.mem a) ∧
    (s.host.ready = false → s.host.stuck = false → ∀ image failed,
      let i := Instr.bootStage image failed
      let good := Config.sm2Verifies Config.fusedKey (Config.sm3 image.bytes) image.sig
      (s.host.stage = 1 ∨ s.host.stage = 2 →
        let read := s.host.firmware.put (s.host.stage + 1) (Config.sm3 image.bytes)
        (good = true → exec i s = .next (s.updHost fun h => { h with firmware := read, stage := h.stage + 1 })) ∧
        (good = false →
          exec i s = .next (s.updHost fun h => { h with firmware := read, recovery := true, stuck := true }))) ∧
      (s.host.stage = 3 → ∃ t, exec i s = .next t ∧ (t.host.stage = if good then 4 else 3) ∧
        t.host.recovery = (s.host.recovery || !good) ∧ t.host.stuck = !good ∧
        ∀ d < s.panel.nIsl, (t.isl d).live = !failed.contains d ∧ (t.isl d).repair = SMap.get [] s.panel.repair d) ∧
      (s.host.stage = 4 → ∃ t, exec i s = .next t ∧ (t.host.stage = if good then 5 else 4) ∧ t.host.stuck = !good ∧
        ∀ d < s.panel.nIsl, (t.isl d).live = ((s.isl d).live && !failed.contains d)) ∧
      (s.host.stage = 5 → exec i s = .next (s.updHost fun h => { h with ready := true }))) ∧
    (s.host.ready = true ∨ s.host.stuck = true → ∀ image failed, exec (.bootStage image failed) s = .next s)

/-- R415, Table 27-3: GO asks for a report; the report repeats the nonce, holds the digests of the firmware, the grade,
PSTAT and the device identity key, and ends with the signature over the SM3 digest of its first 192 bytes. What SM3, SM2
and the keys give are free values (log 18). -/
def attestationRule : Prop :=
  ∀ (s : State),
    (hostOpen s true = true → s.host.attGo = false →
      exec .attest s = .next (s.updHost fun h => { h with attGo := true })) ∧
    (s.host.attGo = true → ∃ t, exec .attestDone s = .next t ∧ t.host.attGo = false ∧
      (∀ i < 32, SMap.get 0 t.host.attReport i = SMap.get 0 s.host.attNonce i) ∧
      SMap.get 0 t.host.attReport 104 = (if s.panel.gradeB then 0x0B else 0x0A) ∧
      let Holds (off n v : Nat) : Prop := ∀ i < n, SMap.get 0 t.host.attReport (off + i) = ((leBytes n v)[i]?).getD 0
      (∀ d, s.host.firmware.find? 2 = some d → Holds 32 32 d.toNat) ∧
      (∀ d, s.host.firmware.find? 3 = some d → Holds 64 32 d.toNat) ∧
      Holds 112 8 s.host.pstat ∧ Holds 128 64 Config.identityKey.toNat ∧
      Holds 192 64 (Config.sm2Sign s.tick (Config.sm3 (attestBody s))).toNat)

/-- R5, R6, R41, R417: writes of registers at their offsets of BAR0; one at an offset that is no multiple of 8 changes
nothing (log 41). -/
def registersRule : Prop :=
  ∀ (s : State) (x : DWord), hostOpen s false = true → hostOpen s true = true →
    (∀ q < 2048, let base := 0x100000 + 0x40 * q
      exec (.registerWrite base x) s = exec (.qcfgWrite q x) s ∧
      exec (.registerWrite (base + 8) x) s = .next (s.updQueue q fun y => { y with key := x }) ∧
      ((s.queue q).enable = false →
        exec (.registerWrite (base + 16) x) s = .next (s.updQueue q fun y => { y with expect := x.toNat % 2 ^ 32 })) ∧
      ((s.queue q).enable = true → exec (.registerWrite (base + 16) x) s = .next s) ∧
      exec (.registerWrite (base + 24) x) s =
        .next (s.updQueue q fun y => { y with statVa := natBits x.toNat 55 3 * 8 })) ∧
    (∀ n < 64, let base := 0x080000 + 0x40 * n
      exec (.registerWrite base x) s = exec (.tcfgWrite n x) s ∧
      exec (.registerWrite (base + 8) x) s = exec (.ptrootWrite n x) s ∧
      exec (.registerWrite (base + 24) x) s =
        .next (s.updTenant n fun y => { y with trapRing := natBits x.toNat 55 14 * 2 ^ 14 })) ∧
    (∀ off, off % 8 ≠ 0 → exec (.registerWrite off x) s = .next s) ∧
    (anyEnabled s = false → exec (.mgmtRegisterWrite 0x320 x) s =
      .next (s.updHost fun h => { h with reqPort := x.toNat % 2 ^ 16 })) ∧
    (anyEnabled s = true → ∀ off ∈ [0x310, 0x318, 0x320, 0x328], exec (.mgmtRegisterWrite off x) s = .next s) ∧
    (x.toNat % 2 ^ 9 ≤ s.panel.pwrMax → exec (.mgmtRegisterWrite 0x330 x) s =
      .next (s.updHost fun h => { h with pwrLim := x.toNat % 2 ^ 9 })) ∧
    (s.panel.pwrMax < x.toNat % 2 ^ 9 → exec (.mgmtRegisterWrite 0x330 x) s = .next s)

/-- R5, R6, R41, R378 to R384, R392, R414 to R417: what the host and the platform do to the panel. -/
def Obligations.HostControls : Prop :=
  preemptionRule ∧ crewControlsRule ∧ tenantResetRule ∧ bootRule ∧ attestationRule ∧ registersRule

/-! ## Events for the host (03_launching) -/

/-- R51, R52: an event that finds the ring on and not full is written at BASE + 32 × (TAIL mod 2^LOG2), all 32 bytes, and
TAIL counts it modulo 2^32; any other is dropped and counted in LOST. A write of HEAD that would make TAIL − HEAD exceed
2^LOG2 is ignored; a write of EQBASE or EQSIZE sets HEAD and TAIL to 0; a write of EQLOST sets it to 0. -/
def Obligations.EventRing : Prop :=
  ∀ (s : State) (kind code queue tenant w1 w2 w3 : Nat), let h := s.host
    let t := s.event kind code queue tenant w1 w2 w3
    let entries := 2 ^ h.eqSize
    let count := (h.eqTail + 2 ^ 32 - h.eqHead) % 2 ^ 32
    let On : Prop := h.eqBase ≠ 0 ∧ 7 ≤ h.eqSize ∧ h.eqSize ≤ 20
    let at_ := h.eqBase + 32 * (h.eqTail % entries)
    (On → count ≠ entries →
      t.host = { h with eqTail := (h.eqTail + 1) % 2 ^ 32 } ∧ { t with host := h, hostMem := s.hostMem } = s ∧
      memBytes t.hostMem at_ 32 = leBytes 8 (kind + code * 2 ^ 8 + queue * 2 ^ 16 + tenant * 2 ^ 32) ++ leBytes 8 w1 ++
        leBytes 8 w2 ++ leBytes 8 w3 ∧
      ∀ a, a < at_ ∨ at_ + 32 ≤ a → memGet t.hostMem a = memGet s.hostMem a) ∧
    (¬On ∨ count = entries → t = { s with host := { h with eqLost := min (h.eqLost + 1) (2 ^ 32 - 1) } }) ∧
    ∀ x : DWord, hostOpen s false = true → let head := natBits x.toNat 31 0
      ((h.eqTail + 2 ^ 32 - head) % 2 ^ 32 ≤ entries →
        exec (.eqheadWrite x) s = .next { s with host := { h with eqHead := head } }) ∧
      (entries < (h.eqTail + 2 ^ 32 - head) % 2 ^ 32 → exec (.eqheadWrite x) s = .next s) ∧
      exec (.eqRingWrite false x) s =
        .next { s with host := { h with eqBase := natBits x.toNat 63 12 * 2 ^ 12, eqHead := 0, eqTail := 0 } } ∧
      exec (.eqRingWrite true x) s =
        .next { s with host := { h with eqSize := natBits x.toNat 4 0, eqHead := 0, eqTail := 0 } } ∧
      exec (.eqlostWrite x) s = .next { s with host := { h with eqLost := 0 } }

/-! ## The machine as a whole -/

/-- R102 to R104, R110 to R114, R217, log 4: a move that issues a team's word, where the team can issue and its slot
chooses it, runs `exec` of the instruction its bytes decode to, at the time its slot is free; a word with a register an
earlier operation is still to write is held; bytes that decode to nothing raise ILLOP, and a counter past the code ends
the team. A team that its slot does not choose issues nothing. A move that is a well-formed event runs `exec` of it, save
one that waits for a due deadline request; a reading of the sensors is noted (log 78). -/
def Obligations.StepRunsDecoded : Prop :=
  ∀ (s : State) (wait : Nat) (rest : List Item),
    let s0 : State := pass { s with inbox := rest, tick := s.tick + 1 } wait
    (∀ u x, s.inbox = { wait := wait, move := .issue u } :: rest →
      let s1 : State := { s0 with cur := some u }
      Issues s1 x →
      (issues s1 x = false → step s = .next (holdTeam s1 u)) ∧
      (issues s1 x = true →
        let s2 : State := pass s1 (slotTime s1 x - s1.now)
        ∀ y, Issues s2 y →
          (issues s2 y = false ∨ chosen s2 y = false → step s = .next { s2 with cur := none }) ∧
          (issues s2 y = true → chosen s2 y = true →
            (fetch s2 y = none → step s = .next (afterWord s2 y (fallOff s2 y))) ∧
            ∀ bs, fetch s2 y = some bs →
              (∀ e, decodeBytes bs = .error e → step s = .next (afterWord s2 y (raiseTeam s2 y .illop 0))) ∧
              ∀ i tail, decodeBytes bs = .ok (i, tail) →
                (interlocked s2 y.u y.t.regs i = true → step s = .next (afterWord s2 y s2)) ∧
                (interlocked s2 y.u y.t.regs i = false →
                  (∀ t, exec i s2 = .next t → step s = .next (afterWord s2 y t)) ∧
                  (∀ f, exec i s2 = .fault f → step s = .fault f) ∧
                  ∀ r, exec i s2 = .refused r → step s = .refused r)))) ∧
    (∀ i, s.inbox = { wait := wait, move := .event i } :: rest → recordQueue (.event i) = none ∨ rest = [] →
      i.isWord = false → i.wf = true →
      (waitsForDue s0 i = false → ∀ t, exec i s0 = .next t → step s = .next (endMove t)) ∧
      (waitsForDue s0 i = true → step s = .next (endMove s0))) ∧
    ∀ isl watts celsius, s.inbox = { wait := wait, move := .sense isl watts celsius } :: rest →
      step s = .next (endMove (sense s0 isl watts celsius))

/-- R70, R87, Tables 5-16, 8-10, 10-7, 12-8, 15-7 and 18-6: words of the spec's own examples decode to what they stand
for. -/
def Obligations.WordsDecode : Prop :=
  let d := Operand.v
  let r := Operand.s
  let k := Operand.k
  let g : Guard := { pred := 7, neg := false }
  decode 0x1030702001008031 = .ok (.ffma g .f32 .tz (d 8) (d 1) (d 2) (d 3)) ∧
  decode 0x2002701504000040 = .ok (.ld g .b32 false (d 5) (r 4) 0x40) ∧
  decode 0x05407411040003E8 = .ok (.saddImm .i32 4 (r 4) 1000) ∧
  decode 0x0010700000FFFFFD = .ok (.bra 0xFFFFFD) ∧
  decode 0x458000100B002000 = .ok (.pairWord { pop := .vmov, hpred := .always, imm := false, d := 0, s := 1 }
    { pop := .vmov, hpred := .always, imm := false, d := 1, s := 0 }) ∧
  decode 0x00E0702340033200 = .ok (.spawn g (d 8) (k 0x40) 3 3 1) ∧
  decode 0x0800701005018001 = .ok (.vadd g .i32 true (d 4) (d 5) (d 6)) ∧
  decode 0x10607E440200F020 = .ok (.fcmp g .f32 .ne .lt (k 0x91) (d 2) (d 3)) ∧
  decode 0x1806701C09818000 = .ok (.cvt g .i8 .f32 true .tz 0 (d 7) (d 9)) ∧
  decode 0x2800701802021A00 = .ok (.atom g .i32 .add .acq .island (some (d 6)) (d 2) (d 8)) ∧
  decode 0x2870740904418887 = .ok (.cpy 2 4 6 .lspace .global (some 7)) ∧
  decode 0x306674290E431289 = .ok (.mdrn false (some .int8) 10 (some 14) 12 2 false false (some 9)) ∧
  decode 0x30B1702141000000 = .ok (.miter .cubic false 0 0 4 0x28 2 none) ∧
  decode 0x3860700000001E00 = .ok (.fence .ar .island) ∧
  decode 0x38F070010C000001 = .ok (.tlwt .mx 12) ∧
  decode 0x3900701006030087 = .ok (.coll g .ar (d 4) (d 6) 3 (some 7)) ∧
  decode 0 = .error .guard

/-- R4, R70, R73, R87: for every well-formed instruction word, with every operand at every value its encoding admits, the
decoder reads from its eight bytes the instruction and leaves the bytes after them; and every word that decodes is the
encoding of the well-formed instruction it decodes to, so that no two words mean the same and no bit is dropped. -/
def Obligations.DecodeEncode : Prop :=
  (∀ (i : Instr) (bs rest : List Byte), i.wf = true → encodeBytes i = some bs →
    decodeBytes (bs ++ rest) = .ok (i, rest)) ∧
  ∀ (w : DWord) (i : Instr), decode w = .ok i → i.wf = true ∧ encode i = some w

/-- Tables 3-3, 3-5, 11-5, 11-7, 20-5 and 27-5, R360, R414: what reset leaves in the registers the spec gives a reset value;
nothing is placed, and the memories are in canonical form. (That a byte nothing has written reads 0 is log 1, and no
part of this statement.) -/
def Obligations.ResetValues : Prop :=
  let s := State.reset
  s.wf ∧ s.kernels = [] ∧ s.crews = [] ∧ s.teams = [] ∧ s.ops = [] ∧ s.pkts = [] ∧ s.mem = [] ∧
    (∀ q, (s.queue q).enable = false ∧ (s.queue q).level = 0 ∧ (s.queue q).weight = 0 ∧ (s.queue q).tenant = 0 ∧
      (s.queue q).eth = false ∧ (s.queue q).key = 0 ∧ (s.queue q).expect = 0 ∧ (s.queue q).statVa = 0 ∧
      (s.queue q).status = 0) ∧
    (∀ n, (s.tenant n).enable = false ∧ (s.tenant n).hbmw = 1 ∧ (s.tenant n).ptroot = 0 ∧ (s.tenant n).trapRing = 0 ∧
      (s.tenant n).preStop = false ∧ (s.tenant n).preResume = false ∧ (s.tenant n).treset = false) ∧
    s.host.eqBase = 0 ∧ s.host.eqSize = 0 ∧ s.host.eqHead = 0 ∧ s.host.eqTail = 0 ∧ s.host.eqLost = 0 ∧
    s.host.tlbGo = false ∧ s.host.reqPort = 0 ∧ s.host.reqAddr = 0 ∧ s.host.wlogsz = 0 ∧ s.host.pwrLim = s.panel.pwrMax ∧
    s.host.attGo = false ∧ s.host.ready = false ∧ s.host.recovery = false ∧ s.host.warm = false ∧
    ∀ i g w, groupWord s i g w = 0

/-- Logs 1 and 4: every step from a state whose memories are in canonical form, with no word half issued, leaves such a
state: whatever word or event is performed, equal contents of panel and host memory stay equal data. -/
def Obligations.StepKeepsInvariant : Prop := ∀ s s' : State, s.wf → step s = .next s' → s'.wf
end

