-- ==== Sys2Proof/Laws/Ints.lean ====
section
/-! SUPPORT. The integer operations of Machine/Arith.lean are the operations of bit vectors of their width. -/

namespace Sys2Proof.Machine

/-- Trunc is the bit vector of an integer. -/
theorem trunc_eq (w : Nat) (x : Int) : trunc w x = (BitVec.ofInt w x).toNat := by
  simp [trunc, BitVec.toNat_ofInt]

theorem trunc_lt (w : Nat) (x : Int) : trunc w x < 2 ^ w := by rw [trunc_eq]; exact (BitVec.ofInt w x).isLt

/-- A pattern read in a type is the reading of its bit vector. -/
theorem ival_eq {w x : Nat} (sg : Bool) (hw : 0 < w) (h : x < 2 ^ w) : ival sg w x = readInt sg (BitVec.ofNat w x) := by
  unfold ival readInt
  cases sg with
  | false => simp [Nat.mod_eq_of_lt h]
  | true =>
    simp only [Bool.true_and, if_true, BitVec.toInt_eq_toNat_cond, BitVec.toNat_ofNat, Nat.mod_eq_of_lt h,
      decide_eq_true_eq]
    have e : 2 ^ w = 2 * 2 ^ (w - 1) := by rw [← Nat.pow_succ']; congr 1; omega
    have hp : 0 < 2 ^ (w - 1) := by positivity
    generalize 2 ^ (w - 1) = m at e hp
    have hq : x / m < 2 := by rw [Nat.div_lt_iff_lt_mul hp]; omega
    by_cases hx : x < m
    · have : x / m = 0 := Nat.div_eq_of_lt hx
      rw [this, if_neg (by simp), if_pos (by omega)]
    · have : x / m = 1 := by
        have : m ≤ x := by omega
        have := Nat.div_pos this hp
        omega
      rw [this, if_pos (by simp), if_neg (by omega)]
      push_cast; rfl

theorem ofInt_readInt {w : Nat} (sg : Bool) (x : BitVec w) : BitVec.ofInt w (readInt sg x) = x := by
  cases sg <;> simp [readInt]

section
variable {w a b : Nat} (sg : Bool) (hw : 0 < w) (ha : a < 2 ^ w) (hb : b < 2 ^ w)
include hw ha hb

theorem iAdd_eq : iAdd sg w a b = (BitVec.ofNat w a + BitVec.ofNat w b).toNat := by
  rw [iAdd, trunc_eq, ival_eq sg hw ha, ival_eq sg hw hb, BitVec.ofInt_add, ofInt_readInt, ofInt_readInt]
theorem iSub_eq : iSub sg w a b = (BitVec.ofNat w a - BitVec.ofNat w b).toNat := by
  rw [iSub, trunc_eq, ival_eq sg hw ha, ival_eq sg hw hb, Int.sub_eq_add_neg, BitVec.ofInt_add, BitVec.ofInt_neg,
    ofInt_readInt, ofInt_readInt, BitVec.sub_eq_add_neg]
theorem iMul_eq : iMul sg w a b = (BitVec.ofNat w a * BitVec.ofNat w b).toNat := by
  rw [iMul, trunc_eq, ival_eq sg hw ha, ival_eq sg hw hb, BitVec.ofInt_mul, ofInt_readInt, ofInt_readInt]
theorem iMulh_eq : iMulh sg w a b = (mulhBits sg (BitVec.ofNat w a) (BitVec.ofNat w b)).toNat := by
  rw [iMulh, trunc_eq, ival_eq sg hw ha, ival_eq sg hw hb, mulhBits]
theorem iDiv_eq : iDiv sg w a b = (divBits sg (BitVec.ofNat w a) (BitVec.ofNat w b)).toNat := by
  have h0 : (BitVec.ofNat w b = 0) ↔ b = 0 := by
    rw [← BitVec.toNat_inj]; simp [Nat.mod_eq_of_lt hb]
  unfold iDiv divBits
  simp only [h0]
  split
  · simp
  · rw [trunc_eq, ival_eq sg hw ha, ival_eq sg hw hb]
    cases sg with
    | false =>
      simp only [readInt, Bool.false_eq_true, if_false]
      rw [← Int.ofNat_tdiv, ← BitVec.toNat_udiv, BitVec.ofInt_natCast, BitVec.ofNat_toNat]
      simp
    | true =>
      simp only [readInt, if_true]
      congr 1
      rw [← BitVec.toInt_inj, BitVec.toInt_ofInt, BitVec.toInt_sdiv]
theorem iRem_eq : iRem sg w a b = (remBits sg (BitVec.ofNat w a) (BitVec.ofNat w b)).toNat := by
  have h0 : (BitVec.ofNat w b = 0) ↔ b = 0 := by
    rw [← BitVec.toNat_inj]; simp [Nat.mod_eq_of_lt hb]
  unfold iRem remBits
  simp only [h0]
  split
  · simp [Nat.mod_eq_of_lt ha]
  · rw [trunc_eq, ival_eq sg hw ha, ival_eq sg hw hb]
    cases sg with
    | false =>
      simp only [readInt, Bool.false_eq_true, if_false]
      rw [← Int.ofNat_tmod, ← BitVec.toNat_umod, BitVec.ofInt_natCast, BitVec.ofNat_toNat]
      simp
    | true =>
      simp only [readInt, if_true]
      rw [← BitVec.toInt_srem, BitVec.ofInt_toInt]
omit hw in
theorem iAnd_eq : iAnd sg w a b = (BitVec.ofNat w a &&& BitVec.ofNat w b).toNat := by
  simp [iAnd, Nat.mod_eq_of_lt ha, Nat.mod_eq_of_lt hb]
omit hw in
theorem iOr_eq : iOr sg w a b = (BitVec.ofNat w a ||| BitVec.ofNat w b).toNat := by
  simp [iOr, Nat.mod_eq_of_lt ha, Nat.mod_eq_of_lt hb]
omit hw in
theorem iXor_eq : iXor sg w a b = (BitVec.ofNat w a ^^^ BitVec.ofNat w b).toNat := by
  simp [iXor, Nat.mod_eq_of_lt ha, Nat.mod_eq_of_lt hb]

/-- The conditions on exact integers are those on bit vectors. -/
theorem condBits_eq (c : Cc) :
    c.holds (ival sg w a) (ival sg w b) = condBits c sg (BitVec.ofNat w a) (BitVec.ofNat w b) := by
  have inj : ∀ x y : BitVec w, readInt sg x = readInt sg y ↔ x = y := by
    intro x y
    refine ⟨fun h => ?_, fun h => h ▸ rfl⟩
    rw [← ofInt_readInt sg x, h, ofInt_readInt]
  have lt : ∀ x y : BitVec w, (if sg then x.slt y else x.ult y) = decide (readInt sg x < readInt sg y) := by
    intro x y
    cases sg with
    | false => simp [readInt, BitVec.ult]
    | true => simp [readInt, BitVec.slt]
  rw [ival_eq sg hw ha, ival_eq sg hw hb]
  cases c <;> simp only [Cc.holds, condBits, lt, inj]
  · simp [beq_eq_decide]
  · simp [bne, beq_eq_decide, inj]
  · rw [← decide_not]; congr 1; simp
  · rw [← decide_not]; congr 1; simp

theorem iMin_eq : iMin sg w a b = (minBits sg (BitVec.ofNat w a) (BitVec.ofNat w b)).toNat := by
  have := condBits_eq sg hw hb ha .lt
  unfold iMin minBits
  rw [← this]
  simp only [Cc.holds, decide_eq_true_eq]
  split <;> simp [Nat.mod_eq_of_lt ha, Nat.mod_eq_of_lt hb]
theorem iMax_eq : iMax sg w a b = (maxBits sg (BitVec.ofNat w a) (BitVec.ofNat w b)).toNat := by
  have := condBits_eq sg hw ha hb .lt
  unfold iMax maxBits
  rw [← this]
  simp only [Cc.holds, decide_eq_true_eq]
  split <;> simp [Nat.mod_eq_of_lt ha, Nat.mod_eq_of_lt hb]
end

section
variable {w a : Nat} (sg : Bool) (ha : a < 2 ^ w) (n : Nat)
include ha

theorem iShl_eq : iShl sg w a n = (BitVec.ofNat w a <<< n).toNat := by
  unfold iShl
  simp only [BitVec.toNat_shiftLeft, BitVec.toNat_ofNat, Nat.mod_eq_of_lt ha, Nat.shiftLeft_eq]
  split
  · next h =>
    symm
    apply Nat.mod_eq_zero_of_dvd
    exact Dvd.dvd.mul_left (Nat.pow_dvd_pow 2 h) a
  · rfl
theorem iShr_eq : iShr sg w a n = (BitVec.ofNat w a >>> n).toNat := by
  unfold iShr
  simp only [BitVec.toNat_ushiftRight, BitVec.toNat_ofNat, Nat.mod_eq_of_lt ha, Nat.shiftRight_eq_div_pow]
  split
  · next h =>
    symm
    apply Nat.div_eq_of_lt
    exact lt_of_lt_of_le ha (Nat.pow_le_pow_right (by norm_num) h)
  · rfl
theorem iSra_eq (hw : 0 < w) : iSra sg w a n = ((BitVec.ofNat w a).sshiftRight n).toNat := by
  rw [iSra, trunc_eq, ival_eq true hw ha]
  simp only [readInt, if_true]
  have key : (BitVec.ofNat w a).toInt / 2 ^ min n w = (BitVec.ofNat w a).toInt / 2 ^ n := by
    rcases le_total n w with h | h
    · rw [min_eq_left h]
    · rw [min_eq_right h]
      have h1 := BitVec.toInt_lt (x := BitVec.ofNat w a)
      have h2 := BitVec.le_toInt (x := BitVec.ofNat w a)
      generalize (BitVec.ofNat w a).toInt = z at h1 h2
      have hm : (0 : Int) < 2 ^ w := by positivity
      have hn : (2 : Int) ^ w ≤ 2 ^ n := pow_le_pow_right₀ (by norm_num) h
      have hh : (2 : Int) ^ (w - 1) ≤ 2 ^ w := pow_le_pow_right₀ (by norm_num) (by omega)
      rcases le_or_gt 0 z with hz | hz
      · rw [Int.ediv_eq_zero_of_lt hz (by omega), Int.ediv_eq_zero_of_lt hz (by omega)]
      · have e1 : z / 2 ^ w = -1 := by
          rw [Int.ediv_eq_iff_of_pos hm]; constructor <;> omega
        have e2 : z / 2 ^ n = -1 := by
          rw [Int.ediv_eq_iff_of_pos (by omega)]; constructor <;> omega
        rw [e1, e2]
  rw [key, BitVec.sshiftRight, Int.shiftRight_eq_div_pow]
  norm_cast
end

end Sys2Proof.Machine
end

