-- ==== Sys2Proof/Laws/Maps.lean ====
section
/-! SUPPORT. What the sparse maps do: reads after writes, and the canonical form kept by every operation. -/

namespace Sys2Proof.Machine

namespace SMap

variable {α : Type}

@[simp] theorem find?_nil (k : Nat) : find? ([] : SMap α) k = none := rfl

@[simp] theorem find?_put_same (m : SMap α) (k : Nat) (v : α) : find? (put m k v) k = some v := by
  induction m with
  | nil => simp [put, find?]
  | cons h m ih =>
    obtain ⟨a, w⟩ := h
    simp only [put]
    split
    · simp [find?]
    · split
      · simp [find?]
      · next h => simp [find?, h, ih]

theorem find?_put_other (m : SMap α) {k j : Nat} (v : α) (h : j ≠ k) : find? (put m k v) j = find? m j := by
  induction m with
  | nil => simp [put, find?, h]
  | cons x m ih =>
    obtain ⟨a, w⟩ := x
    simp only [put]
    split
    · simp [find?, h]
    · split
      · next e => subst e; simp [find?, h]
      · simp only [find?]; split
        · rfl
        · exact ih

theorem find?_put (m : SMap α) (k j : Nat) (v : α) :
    find? (put m k v) j = if j = k then some v else find? m j := by
  split
  · next h => subst h; simp
  · next h => exact find?_put_other m v h

@[simp] theorem find?_del_same (m : SMap α) (k : Nat) : find? (del m k) k = none := by
  induction m with
  | nil => rfl
  | cons x m ih =>
    obtain ⟨a, w⟩ := x
    simp only [del]
    split
    · exact ih
    · next h => simp [find?, h, ih]

theorem find?_del_other (m : SMap α) {k j : Nat} (h : j ≠ k) : find? (del m k) j = find? m j := by
  induction m with
  | nil => rfl
  | cons x m ih =>
    obtain ⟨a, w⟩ := x
    simp only [del]
    split
    · next e => subst e; simp [find?, h, ih]
    · simp only [find?]; split
      · rfl
      · exact ih

theorem find?_del (m : SMap α) (k j : Nat) : find? (del m k) j = if j = k then none else find? m j := by
  split
  · next h => subst h; simp
  · next h => exact find?_del_other m h

theorem find?_upd (m : SMap α) (k j : Nat) (f : α → α) :
    find? (upd m k f) j = if j = k then (find? m j).map f else find? m j := by
  induction m with
  | nil => simp [upd, find?]
  | cons x m ih =>
    obtain ⟨a, w⟩ := x
    simp only [upd]
    split
    · next e =>
      subst e
      by_cases h : j = k <;> simp [find?, h]
    · next e =>
      simp only [find?]
      by_cases h : j = a
      · subst h
        have : j ≠ k := fun e' => e e'.symm
        simp [this]
      · simp [h, ih]

@[simp] theorem find?_upd_same (m : SMap α) (k : Nat) (f : α → α) : find? (upd m k f) k = (find? m k).map f := by
  simp [find?_upd]

theorem find?_upd_other (m : SMap α) {k j : Nat} (f : α → α) (h : j ≠ k) : find? (upd m k f) j = find? m j := by
  simp [find?_upd, h]

@[simp] theorem find?_mapVals (m : SMap α) (f : Nat → α → α) (k : Nat) :
    find? (mapVals m f) k = (find? m k).map (f k) := by
  induction m with
  | nil => rfl
  | cons x m ih =>
    obtain ⟨a, w⟩ := x
    simp only [mapVals, List.map_cons, find?] at ih ⊢
    split
    · next e => subst e; rfl
    · exact ih

@[simp] theorem get_set_same [DecidableEq α] (d : α) (m : SMap α) (k : Nat) (v : α) : get d (set d m k v) k = v := by
  unfold get set
  split
  · next h => simp [h]
  · simp

theorem get_set_other [DecidableEq α] (d : α) (m : SMap α) {k j : Nat} (v : α) (h : j ≠ k) :
    get d (set d m k v) j = get d m j := by
  unfold get set
  split
  · rw [find?_del_other m h]
  · rw [find?_put_other m v h]

theorem get_set [DecidableEq α] (d : α) (m : SMap α) (k j : Nat) (v : α) :
    get d (set d m k v) j = if j = k then v else get d m j := by
  split
  · next h => subst h; simp
  · next h => exact get_set_other d m v h

/-! ## Canonical form -/

theorem risingFrom_le {lo lo' : Nat} {m : SMap α} (h : lo' ≤ lo) (w : risingFrom lo m = true) :
    risingFrom lo' m = true := by
  cases m with
  | nil => rfl
  | cons x m =>
    obtain ⟨a, v⟩ := x
    simp only [risingFrom, Bool.and_eq_true, decide_eq_true_eq] at w ⊢
    exact ⟨h.trans w.1, w.2⟩

theorem risingFrom_put {lo k : Nat} {m : SMap α} (v : α) (h : lo ≤ k) (w : risingFrom lo m = true) :
    risingFrom lo (put m k v) = true := by
  induction m generalizing lo with
  | nil => simp [put, risingFrom, h]
  | cons x m ih =>
    obtain ⟨a, u⟩ := x
    simp only [risingFrom, Bool.and_eq_true, decide_eq_true_eq] at w
    simp only [put]
    split
    · next e => simp only [risingFrom, Bool.and_eq_true, decide_eq_true_eq]; exact ⟨h, e, w.2⟩
    · split
      · next e => subst e; simp only [risingFrom, Bool.and_eq_true, decide_eq_true_eq]; exact ⟨h, w.2⟩
      · simp only [risingFrom, Bool.and_eq_true, decide_eq_true_eq]
        exact ⟨w.1, ih (by omega) w.2⟩

theorem risingFrom_del {lo k : Nat} {m : SMap α} (w : risingFrom lo m = true) : risingFrom lo (del m k) = true := by
  induction m generalizing lo with
  | nil => rfl
  | cons x m ih =>
    obtain ⟨a, u⟩ := x
    simp only [risingFrom, Bool.and_eq_true, decide_eq_true_eq] at w
    simp only [del]
    split
    · exact ih (risingFrom_le (by omega) w.2)
    · simp only [risingFrom, Bool.and_eq_true, decide_eq_true_eq]; exact ⟨w.1, ih w.2⟩

theorem mem_put {m : SMap α} {k : Nat} {v : α} {x : Nat × α} (h : x ∈ put m k v) : x = (k, v) ∨ x ∈ m := by
  induction m with
  | nil => simpa [put] using h
  | cons y m ih =>
    obtain ⟨a, w⟩ := y
    simp only [put] at h
    split at h
    · simpa using h
    · split at h
      · rcases List.mem_cons.1 h with h | h
        · exact .inl h
        · exact .inr (List.mem_cons_of_mem _ h)
      · rcases List.mem_cons.1 h with h | h
        · exact .inr (h ▸ List.mem_cons_self ..)
        · rcases ih h with h | h
          · exact .inl h
          · exact .inr (List.mem_cons_of_mem _ h)

theorem mem_del {m : SMap α} {k : Nat} {x : Nat × α} (h : x ∈ del m k) : x ∈ m := by
  induction m with
  | nil => simp [del] at h
  | cons y m ih =>
    obtain ⟨a, w⟩ := y
    simp only [del] at h
    split at h
    · exact List.mem_cons_of_mem _ (ih h)
    · rcases List.mem_cons.1 h with h | h
      · exact h ▸ List.mem_cons_self ..
      · exact List.mem_cons_of_mem _ (ih h)

/-- What every listed value and the reading of an absent key satisfy, every reading does. -/
theorem get_all {P : α → Prop} {d : α} (hd : P d) : ∀ m : SMap α, (∀ kv ∈ m, P kv.2) → ∀ k, P (get d m k)
  | [], _, _ => hd
  | (a, v) :: m, h, k => by
    have ih := get_all hd m (fun kv hm => h kv (List.mem_cons_of_mem _ hm)) k
    simp only [get, find?] at ih ⊢
    split
    · exact h (a, v) (List.mem_cons_self ..)
    · exact ih

/-- A write keeps the canonical form. -/
theorem canon_set [DecidableEq α] {d : α} {m : SMap α} (k : Nat) (v : α) (w : canon d m = true) :
    canon d (set d m k v) = true := by
  simp only [canon, Bool.and_eq_true, List.all_eq_true, decide_eq_true_eq] at w ⊢
  unfold set
  split
  · exact ⟨risingFrom_del w.1, fun x h => w.2 x (mem_del h)⟩
  · next e =>
    refine ⟨risingFrom_put v (Nat.zero_le k) w.1, fun x h => ?_⟩
    rcases mem_put h with h | h
    · subst h; exact e
    · exact w.2 x h

/-- Leaving entries out keeps the canonical form. -/
theorem canon_filter [DecidableEq α] {d : α} {m : SMap α} (p : Nat × α → Bool) (w : canon d m = true) :
    canon d (m.filter p) = true := by
  simp only [canon, Bool.and_eq_true, List.all_eq_true, decide_eq_true_eq] at w ⊢
  refine ⟨?_, fun x h => w.2 x (List.mem_filter.1 h).1⟩
  have h := w.1
  clear w
  generalize 0 = lo at h ⊢
  induction m generalizing lo with
  | nil => rfl
  | cons x m ih =>
    obtain ⟨a, u⟩ := x
    simp only [risingFrom, Bool.and_eq_true, decide_eq_true_eq] at h
    simp only [List.filter]
    split
    · simp only [risingFrom, Bool.and_eq_true, decide_eq_true_eq]; exact ⟨h.1, ih _ h.2⟩
    · exact ih _ (risingFrom_le (by omega) h.2)

end SMap

/-! ## Memory -/

theorem memGet_memSet (m : List Host.Cell) (a b : Nat) (x : Byte) :
    memGet (memSet m a x) b = if b = a then x else memGet m b := SMap.get_set emptyByte m a b x

/-- A write of bytes keeps every byte outside it. -/
theorem memGet_memPut_other (bs : List Byte) (m : List Host.Cell) (a b : Nat) (h : b < a ∨ a + bs.length ≤ b) :
    memGet (memPut m a bs) b = memGet m b := by
  induction bs generalizing m a with
  | nil => rfl
  | cons x bs ih =>
    simp only [List.length_cons] at h
    rw [memPut, ih _ _ (by omega), memGet_memSet, if_neg (by omega)]

/-- A write of bytes stores them in order. -/
theorem memGet_memPut_same (bs : List Byte) (m : List Host.Cell) (a i : Nat) (h : i < bs.length) :
    memGet (memPut m a bs) (a + i) = bs[i] := by
  induction bs generalizing m a i with
  | nil => simp at h
  | cons x bs ih =>
    simp only [List.length_cons] at h
    rw [memPut]
    cases i with
    | zero =>
      rw [memGet_memPut_other _ _ _ _ (by omega), memGet_memSet]
      simp
    | succ i =>
      have := ih (memSet m a x) (a + 1) i (by omega)
      rw [show a + (i + 1) = a + 1 + i by omega, this]
      simp

/-- A read of what was just written. -/
theorem memBytes_memPut_same (bs : List Byte) (m : List Host.Cell) (a : Nat) :
    memBytes (memPut m a bs) a bs.length = bs := by
  induction bs generalizing m a with
  | nil => rfl
  | cons x bs ih =>
    rw [List.length_cons, memBytes, memPut, ih, memGet_memPut_other _ _ _ _ (by omega), memGet_memSet]
    simp

theorem memSet_wf {m : List Host.Cell} (a : Nat) (x : Byte) (w : Memory.wf m = true) : Memory.wf (memSet m a x) = true :=
  SMap.canon_set a x w

/-- Every write keeps the canonical form of a memory. -/
theorem memPut_wf (bs : List Byte) {m : List Host.Cell} (a : Nat) (w : Memory.wf m = true) :
    Memory.wf (memPut m a bs) = true := by
  induction bs generalizing m a with
  | nil => exact w
  | cons x bs ih => exact ih _ (memSet_wf a x w)

/-- An area cleared, as a new frame is, keeps the canonical form. -/
theorem memClear_wf (p : Host.Cell → Bool) {m : List Host.Cell} (w : Memory.wf m = true) :
    Memory.wf (m.filter p) = true := SMap.canon_filter p w

theorem reset_memory_wf : Memory.wf State.reset.mem = true ∧ Memory.wf State.reset.hostMem = true := by decide

end Sys2Proof.Machine
end

