-- ==== Sys2Proof/Laws/State.lean ====
section
/-! SUPPORT. Each update of State, field by field: a field that the update changes, and every field it keeps. And the
readings of the maps after an update. -/

namespace Sys2Proof.Machine

/-! ## setTeam -/

@[simp] theorem State.setTeam_panel (s : State) (u : Nat) (t : Team) : (s.setTeam u t).panel = s.panel := rfl
@[simp] theorem State.setTeam_host (s : State) (u : Nat) (t : Team) : (s.setTeam u t).host = s.host := rfl
@[simp] theorem State.setTeam_queues (s : State) (u : Nat) (t : Team) : (s.setTeam u t).queues = s.queues := rfl
@[simp] theorem State.setTeam_tenants (s : State) (u : Nat) (t : Team) : (s.setTeam u t).tenants = s.tenants := rfl
@[simp] theorem State.setTeam_pcp (s : State) (u : Nat) (t : Team) : (s.setTeam u t).pcp = s.pcp := rfl
@[simp] theorem State.setTeam_groupTab (s : State) (u : Nat) (t : Team) : (s.setTeam u t).groupTab = s.groupTab := rfl
@[simp] theorem State.setTeam_mem (s : State) (u : Nat) (t : Team) : (s.setTeam u t).mem = s.mem := rfl
@[simp] theorem State.setTeam_hostMem (s : State) (u : Nat) (t : Team) : (s.setTeam u t).hostMem = s.hostMem := rfl
@[simp] theorem State.setTeam_isls (s : State) (u : Nat) (t : Team) : (s.setTeam u t).isls = s.isls := rfl
@[simp] theorem State.setTeam_cores (s : State) (u : Nat) (t : Team) : (s.setTeam u t).cores = s.cores := rfl
@[simp] theorem State.setTeam_engines (s : State) (u : Nat) (t : Team) : (s.setTeam u t).engines = s.engines := rfl
@[simp] theorem State.setTeam_kernels (s : State) (u : Nat) (t : Team) : (s.setTeam u t).kernels = s.kernels := rfl
@[simp] theorem State.setTeam_crews (s : State) (u : Nat) (t : Team) : (s.setTeam u t).crews = s.crews := rfl
@[simp] theorem State.setTeam_teams (s : State) (u : Nat) (t : Team) : (s.setTeam u t).teams = s.teams.put u t := rfl
@[simp] theorem State.setTeam_ops (s : State) (u : Nat) (t : Team) : (s.setTeam u t).ops = s.ops := rfl
@[simp] theorem State.setTeam_msgs (s : State) (u : Nat) (t : Team) : (s.setTeam u t).msgs = s.msgs := rfl
@[simp] theorem State.setTeam_pkts (s : State) (u : Nat) (t : Team) : (s.setTeam u t).pkts = s.pkts := rfl
@[simp] theorem State.setTeam_collPkts (s : State) (u : Nat) (t : Team) : (s.setTeam u t).collPkts = s.collPkts := rfl
@[simp] theorem State.setTeam_collInsts (s : State) (u : Nat) (t : Team) :
    (s.setTeam u t).collInsts = s.collInsts := rfl
@[simp] theorem State.setTeam_streams (s : State) (u : Nat) (t : Team) : (s.setTeam u t).streams = s.streams := rfl
@[simp] theorem State.setTeam_links (s : State) (u : Nat) (t : Team) : (s.setTeam u t).links = s.links := rfl
@[simp] theorem State.setTeam_lanes (s : State) (u : Nat) (t : Team) : (s.setTeam u t).lanes = s.lanes := rfl
@[simp] theorem State.setTeam_deadlines (s : State) (u : Nat) (t : Team) :
    (s.setTeam u t).deadlines = s.deadlines := rfl
@[simp] theorem State.setTeam_cur (s : State) (u : Nat) (t : Team) : (s.setTeam u t).cur = s.cur := rfl
@[simp] theorem State.setTeam_held (s : State) (u : Nat) (t : Team) : (s.setTeam u t).held = s.held := rfl
@[simp] theorem State.setTeam_inbox (s : State) (u : Nat) (t : Team) : (s.setTeam u t).inbox = s.inbox := rfl
@[simp] theorem State.setTeam_tick (s : State) (u : Nat) (t : Team) : (s.setTeam u t).tick = s.tick := rfl
@[simp] theorem State.setTeam_uid (s : State) (u : Nat) (t : Team) : (s.setTeam u t).uid = s.uid := rfl
@[simp] theorem State.setTeam_now (s : State) (u : Nat) (t : Team) : (s.setTeam u t).now = s.now := rfl

/-! ## updTeam -/

@[simp] theorem State.updTeam_panel (s : State) (u : Nat) (f : Team → Team) : (s.updTeam u f).panel = s.panel := rfl
@[simp] theorem State.updTeam_host (s : State) (u : Nat) (f : Team → Team) : (s.updTeam u f).host = s.host := rfl
@[simp] theorem State.updTeam_queues (s : State) (u : Nat) (f : Team → Team) :
    (s.updTeam u f).queues = s.queues := rfl
@[simp] theorem State.updTeam_tenants (s : State) (u : Nat) (f : Team → Team) :
    (s.updTeam u f).tenants = s.tenants := rfl
@[simp] theorem State.updTeam_pcp (s : State) (u : Nat) (f : Team → Team) : (s.updTeam u f).pcp = s.pcp := rfl
@[simp] theorem State.updTeam_groupTab (s : State) (u : Nat) (f : Team → Team) :
    (s.updTeam u f).groupTab = s.groupTab := rfl
@[simp] theorem State.updTeam_mem (s : State) (u : Nat) (f : Team → Team) : (s.updTeam u f).mem = s.mem := rfl
@[simp] theorem State.updTeam_hostMem (s : State) (u : Nat) (f : Team → Team) :
    (s.updTeam u f).hostMem = s.hostMem := rfl
@[simp] theorem State.updTeam_isls (s : State) (u : Nat) (f : Team → Team) : (s.updTeam u f).isls = s.isls := rfl
@[simp] theorem State.updTeam_cores (s : State) (u : Nat) (f : Team → Team) : (s.updTeam u f).cores = s.cores := rfl
@[simp] theorem State.updTeam_engines (s : State) (u : Nat) (f : Team → Team) :
    (s.updTeam u f).engines = s.engines := rfl
@[simp] theorem State.updTeam_kernels (s : State) (u : Nat) (f : Team → Team) :
    (s.updTeam u f).kernels = s.kernels := rfl
@[simp] theorem State.updTeam_crews (s : State) (u : Nat) (f : Team → Team) : (s.updTeam u f).crews = s.crews := rfl
@[simp] theorem State.updTeam_teams (s : State) (u : Nat) (f : Team → Team) :
    (s.updTeam u f).teams = s.teams.upd u f := rfl
@[simp] theorem State.updTeam_ops (s : State) (u : Nat) (f : Team → Team) : (s.updTeam u f).ops = s.ops := rfl
@[simp] theorem State.updTeam_msgs (s : State) (u : Nat) (f : Team → Team) : (s.updTeam u f).msgs = s.msgs := rfl
@[simp] theorem State.updTeam_pkts (s : State) (u : Nat) (f : Team → Team) : (s.updTeam u f).pkts = s.pkts := rfl
@[simp] theorem State.updTeam_collPkts (s : State) (u : Nat) (f : Team → Team) :
    (s.updTeam u f).collPkts = s.collPkts := rfl
@[simp] theorem State.updTeam_collInsts (s : State) (u : Nat) (f : Team → Team) :
    (s.updTeam u f).collInsts = s.collInsts := rfl
@[simp] theorem State.updTeam_streams (s : State) (u : Nat) (f : Team → Team) :
    (s.updTeam u f).streams = s.streams := rfl
@[simp] theorem State.updTeam_links (s : State) (u : Nat) (f : Team → Team) : (s.updTeam u f).links = s.links := rfl
@[simp] theorem State.updTeam_lanes (s : State) (u : Nat) (f : Team → Team) : (s.updTeam u f).lanes = s.lanes := rfl
@[simp] theorem State.updTeam_deadlines (s : State) (u : Nat) (f : Team → Team) :
    (s.updTeam u f).deadlines = s.deadlines := rfl
@[simp] theorem State.updTeam_cur (s : State) (u : Nat) (f : Team → Team) : (s.updTeam u f).cur = s.cur := rfl
@[simp] theorem State.updTeam_held (s : State) (u : Nat) (f : Team → Team) : (s.updTeam u f).held = s.held := rfl
@[simp] theorem State.updTeam_inbox (s : State) (u : Nat) (f : Team → Team) : (s.updTeam u f).inbox = s.inbox := rfl
@[simp] theorem State.updTeam_tick (s : State) (u : Nat) (f : Team → Team) : (s.updTeam u f).tick = s.tick := rfl
@[simp] theorem State.updTeam_uid (s : State) (u : Nat) (f : Team → Team) : (s.updTeam u f).uid = s.uid := rfl
@[simp] theorem State.updTeam_now (s : State) (u : Nat) (f : Team → Team) : (s.updTeam u f).now = s.now := rfl

/-! ## updCrew -/

@[simp] theorem State.updCrew_panel (s : State) (c : Nat) (f : Crew → Crew) : (s.updCrew c f).panel = s.panel := rfl
@[simp] theorem State.updCrew_host (s : State) (c : Nat) (f : Crew → Crew) : (s.updCrew c f).host = s.host := rfl
@[simp] theorem State.updCrew_queues (s : State) (c : Nat) (f : Crew → Crew) :
    (s.updCrew c f).queues = s.queues := rfl
@[simp] theorem State.updCrew_tenants (s : State) (c : Nat) (f : Crew → Crew) :
    (s.updCrew c f).tenants = s.tenants := rfl
@[simp] theorem State.updCrew_pcp (s : State) (c : Nat) (f : Crew → Crew) : (s.updCrew c f).pcp = s.pcp := rfl
@[simp] theorem State.updCrew_groupTab (s : State) (c : Nat) (f : Crew → Crew) :
    (s.updCrew c f).groupTab = s.groupTab := rfl
@[simp] theorem State.updCrew_mem (s : State) (c : Nat) (f : Crew → Crew) : (s.updCrew c f).mem = s.mem := rfl
@[simp] theorem State.updCrew_hostMem (s : State) (c : Nat) (f : Crew → Crew) :
    (s.updCrew c f).hostMem = s.hostMem := rfl
@[simp] theorem State.updCrew_isls (s : State) (c : Nat) (f : Crew → Crew) : (s.updCrew c f).isls = s.isls := rfl
@[simp] theorem State.updCrew_cores (s : State) (c : Nat) (f : Crew → Crew) : (s.updCrew c f).cores = s.cores := rfl
@[simp] theorem State.updCrew_engines (s : State) (c : Nat) (f : Crew → Crew) :
    (s.updCrew c f).engines = s.engines := rfl
@[simp] theorem State.updCrew_kernels (s : State) (c : Nat) (f : Crew → Crew) :
    (s.updCrew c f).kernels = s.kernels := rfl
@[simp] theorem State.updCrew_crews (s : State) (c : Nat) (f : Crew → Crew) :
    (s.updCrew c f).crews = s.crews.upd c f := rfl
@[simp] theorem State.updCrew_teams (s : State) (c : Nat) (f : Crew → Crew) : (s.updCrew c f).teams = s.teams := rfl
@[simp] theorem State.updCrew_ops (s : State) (c : Nat) (f : Crew → Crew) : (s.updCrew c f).ops = s.ops := rfl
@[simp] theorem State.updCrew_msgs (s : State) (c : Nat) (f : Crew → Crew) : (s.updCrew c f).msgs = s.msgs := rfl
@[simp] theorem State.updCrew_pkts (s : State) (c : Nat) (f : Crew → Crew) : (s.updCrew c f).pkts = s.pkts := rfl
@[simp] theorem State.updCrew_collPkts (s : State) (c : Nat) (f : Crew → Crew) :
    (s.updCrew c f).collPkts = s.collPkts := rfl
@[simp] theorem State.updCrew_collInsts (s : State) (c : Nat) (f : Crew → Crew) :
    (s.updCrew c f).collInsts = s.collInsts := rfl
@[simp] theorem State.updCrew_streams (s : State) (c : Nat) (f : Crew → Crew) :
    (s.updCrew c f).streams = s.streams := rfl
@[simp] theorem State.updCrew_links (s : State) (c : Nat) (f : Crew → Crew) : (s.updCrew c f).links = s.links := rfl
@[simp] theorem State.updCrew_lanes (s : State) (c : Nat) (f : Crew → Crew) : (s.updCrew c f).lanes = s.lanes := rfl
@[simp] theorem State.updCrew_deadlines (s : State) (c : Nat) (f : Crew → Crew) :
    (s.updCrew c f).deadlines = s.deadlines := rfl
@[simp] theorem State.updCrew_cur (s : State) (c : Nat) (f : Crew → Crew) : (s.updCrew c f).cur = s.cur := rfl
@[simp] theorem State.updCrew_held (s : State) (c : Nat) (f : Crew → Crew) : (s.updCrew c f).held = s.held := rfl
@[simp] theorem State.updCrew_inbox (s : State) (c : Nat) (f : Crew → Crew) : (s.updCrew c f).inbox = s.inbox := rfl
@[simp] theorem State.updCrew_tick (s : State) (c : Nat) (f : Crew → Crew) : (s.updCrew c f).tick = s.tick := rfl
@[simp] theorem State.updCrew_uid (s : State) (c : Nat) (f : Crew → Crew) : (s.updCrew c f).uid = s.uid := rfl
@[simp] theorem State.updCrew_now (s : State) (c : Nat) (f : Crew → Crew) : (s.updCrew c f).now = s.now := rfl

/-! ## updKernel -/

@[simp] theorem State.updKernel_panel (s : State) (k : Nat) (f : Kernel → Kernel) :
    (s.updKernel k f).panel = s.panel := rfl
@[simp] theorem State.updKernel_host (s : State) (k : Nat) (f : Kernel → Kernel) :
    (s.updKernel k f).host = s.host := rfl
@[simp] theorem State.updKernel_queues (s : State) (k : Nat) (f : Kernel → Kernel) :
    (s.updKernel k f).queues = s.queues := rfl
@[simp] theorem State.updKernel_tenants (s : State) (k : Nat) (f : Kernel → Kernel) :
    (s.updKernel k f).tenants = s.tenants := rfl
@[simp] theorem State.updKernel_pcp (s : State) (k : Nat) (f : Kernel → Kernel) : (s.updKernel k f).pcp = s.pcp := rfl
@[simp] theorem State.updKernel_groupTab (s : State) (k : Nat) (f : Kernel → Kernel) :
    (s.updKernel k f).groupTab = s.groupTab := rfl
@[simp] theorem State.updKernel_mem (s : State) (k : Nat) (f : Kernel → Kernel) : (s.updKernel k f).mem = s.mem := rfl
@[simp] theorem State.updKernel_hostMem (s : State) (k : Nat) (f : Kernel → Kernel) :
    (s.updKernel k f).hostMem = s.hostMem := rfl
@[simp] theorem State.updKernel_isls (s : State) (k : Nat) (f : Kernel → Kernel) :
    (s.updKernel k f).isls = s.isls := rfl
@[simp] theorem State.updKernel_cores (s : State) (k : Nat) (f : Kernel → Kernel) :
    (s.updKernel k f).cores = s.cores := rfl
@[simp] theorem State.updKernel_engines (s : State) (k : Nat) (f : Kernel → Kernel) :
    (s.updKernel k f).engines = s.engines := rfl
@[simp] theorem State.updKernel_kernels (s : State) (k : Nat) (f : Kernel → Kernel) :
    (s.updKernel k f).kernels = s.kernels.upd k f := rfl
@[simp] theorem State.updKernel_crews (s : State) (k : Nat) (f : Kernel → Kernel) :
    (s.updKernel k f).crews = s.crews := rfl
@[simp] theorem State.updKernel_teams (s : State) (k : Nat) (f : Kernel → Kernel) :
    (s.updKernel k f).teams = s.teams := rfl
@[simp] theorem State.updKernel_ops (s : State) (k : Nat) (f : Kernel → Kernel) : (s.updKernel k f).ops = s.ops := rfl
@[simp] theorem State.updKernel_msgs (s : State) (k : Nat) (f : Kernel → Kernel) :
    (s.updKernel k f).msgs = s.msgs := rfl
@[simp] theorem State.updKernel_pkts (s : State) (k : Nat) (f : Kernel → Kernel) :
    (s.updKernel k f).pkts = s.pkts := rfl
@[simp] theorem State.updKernel_collPkts (s : State) (k : Nat) (f : Kernel → Kernel) :
    (s.updKernel k f).collPkts = s.collPkts := rfl
@[simp] theorem State.updKernel_collInsts (s : State) (k : Nat) (f : Kernel → Kernel) :
    (s.updKernel k f).collInsts = s.collInsts := rfl
@[simp] theorem State.updKernel_streams (s : State) (k : Nat) (f : Kernel → Kernel) :
    (s.updKernel k f).streams = s.streams := rfl
@[simp] theorem State.updKernel_links (s : State) (k : Nat) (f : Kernel → Kernel) :
    (s.updKernel k f).links = s.links := rfl
@[simp] theorem State.updKernel_lanes (s : State) (k : Nat) (f : Kernel → Kernel) :
    (s.updKernel k f).lanes = s.lanes := rfl
@[simp] theorem State.updKernel_deadlines (s : State) (k : Nat) (f : Kernel → Kernel) :
    (s.updKernel k f).deadlines = s.deadlines := rfl
@[simp] theorem State.updKernel_cur (s : State) (k : Nat) (f : Kernel → Kernel) : (s.updKernel k f).cur = s.cur := rfl
@[simp] theorem State.updKernel_held (s : State) (k : Nat) (f : Kernel → Kernel) :
    (s.updKernel k f).held = s.held := rfl
@[simp] theorem State.updKernel_inbox (s : State) (k : Nat) (f : Kernel → Kernel) :
    (s.updKernel k f).inbox = s.inbox := rfl
@[simp] theorem State.updKernel_tick (s : State) (k : Nat) (f : Kernel → Kernel) :
    (s.updKernel k f).tick = s.tick := rfl
@[simp] theorem State.updKernel_uid (s : State) (k : Nat) (f : Kernel → Kernel) : (s.updKernel k f).uid = s.uid := rfl
@[simp] theorem State.updKernel_now (s : State) (k : Nat) (f : Kernel → Kernel) : (s.updKernel k f).now = s.now := rfl

/-! ## updIsl -/

@[simp] theorem State.updIsl_panel (s : State) (i : Nat) (f : Island → Island) : (s.updIsl i f).panel = s.panel := rfl
@[simp] theorem State.updIsl_host (s : State) (i : Nat) (f : Island → Island) : (s.updIsl i f).host = s.host := rfl
@[simp] theorem State.updIsl_queues (s : State) (i : Nat) (f : Island → Island) :
    (s.updIsl i f).queues = s.queues := rfl
@[simp] theorem State.updIsl_tenants (s : State) (i : Nat) (f : Island → Island) :
    (s.updIsl i f).tenants = s.tenants := rfl
@[simp] theorem State.updIsl_pcp (s : State) (i : Nat) (f : Island → Island) : (s.updIsl i f).pcp = s.pcp := rfl
@[simp] theorem State.updIsl_groupTab (s : State) (i : Nat) (f : Island → Island) :
    (s.updIsl i f).groupTab = s.groupTab := rfl
@[simp] theorem State.updIsl_mem (s : State) (i : Nat) (f : Island → Island) : (s.updIsl i f).mem = s.mem := rfl
@[simp] theorem State.updIsl_hostMem (s : State) (i : Nat) (f : Island → Island) :
    (s.updIsl i f).hostMem = s.hostMem := rfl
@[simp] theorem State.updIsl_isls (s : State) (i : Nat) (f : Island → Island) :
    (s.updIsl i f).isls = SMap.set {} s.isls i (f (s.isl i)) := rfl
@[simp] theorem State.updIsl_cores (s : State) (i : Nat) (f : Island → Island) : (s.updIsl i f).cores = s.cores := rfl
@[simp] theorem State.updIsl_engines (s : State) (i : Nat) (f : Island → Island) :
    (s.updIsl i f).engines = s.engines := rfl
@[simp] theorem State.updIsl_kernels (s : State) (i : Nat) (f : Island → Island) :
    (s.updIsl i f).kernels = s.kernels := rfl
@[simp] theorem State.updIsl_crews (s : State) (i : Nat) (f : Island → Island) : (s.updIsl i f).crews = s.crews := rfl
@[simp] theorem State.updIsl_teams (s : State) (i : Nat) (f : Island → Island) : (s.updIsl i f).teams = s.teams := rfl
@[simp] theorem State.updIsl_ops (s : State) (i : Nat) (f : Island → Island) : (s.updIsl i f).ops = s.ops := rfl
@[simp] theorem State.updIsl_msgs (s : State) (i : Nat) (f : Island → Island) : (s.updIsl i f).msgs = s.msgs := rfl
@[simp] theorem State.updIsl_pkts (s : State) (i : Nat) (f : Island → Island) : (s.updIsl i f).pkts = s.pkts := rfl
@[simp] theorem State.updIsl_collPkts (s : State) (i : Nat) (f : Island → Island) :
    (s.updIsl i f).collPkts = s.collPkts := rfl
@[simp] theorem State.updIsl_collInsts (s : State) (i : Nat) (f : Island → Island) :
    (s.updIsl i f).collInsts = s.collInsts := rfl
@[simp] theorem State.updIsl_streams (s : State) (i : Nat) (f : Island → Island) :
    (s.updIsl i f).streams = s.streams := rfl
@[simp] theorem State.updIsl_links (s : State) (i : Nat) (f : Island → Island) : (s.updIsl i f).links = s.links := rfl
@[simp] theorem State.updIsl_lanes (s : State) (i : Nat) (f : Island → Island) : (s.updIsl i f).lanes = s.lanes := rfl
@[simp] theorem State.updIsl_deadlines (s : State) (i : Nat) (f : Island → Island) :
    (s.updIsl i f).deadlines = s.deadlines := rfl
@[simp] theorem State.updIsl_cur (s : State) (i : Nat) (f : Island → Island) : (s.updIsl i f).cur = s.cur := rfl
@[simp] theorem State.updIsl_held (s : State) (i : Nat) (f : Island → Island) : (s.updIsl i f).held = s.held := rfl
@[simp] theorem State.updIsl_inbox (s : State) (i : Nat) (f : Island → Island) : (s.updIsl i f).inbox = s.inbox := rfl
@[simp] theorem State.updIsl_tick (s : State) (i : Nat) (f : Island → Island) : (s.updIsl i f).tick = s.tick := rfl
@[simp] theorem State.updIsl_uid (s : State) (i : Nat) (f : Island → Island) : (s.updIsl i f).uid = s.uid := rfl
@[simp] theorem State.updIsl_now (s : State) (i : Nat) (f : Island → Island) : (s.updIsl i f).now = s.now := rfl

/-! ## updCore -/

@[simp] theorem State.updCore_panel (s : State) (k : Nat) (f : Core → Core) : (s.updCore k f).panel = s.panel := rfl
@[simp] theorem State.updCore_host (s : State) (k : Nat) (f : Core → Core) : (s.updCore k f).host = s.host := rfl
@[simp] theorem State.updCore_queues (s : State) (k : Nat) (f : Core → Core) :
    (s.updCore k f).queues = s.queues := rfl
@[simp] theorem State.updCore_tenants (s : State) (k : Nat) (f : Core → Core) :
    (s.updCore k f).tenants = s.tenants := rfl
@[simp] theorem State.updCore_pcp (s : State) (k : Nat) (f : Core → Core) : (s.updCore k f).pcp = s.pcp := rfl
@[simp] theorem State.updCore_groupTab (s : State) (k : Nat) (f : Core → Core) :
    (s.updCore k f).groupTab = s.groupTab := rfl
@[simp] theorem State.updCore_mem (s : State) (k : Nat) (f : Core → Core) : (s.updCore k f).mem = s.mem := rfl
@[simp] theorem State.updCore_hostMem (s : State) (k : Nat) (f : Core → Core) :
    (s.updCore k f).hostMem = s.hostMem := rfl
@[simp] theorem State.updCore_isls (s : State) (k : Nat) (f : Core → Core) : (s.updCore k f).isls = s.isls := rfl
@[simp] theorem State.updCore_cores (s : State) (k : Nat) (f : Core → Core) :
    (s.updCore k f).cores = SMap.set {} s.cores k (f (s.core k)) := rfl
@[simp] theorem State.updCore_engines (s : State) (k : Nat) (f : Core → Core) :
    (s.updCore k f).engines = s.engines := rfl
@[simp] theorem State.updCore_kernels (s : State) (k : Nat) (f : Core → Core) :
    (s.updCore k f).kernels = s.kernels := rfl
@[simp] theorem State.updCore_crews (s : State) (k : Nat) (f : Core → Core) : (s.updCore k f).crews = s.crews := rfl
@[simp] theorem State.updCore_teams (s : State) (k : Nat) (f : Core → Core) : (s.updCore k f).teams = s.teams := rfl
@[simp] theorem State.updCore_ops (s : State) (k : Nat) (f : Core → Core) : (s.updCore k f).ops = s.ops := rfl
@[simp] theorem State.updCore_msgs (s : State) (k : Nat) (f : Core → Core) : (s.updCore k f).msgs = s.msgs := rfl
@[simp] theorem State.updCore_pkts (s : State) (k : Nat) (f : Core → Core) : (s.updCore k f).pkts = s.pkts := rfl
@[simp] theorem State.updCore_collPkts (s : State) (k : Nat) (f : Core → Core) :
    (s.updCore k f).collPkts = s.collPkts := rfl
@[simp] theorem State.updCore_collInsts (s : State) (k : Nat) (f : Core → Core) :
    (s.updCore k f).collInsts = s.collInsts := rfl
@[simp] theorem State.updCore_streams (s : State) (k : Nat) (f : Core → Core) :
    (s.updCore k f).streams = s.streams := rfl
@[simp] theorem State.updCore_links (s : State) (k : Nat) (f : Core → Core) : (s.updCore k f).links = s.links := rfl
@[simp] theorem State.updCore_lanes (s : State) (k : Nat) (f : Core → Core) : (s.updCore k f).lanes = s.lanes := rfl
@[simp] theorem State.updCore_deadlines (s : State) (k : Nat) (f : Core → Core) :
    (s.updCore k f).deadlines = s.deadlines := rfl
@[simp] theorem State.updCore_cur (s : State) (k : Nat) (f : Core → Core) : (s.updCore k f).cur = s.cur := rfl
@[simp] theorem State.updCore_held (s : State) (k : Nat) (f : Core → Core) : (s.updCore k f).held = s.held := rfl
@[simp] theorem State.updCore_inbox (s : State) (k : Nat) (f : Core → Core) : (s.updCore k f).inbox = s.inbox := rfl
@[simp] theorem State.updCore_tick (s : State) (k : Nat) (f : Core → Core) : (s.updCore k f).tick = s.tick := rfl
@[simp] theorem State.updCore_uid (s : State) (k : Nat) (f : Core → Core) : (s.updCore k f).uid = s.uid := rfl
@[simp] theorem State.updCore_now (s : State) (k : Nat) (f : Core → Core) : (s.updCore k f).now = s.now := rfl

/-! ## updEngine -/

@[simp] theorem State.updEngine_panel (s : State) (k : Nat) (f : MxEngine → MxEngine) :
    (s.updEngine k f).panel = s.panel := rfl
@[simp] theorem State.updEngine_host (s : State) (k : Nat) (f : MxEngine → MxEngine) :
    (s.updEngine k f).host = s.host := rfl
@[simp] theorem State.updEngine_queues (s : State) (k : Nat) (f : MxEngine → MxEngine) :
    (s.updEngine k f).queues = s.queues := rfl
@[simp] theorem State.updEngine_tenants (s : State) (k : Nat) (f : MxEngine → MxEngine) :
    (s.updEngine k f).tenants = s.tenants := rfl
@[simp] theorem State.updEngine_pcp (s : State) (k : Nat) (f : MxEngine → MxEngine) :
    (s.updEngine k f).pcp = s.pcp := rfl
@[simp] theorem State.updEngine_groupTab (s : State) (k : Nat) (f : MxEngine → MxEngine) :
    (s.updEngine k f).groupTab = s.groupTab := rfl
@[simp] theorem State.updEngine_mem (s : State) (k : Nat) (f : MxEngine → MxEngine) :
    (s.updEngine k f).mem = s.mem := rfl
@[simp] theorem State.updEngine_hostMem (s : State) (k : Nat) (f : MxEngine → MxEngine) :
    (s.updEngine k f).hostMem = s.hostMem := rfl
@[simp] theorem State.updEngine_isls (s : State) (k : Nat) (f : MxEngine → MxEngine) :
    (s.updEngine k f).isls = s.isls := rfl
@[simp] theorem State.updEngine_cores (s : State) (k : Nat) (f : MxEngine → MxEngine) :
    (s.updEngine k f).cores = s.cores := rfl
@[simp] theorem State.updEngine_engines (s : State) (k : Nat) (f : MxEngine → MxEngine) :
    (s.updEngine k f).engines = SMap.set {} s.engines k (f (s.engine k)) := rfl
@[simp] theorem State.updEngine_kernels (s : State) (k : Nat) (f : MxEngine → MxEngine) :
    (s.updEngine k f).kernels = s.kernels := rfl
@[simp] theorem State.updEngine_crews (s : State) (k : Nat) (f : MxEngine → MxEngine) :
    (s.updEngine k f).crews = s.crews := rfl
@[simp] theorem State.updEngine_teams (s : State) (k : Nat) (f : MxEngine → MxEngine) :
    (s.updEngine k f).teams = s.teams := rfl
@[simp] theorem State.updEngine_ops (s : State) (k : Nat) (f : MxEngine → MxEngine) :
    (s.updEngine k f).ops = s.ops := rfl
@[simp] theorem State.updEngine_msgs (s : State) (k : Nat) (f : MxEngine → MxEngine) :
    (s.updEngine k f).msgs = s.msgs := rfl
@[simp] theorem State.updEngine_pkts (s : State) (k : Nat) (f : MxEngine → MxEngine) :
    (s.updEngine k f).pkts = s.pkts := rfl
@[simp] theorem State.updEngine_collPkts (s : State) (k : Nat) (f : MxEngine → MxEngine) :
    (s.updEngine k f).collPkts = s.collPkts := rfl
@[simp] theorem State.updEngine_collInsts (s : State) (k : Nat) (f : MxEngine → MxEngine) :
    (s.updEngine k f).collInsts = s.collInsts := rfl
@[simp] theorem State.updEngine_streams (s : State) (k : Nat) (f : MxEngine → MxEngine) :
    (s.updEngine k f).streams = s.streams := rfl
@[simp] theorem State.updEngine_links (s : State) (k : Nat) (f : MxEngine → MxEngine) :
    (s.updEngine k f).links = s.links := rfl
@[simp] theorem State.updEngine_lanes (s : State) (k : Nat) (f : MxEngine → MxEngine) :
    (s.updEngine k f).lanes = s.lanes := rfl
@[simp] theorem State.updEngine_deadlines (s : State) (k : Nat) (f : MxEngine → MxEngine) :
    (s.updEngine k f).deadlines = s.deadlines := rfl
@[simp] theorem State.updEngine_cur (s : State) (k : Nat) (f : MxEngine → MxEngine) :
    (s.updEngine k f).cur = s.cur := rfl
@[simp] theorem State.updEngine_held (s : State) (k : Nat) (f : MxEngine → MxEngine) :
    (s.updEngine k f).held = s.held := rfl
@[simp] theorem State.updEngine_inbox (s : State) (k : Nat) (f : MxEngine → MxEngine) :
    (s.updEngine k f).inbox = s.inbox := rfl
@[simp] theorem State.updEngine_tick (s : State) (k : Nat) (f : MxEngine → MxEngine) :
    (s.updEngine k f).tick = s.tick := rfl
@[simp] theorem State.updEngine_uid (s : State) (k : Nat) (f : MxEngine → MxEngine) :
    (s.updEngine k f).uid = s.uid := rfl
@[simp] theorem State.updEngine_now (s : State) (k : Nat) (f : MxEngine → MxEngine) :
    (s.updEngine k f).now = s.now := rfl

/-! ## updQueue -/

@[simp] theorem State.updQueue_panel (s : State) (q : Nat) (f : Queue → Queue) :
    (s.updQueue q f).panel = s.panel := rfl
@[simp] theorem State.updQueue_host (s : State) (q : Nat) (f : Queue → Queue) : (s.updQueue q f).host = s.host := rfl
@[simp] theorem State.updQueue_queues (s : State) (q : Nat) (f : Queue → Queue) :
    (s.updQueue q f).queues = SMap.set {} s.queues q (f (s.queue q)) := rfl
@[simp] theorem State.updQueue_tenants (s : State) (q : Nat) (f : Queue → Queue) :
    (s.updQueue q f).tenants = s.tenants := rfl
@[simp] theorem State.updQueue_pcp (s : State) (q : Nat) (f : Queue → Queue) : (s.updQueue q f).pcp = s.pcp := rfl
@[simp] theorem State.updQueue_groupTab (s : State) (q : Nat) (f : Queue → Queue) :
    (s.updQueue q f).groupTab = s.groupTab := rfl
@[simp] theorem State.updQueue_mem (s : State) (q : Nat) (f : Queue → Queue) : (s.updQueue q f).mem = s.mem := rfl
@[simp] theorem State.updQueue_hostMem (s : State) (q : Nat) (f : Queue → Queue) :
    (s.updQueue q f).hostMem = s.hostMem := rfl
@[simp] theorem State.updQueue_isls (s : State) (q : Nat) (f : Queue → Queue) : (s.updQueue q f).isls = s.isls := rfl
@[simp] theorem State.updQueue_cores (s : State) (q : Nat) (f : Queue → Queue) :
    (s.updQueue q f).cores = s.cores := rfl
@[simp] theorem State.updQueue_engines (s : State) (q : Nat) (f : Queue → Queue) :
    (s.updQueue q f).engines = s.engines := rfl
@[simp] theorem State.updQueue_kernels (s : State) (q : Nat) (f : Queue → Queue) :
    (s.updQueue q f).kernels = s.kernels := rfl
@[simp] theorem State.updQueue_crews (s : State) (q : Nat) (f : Queue → Queue) :
    (s.updQueue q f).crews = s.crews := rfl
@[simp] theorem State.updQueue_teams (s : State) (q : Nat) (f : Queue → Queue) :
    (s.updQueue q f).teams = s.teams := rfl
@[simp] theorem State.updQueue_ops (s : State) (q : Nat) (f : Queue → Queue) : (s.updQueue q f).ops = s.ops := rfl
@[simp] theorem State.updQueue_msgs (s : State) (q : Nat) (f : Queue → Queue) : (s.updQueue q f).msgs = s.msgs := rfl
@[simp] theorem State.updQueue_pkts (s : State) (q : Nat) (f : Queue → Queue) : (s.updQueue q f).pkts = s.pkts := rfl
@[simp] theorem State.updQueue_collPkts (s : State) (q : Nat) (f : Queue → Queue) :
    (s.updQueue q f).collPkts = s.collPkts := rfl
@[simp] theorem State.updQueue_collInsts (s : State) (q : Nat) (f : Queue → Queue) :
    (s.updQueue q f).collInsts = s.collInsts := rfl
@[simp] theorem State.updQueue_streams (s : State) (q : Nat) (f : Queue → Queue) :
    (s.updQueue q f).streams = s.streams := rfl
@[simp] theorem State.updQueue_links (s : State) (q : Nat) (f : Queue → Queue) :
    (s.updQueue q f).links = s.links := rfl
@[simp] theorem State.updQueue_lanes (s : State) (q : Nat) (f : Queue → Queue) :
    (s.updQueue q f).lanes = s.lanes := rfl
@[simp] theorem State.updQueue_deadlines (s : State) (q : Nat) (f : Queue → Queue) :
    (s.updQueue q f).deadlines = s.deadlines := rfl
@[simp] theorem State.updQueue_cur (s : State) (q : Nat) (f : Queue → Queue) : (s.updQueue q f).cur = s.cur := rfl
@[simp] theorem State.updQueue_held (s : State) (q : Nat) (f : Queue → Queue) : (s.updQueue q f).held = s.held := rfl
@[simp] theorem State.updQueue_inbox (s : State) (q : Nat) (f : Queue → Queue) :
    (s.updQueue q f).inbox = s.inbox := rfl
@[simp] theorem State.updQueue_tick (s : State) (q : Nat) (f : Queue → Queue) : (s.updQueue q f).tick = s.tick := rfl
@[simp] theorem State.updQueue_uid (s : State) (q : Nat) (f : Queue → Queue) : (s.updQueue q f).uid = s.uid := rfl
@[simp] theorem State.updQueue_now (s : State) (q : Nat) (f : Queue → Queue) : (s.updQueue q f).now = s.now := rfl

/-! ## updTenant -/

@[simp] theorem State.updTenant_panel (s : State) (t : Nat) (f : Tenant → Tenant) :
    (s.updTenant t f).panel = s.panel := rfl
@[simp] theorem State.updTenant_host (s : State) (t : Nat) (f : Tenant → Tenant) :
    (s.updTenant t f).host = s.host := rfl
@[simp] theorem State.updTenant_queues (s : State) (t : Nat) (f : Tenant → Tenant) :
    (s.updTenant t f).queues = s.queues := rfl
@[simp] theorem State.updTenant_tenants (s : State) (t : Nat) (f : Tenant → Tenant) :
    (s.updTenant t f).tenants = SMap.set {} s.tenants t (f (s.tenant t)) := rfl
@[simp] theorem State.updTenant_pcp (s : State) (t : Nat) (f : Tenant → Tenant) : (s.updTenant t f).pcp = s.pcp := rfl
@[simp] theorem State.updTenant_groupTab (s : State) (t : Nat) (f : Tenant → Tenant) :
    (s.updTenant t f).groupTab = s.groupTab := rfl
@[simp] theorem State.updTenant_mem (s : State) (t : Nat) (f : Tenant → Tenant) : (s.updTenant t f).mem = s.mem := rfl
@[simp] theorem State.updTenant_hostMem (s : State) (t : Nat) (f : Tenant → Tenant) :
    (s.updTenant t f).hostMem = s.hostMem := rfl
@[simp] theorem State.updTenant_isls (s : State) (t : Nat) (f : Tenant → Tenant) :
    (s.updTenant t f).isls = s.isls := rfl
@[simp] theorem State.updTenant_cores (s : State) (t : Nat) (f : Tenant → Tenant) :
    (s.updTenant t f).cores = s.cores := rfl
@[simp] theorem State.updTenant_engines (s : State) (t : Nat) (f : Tenant → Tenant) :
    (s.updTenant t f).engines = s.engines := rfl
@[simp] theorem State.updTenant_kernels (s : State) (t : Nat) (f : Tenant → Tenant) :
    (s.updTenant t f).kernels = s.kernels := rfl
@[simp] theorem State.updTenant_crews (s : State) (t : Nat) (f : Tenant → Tenant) :
    (s.updTenant t f).crews = s.crews := rfl
@[simp] theorem State.updTenant_teams (s : State) (t : Nat) (f : Tenant → Tenant) :
    (s.updTenant t f).teams = s.teams := rfl
@[simp] theorem State.updTenant_ops (s : State) (t : Nat) (f : Tenant → Tenant) : (s.updTenant t f).ops = s.ops := rfl
@[simp] theorem State.updTenant_msgs (s : State) (t : Nat) (f : Tenant → Tenant) :
    (s.updTenant t f).msgs = s.msgs := rfl
@[simp] theorem State.updTenant_pkts (s : State) (t : Nat) (f : Tenant → Tenant) :
    (s.updTenant t f).pkts = s.pkts := rfl
@[simp] theorem State.updTenant_collPkts (s : State) (t : Nat) (f : Tenant → Tenant) :
    (s.updTenant t f).collPkts = s.collPkts := rfl
@[simp] theorem State.updTenant_collInsts (s : State) (t : Nat) (f : Tenant → Tenant) :
    (s.updTenant t f).collInsts = s.collInsts := rfl
@[simp] theorem State.updTenant_streams (s : State) (t : Nat) (f : Tenant → Tenant) :
    (s.updTenant t f).streams = s.streams := rfl
@[simp] theorem State.updTenant_links (s : State) (t : Nat) (f : Tenant → Tenant) :
    (s.updTenant t f).links = s.links := rfl
@[simp] theorem State.updTenant_lanes (s : State) (t : Nat) (f : Tenant → Tenant) :
    (s.updTenant t f).lanes = s.lanes := rfl
@[simp] theorem State.updTenant_deadlines (s : State) (t : Nat) (f : Tenant → Tenant) :
    (s.updTenant t f).deadlines = s.deadlines := rfl
@[simp] theorem State.updTenant_cur (s : State) (t : Nat) (f : Tenant → Tenant) : (s.updTenant t f).cur = s.cur := rfl
@[simp] theorem State.updTenant_held (s : State) (t : Nat) (f : Tenant → Tenant) :
    (s.updTenant t f).held = s.held := rfl
@[simp] theorem State.updTenant_inbox (s : State) (t : Nat) (f : Tenant → Tenant) :
    (s.updTenant t f).inbox = s.inbox := rfl
@[simp] theorem State.updTenant_tick (s : State) (t : Nat) (f : Tenant → Tenant) :
    (s.updTenant t f).tick = s.tick := rfl
@[simp] theorem State.updTenant_uid (s : State) (t : Nat) (f : Tenant → Tenant) : (s.updTenant t f).uid = s.uid := rfl
@[simp] theorem State.updTenant_now (s : State) (t : Nat) (f : Tenant → Tenant) : (s.updTenant t f).now = s.now := rfl

/-! ## updLink -/

@[simp] theorem State.updLink_panel (s : State) (i p : Nat) (f : Link → Link) :
    (s.updLink i p f).panel = s.panel := rfl
@[simp] theorem State.updLink_host (s : State) (i p : Nat) (f : Link → Link) : (s.updLink i p f).host = s.host := rfl
@[simp] theorem State.updLink_queues (s : State) (i p : Nat) (f : Link → Link) :
    (s.updLink i p f).queues = s.queues := rfl
@[simp] theorem State.updLink_tenants (s : State) (i p : Nat) (f : Link → Link) :
    (s.updLink i p f).tenants = s.tenants := rfl
@[simp] theorem State.updLink_pcp (s : State) (i p : Nat) (f : Link → Link) : (s.updLink i p f).pcp = s.pcp := rfl
@[simp] theorem State.updLink_groupTab (s : State) (i p : Nat) (f : Link → Link) :
    (s.updLink i p f).groupTab = s.groupTab := rfl
@[simp] theorem State.updLink_mem (s : State) (i p : Nat) (f : Link → Link) : (s.updLink i p f).mem = s.mem := rfl
@[simp] theorem State.updLink_hostMem (s : State) (i p : Nat) (f : Link → Link) :
    (s.updLink i p f).hostMem = s.hostMem := rfl
@[simp] theorem State.updLink_isls (s : State) (i p : Nat) (f : Link → Link) : (s.updLink i p f).isls = s.isls := rfl
@[simp] theorem State.updLink_cores (s : State) (i p : Nat) (f : Link → Link) :
    (s.updLink i p f).cores = s.cores := rfl
@[simp] theorem State.updLink_engines (s : State) (i p : Nat) (f : Link → Link) :
    (s.updLink i p f).engines = s.engines := rfl
@[simp] theorem State.updLink_kernels (s : State) (i p : Nat) (f : Link → Link) :
    (s.updLink i p f).kernels = s.kernels := rfl
@[simp] theorem State.updLink_crews (s : State) (i p : Nat) (f : Link → Link) :
    (s.updLink i p f).crews = s.crews := rfl
@[simp] theorem State.updLink_teams (s : State) (i p : Nat) (f : Link → Link) :
    (s.updLink i p f).teams = s.teams := rfl
@[simp] theorem State.updLink_ops (s : State) (i p : Nat) (f : Link → Link) : (s.updLink i p f).ops = s.ops := rfl
@[simp] theorem State.updLink_msgs (s : State) (i p : Nat) (f : Link → Link) : (s.updLink i p f).msgs = s.msgs := rfl
@[simp] theorem State.updLink_pkts (s : State) (i p : Nat) (f : Link → Link) : (s.updLink i p f).pkts = s.pkts := rfl
@[simp] theorem State.updLink_collPkts (s : State) (i p : Nat) (f : Link → Link) :
    (s.updLink i p f).collPkts = s.collPkts := rfl
@[simp] theorem State.updLink_collInsts (s : State) (i p : Nat) (f : Link → Link) :
    (s.updLink i p f).collInsts = s.collInsts := rfl
@[simp] theorem State.updLink_streams (s : State) (i p : Nat) (f : Link → Link) :
    (s.updLink i p f).streams = s.streams := rfl
@[simp] theorem State.updLink_links (s : State) (i p : Nat) (f : Link → Link) :
    (s.updLink i p f).links = SMap.set {} s.links (16 * i + p) (f (s.link i p)) := rfl
@[simp] theorem State.updLink_lanes (s : State) (i p : Nat) (f : Link → Link) :
    (s.updLink i p f).lanes = s.lanes := rfl
@[simp] theorem State.updLink_deadlines (s : State) (i p : Nat) (f : Link → Link) :
    (s.updLink i p f).deadlines = s.deadlines := rfl
@[simp] theorem State.updLink_cur (s : State) (i p : Nat) (f : Link → Link) : (s.updLink i p f).cur = s.cur := rfl
@[simp] theorem State.updLink_held (s : State) (i p : Nat) (f : Link → Link) : (s.updLink i p f).held = s.held := rfl
@[simp] theorem State.updLink_inbox (s : State) (i p : Nat) (f : Link → Link) :
    (s.updLink i p f).inbox = s.inbox := rfl
@[simp] theorem State.updLink_tick (s : State) (i p : Nat) (f : Link → Link) : (s.updLink i p f).tick = s.tick := rfl
@[simp] theorem State.updLink_uid (s : State) (i p : Nat) (f : Link → Link) : (s.updLink i p f).uid = s.uid := rfl
@[simp] theorem State.updLink_now (s : State) (i p : Nat) (f : Link → Link) : (s.updLink i p f).now = s.now := rfl

/-! ## updLanes -/

@[simp] theorem State.updLanes_panel (s : State) (i p : Nat) (f : Lanes → Lanes) :
    (s.updLanes i p f).panel = s.panel := rfl
@[simp] theorem State.updLanes_host (s : State) (i p : Nat) (f : Lanes → Lanes) :
    (s.updLanes i p f).host = s.host := rfl
@[simp] theorem State.updLanes_queues (s : State) (i p : Nat) (f : Lanes → Lanes) :
    (s.updLanes i p f).queues = s.queues := rfl
@[simp] theorem State.updLanes_tenants (s : State) (i p : Nat) (f : Lanes → Lanes) :
    (s.updLanes i p f).tenants = s.tenants := rfl
@[simp] theorem State.updLanes_pcp (s : State) (i p : Nat) (f : Lanes → Lanes) : (s.updLanes i p f).pcp = s.pcp := rfl
@[simp] theorem State.updLanes_groupTab (s : State) (i p : Nat) (f : Lanes → Lanes) :
    (s.updLanes i p f).groupTab = s.groupTab := rfl
@[simp] theorem State.updLanes_mem (s : State) (i p : Nat) (f : Lanes → Lanes) : (s.updLanes i p f).mem = s.mem := rfl
@[simp] theorem State.updLanes_hostMem (s : State) (i p : Nat) (f : Lanes → Lanes) :
    (s.updLanes i p f).hostMem = s.hostMem := rfl
@[simp] theorem State.updLanes_isls (s : State) (i p : Nat) (f : Lanes → Lanes) :
    (s.updLanes i p f).isls = s.isls := rfl
@[simp] theorem State.updLanes_cores (s : State) (i p : Nat) (f : Lanes → Lanes) :
    (s.updLanes i p f).cores = s.cores := rfl
@[simp] theorem State.updLanes_engines (s : State) (i p : Nat) (f : Lanes → Lanes) :
    (s.updLanes i p f).engines = s.engines := rfl
@[simp] theorem State.updLanes_kernels (s : State) (i p : Nat) (f : Lanes → Lanes) :
    (s.updLanes i p f).kernels = s.kernels := rfl
@[simp] theorem State.updLanes_crews (s : State) (i p : Nat) (f : Lanes → Lanes) :
    (s.updLanes i p f).crews = s.crews := rfl
@[simp] theorem State.updLanes_teams (s : State) (i p : Nat) (f : Lanes → Lanes) :
    (s.updLanes i p f).teams = s.teams := rfl
@[simp] theorem State.updLanes_ops (s : State) (i p : Nat) (f : Lanes → Lanes) : (s.updLanes i p f).ops = s.ops := rfl
@[simp] theorem State.updLanes_msgs (s : State) (i p : Nat) (f : Lanes → Lanes) :
    (s.updLanes i p f).msgs = s.msgs := rfl
@[simp] theorem State.updLanes_pkts (s : State) (i p : Nat) (f : Lanes → Lanes) :
    (s.updLanes i p f).pkts = s.pkts := rfl
@[simp] theorem State.updLanes_collPkts (s : State) (i p : Nat) (f : Lanes → Lanes) :
    (s.updLanes i p f).collPkts = s.collPkts := rfl
@[simp] theorem State.updLanes_collInsts (s : State) (i p : Nat) (f : Lanes → Lanes) :
    (s.updLanes i p f).collInsts = s.collInsts := rfl
@[simp] theorem State.updLanes_streams (s : State) (i p : Nat) (f : Lanes → Lanes) :
    (s.updLanes i p f).streams = s.streams := rfl
@[simp] theorem State.updLanes_links (s : State) (i p : Nat) (f : Lanes → Lanes) :
    (s.updLanes i p f).links = s.links := rfl
@[simp] theorem State.updLanes_lanes (s : State) (i p : Nat) (f : Lanes → Lanes) :
    (s.updLanes i p f).lanes = SMap.set {} s.lanes (16 * i + p) (f (s.laneOf i p)) := rfl
@[simp] theorem State.updLanes_deadlines (s : State) (i p : Nat) (f : Lanes → Lanes) :
    (s.updLanes i p f).deadlines = s.deadlines := rfl
@[simp] theorem State.updLanes_cur (s : State) (i p : Nat) (f : Lanes → Lanes) : (s.updLanes i p f).cur = s.cur := rfl
@[simp] theorem State.updLanes_held (s : State) (i p : Nat) (f : Lanes → Lanes) :
    (s.updLanes i p f).held = s.held := rfl
@[simp] theorem State.updLanes_inbox (s : State) (i p : Nat) (f : Lanes → Lanes) :
    (s.updLanes i p f).inbox = s.inbox := rfl
@[simp] theorem State.updLanes_tick (s : State) (i p : Nat) (f : Lanes → Lanes) :
    (s.updLanes i p f).tick = s.tick := rfl
@[simp] theorem State.updLanes_uid (s : State) (i p : Nat) (f : Lanes → Lanes) : (s.updLanes i p f).uid = s.uid := rfl
@[simp] theorem State.updLanes_now (s : State) (i p : Nat) (f : Lanes → Lanes) : (s.updLanes i p f).now = s.now := rfl

/-! ## updPcp -/

@[simp] theorem State.updPcp_panel (s : State) (f : Pcp → Pcp) : (s.updPcp f).panel = s.panel := rfl
@[simp] theorem State.updPcp_host (s : State) (f : Pcp → Pcp) : (s.updPcp f).host = s.host := rfl
@[simp] theorem State.updPcp_queues (s : State) (f : Pcp → Pcp) : (s.updPcp f).queues = s.queues := rfl
@[simp] theorem State.updPcp_tenants (s : State) (f : Pcp → Pcp) : (s.updPcp f).tenants = s.tenants := rfl
@[simp] theorem State.updPcp_pcp (s : State) (f : Pcp → Pcp) : (s.updPcp f).pcp = f s.pcp := rfl
@[simp] theorem State.updPcp_groupTab (s : State) (f : Pcp → Pcp) : (s.updPcp f).groupTab = s.groupTab := rfl
@[simp] theorem State.updPcp_mem (s : State) (f : Pcp → Pcp) : (s.updPcp f).mem = s.mem := rfl
@[simp] theorem State.updPcp_hostMem (s : State) (f : Pcp → Pcp) : (s.updPcp f).hostMem = s.hostMem := rfl
@[simp] theorem State.updPcp_isls (s : State) (f : Pcp → Pcp) : (s.updPcp f).isls = s.isls := rfl
@[simp] theorem State.updPcp_cores (s : State) (f : Pcp → Pcp) : (s.updPcp f).cores = s.cores := rfl
@[simp] theorem State.updPcp_engines (s : State) (f : Pcp → Pcp) : (s.updPcp f).engines = s.engines := rfl
@[simp] theorem State.updPcp_kernels (s : State) (f : Pcp → Pcp) : (s.updPcp f).kernels = s.kernels := rfl
@[simp] theorem State.updPcp_crews (s : State) (f : Pcp → Pcp) : (s.updPcp f).crews = s.crews := rfl
@[simp] theorem State.updPcp_teams (s : State) (f : Pcp → Pcp) : (s.updPcp f).teams = s.teams := rfl
@[simp] theorem State.updPcp_ops (s : State) (f : Pcp → Pcp) : (s.updPcp f).ops = s.ops := rfl
@[simp] theorem State.updPcp_msgs (s : State) (f : Pcp → Pcp) : (s.updPcp f).msgs = s.msgs := rfl
@[simp] theorem State.updPcp_pkts (s : State) (f : Pcp → Pcp) : (s.updPcp f).pkts = s.pkts := rfl
@[simp] theorem State.updPcp_collPkts (s : State) (f : Pcp → Pcp) : (s.updPcp f).collPkts = s.collPkts := rfl
@[simp] theorem State.updPcp_collInsts (s : State) (f : Pcp → Pcp) : (s.updPcp f).collInsts = s.collInsts := rfl
@[simp] theorem State.updPcp_streams (s : State) (f : Pcp → Pcp) : (s.updPcp f).streams = s.streams := rfl
@[simp] theorem State.updPcp_links (s : State) (f : Pcp → Pcp) : (s.updPcp f).links = s.links := rfl
@[simp] theorem State.updPcp_lanes (s : State) (f : Pcp → Pcp) : (s.updPcp f).lanes = s.lanes := rfl
@[simp] theorem State.updPcp_deadlines (s : State) (f : Pcp → Pcp) : (s.updPcp f).deadlines = s.deadlines := rfl
@[simp] theorem State.updPcp_cur (s : State) (f : Pcp → Pcp) : (s.updPcp f).cur = s.cur := rfl
@[simp] theorem State.updPcp_held (s : State) (f : Pcp → Pcp) : (s.updPcp f).held = s.held := rfl
@[simp] theorem State.updPcp_inbox (s : State) (f : Pcp → Pcp) : (s.updPcp f).inbox = s.inbox := rfl
@[simp] theorem State.updPcp_tick (s : State) (f : Pcp → Pcp) : (s.updPcp f).tick = s.tick := rfl
@[simp] theorem State.updPcp_uid (s : State) (f : Pcp → Pcp) : (s.updPcp f).uid = s.uid := rfl
@[simp] theorem State.updPcp_now (s : State) (f : Pcp → Pcp) : (s.updPcp f).now = s.now := rfl

/-! ## updHost -/

@[simp] theorem State.updHost_panel (s : State) (f : HostRegs → HostRegs) : (s.updHost f).panel = s.panel := rfl
@[simp] theorem State.updHost_host (s : State) (f : HostRegs → HostRegs) : (s.updHost f).host = f s.host := rfl
@[simp] theorem State.updHost_queues (s : State) (f : HostRegs → HostRegs) : (s.updHost f).queues = s.queues := rfl
@[simp] theorem State.updHost_tenants (s : State) (f : HostRegs → HostRegs) : (s.updHost f).tenants = s.tenants := rfl
@[simp] theorem State.updHost_pcp (s : State) (f : HostRegs → HostRegs) : (s.updHost f).pcp = s.pcp := rfl
@[simp] theorem State.updHost_groupTab (s : State) (f : HostRegs → HostRegs) :
    (s.updHost f).groupTab = s.groupTab := rfl
@[simp] theorem State.updHost_mem (s : State) (f : HostRegs → HostRegs) : (s.updHost f).mem = s.mem := rfl
@[simp] theorem State.updHost_hostMem (s : State) (f : HostRegs → HostRegs) : (s.updHost f).hostMem = s.hostMem := rfl
@[simp] theorem State.updHost_isls (s : State) (f : HostRegs → HostRegs) : (s.updHost f).isls = s.isls := rfl
@[simp] theorem State.updHost_cores (s : State) (f : HostRegs → HostRegs) : (s.updHost f).cores = s.cores := rfl
@[simp] theorem State.updHost_engines (s : State) (f : HostRegs → HostRegs) : (s.updHost f).engines = s.engines := rfl
@[simp] theorem State.updHost_kernels (s : State) (f : HostRegs → HostRegs) : (s.updHost f).kernels = s.kernels := rfl
@[simp] theorem State.updHost_crews (s : State) (f : HostRegs → HostRegs) : (s.updHost f).crews = s.crews := rfl
@[simp] theorem State.updHost_teams (s : State) (f : HostRegs → HostRegs) : (s.updHost f).teams = s.teams := rfl
@[simp] theorem State.updHost_ops (s : State) (f : HostRegs → HostRegs) : (s.updHost f).ops = s.ops := rfl
@[simp] theorem State.updHost_msgs (s : State) (f : HostRegs → HostRegs) : (s.updHost f).msgs = s.msgs := rfl
@[simp] theorem State.updHost_pkts (s : State) (f : HostRegs → HostRegs) : (s.updHost f).pkts = s.pkts := rfl
@[simp] theorem State.updHost_collPkts (s : State) (f : HostRegs → HostRegs) :
    (s.updHost f).collPkts = s.collPkts := rfl
@[simp] theorem State.updHost_collInsts (s : State) (f : HostRegs → HostRegs) :
    (s.updHost f).collInsts = s.collInsts := rfl
@[simp] theorem State.updHost_streams (s : State) (f : HostRegs → HostRegs) : (s.updHost f).streams = s.streams := rfl
@[simp] theorem State.updHost_links (s : State) (f : HostRegs → HostRegs) : (s.updHost f).links = s.links := rfl
@[simp] theorem State.updHost_lanes (s : State) (f : HostRegs → HostRegs) : (s.updHost f).lanes = s.lanes := rfl
@[simp] theorem State.updHost_deadlines (s : State) (f : HostRegs → HostRegs) :
    (s.updHost f).deadlines = s.deadlines := rfl
@[simp] theorem State.updHost_cur (s : State) (f : HostRegs → HostRegs) : (s.updHost f).cur = s.cur := rfl
@[simp] theorem State.updHost_held (s : State) (f : HostRegs → HostRegs) : (s.updHost f).held = s.held := rfl
@[simp] theorem State.updHost_inbox (s : State) (f : HostRegs → HostRegs) : (s.updHost f).inbox = s.inbox := rfl
@[simp] theorem State.updHost_tick (s : State) (f : HostRegs → HostRegs) : (s.updHost f).tick = s.tick := rfl
@[simp] theorem State.updHost_uid (s : State) (f : HostRegs → HostRegs) : (s.updHost f).uid = s.uid := rfl
@[simp] theorem State.updHost_now (s : State) (f : HostRegs → HostRegs) : (s.updHost f).now = s.now := rfl

/-! ## addOp -/

@[simp] theorem State.addOp_panel (s : State) (o : Op) : (s.addOp o).panel = s.panel := rfl
@[simp] theorem State.addOp_host (s : State) (o : Op) : (s.addOp o).host = s.host := rfl
@[simp] theorem State.addOp_queues (s : State) (o : Op) : (s.addOp o).queues = s.queues := rfl
@[simp] theorem State.addOp_tenants (s : State) (o : Op) : (s.addOp o).tenants = s.tenants := rfl
@[simp] theorem State.addOp_pcp (s : State) (o : Op) : (s.addOp o).pcp = s.pcp := rfl
@[simp] theorem State.addOp_groupTab (s : State) (o : Op) : (s.addOp o).groupTab = s.groupTab := rfl
@[simp] theorem State.addOp_mem (s : State) (o : Op) : (s.addOp o).mem = s.mem := rfl
@[simp] theorem State.addOp_hostMem (s : State) (o : Op) : (s.addOp o).hostMem = s.hostMem := rfl
@[simp] theorem State.addOp_isls (s : State) (o : Op) : (s.addOp o).isls = s.isls := rfl
@[simp] theorem State.addOp_cores (s : State) (o : Op) : (s.addOp o).cores = s.cores := rfl
@[simp] theorem State.addOp_engines (s : State) (o : Op) : (s.addOp o).engines = s.engines := rfl
@[simp] theorem State.addOp_kernels (s : State) (o : Op) : (s.addOp o).kernels = s.kernels := rfl
@[simp] theorem State.addOp_crews (s : State) (o : Op) : (s.addOp o).crews = s.crews := rfl
@[simp] theorem State.addOp_teams (s : State) (o : Op) : (s.addOp o).teams = s.teams := rfl
@[simp] theorem State.addOp_ops (s : State) (o : Op) : (s.addOp o).ops = s.ops.put s.uid o := rfl
@[simp] theorem State.addOp_msgs (s : State) (o : Op) : (s.addOp o).msgs = s.msgs := rfl
@[simp] theorem State.addOp_pkts (s : State) (o : Op) : (s.addOp o).pkts = s.pkts := rfl
@[simp] theorem State.addOp_collPkts (s : State) (o : Op) : (s.addOp o).collPkts = s.collPkts := rfl
@[simp] theorem State.addOp_collInsts (s : State) (o : Op) : (s.addOp o).collInsts = s.collInsts := rfl
@[simp] theorem State.addOp_streams (s : State) (o : Op) : (s.addOp o).streams = s.streams := rfl
@[simp] theorem State.addOp_links (s : State) (o : Op) : (s.addOp o).links = s.links := rfl
@[simp] theorem State.addOp_lanes (s : State) (o : Op) : (s.addOp o).lanes = s.lanes := rfl
@[simp] theorem State.addOp_deadlines (s : State) (o : Op) : (s.addOp o).deadlines = s.deadlines := rfl
@[simp] theorem State.addOp_cur (s : State) (o : Op) : (s.addOp o).cur = s.cur := rfl
@[simp] theorem State.addOp_held (s : State) (o : Op) : (s.addOp o).held = s.held := rfl
@[simp] theorem State.addOp_inbox (s : State) (o : Op) : (s.addOp o).inbox = s.inbox := rfl
@[simp] theorem State.addOp_tick (s : State) (o : Op) : (s.addOp o).tick = s.tick := rfl
@[simp] theorem State.addOp_uid (s : State) (o : Op) : (s.addOp o).uid = s.uid + 1 := rfl
@[simp] theorem State.addOp_now (s : State) (o : Op) : (s.addOp o).now = s.now := rfl

/-! ## addPkt -/

@[simp] theorem State.addPkt_panel (s : State) (p : Packet) : (s.addPkt p).panel = s.panel := rfl
@[simp] theorem State.addPkt_host (s : State) (p : Packet) : (s.addPkt p).host = s.host := rfl
@[simp] theorem State.addPkt_queues (s : State) (p : Packet) : (s.addPkt p).queues = s.queues := rfl
@[simp] theorem State.addPkt_tenants (s : State) (p : Packet) : (s.addPkt p).tenants = s.tenants := rfl
@[simp] theorem State.addPkt_pcp (s : State) (p : Packet) : (s.addPkt p).pcp = s.pcp := rfl
@[simp] theorem State.addPkt_groupTab (s : State) (p : Packet) : (s.addPkt p).groupTab = s.groupTab := rfl
@[simp] theorem State.addPkt_mem (s : State) (p : Packet) : (s.addPkt p).mem = s.mem := rfl
@[simp] theorem State.addPkt_hostMem (s : State) (p : Packet) : (s.addPkt p).hostMem = s.hostMem := rfl
@[simp] theorem State.addPkt_isls (s : State) (p : Packet) : (s.addPkt p).isls = s.isls := rfl
@[simp] theorem State.addPkt_cores (s : State) (p : Packet) : (s.addPkt p).cores = s.cores := rfl
@[simp] theorem State.addPkt_engines (s : State) (p : Packet) : (s.addPkt p).engines = s.engines := rfl
@[simp] theorem State.addPkt_kernels (s : State) (p : Packet) : (s.addPkt p).kernels = s.kernels := rfl
@[simp] theorem State.addPkt_crews (s : State) (p : Packet) : (s.addPkt p).crews = s.crews := rfl
@[simp] theorem State.addPkt_teams (s : State) (p : Packet) : (s.addPkt p).teams = s.teams := rfl
@[simp] theorem State.addPkt_ops (s : State) (p : Packet) : (s.addPkt p).ops = s.ops := rfl
@[simp] theorem State.addPkt_msgs (s : State) (p : Packet) : (s.addPkt p).msgs = s.msgs := rfl
@[simp] theorem State.addPkt_pkts (s : State) (p : Packet) : (s.addPkt p).pkts = s.pkts.put s.uid p := rfl
@[simp] theorem State.addPkt_collPkts (s : State) (p : Packet) : (s.addPkt p).collPkts = s.collPkts := rfl
@[simp] theorem State.addPkt_collInsts (s : State) (p : Packet) : (s.addPkt p).collInsts = s.collInsts := rfl
@[simp] theorem State.addPkt_streams (s : State) (p : Packet) : (s.addPkt p).streams = s.streams := rfl
@[simp] theorem State.addPkt_links (s : State) (p : Packet) : (s.addPkt p).links = s.links := rfl
@[simp] theorem State.addPkt_lanes (s : State) (p : Packet) : (s.addPkt p).lanes = s.lanes := rfl
@[simp] theorem State.addPkt_deadlines (s : State) (p : Packet) : (s.addPkt p).deadlines = s.deadlines := rfl
@[simp] theorem State.addPkt_cur (s : State) (p : Packet) : (s.addPkt p).cur = s.cur := rfl
@[simp] theorem State.addPkt_held (s : State) (p : Packet) : (s.addPkt p).held = s.held := rfl
@[simp] theorem State.addPkt_inbox (s : State) (p : Packet) : (s.addPkt p).inbox = s.inbox := rfl
@[simp] theorem State.addPkt_tick (s : State) (p : Packet) : (s.addPkt p).tick = s.tick := rfl
@[simp] theorem State.addPkt_uid (s : State) (p : Packet) : (s.addPkt p).uid = s.uid + 1 := rfl
@[simp] theorem State.addPkt_now (s : State) (p : Packet) : (s.addPkt p).now = s.now := rfl

/-! ## addMsg -/

@[simp] theorem State.addMsg_panel (s : State) (e : LaneEntry) : (s.addMsg e).panel = s.panel := rfl
@[simp] theorem State.addMsg_host (s : State) (e : LaneEntry) : (s.addMsg e).host = s.host := rfl
@[simp] theorem State.addMsg_queues (s : State) (e : LaneEntry) : (s.addMsg e).queues = s.queues := rfl
@[simp] theorem State.addMsg_tenants (s : State) (e : LaneEntry) : (s.addMsg e).tenants = s.tenants := rfl
@[simp] theorem State.addMsg_pcp (s : State) (e : LaneEntry) : (s.addMsg e).pcp = s.pcp := rfl
@[simp] theorem State.addMsg_groupTab (s : State) (e : LaneEntry) : (s.addMsg e).groupTab = s.groupTab := rfl
@[simp] theorem State.addMsg_mem (s : State) (e : LaneEntry) : (s.addMsg e).mem = s.mem := rfl
@[simp] theorem State.addMsg_hostMem (s : State) (e : LaneEntry) : (s.addMsg e).hostMem = s.hostMem := rfl
@[simp] theorem State.addMsg_isls (s : State) (e : LaneEntry) : (s.addMsg e).isls = s.isls := rfl
@[simp] theorem State.addMsg_cores (s : State) (e : LaneEntry) : (s.addMsg e).cores = s.cores := rfl
@[simp] theorem State.addMsg_engines (s : State) (e : LaneEntry) : (s.addMsg e).engines = s.engines := rfl
@[simp] theorem State.addMsg_kernels (s : State) (e : LaneEntry) : (s.addMsg e).kernels = s.kernels := rfl
@[simp] theorem State.addMsg_crews (s : State) (e : LaneEntry) : (s.addMsg e).crews = s.crews := rfl
@[simp] theorem State.addMsg_teams (s : State) (e : LaneEntry) : (s.addMsg e).teams = s.teams := rfl
@[simp] theorem State.addMsg_ops (s : State) (e : LaneEntry) : (s.addMsg e).ops = s.ops := rfl
@[simp] theorem State.addMsg_msgs (s : State) (e : LaneEntry) : (s.addMsg e).msgs = s.msgs.put s.uid e := rfl
@[simp] theorem State.addMsg_pkts (s : State) (e : LaneEntry) : (s.addMsg e).pkts = s.pkts := rfl
@[simp] theorem State.addMsg_collPkts (s : State) (e : LaneEntry) : (s.addMsg e).collPkts = s.collPkts := rfl
@[simp] theorem State.addMsg_collInsts (s : State) (e : LaneEntry) : (s.addMsg e).collInsts = s.collInsts := rfl
@[simp] theorem State.addMsg_streams (s : State) (e : LaneEntry) : (s.addMsg e).streams = s.streams := rfl
@[simp] theorem State.addMsg_links (s : State) (e : LaneEntry) : (s.addMsg e).links = s.links := rfl
@[simp] theorem State.addMsg_lanes (s : State) (e : LaneEntry) : (s.addMsg e).lanes = s.lanes := rfl
@[simp] theorem State.addMsg_deadlines (s : State) (e : LaneEntry) : (s.addMsg e).deadlines = s.deadlines := rfl
@[simp] theorem State.addMsg_cur (s : State) (e : LaneEntry) : (s.addMsg e).cur = s.cur := rfl
@[simp] theorem State.addMsg_held (s : State) (e : LaneEntry) : (s.addMsg e).held = s.held := rfl
@[simp] theorem State.addMsg_inbox (s : State) (e : LaneEntry) : (s.addMsg e).inbox = s.inbox := rfl
@[simp] theorem State.addMsg_tick (s : State) (e : LaneEntry) : (s.addMsg e).tick = s.tick := rfl
@[simp] theorem State.addMsg_uid (s : State) (e : LaneEntry) : (s.addMsg e).uid = s.uid + 1 := rfl
@[simp] theorem State.addMsg_now (s : State) (e : LaneEntry) : (s.addMsg e).now = s.now := rfl

/-! ## wr -/

@[simp] theorem State.wr_panel (s : State) (a : Nat) (bs : List Byte) : (s.wr a bs).panel = s.panel := rfl
@[simp] theorem State.wr_host (s : State) (a : Nat) (bs : List Byte) : (s.wr a bs).host = s.host := rfl
@[simp] theorem State.wr_queues (s : State) (a : Nat) (bs : List Byte) : (s.wr a bs).queues = s.queues := rfl
@[simp] theorem State.wr_tenants (s : State) (a : Nat) (bs : List Byte) : (s.wr a bs).tenants = s.tenants := rfl
@[simp] theorem State.wr_pcp (s : State) (a : Nat) (bs : List Byte) : (s.wr a bs).pcp = s.pcp := rfl
@[simp] theorem State.wr_groupTab (s : State) (a : Nat) (bs : List Byte) : (s.wr a bs).groupTab = s.groupTab := rfl
@[simp] theorem State.wr_mem (s : State) (a : Nat) (bs : List Byte) : (s.wr a bs).mem = memPut s.mem a bs := rfl
@[simp] theorem State.wr_hostMem (s : State) (a : Nat) (bs : List Byte) : (s.wr a bs).hostMem = s.hostMem := rfl
@[simp] theorem State.wr_isls (s : State) (a : Nat) (bs : List Byte) : (s.wr a bs).isls = s.isls := rfl
@[simp] theorem State.wr_cores (s : State) (a : Nat) (bs : List Byte) : (s.wr a bs).cores = s.cores := rfl
@[simp] theorem State.wr_engines (s : State) (a : Nat) (bs : List Byte) : (s.wr a bs).engines = s.engines := rfl
@[simp] theorem State.wr_kernels (s : State) (a : Nat) (bs : List Byte) : (s.wr a bs).kernels = s.kernels := rfl
@[simp] theorem State.wr_crews (s : State) (a : Nat) (bs : List Byte) : (s.wr a bs).crews = s.crews := rfl
@[simp] theorem State.wr_teams (s : State) (a : Nat) (bs : List Byte) : (s.wr a bs).teams = s.teams := rfl
@[simp] theorem State.wr_ops (s : State) (a : Nat) (bs : List Byte) : (s.wr a bs).ops = s.ops := rfl
@[simp] theorem State.wr_msgs (s : State) (a : Nat) (bs : List Byte) : (s.wr a bs).msgs = s.msgs := rfl
@[simp] theorem State.wr_pkts (s : State) (a : Nat) (bs : List Byte) : (s.wr a bs).pkts = s.pkts := rfl
@[simp] theorem State.wr_collPkts (s : State) (a : Nat) (bs : List Byte) : (s.wr a bs).collPkts = s.collPkts := rfl
@[simp] theorem State.wr_collInsts (s : State) (a : Nat) (bs : List Byte) : (s.wr a bs).collInsts = s.collInsts := rfl
@[simp] theorem State.wr_streams (s : State) (a : Nat) (bs : List Byte) : (s.wr a bs).streams = s.streams := rfl
@[simp] theorem State.wr_links (s : State) (a : Nat) (bs : List Byte) : (s.wr a bs).links = s.links := rfl
@[simp] theorem State.wr_lanes (s : State) (a : Nat) (bs : List Byte) : (s.wr a bs).lanes = s.lanes := rfl
@[simp] theorem State.wr_deadlines (s : State) (a : Nat) (bs : List Byte) : (s.wr a bs).deadlines = s.deadlines := rfl
@[simp] theorem State.wr_cur (s : State) (a : Nat) (bs : List Byte) : (s.wr a bs).cur = s.cur := rfl
@[simp] theorem State.wr_held (s : State) (a : Nat) (bs : List Byte) : (s.wr a bs).held = s.held := rfl
@[simp] theorem State.wr_inbox (s : State) (a : Nat) (bs : List Byte) : (s.wr a bs).inbox = s.inbox := rfl
@[simp] theorem State.wr_tick (s : State) (a : Nat) (bs : List Byte) : (s.wr a bs).tick = s.tick := rfl
@[simp] theorem State.wr_uid (s : State) (a : Nat) (bs : List Byte) : (s.wr a bs).uid = s.uid := rfl
@[simp] theorem State.wr_now (s : State) (a : Nat) (bs : List Byte) : (s.wr a bs).now = s.now := rfl

/-! ## wrNat -/

@[simp] theorem State.wrNat_panel (s : State) (a n x : Nat) : (s.wrNat a n x).panel = s.panel := rfl
@[simp] theorem State.wrNat_host (s : State) (a n x : Nat) : (s.wrNat a n x).host = s.host := rfl
@[simp] theorem State.wrNat_queues (s : State) (a n x : Nat) : (s.wrNat a n x).queues = s.queues := rfl
@[simp] theorem State.wrNat_tenants (s : State) (a n x : Nat) : (s.wrNat a n x).tenants = s.tenants := rfl
@[simp] theorem State.wrNat_pcp (s : State) (a n x : Nat) : (s.wrNat a n x).pcp = s.pcp := rfl
@[simp] theorem State.wrNat_groupTab (s : State) (a n x : Nat) : (s.wrNat a n x).groupTab = s.groupTab := rfl
@[simp] theorem State.wrNat_mem (s : State) (a n x : Nat) : (s.wrNat a n x).mem = memPut s.mem a (leBytes n x) := rfl
@[simp] theorem State.wrNat_hostMem (s : State) (a n x : Nat) : (s.wrNat a n x).hostMem = s.hostMem := rfl
@[simp] theorem State.wrNat_isls (s : State) (a n x : Nat) : (s.wrNat a n x).isls = s.isls := rfl
@[simp] theorem State.wrNat_cores (s : State) (a n x : Nat) : (s.wrNat a n x).cores = s.cores := rfl
@[simp] theorem State.wrNat_engines (s : State) (a n x : Nat) : (s.wrNat a n x).engines = s.engines := rfl
@[simp] theorem State.wrNat_kernels (s : State) (a n x : Nat) : (s.wrNat a n x).kernels = s.kernels := rfl
@[simp] theorem State.wrNat_crews (s : State) (a n x : Nat) : (s.wrNat a n x).crews = s.crews := rfl
@[simp] theorem State.wrNat_teams (s : State) (a n x : Nat) : (s.wrNat a n x).teams = s.teams := rfl
@[simp] theorem State.wrNat_ops (s : State) (a n x : Nat) : (s.wrNat a n x).ops = s.ops := rfl
@[simp] theorem State.wrNat_msgs (s : State) (a n x : Nat) : (s.wrNat a n x).msgs = s.msgs := rfl
@[simp] theorem State.wrNat_pkts (s : State) (a n x : Nat) : (s.wrNat a n x).pkts = s.pkts := rfl
@[simp] theorem State.wrNat_collPkts (s : State) (a n x : Nat) : (s.wrNat a n x).collPkts = s.collPkts := rfl
@[simp] theorem State.wrNat_collInsts (s : State) (a n x : Nat) : (s.wrNat a n x).collInsts = s.collInsts := rfl
@[simp] theorem State.wrNat_streams (s : State) (a n x : Nat) : (s.wrNat a n x).streams = s.streams := rfl
@[simp] theorem State.wrNat_links (s : State) (a n x : Nat) : (s.wrNat a n x).links = s.links := rfl
@[simp] theorem State.wrNat_lanes (s : State) (a n x : Nat) : (s.wrNat a n x).lanes = s.lanes := rfl
@[simp] theorem State.wrNat_deadlines (s : State) (a n x : Nat) : (s.wrNat a n x).deadlines = s.deadlines := rfl
@[simp] theorem State.wrNat_cur (s : State) (a n x : Nat) : (s.wrNat a n x).cur = s.cur := rfl
@[simp] theorem State.wrNat_held (s : State) (a n x : Nat) : (s.wrNat a n x).held = s.held := rfl
@[simp] theorem State.wrNat_inbox (s : State) (a n x : Nat) : (s.wrNat a n x).inbox = s.inbox := rfl
@[simp] theorem State.wrNat_tick (s : State) (a n x : Nat) : (s.wrNat a n x).tick = s.tick := rfl
@[simp] theorem State.wrNat_uid (s : State) (a n x : Nat) : (s.wrNat a n x).uid = s.uid := rfl
@[simp] theorem State.wrNat_now (s : State) (a n x : Nat) : (s.wrNat a n x).now = s.now := rfl

/-! ## Readings -/

@[simp] theorem State.updIsl_same (s : State) (i : Nat) (f : Island → Island) : (s.updIsl i f).isl i = f (s.isl i) :=
  SMap.get_set_same ..
theorem State.updIsl_other (s : State) {i j : Nat} (f : Island → Island) (h : j ≠ i) : (s.updIsl i f).isl j = s.isl j :=
  SMap.get_set_other _ _ _ h
@[simp] theorem State.setTeam_isl (s : State) (u : Nat) (t : Team) (j : Nat) :
    (s.setTeam u t).isl j = s.isl j := rfl
@[simp] theorem State.updTeam_isl (s : State) (u : Nat) (f : Team → Team) (j : Nat) :
    (s.updTeam u f).isl j = s.isl j := rfl
@[simp] theorem State.updCrew_isl (s : State) (c : Nat) (f : Crew → Crew) (j : Nat) :
    (s.updCrew c f).isl j = s.isl j := rfl
@[simp] theorem State.updKernel_isl (s : State) (k : Nat) (f : Kernel → Kernel) (j : Nat) :
    (s.updKernel k f).isl j = s.isl j := rfl
@[simp] theorem State.updCore_isl (s : State) (k : Nat) (f : Core → Core) (j : Nat) :
    (s.updCore k f).isl j = s.isl j := rfl
@[simp] theorem State.updEngine_isl (s : State) (k : Nat) (f : MxEngine → MxEngine) (j : Nat) :
    (s.updEngine k f).isl j = s.isl j := rfl
@[simp] theorem State.updQueue_isl (s : State) (q : Nat) (f : Queue → Queue) (j : Nat) :
    (s.updQueue q f).isl j = s.isl j := rfl
@[simp] theorem State.updTenant_isl (s : State) (t : Nat) (f : Tenant → Tenant) (j : Nat) :
    (s.updTenant t f).isl j = s.isl j := rfl
@[simp] theorem State.updLink_isl (s : State) (d p : Nat) (f : Link → Link) (i : Nat) :
    (s.updLink d p f).isl i = s.isl i := rfl
@[simp] theorem State.updLanes_isl (s : State) (d p : Nat) (f : Lanes → Lanes) (i : Nat) :
    (s.updLanes d p f).isl i = s.isl i := rfl
@[simp] theorem State.updPcp_isl (s : State) (f : Pcp → Pcp) (j : Nat) :
    (s.updPcp f).isl j = s.isl j := rfl
@[simp] theorem State.updHost_isl (s : State) (f : HostRegs → HostRegs) (j : Nat) :
    (s.updHost f).isl j = s.isl j := rfl
@[simp] theorem State.addOp_isl (s : State) (o : Op) (j : Nat) :
    (s.addOp o).isl j = s.isl j := rfl
@[simp] theorem State.addPkt_isl (s : State) (p : Packet) (j : Nat) :
    (s.addPkt p).isl j = s.isl j := rfl
@[simp] theorem State.addMsg_isl (s : State) (e : LaneEntry) (j : Nat) :
    (s.addMsg e).isl j = s.isl j := rfl
@[simp] theorem State.wr_isl (s : State) (a : Nat) (bs : List Byte) (j : Nat) :
    (s.wr a bs).isl j = s.isl j := rfl
@[simp] theorem State.wrNat_isl (s : State) (a n x : Nat) (j : Nat) :
    (s.wrNat a n x).isl j = s.isl j := rfl
@[simp] theorem State.updCore_same (s : State) (i : Nat) (f : Core → Core) : (s.updCore i f).core i = f (s.core i) :=
  SMap.get_set_same ..
theorem State.updCore_other (s : State) {i j : Nat} (f : Core → Core) (h : j ≠ i) : (s.updCore i f).core j = s.core j :=
  SMap.get_set_other _ _ _ h
@[simp] theorem State.setTeam_core (s : State) (u : Nat) (t : Team) (j : Nat) :
    (s.setTeam u t).core j = s.core j := rfl
@[simp] theorem State.updTeam_core (s : State) (u : Nat) (f : Team → Team) (j : Nat) :
    (s.updTeam u f).core j = s.core j := rfl
@[simp] theorem State.updCrew_core (s : State) (c : Nat) (f : Crew → Crew) (j : Nat) :
    (s.updCrew c f).core j = s.core j := rfl
@[simp] theorem State.updKernel_core (s : State) (k : Nat) (f : Kernel → Kernel) (j : Nat) :
    (s.updKernel k f).core j = s.core j := rfl
@[simp] theorem State.updIsl_core (s : State) (i : Nat) (f : Island → Island) (j : Nat) :
    (s.updIsl i f).core j = s.core j := rfl
@[simp] theorem State.updEngine_core (s : State) (k : Nat) (f : MxEngine → MxEngine) (j : Nat) :
    (s.updEngine k f).core j = s.core j := rfl
@[simp] theorem State.updQueue_core (s : State) (q : Nat) (f : Queue → Queue) (j : Nat) :
    (s.updQueue q f).core j = s.core j := rfl
@[simp] theorem State.updTenant_core (s : State) (t : Nat) (f : Tenant → Tenant) (j : Nat) :
    (s.updTenant t f).core j = s.core j := rfl
@[simp] theorem State.updLink_core (s : State) (d p : Nat) (f : Link → Link) (i : Nat) :
    (s.updLink d p f).core i = s.core i := rfl
@[simp] theorem State.updLanes_core (s : State) (d p : Nat) (f : Lanes → Lanes) (i : Nat) :
    (s.updLanes d p f).core i = s.core i := rfl
@[simp] theorem State.updPcp_core (s : State) (f : Pcp → Pcp) (j : Nat) :
    (s.updPcp f).core j = s.core j := rfl
@[simp] theorem State.updHost_core (s : State) (f : HostRegs → HostRegs) (j : Nat) :
    (s.updHost f).core j = s.core j := rfl
@[simp] theorem State.addOp_core (s : State) (o : Op) (j : Nat) :
    (s.addOp o).core j = s.core j := rfl
@[simp] theorem State.addPkt_core (s : State) (p : Packet) (j : Nat) :
    (s.addPkt p).core j = s.core j := rfl
@[simp] theorem State.addMsg_core (s : State) (e : LaneEntry) (j : Nat) :
    (s.addMsg e).core j = s.core j := rfl
@[simp] theorem State.wr_core (s : State) (a : Nat) (bs : List Byte) (j : Nat) :
    (s.wr a bs).core j = s.core j := rfl
@[simp] theorem State.wrNat_core (s : State) (a n x : Nat) (j : Nat) :
    (s.wrNat a n x).core j = s.core j := rfl
@[simp] theorem State.updEngine_same (s : State) (i : Nat) (f : MxEngine → MxEngine) : (s.updEngine i f).engine i = f (s.engine i) :=
  SMap.get_set_same ..
theorem State.updEngine_other (s : State) {i j : Nat} (f : MxEngine → MxEngine) (h : j ≠ i) : (s.updEngine i f).engine j = s.engine j :=
  SMap.get_set_other _ _ _ h
@[simp] theorem State.setTeam_engine (s : State) (u : Nat) (t : Team) (j : Nat) :
    (s.setTeam u t).engine j = s.engine j := rfl
@[simp] theorem State.updTeam_engine (s : State) (u : Nat) (f : Team → Team) (j : Nat) :
    (s.updTeam u f).engine j = s.engine j := rfl
@[simp] theorem State.updCrew_engine (s : State) (c : Nat) (f : Crew → Crew) (j : Nat) :
    (s.updCrew c f).engine j = s.engine j := rfl
@[simp] theorem State.updKernel_engine (s : State) (k : Nat) (f : Kernel → Kernel) (j : Nat) :
    (s.updKernel k f).engine j = s.engine j := rfl
@[simp] theorem State.updIsl_engine (s : State) (i : Nat) (f : Island → Island) (j : Nat) :
    (s.updIsl i f).engine j = s.engine j := rfl
@[simp] theorem State.updCore_engine (s : State) (k : Nat) (f : Core → Core) (j : Nat) :
    (s.updCore k f).engine j = s.engine j := rfl
@[simp] theorem State.updQueue_engine (s : State) (q : Nat) (f : Queue → Queue) (j : Nat) :
    (s.updQueue q f).engine j = s.engine j := rfl
@[simp] theorem State.updTenant_engine (s : State) (t : Nat) (f : Tenant → Tenant) (j : Nat) :
    (s.updTenant t f).engine j = s.engine j := rfl
@[simp] theorem State.updLink_engine (s : State) (d p : Nat) (f : Link → Link) (i : Nat) :
    (s.updLink d p f).engine i = s.engine i := rfl
@[simp] theorem State.updLanes_engine (s : State) (d p : Nat) (f : Lanes → Lanes) (i : Nat) :
    (s.updLanes d p f).engine i = s.engine i := rfl
@[simp] theorem State.updPcp_engine (s : State) (f : Pcp → Pcp) (j : Nat) :
    (s.updPcp f).engine j = s.engine j := rfl
@[simp] theorem State.updHost_engine (s : State) (f : HostRegs → HostRegs) (j : Nat) :
    (s.updHost f).engine j = s.engine j := rfl
@[simp] theorem State.addOp_engine (s : State) (o : Op) (j : Nat) :
    (s.addOp o).engine j = s.engine j := rfl
@[simp] theorem State.addPkt_engine (s : State) (p : Packet) (j : Nat) :
    (s.addPkt p).engine j = s.engine j := rfl
@[simp] theorem State.addMsg_engine (s : State) (e : LaneEntry) (j : Nat) :
    (s.addMsg e).engine j = s.engine j := rfl
@[simp] theorem State.wr_engine (s : State) (a : Nat) (bs : List Byte) (j : Nat) :
    (s.wr a bs).engine j = s.engine j := rfl
@[simp] theorem State.wrNat_engine (s : State) (a n x : Nat) (j : Nat) :
    (s.wrNat a n x).engine j = s.engine j := rfl
@[simp] theorem State.updQueue_same (s : State) (i : Nat) (f : Queue → Queue) : (s.updQueue i f).queue i = f (s.queue i) :=
  SMap.get_set_same ..
theorem State.updQueue_other (s : State) {i j : Nat} (f : Queue → Queue) (h : j ≠ i) : (s.updQueue i f).queue j = s.queue j :=
  SMap.get_set_other _ _ _ h
@[simp] theorem State.setTeam_queue (s : State) (u : Nat) (t : Team) (j : Nat) :
    (s.setTeam u t).queue j = s.queue j := rfl
@[simp] theorem State.updTeam_queue (s : State) (u : Nat) (f : Team → Team) (j : Nat) :
    (s.updTeam u f).queue j = s.queue j := rfl
@[simp] theorem State.updCrew_queue (s : State) (c : Nat) (f : Crew → Crew) (j : Nat) :
    (s.updCrew c f).queue j = s.queue j := rfl
@[simp] theorem State.updKernel_queue (s : State) (k : Nat) (f : Kernel → Kernel) (j : Nat) :
    (s.updKernel k f).queue j = s.queue j := rfl
@[simp] theorem State.updIsl_queue (s : State) (i : Nat) (f : Island → Island) (j : Nat) :
    (s.updIsl i f).queue j = s.queue j := rfl
@[simp] theorem State.updCore_queue (s : State) (k : Nat) (f : Core → Core) (j : Nat) :
    (s.updCore k f).queue j = s.queue j := rfl
@[simp] theorem State.updEngine_queue (s : State) (k : Nat) (f : MxEngine → MxEngine) (j : Nat) :
    (s.updEngine k f).queue j = s.queue j := rfl
@[simp] theorem State.updTenant_queue (s : State) (t : Nat) (f : Tenant → Tenant) (j : Nat) :
    (s.updTenant t f).queue j = s.queue j := rfl
@[simp] theorem State.updLink_queue (s : State) (d p : Nat) (f : Link → Link) (i : Nat) :
    (s.updLink d p f).queue i = s.queue i := rfl
@[simp] theorem State.updLanes_queue (s : State) (d p : Nat) (f : Lanes → Lanes) (i : Nat) :
    (s.updLanes d p f).queue i = s.queue i := rfl
@[simp] theorem State.updPcp_queue (s : State) (f : Pcp → Pcp) (j : Nat) :
    (s.updPcp f).queue j = s.queue j := rfl
@[simp] theorem State.updHost_queue (s : State) (f : HostRegs → HostRegs) (j : Nat) :
    (s.updHost f).queue j = s.queue j := rfl
@[simp] theorem State.addOp_queue (s : State) (o : Op) (j : Nat) :
    (s.addOp o).queue j = s.queue j := rfl
@[simp] theorem State.addPkt_queue (s : State) (p : Packet) (j : Nat) :
    (s.addPkt p).queue j = s.queue j := rfl
@[simp] theorem State.addMsg_queue (s : State) (e : LaneEntry) (j : Nat) :
    (s.addMsg e).queue j = s.queue j := rfl
@[simp] theorem State.wr_queue (s : State) (a : Nat) (bs : List Byte) (j : Nat) :
    (s.wr a bs).queue j = s.queue j := rfl
@[simp] theorem State.wrNat_queue (s : State) (a n x : Nat) (j : Nat) :
    (s.wrNat a n x).queue j = s.queue j := rfl
@[simp] theorem State.updTenant_same (s : State) (i : Nat) (f : Tenant → Tenant) : (s.updTenant i f).tenant i = f (s.tenant i) :=
  SMap.get_set_same ..
theorem State.updTenant_other (s : State) {i j : Nat} (f : Tenant → Tenant) (h : j ≠ i) : (s.updTenant i f).tenant j = s.tenant j :=
  SMap.get_set_other _ _ _ h
@[simp] theorem State.setTeam_tenant (s : State) (u : Nat) (t : Team) (j : Nat) :
    (s.setTeam u t).tenant j = s.tenant j := rfl
@[simp] theorem State.updTeam_tenant (s : State) (u : Nat) (f : Team → Team) (j : Nat) :
    (s.updTeam u f).tenant j = s.tenant j := rfl
@[simp] theorem State.updCrew_tenant (s : State) (c : Nat) (f : Crew → Crew) (j : Nat) :
    (s.updCrew c f).tenant j = s.tenant j := rfl
@[simp] theorem State.updKernel_tenant (s : State) (k : Nat) (f : Kernel → Kernel) (j : Nat) :
    (s.updKernel k f).tenant j = s.tenant j := rfl
@[simp] theorem State.updIsl_tenant (s : State) (i : Nat) (f : Island → Island) (j : Nat) :
    (s.updIsl i f).tenant j = s.tenant j := rfl
@[simp] theorem State.updCore_tenant (s : State) (k : Nat) (f : Core → Core) (j : Nat) :
    (s.updCore k f).tenant j = s.tenant j := rfl
@[simp] theorem State.updEngine_tenant (s : State) (k : Nat) (f : MxEngine → MxEngine) (j : Nat) :
    (s.updEngine k f).tenant j = s.tenant j := rfl
@[simp] theorem State.updQueue_tenant (s : State) (q : Nat) (f : Queue → Queue) (j : Nat) :
    (s.updQueue q f).tenant j = s.tenant j := rfl
@[simp] theorem State.updLink_tenant (s : State) (d p : Nat) (f : Link → Link) (i : Nat) :
    (s.updLink d p f).tenant i = s.tenant i := rfl
@[simp] theorem State.updLanes_tenant (s : State) (d p : Nat) (f : Lanes → Lanes) (i : Nat) :
    (s.updLanes d p f).tenant i = s.tenant i := rfl
@[simp] theorem State.updPcp_tenant (s : State) (f : Pcp → Pcp) (j : Nat) :
    (s.updPcp f).tenant j = s.tenant j := rfl
@[simp] theorem State.updHost_tenant (s : State) (f : HostRegs → HostRegs) (j : Nat) :
    (s.updHost f).tenant j = s.tenant j := rfl
@[simp] theorem State.addOp_tenant (s : State) (o : Op) (j : Nat) :
    (s.addOp o).tenant j = s.tenant j := rfl
@[simp] theorem State.addPkt_tenant (s : State) (p : Packet) (j : Nat) :
    (s.addPkt p).tenant j = s.tenant j := rfl
@[simp] theorem State.addMsg_tenant (s : State) (e : LaneEntry) (j : Nat) :
    (s.addMsg e).tenant j = s.tenant j := rfl
@[simp] theorem State.wr_tenant (s : State) (a : Nat) (bs : List Byte) (j : Nat) :
    (s.wr a bs).tenant j = s.tenant j := rfl
@[simp] theorem State.wrNat_tenant (s : State) (a n x : Nat) (j : Nat) :
    (s.wrNat a n x).tenant j = s.tenant j := rfl
@[simp] theorem State.updLink_same (s : State) (i p : Nat) (f : Link → Link) :
    (s.updLink i p f).link i p = f (s.link i p) := SMap.get_set_same ..
theorem State.updLink_other (s : State) {i p j q : Nat} (f : Link → Link) (h : 16 * j + q ≠ 16 * i + p) :
    (s.updLink i p f).link j q = s.link j q := SMap.get_set_other _ _ _ h
@[simp] theorem State.updLanes_same (s : State) (i p : Nat) (f : Lanes → Lanes) :
    (s.updLanes i p f).laneOf i p = f (s.laneOf i p) := SMap.get_set_same ..
theorem State.updLanes_other (s : State) {i p j q : Nat} (f : Lanes → Lanes) (h : 16 * j + q ≠ 16 * i + p) :
    (s.updLanes i p f).laneOf j q = s.laneOf j q := SMap.get_set_other _ _ _ h

@[simp] theorem State.setTeam_find (s : State) (u : Nat) (t : Team) : (s.setTeam u t).teams.find? u = some t :=
  SMap.find?_put_same ..
theorem State.setTeam_find_other (s : State) {u v : Nat} (t : Team) (h : v ≠ u) :
    (s.setTeam u t).teams.find? v = s.teams.find? v := SMap.find?_put_other _ _ h
@[simp] theorem State.updTeam_find (s : State) (u : Nat) (f : Team → Team) :
    (s.updTeam u f).teams.find? u = (s.teams.find? u).map f := SMap.find?_upd_same ..
theorem State.updTeam_find_other (s : State) {u v : Nat} (f : Team → Team) (h : v ≠ u) :
    (s.updTeam u f).teams.find? v = s.teams.find? v := SMap.find?_upd_other _ _ h
@[simp] theorem State.updCrew_find (s : State) (u : Nat) (f : Crew → Crew) :
    (s.updCrew u f).crews.find? u = (s.crews.find? u).map f := SMap.find?_upd_same ..
theorem State.updCrew_find_other (s : State) {u v : Nat} (f : Crew → Crew) (h : v ≠ u) :
    (s.updCrew u f).crews.find? v = s.crews.find? v := SMap.find?_upd_other _ _ h
@[simp] theorem State.updKernel_find (s : State) (u : Nat) (f : Kernel → Kernel) :
    (s.updKernel u f).kernels.find? u = (s.kernels.find? u).map f := SMap.find?_upd_same ..
theorem State.updKernel_find_other (s : State) {u v : Nat} (f : Kernel → Kernel) (h : v ≠ u) :
    (s.updKernel u f).kernels.find? v = s.kernels.find? v := SMap.find?_upd_other _ _ h
@[simp] theorem State.addOp_find (s : State) (o : Op) : (s.addOp o).ops.find? s.uid = some o := SMap.find?_put_same ..
@[simp] theorem State.addPkt_find (s : State) (p : Packet) : (s.addPkt p).pkts.find? s.uid = some p :=
  SMap.find?_put_same ..
@[simp] theorem State.addMsg_find (s : State) (e : LaneEntry) : (s.addMsg e).msgs.find? s.uid = some e :=
  SMap.find?_put_same ..

end Sys2Proof.Machine
end

