-- ==== Sys2Proof/Laws/Memory.lean ====
section
/-! SUPPORT. Every writer of the two memories keeps their canonical form: the byte writes, the event ring, a new frame
cleared, a migrated page, the topology table rewritten, and the two resets. The statements about every step rest on
these, one lemma per writer. -/

namespace Sys2Proof.Machine

/-- Both memories are in canonical form (log 1). -/
def State.memsOk (s : State) : Prop := Memory.wf s.mem = true ∧ Memory.wf s.hostMem = true

theorem reset_memsOk : State.reset.memsOk := reset_memory_wf

theorem wr_memsOk {s : State} (a : Nat) (bs : List Byte) (h : s.memsOk) : (s.wr a bs).memsOk :=
  ⟨memPut_wf bs a h.1, h.2⟩

theorem wrNat_memsOk {s : State} (a n x : Nat) (h : s.memsOk) : (s.wrNat a n x).memsOk := wr_memsOk a _ h

theorem event_memsOk {s : State} (kind code queue tenant w1 w2 w3 : Nat) (h : s.memsOk) :
    (s.event kind code queue tenant w1 w2 w3).memsOk := by
  unfold State.event
  split
  · exact ⟨h.1, memPut_wf _ _ h.2⟩
  · exact h

theorem foldl_memsOk {α : Type} {f : State → α → State} (hf : ∀ s x, s.memsOk → (f s x).memsOk) (xs : List α) :
    ∀ s : State, s.memsOk → (xs.foldl f s).memsOk := by
  induction xs with
  | nil => exact fun _ h => h
  | cons x xs ih => exact fun s h => ih _ (hf s x h)

/-- A frame taken is zeros, and nothing else of memory changes. -/
theorem takeFrame_memsOk {s : State} {isl size pa : Nat} {t : State} (e : takeFrame s isl size = some (pa, t))
    (h : s.memsOk) : t.memsOk := by
  unfold takeFrame at e
  split at e
  · cases e
  · cases e; exact ⟨memClear_wf _ h.1, h.2⟩

/-! ## Writes at the home -/

theorem watchDrop_memsOk {s : State} (u : Nat) (h : s.memsOk) : (watchDrop s u).memsOk := by
  unfold watchDrop
  split
  · exact h
  · split <;> exact h

theorem abortTx_memsOk {s : State} (u : Nat) (c : TxCode) (h : s.memsOk) : (abortTx s u c).memsOk := by
  unfold abortTx
  split
  · exact h
  · split
    · exact h
    · have hw := watchDrop_memsOk u h
      dsimp only
      split <;> exact hw

theorem conflictOn_memsOk {s : State} (by_ : Option Nat) (write : Bool) (line : Nat) (h : s.memsOk) :
    (conflictOn s by_ write line).memsOk := by
  unfold conflictOn
  refine foldl_memsOk (fun t ut ht => ?_) _ _ h
  split
  · split
    · exact abortTx_memsOk _ _ ht
    · exact ht
  · exact ht

theorem wakeWaiter_memsOk {s : State} (w : Waiter) (h : s.memsOk) : (wakeWaiter s w).memsOk := by
  unfold wakeWaiter
  split
  · split
    · exact h
    · split
      · unfold crumbForget
        exact watchDrop_memsOk (s := s.setTeam _ _) _ h
      · exact h
  · exact h

theorem changeLine_memsOk {s : State} (line : Nat) (h : s.memsOk) : (changeLine s line).memsOk := by
  unfold changeLine
  dsimp only
  split
  · exact h
  · have hw : ∀ (ws : List Waiter) (t : State), t.memsOk → (ws.foldl wakeWaiter t).memsOk :=
      fun ws t ht => foldl_memsOk (fun _ _ hs => wakeWaiter_memsOk _ hs) ws t ht
    split
    · refine foldl_memsOk (fun t ut ht => ?_) _ _ (hw _ _ h)
      split
      · exact wakeWaiter_memsOk _ ht
      · exact ht
    · exact hw _ _ h

theorem combine_memsOk {s : State} (l : L1Line) (h : s.memsOk) : (combine s l).memsOk := by
  unfold combine
  split
  · exact foldl_memsOk (fun _ _ hs => wrNat_memsOk _ _ _ hs) _ _ h
  · exact h

theorem recallLine_memsOk {s : State} (line : Nat) (h : s.memsOk) : (recallLine s line).memsOk := by
  unfold recallLine
  dsimp only
  split
  · exact h
  · refine changeLine_memsOk _ (foldl_memsOk (fun t k ht => ?_) _ _ h)
    split
    · exact combine_memsOk _ ht
    · exact ht

theorem invalidateOthers_memsOk {s : State} (line : Nat) (keep : Option Nat) (h : s.memsOk) :
    (invalidateOthers s line keep).memsOk := by
  unfold invalidateOthers
  refine foldl_memsOk (fun t c ht => ?_) _ _ h
  dsimp only
  split
  · exact ht
  · split
    · split <;> exact ht
    · exact ht

theorem l2Touch_memsOk {s : State} (line bits : Nat) (strm : Bool) (h : s.memsOk) : (l2Touch s line bits strm).memsOk := by
  have he : ∀ (ls : List L2Line) (t : State), t.memsOk → (ls.foldl (fun s x => l2Evict s x.line) t).memsOk :=
    fun ls t ht => foldl_memsOk (fun _ _ hs => invalidateOthers_memsOk _ _ (recallLine_memsOk _ hs)) ls t ht
  unfold l2Touch
  dsimp only
  split
  · exact h
  · split
    · exact h
    · split
      · exact h
      · exact he (List.drop 15 _) s h

theorem reachLine_memsOk {s : State} (by_ : Option Nat) (write strm : Bool) (pa n l : Nat) (h : s.memsOk) :
    (reachLine s by_ write strm pa n l).memsOk :=
  l2Touch_memsOk _ _ _ (conflictOn_memsOk _ _ _ (recallLine_memsOk _ h))

theorem logWrite_memsOk {s : State} (tag : Option SpanTag) (pa n : Nat) (own : SMap Byte) (h : s.memsOk) :
    (logWrite s tag pa n own).memsOk := by
  unfold logWrite
  split
  · exact h
  · split
    · refine foldl_memsOk (fun t x ht => ?_) _ _ h
      unfold logSector
      split
      · exact ht
      · dsimp only
        split
        · exact ht
        · split
          · exact ht
          · exact event_memsOk (s := t.updKernel _ _) _ _ _ _ _ _ _ ht
    · exact h

/-- A write at its home, with all that it reaches: logs, copies, transactions and waiters. -/
theorem homeWrite_memsOk {s : State} (by_ : Option Nat) (tag : Option SpanTag) (keep : Option Nat) (pa : Nat)
    (bs : List Byte) (h : s.memsOk) : (homeWrite s by_ tag keep pa bs).memsOk := by
  unfold homeWrite
  refine foldl_memsOk (fun _ _ hs => changeLine_memsOk _ hs) _ _ (wr_memsOk _ _ (logWrite_memsOk _ _ _ _ ?_))
  exact foldl_memsOk (fun _ _ hs => invalidateOthers_memsOk _ _ (reachLine_memsOk _ _ _ _ _ _ hs)) _ _ h

/-! ## Pages that move -/

theorem moveBytes_memsOk {s : State} (m : Migration) (h : s.memsOk) : (moveBytes s m).memsOk := by
  unfold moveBytes
  refine foldl_memsOk (fun _ _ hs => wr_memsOk _ _ hs) _ _ ?_
  exact ⟨memClear_wf _ h.1, h.2⟩

theorem moveEntry_memsOk {s : State} (m : Migration) (h : s.memsOk) : (moveEntry s m).memsOk := by
  unfold moveEntry
  exact foldl_memsOk (fun _ _ hs => homeWrite_memsOk _ _ _ _ _ hs) _ _ h

/-! ## The topology table (R55, R56) -/

theorem cellsFrom_rising (bs : List Byte) (a : Nat) : SMap.risingFrom a (cellsFrom a bs) = true := by
  induction bs generalizing a with
  | nil => rfl
  | cons b bs ih =>
    simp only [cellsFrom]
    split
    · exact SMap.risingFrom_le (by omega) (ih (a + 1))
    · simp [SMap.risingFrom, ih (a + 1)]

theorem cellsFrom_listed (bs : List Byte) (a : Nat) : ∀ c ∈ cellsFrom a bs, c.2 ≠ emptyByte := by
  induction bs generalizing a with
  | nil => simp [cellsFrom]
  | cons b bs ih =>
    simp only [cellsFrom]
    split
    · exact ih (a + 1)
    · next e => simp only [List.mem_cons, forall_eq_or_imp]; exact ⟨e, ih (a + 1)⟩

/-- A part below an address, then a part from it upward, rise. -/
theorem risingFrom_append {α : Type} {m n : SMap α} {lo a : Nat} (hm : SMap.risingFrom lo m = true)
    (hb : ∀ x ∈ m, x.1 < a) (hlo : lo ≤ a) (hn : SMap.risingFrom a n = true) : SMap.risingFrom lo (m ++ n) = true := by
  induction m generalizing lo with
  | nil => exact SMap.risingFrom_le hlo hn
  | cons x m ih =>
    obtain ⟨k, v⟩ := x
    simp only [SMap.risingFrom, Bool.and_eq_true, decide_eq_true_eq, List.cons_append] at hm ⊢
    have := hb (k, v) (List.mem_cons_self ..)
    exact ⟨hm.1, ih hm.2 (fun x h => hb x (List.mem_cons_of_mem _ h)) (by simpa using this)⟩

/-- The PCP's rewriting of the table keeps the canonical form. -/
theorem topologyUpdate_memsOk {s : State} (h : s.memsOk) : (topologyUpdate s).memsOk := by
  refine ⟨?_, h.2⟩
  have hw : Memory.wf (s.mem.filter fun c => c.1 < topoBase) = true := memClear_wf _ h.1
  simp only [topologyUpdate, Memory.wf, SMap.canon, Bool.and_eq_true, List.all_eq_true, decide_eq_true_eq] at hw ⊢
  refine ⟨risingFrom_append hw.1 (fun x hx => ?_) (Nat.zero_le _) (cellsFrom_rising _ _), fun x hx => ?_⟩
  · simpa using (List.mem_filter.1 hx).2
  · rcases List.mem_append.1 hx with hx | hx
    · exact hw.2 x hx
    · exact cellsFrom_listed _ _ x hx

/-! ## The resets (R416) -/

/-- A reset keeps host memory, and keeps the form of panel memory where the memory it leaves has it. -/
theorem cleared_memsOk {s : State} {host : HostRegs} {mem : List Host.Cell} {isls : SMap Island}
    (h : Memory.wf s.hostMem = true) (hm : Memory.wf mem = true) : (cleared s host mem isls).memsOk := ⟨hm, h⟩

theorem coldly_memsOk {s : State} (h : s.memsOk) : (coldly s).memsOk := by
  unfold coldly
  exact ⟨memClear_wf _ h.1, h.2⟩

theorem dropReplicas_memsOk {s : State} (p : Replica → Bool) (h : s.memsOk) : (dropReplicas s p).memsOk := by
  unfold dropReplicas
  refine foldl_memsOk (fun t i ht => ?_) _ _ h
  exact foldl_memsOk (f := fun s (r : Replica) => dropFrame s r.base) (fun _ _ hs => hs) (List.filter _ _)
    { t with ops := _ } ht

theorem freeAreas_memsOk {s : State} (h : s.memsOk) : (freeAreas s).memsOk := by
  unfold freeAreas
  refine dropReplicas_memsOk _ (foldl_memsOk (fun t uc ht => ?_) _ _ (foldl_memsOk (fun t uk ht => ?_) _ _ h))
  · split <;> exact ht
  · split <;> exact ht

theorem warmly_memsOk {s : State} (h : s.memsOk) : (warmly s).memsOk := by
  unfold warmly
  exact cleared_memsOk (freeAreas_memsOk h).2 (memClear_wf _ (freeAreas_memsOk h).1)

end Sys2Proof.Machine
end

