-- ==== Sys2Proof/Laws/Regs.lean ====
section
/-! SUPPORT. Register files: reads after writes of scalar, vector, predicate and index registers, of pairs and groups,
and of the lanes of a word. -/

namespace Sys2Proof.Machine

/-! ## One register -/

theorem Regs.sget_sset (g : Regs) (r q : Nat) (x : Word) : (g.sset r x).sget q = if q = r then x else g.sget q :=
  SMap.get_set ..
theorem Regs.vget_vset (g : Regs) (l r k q : Nat) (x : Word) :
    (g.vset l r x).vget k q = if vkey k q = vkey l r then x else g.vget k q := SMap.get_set ..
theorem Regs.pget_pset (g : Regs) (r q : Nat) (x : Mask) : (g.pset r x).pget q = if q = r then x else g.pget q :=
  SMap.get_set ..
theorem Regs.ixget_ixset (g : Regs) (r q : Nat) (x : BitVec 16) : (g.ixset r x).ixget q = if q = r then x else g.ixget q :=
  SMap.get_set ..

@[simp] theorem Regs.sset_vget (g : Regs) (r l q : Nat) (x : Word) : (g.sset r x).vget l q = g.vget l q := rfl
@[simp] theorem Regs.sset_pget (g : Regs) (r q : Nat) (x : Word) : (g.sset r x).pget q = g.pget q := rfl
@[simp] theorem Regs.sset_ixget (g : Regs) (r q : Nat) (x : Word) : (g.sset r x).ixget q = g.ixget q := rfl
@[simp] theorem Regs.sset_fmt (g : Regs) (r : Nat) (x : Word) : (g.sset r x).fmt = g.fmt := rfl
@[simp] theorem Regs.vset_sget (g : Regs) (l r q : Nat) (x : Word) : (g.vset l r x).sget q = g.sget q := rfl
@[simp] theorem Regs.vset_pget (g : Regs) (l r q : Nat) (x : Word) : (g.vset l r x).pget q = g.pget q := rfl
@[simp] theorem Regs.vset_ixget (g : Regs) (l r q : Nat) (x : Word) : (g.vset l r x).ixget q = g.ixget q := rfl
@[simp] theorem Regs.vset_fmt (g : Regs) (l r : Nat) (x : Word) : (g.vset l r x).fmt = g.fmt := rfl

/-! ## Groups of registers -/

theorem Regs.ssetN_keeps (g : Regs) (r n x : Nat) :
    (g.ssetN r n x).v = g.v ∧ (g.ssetN r n x).p = g.p ∧ (g.ssetN r n x).ix = g.ix ∧
      (g.ssetN r n x).fmt = g.fmt ∧ (g.ssetN r n x).laneFmt = g.laneFmt := by
  induction n generalizing g r x with
  | zero => simp [ssetN]
  | succ n ih => simp only [ssetN]; exact ih (g.sset r _) (r + 1) _

theorem Regs.sget_ssetN_other (g : Regs) (r n x q : Nat) (h : q < r ∨ r + n ≤ q) : (g.ssetN r n x).sget q = g.sget q := by
  induction n generalizing g r x with
  | zero => rfl
  | succ n ih => rw [ssetN, ih _ _ _ (by omega), sget_sset, if_neg (by omega)]

/-- Register `i` of a group holds bits 32 i + 31 to 32 i of what was written. -/
theorem Regs.sget_ssetN (g : Regs) (r n x i : Nat) (h : i < n) :
    (g.ssetN r n x).sget (r + i) = BitVec.ofNat 32 (x / 2 ^ (32 * i)) := by
  induction n generalizing g r x i with
  | zero => omega
  | succ n ih =>
    rw [ssetN]
    cases i with
    | zero => rw [sget_ssetN_other _ _ _ _ _ (by omega), sget_sset]; simp
    | succ i =>
      rw [show r + (i + 1) = r + 1 + i by omega, ih _ _ _ _ (by omega), Nat.div_div_eq_div_mul, ← Nat.pow_add,
        Nat.mul_succ, Nat.add_comm 32]

theorem Regs.sgetN_congr (g g' : Regs) (r q n : Nat) (h : ∀ i < n, g.sget (r + i) = g'.sget (q + i)) :
    g.sgetN r n = g'.sgetN q n := by
  induction n generalizing r q with
  | zero => rfl
  | succ n ih =>
    have h0 := h 0 (by omega)
    simp only [Nat.add_zero] at h0
    rw [sgetN, sgetN, h0, ih]
    intro i hi
    have := h (i + 1) (by omega)
    rwa [show r + (i + 1) = r + 1 + i by omega, show q + (i + 1) = q + 1 + i by omega] at this

theorem Regs.sgetN_sset_other (g : Regs) (r q n : Nat) (x : Word) (h : q < r ∨ r + n ≤ q) :
    (g.sset q x).sgetN r n = g.sgetN r n :=
  sgetN_congr _ _ _ _ _ fun i hi => by rw [sget_sset, if_neg (by omega)]

/-- What was written to a group reads back, to the width of the group. -/
theorem Regs.sgetN_ssetN (g : Regs) (r n x : Nat) : (g.ssetN r n x).sgetN r n = x % 2 ^ (32 * n) := by
  induction n generalizing g r x with
  | zero => simp [sgetN, Nat.mod_one]
  | succ n ih =>
    rw [ssetN, sgetN, ih, sget_ssetN_other _ _ _ _ _ (by omega), sget_sset, if_pos rfl, BitVec.toNat_ofNat,
      Nat.mul_succ, Nat.add_comm (32 * n), Nat.pow_add, Nat.mod_mul]

theorem Regs.vsetN_keeps (g : Regs) (l r n x : Nat) :
    (g.vsetN l r n x).s = g.s ∧ (g.vsetN l r n x).p = g.p ∧ (g.vsetN l r n x).ix = g.ix ∧
      (g.vsetN l r n x).fmt = g.fmt ∧ (g.vsetN l r n x).laneFmt = g.laneFmt := by
  induction n generalizing g r x with
  | zero => simp [vsetN]
  | succ n ih => simp only [vsetN]; exact ih (g.vset l r _) (r + 1) _

theorem Regs.vget_vsetN_other (g : Regs) (l r n x k q : Nat) (h : ∀ i < n, vkey k q ≠ vkey l (r + i)) :
    (g.vsetN l r n x).vget k q = g.vget k q := by
  induction n generalizing g r x with
  | zero => rfl
  | succ n ih =>
    rw [vsetN, ih, vget_vset, if_neg (by simpa using h 0 (by omega))]
    intro i hi
    have := h (i + 1) (by omega)
    rwa [show r + (i + 1) = r + 1 + i by omega] at this

theorem Regs.vget_vsetN (g : Regs) (l r n x i : Nat) (h : i < n) :
    (g.vsetN l r n x).vget l (r + i) = BitVec.ofNat 32 (x / 2 ^ (32 * i)) := by
  induction n generalizing g r x i with
  | zero => omega
  | succ n ih =>
    rw [vsetN]
    cases i with
    | zero =>
      rw [vget_vsetN_other _ _ _ _ _ _ _ (by intro j _; unfold vkey; omega), vget_vset]
      simp
    | succ i =>
      rw [show r + (i + 1) = r + 1 + i by omega, ih _ _ _ _ (by omega), Nat.div_div_eq_div_mul, ← Nat.pow_add,
        Nat.mul_succ, Nat.add_comm 32]

theorem Regs.vgetN_congr (g g' : Regs) (l k r q n : Nat) (h : ∀ i < n, g.vget l (r + i) = g'.vget k (q + i)) :
    g.vgetN l r n = g'.vgetN k q n := by
  induction n generalizing r q with
  | zero => rfl
  | succ n ih =>
    have h0 := h 0 (by omega)
    simp only [Nat.add_zero] at h0
    rw [vgetN, vgetN, h0, ih]
    intro i hi
    have := h (i + 1) (by omega)
    rwa [show r + (i + 1) = r + 1 + i by omega, show q + (i + 1) = q + 1 + i by omega] at this

/-- What was written to a lane's group reads back, to the width of the group. -/
theorem Regs.vgetN_vsetN (g : Regs) (l r n x : Nat) : (g.vsetN l r n x).vgetN l r n = x % 2 ^ (32 * n) := by
  induction n generalizing g r x with
  | zero => simp [vgetN, Nat.mod_one]
  | succ n ih =>
    rw [vsetN, vgetN, ih, vget_vsetN_other _ _ _ _ _ _ _ (by intro j _; unfold vkey; omega), vget_vset, if_pos rfl,
      BitVec.toNat_ofNat, Nat.mul_succ, Nat.add_comm (32 * n), Nat.pow_add, Nat.mod_mul]

/-- A group read is below its width. -/
theorem Regs.sgetN_lt (g : Regs) (r n : Nat) : g.sgetN r n < 2 ^ (32 * n) := by
  induction n generalizing r with
  | zero => simp [sgetN]
  | succ n ih =>
    have h := (g.sget r).isLt
    have := ih (r + 1)
    rw [sgetN, Nat.mul_succ, Nat.add_comm (32 * n), Nat.pow_add]
    calc _ < 2 ^ 32 + 2 ^ 32 * g.sgetN (r + 1) n := by omega
      _ = 2 ^ 32 * (g.sgetN (r + 1) n + 1) := by ring
      _ ≤ _ := Nat.mul_le_mul_left _ this
theorem Regs.vgetN_lt (g : Regs) (l r n : Nat) : g.vgetN l r n < 2 ^ (32 * n) := by
  induction n generalizing r with
  | zero => simp [vgetN]
  | succ n ih =>
    have h := (g.vget l r).isLt
    have := ih (r + 1)
    rw [vgetN, Nat.mul_succ, Nat.add_comm (32 * n), Nat.pow_add]
    calc _ < 2 ^ 32 + 2 ^ 32 * g.vgetN l (r + 1) n := by omega
      _ = 2 ^ 32 * (g.vgetN l (r + 1) n + 1) := by ring
      _ ≤ _ := Nat.mul_le_mul_left _ this

/-! ## Lanes of a word -/

theorem writeLanes_cons (g : Regs) (n r : Nat) (f : Nat → Nat) (l : Nat) (ls : List Nat) :
    writeLanes g n r f (l :: ls) = writeLanes (g.vsetN l r n (f l)) n r f ls := rfl

theorem writeLanes_keeps (g : Regs) (n r : Nat) (f : Nat → Nat) (ls : List Nat) :
    (writeLanes g n r f ls).s = g.s ∧ (writeLanes g n r f ls).p = g.p ∧ (writeLanes g n r f ls).ix = g.ix ∧
      (writeLanes g n r f ls).fmt = g.fmt ∧ (writeLanes g n r f ls).laneFmt = g.laneFmt := by
  induction ls generalizing g with
  | nil => simp [writeLanes]
  | cons l ls ih =>
    rw [writeLanes_cons]
    obtain ⟨h1, h2, h3, h4, h5⟩ := ih (g.vsetN l r n (f l))
    obtain ⟨k1, k2, k3, k4, k5⟩ := g.vsetN_keeps l r n (f l)
    exact ⟨h1.trans k1, h2.trans k2, h3.trans k3, h4.trans k4, h5.trans k5⟩

/-- A register no lane of the word writes. -/
theorem vget_writeLanes_other (g : Regs) (n r : Nat) (f : Nat → Nat) (ls : List Nat) (k q : Nat)
    (h : ∀ l ∈ ls, ∀ i < n, vkey k q ≠ vkey l (r + i)) : (writeLanes g n r f ls).vget k q = g.vget k q := by
  induction ls generalizing g with
  | nil => rfl
  | cons l ls ih =>
    rw [writeLanes_cons, ih _ fun l' hl => h l' (List.mem_cons_of_mem _ hl),
      Regs.vget_vsetN_other _ _ _ _ _ _ _ (h l (List.mem_cons_self ..))]

/-- The result of each lane of a word whose registers lie below 256. -/
theorem vgetN_writeLanes (g : Regs) (n r : Nat) (f : Nat → Nat) (ls : List Nat) (l : Nat) (hr : r + n ≤ 256)
    (h : l ∈ ls) : (writeLanes g n r f ls).vgetN l r n = f l % 2 ^ (32 * n) := by
  induction ls generalizing g with
  | nil => simp at h
  | cons k ls ih =>
    rw [writeLanes_cons]
    by_cases hl : l ∈ ls
    · exact ih _ hl
    · have hk : k = l := by
        rcases List.mem_cons.1 h with h | h
        · exact h.symm
        · exact absurd h hl
      subst hk
      rw [Regs.vgetN_congr _ (g.vsetN k r n (f k)) k k r r n, Regs.vgetN_vsetN]
      intro i hi
      refine vget_writeLanes_other _ _ _ _ _ _ _ ?_
      intro l' hl' j hj
      have : l' ≠ k := fun e => hl (e ▸ hl')
      unfold vkey
      omega

/-- A lane that the word does not name keeps its registers. -/
theorem vget_writeLanes_lane (g : Regs) (n r : Nat) (f : Nat → Nat) (ls : List Nat) (l q : Nat) (hr : r + n ≤ 256)
    (hq : q < 256) (h : l ∉ ls) : (writeLanes g n r f ls).vget l q = g.vget l q := by
  refine vget_writeLanes_other _ _ _ _ _ _ _ ?_
  intro l' hl' j hj
  have : l' ≠ l := fun e => h (e ▸ hl')
  unfold vkey
  omega

/-- A register outside the destination keeps its value. -/
theorem vget_writeLanes_reg (g : Regs) (n r : Nat) (f : Nat → Nat) (ls : List Nat) (l q : Nat) (hr : r + n ≤ 256)
    (hq : q < 256) (h : q < r ∨ r + n ≤ q) : (writeLanes g n r f ls).vget l q = g.vget l q := by
  refine vget_writeLanes_other _ _ _ _ _ _ _ ?_
  intro l' hl' j hj
  unfold vkey
  omega

/-! ## Masks -/

theorem mem_lanesOf (m : Mask) (n l : Nat) : l ∈ lanesOf m n ↔ l < n ∧ laneIn m l = true := by
  simp [lanesOf]

theorem laneIn_maskOf (ls : List Nat) (l : Nat) (h : l < 1024) : laneIn (maskOf ls) l = ls.contains l := by
  suffices ∀ m : Mask, laneIn (ls.foldl (fun m l => m ||| ((1 : Mask) <<< l)) m) l = (laneIn m l || ls.contains l) by
    simpa [laneIn, maskOf] using this 0
  induction ls with
  | nil => simp
  | cons k ls ih =>
    intro m
    rw [List.foldl_cons, ih]
    simp only [laneIn, BitVec.getLsbD_or, BitVec.getLsbD_shiftLeft, List.contains_cons, h, decide_true, Bool.true_and]
    have : (!decide (l < k) && BitVec.getLsbD (1 : Mask) (l - k)) = (l == k) := by
      by_cases e : l = k
      · subst e; simp
      · by_cases e' : l < k
        · simp [e']; omega
        · have : l - k ≠ 0 := by omega
          simp [e, BitVec.getLsbD_one, this]
    rw [this, Bool.or_assoc]

end Sys2Proof.Machine
end

