-- ==== Sys2Proof/Laws/Ops.lean ====
section
/-! SUPPORT. What the shared operations of Machine/Ops.lean can do: the issue of a word, the advance past it, and the
halt of a crew. -/

namespace Sys2Proof.Machine

/-! ## Issue -/

/-- A word whose team, crew and kernel stand in State answers a next state. -/
theorem issue_next {s : State} {x : Issuer} (h : issuer s = .ok x) (f : Issuer → State) :
    issue s f = .next (f x) := by
  simp [issue, h]

/-- What the issuer of a word is. -/
theorem issuer_ok {s : State} {x : Issuer} (h : issuer s = .ok x) :
    s.cur = some x.u ∧ s.teams.find? x.u = some x.t ∧ s.crews.find? x.t.crew = some x.c ∧
      s.kernels.find? x.c.kernel = some x.k := by
  unfold issuer at h
  split at h
  · cases h
  · next u hu =>
    split at h
    · cases h
    · next t ht =>
      split at h
      · cases h
      · next c hc =>
        split at h
        · cases h
        · next k hk => cases h; exact ⟨hu, ht, hc, hk⟩

/-- A word answers a next state, a fault of no team, or a fault of a state no panel is in; it refuses nothing. -/
theorem issue_cases (s : State) (f : Issuer → State) :
    (∃ x, issuer s = .ok x ∧ issue s f = .next (f x)) ∨ issue s f = .fault .noTeam ∨ issue s f = .fault .brokenState := by
  unfold issue
  cases h : issuer s with
  | ok x => exact .inl ⟨x, rfl, rfl⟩
  | error e => cases e <;> simp

/-! ## The advance past a word -/

theorem step8_def (s : State) (x : Issuer) (t : Team) (n : Nat) :
    step8 s x t n = charge (s.setTeam x.u { t with flow := { t.flow with pc := x.next } }) x n := rfl

@[simp] theorem charge_find (s : State) (x : Issuer) (n : Nat) :
    (charge s x n).teams.find? x.u = (s.teams.find? x.u).map (·.issued s.now) := SMap.find?_upd_same ..
theorem charge_find_other (s : State) (x : Issuer) (n : Nat) {u : Nat} (h : u ≠ x.u) :
    (charge s x n).teams.find? u = s.teams.find? u := SMap.find?_upd_other _ _ h
@[simp] theorem charge_mem (s : State) (x : Issuer) (n : Nat) : (charge s x n).mem = s.mem := rfl
@[simp] theorem charge_hostMem (s : State) (x : Issuer) (n : Nat) : (charge s x n).hostMem = s.hostMem := rfl

/-- The issuing team's record after a word that ended with it. -/
@[simp] theorem finish_team (s : State) (x : Issuer) (t : Team) (n : Nat) :
    (finish s x t n).teams.find? x.u =
      some (t.issued s.now) := by
  simp [finish]
@[simp] theorem step8_team (s : State) (x : Issuer) (t : Team) (n : Nat) :
    (step8 s x t n).teams.find? x.u = some ({ t with flow := { t.flow with pc := x.next } }.issued s.now) := by
  simp [step8]

theorem finish_other (s : State) (x : Issuer) (t : Team) (n : Nat) {u : Nat} (h : u ≠ x.u) :
    (finish s x t n).teams.find? u = s.teams.find? u := by
  simp [finish, charge_find_other _ _ _ h, SMap.find?_put_other _ _ h]

/-- A slot's charge changes nothing of a core but the time its slot is free. -/
theorem charge_core (s : State) (x : Issuer) (n k : Nat) :
    { (charge s x n).core k with slotFree := [] } = { s.core k with slotFree := [] } := by
  unfold charge
  by_cases h : k = x.c.key
  · subst h; simp
  · rw [State.updCore_other _ _ h, State.updTeam_core]

theorem charge_core_other (s : State) (x : Issuer) (n : Nat) {k : Nat} (h : k ≠ x.c.key) :
    (charge s x n).core k = s.core k := State.updCore_other _ _ h

/-- Outside the team's record and the core's slots, an advance changes nothing. -/
theorem finish_rest (s : State) (x : Issuer) (t : Team) (n : Nat) :
    { finish s x t n with teams := s.teams, cores := s.cores } = s := rfl

/-! ## The halt of a crew -/

/-- A crew that is halted takes no second cause (R374). -/
theorem haltCrew_halted {s : State} {cu : Nat} {c : Crew} (i : TrapInfo) (h : s.crews.find? cu = some c)
    (hc : c.halt.isSome) : haltCrew s cu i = s := by
  unfold haltCrew
  rw [h]
  dsimp only
  split
  · rfl
  · simp [hc]

end Sys2Proof.Machine
end

