-- ==== Sys2Proof/Tests/Slice0.lean ====
section
/-! SUPPORT. The model's own tests: refused ill-formed terms, words of the spec's encodings decoded, one step of an
instruction on a small state, and for every obligation states and operands that meet its hypotheses. -/

namespace Sys2Proof.Tests
open Sys2Proof Sys2Proof.Machine
set_option Elab.async false

def on : Guard := { pred := 7, neg := false }
def pn : Guard := { pred := 2, neg := true }
/-- A guard whose predicate is 0 in every lane of `st`. -/
def none0 : Guard := { pred := 0, neg := false }

/-- A fact that the kernel evaluates. -/
theorem yes {p : Prop} (h : p := by decide +kernel) : p := h

/-! ## Small states -/

/-- Team 2 of crew 1 of kernel 0, alone on core 0 of island 0, is about to issue its first word. -/
def st : State := { State.reset.withFetchWord 64 0 with cur := some 2 }
def who (s : State) : Issuer :=
  match issuer s with
  | .ok x => x
  | .error _ => { u := 2, t := { crew := 1, index := 0, lanes := 32, vregs := 256 },
                  c := { kernel := 0, idx := 0, isl := 0, core := 0 }, k := lonelyKernel State.reset }
def team (f : Team → Team) (s : State) : State := s.updTeam 2 f
def flow (f : Flow → Flow) (s : State) : State := team (fun t => { t with flow := f t.flow }) s
def regs (f : Regs → Regs) (s : State) : State := team (fun t => { t with regs := f t.regs }) s
def cnt (f : Counters → Counters) (s : State) : State := team (fun t => { t with cnt := f t.cnt }) s
def crew (f : Crew → Crew) (s : State) : State := s.updCrew 1 f
def kern (f : Kernel → Kernel) (s : State) : State := s.updKernel 0 f
def tx0 : Tx := { restart := { pc := 0, mask := fullMask 32 }, abortPath := 64 }
def inTx (tx : Tx) (s : State) : State := team (fun t => { t with tx := some tx }) s

/-! ## Ill-formed terms, refused -/

/-- A guard that is ILLOP (R72). -/
def bad : Guard := { pred := 7, neg := true }
theorem test_wf_refuses_guards : ∀ i ∈ ([.exit bad true, .brv bad (.v 1) 4, .brk bad (.v 1) 4, .spawn bad (.v 8) (.k 0) 1 1 1,
    .mbal bad 1 (.v 1) (.k 0), .many bad 1 (.v 1), .mset bad (.v 1), .xfer bad (.v 1), .vadd bad .i32 true (.v 4) (.v 5) (.v 6),
    .vaddImm bad .i32 (.v 4) (.v 5) 1, .vcmp bad .i32 .lt (.k 0x90) (.v 1) (.v 2), .vmovi bad .i32 (.v 1) 0,
    .fadd bad .f32 .ne (.v 1) (.v 2) (.v 3), .cvt bad .i32 .f32 false .ne 0 (.v 1) (.v 2), .lpack bad false (.v 1) (.v 2),
    .shfl bad .i32 .xor (.v 1) (.v 2) (.k 1), .vred bad .add .i32 .ne (.v 1) (.v 2), .ld bad .b32 false (.v 1) (.v 2) 0,
    .st bad .b32 false (.v 1) (.v 2) 0, .pref bad .b32 false (.v 2) 0, .atom bad .i32 .add .relaxed .team none (.v 2) (.v 3),
    .put bad .b32 (.v 1) (.v 2) 0, .get bad .b32 (.v 1) (.v 2) 0, .coll bad .ar (.v 4) (.v 6) 3 none] : List Instr),
    i.wf = false := by decide
theorem test_wf_refuses_operands : ∀ i ∈ ([.brv on (.s 1) 4, .brv on (.k 0x98) 4, .spawn on (.s 8) (.k 0) 1 1 1,
    .spawn on (.v 8) (.k 0x80) 1 1 1, .spawn on (.v 8) (.k 0) 1 1 7, .qry 3 .topo, .sreg 3 (.k 0x27), .smov .i32 1 (.v 2),
    .smov .i64 3 (.s 2), .smov .i16x2 2 (.s 2), .smovi .i64 3 0, .sadd .i32 1 (.k 0xA0) (.s 1), .sadd .i64 2 (.k 0xA3) (.s 2),
    .ssel .i32 1 (.s 1) (.s 2) (.v 3), .mbal on 1 (.k 0x40) (.k 0), .mbal on 1 (.v 1) (.k 0x20), .setix 1 (.v 3) 0, .setk 1 (.k 0x80),
    .xfer on (.k 0), .vadd on .i64 true (.v 5) (.v 6) (.v 8), .vadd on .i32 true (.s 5) (.v 6) (.v 8),
    .vadd on .i32 true (.v 5) (.k 0x80) (.v 8), .vaddImm on .i16x2 (.v 4) (.v 5) 1, .vabs on .n32 false (.v 1) (.v 2),
    .vbfe on .i8x4 (.v 1) (.v 2) (.v 3), .vsel on .i32 (.v 1) (.v 2) (.v 3) (.k 1), .vmovi on .n16x2 (.v 1) 0,
    .vcmp on .i32 .lt (.k 0x97) (.v 1) (.v 2), .vcmp on .i16x2 .lt (.k 0x90) (.v 1) (.v 2)] : List Instr), i.wf = false := by decide
theorem test_wf_refuses_floats : ∀ i ∈ ([.fadd on .f64 .ne (.v 1) (.v 2) (.v 4), .fadd on .f32 .ne (.v 1) (.k 0x88) (.v 4),
    .faddImm on .f16x2 (.v 1) (.v 2) 0x10000, .fcmp on .bf16x2 .ne .lt (.k 0x90) (.v 1) (.v 2), .hpack on .f32 .ne (.v 1) (.v 2) (.v 3),
    .cvt on .i32 .f32 false .ne 1 (.v 1) (.v 2), .cvt on .i32 .f16 false .ne 2 (.v 1) (.v 2), .cvt on .i32 .i64 false .tz 0 (.v 1) (.v 2),
    .cvt on .lns6 .f32 false .tz 0 (.v 1) (.v 2), .cvt on .f32 .i32 true .ne 0 (.v 1) (.v 2), .lpack on false (.s 1) (.v 2),
    .shfl on .i32 .xor (.v 1) (.s 2) (.k 1), .shfl on .i32 .xor (.v 1) (.v 2) (.k 0x40), .bcst on .i32 (.v 1) (.v 2) (.v 3),
    .vred on .add .i32 .tz (.v 1) (.v 2), .vred on .and .f32 .ne (.v 1) (.v 2), .vred on .max .f32 .tz (.v 1) (.v 2),
    .vscan on .add .i32 true .ne (.s 1) (.v 2),
    .pairWord { pop := .vadd, hpred := .always, imm := false, d := 4, s := 1 } { pop := .vadd, hpred := .always, imm := false, d := 4, s := 2 },
    .pairWord { pop := .vadd, hpred := .always, imm := false, d := 4, s := 1 } { pop := .vadd, hpred := .always, imm := true, d := 8, s := 2 }]
    : List Instr), i.wf = false := by decide
theorem test_wf_refuses_memory : ∀ i ∈ ([.ld on .b128 false (.v 2) (.v 4) 0, .ld on .b32 false (.v 2) (.v 5) 0, .ld on .b32 false (.s 2) (.v 4) 0,
    .ld on .b32 false (.v 2) (.ind 0 4) 0, .st on .b32 false (.k 0x80) (.v 4) 0, .lds .b64 false 3 4 0, .lds .b32 false 3 5 0,
    .ldl on .b32 false (.v 1) (.k 0) 0, .atom on .i32 .add .relaxed .island none (.v 2) (.v 3), .atom on .f32 .or .acq .team none (.v 2) (.v 3),
    .atom on .i32 .cas .acq .team none (.v 2) (.v 3), .atom on .i64 .cas .acq .team none (.v 2) (.v 6),
    .atom on .i64 .add .acq .team (some (.v 3)) (.v 2) (.v 4), .red on .i32 .exch .rel .team (.v 2) (.v 3),
    .red on .i32 .cas .rel .team (.v 2) (.v 4), .red on .i32 .add .acq .team (.v 2) (.v 3), .red on .i32 .add .ar .team (.v 2) (.v 3),
    .putn on .b32 (.v 1) (.v 2) (.v 3) 1, .putm on .b32 (.v 1) (.v 2) (.v 3) 4, .putm on .b32 (.v 1) (.v 2) (.k 1) 5,
    .cpy 1 2 3 .global .lspace none, .cpyt 2 4 6 .global .lspace none] : List Instr), i.wf = false := by decide
theorem test_wf_refuses_engines : ∀ i ∈ ([.macq 7, .mgang 3, .mtld (.s 1) 1 1, .mtst (.k 1) 1 1, .mpoly 1 2 3 0 none, .mpoly 1 1 3 2 none,
    .mpoly 1 2 2 2 none, .miter .inv true 1 2 3 0 1 none, .miter .inv true 1 2 6 1 1 none, .miter .inv true 1 3 3 1 1 none,
    .miter .cubic true 1 2 3 1 1 none, .miter .quint true 1 0 5 1 1 none, .mstat 1 5, .fence .relaxed .island, .bini 4 (.s 3) (.k 1),
    .bini 4 (.k 1) (.v 1), .barv none 4 (.v 2), .bwt 4 (.k 0x40), .qpsh 5 2 0, .qpsh 2 2 6, .qpsh 0 3 6, .ntfy 3 (.k 1), .nwt 4 (.k 0x80),
    .tlrd .cp .value 3, .tlwt .cp 3, .coll on .ar (.k 1) (.v 6) 3 none, .coll on .ar (.v 3) (.v 6) 3 none,
    .coll on .ar (.v 4) (.k 0x40) 3 none] : List Instr), i.wf = false := by decide
theorem test_wf_refuses_events : ∀ i ∈ ([.recordSlotWrite 2048 0 [1], .recordSlotWrite 0 0 [], .recordSlotWrite 0 0 [1],
    .recordSlotWrite 0 0x7FFF [1, 2], .recordWindowWrite 0 120 [1], .recordWindowWrite 2048 0x8000 [1], .queuePromotion 2048,
    .poolReinject 25, .migrationWindow 64 0 0, .migrationWindow 0 0x100000000000000 0, .nakRepeat 0 9, .nakRepeat 25 0, .laserModuleDark 20,
    .tenantReset 64, .groupTableWrite 0 256 0 0, .groupTableWrite 0 0 8 0, .hostMemoryAccess 64 0 (.read 8)] : List Instr),
    i.wf = false := by decide

/-! ## Words of every encoding, written out from the spec's tables -/

theorem test_decode_control1 : ∀ e ∈ (
  [(0x0000700000000000, .nop),
   (0x0010700000FFFFFD, .bra 0xFFFFFD),
   (0x0020742400000012, .brc 9 0x12),
   (0x0030A00400000004, .brv pn (.v 1) 4),
   (0x0040700000000000, .join),
   (0x00507E4400000016, .brk on (.k 0x91) 0x16),
   (0x0060700000800000, .call 0x800000),
   (0x0070700121000000, .callr 33),
   (0x0080700000000000, .ret),
   (0x0090700107000000, .jmpr 7),
   (0x00A0A00000000000, .exit pn false),
   (0x00A0700000000001, .exit on true),
   (0x00B0700000000000, .yield),
   (0x00C070000000ABCD, .trap 0xABCD)] : List (DWord × Instr)), decode e.1 = .ok e.2 := by decide

theorem test_decode_control2 : ∀ e ∈ (
  [(0x00D0700000000000, .mark),
   (0x00E0702340033200, .spawn on (.v 8) (.k 0x40) 3 3 1),
   (0x00F0742800000006, .qry 10 .pcores),
   (0x0100740F20000000, .sreg 3 (.k 32)),
   (0x02D0700104030005, .setix 3 (.s 4) 5),
   (0x02E0700000123456, .setfmt (.imm 0x123456)),
   (0x02E0700108000000, .setfmt (.reg 8)),
   (0x02F0741800000000, .getfmt 6),
   (0x0300700529000000, .setk 1 (.s 41)),
   (0x031074140F000000, .getk 5 15),
   (0x032070000003FFC0, .waitc 0 63 63),
   (0x3910A02400000000, .xfer pn (.v 9))] : List (DWord × Instr)), decode e.1 = .ok e.2 := by decide

theorem test_decode_scalar1 : ∀ e ∈ (
  [(0x0140741106D00000, .sadd .i32 4 (.s 6) (.k 0x40)),
   (0x0151741106D00000, .ssub .n32 4 (.s 6) (.k 0x40)),
   (0x0162741106D00000, .smul .i64 4 (.s 6) (.k 0x40)),
   (0x01A3741106D00000, .sand .n64 4 (.s 6) (.k 0x40)),
   (0x01B0741106D00000, .sor .i32 4 (.s 6) (.k 0x40)),
   (0x01C1741106D00000, .sxor .n32 4 (.s 6) (.k 0x40)),
   (0x01D2741106D00000, .sshl .i64 4 (.s 6) (.k 0x40)),
   (0x01E3741106D00000, .sshr .n64 4 (.s 6) (.k 0x40)),
   (0x01F0741106D00000, .ssra .i32 4 (.s 6) (.k 0x40)),
   (0x0201741106D00000, .smin .n32 4 (.s 6) (.k 0x40)),
   (0x0212741106D00000, .smax .i64 4 (.s 6) (.k 0x40)),
   (0x0173741106D00000, .smulh .n64 4 (.s 6) (.k 0x40)),
   (0x0180741106D00000, .sdiv .i32 4 (.s 6) (.k 0x40)),
   (0x0191741106D00000, .srem .n32 4 (.s 6) (.k 0x40))] : List (DWord × Instr)), decode e.1 = .ok e.2 := by decide

theorem test_decode_scalar2 : ∀ e ∈ (
  [(0x0542742102800001, .saddImm .i64 8 (.s 2) 0x800001),
   (0x0553742102800001, .ssubImm .n64 8 (.s 2) 0x800001),
   (0x0560742102800001, .smulImm .i32 8 (.s 2) 0x800001),
   (0x05A1742102800001, .sandImm .n32 8 (.s 2) 0x800001),
   (0x05B2742102800001, .sorImm .i64 8 (.s 2) 0x800001),
   (0x05C3742102800001, .sxorImm .n64 8 (.s 2) 0x800001),
   (0x05D0742102800001, .sshlImm .i32 8 (.s 2) 0x800001),
   (0x05E1742102800001, .sshrImm .n32 8 (.s 2) 0x800001),
   (0x05F2742102800001, .ssraImm .i64 8 (.s 2) 0x800001),
   (0x0603742102800001, .sminImm .n64 8 (.s 2) 0x800001),
   (0x0610742102800001, .smaxImm .i32 8 (.s 2) 0x800001),
   (0x0113740904000000, .smov .n64 2 (.s 4)),
   (0x0121741C00FFFFFF, .smovi .n32 7 0xFFFFFF),
   (0x013074A400BF0000, .smovh 41 0xBF0000)] : List (DWord × Instr)), decode e.1 = .ok e.2 := by decide

theorem test_decode_scalar3 : ∀ e ∈ (
  [(0x0221745D16D00000, .scmp .n32 .eq 23 (.s 22) (.k 0x40)),
   (0x022074050240C005, .scmp .i32 .ge 1 (.s 2) (.s 3)),
   (0x023074050240D050, .ssel .i32 1 (.s 2) (.s 3) (.s 5)),
   (0x024174050240C000, .sbfe .n32 1 (.s 2) (.s 3)),
   (0x0252740904419080, .sbfi .i64 2 (.s 4) (.s 6) (.s 8)),
   (0x0261740502000000, .spopc .n32 1 (.s 2)),
   (0x0271740502000000, .sclz .n32 1 (.s 2)),
   (0x0280A4040240C000, .mbal pn 1 (.v 2) (.s 3)),
   (0x0290740790000000, .many on 1 (.k 0x90)),
   (0x02A07404FF000000, .mall on 1 (.v 255)),
   (0x02B07406BF000000, .mpop on 1 (.ind 2 63)),
   (0x02C0A00396000000, .mset pn (.k 0x96))] : List (DWord × Instr)), decode e.1 = .ok e.2 := by decide

theorem test_decode_vector1 : ∀ e ∈ (
  [(0x0800701005018001, .vadd on .i32 true (.v 4) (.v 5) (.v 6)),
   (0x0817A01005018000, .vsub pn .n8x4 false (.v 4) (.v 5) (.v 6)),
   (0x082070110690C000, .vmul on .i32 (.v 4) (.s 6) (.ind 1 3)),
   (0x083170110690C000, .vmulh on .n32 (.v 4) (.s 6) (.ind 1 3)),
   (0x085270110690C000, .vmin on .i64 (.v 4) (.s 6) (.ind 1 3)),
   (0x086370110690C000, .vmax on .n64 (.v 4) (.s 6) (.ind 1 3)),
   (0x089470110690C000, .vand on .i16x2 (.v 4) (.s 6) (.ind 1 3)),
   (0x08A570110690C000, .vor on .n16x2 (.v 4) (.s 6) (.ind 1 3)),
   (0x08B670110690C000, .vxor on .i8x4 (.v 4) (.s 6) (.ind 1 3)),
   (0x08D770110690C000, .vshl on .n8x4 (.v 4) (.s 6) (.ind 1 3)),
   (0x08E070110690C000, .vshr on .i32 (.v 4) (.s 6) (.ind 1 3)),
   (0x08F170110690C000, .vsra on .n32 (.v 4) (.s 6) (.ind 1 3)),
   (0x0C02A0200202D6C5, .vaddImm pn .i64 (.v 8) (.v 2) 0x02D6C5),
   (0x0C13A0200202D6C5, .vsubImm pn .n64 (.v 8) (.v 2) 0x02D6C5)] : List (DWord × Instr)), decode e.1 = .ok e.2 := by decide

theorem test_decode_vector2 : ∀ e ∈ (
  [(0x0C20A0200202D6C5, .vmulImm pn .i32 (.v 8) (.v 2) 0x02D6C5),
   (0x0C51A0200202D6C5, .vminImm pn .n32 (.v 8) (.v 2) 0x02D6C5),
   (0x0C62A0200202D6C5, .vmaxImm pn .i64 (.v 8) (.v 2) 0x02D6C5),
   (0x0C93A0200202D6C5, .vandImm pn .n64 (.v 8) (.v 2) 0x02D6C5),
   (0x0CA0A0200202D6C5, .vorImm pn .i32 (.v 8) (.v 2) 0x02D6C5),
   (0x0CB1A0200202D6C5, .vxorImm pn .n32 (.v 8) (.v 2) 0x02D6C5),
   (0x0CD2A0200202D6C5, .vshlImm pn .i64 (.v 8) (.v 2) 0x02D6C5),
   (0x0CE3A0200202D6C5, .vshrImm pn .n64 (.v 8) (.v 2) 0x02D6C5),
   (0x0CF0A0200202D6C5, .vsraImm pn .i32 (.v 8) (.v 2) 0x02D6C5),
   (0x084470040200C050, .vmad on .i16x2 (.v 1) (.v 2) (.v 3) (.v 5)),
   (0x0870700402000001, .vabs on .i32 true (.v 1) (.v 2)),
   (0x0886700402000000, .vneg on .i8x4 false (.v 1) (.v 2)),
   (0x08C1700402000000, .vnot on .n32 (.v 1) (.v 2)),
   (0x090170040200C000, .vbfe on .n32 (.v 1) (.v 2) (.v 3))] : List (DWord × Instr)), decode e.1 = .ok e.2 := by decide

theorem test_decode_vector3 : ∀ e ∈ (
  [(0x091070040200C050, .vbfi on .i32 (.v 1) (.v 2) (.v 3) (.v 5)),
   (0x0921700402000000, .vpopc on .n32 (.v 1) (.v 2)),
   (0x0931700402000000, .vclz on .n32 (.v 1) (.v 2)),
   (0x09417E43A0C20005, .vcmp on .n32 .ge (.k 0x90) (.k 0xA0) (.k 0x08)),
   (0x0950701B01D03910, .vsel on .i32 (.v 6) (.k 1) (.k 0x40) (.k 0x91)),
   (0x0963700804000000, .vmov on .n64 (.v 2) (.v 4)),
   (0x0971700800FFFFFF, .vmovi on .n32 (.v 2) 0xFFFFFF)] : List (DWord × Instr)), decode e.1 = .ok e.2 := by decide

theorem test_decode_float1 : ∀ e ∈ (
  [(0x1000A01006E08001, .fadd pn .f32 .tz (.v 4) (.v 6) (.k 0x82)),
   (0x1011A01006E08002, .fsub pn .f64 .up (.v 4) (.v 6) (.k 0x82)),
   (0x1022A01006E08003, .fmul pn .f16x2 .dn (.v 4) (.v 6) (.k 0x82)),
   (0x1043A01006E08000, .fmin pn .bf16x2 .ne (.v 4) (.v 6) (.k 0x82)),
   (0x1050A01006E08001, .fmax pn .f32 .tz (.v 4) (.v 6) (.k 0x82)),
   (0x10A1A01006E08002, .fdiv pn .f64 .up (.v 4) (.v 6) (.k 0x82)),
   (0x1030702001008031, .ffma on .f32 .tz (.v 8) (.v 1) (.v 2) (.v 3)),
   (0x10607E440200F020, .fcmp on .f32 .ne .lt (.k 0x91) (.v 2) (.v 3)),
   (0x14007010063F8000, .faddImm on .f32 (.v 4) (.v 6) 0x3F8000),
   (0x14117010063F8000, .fsubImm on .f64 (.v 4) (.v 6) 0x3F8000),
   (0x14207010063F8000, .fmulImm on .f32 (.v 4) (.v 6) 0x3F8000),
   (0x14417010063F8000, .fminImm on .f64 (.v 4) (.v 6) 0x3F8000),
   (0x14507010063F8000, .fmaxImm on .f32 (.v 4) (.v 6) 0x3F8000),
   (0x1070701006000000, .frcp on .f32 .ne (.v 4) (.v 6))] : List (DWord × Instr)), decode e.1 = .ok e.2 := by decide

theorem test_decode_float2 : ∀ e ∈ (
  [(0x1080701006000000, .frsq on .f32 .ne (.v 4) (.v 6)),
   (0x1090701006000000, .fsqrt on .f32 .ne (.v 4) (.v 6)),
   (0x10B0701006000000, .fex2 on .f32 .ne (.v 4) (.v 6)),
   (0x10C0701006000000, .flg2 on .f32 .ne (.v 4) (.v 6)),
   (0x10D0701006000000, .fsin on .f32 .ne (.v 4) (.v 6)),
   (0x10E0701006000000, .fcos on .f32 .ne (.v 4) (.v 6)),
   (0x10F0701006000000, .ffrc on .f32 .ne (.v 4) (.v 6)),
   (0x1100701006000000, .frnd on .f32 .ne (.v 4) (.v 6))] : List (DWord × Instr)), decode e.1 = .ok e.2 := by decide

theorem test_decode_lanes : ∀ e ∈ (
  [(0x1806701C09818000, .cvt on .i8 .f32 true .tz 0 (.v 7) (.v 9)),
   (0x1808701804A40000, .cvt on .f32 .f16 false .ne 1 (.v 6) (.v 4)),
   (0x1810700010800000, .lpack on true (.v 0) (.v 16)),
   (0x1820A04000000000, .lunp pn false (.v 16) (.v 0)),
   (0x183370040200C001, .hpack on .bf16x2 .tz (.v 1) (.v 2) (.v 3)),
   (0x1840700402C04003, .shfl on .i32 .xor (.v 1) (.v 2) (.k 1)),
   (0x1851700402404002, .pshw on .n32 .down (.v 1) (.v 2) (.s 1)),
   (0x1862700804404000, .bcst on .i64 (.v 2) (.v 4) (.s 1)),
   (0x1870740801100000, .vred on .add .f32 .ne (.s 2) (.v 1)),
   (0x1880700801412000, .vscan on .max .n32 true .ne (.v 2) (.v 1)),
   (0x458000100B002000, .pairWord { pop := .vmov, hpred := .always, imm := false, d := 0, s := 1 } { pop := .vmov, hpred := .always, imm := false, d := 1, s := 0 })] : List (DWord × Instr)), decode e.1 = .ok e.2 := by decide

theorem test_decode_memory1 : ∀ e ∈ (
  [(0x2002701504000040, .ld on .b32 false (.v 5) (.s 4) 0x40),
   (0x20127C1C02000008, .st on .b32 false (.k 7) (.v 2) 8),
   (0x202C741108FFFFF0, .lds .b128 true 4 8 0xFFFFF0),
   (0x2033741908000000, .sts .b64 false 6 8 0),
   (0x2040701403000001, .ldl on .b8 false (.v 5) (.v 3) 1),
   (0x2051A41503000002, .stl pn .b16 false (.s 5) (.s 3) 2),
   (0x206A701403000000, .lda on .b32 true (.v 5) (.v 3) 0),
   (0x20727DFC03000000, .sta on .b32 false (.k 0x7F) (.v 3) 0),
   (0x208B700004000080, .pref on .b64 true (.v 4) 128),
   (0x2092700104000000, .cflush on .b32 false (.s 4) 0),
   (0x20A2700004000000, .cinv on .b32 false (.v 4) 0),
   (0x2800701802021A00, .atom on .i32 .add .acq .island (some (.v 6)) (.v 2) (.v 8)),
   (0x28047FFD02022E07, .atom on .f32 .cas .ar .sys none (.s 2) (.v 8)),
   (0x281170000AC04000, .red on .n32 .add .relaxed .team (.v 10) (.k 1))] : List (DWord × Instr)), decode e.1 = .ok e.2 := by decide

theorem test_decode_memory2 : ∀ e ∈ (
  [(0x282200151A000000, .put { pred := 0, neg := false } .b32 (.v 5) (.s 26) 0),
   (0x283370100A430040, .putn on .b64 (.v 4) (.v 10) (.s 12) 1),
   (0x284270100A419080, .putm on .b32 (.v 4) (.v 10) (.s 6) 8),
   (0x2852701002000000, .get on .b32 (.v 4) (.v 2) 0),
   (0x2863701802022402, .ratom on .n64 .max .rel .panel (some (.v 6)) (.v 2) (.v 8)),
   (0x2870740904418887, .cpy 2 4 6 .lspace .global (some 7)),
   (0x2880740904420200, .cpyt 2 4 8 .global .aspace none)] : List (DWord × Instr)), decode e.1 = .ok e.2 := by decide

theorem test_decode_matrix1 : ∀ e ∈ (
  [(0x30007E4400000000, .macq 1),
   (0x3010700000000000, .mrel),
   (0x3020700106000000, .mgang 6),
   (0x3030742000000089, .mwld 8 (some 9)),
   (0x3040742002008189, .mma (.plain 8) 0 256 2 true (some 9)),
   (0x3040700000086A00, .mma (.feedback 2 true) 0 4 1 false none),
   (0x305074200040C000, .mmag 8 0 32 3 false none),
   (0x306674290E431289, .mdrn false (some .int8) 10 (some 14) 12 2 false false (some 9)),
   (0x3070700000008100, .mzro 0x81 none),
   (0x3080708120000000, .mtld (.v 32) 2 2),
   (0x3090700030000000, .mtst (.v 0) 0 3),
   (0x30A0729E80000000, .mpoly 1 2 3 13 none),
   (0x30B1702141000000, .miter .cubic false 0 0 4 0x28 2 none),
   (0x30C0742000000000, .mtab 8 none)] : List (DWord × Instr)), decode e.1 = .ok e.2 := by decide

theorem test_decode_matrix2 : ∀ e ∈ (
  [(0x30D074C800000000, .mstat 50 0)] : List (DWord × Instr)), decode e.1 = .ok e.2 := by decide

theorem test_decode_sync1 : ∀ e ∈ (
  [(0x3800700000000005, .txb 5),
   (0x3810700000000003, .txo 3),
   (0x3820700000000000, .txe),
   (0x3830700000000000, .txr),
   (0x3840700000000000, .txa),
   (0x3850741800000000, .txs 6),
   (0x3860700000001E00, .fence .ar .island),
   (0x3870700104CFD050, .bini 4 (.k 0x3F) (.s 5)),
   (0x3880741504C00000, .barv (some 5) 4 (.k 0)),
   (0x3890700104414000, .bwt 4 (.s 5)),
   (0x38A070010E440000, .qpsh 0 14 16),
   (0x38B1742902000000, .qpop 1 10 2),
   (0x38C0700106CFC000, .ntfy 6 (.k 0x3F)),
   (0x38D0700106420000, .nwt 6 (.s 8))] : List (DWord × Instr)), decode e.1 = .ok e.2 := by decide

theorem test_decode_sync2 : ∀ e ∈ (
  [(0x38E0742000000006, .tlrd .cl .issued 8),
   (0x38F070010C000001, .tlwt .mx 12),
   (0x3900701006030087, .coll on .ar (.v 4) (.v 6) 3 (some 7))] : List (DWord × Instr)), decode e.1 = .ok e.2 := by decide

/-! ## One word on a small state: results by hand -/

/-- What a word leaves of its team, where it answers a next state. -/
def ran (i : Instr) (s : State) : Option Team :=
  match exec i s with
  | .next t => t.teams.find? 2
  | _ => none
/-- A register of lane 0 afterwards, and a scalar register. -/
def lane0 (i : Instr) (s : State) (r : Nat) : Option Word := (ran i s).map fun t => t.regs.vget 0 r
def scal (i : Instr) (s : State) (r : Nat) : Option Word := (ran i s).map fun t => t.regs.sget r
/-- Lane 0 of v1 and v2, s1 and s2. -/
def vals (a b : Word) : State := regs (fun g => (((g.vset 0 1 a).vset 0 2 b).sset 1 a).sset 2 b) st

-- 0xFFFFFFFF + 2 is 1 modulo 2^32; under saturation of a signed type 2^31 - 1 + 1 stays (R169); the source is the destination
theorem test_vadd_wraps : lane0 (.vadd on .n32 false (.v 1) (.v 1) (.v 2)) (vals 0xFFFFFFFF 2) 1 = some 1 ∧
    lane0 (.vadd on .i32 true (.v 1) (.v 1) (.v 2)) (vals 0x7FFFFFFF 1) 1 = some 0x7FFFFFFF := by decide +kernel
-- lane 0 is not enabled by !p2 when p2 is 1 there
theorem test_vadd_guarded : lane0 (.vadd pn .n32 false (.v 3) (.v 1) (.v 2)) (regs (fun g => g.pset 2 1) (vals 5 6)) 3 = some 0 := by
  decide +kernel
-- -8 - 7 = -15; the upper word of -1 times 2 is -1, unsigned 1 (R122)
theorem test_scalar_results : scal (.ssub .i32 5 (.s 1) (.s 2)) (vals 0xFFFFFFF8 7) 5 = some 0xFFFFFFF1 ∧
    scal (.smulh .i32 5 (.s 1) (.s 2)) (vals 0xFFFFFFFF 2) 5 = some 0xFFFFFFFF ∧
    scal (.smulh .n32 5 (.s 1) (.s 2)) (vals 0xFFFFFFFF 2) 5 = some 1 := by decide +kernel
-- 1.5 times 2.0 plus 1.5 is 4.5; 1 / 2 is 0.5
theorem test_float_results : lane0 (.ffma on .f32 .ne (.v 3) (.v 1) (.v 2) (.v 1)) (vals 0x3FC00000 0x40000000) 3 = some 0x40900000 ∧
    lane0 (.fadd on .f32 .ne (.v 3) (.v 1) (.v 2)) (vals 0x3F800000 0xBF800000) 3 = some 0 := by decide +kernel
-- 2.5 to the nearest even integer is 2, toward plus infinity 3
theorem test_cvt_rounds : lane0 (.cvt on .i32 .f32 false .ne 0 (.v 3) (.v 1)) (vals 0x40200000 0) 3 = some 2 ∧
    lane0 (.cvt on .i32 .f32 false .tz 0 (.v 3) (.v 1)) (vals 0xC0200000 0) 3 = some 0xFFFFFFFE := by decide +kernel
-- every lane reads lane 0 through XOR with its own number only in lane 0; lane 1 reads lane 0 under XOR 1
theorem test_shfl_xor : (ran (.shfl on .n32 .xor (.v 3) (.v 1) (.k 1)) (vals 77 0)).map (fun t => (t.regs.vget 1 3, t.regs.vget 0 3)) =
    some (77, 0) := by decide +kernel
-- SETK and SETFMT read back
theorem test_setfmt : (ran (.setfmt (.imm 0x123456)) st).map (fun t => t.regs.fmt) = some 0x123456 := by decide +kernel

/-! ## Hypotheses met: scalar, vector and control words -/

theorem witness_ScalarResults : Issues st (who st) ∧ ITy.plain .n64 = true ∧
    ∀ o ∈ [Operand.k 0x40, .s 2, .k 0], srcVal st (who st) (ITy.elem .n64) 0 o < 2 ^ (ITy.elem .n64).w :=
  ⟨rfl, yes, yes⟩

theorem witness_ScalarMoves : Issues st (who st) ∧ ITy.plain .i32 = true ∧
    ∀ o ∈ [Operand.k 0x40, .s 63, .k 0x3F], srcVal st (who st) (ITy.elem .i32) 0 o < 2 ^ (ITy.elem .i32).w :=
  ⟨rfl, yes, yes⟩

theorem witness_QueriesRead : Issues st (who st) ∧ src32 st (who st) 0 (.k 31) < 32 ∧ src32 st (who st) 0 (.k 32) = 32 ∧
    (∀ j ∈ [33, 34, 35, 36, 37, 38], src32 st (who st) 0 (.k (BitVec.ofNat 8 j)) = j) ∧ 38 < src32 st (who st) 0 (.k 39) :=
  ⟨rfl, yes, yes, yes, yes⟩

theorem witness_MaskWordsCount : Issues st (who st) ∧ (who st).t.lanes ≤ 1024 ∧ inBounds (who st).t 1 (.v 255) = true ∧
    (who st).lanes none0 = [] ∧ (who st).lanes on ≠ [] := ⟨rfl, yes, yes, yes, yes⟩

theorem witness_TeamRegistersSet : let x := who st
    Issues st x ∧ (x.t.cnt.ld ≤ 0 ∧ x.t.cnt.st ≤ 0 ∧ x.t.cnt.rm ≤ 0) ∧ inBounds x.t 1 (.k 0x97) = true ∧
    x.t.lanes ≤ 1024 ∧ x.t.flow.mask ≠ 0 ∧ ∀ l ∈ List.range 1024,
      laneIn x.t.flow.mask l = (laneIn x.t.flow.mask l && !decide (l ∈ x.lanes on ∧ condVal st x l (.k 0x97) = false)) :=
  ⟨rfl, yes, yes, yes, yes, yes⟩

theorem witness_TeamRegistersSet_held : let s := cnt (fun c => { c with ld := 63 }) st
    Issues s (who s) ∧ ¬((who s).t.cnt.ld ≤ 62 ∧ (who s).t.cnt.st ≤ 0 ∧ (who s).t.cnt.rm ≤ 0) := ⟨rfl, yes⟩

theorem witness_VectorResults : let x := who st
    Issues st x ∧ Operand.isVec (.v 4) = true ∧ LaneReady x (x.lanes on) 1 [.v 4, .v 255, .s 3, .k 1] ∧
    (∀ o ∈ [Operand.v 255, .s 3, .k 0x40], ∀ l ∈ x.lanes on, srcVal st x (ITy.elem .i8x4) l o < 2 ^ 32) ∧
    ITy.plain .i32 = true :=
  ⟨rfl, rfl, ⟨yes, yes, .inr yes⟩, yes, yes⟩

theorem witness_ComparesSelect : let x := who st
    Issues st x ∧ 0x90 ≤ (0x96 : BitVec 8).toNat ∧ (0x96 : BitVec 8).toNat ≤ 0x96 ∧ ITy.plain .n64 = true ∧
    LaneReady x (x.lanes on) 2 [.v 254, .s 62] ∧ Operand.isVec (.v 0) = true ∧ LaneReady x (x.lanes on) 1 [.k 0x90] ∧
    ∀ o ∈ [Operand.v 254, .s 62], ∀ l ∈ x.lanes on, srcVal st x (ITy.elem .n64) l o < 2 ^ 64 :=
  ⟨rfl, yes, yes, rfl, ⟨yes, yes, .inr yes⟩, rfl,
    ⟨yes, yes, .inr yes⟩, yes⟩

theorem witness_FloatResults : let x := who st
    Issues st x ∧ Operand.isVec (.ind 0 63) = true ∧ LaneReady x (x.lanes on) 1 [.ind 0 63, .v 1, .k 0x87, .k 0x80] ∧
    (FTy.packed .f16x2 = true → (0x3C00 : BitVec 24).toNat < 2 ^ 16) :=
  ⟨rfl, rfl, ⟨yes, yes, .inr yes⟩, yes⟩

/-- A register of value 300 in every lane does not fit 8 bits. -/
theorem witness_conversionsPack : let x := who st
    Issues st x ∧ x.t.vregs ≤ 256 ∧ x.t.lanes ≤ 1024 ∧ inBounds x.t 1 (.v 255) = true ∧
    ((x.lanes on).filter fun l => cvtBad .i8 .i32 .ne (cvtVal .i32 (cvtElem st x .i32 0 l (.v 0)))
      (BitVec.ofNat 32 (cvtElem st x .i32 0 l (.v 0))).toInt) = [] ∧
    (let s := regs (fun g => g.vset 5 0 300) st;
      ((who s).lanes on).filter (fun l => cvtBad .i8 .i32 .ne (cvtVal .i32 (cvtElem s (who s) .i32 0 l (.v 0)))
        (BitVec.ofNat 32 (cvtElem s (who s) .i32 0 l (.v 0))).toInt) = [5]) ∧
    FTy.packed .f16x2 = true ∧ rangeInBounds x.t 3 (.v 253) = true ∧ rangeInBounds x.t 16 (.v 240) = true :=
  ⟨rfl, yes, yes, yes, yes, yes, rfl, yes, yes⟩

theorem witness_lanesExchange : let x := who st
    Issues st x ∧ Operand.isVec (.v 1) = true ∧ LaneReady x (x.lanes on) 1 [.v 1, .v 2] ∧
    LaneReady x (x.lanes on) 1 [.k 1] ∧ x.lanes on ≠ [] ∧ partnerLane .up x.t.lanes 0 1 = none ∧
    partnerLane .up x.t.lanes 31 1 = some 30 ∧ RTy.isFloat .i32 = false :=
  ⟨rfl, rfl, ⟨yes, yes, .inr yes⟩, ⟨yes, yes, .inr yes⟩, yes, yes,
    yes, rfl⟩

theorem witness_lanesCombine : let x := who st
    Issues st x ∧ x.t.vregs ≤ 256 ∧ x.t.lanes ≤ 1024 ∧ Operand.isVec (.v 254) = true ∧ x.lanes none0 = [] ∧
    x.lanes on ≠ [] ∧ inBounds x.t 2 (.v 254) = true ∧ inBounds x.t 2 (.k 0x40) = true ∧ RTy.isFloat .i64 = false ∧
    RTy.isFloat .f32 = true :=
  ⟨rfl, yes, yes, rfl, yes, yes, yes, yes, rfl, rfl⟩
theorem witness_combineValues : (2 ^ 64 - 1 : Nat) < 2 ^ (RTy.elem .i64).w ∧ RTy.isFloat .n32 = false ∧
    (RTy.elem .n32).sgn = false ∧ (RTy.elem .i32).sgn = true ∧ (RTy.elem .f32).flt = some .fp32 ∧
    (0x7FC00000 : Nat) < 2 ^ (RTy.elem .f32).w := by decide +kernel
-- the sum of 0 to 31; before lane 3 it is 0 + 1 + 2 (R193, R194)
def counting : State := regs (fun g => (List.range 32).foldl (fun g l => g.vset l 1 (BitVec.ofNat 32 l)) g) st
theorem test_reductions : scal (.vred on .add .i32 .ne (.s 5) (.v 1)) counting 5 = some 496 ∧
    (ran (.vscan on .add .i32 true .ne (.v 3) (.v 1)) counting).map (fun t => t.regs.vget 3 3) = some 3 := by decide +kernel

theorem witness_pairWordsWrite_missing : let s := team (fun t => { t with vregs := 8 }) st
    Issues s (who s) ∧ (who s).t.vregs ≤ 256 ∧ (who s).t.lanes ≤ 1024 ∧
    ¬((8 : BitVec 8).toNat < (who s).t.vregs) ∧ laneIn (who s).t.flow.mask 0 = true := ⟨rfl, yes, yes, yes, yes⟩
theorem witness_pairWordsWrite : let x := who st
    Issues st x ∧ x.t.vregs ≤ 256 ∧ x.t.lanes ≤ 1024 ∧ ∀ h ∈ [({ pop := .vadd, hpred := .notP0, imm := true, d := 255, s := 0x80 } : Half),
      { pop := .fmul, hpred := .always, imm := false, d := 0, s := 255 }],
      h.d.toNat < x.t.vregs ∧ (h.imm = true ∨ h.s.toNat < x.t.vregs) := ⟨rfl, yes, yes, yes⟩

/-- A travelling kernel whose segment 0 to 63 stands on core 0. -/
def trav : State :=
  (kern (fun k => { k with
    launch := { k.launch with travel := true, ovfUnits := 1 }
    image := { k.image with
      entries := [{ off := 64, fill := 32, timer := 0, liveV := 1, target := true, handler := false, start := false }]
      segs := [{ start := 0, len := 64, thresh := 1, maxrep := 2 }, { start := 64, len := 64, thresh := 1, maxrep := 2 }] }
    segMap := [{ holders := [{ core := 0, load := 0, lastArrival := 0, inMap := true }] },
      { holders := [{ core := 1, load := 0, lastArrival := 0, inMap := true }] }] }) st).updCore 0
    fun c => { c with code := [{ kernel := 0, base := 0, size := 64, bytes := [] }] }

theorem witness_branchesJumpRule : let x := who st
    Issues st x ∧ inCode st x (branchTarget x 511) = true ∧ branchTarget x 511 % 8 = 0 ∧
    x.t.regs.sget 0 = 0 ∧ inCode st x (x.t.regs.sget 0).toNat = true ∧
    (let s := regs (fun g => g.sset 3 1) st;
      Issues s (who s) ∧ (who s).t.regs.sget 3 ≠ 0 ∧ inCode s (who s) (branchTarget (who s) 0) = true) :=
  ⟨rfl, yes, yes, yes, yes, rfl, yes, yes⟩

theorem witness_callsReturnRule :
    (let s := flow (fun f => { f with ret := [8, 16, 24, 32, 40, 48, 4088] }) st;
      let x := who s;
      Issues s x ∧ x.k.travels = false ∧ x.t.flow.ret.length < 8 ∧ inCode s x (branchTarget x 3) = true ∧
      branchTarget x 3 % 8 = 0 ∧ inCode s x 4088 = true) ∧
    let s := flow (fun f => { f with laneRet := (List.range 32).map fun l => (l, [56]) }) trav
    let x := who s
    Issues s x ∧ x.k.travels = true ∧ lanesOf x.t.flow.mask x.t.lanes ≠ [] ∧
      (∀ l ∈ lanesOf x.t.flow.mask x.t.lanes, (laneRetOf x.t l).length < 8 ∧ (laneRetOf x.t l).getLast? = some 56) ∧
      inCode s x (branchTarget x 7) = true ∧ inCode s x 56 = true :=
  ⟨⟨rfl, yes, yes, yes, yes, yes⟩, rfl, yes, yes, yes, yes,
    yes⟩

/-- Lanes 3 and 31 take a branch on v1. -/
def split : State := regs (fun g => (g.vset 3 1 1).vset 31 1 7) st

/-- `MaskIs` for masks without bits above 31. -/
theorem maskIs_of (m : Mask) (ls : List Nat) (h : ∀ l ∈ List.range 1024, laneIn m l = decide (l ∈ ls)) : MaskIs m ls :=
  fun l hl => h l (List.mem_range.2 hl)

theorem witness_divergePushesRule : let x := who split
    Issues split x ∧ x.t.lanes ≤ 1024 ∧ inBounds x.t 1 (.v 1) = true ∧ inCode split x (branchTarget x 4) = true ∧
    x.t.flow.stack.length < 32 + 192 / (8 + x.t.lanes / 4) ∧
    MaskIs (2 ^ 31 + 8) ((x.lanes on).filter fun l => src32 split x l (.v 1) ≠ 0) ∧
    MaskIs 0 ((x.lanes on).filter fun l => src32 split x l (.v 2) ≠ 0) :=
  ⟨rfl, yes, yes, yes, yes, maskIs_of _ _ yes, maskIs_of _ _ yes⟩

theorem witness_breakWaitsRule :
    let e : RecEntry := { st := .brk, off := some 32, saved := fullMask 32, todo := 1, fmt := 0 }
    let s := flow (fun f => { f with mask := f.mask &&& ~~~1, stack := [e] }) split
    let x := who s
    Issues s x ∧ inCode s x (branchTarget x 3) = true ∧ (branchTarget x 4).toNat = 32 ∧ (branchTarget x 3).toNat ≠ 32 ∧
    MaskIs (2 ^ 31 + 8) ((x.lanes on).filter fun l => src32 s x l (.v 1) ≠ 0) ∧
    x.t.flow.mask &&& ~~~((2 ^ 31 + 8 : Mask)) ≠ 0 ∧ x.t.flow.stack = [e] ∧ e.st = .brk ∧ e.off = some 32 :=
  ⟨rfl, yes, yes, yes, maskIs_of _ _ yes, yes, yes, rfl, rfl⟩

/-- A JOIN at 0 with one entry. -/
def joinAt (e : RecEntry) : State := flow (fun f => { f with stack := [e] }) st
theorem witness_JoinReconverges :
    (Issues st (who st) ∧ (who st).t.flow.stack = []) ∧
    ∀ e ∈ [({ st := .first, off := some 8, saved := 3, todo := 1, fmt := 5 } : RecEntry),
        { st := .first, off := some 8, saved := 3, todo := 0, fmt := 5 }, { st := .second, off := some 0, saved := 3, todo := 0, fmt := 5 },
        { st := .second, off := none, saved := 3, todo := 0, fmt := 5 }, { st := .brk, off := some 0, saved := 3, todo := 2, fmt := 5 },
        { st := .second, off := some 8, saved := 3, todo := 0, fmt := 5 }, { st := .brk, off := some 8, saved := 3, todo := 2, fmt := 5 }],
      Issues (joinAt e) (who (joinAt e)) ∧ (who (joinAt e)).t.flow.stack = [e] := by
  refine ⟨⟨rfl, yes⟩, ?_⟩
  intro e he
  exact ⟨rfl, rfl⟩

def emptied (es : List RecEntry) : Team := { (who st).t with flow := { pc := 0, mask := 0, stack := es } }
theorem witness_SettleUnwinds : (who st).t.flow.mask ≠ 0 ∧ (emptied []).flow.mask = 0 ∧
    ∀ e ∈ [({ st := .first, off := some 8, saved := 3, todo := 1, fmt := 5 } : RecEntry),
        { st := .second, off := none, saved := 3, todo := 0, fmt := 5 }, { st := .brk, off := some 16, saved := 0, todo := 0, fmt := 5 }],
      (emptied [e]).flow.mask = 0 ∧ (emptied [e]).flow.stack = [e] := ⟨yes, rfl, fun _ _ => ⟨rfl, rfl⟩⟩

theorem witness_ExitEnds : Issues st (who st) ∧
    (settled ((who st).t.without ((who st).lanes none0)) 8).isSome = true ∧
    settled { (who st).t with flow := { (who st).t.flow with
      mask := (who st).t.flow.mask &&& ~~~((who st).active on), stack := [] } } 8 = none := ⟨rfl, yes, yes⟩

theorem witness_TrapHaltsCrew : Issues st (who st) ∧ (who st).c.halt = none := ⟨rfl, rfl⟩

theorem witness_ControlTraps :
    (let x := who st;
      Issues st x ∧ x.k.travels = false ∧ inCode st x (branchTarget x 512) = false ∧ x.lanes on ≠ [] ∧
      inBounds x.t 1 (.v 0) = true ∧ x.t.tx = none ∧ x.t.flow.ret = [] ∧ inCode st x (branchTarget x 511) = true) ∧
    (let s := team (fun t => { t with vregs := 8, flow := { t.flow with ret := List.replicate 8 0 } }) (regs (fun g => g.sset 1 4) st);
      let x := who s;
      Issues s x ∧ inCode s x (x.t.regs.sget 1).toNat = true ∧ (x.t.regs.sget 1).toNat % 8 ≠ 0 ∧
      8 ≤ x.t.flow.ret.length ∧ lanesOf x.t.flow.mask x.t.lanes ≠ [] ∧ x.lanes on ≠ [] ∧ inBounds x.t 1 (.v 8) = false) ∧
    (let e : RecEntry := { st := .first, off := some 8, saved := 1, todo := 0, fmt := 0 };
      let s := flow (fun f => { f with stack := List.replicate 44 e }) split;
      Issues s (who s) ∧ maxDepth (who s).t.lanes ≤ (who s).t.flow.stack.length) ∧
    let x := who split
    Issues split x ∧ (x.lanes on).filter (fun l => condVal split x l (.v 1)) ≠ [] ∧ inCode split x (branchTarget x 512) = false :=
  ⟨⟨rfl, yes, yes, yes, yes, rfl, rfl, yes⟩,
    ⟨rfl, yes, yes, yes, yes, yes, yes⟩, ⟨rfl, yes⟩, rfl, yes, yes⟩

theorem witness_marksRule :
    (let s := cnt (fun c => { c with st := 1 }) st;
      Issues s (who s) ∧ (who s).t.tx = none ∧ (who s).t.cnt.st ≠ 0) ∧
    (Issues st (who st) ∧ (who st).t.cnt.st = 0 ∧ (who st).t.cnt.rm = 0 ∧ (who st).k.launch.rollback = false) ∧
    let s := kern (fun k => { k with launch := { k.launch with rollback := true, resident := true } }) st
    Issues s (who s) ∧ (who s).k.launch.rollback = true ∧ (who s).k.launch.resident = true :=
  ⟨⟨rfl, rfl, yes⟩, ⟨rfl, rfl, rfl, rfl⟩, rfl, rfl, rfl⟩

theorem witness_spawnsRule :
    let e : Entry := { off := 64, fill := 32, timer := 0, liveV := 0, target := false, handler := true, start := false }
    let s := kern (fun k => { k with image := { k.image with entries := [e] } }) st
    let x := who s
    Issues s x ∧ x.t.tx = none ∧ x.t.cnt.ld = 0 ∧ x.t.cnt.st = 0 ∧ x.lanes on ≠ [] ∧ x.t.lanes ≤ 1024 ∧
    rangeInBounds x.t ((15 : BitVec 4).toNat + 1) (.v 240) = true ∧ inBounds x.t 1 (.k 0x40) = true ∧
    x.k.image.entries[(0 : BitVec 8).toNat]? = some e ∧ e.handler = true :=
  ⟨rfl, rfl, rfl, rfl, yes, yes, yes, yes, rfl, rfl⟩

/-- Lane 0 of `trav` departs to an offset; the bin of core 1 for offset 64 holds `n` entries, if any. -/
def departing (goal : Word) (n : Option Nat) : State :=
  let s := regs (fun g => (g.vset 0 1 goal).pset 0 1) trav
  match n with
  | none => s
  | some n =>
    let e : LaneEntry := { kernel := 0, off := 64, isl := 0, core := 1, payload := .words [] }
    let b : Bin := { kernel := 0, off := 64, entries := List.replicate n e }
    s.updCore 1 fun c => { c with bins := [(3, b)] }
theorem witness_XferDeparts :
    (∀ n ∈ [none, some 127, some 128], let s := departing 64 n
      let x := who s
      Issues s x ∧ x.k.travels = true ∧ x.t.tx = none ∧ x.lanes none0 = [0] ∧ inBounds x.t 1 (.v 1) = true ∧
      src32 s x 0 (.v 1) = 64 ∧ (travelEntry x.k 64).map (·.liveV) = some 1 ∧ carriesPending s x.u 1 = false ∧
      x.k.overflow.length + 1 ≤ 128 * x.k.launch.ovfUnits ∧ x.u < s.uid ∧ s.msgs = [] ∧
      holderFor s x.c.kernel x.k x.c.isl 64 = some 1 ∧ (settled (x.t.without [0]) (x.t.flow.pc + 8)).isSome = true ∧
      binOf (s.core (coreKey 0 1)) 0 64 = n.map (fun _ => 3)) ∧
    (SMap.find? ((departing 64 (some 127)).core 1).bins 3).map (fun b => b.room (who trav).k) = some 1 ∧
    (SMap.find? ((departing 64 (some 128)).core 1).bins 3).map (fun b => b.room (who trav).k) = some 0 := by
  refine ⟨?_, yes, yes⟩
  intro n h
  fin_cases h <;> exact ⟨rfl, yes, rfl, yes, yes, yes, yes, yes,
    yes, yes, rfl, yes, yes, yes⟩
/-- The last lane of a team; a misaligned target and one that is no entry; no lane at all. -/
theorem witness_XferDeparts_others :
    (let s := flow (fun f => { f with mask := 1 }) (departing 64 none);
      Issues s (who s) ∧ (who s).lanes none0 = [0] ∧ settled ((who s).t.without [0]) ((who s).t.flow.pc + 8) = none) ∧
    (∀ goal ∈ [(68 : Word), 72], Issues (departing goal none) (who (departing goal none)) ∧ (who (departing goal none)).lanes none0 = [0]) ∧
    src32 (departing 68 none) (who (departing 68 none)) 0 (.v 1) % 8 = 4 ∧ travelEntry (who trav).k 72 = none ∧
    (who trav).lanes none0 = [] := by
  refine ⟨⟨rfl, yes, yes⟩, ?_, yes, yes, yes⟩
  intro goal h
  fin_cases h <;> exact ⟨rfl, yes⟩

/-! ## Hypotheses met: engines' state and memory words -/

def page0 : TlbEntry := { tenant := 0, page := 0, size := 0, isl := 0, frame := 0x10000, attr := .coherent, w := true }
/-- Page 0 of tenant 0 is held by the core's TLB; lanes 0 and 31 run under p0, with addresses 0xFC0 and 0xFE0 in v2. -/
def mapped : State :=
  regs (fun g => ((g.pset 0 0x80000001).vset 0 2 0xFC0).vset 31 2 0xFE0) (st.updCore 0 fun c => { c with tlb := [page0] })
/-- `Granted`, for evaluation. -/
theorem granted_of {s : State} {x : Issuer} {w : Want} {n : Nat} {las : List (Nat × Nat)} {hs : List Hit}
    (h : decide ((checkLanes s x.c.isl (some x.c.key) x.k.tenant w n las).1 =
      hs.map fun h => (h.lane, (h.va, Check.ok h.pa h.attr))) = true) : Granted s x w n las hs :=
  show _ = _ from of_decide_eq_true h
def hit (l va : Nat) : Hit := { lane := l, va := va, pa := 0x10000 + va, attr := .coherent }

/-- The crew holds matrix context 1, copy context 0 and collective context 2. -/
def engaged : State :=
  ((crew (fun c => { c with mxCtx := some 1, copyCtx := some 0, collCtx := some 2 }) st).updEngine 0 fun e =>
    { e with ctx1 := { crew := some 1, bank := 1, issued := 3, timeline := 3 } }).updIsl 0 fun i =>
    { i with live := true, copy := [(0, { crew := some 1 })], coll := [(2, { crew := some 1 })] }

theorem witness_EngineStateReads :
    (Issues engaged (who engaged) ∧ (who engaged).c.mxCtx = some 1 ∧ (1 : Nat) < 2 ∧
      (MxCtx.of engaged (who engaged).c).isSome = true ∧ (who engaged).t.tx = none ∧ (who engaged).t.cnt.st = 0 ∧
      boundCtx engaged (who engaged).c .cl = some (0, 0) ∧ boundCtx engaged (who engaged).c .mx = some (3, 3)) ∧
    Issues st (who st) ∧ (who st).c.mxCtx = none ∧ boundCtx st (who st).c .cp = none :=
  ⟨⟨rfl, rfl, yes, rfl, rfl, rfl, rfl, rfl⟩, rfl, rfl, rfl⟩

/-- A table of one page in memory: level 5 at 0x800 to level 0, whose first entry is a leaf of 4 KiB at 0x10000. -/
def tables (leaf : Nat) : State :=
  let put (s : State) (a x : Nat) : State := s.wrNat a 8 x
  ([(0x1000, 0x2001), (0x2000, 0x3001), (0x3000, 0x4001), (0x4000, 0x5001), (0x5000, 0x6001), (0x6000, leaf)]).foldl
    (fun s ax => put s ax.1 ax.2)
    ((st.updTenant 0 fun t => { t with ptroot := 0x1000 }).updIsl 0 fun i => { i with live := true })

/-- A present leaf: V 1, LEAF 1, W as given, an attribute code. -/
def leafWord (w attr : Nat) : Nat := 0x10000 + 1 + 2 + 8 * w + 16 * attr
def found (s : State) : Option TlbEntry :=
  match walk s 0 0xFF8 with
  | .leaf e => some e
  | _ => none

theorem witness_accessesCheckedRule :
    (0xFF9 % 8 ≠ 0 ∧ 0xFF8 % 8 = 0 ∧ 2 ^ 56 ≤ 2 ^ 56 ∧ 0xFF8 < 2 ^ 56) ∧
    (∀ e ∈ ((tables (leafWord 1 2)).core 0).tlb, e.covers 0 0xFF8 = false) ∧
    (∀ e ∈ ((tables (leafWord 1 2)).isl 0).tlb, e.covers 0 0xFF8 = false) ∧
    found (tables (leafWord 1 2)) = some page0 ∧ page0.isl = 0 ∧ page0.w = true ∧
    (found (tables (leafWord 0 1))).map (fun e => (e.attr, e.w)) = some (.shared, false) ∧
    (found (tables (leafWord 0 3))).map (·.attr) = some .none ∧
    walkStruck (tables (leafWord 1 2)) 0 0xFF8 = false ∧
    walkStruck ((tables (leafWord 1 2)).updIsl 0 fun i => { i with poison := [0x5000] }) 0 0xFF8 = true := by
  refine ⟨yes, yes, yes, ?_, rfl, rfl, ?_, ?_, ?_, ?_⟩ <;> decide +kernel

/-- A page that neither the topology nor a mirror line takes is what the tables say. -/
theorem walk_plain (s : State) (va : Nat) (h : va < 2 ^ 56) (hc : s.crews.all (fun uc => uc.2.mirror = none) = true)
    (ht : va / 4096 ≠ (Config.topoPage 0).toNat ∧ va / 4096 ≠ (Config.topoPage 0).toNat + 1) :
    walk s 0 va = walkFrom s 0 va 5 (s.tenant 0).ptroot := by
  have hs : specialPage s 0 va = none := by
    unfold specialPage
    simp only [ht.1, ht.2, or_self, if_false]
    rw [List.find?_eq_none.2]
    intro uc hm
    have := List.all_eq_true.1 hc uc hm
    simp_all
  unfold walk
  rw [if_neg (by omega), hs]
  cases walkFrom s 0 va 5 (s.tenant 0).ptroot <;> rfl

/-- The entry under which a tenant reads the topology table. -/
def topoEntry : TlbEntry :=
  { tenant := 0, page := (Config.topoPage 0).toNat, size := 0, isl := 32, frame := 2 ^ 44, attr := .shared, w := false }
/-- Where nothing is mapped, the topology's page is the PCP's. -/
theorem walk_topo (s : State) (h : s.mem = []) : let va := 4096 * (Config.topoPage 0).toNat
    specialPage s 0 va = some topoEntry ∧ walk s 0 va = .leaf topoEntry := by
  have hs : specialPage s 0 (4096 * (Config.topoPage 0).toNat) = some topoEntry := by
    unfold specialPage
    simp only [Nat.mul_div_cancel_left _ (show 0 < 4096 by omega), true_or, if_true, Nat.sub_self, Nat.mul_zero, Nat.add_zero,
      topoEntry]
  refine ⟨hs, ?_⟩
  have hl := (Config.topoPage 0).isLt
  unfold walk
  rw [if_neg (by omega), hs]
  have hz (a : Nat) : memNat [] a 8 = 0 := rfl
  unfold walkFrom State.rd
  simp [h, hz, natBits]
/-- A load of the topology table is no other access. -/
theorem witness_accessesCheckedRule_topo : walk st 0 (4096 * (Config.topoPage 0).toNat) = .leaf topoEntry ∧
    topoEntry.isl = 32 ∧ (st.isl 0).topo = false ∧ ((st.updIsl 0 fun i => { i with topo := true }).isl 0).topo = true :=
  ⟨(walk_topo st rfl).2, rfl, rfl, rfl⟩

/-- One of the pages 0 and 2 is not the topology's, and the tables map neither; with a size in a pointer both are bad. -/
theorem witness_accessesCheckedRule_walks : ∃ va ∈ [0, 0x2000],
    (∃ d p l z y, walk (tables 0) 0 va = .missing d p l z y) ∧
    walk ((tables 0).wrNat 0x5000 8 0x6081) 0 va = .bad := by
  rcases (by omega : (0 ≠ (Config.topoPage 0).toNat ∧ 0 ≠ (Config.topoPage 0).toNat + 1) ∨
      (2 ≠ (Config.topoPage 0).toNat ∧ 2 ≠ (Config.topoPage 0).toNat + 1)) with h | h
  · exact ⟨0, by simp, ⟨_, _, _, _, _, (walk_plain _ _ (by decide) rfl h).trans (by rfl)⟩,
      (walk_plain _ _ (by decide) rfl h).trans yes⟩
  · exact ⟨0x2000, by simp, ⟨_, _, _, _, _, (walk_plain _ _ (by decide) rfl h).trans (by rfl)⟩,
      (walk_plain _ _ (by decide) rfl h).trans yes⟩

/-- A page of island 1 seen from island 0. -/
theorem witness_accessesCheckedRule_remote :
    let e : TlbEntry := { page0 with isl := 1 }
    ¬(e.attr = .none ∨ (Want.store ∈ [Want.store, .atomic, .rwrite, .ratomic, .counter] ∧ (e.w = false ∨ e.attr = .shared)) ∨
      (Want.store ∈ [Want.atomic, .ratomic, .counter] ∧ e.attr ≠ .coherent)) ∧ e.isl ≠ 0 ∧ e.isl ≠ 32 ∧
    (Want.store = .load → e.attr ≠ .shared) := by decide

/-- The loads of lanes 0 and 31, and the one of LDS, are granted. -/
theorem witness_GlobalWordsEnter : let x := who mapped
    Issues mapped x ∧ x.t.tx = none ∧ x.lanes none0 ≠ [] ∧ inBounds x.t (ceilDiv 16 4) (.v 252) = true ∧
    inBounds x.t 2 (.v 2) = true ∧ x.t.cnt.ld ≠ 63 ∧ x.t.cnt.st ≠ 63 ∧
    Granted mapped x .load 16 ((x.lanes none0).map fun l => (l, ea64 x (.v 2) 16 l)) [hit 0 0xFD0, hit 31 0xFF0] ∧
    Granted mapped x .store 16 ((x.lanes none0).map fun l => (l, ea64 x (.v 2) 16 l)) [hit 0 0xFD0, hit 31 0xFF0] ∧
    Granted mapped x .load 8 [(0, ea64 x (.s 4) 0xFF8 0)] [hit 0 0xFF8] ∧
    Granted mapped x .store 8 [(0, ea64 x (.s 4) 0xFF8 0)] [hit 0 0xFF8] :=
  ⟨rfl, rfl, yes, yes, yes, yes, yes, granted_of yes,
    granted_of yes, granted_of yes, granted_of yes⟩

/-- 4096 bytes of each typed space. -/
def spaces (s : State) : State := kern (fun k => { k with image := { k.image with lspace := 4096, aspace := 4096, wspace := 65536 } }) s

theorem witness_TypedWordsEnter : let s := spaces mapped
    let x := who s
    Issues s x ∧ x.lanes none0 ≠ [] ∧ inBounds x.t (ceilDiv 16 4) (.v 252) = true ∧ inBounds x.t 1 (.v 2) = true ∧
    x.t.cnt.ld ≠ 63 ∧ x.t.cnt.st ≠ 63 ∧
    (∀ l ∈ x.lanes none0, ea32 x (.v 2) 16 l % 16 = 0 ∧ ea32 x (.v 2) 16 l + 16 ≤ x.k.image.lspace) ∧
    (let s1 := regs (fun g => g.pset 0 1) s;
      (who s1).lanes none0 = [0] ∧ (who s1).k.image.lspace < ea32 (who s1) (.v 2) 0x40 0 + 4 ∧
      ea32 (who s1) (.v 2) 0x3D 0 + 2 ≤ (who s1).k.image.lspace ∧ ea32 (who s1) (.v 2) 0x3D 0 % 2 ≠ 0 ∧
      0 ≤ (regVal (who s1).t.regs 0 1 (.v 2) : Int) + (0x3D : BitVec 24).toInt ∧
      ¬0 ≤ (regVal (who s1).t.regs 0 1 (.v 9) : Int) + (0xFFFFFF : BitVec 24).toInt) :=
  ⟨rfl, yes, yes, yes, yes, yes, yes, yes,
    yes, yes, yes, yes, yes⟩

theorem witness_AtomicWordsEnter : let x := who mapped
    Issues mapped x ∧ x.t.tx = none ∧ x.lanes none0 ≠ [] ∧ inBounds x.t 2 (.v 2) = true ∧
    inBounds x.t 4 (.v 252) = true ∧ (∀ o, some (Operand.v 254) = some o → inBounds x.t 2 o = true) ∧
    releasable x.t .sys = true ∧
    Granted mapped x .atomic 8 ((x.lanes none0).map fun l => (l, ea64 x (.v 2) 0 l)) [hit 0 0xFC0, hit 31 0xFE0] ∧
    x.t.cnt.get .ld ≠ 63 ∧ x.t.cnt.st ≠ 63 :=
  ⟨rfl, rfl, yes, yes, yes, fun o h => by cases h; decide, yes,
    granted_of yes, yes, yes⟩

/-- A kernel of the islands 0 and 1, with page 0 at home and page 1 on island 1 in the TLB. -/
def both : State :=
  kern (fun k => { k with isls := some [0, 1] }) (mapped.updCore 0 fun c =>
    { c with tlb := [page0, { page0 with page := 1, isl := 1, frame := 2 ^ 39 + 0x20000 }] })

theorem witness_RemoteWordsSend : let s := regs (fun g => (g.sset 12 0x1010).sset 16 0x1000) both
    let x := who s
    let far (l va : Nat) : Hit := { lane := l, va := va, pa := 2 ^ 39 + 0x1F000 + va, attr := .coherent }
    Issues s x ∧ x.t.tx = none ∧ x.lanes none0 ≠ [] ∧ x.t.cnt.rm ≠ 63 ∧ inBounds x.t 2 (.v 2) = true ∧
    inBounds x.t (ceilDiv 4 4) (.k 7) = true ∧ inBounds x.t 2 (.s 12) = true ∧
    Granted s x .rwrite 4 ((x.lanes none0).map fun l => (l, ea64 x (.v 2) 0x1000 l)) [far 0 0x1FC0, far 31 0x1FE0] ∧
    Granted s x .rread 4 ((x.lanes none0).map fun l => (l, ea64 x (.v 2) 0x1000 l)) [far 0 0x1FC0, far 31 0x1FE0] ∧
    Granted s x .rwrite 4 ((x.lanes none0).map fun l => (l, ea64 x (.v 2) 0 l)) [hit 0 0xFC0, hit 31 0xFE0] ∧
    Granted (afterChecks s x .rwrite 4 ((x.lanes none0).map fun l => (l, ea64 x (.v 2) 0 l))) x .counter 4
      ([(x.lanes none0).headD 0].map fun l => (l, regVal x.t.regs l 2 (.s 12))) [far 0 0x1010] ∧
    ((List.range 32).filter fun i => (src32 s x 0 (.k 3)).testBit i) = [0, 1] ∧ (x.k.isls.getD []).length = 2 ∧
    Granted s x .rwrite 4 [(0, 0xFC0), (0, 0x1FC0), (31, 0xFE0), (31, 0x1FE0)]
      [hit 0 0xFC0, far 0 0x1FC0, hit 31 0xFE0, far 31 0x1FE0] ∧
    (((x.lanes none0).map fun l => [0, 1].map fun i =>
      (l, (ea64 x (.v 2) 0 l + i * (x.t.regs.sget64 16).toNat) % 2 ^ 64)).flatten) =
        [(0, 0xFC0), (0, 0x1FC0), (31, 0xFE0), (31, 0x1FE0)] ∧
    ([hit 0 0xFC0, far 0 0x1FC0, hit 31 0xFE0, far 31 0x1FE0].map fun h => homeOf x.c.isl h.pa) = [0, 1, 0, 1] ∧
    releasable x.t .panel = true ∧
    Granted s x .ratomic 8 ((x.lanes none0).map fun l => (l, ea64 x (.v 2) 0 l)) [hit 0 0xFC0, hit 31 0xFE0] :=
  ⟨rfl, rfl, yes, yes, yes, yes, yes, granted_of yes,
    granted_of yes, granted_of yes, granted_of yes, yes,
    yes, granted_of yes, yes, yes, yes,
    granted_of yes⟩

theorem witness_MemoryWordsIdle :
    (Issues st (who st) ∧ (who st).lanes none0 = []) ∧
    (let s := cnt (fun _ => { ld := 63, st := 63, rm := 63 }) st;
      Issues s (who s) ∧ (who s).lanes on ≠ [] ∧ (who s).t.cnt.ld = 63 ∧ (who s).t.cnt.st = 63 ∧ (who s).t.cnt.rm = 63 ∧
      (who s).t.tx = none) ∧
    let s := team (fun t => { t with vregs := 8 }) st
    Issues s (who s) ∧ (who s).lanes on ≠ [] ∧ (who s).t.cnt.ld ≠ 63 ∧ (who s).t.cnt.st ≠ 63 ∧
    inBounds (who s).t (ceilDiv Sz.b64.bytes 4) (.v 8) = false :=
  ⟨⟨rfl, yes⟩, ⟨rfl, yes, rfl, rfl, rfl, rfl⟩, rfl, yes, yes, yes,
    yes⟩

/-! ## Hypotheses met: operations performed -/

theorem noLines_of (s : State) (h : s.cores.all (fun kc => kc.2.l1 = []) = true) (k : Nat) : (s.core k).l1 = [] := by
  have := fun kc hm => of_decide_eq_true (List.all_eq_true.1 h kc hm)
  unfold State.core
  exact SMap.get_all (P := fun c : Core => c.l1 = []) rfl s.cores this k
/-- No team but `u` has a transaction. -/
theorem noTx_of (s : State) (u : Nat) (h : s.teams.all (fun ut => ut.1 = u ∨ ut.2.tx = none) = true) :
    ∀ ut ∈ s.teams, ut.1 ≠ u → ut.2.tx = none :=
  fun ut hm => (of_decide_eq_true (List.all_eq_true.1 h ut hm)).resolve_left
/-- `Quiet` of a state with no L1 lines and no transaction. -/
theorem quiet_of (s : State) (h : s.cores.all (fun kc => kc.2.l1 = []) = true)
    (h2 : s.teams.all (fun ut => ut.2.tx = none) = true) : Quiet s := by
  exact ⟨noLines_of s h, fun ut hm => of_decide_eq_true (List.all_eq_true.1 h2 ut hm)⟩

theorem clean_of (s : State) (h : s.isls.all (fun ki => ki.2.poison = []) = true) (i : Nat) : (s.isl i).poison = [] :=
  SMap.get_all (P := fun x : Island => x.poison = []) rfl s.isls (fun kc hm => of_decide_eq_true (List.all_eq_true.1 h kc hm)) i

/-- One operation of the team in flight, of one lane. -/
def op0 (ctr : Ctr) (kind : OpKind) (addr : Nat) : Op :=
  { team := 2, crew := 1, kernel := 0, tenant := 0, isl := 0, core := 0, ctr := ctr, kind := kind,
    accs := [{ lane := 31, addr := addr, data := 7 }] }
def flying (o : Op) : State := { cnt (fun _ => { ld := 1, st := 1, rm := 1 }) st with ops := [(9, o)] }
/-- A load of v0 in flight, which the payload carries. -/
theorem witness_XferDeparts_late : let s := { departing 64 none with ops := [(9, op0 .ld (.load .global 4 false 0) 64)] }
    Issues s (who s) ∧ (who s).lanes none0 = [0] ∧ carriesPending s 2 1 = true := ⟨rfl, yes, yes⟩

theorem witness_typedLoadsLandRule : let o := op0 .ld (.load .lspace 16 false 252) 4080
    let s := flying o
    s.ops.find? 9 = some o ∧ o.ctr = .ld ∧ opReady s 9 o = true ∧ (s.crews.find? o.crew).isSome = true ∧
    (s.teams.find? o.team).isSome = true ∧ (o.accs.map (·.lane)).Nodup ∧ 252 + ceilDiv 16 4 ≤ 256 := by
  decide +kernel

theorem witness_globalLoadsLandRule : let o := op0 .ld (.load .global 4 false 255) 0x10FFC
    let s := flying o
    Quiet s ∧ (∀ i, (s.isl i).poison = []) ∧ s.ops.find? 9 = some o ∧ o.ctr = .ld ∧ opReady s 9 o = true ∧
    (s.teams.find? o.team).isSome = true ∧ (∀ a ∈ o.accs, a.attr = .coherent) ∧ (o.accs.map (·.lane)).Nodup ∧
    255 + ceilDiv 4 4 ≤ 256 :=
  ⟨quiet_of _ rfl rfl, clean_of _ rfl, rfl, rfl, yes, yes, yes, yes, yes⟩

theorem witness_StoresPerform : (∀ k ∈ [OpKind.store .global 8, .store .lspace 8, .store .aspace 8],
    let o := op0 .st k 0x10FF8
    let s := flying o
    Quiet s ∧ s.ops.find? 9 = some o ∧ o.ctr = .st ∧ opReady s 9 o = true ∧ (s.crews.find? o.crew).isSome = true ∧
    (s.teams.find? o.team).isSome = true ∧ ∀ a ∈ o.accs, a.attr = .coherent) := by
  intro k hk
  refine ⟨quiet_of _ rfl rfl, rfl, rfl, ?_, rfl, rfl, by simp [op0]⟩
  fin_cases hk <;> decide +kernel

theorem witness_atomicsPerformRule : (∀ k ∈ [OpKind.atom .i32 .cas (some 255) none, .red .i32 .add true],
    let o := op0 .st k 0x10FFC
    let s := flying o
    Quiet s ∧ (∀ i, (s.isl i).poison = []) ∧ s.ops.find? 9 = some o ∧ opReady s 9 o = true ∧
    (s.teams.find? o.team).isSome = true ∧ o.ctr ≠ .rm ∧ laneIn (who s).t.flow.ended 31 = false ∧ ∃ a, o.accs = [a]) := by
  intro k hk
  refine ⟨quiet_of _ rfl rfl, clean_of _ rfl, rfl, ?_, rfl, by simp [op0], ?_, _, rfl⟩ <;> fin_cases hk <;> decide +kernel

theorem witness_atomicValuesRule : (ATy.elem .i64).flt = none ∧ (ATy.elem .i64).n = 1 ∧ 2 ^ 63 < 2 ^ (ATy.elem .i64).w := by
  decide

theorem witness_operationsLeaveRule :
    (let o := op0 .st (.flush 128) 0x10F80;
      (flying o).ops.find? 9 = some o ∧ opReady (flying o) 9 o = true ∧ (∀ i, ((flying o).isl i).poison = []) ∧
      ((flying o).teams.find? o.team).map (·.tx) = some none) ∧
    let o := op0 .rm (.put 4) 0x10F80
    (flying o).ops.find? 9 = some o ∧ o.ctr = .rm ∧ o.left = 0 ∧ o.adds = [] :=
  ⟨⟨rfl, yes, clean_of _ rfl, rfl⟩, rfl, rfl, rfl, rfl⟩

/-- A packet of the team's operation 9 at its destination. -/
def pkt0 (c : Cargo) : Packet :=
  { route := 15, src := 1, dst := 0, sep := 0, sseq := 0, pa := 0x10FFC, tenant := 0, cargo := c, op := 9, at_ := 0, arrived := true }
def arrived (o : Op) (c : Cargo) : State := { flying { o with left := 1 } with pkts := [(5, pkt0 c)], uid := 20 }

theorem witness_RequestsPerform : ∀ c ∈ [Cargo.write [1, 2, 3, 4], .read 4 31, .atomic .i32 .add 31 7 0, .notify 255],
    let s := arrived (op0 .rm (.put 4) 0x10FFC) c
    Quiet s ∧ (∀ i, (s.isl i).poison = []) ∧ s.pkts.find? 5 = some (pkt0 c) ∧ 5 < s.uid ∧ (pkt0 c).arrived = true ∧
    (pkt0 c).orphan s = false ∧ deliverable s 5 (pkt0 c) = true := by
  intro c hc
  refine ⟨quiet_of _ rfl rfl, clean_of _ rfl, rfl, Nat.lt_of_sub_eq_succ rfl, rfl, ?_⟩
  fin_cases hc <;> decide +kernel

theorem witness_repliesLandRule : ∀ kc ∈ [(OpKind.put 4, Cargo.ack), (.get 4 255, .readData 31 [1, 2, 3, 4]),
      (.ratom .i64 .add (some 254) none, .atomicReply 31 (2 ^ 64 - 1))],
    let o := op0 .rm kc.1 0x10FFC
    let s := arrived o kc.2
    s.pkts.find? 5 = some (pkt0 kc.2) ∧ s.ops.find? 9 = some { o with left := 1 } ∧
    (s.teams.find? o.team).isSome = true ∧ o.adds = [] ∧ (pkt0 kc.2).eng = none := by
  intro kc _
  exact ⟨rfl, rfl, rfl, rfl, rfl⟩

/-! ## Hypotheses met: transactions and synchronisation -/

theorem witness_TransactionOpens :
    (Issues st (who st) ∧ (who st).t.tx = none ∧ inCode st (who st) (branchTarget (who st) 511) = true ∧
      (who st).t.cnt.ld = 0 ∧ (who st).t.cnt.st = 0 ∧ (who st).t.txs.conflicts < 16) ∧
    let s := team (fun t => { t with txs := { t.txs with conflicts := 16 } }) st
    Issues s (who s) ∧ 16 ≤ (who s).t.txs.conflicts ∧ ¬(s.isl (who s).c.isl).token = some (who s).u ∧
    (who s).t.txs.asked = false := ⟨⟨rfl, rfl, yes, rfl, rfl, yes⟩, rfl, yes, yes, rfl⟩

def alt0 : TxWrites := { lines := [512], bytes := [(0x10000, 5)] }
theorem witness_AlternativesRun :
    (let s := inTx { tx0 with alts := [(8, alt0), (16, {}), (24, {})] } st;
      Issues s (who s) ∧ (who s).t.tx = some { tx0 with alts := [(8, alt0), (16, {}), (24, {})] } ∧
      ([(8, alt0), (16, {}), (24, ({} : TxWrites))] : List (Nat × TxWrites)).length < 4 ∧
      inCode s (who s) (branchTarget (who s) 3) = true ∧ 0 ≤ branchTarget (who s) 3 ∧
      branchTarget (who s) 3 < (who s).k.image.codeBytes) ∧
    Issues (inTx tx0 st) (who (inTx tx0 st)) ∧ (who (inTx tx0 st)).t.tx = some tx0 ∧ tx0.alts = [] :=
  ⟨⟨rfl, rfl, yes, yes, yes, yes⟩, rfl, rfl, rfl⟩

theorem witness_TransactionWordsOutside : Issues st (who st) ∧ (who st).t.tx = none := ⟨rfl, rfl⟩

theorem witness_AbortRestores : (inTx tx0 st).teams.find? 2 = some { (who st).t with tx := some tx0 } ∧
    TxCode.conflict ∈ [TxCode.conflict, .trap, .page, .halt, .sleep] := ⟨rfl, yes⟩

theorem witness_CommitStores : let tx := { tx0 with w := alt0 }
    let s := inTx tx st
    let x := who s
    Issues s x ∧ x.t.tx = some tx ∧ x.t.cnt.ld = 0 ∧ x.t.cnt.st = 0 ∧ tx.w.adds = [] ∧ (SMap.keys tx.w.bytes).Nodup ∧ commitHeld s tx = false ∧
    (∀ k, (s.core k).l1 = []) ∧ ∀ ut ∈ s.teams, ut.1 ≠ x.u → ut.2.tx = none := by
  exact ⟨rfl, rfl, rfl, rfl, rfl, yes, yes, noLines_of _ yes, noTx_of _ _ yes⟩

/-- Lane 0 alone, in a transaction that has buffered a byte. -/
def tx1 : Tx := { tx0 with w := { lines := [543], bytes := [(0x10FD1, 5)] } }
def txMapped : State := inTx tx1 (regs (fun g => g.pset 0 1) mapped)
theorem witness_TransactionBuffers : let s := txMapped
    let x := who s
    Issues s x ∧ x.t.tx = some tx1 ∧ (∀ k, (s.core k).l1 = []) ∧ (∀ ut ∈ s.teams, ut.1 ≠ x.u → ut.2.tx = none) ∧
    (∀ i, (s.isl i).poison = []) ∧ x.lanes none0 = [0] ∧ (hit 0 0xFD0).attr = .coherent ∧
    inBounds x.t (ceilDiv Sz.b128.bytes 4) (.v 252) = true ∧ inBounds x.t 2 (.v 2) = true ∧ x.t.vregs ≤ 256 ∧
    x.t.cnt.st ≠ 63 ∧ x.t.cnt.ld ≠ 63 ∧ Operand.isVec (.v 252) = true ∧
    Granted s x .txWrite 16 [(0, ea64 x (.v 2) 16 0)] [hit 0 0xFD0] ∧
    Granted s x .txRead 16 [(0, ea64 x (.v 2) 16 0)] [hit 0 0xFD0] ∧
    ([543] ++ [(hit 0 0xFD0).pa / 128]).dedup.length ≤ 64 ∧
    attemptHolds s tx1 false (hit 0 0xFD0).pa 16 = false ∧ tx1.reads.length ≤ 256 := by
  exact ⟨rfl, rfl, noLines_of _ yes, noTx_of _ _ yes, clean_of _ rfl, yes, rfl, yes, yes, yes, yes, yes, rfl,
    granted_of yes, granted_of yes, yes, yes, yes⟩

theorem witness_TransactionForbids : let s := inTx tx0 st
    Issues s (who s) ∧ (who s).t.tx = some tx0 ∧ (who s).lanes on ≠ [] := ⟨rfl, rfl, yes⟩

theorem witness_FencesOrder :
    (Issues st (who st) ∧ (who st).t.tx = none ∧ releasable (who st).t .sys = true) ∧
    (let s := cnt (fun c => { c with rm := 1 }) st; Issues s (who s) ∧ releasable (who s).t .panel = false ∧
      releasable (who s).t .island = true) ∧
    (let s := cnt (fun c => { c with ld := 1 }) st; Issues s (who s) ∧ (who s).t.tx = none ∧ (who s).t.cnt.ld ≠ 0) ∧
    (let s := inTx tx0 (cnt (fun c => { c with ld := 1 }) st); Issues s (who s) ∧ (who s).t.tx.isSome ∧ (who s).t.cnt.ld ≠ 0) ∧
    (let s := cnt (fun c => { c with st := 1 }) st; Issues s (who s) ∧ (who s).t.tx = none ∧ (who s).t.cnt.st ≠ 0) ∧
    let s := inTx tx0 st; Issues s (who s) ∧ (who s).t.tx.isSome ∧ (who s).t.cnt.ld = 0 :=
  ⟨⟨rfl, rfl, rfl⟩, ⟨rfl, rfl, rfl⟩, ⟨rfl, rfl, yes⟩, ⟨rfl, rfl, yes⟩, ⟨rfl, rfl, yes⟩, rfl, rfl, rfl⟩

/-- One arrival left of two and 10 bytes pending of 20: an update of 10 bytes with an arrival flips the phase. -/
theorem witness_BarrierUpdates : 2 ^ 48 * 2 + 2 ^ 40 + 10 < 2 ^ 64 ∧ 20 < 2 ^ 64 ∧
    natBits (2 ^ 48 * 2 + 2 ^ 40 + 10) 35 0 = 10 ∧ natBits (2 ^ 48 * 2 + 2 ^ 40 + 10) 47 40 = 1 := by decide
theorem test_barrier_flips : barrierNext (2 ^ 48 * 2 + 2 ^ 40 + 10) 20 10 true = 2 ^ 48 * 2 + 2 ^ 40 * 2 + 2 ^ 36 + 20 ∧
    barrierNext (2 ^ 48 * 2 + 2 ^ 40 + 10) 20 9 true = 2 ^ 48 * 2 + 1 := by decide

/-- The last object that fits in an L-space of 4096 bytes. -/
theorem witness_BarrierWords : let s := regs (fun g => g.sset 4 4080) (spaces st)
    let x := who s
    Issues s x ∧ (x.t.regs.sget 4).toNat % 16 = 0 ∧ (x.t.regs.sget 4).toNat + 16 ≤ x.k.image.lspace ∧
    ownPending s x (x.t.regs.sget 4).toNat 16 = false ∧
    wordHeld s x.t.crew (some x.u) (x.t.regs.sget 4).toNat 16 = false ∧ src64 s x 0 (.k 0x3F) < 2 ^ 36 ∧ src32 s x 0 (.k 0x3F) < 256 ∧
    2 ^ 36 ≤ src64 s x 0 (.k 0x40) ∧ x.t.cnt.ld = 0 ∧ x.t.cnt.st = 0 ∧ x.t.tx = none ∧
    natBits (leNat (typedBytes x.c.lmem 4080 8)) 36 36 = src32 s x 0 (.k 0) % 2 ∧
    natBits (leNat (typedBytes x.c.lmem 4080 8)) 36 36 ≠ src32 s x 0 (.k 1) % 2 :=
  ⟨rfl, yes, yes, yes, yes, yes, yes, yes, rfl, rfl, rfl, yes, yes⟩

/-- A counter of 5 at 0x10FFC, its address in s6, and a mirror line with matrix timeline 3. -/
def counted : State :=
  ((crew (fun c => { c with mirror := some 0x20000 }) (regs (fun g => (g.sset 6 0xFFC).sset 8 3)
    (engaged.updCore 0 fun c => { c with tlb := [page0] }))).wr 0x10FFC [5]).wr 0x20008 [3]
theorem witness_CounterWords : let s := counted
    let x := who s
    Issues s x ∧ Quiet s ∧ x.t.tx = none ∧ MayWait s x ∧ (∀ i, (s.isl i).poison = []) ∧
    waitGranted s x .localCounter 4 (x.t.regs.sget64 6).toNat 0x10FFC ∧ wordWaits s x false 0x10FFC 4 = false ∧
    wordWaits s x false (0x20000 + 8) 8 = false ∧
    waitGranted s x .counter 4 (x.t.regs.sget64 6).toNat 0x10FFC ∧
    serialGE (BitVec.ofNat 32 (s.rd 0x10FFC 4)) (BitVec.ofNat 32 (src32 s x 0 (.k 5))) = true ∧
    serialGE (BitVec.ofNat 32 (s.rd 0x10FFC 4)) (BitVec.ofNat 32 (src32 s x 0 (.k 6))) = false ∧
    boundCtx s x.c .mx = some (3, 3) ∧ x.c.mirror = some 0x20000 ∧ (x.t.regs.sget64 8).toNat ≤ s.rd (0x20000 + 8) 8 ∧
    s.rd (0x20000 + 16) 8 < (x.t.regs.sget64 8).toNat ∧ releasable x.t .panel = true ∧
    boundCtx st (who st).c .mx = none ∧ releasable (who (cnt (fun c => { c with rm := 1 }) s)).t .panel = false :=
  ⟨rfl, quiet_of _ rfl rfl, rfl, .inl yes, clean_of _ rfl, granted_of yes, yes, yes,
    granted_of yes, yes, yes, rfl, rfl, yes, yes, rfl, rfl, rfl⟩
/-- An irrevocable attempt of another team has written the counter's line; the wait has met `n` conflicts. -/
def contended (n : Nat) : State :=
  let s := team (fun t => { t with txs := { t.txs with waits := n } }) counted
  { s with teams := s.teams.put 3 { (who s).t with index := 1, tx := some { tx0 with irrev := true, w := { lines := [0x10FFC / 128] } } } }
theorem witness_waitsConflict :
    (let s := contended 15
      let x := who s
      let s1 := afterChecks s x .localCounter 4 [(0, (x.t.regs.sget64 6).toNat)]
      Issues s x ∧ x.t.tx = none ∧ waitGranted s x .localCounter 4 (x.t.regs.sget64 6).toNat 0x10FFC ∧ MayWait s1 x ∧
      wordWaits s1 x false 0x10FFC 4 = false ∧ irrevHolds s1 (some x.u) false (0x10FFC / 128) = true) ∧
    let s := contended 16
    let x := who s
    Issues s x ∧ waitGranted s x .localCounter 4 (x.t.regs.sget64 6).toNat 0x10FFC ∧ x.t.txs.asked = false ∧
    ¬MayWait (afterChecks s x .localCounter 4 [(0, (x.t.regs.sget64 6).toNat)]) x := by
  refine ⟨⟨rfl, rfl, granted_of yes, .inl yes, yes, yes⟩, rfl, granted_of yes, rfl, ?_⟩
  unfold MayWait
  decide +kernel

/-- A queue of two elements of 4 bytes: HEAD, TAIL, its ring at address 0xFF8, its descriptor at 0xFC0. -/
def queueOf (head tail : Nat) : State :=
  (regs (fun g => (g.sset 2 0xFC0).sset 5 77) (st.updCore 0 fun c => { c with tlb := [page0] })).wr 0x10FC0
    (leBytes 4 head ++ leBytes 4 tail ++ leBytes 8 0xFF8 ++ leBytes 4 1)
theorem witness_QueueWords : ∀ ht ∈ [(0, 0), (2 ^ 32 - 1, 0), (0, 2)],
    let s := queueOf ht.1 ht.2
    let x := who s
    let d := descOf (s.bytes 0x10FC0 32)
    let s1 := (homeRead (afterChecks s x .localCounter 32 [(0, (x.t.regs.sget64 2).toNat)]) (some x.u) 0x10FC0 32).2
    Issues s x ∧ Quiet s ∧ x.t.tx = none ∧ MayWait s x ∧ (∀ i, (s.isl i).poison = []) ∧ descCauses (s.bytes 0x10FC0 32) 0 (x.t.regs.sget64 2).toNat = [] ∧
    waitGranted s x .localCounter 32 (x.t.regs.sget64 2).toNat 0x10FC0 ∧ wordWaits s x false 0x10FC0 32 = false ∧
    wordWaits s x true 0x10FC0 32 = false ∧ (∀ a ∈ [0x10FF8, 0x10FFC], wordWaits s x true a 4 = false ∧
      wordWaits s x false a 4 = false ∧ 0x10FC0 + 32 ≤ a) ∧ descWrite s1 x 2 = [] ∧ releasable x.t .island = true ∧
    d.count = (ht.2 + 2 ^ 32 - ht.1) % 2 ^ 32 ∧ d.slots = 2 ∧
    waitGranted s1 x .atomic d.elem (d.ring + d.tail % d.slots * d.elem) (0x10FF8 + 4 * (ht.2 % 2)) ∧
    waitGranted s1 x .localCounter d.elem (d.ring + d.head % d.slots * d.elem) (0x10FF8 + 4 * (ht.1 % 2)) := by
  intro ht h
  fin_cases h <;> exact ⟨rfl, quiet_of _ rfl rfl, rfl, .inl yes, clean_of _ rfl, yes, granted_of yes, yes, yes, yes, yes, rfl,
    yes, yes, granted_of yes, granted_of yes⟩

/-! ## Hypotheses met: commands of the engines and matrix words -/

/-- The crew of `engaged` with spaces: registers s2, s4 hold 0, s6 and its successors the geometry, s20 a barrier. -/
def ready0 : State := regs (fun g => g.ssetN 6 4 (64 + 2 ^ 32 * (3 + 2 ^ 32 * (128 + 2 ^ 32 * 64))) |>.sset 20 4080) (spaces engaged)
/-- The same crew with no context. -/
def bare : State := crew (fun c => { c with mxCtx := none, copyCtx := none, collCtx := none })
  (ready0.updIsl 0 fun i => { i with copy := [], coll := [] } ) |>.updEngine 0 fun e => { e with ctx1 := { bank := 1 } }

theorem witness_copiesSubmit :
    (∀ s ∈ [ready0, bare], let x := who s
      Issues s x ∧ x.t.tx = none ∧ (x.t.cnt.ld = 0 ∧ x.t.cnt.st = 0) ∧ barCauses x (some 20) = [] ∧
      sideCauses x .lspace (x.t.regs.sget64 2).toNat (x.t.regs.sget 6).toNat 1 0 = [] ∧
      sideCauses x .global (x.t.regs.sget64 4).toNat (x.t.regs.sget 6).toNat 1 0 = [] ∧
      (x.t.regs.sget 6).toNat ≤ 2 ^ 24 ∧ (x.t.regs.sget 7).toNat = 3 ∧
      sideCauses x .lspace (x.t.regs.sget64 2).toNat (x.t.regs.sget 6).toNat (x.t.regs.sget 7).toNat (x.t.regs.sget 9).toNat = [] ∧
      (((copyBind s x.t.crew).map fun ns => (SMap.get {} (ns.2.isl x.c.isl).copy ns.1).cmds.length) = some 0)) ∧
    (who ready0).c.copyCtx = some 0 ∧ (who bare).c.copyCtx = none := by
  refine ⟨?_, rfl, rfl⟩
  intro s h
  fin_cases h <;> exact ⟨rfl, rfl, yes, yes, yes, rfl, yes, yes, yes, yes⟩

/-- Group 3 of island 0: member 0 alone, of tenant 0, segments of 128 bytes. -/
def grouped (s : State) : State :=
  { s with groupTab := [((256 * 0 + 3) * 8 + 0, 1 + 2 ^ 36 + 2 ^ 40), ((256 * 0 + 3) * 8 + 1, 128)] }
theorem witness_collectiveSubmits : ∀ s ∈ [grouped (regs (fun g => g.pset 0 1) ready0), grouped (regs (fun g => g.pset 0 1) bare)],
    let x := who s
    let e := groupEntry s x.c.isl 3
    let segs := (x.lanes none0).map fun l => (l, ({ key := src32 s x l (.v 3), va := src64 s x l (.v 4) } : CollSeg))
    Issues s x ∧ x.t.tx = none ∧ (x.t.cnt.ld = 0 ∧ x.t.cnt.st = 0) ∧ barCauses x (some 20) = [] ∧ x.lanes none0 = [0] ∧ inBounds x.t 2 (.v 4) = true ∧
    inBounds x.t 1 (.v 3) = true ∧ collDenied s x 3 e = none ∧ collLaneCauses .ar e segs = [] ∧ prevIncomplete s x.c.isl 3 = false ∧
    (((collBind s x.t.crew).map fun ns => (SMap.get {} (ns.2.isl x.c.isl).coll ns.1).cmds.length) = some 0) := by
  intro s h
  fin_cases h <;> exact ⟨rfl, rfl, yes, yes, yes, yes, yes, yes, yes, yes, yes⟩

/-- Typed spaces for every matrix word. -/
def roomy (s : State) : State :=
  kern (fun k => { k with image := { k.image with lspace := 4096, aspace := 2 ^ 16, wspace := 2 ^ 19 } }) s
theorem witness_matrixSubmits :
    let s := regs (fun g => g.sset 2 16384 |>.sset 4 256 |>.sset 6 (256 * 255)) (roomy engaged)
    let x := who s
    let m : MxCtx := { crew := some 1, bank := 1, issued := 3, timeline := 3 }
    Issues s x ∧ x.t.tx = none ∧ (x.t.cnt.ld = 0 ∧ x.t.cnt.st = 0) ∧ MxCtx.of s x.c = some m ∧ m.cmds.length < 64 ∧ barCauses x (some 30) = [] ∧
    fmtB x.t.regs.fmt = some .bf16 ∧ fmtA x.t.regs.fmt = some .bf16 ∧ legalPair .bf16 m.planeFmt = true ∧
    m.planeFmt ≠ .int8 ∧ m.planeFmt ≠ .lns6 ∧ (x.t.regs.sget 2).toNat % 16384 = 0 ∧
    (x.t.regs.sget 2).toNat + tileBytes .bf16 ≤ x.k.image.wspace ∧ (256 : BitVec 9).toNat ≤ 256 ∧ 0 + 7 ≤ 256 ∧
    (x.t.regs.sget 4).toNat % 256 = 0 ∧ (x.t.regs.sget 4).toNat + 7 * rowBytes .bf16 ≤ x.k.image.aspace ∧
    (x.t.regs.sget 6).toNat % 256 + ((x.t.regs.sget 6).toNat / 256 % 256 + 1) = 256 ∧
    (x.t.regs.sget 4).toNat % 64 = 0 ∧
    (x.t.regs.sget 4).toNat + ((x.t.regs.sget 6).toNat / 256 % 256 + 1) * drainBytes (some .lns6) ≤ x.k.image.aspace ∧
    (x.t.regs.sget 2).toNat % 1024 = 0 ∧ (x.t.regs.sget 2).toNat + 1024 ≤ x.k.image.wspace ∧
    (x.t.regs.sget 2).toNat % 16 = 0 ∧ (x.t.regs.sget 2).toNat + 2064 ≤ x.k.image.wspace := by
  refine ⟨rfl, rfl, yes, rfl, ?_⟩
  decide +kernel

theorem witness_contextsHeld :
    (Issues engaged (who engaged) ∧ (who engaged).t.tx = none ∧ (who engaged).c.mxCtx.isSome = true ∧
      (who engaged).t.cnt.st = 0 ∧ ((MxCtx.of engaged (who engaged).c).map (·.cmds)) = some [] ∧
      (engaged.teamsOf (who engaged).t.crew).all (fun ut => ut.2.status ≠ .latched) = true) ∧
    (Issues st (who st) ∧ (who st).c.mxCtx = none ∧ grantable st (who st).c.cluster (who st).k.tenant = some 0) ∧
    (let s := st.updEngine 0 fun e => { e with ctx0 := { crew := some 1 }, ctx1 := { crew := some 1, bank := 1 } };
      Issues s (who s) ∧ (who s).c.mxCtx = none ∧ grantable s (who s).c.cluster (who s).k.tenant = none) ∧
    ((who st).t.regs.sget64 2).toNat % 16 = 0 ∧
    let s := regs (fun g => g.sset 2 (2 + 256 * 64)) st
    Issues s (who s) ∧ ((who s).t.regs.sget64 2).toNat % 16 ≠ 0 ∧ gangOk s (who s) ((who s).t.regs.sget64 2) = true ∧
    gangOk s (who s) 3 = false :=
  ⟨⟨rfl, rfl, rfl, rfl, rfl, rfl⟩, ⟨rfl, rfl, rfl⟩, ⟨rfl, rfl, rfl⟩, yes, rfl, yes, yes, yes⟩

/-- Teams 2 and 3 of the crew are a gang of members 0 and 1; `first` says which issues, `other` how the other stands. -/
def ganged (me : Nat) (other : Team → Team) : State :=
  let s := roomy engaged
  let t := { (who s).t with gang := 2 + 256 * 64 }
  let base (u : Nat) : Team := { t with index := u - 2 }
  { s with cur := some me, teams := [2, 3].map fun u => (u, if u = me then base u else other (base u)) }
def lat (seq : BitVec 8) : Latch := { seq := seq, asrc := 512, row0 := 0, rows := 4, ct := 1, acc := false, bar := none }
theorem witness_gangsOpen : ∀ sm ∈ [(ganged 2 id, 2), (ganged 3 id, 3), (ganged 2 (fun t => { t with status := .latched, latch := some (lat 1) }), 2),
      (ganged 3 (fun t => { t with status := .latched, latch := some (lat 1) }), 3)],
    let s := sm.1
    let x := who s
    Issues s x ∧ SMap.risingFrom 0 s.teams = true ∧ x.t.tx = none ∧ (x.t.cnt.ld = 0 ∧ x.t.cnt.st = 0) ∧ 0 < gangCount x.t.gang ∧
    gangTeams s x.c.kernel x.c.isl (x.c.core / 4) x.t.gang = [some 2, some 3] ∧ x.u = sm.2 ∧
    (s.teams.find? 2).isSome = true ∧ s.crews.find? 1 = some x.c ∧ (MxCtx.of s x.c).map (·.cmds) = some [] := by
  intro s h
  fin_cases h <;> exact ⟨rfl, rfl, rfl, yes, yes, yes, rfl, rfl, rfl, rfl⟩
theorem witness_gangsOpen_latched : ∀ me ∈ [2, 3],
    let s := ganged me (fun t => { t with status := .latched, latch := some (lat 1) })
    let T (u : Nat) : Team := (s.teams.find? u).getD (who s).t
    let ts := [2, 3].map fun u => (u, (T u, lat 1))
    (T (5 - me)).status = .latched ∧ (T (5 - me)).latch = some (lat 1) ∧ (T (5 - me)).gang = (T me).gang ∧
    jointCauses (who s).k.image.aspace { crew := some 1, bank := 1, issued := 3, timeline := 3 } (T 2) (lat 1) ts = [] := by
  intro me h
  fin_cases h <;> exact ⟨rfl, rfl, rfl, yes⟩

/-- The team has 256 lanes; `cmds` are the context's commands. -/
def wide (cmds : List MxCmd) : State :=
  (team (fun t => { t with lanes := 256, flow := { t.flow with mask := fullMask 256 } }) engaged).updEngine 0 fun e =>
    { e with ctx1 := { e.ctx1 with cmds := cmds } }
def mxc0 : MxCmd := { no := 4, team := 2, span := 0, kind := .mzro 1, fmt := 0, ks := [], version := false, bar := none, issuedAt := 0, level := 0 }
theorem witness_slabsMove : ∀ cs ∈ [[], [mxc0]], let s := wide cs
    let x := who s
    Issues s x ∧ x.t.tx = none ∧ x.t.cnt.st = 0 ∧ rangeInBounds x.t 32 (.v 224) = true ∧ 256 ≤ x.t.lanes ∧ x.t.vregs ≤ 256 ∧
    (MxCtx.of s x.c).map (·.cmds) = some cs := by
  intro cs h
  fin_cases h <;> exact ⟨rfl, rfl, rfl, yes, yes, yes, rfl⟩

/-! ## Hypotheses met: records and kernels -/

/-- A record of its first words and SEQ, with its seal. -/
def recOf (ws : List Nat) (seq : Nat) : List Byte :=
  let body := ((List.range 15).map fun i => leBytes 8 (ws.getD i 0)).flatten ++ leBytes 4 seq
  body ++ leBytes 4 (crc32c body)
/-- Queue 5 of tenant 0 takes records; EXPECT is the last number. -/
def fed : State :=
  (State.reset.updTenant 0 fun t => { t with enable := true }).updQueue 5 fun q =>
    { q with enable := true, eth := true, key := 9, expect := 2 ^ 32 - 1 }
def signalRec (seq : Nat) : List Byte := recOf [0x103, 0x40, 1] seq

theorem witness_recordsAcceptedRule :
    (hostOpen fed false = true ∧ queueOn fed 5 = true ∧ (fed.queue 5).expect < 2 ^ 32 ∧ (fed.queue 5).statVa = 0 ∧
      (fed.queue 5).waiting.find? (((fed.queue 5).expect + 1) % 2 ^ 32) = none) ∧
    (∀ n ∈ [2 ^ 32 - 1, 254, 255], (signalRec n).length = 128 ∧ (Rec.ofBytes (signalRec n)).seq = n ∧
      (Rec.ofBytes (signalRec n)).seal = crc32c ((signalRec n).take 124)) ∧
    rejection fed 0 (Rec.ofBytes (signalRec (2 ^ 32 - 1))) = none ∧
    rejection fed 0 (Rec.ofBytes (recOf [0x104] (2 ^ 32 - 1))) = some .badkind ∧
    (254 + 2 ^ 32 - (2 ^ 32 - 1)) % 2 ^ 32 = 255 ∧ (255 + 2 ^ 32 - (2 ^ 32 - 1)) % 2 ^ 32 = 256 ∧
    (let bad := (signalRec 3).set 7 1; bad.length = 128 ∧ (Rec.ofBytes bad).seal ≠ crc32c (bad.take 124)) := by
  decide +kernel

theorem witness_datagramsRule : let s := fed.updHost fun h => { h with reqAddr := 1, reqPort := 65535 }
    hostOpen s false = true ∧ (signalRec 7).length = 128 ∧ keyFlags s 5 9 = 0 ∧ (65535 : BitVec 16).toNat = s.host.reqPort ∧
    (1 : BitVec 128) = s.host.reqAddr ∧ (0 : BitVec 16).toNat ≠ s.host.reqPort ∧ s.host.reqPort ≠ 0 ∧
    (∀ f ∈ [({ fcs := true, v6 := false, sum := .zero } : Frame), { fcs := true, v6 := true, sum := .good }],
      ¬(f.fcs = false ∨ f.sum = .bad ∨ (f.v6 = true ∧ f.sum = .zero))) ∧
    ∀ f ∈ [({ fcs := false, v6 := false, sum := .good } : Frame), { fcs := true, v6 := false, sum := .bad },
      { fcs := true, v6 := true, sum := .zero }], f.fcs = false ∨ f.sum = .bad ∨ (f.v6 = true ∧ f.sum = .zero) := by
  decide +kernel

/-- A record stands at the head of queue 5, at level 46, for 1 ms; the tenant's page 0 lies at 0x10000. -/
def headed (ws : List Nat) (kid : Option Nat) : State :=
  { ((tables (leafWord 1 2)).updTenant 0 fun t => { t with enable := true }).updQueue 5 fun q =>
      { q with enable := true, weight := 1, accepted := [(Rec.ofBytes (recOf ws 0), (0, kid))], eff := 46, clock := some 1 } with
      now := 2000001 }
def signal0 : List Nat := [0x103, 0xFC0, 1]
def turned : State := (headed signal0 none).updPcp fun p => { p with turns := [(47, (5, 1))] }
theorem witness_arbitrationRule : ∀ s ∈ [headed signal0 none, turned],
    SMap.risingFrom 0 s.queues = true ∧ Quiet s ∧ readyQueues s = [5] ∧ ((promoteDue s).queue 5).eff = 47 ∧
    turnOf s 47 ((readyQueues s).filter fun p => ((promoteDue s).queue p).eff = 47) 5 ∧ (s.queue 5).statVa = 0 ∧
    (s.queue 5).accepted = [(Rec.ofBytes (recOf signal0 0), (0, none))] ∧
    (Rec.ofBytes (recOf signal0 0)).kind = kindSignal ∧
    walk s (s.queue 5).tenant (natBits ((Rec.ofBytes (recOf signal0 0)).q 1) 55 0) = .leaf page0 ∧
    writeHeld s s.uid (page0.pa (natBits ((Rec.ofBytes (recOf signal0 0)).q 1) 55 0)) 4 = false := by
  intro s h
  have hr : readyQueues s = [5] := by fin_cases h <;> decide +kernel
  have he : ((promoteDue s).queue 5).eff = 47 := by fin_cases h <;> decide +kernel
  refine ⟨by fin_cases h <;> rfl, by fin_cases h <;> exact quiet_of _ yes yes, hr, he, ?_, ?_⟩
  · rw [hr]
    simp only [List.filter_cons, he, decide_true, if_true, List.filter_nil]
    fin_cases h
    · exact .inl ⟨yes, yes⟩
    · unfold turnOf
      rw [show turned.pcp.turns.find? 47 = some (5, 1) from rfl]
      simp only
      rw [if_pos yes]
      trivial
  · fin_cases h <;> decide +kernel
/-- A MESSAGE whose kernel has retired, waits for its first crew, or has an entry for it; a LAUNCH. -/
theorem witness_arbitrationRule_kernels :
    (let s := headed [0x202] none; readyQueues s = [5] ∧ (Rec.ofBytes (recOf [0x202] 0)).kind = kindMessage) ∧
    (let s := kern (fun k => { k with placed := 0 }) (headed [0x202] (some 0));
      readyQueues s = [5] ∧ (s.kernels.find? 0).map (·.placed) = some 0) ∧
    (let e : Entry := { off := 64, fill := 32, timer := 0, liveV := 0, target := false, handler := true, start := false };
      let s := kern (fun k => { k with image := { k.image with entries := [e] } }) (headed [0x202] (some 0));
      readyQueues s = [5] ∧ (s.kernels.find? 0).map (·.placed) = some 1 ∧
      ((s.kernels.find? 0).bind fun k => msgEntry s 0 k 5 (Rec.ofBytes (recOf [0x202] 0))).isSome = true) ∧
    let s := headed [0x101] (some 0)
    readyQueues s = [5] ∧ (Rec.ofBytes (recOf [0x101] 0)).kind = kindLaunch ∧
    (s.kernels.find? 0).map (fun k => imageHeld s k.tenant (Rec.ofBytes (recOf [0x101] 0)).launch) = some false := by
  decide +kernel
theorem witness_promotionRule : let s := headed signal0 none
    (s.queue 5).clock = some 1 ∧ heldRoom s = true ∧ headReady s 5 (s.queue 5) = true ∧ 1 + 2000000 ≤ s.now ∧
    (s.queue 5).eff < 47 := by decide +kernel

/-- A held kernel that waits on a counter of 5 at 0xFC0 of a page with an attribute. -/
def holding (attr : Nat) (target : Word) : State :=
  kern (fun k => { k with phase := .held, retry := true, launch := { k.launch with holdBase := 0xFB8, holds := [(2, target)] } })
    ((tables (leafWord 1 attr)).wr 0x10FC0 [5])
theorem witness_holdsRule :
    (∀ s ∈ [holding 2 5, holding 2 6, holding 1 5],
      (s.kernels.find? 0).map (fun k => (k.phase, (k.retry, (k.tenant, (k.launch.holdBase, k.launch.holds.map (·.1)))))) =
        some (.held, (true, (0, (0xFB8, [2])))) ∧
      (s.kernels.find? 0).map (holdsHeld s) = some false ∧ Quiet s) ∧
    walk (holding 2 5) 0 0xFC0 = .leaf page0 ∧ walk (holding 2 6) 0 0xFC0 = .leaf page0 ∧
    serialGE (BitVec.ofNat 32 ((holding 2 5).rd (page0.pa 0xFC0) 4)) 5 = true ∧
    serialGE (BitVec.ofNat 32 ((holding 2 6).rd (page0.pa 0xFC0) 4)) 6 = false ∧
    walk (holding 1 5) 0 0xFC0 = .leaf { page0 with attr := .shared } ∧
    hostOpen (holding 2 5) false = true ∧ SMap.risingFrom 0 (holding 2 5).kernels = true := by
  refine ⟨?_, yes⟩
  intro s h
  fin_cases h <;> exact ⟨yes, yes, quiet_of _ yes yes⟩
theorem witness_queueRegistersRule : hostOpen fed false = true := rfl

/-- Kernel 0 has crew 1 still to place; the island is live. -/
def placing (f : Kernel → Kernel) : State := kern (fun k => f { k with
    launch := { k.launch with extent := 2 }, ranges := [{ isl := 0, lo := 0, hi := 2, next := 1, exited := 0 }] })
  (tables (leafWord 1 2))
/-- The travelling kernel of one segment of 8 bytes, with `n` crews placed. -/
def seg0 : Seg := { start := 0, len := 8, thresh := 1, maxrep := 1 }
def placingTrav (n : Nat) : State := placing fun k => { k with
  launch := { k.launch with travel := true }, image := { k.image with codeBytes := 8, segs := [seg0] }, placed := n }
/-- `goesTo` on the one island of a kernel's set. -/
theorem goesTo_one {s : State} {k k1 : Kernel} {pins : Bool} {core idx : Nat}
    (h : (islandOpen s 0 k 0 && (nextIndex k [0] 0 = some (idx, k1)) && (acceptingCores s 0 k pins 0).contains core &&
      (acceptingCores s 0 k pins 0).all fun c => c = core || lexLt (coreRank s 0 0 core) (coreRank s 0 0 c)) = true) :
    goesTo s 0 k [0] pins 0 core idx k1 := by
  simp only [Bool.and_eq_true, decide_eq_true_eq, List.contains_iff_mem, List.all_eq_true, Bool.or_eq_true] at h
  obtain ⟨⟨⟨ho, hn⟩, hc⟩, ha⟩ := h
  refine ⟨by simp, by simp, ⟨ho, by simp [hn], fun e => by simp [e] at hc⟩, ?_, hn, hc, ?_⟩
  · intro i hi _
    simp only [List.mem_singleton] at hi
    subst hi
    exact .inr ⟨rfl, Nat.le_refl _⟩
  · intro c hm hne
    exact (ha c hm).resolve_left hne
def nextK (s : State) : Kernel := ((nextIndex (who s).k [0] 0).map (·.2)).getD (who s).k
theorem witness_crewsPlacedRule : ∀ sp ∈ [(placing id, false), (placingTrav 1, false), (placingTrav 0, true)],
    let s := sp.1
    let k := (who s).k
    s.kernels.find? 0 = some k ∧ k.phase = .ready ∧ codeParked s 0 = false ∧ k.waitMsgs = [] ∧
    s.kernels.any (fun uq => uq.2.before k && placeable s uq.1 uq.2) = false ∧ affinityHeld s k = false ∧
    affinity s k = some [] ∧ k.launch.ovfUnits = 0 ∧ islandSet s 0 k [] = [0] ∧
    goesTo s 0 k [0] sp.2 0 0 1 (nextK s) ∧ codeFault s k.tenant (pieces (k.image.codeVa + 0) 8) = none ∧
    codeHeld s k.tenant (pieces (k.image.codeVa + 0) 8) = false := by
  intro sp h
  fin_cases h <;> exact ⟨yes, yes, yes, yes, yes, yes,
    yes, yes, yes,
    goesTo_one yes, yes, yes⟩
theorem witness_crewsPlacedRule_kinds : codeHere (placing id) 0 (coreKey 0 0) = true ∧ (who (placing id)).k.travels = false ∧
    (who (placingTrav 1)).k.travels = true ∧ (who (placingTrav 1)).k.placed = 1 ∧ (who (placingTrav 0)).k.placed = 0 ∧
    (who (placingTrav 0)).k.image.segs = [seg0] ∧ (who (placingTrav 0)).k.pins = [] := by decide +kernel

theorem witness_reservationRule :
    (let s := { kern (fun k => { k with launch := { k.launch with extent := 2 } }) st with now := 2000000 };
      let k := (who s).k;
      SMap.risingFrom 0 s.kernels = true ∧ s.kernels.find? 0 = some k ∧ k.phase = .ready ∧ k.unplaced = true ∧
      s.pcp.reserving = none ∧ k.lastPlaced + 2000000 ≤ s.now ∧ SMap.keys s.kernels = [0]) ∧
    let s := kern (fun k => { k with rangeRetryAt := some 5 }) st
    s.kernels.find? 0 = some (who s).k ∧ (who s).k.rangeRetryAt = some 5 ∧ 0 ∈ (who s).k.isls.getD [] := by decide +kernel
theorem witness_retirementRule : let s := { st with crews := [], teams := [] }
    s.kernels.find? 0 = some (who st).k ∧ retires s 0 (who st).k = true ∧ s.crewsOf 0 = [] ∧
    openMsgs s 0 (who st).k = [] ∧ (who st).k.launch.sigN = 0 ∧ (s.queue (who st).k.queue).statVa = 0 := by decide +kernel
/-- A signal list of one entry at 0xFE0: 3 is added to the counter at 0xFC0. -/
def signalling : State :=
  { kern (fun k => { k with launch := { k.launch with sigN := 1, sigVa := 0xFE0 } })
      ((tables (leafWord 1 2)).wr 0x10FE0 (leBytes 8 0xFC0 ++ leBytes 4 3 ++ leBytes 4 0)) with crews := [], teams := [] }
theorem witness_retirementRule_signals : Quiet signalling ∧ let s := signalling
    ∃ k, s.kernels.find? 0 = some k ∧ retires s 0 k = true ∧ k.launch.sigN = 1 ∧ k.launch.sigVa = 0xFE0 ∧ k.launch.sigVa % 16 = 0 ∧
    s.crewsOf 0 = [] ∧ openMsgs s 0 k = [] ∧ (s.queue k.queue).statVa = 0 ∧ walk s k.tenant 0xFE0 = .leaf page0 ∧
    pcpHeld s k.tenant 0xFE0 16 = false ∧ s.bytes (page0.pa 0xFE0) 16 = leBytes 8 0xFC0 ++ leBytes 4 3 ++ leBytes 4 0 ∧
    walk s k.tenant 0xFC0 = .leaf page0 ∧ writeHeld s s.uid (page0.pa 0xFC0) 4 = false :=
  ⟨quiet_of _ yes yes, (signalling.kernels.find? 0).getD (who st).k, yes⟩

/-! ## Hypotheses met: lane entries and teams -/

/-- The kernel has an entry at 64 of `fill` lanes. -/
def entried (fill : Nat) (s : State) : State :=
  let e : Entry := { off := 64, fill := fill, timer := 0, liveV := 0, target := false, handler := true, start := false }
  kern (fun k => { k with image := { k.image with entries := [e] } }) s
def entry0 : LaneEntry := { kernel := 0, off := 64, isl := 0, core := 0, payload := .words [7] }
def binned (b : Bin) : State := { (entried 32 st).updCore 0 fun c => { c with bins := [(3, b)] } with now := 100000 }
def bin0 (n : Nat) : Bin := { kernel := 0, off := 64, entries := List.replicate n entry0 }

theorem witness_entriesKeyedRule :
    (let s := { entried 32 st with msgs := [(4, entry0)] };
      s.msgs.find? 4 = some entry0 ∧ msgBehind s 4 entry0 = false ∧ entry0.payload.travels = false ∧
      (s.isl 0).pool.any (fun x => x.ahead entry0) = false ∧ s.kernels.find? 0 = some (who s).k ∧ entry0.msg = none ∧ 2 ≤ (who s).k.fillAt 64 ∧
      (openCrews s 0).any (fun c => c.isl = 0 && c.core = 0) = true ∧ binOf (s.core (coreKey 0 0)) 0 64 = none ∧
      freeKey (s.core (coreKey 0 0)).bins 32 = some 0) ∧
    (let s := { (entried 32 st).updCore 0 fun c => { c with bins := (List.range 32).map fun i => (i, { bin0 1 with off := 128 + i }) } with
        msgs := [(4, entry0)] };
      s.kernels.find? 0 = some (who s).k ∧ binOf (s.core (coreKey 0 0)) 0 64 = none ∧ freeKey (s.core (coreKey 0 0)).bins 32 = none ∧
      (s.isl 0).pool.length < 65536) ∧
    (let s := { st with msgs := [(4, { entry0 with kernel := 8 })] };
      s.msgs.find? 4 = some { entry0 with kernel := 8 } ∧ msgBehind s 4 { entry0 with kernel := 8 } = false ∧ s.kernels.find? 8 = none) ∧
    (∀ sf ∈ [(binned (bin0 1), some (1, (1, 1))), (crew (fun c => { c with closing := true }) (binned (bin0 1)), none)],
      let s := sf.1
      SMap.find? (s.core 0).bins 3 = some (bin0 1) ∧ s.kernels.find? 0 = some (who s).k ∧ (bin0 1).forming = none ∧
      (bin0 1).entries = entry0 :: [] ∧ (bin0 1).entries.length < min ((who s).k.fillAt 64) 128 ∧ (who s).k.fillAt 64 ≤ 1024 ∧
      (bin0 1).expired = false ∧ entry0.at_ + (((who s).k.entryAt 64).map Entry.cycles).getD 4096 ≤ s.now ∧
      ((formSlot s 0 (who s).k 0 ((who s).k.fillAt 64)).bind fun n => (joinCrew s 0 0 n).map fun cj => (n, cj)) = sf.2 ∧
      (formSlot s 0 (who s).k 0 ((who s).k.fillAt 64)).isSome = sf.2.isSome) := by decide +kernel

theorem witness_binsLaunchRule :
    (∀ b ∈ [bin0 40, { bin0 1 with expired := true }], let s := binned b
      SMap.find? (s.core 0).bins 3 = some b ∧ s.kernels.find? 0 = some (who s).k ∧ b.forming = none ∧
      (min ((who s).k.fillAt 64) 128 ≤ b.entries.length ∨ b.expired = true ∧ b.entries ≠ []) ∧
      formSlot s 0 (who s).k 0 ((who s).k.fillAt 64) = some 1) ∧
    ∀ b ∈ [{ bin0 0 with forming := some (1, List.replicate 32 entry0) },
        { bin0 0 with forming := some (1, [entry0]), expired := true }], let s := binned b
      SMap.find? (s.core 0).bins 3 = some b ∧ b.forming.map (·.1) = some 1 ∧
      joinCrew s 0 0 1 = some (1, 1) := by decide +kernel

theorem witness_reinjectionRule :
    (let s := (entried 32 st).updIsl 0 fun i => { i with live := true, pool := [entry0] };
      let e' := rerouted s entry0;
      (s.isl 0).pool = entry0 :: [] ∧ e'.isl = entry0.isl ∧ flyingEntries s e' < binRoom s e') ∧
    (let s := crew (fun c => { c with isl := 1 }) (kern (fun k => { k with isls := some [0, 1] }) (((entried 32 st).updIsl 0 fun i =>
        { i with live := true, pool := [entry0] }).updIsl 1 fun i => { i with live := true }));
      (s.isl 0).pool = entry0 :: [] ∧ (rerouted s entry0).isl = 1 ∧ entry0.isl ≠ 1 ∧ accepts s (rerouted s entry0) = true) ∧
    let s := kern (fun k => { k with overflow := [entry0] }) (binned (bin0 3))
    let e := { entry0 with core := (holderFor s 0 (who s).k 0 64).getD 0 }
    s.kernels.find? 0 = some (who s).k ∧ (who s).k.overflow = entry0 :: [] ∧ entry0.kernel = 0 ∧ entry0.msg = none ∧
    binTakes s (who s).k e = true ∧ coreKey e.isl e.core = 0 ∧ binOf (s.core 0) 0 64 = some 3 ∧
    SMap.find? (s.core 0).bins 3 = some (bin0 3) ∧ (bin0 3).kernel = 0 ∧ (bin0 3).off = 64 ∧ (bin0 3).forming = none ∧
    (bin0 3).expired = false ∧ (bin0 3).entries.length + 1 < min ((who s).k.fillAt 64) 128 := by decide +kernel

/-- A travelling kernel of one segment, held by cores 0 and 1, `n` arrivals queued on core 0. -/
def replicated (n hot : Nat) (hs : List Holder) : State :=
  let s := kern (fun k => { k with
      launch := { k.launch with travel := true, extent := 3 }
      image := { k.image with codeBytes := 8, segs := [{ start := 0, len := 8, thresh := 1, maxrep := 3 }] }
      segMap := [{ holders := hs, hot := hot, windows := 99 }] })
    (entried 32 (tables (leafWord 1 2)))
  { s.updCore 0 fun c => { c with bins := [(3, bin0 n)] } with
      now := 200000, crews := s.crews.put 9 { kernel := 0, idx := 1, isl := 0, core := 4 } }
def holder0 (core : Nat) : Holder := { core := core, load := 0, lastArrival := 0, inMap := true }
theorem witness_segmentMapsRule :
    (let s := replicated 2 2 [holder0 0];
      s.kernels.find? 0 = some (who s).k ∧ (who s).k.travels = true ∧ (who s).k.segMap ≠ [] ∧ (who s).k.mapsDone < s.now / 2000) ∧
    (∀ nh ∈ [(1, 2), (2, 1), (2, 2)], let s := replicated nh.1 nh.2 [holder0 0]
      let m : SegMap := { holders := [holder0 0], hot := nh.2, windows := 99 }
      (who s).k.segMap[0]? = some m ∧ (who s).k.image.segs.map (·.thresh) = [1] ∧ m.windows + 1 = s.now / 2000 ∧
      (([holder0 0].map fun h => waitingAt s 0 (coreKey 0 h.core)).sum) = nh.1) ∧
    (let s := replicated 2 2 [holder0 0];
      idleCore s 0 (who s).k 0 4 = some none ∧ (∀ c < 4, idleCore s 0 (who s).k 0 c = none) ∧
      codeUsed s (coreKey 0 4) - (((s.core (coreKey 0 4)).code.filter fun x => x.kernel = 0).map (·.size)).sum + 8 ≤ 131072 ∧
      codeFault s 0 (pieces (0 + 0) 8) = none ∧ codeHeld s 0 (pieces (0 + 0) 8) = false) ∧
    let s := replicated 0 0 [holder0 0, holder0 1]
    (who s).k.segMap[0]? = some { holders := [holder0 0, holder0 1], hot := 0, windows := 99 } ∧ ([holder0 0, holder0 1].map (·.core)).Nodup ∧
    2 ≤ ([holder0 0, holder0 1].filter (·.inMap)).length ∧ (holder0 1).lastArrival + 100000 ≤ s.now := by decide +kernel

theorem witness_TeamsWake :
    (let s := { st with now := 4096 };
      s.teams.find? 2 = some (who s).t ∧ s.crews.find? (who s).t.crew = some (who s).c ∧ canIssue s (who s).t = true ∧
      (who s).t.sched.promoted = none ∧ (who s).t.sched.readySince + 4096 ≤ s.now) ∧
    (let s := team (fun t => { t with status := .sleeping [3] [] }) st;
      s.teams.find? 2 = some { (who st).t with status := .sleeping [3] [] }) ∧
    (let s := st.updIsl 0 fun i => { i with tokenAsk := [2, 7] };
      (s.isl 0).token = none ∧ (s.isl 0).tokenAsk = 2 :: [7]) ∧
    let tx := { tx0 with irrev := true }
    let s := { inTx tx st with now := 2000000 }
    s.teams.find? 2 = some { (who st).t with tx := some tx } ∧ tx.irrev = true ∧ tx.opened + 2000000 ≤ s.now :=
  ⟨⟨rfl, rfl, rfl, rfl, yes⟩, rfl, ⟨rfl, rfl⟩, rfl, rfl, yes⟩

/-! ## Hypotheses met: pages -/

/-- An area lies free in memory of which nothing is in use, wherever the free value points. -/
theorem frame_free (tick n : Nat) (h : n ≤ 2 ^ 39) : ∃ b, findFrame tick [] n = some b := by
  have : (findFrame tick [] n).isSome = true := by
    unfold findFrame
    exact List.find?_isSome.2 ⟨0, by simp, by simp [areaFree]; omega⟩
  exact Option.isSome_iff_exists.1 this
theorem frame_stands (s : State) (i n : Nat) (hf : (s.isl i).frames = []) (h : n ≤ 2 ^ 39) : hasFrame s i n = true := by
  obtain ⟨b, hb⟩ := frame_free s.tick n h
  unfold hasFrame
  rw [hf, hb]
  rfl

/-- Entry 9 of island 0's fault buffer is a load of the team, which is parked. -/
def fault0 (va : Nat) : FaultEntry := { who := .team 2, tenant := 0, va := va, write := false }
def faulted (f : FaultEntry) (s : State) : State :=
  (team (fun t => { t with status := .parked }) s).updIsl 0 fun i => { i with faults := [(9, f)] }
/-- Pages 0 and 2 are demand pages. -/
def demanded (f : FaultEntry) : State := faulted f ((tables 0x42).wrNat 0x6010 8 0x42)

/-- The team of the entry. -/
def parked0 : Team := { (who st).t with status := .parked }
theorem witness_faultsRule_demand : ∃ va ∈ [0, 0x2000], ∃ pte x, let f := { fault0 va with demand := true }
    let s := demanded f
    SMap.find? (s.isl 0).faults 9 = some f ∧ (s.isl 0).faultWait = [] ∧ f.demand = true ∧ f.copyWanted = false ∧
    f.who = .team 2 ∧ s.teams.find? 2 = some parked0 ∧ parked0.status = .parked ∧ Quiet s ∧
    walk s f.tenant f.va = .missing true pte 0 0 x ∧ (pteGroup pte 0 0).any (fun a => writeHeld s s.uid a 8) = false ∧ pte % 8 = 0 ∧
    (s.isl 0).live = true ∧ hasFrame s 0 (pageBytes 0) = true := by
  have q (va : Nat) : Quiet (demanded { fault0 va with demand := true }) := quiet_of _ rfl rfl
  rcases (by omega : (0 ≠ (Config.topoPage 0).toNat ∧ 0 ≠ (Config.topoPage 0).toNat + 1) ∨
      (2 ≠ (Config.topoPage 0).toNat ∧ 2 ≠ (Config.topoPage 0).toNat + 1)) with h | h
  · exact ⟨0, by simp, 0x6000, 0x42, rfl, rfl, rfl, rfl, rfl, rfl, rfl, q _, (walk_plain _ _ (by decide) rfl h).trans yes,
      yes, yes, rfl, frame_stands _ _ _ rfl (by decide)⟩
  · exact ⟨0x2000, by simp, 0x6010, 0x42, rfl, rfl, rfl, rfl, rfl, rfl, rfl, q _, (walk_plain _ _ (by decide) rfl h).trans yes,
      yes, yes, rfl, frame_stands _ _ _ rfl (by decide)⟩
/-- The topology's page, wanted on an island that has no copy of it. -/
theorem witness_faultsRule_topo : let f := { fault0 (4096 * (Config.topoPage 0).toNat) with copyWanted := true }
    let s := faulted f st
    SMap.find? (s.isl 0).faults 9 = some f ∧ (s.isl 0).faultWait = [] ∧ f.copyWanted = true ∧
    walk s f.tenant f.va = .leaf topoEntry ∧ topoEntry.isl = 32 := ⟨rfl, rfl, rfl, (walk_topo _ rfl).2, rfl⟩
def farTables (leaf : Nat) : State := { (tables leaf).updIsl 1 fun i => { i with live := true } with cur := none }
theorem witness_faultsRule_copy : let f := { fault0 0xFF8 with copyWanted := true }
    let s := faulted f (farTables (2 ^ 59 + leafWord 0 1))
    SMap.find? (s.isl 0).faults 9 = some f ∧ (s.isl 0).faultWait = [] ∧ s.wf ∧ Quiet s ∧
    walk s f.tenant f.va = .leaf { page0 with isl := 1, frame := 2 ^ 39 + 0x10000, attr := .shared, w := false } ∧
    hasFrame s 0 (pageBytes 0) = true :=
  ⟨rfl, rfl, ⟨rfl, yes, rfl⟩, quiet_of _ yes yes, yes, frame_stands _ _ _ rfl (by decide)⟩
theorem witness_faultsRule_reply : let s := faulted (fault0 0xFF8) st
    SMap.find? (s.isl 0).faults 9 = some (fault0 0xFF8) ∧ hostOpen s false = true ∧ (fault0 0xFF8).demand = false ∧
    (∀ x ∈ [(9 : DWord), 0x100000009], natBits x.toNat 20 16 = 0 ∧ natBits x.toNat 9 0 = 9) ∧
    natBits (9 : DWord).toNat 32 32 = 0 ∧ natBits (0x100000009 : DWord).toNat 32 32 = 1 ∧
    s.teams.find? 2 = some parked0 ∧ (s.isl 0).faultWait = [] ∧
    (let f := { fault0 0xFF8 with demand := true }; SMap.find? ((faulted f st).isl 0).faults 9 = some f ∧ f.demand = true) := by
  exact ⟨rfl, rfl, rfl, by intro x hx; fin_cases hx <;> decide +kernel, yes, yes, rfl, rfl, rfl, rfl⟩

theorem witness_translationRule :
    hostOpen st false = true ∧ (st.tenant 0).enable = false ∧ st.host.tlbGo = false ∧
    ((st.updTenant 0 fun t => { t with enable := true }).tenant 0).enable = true ∧
    (let s := mapped.updHost fun h => { h with tlbGo := true, tlbRange := 0x1000 };
      s.host.tlbGo = true ∧ invRange s.host = some (0, (0x1000, 0x1000)) ∧ usesOld s 0 0x1000 0x1000 = false) ∧
    (let s := mapped.updHost fun h => { h with tlbGo := true, tlbRange := 0xC00 };
      s.host.tlbGo = true ∧ invRange s.host = none) ∧
    let s := mapped.updHost fun h => { h with tlbGo := true, tlbAll := true, tlbRange := 5 }
    invRange s.host = some (5, (0, 2 ^ 56)) ∧ usesOld s 5 0 (2 ^ 56) = false := by decide +kernel

/-- Page 0 lies on island 0; island 1 is live and has touched it 64 times, others 16 times. -/
def wanted : State :=
  ((tables (leafWord 1 2)).updIsl 1 fun i => { i with live := true }).updPcp fun p =>
    { p with touches := [(16, { window := 0, here := { remote := [(1, 64)], other := 16 } })] }
theorem witness_migrationRule_window :
    walk wanted 0 0xFF8 = .leaf page0 ∧ page0.isl < 32 ∧ page0.isl ≠ 1 ∧ Quiet wanted ∧ pageBytes page0.size ≤ 64 * 2 ^ 20 ∧
    (wanted.isl 1).live = true ∧ migrates (pageTouches wanted page0 1 (wanted.now / 200000)) = true ∧
    pagePinned wanted 0 page0 = false ∧ lockedBy wanted page0.frame = none ∧ hasFrame wanted 1 (pageBytes page0.size) = true :=
  ⟨yes, yes, yes, quiet_of _ yes yes, yes, rfl, yes,
    yes, rfl, frame_stands _ _ _ yes (by decide)⟩
/-- The copy of that page is done; a load of the team in flight and a packet go to it. -/
def moving : State :=
  { wanted.updPcp fun p => { p with migrations := [(8, { tenant := 0, va := 0, size := 4096, src := 0x10000, dst := 2 ^ 39 })] } with
    ops := [(9, op0 .ld (.load .global 4 false 2) 0x10FFC)], pkts := [(5, pkt0 (.write [1]))] }
theorem witness_migrationRule_done :
    let m : Migration := { tenant := 0, va := 0, size := 4096, src := 0x10000, dst := 2 ^ 39 }
    moving.pcp.migrations.find? 8 = some m ∧ m.done = false ∧ SMap.risingFrom 0 moving.pcp.migrations = true ∧
    walk moving m.tenant m.va = .leaf page0 ∧ pagePinned moving 0 page0 = false ∧ moving.pcp.holds = [] ∧
    pagePinned (moving.updPcp fun p => { p with reached := [(0, 16)] }) 0 page0 = true ∧
    (m.entries moving).1.any (fun a => writeHeld moving moving.uid a 8) = false ∧
    (∀ ut ∈ moving.teams, ut.2.tx = none) ∧ (moving.isl (0x10000 / 2 ^ 39)).crumbs = [] ∧ (∀ i, (moving.isl i).replicas = []) ∧
    moving.ops.find? 9 = some (op0 .ld (.load .global 4 false 2) 0x10FFC) ∧ moving.pkts.find? 5 = some (pkt0 (.write [1])) := by
  exact ⟨rfl, rfl, rfl, yes, yes, rfl, yes, yes, (quiet_of moving yes yes).2, rfl,
    fun i => SMap.get_all (P := fun x : Island => x.replicas = []) rfl moving.isls yes i, rfl, rfl⟩
/-- Bytes to move, and zeros to move them to, apart from them. -/
theorem witness_migrationRule_bytes : let s := { moving with cur := none }
    let m : Migration := { tenant := 0, va := 0, size := 16, src := 0x1000, dst := 2 ^ 39 }
    s.wf ∧ m.src + m.size ≤ m.dst ∧ (∀ a, a < m.size → memGet s.mem (m.dst + a) = 0) ∧ memGet s.mem (m.src + 1) = 0x20 := by
  refine ⟨⟨rfl, yes, rfl⟩, yes, yes, yes⟩

/-- The page of a host access, free or locked by a migration; an address of no tenant. -/
def locked0 (s : State) : State :=
  s.updPcp fun p => { p with migrations := [(8, { tenant := 0, va := 0, size := 4096, src := 0x10000, dst := 2 ^ 39 })] }
theorem witness_hostAccessRule : let s := tables (leafWord 1 2)
    hostOpen s false = true ∧ walk s 0 0xFF8 = .leaf page0 ∧ 0xFF8 % 4096 + [1, 2].length ≤ 4096 ∧
    page0.w = true ∧ writeHeld s s.uid (page0.pa 0xFF8) 2 = false ∧ piecesHeld s false [(page0.pa 0xFF8, 2)] = false ∧
    hostOpen (locked0 s) false = true ∧ walk (locked0 s) 0 0xFF8 = .leaf page0 ∧
    writeHeld (locked0 s) (locked0 s).uid (page0.pa 0xFF8) 2 = true ∧ walk s 0 (2 ^ 56) = .bad :=
  ⟨yes, yes, yes, rfl, yes, yes, yes, yes, yes, rfl⟩
/-- The topology's page, which the PCP alone writes; a read that waits for a write held before it. -/
theorem witness_hostAccessRule_others : let va := 4096 * (Config.topoPage 0).toNat
    (hostOpen st false = true ∧ Quiet st ∧ walk st 0 va = .leaf topoEntry ∧
      ¬(topoEntry.w = true ∨ specialPage st 0 va ≠ some topoEntry)) ∧
    let s := { tables (leafWord 1 2) with held := [{ no := 0, pa := page0.pa 0xFF8, bytes := [1] }] }
    hostOpen s false = true ∧ walk s 0 0xFF8 = .leaf page0 ∧ piecesHeld s false [(page0.pa 0xFF8, 2)] = true :=
  ⟨⟨rfl, quiet_of _ rfl rfl, (walk_topo st rfl).2, by simp [(walk_topo st rfl).1, topoEntry]⟩, yes, yes, yes⟩
theorem witness_hostAccessRule_quiet : Quiet (tables (leafWord 1 2)) ∧ Quiet (locked0 (tables (leafWord 1 2))) :=
  ⟨quiet_of _ yes yes, quiet_of _ yes yes⟩

/-! ## Hypotheses met: engines and collectives at work -/

/-- Copy context 0 of the crew has a command of two rows of 5,000 bytes, of which `row` are done. -/
def copying (row pos : Nat) (fly : Option CopyFly) : State :=
  (spaces st).updIsl 0 fun i => { i with copy := [(0, { crew := some 1, issued := 1, cmds :=
    [{ no := 1, team := 2, dsp := .lspace, ssp := .aspace, dst := 64, src := 0, rowb := 5000, rows := 2, sstr := 0, dstr := 5000,
       bar := none, row := row, pos := pos, fly := fly }] })] }
theorem witness_copyChunksRule : ∀ rp ∈ [(0, (0, none)), (1, (4096, none)), (2, (0, none)),
      (0, (0, some { reading := false, left := 2 })), (1, (4096, some { reading := false, left := 0 }))],
    let s := copying rp.1 rp.2.1 rp.2.2
    ∃ y cmd, (s.isl 0).copy.find? 0 = some y ∧ y.crew = some 1 ∧ y.cmds = [cmd] ∧ y.stalled = false ∧ y.stopped = false ∧
    s.crews.find? 1 = some (who s).c ∧ s.kernels.find? 0 = some (who s).k ∧ (who s).c.isl = 0 ∧ cmd.bar = none ∧
    (who s).c.mirror = none ∧ (who s).c.exited = false ∧ cmd.row = rp.1 ∧ cmd.rows = 2 ∧ cmd.pos < cmd.rowb ∧
    cmd.ssp = .aspace ∧ cmd.dsp = .lspace ∧ cmd.fly = rp.2.2 ∧ wordHeld s 1 none (64 + rp.1 * 5000 + rp.2.1) 4096 = false := by
  intro rp h
  fin_cases h <;> exact ⟨_, _, rfl, rfl, rfl, rfl, rfl, rfl, rfl, rfl, rfl, rfl, rfl, rfl, rfl, yes, rfl, rfl, rfl, rfl⟩

/-- Both contexts belong to the crew; their head commands are of some kinds. -/
def working (k0 k1 : Option MxKind) (granted : Bool) : State :=
  let ctx (n : Nat) (k : Option MxKind) (g : Bool) : MxCtx :=
    { crew := some 1, bank := n, issued := 4, timeline := 3, granted := g, cmds := (k.map fun k => { mxc0 with kind := k }).toList }
  { engaged.updEngine 0 fun e => { e with ctx0 := ctx 0 k0 false, ctx1 := ctx 1 k1 granted } with now := 16384 }
def mma0 : MxKind := .mma none [{ crew := 1, off := 0, rows := 2, key := 0, abase := 0 }] 1 3 false .bf16
def miter0 : MxKind := .miter .inv true 1 2 3 4 5
def headOf (s : State) : Option (Nat × (MxKind × Bool)) := (mxHead s 0 0 1).map fun h => (h.n, (h.cmd.kind, h.m.granted))
theorem witness_arrayRule :
    (let s := working none (some mma0) false;
      (arrayRequests s 0 0).map (·.n) = [1] ∧ (s.engine (9 * 0 + 0)).ctx0.granted = false ∧
      (s.engine (9 * 0 + 0)).ctx1.granted = false ∧
      (((arrayRequests s 0 0).find? fun h => h.n = 1).map fun h => (h.m.promoted, h.m.requestedAt)) = some (false, 0) ∧
      0 + 16384 ≤ s.now ∧ headOf s = some (1, (mma0, false))) ∧
    let s := working (some mma0) (some miter0) false
    (arrayRequests s 0 0).map (·.n) = [0, 1] ∧ (s.engine (9 * 0 + 0)).ctx0.granted = false ∧
    (s.engine (9 * 0 + 0)).ctx1.granted = false := by decide +kernel
theorem witness_commandsWorkRule : ∀ kg ∈ [((.mzro 0x81 : MxKind), false), (.mwld 0, false), (mma0, false), (mma0, true), (miter0, true)],
    let s := working none (some kg.1) kg.2
    let m := (s.engine (9 * 0 + 0)).ctx 1
    let cmd : MxCmd := { mxc0 with kind := kg.1 }
    worksOn s 0 0 1 1 m (who s).c cmd [] ∧ cmd.bar = none ∧ (who s).c.mirror = none ∧ (who s).c.exited = false ∧
    m.granted = kg.2 ∧ cmd.begun = false ∧ fmtB cmd.fmt = some .bf16 ∧ fmtA cmd.fmt = some .bf16 ∧ 1 + 2 ≤ 256 := by
  intro kg h
  fin_cases h <;> exact ⟨⟨yes, rfl, rfl, rfl, rfl, rfl, yes⟩, rfl, rfl, rfl, rfl, rfl, rfl, rfl, yes⟩

/-- An MMA with rows of a crew that is gone: its core holds them still. -/
theorem witness_commandsWorkRule_gone : let sl : Slab := { crew := 77, off := 256, rows := 2, key := 0, abase := 64 }
    let s := { working none (some (.mma none [sl] 1 3 false .bf16)) true with cur := none }
    s.crews.find? sl.crew = none ∧ headOf s = some (1, (.mma none [sl] 1 3 false .bf16, true)) ∧ 1 + sl.rows ≤ 256 :=
  ⟨rfl, yes, yes⟩

/-- 1.0 and 4.0 against a first residual of 1.0 and a threshold of 1.0; the not-a-number. -/
theorem witness_residualRule : let one := 0x3F800000
    (∃ n m e, FFmt.fp32.val one = .fin n m e) ∧ FFmt.fp32.val 0x7FC00000 = .nan ∧
    ((FFmt.fp32.val one).scale 1).lt (FFmt.fp32.val 0x40800000) = true ∧
    ((FFmt.fp32.val one).scale 1).lt (FFmt.fp32.val 0x40000000) = false ∧
    (FFmt.fp32.val one).eq (FFmt.fp32.val one) = true ∧ (FFmt.fp32.val 0x40000000).lt (FFmt.fp32.val one) = false ∧
    (FFmt.fp32.val 0x40000000).eq (FFmt.fp32.val one) = false ∧ ({} : Loop).out = 0 ∧ ({ iter := 3 } : Loop).iter + 1 = 4 := by
  refine ⟨⟨_, _, _, rfl⟩, ?_⟩
  decide +kernel

theorem witness_groupTableRule : hostOpen st false = true ∧ (7 : Nat) < 8 ∧ (255 : Nat) < 256 := by decide

/-- Islands 0 and 1 are live members of group 3, with a ROOT; island 0 runs instance 1 of it with key 5, whose chunk 0 is as
given; page 0 is in its TLB. -/
def pair0 (root : Nat) : List DWord := [BitVec.ofNat 64 (3 + 0x1000000000 + 0x10000000000 + root * 2 ^ 43), 128, 2, 0]
def collecting (root : Nat) (opn : COpn) (x : CollChunk) (pkts : SMap CollPkt) : State :=
  let s := (engaged.updIsl 1 fun i => { i with live := true }).updIsl 0 fun i => { i with
    live := true
    tlb := [page0]
    groups := [(3, { begun := 1 })]
    coll := [(2, { crew := some 1, issued := 1, cmds := [
      { no := 1, team := 2, opn := opn, group := 3, entry := pair0 root, instanceNo := 1, epoch := 0, inst := 40,
        begunAt := 0, segs := [{ key := 5, va := 0x100 }], bar := none, chunks := [x] }] })] }
  { s with
    groupTab := (List.range 4).map (fun i => ((256 * 0 + 3) * 8 + i, (pair0 root).getD i 0)), now := 4000, uid := 50
    collInsts := [(40, { group := 3, no := 1, entry := (pair0 root).take 3, keys := [(0, [5]), (1, [5])] })]
    collPkts := pkts }
def chunk5 : CollChunk := { key := 5, chunk := 0 }
def theHead (s : State) : CollHead :=
  (collHead s 0 2).getD { isl := 0, ctx := 2, cu := 1, k := (who st).k, cmd :=
    { no := 0, team := 0, opn := .ar, group := 0, entry := [], instanceNo := 0, epoch := 0, begunAt := 0, segs := [], bar := none } }
def theChunk (s : State) : CollChunk := (theHead s).cmd.chunkAt 5 0

def cpkt (inst : Nat) (up tree : Bool) : CollPkt :=
  { group := 3, inst := inst, key := 5, chunk := 0, sender := 1, dst := 0, up := up, tree := tree, mask := 2, bytes := [1] }
theorem witness_collectivePacketsRule :
    (∀ sp ∈ [(collecting 0 .ar chunk5 [(8, cpkt 40 true false)], cpkt 40 true false),
        (collecting 0 .ar { chunk5 with sent := true } [(8, cpkt 40 true false)], cpkt 40 true false),
        (collecting 0 .ar chunk5 [(8, cpkt 40 false true)], cpkt 40 false true)], let s := sp.1
      s.collPkts.find? 8 = some sp.2 ∧ sp.2.left = 0 ∧ sp.2.dst = 0 ∧
      ((collLive (s.isl 0)).find? fun c => c.inst = 40) = some (theHead s).cmd ∧ sp.2.moving = true ∧ 8 < s.uid ∧
      sp.2.mask ≠ 0 ∧ ((theChunk s).got.any fun q => q.1 = 1) = false) ∧
    (theChunk (collecting 0 .ar chunk5 [])).sent = false ∧ (theChunk (collecting 0 .ar { chunk5 with sent := true } [])).sent = true ∧
    (let p : CollPkt := { cpkt 40 false true with dest := some 1 };
      let s := collecting 0 .a2a chunk5 [(8, p)];
      s.collPkts.find? 8 = some p ∧ p.left = 0 ∧ p.dest = some 1 ∧ p.dst = 0 ∧ p.tree = true ∧ p.moving = true ∧ 8 < s.uid ∧
      treeNext s (collInst s 40).entry ((collInst s 40).rootOf (collInst s 40).entry p.key p.chunk) 0 1 = some 1) ∧
    let s := collecting 0 .ar chunk5 [(8, cpkt 41 true false)]
    s.collPkts.find? 8 = some (cpkt 41 true false) ∧ ((collLive (s.isl 0)).find? fun c => c.inst = 41) = none ∧
    (collInst s 41).begun 0 = false := by decide +kernel

theorem witness_chunksRule :
    (∀ s ∈ [collecting 0 .ar chunk5 [], collecting 1 .bc chunk5 [], collecting 0 .ar { chunk5 with req := some 4 } [],
        collecting 0 .ar { chunk5 with own := some [1], got := [(1, (2, [2]))] } [], collecting 1 .ar { chunk5 with own := some [1] } [],
        collecting 0 .bc { chunk5 with own := some [1] } [],
        collecting 0 .ar { chunk5 with own := some [1], sent := true, result := some (3, [1, 2, 3, 4]) } [],
        collecting 0 .ar { chunk5 with own := some [1], sent := true, result := some (3, [1, 2, 3, 4]), wreq := some 4 } []],
      collHead s 0 2 = some (theHead s) ∧ Quiet s ∧ (∀ i, (s.isl i).poison = []) ∧ 0 < (theHead s).cmd.ge.nChunks ∧
      (collKeys s (theHead s)).contains 5 = true ∧ (theHead s).cmd.seg 5 = some { key := 5, va := 0x100 }) := by
  intro s h
  fin_cases h <;> exact ⟨yes, quiet_of _ yes yes, clean_of _ yes,
    yes, yes, yes⟩
theorem witness_chunksRule_clauses :
    (let s := collecting 0 .ar chunk5 [];
      (theChunk s).own = none ∧ (theChunk s).req = none ∧ (theHead s).cmd.reads 0 5 = true) ∧
    (theHead (collecting 1 .bc chunk5 [])).cmd.reads 0 5 = false ∧
    (let s := collecting 0 .ar { chunk5 with req := some 4 } [];
      (theChunk s).req = some 4 ∧ waitsTurn s 0 4 = false ∧ (theHead s).cmd.reads 0 5 = true ∧
      (collReach s (theHead s) .rread (0x100 + 0 * (theHead s).cmd.ge.chunkSize) ((theHead s).cmd.ge.chunkLen 0)).1 =
        .ok [(0x10100, 128)] ∧ piecesHeld s false [(0x10100, 128)] = false) ∧
    (let s := collecting 0 .ar { chunk5 with own := some [1], got := [(1, (2, [2]))] } [];
      (theHead s).cmd.reduces = true ∧ treeChildren s (theHead s).cmd.ge ((theHead s).root s 5 0) 0 = [1] ∧
      (theChunk s).got.any (fun p => p.1 = 1) = true ∧ treeParent s (theHead s).cmd.ge ((theHead s).root s 5 0) 0 = none ∧
      (nodeValue s (theHead s) (theChunk s)).1 ≠ 0) ∧
    (let s := collecting 1 .ar { chunk5 with own := some [1] } [];
      treeChildren s (theHead s).cmd.ge ((theHead s).root s 5 0) 0 = [] ∧
      treeParent s (theHead s).cmd.ge ((theHead s).root s 5 0) 0 = some 1 ∧ (nodeValue s (theHead s) (theChunk s)).1 ≠ 0 ∧
      (theHead s).cmd.ge.timeout ≠ 0 ∧ (theChunk s).readyAt + (theHead s).cmd.ge.timeout ≤ s.now) ∧
    (let s := collecting 0 .bc { chunk5 with own := some [1] } [];
      (theChunk s).own = some [1] ∧ (theChunk s).sent = false ∧ (theHead s).cmd.opn = .bc ∧ (theHead s).cmd.reads 0 5 = true ∧
      liveMembers s (theHead s).cmd.ge = [0, 1]) ∧
    (let s := collecting 0 .ar { chunk5 with own := some [1], sent := true, result := some (3, [1, 2, 3, 4]) } [];
      (theHead s).cmd.writes 0 5 = true ∧ (theChunk s).written = false ∧ allRead (theHead s) 0 = true ∧
      (theChunk s).result = some (3, [1, 2, 3, 4]) ∧ (theChunk s).wreq = none) ∧
    let s := collecting 0 .ar { chunk5 with own := some [1], sent := true, result := some (3, [1, 2, 3, 4]), wreq := some 4 } []
    (theChunk s).wreq = some 4 ∧ waitsTurn s 0 4 = false ∧ (theHead s).cmd.bar = none ∧
    (collReach s (theHead s) .rwrite (0x100 + 0 * (theHead s).cmd.ge.chunkSize) [1, 2, 3, 4].length).1 = .ok [(0x10100, 4)] ∧
    piecesHeld s true [(0x10100, 4)] = false := by decide +kernel

/-- As `collecting`, for an exchange whose segment 1 is for the member of rank 1. -/
def exchanging : State :=
  let s := collecting 0 .a2a chunk5 []
  { s.updIsl 0 fun i => { i with coll := i.coll.mapVals fun _ y => { y with cmds := y.cmds.map fun c =>
      { c with segs := [{ key := 1, va := 0x100 }], chunks := [{ key := 1, chunk := 0, own := some [1] }] } } } with
    collInsts := s.collInsts.mapVals fun _ i => { i with keys := [(0, [1]), (1, [0])] } }
theorem witness_chunksRule_exchange : let s := exchanging
    let h := theHead s
    let x := h.cmd.chunkAt 1 0
    collHead s 0 2 = some h ∧ 0 < h.cmd.ge.nChunks ∧ (collKeys s h).contains 1 = true ∧ x.own = some [1] ∧ x.sent = false ∧
    h.cmd.opn = .a2a ∧ h.cmd.reads 0 1 = true ∧ h.cmd.ge.ofRank 1 = some 1 ∧ (s.isl 1).live = true ∧
    treeNext s h.cmd.ge (h.root s (h.cmd.ge.rank 0) 0) 0 1 = some 1 := by decide +kernel
theorem witness_chunksRule_quiet : Quiet exchanging ∧ ∀ i, (exchanging.isl i).poison = [] :=
  ⟨quiet_of _ yes yes, clean_of _ yes⟩

/-- The only chunk of the island's command is done; its status record goes to page 0. -/
def completing (sreq : Option Nat) : State :=
  let s := collecting 0 .ar { chunk5 with own := some [1], sent := true, written := true, result := some (3, [1]) } []
  { s.updIsl 0 fun i => { i with
      coll := i.coll.mapVals fun _ y => { y with cmds := y.cmds.map fun c => { c with sreq := sreq } } } with
    collInsts := s.collInsts.mapVals fun _ i => { i with formed := [({ src := none, key := 5, chunk := 0 }, 3)] } }
theorem witness_collCompletionRule : ∀ q ∈ [none, some 6], let s := completing q
    collHead s 0 2 = some (theHead s) ∧
    (∃ y, (s.isl 0).coll.find? 2 = some y ∧ y.cmds = (theHead s).cmd :: []) ∧ collDone s (theHead s) = true ∧
    (theHead s).cmd.sreq = q ∧ Quiet s ∧ (theHead s).cmd.bar = none ∧
    (s.crews.find? (theHead s).cu).map (fun c => (c.mirror, c.exited)) = some (none, false) ∧
    (collReach s (theHead s) .counter (theHead s).cmd.ge.statVa 16).1 = .ok [(0x10000, 16)] ∧ waitsTurn s 0 6 = false ∧
    piecesHeld s true [(0x10000, 16)] = false := by
  intro q h
  fin_cases h <;> exact ⟨yes, ⟨_, rfl, yes⟩, yes, yes,
    quiet_of _ yes yes, yes, yes, yes, yes,
    yes⟩
theorem witness_collCompletionRule_slack : let d : Deadline := { isl := 0, latest := 4095 }
    ({ completing none with deadlines := [(6, d)] }).deadlines.find? 6 = some d ∧ d.isl = 0 ∧ d.due = false ∧
    d.latest < (completing none).now + 96 := by decide +kernel

/-! ## Hypotheses met: the fabric -/

/-- Port 0 of island 0 and port 0 of island 1 are the ends of one link. -/
def linked (a b : Link) (y : Lanes) : State :=
  { ((st.updIsl 0 fun i => { i with live := true }).updIsl 1 fun i => { i with live := true }) with
    links := [(0, a), (16, b)], lanes := [(0, y)], pkts := [(5, { pkt0 (.write [1]) with src := 0, dst := 1, route := 0xFFF0, arrived := false })]
    now := 20000 }
def lit0 : Link := { lstate := 1, lit := 0xFFFF }
theorem witness_packetsRule :
    (let p : Packet := { pkt0 (.write [1]) with arrived := false };
      let s := { st with pkts := [(5, p)] };
      s.pkts.find? 5 = some p ∧ p.onLink = false ∧ p.arrived = false ∧ windowHolds s p = false ∧ p.route % 16 = 15 ∧
      p.at_ = p.dest) ∧
    (let p : Packet := { pkt0 (.write [1]) with arrived := false, src := 0, sseq := 256 };
      windowHolds { st with pkts := [(5, p)] } p = true) ∧
    (∀ sh ∈ [(linked lit0 lit0 {}, false), (linked { lit0 with retry := List.replicate 8192 { fseq := 0 } } lit0 {}, true)],
      let s := sh.1;
      (s.pkts.find? 5).map (fun p => (p.onLink, (p.arrived, (windowHolds s p, (p.route % 16, portHolds s p 0))))) =
        some (false, (false, (false, (0, sh.2)))) ∧ portUsable s 0 0 = true) ∧
    portUsable (linked { lit0 with lstate := 3 } { lit0 with lstate := 3 } {}) 0 0 = false ∧
    let p : Packet := { pkt0 .returned with orig := some (.write [1]) }
    ({ st with pkts := [(5, p)] }).pkts.find? 5 = some p ∧ p.onLink = false ∧ p.orig = some (.write [1]) ∧
    p.cargo = .returned ∧ p.arrived = true := by decide +kernel

/-- The other end has sent flit 0 after a reset, or flit 7. -/
def sending (n : Nat) (nak : Option Nat) : State :=
  linked { lit0 with nakDue := nak } { lit0 with wire := [{ fseq := n }], retry := [{ fseq := n }, { fseq := n + 1 }] } {}
theorem witness_flitsRule :
    (sending 0 none).panel.peer 0 0 = some (1, 0) ∧ ((0 : Nat), (0 : Nat)) ≠ (1, 0) ∧
    (((sending 0 none).link 1 0).wire.map (·.fseq)) = [(((sending 0 none).link 0 0).lastAcc + 1) % 65536] ∧
    ((sending 0 none).link 0 0).lstate = 1 ∧
    (((sending 7 none).link 1 0).wire.map (·.fseq)) = [7] ∧ 7 ≠ (((sending 7 none).link 0 0).lastAcc + 1) % 65536 ∧
    (let s := sending 0 none; (hear s (s.link 1 0) (s.link 0 0) (s.laneOf 0 0) (s.link 1 0).wire.head? [(0, (0, 0))]).good = false) ∧
    (∀ nak, let s := linked lit0 { lit0 with nakSend := nak } {}; (s.link 1 0).wire = [] ∧ (s.link 1 0).nakSend = nak) ∧
    ((sending 7 (some 20000)).link 0 0).nakDue = some 20000 ∧ 20000 ≤ (sending 7 (some 20000)).now ∧
    let s := linked { lit0 with badSince := some 0 } lit0 {}
    (s.link 0 0).badSince = some 0 ∧ 0 + 20000 ≤ s.now := by decide +kernel

theorem witness_creditsRule :
    (∀ c ∈ [Ctl.credit [1, 0, 2, 0], .limits 3 [128, 128, 128, 3712]], ∀ out ∈ [[], [({ fseq := 0, first := true } : Flit)]],
      let l := (linked { lit0 with used := [(0, 0), (2, 1)], ctlIn := [c], out := out } lit0 {}).link 0 0
      l.ctlIn = c :: [] ∧ l.out = out ∧
      ({ l with ctlIn := [], used := (List.range 4).foldl (fun u v => dropUsed u v ([1, 0, 2, 0].getD v 0)) l.used } : Link).sends
        { fseq := 0, first := true } = true ∧
      ({ l with ctlIn := [], limit := [128, 128, 128, 3712] } : Link).sends { fseq := 0, first := true } = true) ∧
    ((linked lit0 lit0 {}).link 0 0).lstate = 1 ∧ ((linked lit0 lit0 {}).link 0 0).period < (linked lit0 lit0 {}).now / 2048 ∧
    ([1, 0, 0, 2] : List Nat).length = 4 ∧ ([1, 0, 0, 2] : List Nat).sum ≠ 0 := by decide +kernel
/-- 3,584 slots shared one to two; the remainder goes to the first channel (R259). -/
theorem test_limits_shared : newLimits [1, 0, 0, 2] = [1323, 128, 128, 2517] := by decide

/-! ## Hypotheses met: weak lanes, light and failures -/

def sample0 : LaneSample := { guide := 7, wl := 15, errors := 1025, margin := 25 }
def swap0 (agreed : Bool) : Swap := { guide := 7, leaving := 15, entering := 16, s := 300, no := 4, sentAt := 12000, agreed := agreed }
/-- As `linked`, three windows after power-on. -/
def later (a b : Link) (y : Lanes) : State := { linked a b y with now := 400000 }
theorem witness_lanesRule :
    (later lit0 lit0 {}).panel.peer 0 0 = some (1, 0) ∧
    (let s := later { lit0 with window := 3 } lit0 {}; s.now / 131072 ≤ (s.link 0 0).window) ∧
    (let s := later lit0 lit0 {};
      (s.link 0 0).window < s.now / 131072 ∧ sample0.guide < 8 ∧ sample0.wl < 17 ∧ 25 ≤ sample0.margin ∧ 1024 < sample0.errors ∧
      SMap.find? (s.laneOf 0 0).back (laneKey 7 15) = none ∧ SMap.get 0 (s.laneOf 0 0).errs (laneKey 7 15) = 0) ∧
    (let s := later lit0 lit0 { errs := [(laneKey 7 15, 1)] };
      let y := s.laneOf 0 0;
      SMap.get 0 y.errs (laneKey sample0.guide sample0.wl) = 1 ∧ y.spare = [] ∧ y.back = [] ∧ y.swap = none ∧ y.restripe = none ∧
      (s.link 0 0).lstate = 1 ∧ sample0.wl < 16 ∧ natBits (s.link 0 0).lit 15 15 = 1) ∧
    (let s := later { lit0 with ctlIn := [.swapreq 7 15 16 300 4] } lit0 {};
      (s.link 0 0).ctlIn = .swapreq 7 15 16 300 4 :: [] ∧ (s.laneOf 0 0).swap = none ∧ (s.laneOf 0 0).peerSwap = none ∧
      (s.laneOf 0 0).restripe = none ∧ (s.link 0 0).out = [] ∧ 1 ≤ (300 + 65536 - (s.link 0 0).nextFseq) % 65536 ∧
      (300 + 65536 - (s.link 0 0).nextFseq) % 65536 < 32768 ∧ (s.link 0 0).nextFseq < 65536) ∧
    seqGe ((later { lit0 with nextFseq := 301 } lit0 {}).link 0 0).nextFseq ((300 + 1) % 65536) = true ∧
    (∀ la ∈ [0, 300], ∀ ok, let s := later { lit0 with lastAcc := la, ctlIn := [.swapack 4 ok] } lit0 { swap := some (swap0 false) }
      (s.laneOf 0 0).swap = some (swap0 false) ∧ (s.link 0 0).ctlIn = .swapack (swap0 false).no ok :: [] ∧
      seqGe (s.link 0 0).lastAcc (swap0 false).s = decide (la = 300) ∧ (swap0 false).leaving ≠ 16 ∧
      (swap0 false).sentAt + 8000 ≤ s.now) ∧
    (let l := (later lit0 lit0 { swap := some (swap0 false) }).link 0 0; l.agreedTo (swap0 false) = false) ∧
    (let s := later { lit0 with lastAcc := 299 } { lit0 with wire := [{ fseq := 300 }] } { swap := some (swap0 true) };
      (s.laneOf 0 0).swap = some (swap0 true) ∧ (s.link 0 0).lstate = 1 ∧ (s.link 1 0).wire = { fseq := 300 } :: [] ∧
      300 = (swap0 true).s ∧ 300 = ((s.link 0 0).lastAcc + 1) % 65536) ∧
    let s := later { lit0 with lit := 0x7FFF } lit0 {}
    (s.link 0 0).lstate = 1 ∧ natBits (s.link 0 0).lit 15 15 = 0 := by decide +kernel
/-- No module is dark. -/
theorem witness_lanesRule_dark (m : Nat) : natBits (later { lit0 with lit := 0x7FFF } lit0 {}).panel.dark m m = 0 := by
  show natBits 0 m m = 0
  simp [natBits]

theorem witness_lightRule : let s := linked { lit0 with lit := 0x8001 } lit0 {}
    s.panel.peer 0 0 = some (1, 0) ∧ hasPort s 0 0 = true ∧ (s.link 0 0).lstate = 1 ∧ (s.laneOf 0 0).darkBits = 0 ∧
    lessBits 0x8001 (lessBits 0x8001 (bitsOf [3])) = 0 ∧
    (lessBits 0x8001 (lessBits 0x8001 (bitsOf [0, 15])) ≠ 0 ∧ lessBits (lessBits 0x8001 (bitsOf [0, 15])) 0 = 0) ∧
    (lessBits 0x8001 (lessBits 0x8001 (bitsOf [15])) ≠ 0 ∧ lessBits (lessBits 0x8001 (bitsOf [15])) 0 ≠ 0) ∧
    lessBits (lessBits 0x7FFE 0) (lessBits 0xFFFF 0x8001) = 0 ∧ lessBits (lessBits 0x7FFF 0) (lessBits 0xFFFF 0x8001) ≠ 0 ∧
    (s.laneOf 0 0).restripe = none ∧
    (∀ code ∈ [1, 2], let s := linked { lit0 with lstate := 2, lit := 0x8001, ctlIn := [.train code 15 0x7FFF] } lit0 { restripe := some (16, 0xFF) }
      (s.link 0 0).ctlIn = .train code 15 0x7FFF :: [] ∧ (s.link 0 0).lstate = 2 ∧ (s.laneOf 0 0).restripe = some (16, 0xFF)) ∧
    natBits s.panel.dark 19 19 = 0 ∧ natBits { s.panel with dark := 2 ^ 19 }.dark 19 19 = 1 := by decide +kernel

theorem witness_failuresRule :
    (let s := mapped.updIsl 0 fun i => { i with live := true };
      (s.isl 0).live = true ∧ 10 < (s.isl 0).clock ∧ (s.isl 5).live = false ∧ s.teams.find? 2 = some (who s).t ∧
      s.crews.find? (who s).t.crew = some (who s).c ∧ s.kernels.find? (who s).c.kernel = some (who s).k ∧
      (who s).k.launch.rollback = false ∧ (2 ^ 44 - 1) / 2 ^ 39 = 31 ∧
      ∀ r ∈ (s.isl 31).log, r.sector ≠ (2 ^ 44 - 1) / 32 * 32) ∧
    (let s := mapped; ∀ r ∈ (s.isl 31).log, r.sector ∉ (List.range 4).map fun j => (2 ^ 44 - 1) / 128 * 128 + 32 * j) ∧
    let read (c watts celsius : Nat) (acted : Bool) : State := st.updIsl 0 fun i =>
      { i with live := true, clock := c, draw := watts, heat := celsius, acted := acted }
    (∀ s ∈ [read 20 1501 60 false, (read 20 1000 60 false).updHost fun h => { h with pwrLim := 9 }, read 20 100 95 false],
      (s.isl 0).acted = false ∧ 10 < (s.isl 0).clock ∧
      (1500 < (s.isl 0).draw ∨ s.host.pwrLim * 100 < panelDraw s ∨ 95 ≤ (s.isl 0).heat)) ∧
    (let s := read 19 1425 94 false;
      (s.isl 0).acted = false ∧ (s.isl 0).clock < 20 ∧ (s.isl 0).draw ≤ 1425 ∧ panelDraw s ≤ s.host.pwrLim * 95 ∧
      (s.isl 0).heat < 95) ∧
    ((read 19 1501 60 true).isl 0).acted = true ∧ (read 19 1500 94 false).panel.draw = 0 ∧
    ((read 19 1426 60 false).isl 0).live = true := by decide +kernel

/-! ## Hypotheses met: the host's controls -/

/-- The crew stops, its collective context with a chunk read and not sent. -/
def chunkRead0 : State :=
  let s := collecting 0 .bc { chunk5 with own := some [1] } []
  (crew (fun c => { c with stop := true, collCtx := some 2 }) (s.updTenant 0 fun t => { t with preStop := true })).updIsl 0 fun i =>
    { i with coll := i.coll.mapVals fun _ y => { y with stopped := true } }
theorem witness_preemptionRule :
    (hostOpen st false = true ∧ (st.tenant 0).preStop = false ∧ (st.tenant 0).preResume = false ∧
      preemptActs 0x100000001 = (true, false) ∧ preemptActs 0x100000002 = (false, true) ∧ preemptActs 3 = (true, true) ∧
      namedIsls st (natBits (0x100000001 : DWord).toNat 56 32) = [0] ∧
      st.crews.find? 1 = some (who st).c ∧ crewTenant st (who st).c = some 0 ∧ (who st).c.saved = false ∧
      (who st).c.exited = false) ∧
    (let s := crew (fun c => { c with stop := true }) (st.updTenant 0 fun t => { t with preStop := true });
      (s.tenant 0).preStop = true ∧ (tenantCrews s 0 fun c => c.stop) = [(1, (who s).c)] ∧ drained s 1 = true ∧
      sendsChunk s (who s).c = false ∧
      drained { s with ops := [(9, op0 .ld (.load .global 4 false 2) 0x10000)] } 1 = false) ∧
    ((chunkRead0.tenant 0).preStop = true ∧ ((tenantCrews chunkRead0 0 fun c => c.stop).map fun uc => sendsChunk chunkRead0 uc.2) = [true]) ∧
    (let s := st.updTenant 0 fun t => { t with preResume := true };
      (s.tenant 0).preResume = true ∧ (savedCrews (restoreAll s 0) 0).isEmpty = true) ∧
    let s := (kern (fun k => { k with image := { k.image with lspace := 2 ^ 20 } }) (crew (fun c => { c with saved := true }) st)).updTenant 0 fun t => { t with preResume := true }
    (savedCrews (restoreAll s 0) 0).isEmpty = false := by decide +kernel

/-- The crew is halted by a breakpoint, with handle 6. -/
def halted0 : State := crew (fun c => { c with halt := some { cause := .brk, handle := 6, team := 0, engine := 0, cmd := 0 } }) st
set_option maxRecDepth 20000 in
theorem witness_crewControlsRule : hostOpen halted0 false = true ∧
    haltedBy halted0 0 6 = some (1, (who halted0).c) ∧ haltedBy halted0 0 7 = none ∧
    halted0.kernels.find? (who halted0).c.kernel = some (who halted0).k ∧
    ((strikeSpans halted0 0 (spansOf halted0 (who halted0).c (who halted0).k [2]) none).crews.find? 1).isSome = false ∧
    let s := (kern (fun k => { k with launch := { k.launch with rollback := true } }) halted0).updHost fun h => { h with wlogsz := 1 }
    ((strikeSpans s 0 (spansOf s (who s).c (who s).k [2]) none).crews.find? 1).isSome = true ∧
    let g : SpanTag := { kernel := 0, crew := 0, span := 0 }
    let s := crew (fun c => { c with halt := c.halt.map fun h => { h with span := some g } }) s
    (who s).c.halt.bind (·.span) = some g ∧ ((strikeSpans s 0 [g] none).crews.find? 1).isSome = true :=
  ⟨rfl, yes, yes, rfl, yes, yes, yes, yes⟩

theorem witness_tenantResetRule :
    (let s := (headed signal0 none).updQueue 5 fun q => { q with tenant := 1, waiting := [(1, Rec.ofBytes [])] };
      hostOpen s false = true ∧ (s.tenant 1).treset = false ∧ SMap.risingFrom 0 s.queues = true ∧ (∀ uk ∈ s.kernels, uk.2.tenant ≠ 1) ∧
      (s.queue 5).tenant = 1 ∧ (s.queue 5).accepted ≠ [] ∧ SMap.keys s.queues = [5] ∧ (s.queue 5).statVa = 0 ∧
      ({} : Queue).statVa = 0) ∧
    ((fed.updTenant 1 fun t => { t with treset := true }).tenant 1).treset = true := by decide +kernel

theorem witness_bootRule : hostOpen st true = true ∧
    (0x10FF8 < topoBase ∧ 0x10FF8 / 2 ^ 39 < st.panel.nIsl ∧ (st.isl (0x10FF8 / 2 ^ 39)).ueSeen = false) ∧
    st.host.ready = false ∧ st.host.stuck = false ∧ (∀ g < 6, (st.updHost fun h => { h with stage := g }).host.stage = g) ∧
    (st.updHost fun h => { h with ready := true }).host.ready = true ∧ topoBase ≤ 2 ^ 44 := by
  decide +kernel
/-- A signature is good or it is not. -/
theorem witness_bootRule_signature (image : BootImage) : let good := Config.sm2Verifies Config.fusedKey (Config.sm3 image.bytes) image.sig
    good = true ∨ good = false := by
  cases Config.sm2Verifies Config.fusedKey (Config.sm3 image.bytes) image.sig <;> simp
theorem witness_attestationRule : hostOpen st true = true ∧ st.host.attGo = false ∧
    let s := st.updHost fun h => { h with attGo := true, firmware := [(2, 5), (3, 6)] }
    s.host.attGo = true ∧ s.host.firmware.find? 2 = some 5 ∧ s.host.firmware.find? 3 = some 6 := by decide
theorem witness_registersRule : hostOpen st false = true ∧ hostOpen st true = true ∧ (st.queue 2047).enable = false ∧
    (fed.queue 5).enable = true ∧ 0x100001 % 8 ≠ 0 ∧ anyEnabled State.reset = false ∧ anyEnabled fed = true ∧
    (st.panel.pwrMax : Nat) % 2 ^ 9 ≤ st.panel.pwrMax ∧ st.panel.pwrMax < (511 : Nat) % 2 ^ 9 := by decide +kernel

/-- A ring of 128 entries at 0x5000, on its last entry, empty or full; and a ring that is off. -/
def ring (size tail head : Nat) : State := st.updHost fun h => { h with eqBase := 0x5000, eqSize := size, eqTail := tail, eqHead := head }
theorem witness_EventRing :
    (let h := (ring 7 127 127).host;
      h.eqBase ≠ 0 ∧ 7 ≤ h.eqSize ∧ h.eqSize ≤ 20 ∧ (h.eqTail + 2 ^ 32 - h.eqHead) % 2 ^ 32 ≠ 2 ^ h.eqSize ∧
      (h.eqTail + 2 ^ 32 - 127) % 2 ^ 32 ≤ 2 ^ h.eqSize ∧ 2 ^ h.eqSize < (h.eqTail + 2 ^ 32 - 128) % 2 ^ 32) ∧
    (let h := (ring 7 127 (2 ^ 32 - 1)).host; (h.eqTail + 2 ^ 32 - h.eqHead) % 2 ^ 32 = 2 ^ h.eqSize) ∧
    ¬(7 ≤ (ring 6 0 0).host.eqSize) ∧ hostOpen (ring 7 0 0) false = true := by decide

/-! ## Hypotheses met: the machine as a whole -/

/-- The team is about to issue a word: its bytes are `w`. -/
def next0 (w : Nat) : State := State.reset.withFetchWord 64 w
theorem witness_StepRunsDecoded : let f : Instr := .ffma on .f32 .tz (.v 8) (.v 1) (.v 2) (.v 3)
    let start (s : State) : State := { (pass { s with inbox := [], tick := s.tick + 1 } 0 : State) with cur := some 2 }
    let s := next0 0x1030702001008031
    let s1 := start s
    let s2 := pass s1 (slotTime s1 (who s1) - s1.now)
    (s.inbox = { wait := 0, move := .issue 2 } :: [] ∧ Issues s1 (who s1) ∧ issues s1 (who s1) = true ∧
      Issues s2 (who s2) ∧ issues s2 (who s2) = true ∧ chosen s2 (who s2) = true ∧
      (∃ bs, fetch s2 (who s2) = some bs ∧ decodeBytes bs = .ok (f, [])) ∧ interlocked s2 2 (who s2).t.regs f = false) ∧
    (let s := { s with ops := [(9, op0 .ld (.load .global 4 false 2) 0x10000)] };
      let s1 := start s;
      Issues s1 (who s1) ∧ issues s1 (who s1) = true ∧ chosen s1 (who s1) = true ∧ interlocked s1 2 (who s1).t.regs f = true) ∧
    (let s1 := start (next0 0);
      chosen s1 (who s1) = true ∧ (fetch s1 (who s1)).map (fun bs => (decodeBytes bs).toOption) = some none) ∧
    (let s1 := start (flow (fun f => { f with pc := 4096 }) (next0 0));
      Issues s1 (who s1) ∧ chosen s1 (who s1) = true ∧ fetch s1 (who s1) = none) ∧
    (let s1 := start (crew (fun c => { c with stop := true }) s); Issues s1 (who s1) ∧ issues s1 (who s1) = false) ∧
    (let s1 := start { s with teams := s.teams.put 3 { (who s).t with index := 4, sched := { (who s).t.sched with level := 60 } } };
      Issues s1 (who s1) ∧ issues s1 (who s1) = true ∧ chosen s1 (who s1) = false) ∧
    (Instr.powerOn).isWord = false ∧ (Instr.powerOn).wf = true ∧ recordQueue (.event .powerOn) = none ∧
    waitsForDue (next0 0) .powerOn = false ∧
    (let s := { st.updTenant 0 fun t => { t with preStop := true } with
        ops := [(9, op0 .st (.flush 128) 0x10F80)], deadlines := [(7, { isl := 0, latest := 0, due := true, save := some 0 })] };
      waitsForDue s (.storePerformed 9) = true ∧ (Instr.storePerformed 9).isWord = false ∧ (Instr.storePerformed 9).wf = true) ∧
    (recordQueue (.event (.recordSlotWrite 5 0 (signalRec 0)))).isSome = true ∧ (Instr.recordSlotWrite 5 0 (signalRec 0)).wf = true := by
  refine ⟨⟨rfl, rfl, rfl, rfl, rfl, yes, ⟨_, rfl, yes⟩, yes⟩,
    ⟨rfl, rfl, yes, yes⟩, ⟨yes, yes⟩, ⟨rfl, yes, rfl⟩, ⟨rfl, rfl⟩,
    ⟨rfl, rfl, yes⟩, rfl, rfl, rfl, rfl, ⟨yes, rfl, rfl⟩, rfl, yes⟩

theorem witness_DecodeEncode : let i : Instr := .vadd on .i32 true (.v 254) (.v 5) (.k 0x40)
    i.wf = true ∧ (encodeBytes i).isSome = true ∧ decode 0x2002701504000040 = .ok (.ld on .b32 false (.v 5) (.s 4) 0x40) := by
  decide +kernel
theorem witness_StepKeepsInvariant : State.reset.wf ∧ (next0 0x2002701504000040).wf ∧
    ∃ t, step State.reset = .next t := by
  exact ⟨⟨rfl, rfl, rfl⟩, ⟨rfl, rfl, rfl⟩, _, rfl⟩

end Sys2Proof.Tests
end

section
/-! PROOFS. The decoder and the encoder are inverse (R4, R70, R73, R87): codes and operand fields read back, then full
words, pair words and bytes. -/

namespace Sys2Proof

/-! ## Fields of bit vectors -/

section
variable {v w : Nat} (x : BitVec v) (y : BitVec w) {lo n : Nat}

@[simp] theorem extract_lower (h : lo + n ≤ w) :
    @BitVec.extractLsb' (no_index (v + w)) lo n (no_index (x ++ y)) = y.extractLsb' lo n :=
  BitVec.extractLsb'_append_eq_of_add_le h
@[simp] theorem extract_upper (h : w ≤ lo) :
    @BitVec.extractLsb' (no_index (v + w)) lo n (no_index (x ++ y)) = x.extractLsb' (lo - w) n :=
  BitVec.extractLsb'_append_eq_of_le h
@[simp] theorem extract_span_eq_zero (h : lo < w) (h' : w < lo + n) :
    @BitVec.extractLsb' (no_index (v + w)) lo n (no_index (x ++ y)) = 0#n ↔
      x.extractLsb' 0 (lo + n - w) = 0#_ ∧ y.extractLsb' lo (w - lo) = 0#_ := by
  simp only [BitVec.eq_of_getLsbD_eq_iff, BitVec.getLsbD_extractLsb', BitVec.getLsbD_append, BitVec.getLsbD_zero,
    Nat.zero_add]
  constructor
  · intro e
    refine ⟨fun k hk => ?_, fun k hk => ?_⟩
    · have := e (w - lo + k) (by omega)
      simpa [hk, show w - lo + k < n by omega, show ¬ lo + (w - lo + k) < w by omega,
        show lo + (w - lo + k) - w = k by omega] using this
    · have := e k (by omega)
      simpa [hk, show k < n by omega, show lo + k < w by omega] using this
  · rintro ⟨e1, e2⟩ k hk
    by_cases hl : lo + k < w
    · simpa [hl, hk, show k < w - lo by omega] using e2 k (by omega)
    · have := e1 (lo + k - w) (by omega)
      simpa [hl, hk, show lo + k - w < lo + n - w by omega] using this
end

/-! ## Codes read back -/

@[simp] theorem ITy.ofBits_eq_some (x : BitVec 4) (c : ITy) : ITy.ofBits x = some c ↔ c.bits = x := by
  revert x; cases c <;> decide
@[simp] theorem FTy.ofBits_eq_some (x : BitVec 4) (c : FTy) : FTy.ofBits x = some c ↔ c.bits = x := by
  revert x; cases c <;> decide
@[simp] theorem Rm.ofBits_eq_some (x : BitVec 2) (c : Rm) : Rm.ofBits x = some c ↔ c.bits = x := by
  revert x; cases c <;> decide
@[simp] theorem Sz.ofBits_eq_some (x : BitVec 3) (c : Sz) : Sz.ofBits x = some c ↔ c.bits = x := by
  revert x; cases c <;> decide
@[simp] theorem Cc.ofBits_eq_some (x : BitVec 3) (c : Cc) : Cc.ofBits x = some c ↔ c.bits = x := by
  revert x; cases c <;> decide
@[simp] theorem Fcc.ofBits_eq_some (x : BitVec 3) (c : Fcc) : Fcc.ofBits x = some c ↔ c.bits = x := by
  revert x; cases c <;> decide
@[simp] theorem ATy.ofBits_eq_some (x : BitVec 4) (c : ATy) : ATy.ofBits x = some c ↔ c.bits = x := by
  revert x; cases c <;> decide
@[simp] theorem AOp.ofBits_eq_some (x : BitVec 4) (c : AOp) : AOp.ofBits x = some c ↔ c.bits = x := by
  revert x; cases c <;> decide
@[simp] theorem Scope.ofBits_eq_some (x : BitVec 3) (c : Scope) : Scope.ofBits x = some c ↔ c.bits = x := by
  revert x; cases c <;> decide
@[simp] theorem Ord.ofBits_eq_some (x : BitVec 2) (c : Ord) : Ord.ofBits x = some c ↔ c.bits = x := by
  revert x; cases c <;> decide
@[simp] theorem CTy.ofBits_eq_some (x : BitVec 4) (c : CTy) : CTy.ofBits x = some c ↔ c.bits = x := by
  revert x; cases c <;> decide
@[simp] theorem ROp.ofBits_eq_some (x : BitVec 3) (c : ROp) : ROp.ofBits x = some c ↔ c.bits = x := by
  revert x; cases c <;> decide
@[simp] theorem ShMode.ofBits_eq_some (x : BitVec 2) (c : ShMode) : ShMode.ofBits x = some c ↔ c.bits = x := by
  revert x; cases c <;> decide
@[simp] theorem Space.ofBits_eq_some (x : BitVec 3) (c : Space) : Space.ofBits x = some c ↔ c.bits = x := by
  revert x; cases c <;> decide
@[simp] theorem MFmt.ofBits_eq_some (x : BitVec 2) (c : MFmt) : MFmt.ofBits x = some c ↔ c.bits = x := by
  revert x; cases c <;> decide
@[simp] theorem QryItem.ofBits_eq_some (x : BitVec 8) (c : QryItem) : QryItem.ofBits x = some c ↔ c.bits = x := by
  revert x; cases c <;> decide
@[simp] theorem MiterForm.ofBits_eq_some (x : BitVec 2) (c : MiterForm) :
    MiterForm.ofBits x = some c ↔ c.bits = x := by
  revert x; cases c <;> decide
@[simp] theorem Eng.ofBits_eq_some (x : BitVec 2) (c : Eng) : Eng.ofBits x = some c ↔ c.bits = x := by
  revert x; cases c <;> decide
@[simp] theorem COpn.ofBits_eq_some (x : BitVec 3) (c : COpn) : COpn.ofBits x = some c ↔ c.bits = x := by
  revert x; cases c <;> decide
@[simp] theorem Pop.ofBits_eq_some (x : BitVec 7) (c : Pop) : Pop.ofBits x = some c ↔ c.bits = x := by
  revert x; cases c <;> decide
@[simp] theorem HPred.ofBits_eq_some (x : BitVec 2) (c : HPred) : HPred.ofBits x = some c ↔ c.bits = x := by
  revert x; cases c <;> decide
@[simp] theorem TlMode.ofBits_eq_some (x : BitVec 2) (c : TlMode) : TlMode.ofBits x = some c ↔ c.bits = x := by
  revert x; cases c <;> decide
@[simp] theorem ITy.ofBits_bits (c : ITy) : ITy.ofBits c.bits = some c := (ofBits_eq_some _ _).2 rfl
@[simp] theorem FTy.ofBits_bits (c : FTy) : FTy.ofBits c.bits = some c := (ofBits_eq_some _ _).2 rfl
@[simp] theorem Rm.ofBits_bits (c : Rm) : Rm.ofBits c.bits = some c := (ofBits_eq_some _ _).2 rfl
@[simp] theorem Sz.ofBits_bits (c : Sz) : Sz.ofBits c.bits = some c := (ofBits_eq_some _ _).2 rfl
@[simp] theorem Cc.ofBits_bits (c : Cc) : Cc.ofBits c.bits = some c := (ofBits_eq_some _ _).2 rfl
@[simp] theorem Fcc.ofBits_bits (c : Fcc) : Fcc.ofBits c.bits = some c := (ofBits_eq_some _ _).2 rfl
@[simp] theorem ATy.ofBits_bits (c : ATy) : ATy.ofBits c.bits = some c := (ofBits_eq_some _ _).2 rfl
@[simp] theorem AOp.ofBits_bits (c : AOp) : AOp.ofBits c.bits = some c := (ofBits_eq_some _ _).2 rfl
@[simp] theorem Scope.ofBits_bits (c : Scope) : Scope.ofBits c.bits = some c := (ofBits_eq_some _ _).2 rfl
@[simp] theorem Ord.ofBits_bits (c : Ord) : Ord.ofBits c.bits = some c := (ofBits_eq_some _ _).2 rfl
@[simp] theorem CTy.ofBits_bits (c : CTy) : CTy.ofBits c.bits = some c := (ofBits_eq_some _ _).2 rfl
@[simp] theorem ROp.ofBits_bits (c : ROp) : ROp.ofBits c.bits = some c := (ofBits_eq_some _ _).2 rfl
@[simp] theorem ShMode.ofBits_bits (c : ShMode) : ShMode.ofBits c.bits = some c := (ofBits_eq_some _ _).2 rfl
@[simp] theorem Space.ofBits_bits (c : Space) : Space.ofBits c.bits = some c := (ofBits_eq_some _ _).2 rfl
@[simp] theorem MFmt.ofBits_bits (c : MFmt) : MFmt.ofBits c.bits = some c := (ofBits_eq_some _ _).2 rfl
@[simp] theorem QryItem.ofBits_bits (c : QryItem) : QryItem.ofBits c.bits = some c := (ofBits_eq_some _ _).2 rfl
@[simp] theorem MiterForm.ofBits_bits (c : MiterForm) : MiterForm.ofBits c.bits = some c := (ofBits_eq_some _ _).2 rfl
@[simp] theorem Eng.ofBits_bits (c : Eng) : Eng.ofBits c.bits = some c := (ofBits_eq_some _ _).2 rfl
@[simp] theorem COpn.ofBits_bits (c : COpn) : COpn.ofBits c.bits = some c := (ofBits_eq_some _ _).2 rfl
@[simp] theorem Pop.ofBits_bits (c : Pop) : Pop.ofBits c.bits = some c := (ofBits_eq_some _ _).2 rfl
@[simp] theorem HPred.ofBits_bits (c : HPred) : HPred.ofBits c.bits = some c := (ofBits_eq_some _ _).2 rfl
@[simp] theorem TlMode.ofBits_bits (c : TlMode) : TlMode.ofBits c.bits = some c := (ofBits_eq_some _ _).2 rfl

@[simp] theorem RTy.ofBits_eq_some (f : Bool) (x : BitVec 4) (c : RTy) :
    RTy.ofBits f x = some c ↔ c.isFloat = f ∧ c.bits = x := by
  revert f x; cases c <;> decide
@[simp] theorem RTy.ofBits_bits (c : RTy) : RTy.ofBits c.isFloat c.bits = some c :=
  (ofBits_eq_some _ _ _).2 ⟨rfl, rfl⟩

/-! ## Operand fields read back (R74) -/

/-- A field is the upper part of it above the lower. -/
theorem extract_eq_append_iff {w m n : Nat} (x : BitVec w) (lo : Nat) (a : BitVec m) (b : BitVec n) :
    x.extractLsb' lo (m + n) = a ++ b ↔ x.extractLsb' (lo + n) m = a ∧ x.extractLsb' lo n = b := by
  have e : x.extractLsb' lo (m + n) = x.extractLsb' (lo + n) m ++ x.extractLsb' lo n := by
    refine BitVec.eq_of_getLsbD_eq fun k hk => ?_
    simp only [BitVec.getLsbD_append, BitVec.getLsbD_extractLsb']
    grind
  rw [e]
  constructor
  · intro h
    have h1 := congrArg (BitVec.extractLsb' n m) h
    have h2 := congrArg (BitVec.extractLsb' 0 n) h
    simpa using And.intro h1 h2
  · rintro ⟨rfl, rfl⟩; rfl

theorem eq_append_iff {m n : Nat} (x : BitVec (m + n)) (a : BitVec m) (b : BitVec n) :
    x = a ++ b ↔ x.extractLsb' n m = a ∧ x.extractLsb' 0 n = b := by
  simpa using extract_eq_append_iff x 0 a b

@[simp] theorem Operand.ofBits_bits (o : Operand) : Operand.ofBits o.bits = some o := by
  cases o <;> simp [Operand.ofBits, Operand.bits, -BitVec.extractLsb'_toNat]
@[simp] theorem Operand.ofBits_eq_some (x : BitVec 10) (o : Operand) : Operand.ofBits x = some o ↔ o.bits = x := by
  refine ⟨fun h => Eq.symm ?_, fun h => h ▸ ofBits_bits o⟩
  unfold ofBits at h
  split at h
  · next e => cases h; exact (eq_append_iff (m := 2) (n := 8) x _ _).2 ⟨BitVec.eq_of_toNat_eq e, rfl⟩
  · next e =>
    split at h
    · next z =>
      cases h
      exact (eq_append_iff (m := 4) (n := 6) x _ _).2
        ⟨(extract_eq_append_iff (m := 2) (n := 2) x 6 _ _).2 ⟨BitVec.eq_of_toNat_eq e, z⟩, rfl⟩
    · cases h
  · next e =>
    cases h
    exact (eq_append_iff (m := 4) (n := 6) x _ _).2
      ⟨(extract_eq_append_iff (m := 2) (n := 2) x 6 _ _).2 ⟨BitVec.eq_of_toNat_eq e, rfl⟩, rfl⟩
  · next e0 e1 e2 =>
    cases h
    refine (eq_append_iff (m := 2) (n := 8) x _ _).2 ⟨BitVec.eq_of_toNat_eq ?_, rfl⟩
    have last : ∀ k < 4, k ≠ 0 → k ≠ 1 → k ≠ 2 → k = 3 := by omega
    exact last _ (x.extractLsb' 8 2).isLt e0 e1 e2
@[simp] theorem sregOfBits_bits (r : SReg) : sregOfBits (sregBits r) = some r := by
  simp [sregOfBits, sregBits]
@[simp] theorem sregOfBits_eq_some (x : BitVec 10) (r : SReg) : sregOfBits x = some r ↔ sregBits r = x := by
  refine Iff.trans ?_ ((eq_append_iff (m := 4) (n := 6) x 4 r).symm.trans eq_comm)
  simp [sregOfBits]
@[simp] theorem optSregOfBits_bits (r : Option SReg) : optSregOfBits (optSregBits r) = some r := by
  cases r with
  | none => rfl
  | some r =>
    have : sregBits r ≠ 0x3FF#10 := fun e => by
      have := congrArg (BitVec.extractLsb' 6 4) e
      simp [sregBits] at this
    simp [optSregOfBits, optSregBits, this]
@[simp] theorem optSregOfBits_eq_some (x : BitVec 10) (r : Option SReg) :
    optSregOfBits x = some r ↔ optSregBits r = x := by
  refine ⟨fun h => Eq.symm ?_, fun h => h ▸ optSregOfBits_bits r⟩
  unfold optSregOfBits at h
  split at h
  · next e => cases h; exact e
  · obtain ⟨q, hq, rfl⟩ := Option.map_eq_some_iff.1 h
    exact ((sregOfBits_eq_some _ _).1 hq).symm
/-- The code of an absent destination is no destination's own. -/
@[simp] theorem optOperandOfBits_eq_some (x : BitVec 10) (d : Option Operand) :
    optOperandOfBits x = some d ↔ optOperandBits d = x ∧ d ≠ some (.k 0xFF) := by
  unfold optOperandOfBits optOperandBits
  by_cases hx : x = 0x3FF#10
  · subst hx
    cases d with
    | none => simp
    | some o =>
      have : o.bits = 0x3FF#10 ↔ o = .k 0xFF := by
        rw [← Operand.ofBits_eq_some, show Operand.ofBits 0x3FF#10 = some (.k 0xFF) from rfl, Option.some.injEq,
          eq_comm]
      simp [this]
  · cases d with
    | none => simpa [hx] using Ne.symm hx
    | some o =>
      simp only [BitVec.ofNat_eq_ofNat, hx, if_false, Option.map_eq_some_iff, Operand.ofBits_eq_some,
        Option.some.injEq, exists_eq_right, ne_eq, iff_self_and]
      rintro rfl rfl
      exact hx rfl
@[simp] theorem barOfBits_bits (b : Bar) : barOfBits (barBits b) = some b := by
  cases b <;> simp [barOfBits, barBits]
@[simp] theorem barOfBits_eq_some (x : BitVec 8) (b : Bar) : barOfBits x = some b ↔ barBits b = x := by
  refine ⟨fun h => Eq.symm ?_, fun h => h ▸ barOfBits_bits b⟩
  revert x; cases b with
  | none => decide
  | some r =>
    intro x h
    unfold barOfBits at h
    split at h
    · next z =>
      split at h
      · next u =>
        cases h
        exact (eq_append_iff (m := 2) (n := 6) x _ _).2
          ⟨(extract_eq_append_iff (m := 1) (n := 1) x 6 1#1 0#1).2 ⟨u, z⟩, rfl⟩
      · split at h <;> cases h
    · cases h

/-! ## Fields of a full word read back (Table 5-2) -/

section
variable (op : BitVec 10) (md : BitVec 4) (g : Guard) (body : BitVec 44)

theorem fld_encFull_body {lo n : Nat} (h : lo + n ≤ 44) :
    fld (encFull op md g body) lo n = body.extractLsb' lo n := by
  simp [fld, encFull, h]
theorem fld_encFull_mod {lo n : Nat} (h : 48 ≤ lo) (h' : lo + n ≤ 52) :
    fld (encFull op md g body) lo n = md.extractLsb' (lo - 48) n := by
  simp only [fld, encFull]
  rw [extract_upper _ _ (by omega), extract_upper _ _ (by omega), extract_upper _ _ (by omega),
    extract_lower _ _ (by omega)]
  congr 1
@[simp] theorem fld_encFull_kind : fld (encFull op md g body) 62 2 = 0 := by simp [fld, encFull]
@[simp] theorem fld_encFull_group : fld (encFull op md g body) 59 3 = op.extractLsb' 7 3 := by simp [fld, encFull]
@[simp] theorem fld_encFull_op : fld (encFull op md g body) 52 7 = op.extractLsb' 0 7 := by simp [fld, encFull]
@[simp] theorem fMod_encFull : fMod (encFull op md g body) = md := by simp [fMod, fld_encFull_mod]
@[simp] theorem fGuard_encFull : fGuard (encFull op md g body) = g := by
  obtain ⟨p, b⟩ := g
  cases b <;> simp [fGuard, bit, fld, encFull]
end

/-! ## Fields of any word -/

/-- Every field within bits that are all 0 is 0. -/
theorem zer_iff (w : DWord) (lo n : Nat) :
    zer w lo n = true ↔ ∀ lo' n', lo ≤ lo' → lo' + n' ≤ lo + n → fld w lo' n' = 0#n' := by
  refine ⟨fun h lo' n' h1 h2 => BitVec.eq_of_getLsbD_eq fun k hk => ?_,
    fun h => decide_eq_true (h lo n le_rfl le_rfl)⟩
  have h : fld w lo n = 0#n := of_decide_eq_true h
  have := congrArg (fun x => x.getLsbD (lo' - lo + k)) h
  simpa [fld, hk, show lo' - lo + k < n by omega, show lo + (lo' - lo + k) = lo' + k by omega] using this

theorem finish_eq_ok {p : Option Instr} {i : Instr} : finish p = .ok i ↔ p = some i ∧ i.wf = true := by
  cases p with
  | none => simp [finish]
  | some j =>
    simp only [finish, Option.some.injEq]
    by_cases hj : j.wf = true
    · simp only [hj, if_true, Except.ok.injEq]
      exact ⟨fun e => ⟨e, e ▸ hj⟩, And.left⟩
    · simp only [hj]
      exact ⟨nofun, fun ⟨e, h⟩ => absurd (e ▸ h) hj⟩
/-- The guard bits of a team-scope word (R72). -/
theorem fGuard_eq_always_iff (w : DWord) : fGuard w = .always ↔ fld w 44 4 = 7 := by
  have hb : ∀ c : BitVec 1, decide (c = 1) = false ↔ c = 0#1 := by decide
  refine Iff.trans ?_ (extract_eq_append_iff (m := 1) (n := 3) w 44 0#1 7#3).symm
  simp only [fGuard, Guard.always, Guard.mk.injEq, bit, hb]
  exact and_comm
/-- A team-scope word has no guard. -/
theorem teamWord_eq_ok {w : DWord} {z : Bool} {p : Option Instr} {i : Instr} :
    teamWord w z p = .ok i ↔ fGuard w = .always ∧ z = true ∧ p = some i ∧ i.wf = true := by
  unfold teamWord
  rw [fGuard_eq_always_iff]
  by_cases hg : fld w 44 4 = 7#4 <;> cases z <;> simp [hg, finish_eq_ok]
theorem laneWord_eq_ok {w : DWord} {z : Bool} {p : Guard → Option Instr} {i : Instr} :
    laneWord w z p = .ok i ↔ (fGuard w).ok = true ∧ z = true ∧ p (fGuard w) = some i ∧ i.wf = true := by
  unfold laneWord
  cases hg : (fGuard w).ok <;> cases z <;> simp [finish_eq_ok]

/-- What stands in a field stands in its two parts. -/
theorem append_eq_fld {m n : Nat} (w : DWord) (lo : Nat) (a : BitVec m) (b : BitVec n) :
    @Eq (BitVec (no_index (m + n))) (no_index (a ++ b)) (fld w lo (no_index (m + n))) ↔
      a = fld w (lo + n) m ∧ b = fld w lo n := by
  rw [eq_comm, eq_comm (a := a), eq_comm (a := b)]
  exact extract_eq_append_iff w lo a b

theorem ofBool_bit (w : DWord) (i : Nat) : BitVec.ofBool (bit w i) = fld w i 1 := by
  unfold bit
  generalize fld w i 1 = x
  revert x
  decide
/-- A word is the full word of its fields. -/
theorem encFull_eq {op : BitVec 10} {md : BitVec 4} {g : Guard} {body : BitVec 44} {w : DWord} (hk : fld w 62 2 = 0)
    (hop : fld w 52 10 = op) (hm : md = fld w 48 4) (hg : fGuard w = g) (hb : body = fld w 0 44) :
    encFull op md g body = w := by
  have e : w = fld w 0 64 := by simp [fld]
  rw [e]
  refine (append_eq_fld w 0 _ _).2 ⟨(append_eq_fld w 44 _ _).2 ⟨(append_eq_fld w 47 _ _).2
    ⟨(append_eq_fld w 48 _ _).2 ⟨(append_eq_fld w 52 _ _).2 ⟨hk.symm, hop.symm⟩, hm⟩, ?_⟩, ?_⟩, hb⟩
  · rw [← hg]; exact ofBool_bit w 47
  · rw [← hg]; rfl
/-- OP is the group above the number of the row. -/
theorem fld_op {w : DWord} {m n : Nat} (hm : (fld w 59 3).toNat = m) (hn : (fld w 52 7).toNat = n) :
    fld w 52 10 = BitVec.ofNat 3 m ++ BitVec.ofNat 7 n := by
  subst hm hn
  exact (extract_eq_append_iff (m := 3) (n := 7) w 52 _ _).2 ⟨by simp; rfl, by simp; rfl⟩

/-! The readers of the decoder: a field holds what its reader answers. -/

section
variable (w : DWord)
@[simp] theorem oD_eq_some (o : Operand) : oD w = some o ↔ o.bits = fld w 34 10 := Operand.ofBits_eq_some ..
@[simp] theorem oA_eq_some (o : Operand) : oA w = some o ↔ o.bits = fld w 24 10 := Operand.ofBits_eq_some ..
@[simp] theorem oB_eq_some (o : Operand) : oB w = some o ↔ o.bits = fld w 14 10 := Operand.ofBits_eq_some ..
@[simp] theorem oC_eq_some (o : Operand) : oC w = some o ↔ o.bits = fld w 4 10 := Operand.ofBits_eq_some ..
@[simp] theorem sD_eq_some (r : SReg) : sD w = some r ↔ sregBits r = fld w 34 10 := sregOfBits_eq_some ..
@[simp] theorem sA_eq_some (r : SReg) : sA w = some r ↔ sregBits r = fld w 24 10 := sregOfBits_eq_some ..
@[simp] theorem sB_eq_some (r : SReg) : sB w = some r ↔ sregBits r = fld w 14 10 := sregOfBits_eq_some ..
@[simp] theorem fIty_eq_some (t : ITy) : fIty w = some t ↔ t.bits = fld w 48 4 := ITy.ofBits_eq_some ..
@[simp] theorem fFty_eq_some (t : FTy) : fFty w = some t ↔ t.bits = fld w 48 4 := FTy.ofBits_eq_some ..
@[simp] theorem fRm_eq_some (m : Rm) : fRm w = some m ↔ m.bits = fld w 0 2 := Rm.ofBits_eq_some ..
@[simp] theorem fSz_eq_some (z : Sz) : fSz w = some z ↔ z.bits = fld w 48 3 := Sz.ofBits_eq_some ..
@[simp] theorem fBar_eq_some (b : Bar) : fBar w = some b ↔ barBits b = fld w 0 8 := barOfBits_eq_some ..
@[simp] theorem mod0_iff : mod0 w = true ↔ fld w 48 4 = 0#4 := decide_eq_true_iff
end



/-- The fields QUANT of MOD and BIAS of MDRN (Table 15-3), all 0 when left out. -/
def quantBits : Option MFmt → BitVec 3
  | none => 0
  | some f => 1#1 ++ f.bits
def biasBits : Option SReg → BitVec 10
  | none => 0
  | some r => sregBits r

theorem MFmt.ofBits_isSome (x : BitVec 2) : (MFmt.ofBits x).isSome = true := by
  revert x; decide

theorem encode_mdrn (clr : Bool) (quant : Option MFmt) (dst : SReg) (bias : Option SReg) (geom : SReg) (ct : BitVec 3)
    (toW act : Bool) (bar : Bar) :
    encode (.mdrn clr quant dst bias geom ct toW act bar) =
      some (encFull 0x306 (BitVec.ofBool clr ++ quantBits quant) .always
        (sregBits dst ++ biasBits bias ++ sregBits geom ++ ct ++ BitVec.ofBool toW ++ BitVec.ofBool bias.isSome
          ++ BitVec.ofBool act ++ barBits bar)) := by
  cases quant <;> cases bias <;> rfl

/-! ## The words with alternatives: SETFMT, MMA and MDRN -/

section
variable {w : DWord} {i : Instr} (hk : fld w 62 2 = 0)
include hk

theorem encode_of_setfmt (hop : fld w 52 10 = 0x02E) (h : teamWord w (mod0 w && zer w 34 10) (do
      if fld w 24 10 = 0 then return .setfmt (.imm (imm24 w))
      else if zer w 0 24 then return .setfmt (.reg (← sA w)) else none) = .ok i) :
    i.wf = true ∧ encode i = some w := by
  simp only [teamWord_eq_ok, Bool.and_eq_true, mod0_iff, Option.pure_def, Option.bind_eq_bind] at h
  obtain ⟨hg, ⟨hm, hd⟩, hi, hwf⟩ := h
  have hd : fld w 34 10 = 0#10 := of_decide_eq_true hd
  split at hi
  · next ha =>
    cases hi
    refine ⟨hwf, congrArg some (encFull_eq hk hop hm.symm hg ?_)⟩
    have ha : fld w 24 10 = 0#10 := ha
    have hda : fld w 24 20 = 0#20 := ((append_eq_fld w 24 0#10 0#10).2 ⟨hd.symm, ha.symm⟩).symm
    simp [encI, append_eq_fld, hda, imm24]
  · split at hi
    · next hz =>
      obtain ⟨r, hr, hi⟩ := Option.bind_eq_some_iff.1 hi
      cases hi
      refine ⟨hwf, congrArg some (encFull_eq hk hop hm.symm hg ?_)⟩
      have hz : fld w 0 24 = 0#24 := of_decide_eq_true hz
      simp [encI, append_eq_fld, hd, hz, (sA_eq_some ..).1 hr]
    · cases hi

theorem encode_of_mma (hop : fld w 52 10 = 0x304)
    (h : teamWord w (mod0 w && (if bit w 13 then zer w 34 10 else zer w 9 4)) (do
      return .mma (← if bit w 13 then some (.feedback (fld w 10 3) (bit w 9)) else (sD w).map .plain) (fld w 26 8)
        (fld w 17 9) (fld w 14 3) (bit w 8) (← fBar w)) = .ok i) : i.wf = true ∧ encode i = some w := by
  have e13 := ofBool_bit w 13
  simp only [teamWord_eq_ok, Bool.and_eq_true, mod0_iff, Option.pure_def, Option.bind_eq_bind] at h
  obtain ⟨hg, ⟨hm, hz⟩, hi, hwf⟩ := h
  cases hb : bit w 13
  all_goals
    simp only [hb, if_true, if_false, Bool.false_eq_true, zer_iff, Option.bind_eq_some_iff, Option.map_eq_some_iff,
      Option.some.injEq, sD_eq_some, fBar_eq_some] at hi hz e13
  · obtain ⟨_, ⟨r, hr, rfl⟩, b, hb, rfl⟩ := hi
    refine ⟨hwf, congrArg some (encFull_eq hk hop hm.symm hg ?_)⟩
    have hz : fld w 9 5 = 0#5 :=
      (append_eq_fld w 9 0#1 0#4).2 ⟨e13, (hz 9 4 (by decide) (by decide)).symm⟩ |>.symm
    simp [append_eq_fld, hr, hb, hz, ofBool_bit]
  · obtain ⟨_, rfl, b, hb, rfl⟩ := hi
    refine ⟨hwf, congrArg some (encFull_eq hk hop hm.symm hg ?_)⟩
    have hz : fld w 34 10 = 0#10 := hz 34 10 (by decide) (by decide)
    have e13 : 1#1 = fld w 13 1 := e13
    simp [append_eq_fld, hb, hz, ofBool_bit, e13]

theorem encode_of_mdrn (hop : fld w 52 10 = 0x306)
    (h : teamWord w ((bit w 50 || zer w 48 2) && (bit w 9 || zer w 24 10)) (do
      return .mdrn (bit w 51) (if bit w 50 then MFmt.ofBits (fld w 48 2) else none) (← sD w)
        (← if bit w 9 then (sA w).map some else some none) (← sB w) (fld w 11 3) (bit w 10) (bit w 8)
        (← fBar w)) = .ok i) :
    i.wf = true ∧ encode i = some w := by
  simp only [teamWord_eq_ok, Bool.and_eq_true, Bool.or_eq_true, Option.pure_def, Option.bind_eq_bind,
    Option.bind_eq_some_iff, sD_eq_some] at h
  obtain ⟨hg, ⟨hq, hz⟩, ⟨dst, hdst, hi⟩, hwf⟩ := h
  have hquant : quantBits (if bit w 50 then MFmt.ofBits (fld w 48 2) else none) = fld w 48 3 := by
    have e50 := ofBool_bit w 50
    cases h50 : bit w 50 with
    | false =>
      simp only [h50, Bool.false_eq_true, false_or] at hq e50
      exact (append_eq_fld w 48 0#1 0#2).2 ⟨e50, (of_decide_eq_true hq).symm⟩
    | true =>
      obtain ⟨f, hf⟩ := Option.isSome_iff_exists.1 (MFmt.ofBits_isSome (fld w 48 2))
      rw [h50] at e50
      simp only [if_true, hf]
      exact (append_eq_fld w 48 1#1 f.bits).2 ⟨e50, (MFmt.ofBits_eq_some ..).1 hf⟩
  have word : ∀ {bias : Option SReg} {geom : SReg} {bar : Bar}, biasBits bias = fld w 24 10 →
      bias.isSome = bit w 9 → sregBits geom = fld w 14 10 → barBits bar = fld w 0 8 →
      encode (.mdrn (bit w 51) (if bit w 50 then MFmt.ofBits (fld w 48 2) else none) dst bias geom (fld w 11 3)
        (bit w 10) (bit w 8) bar) = some w := by
    intro bias geom bar hbias hsome hgeom hbar
    rw [encode_mdrn, hsome]
    refine congrArg some
      (encFull_eq hk hop ((append_eq_fld w 48 _ _).2 ⟨ofBool_bit w 51, hquant⟩) hg ?_)
    simp only [append_eq_fld, ofBool_bit, Nat.reduceAdd, hdst, hbias, hgeom, hbar, and_self]
  split at hi
  all_goals
    rename_i h9
    simp only [Option.bind_eq_some_iff, Option.map_eq_some_iff, Option.some.injEq, sA_eq_some, sB_eq_some,
      fBar_eq_some] at hi
  · obtain ⟨_, ⟨r, hr, rfl⟩, geom, hgeom, bar, hbar, rfl⟩ := hi
    exact ⟨hwf, word hr h9.symm hgeom hbar⟩
  · obtain ⟨_, rfl, geom, hgeom, bar, hbar, rfl⟩ := hi
    exact ⟨hwf, word (of_decide_eq_true (hz.resolve_left h9)).symm (Bool.eq_false_iff.2 h9).symm hgeom hbar⟩
end

/-- The last of the eight groups is what is left by the others. -/
theorem last_group {x : BitVec 3} (h0 : x.toNat ≠ 0) (h1 : x.toNat ≠ 1) (h2 : x.toNat ≠ 2) (h3 : x.toNat ≠ 3)
    (h4 : x.toNat ≠ 4) (h5 : x.toNat ≠ 5) (h6 : x.toNat ≠ 6) : x.toNat = 7 := by
  have := x.isLt
  generalize x.toNat = k at *
  omega

/-! ## From a word to its instruction

In each row of the decoder the parse gives the fields of the word one by one; the encoder writes the same fields. -/

/-- Groups 0 and 1: scalar and vector integer words. -/
theorem encode_of_decodeFull_of_group_lt_two {w : DWord} {i : Instr} (hk : fld w 62 2 = 0)
    (hlow : (fld w 59 3).toNat < 2) (h : decodeFull w = .ok i) : i.wf = true ∧ encode i = some w := by
  unfold decodeFull at h
  split at h
  case h_8 h0 h1 h2 h3 h4 h5 h6 =>
    rw [last_group h0 h1 h2 h3 h4 h5 h6] at hlow
    exact absurd hlow (by decide)
  case h_3 hgr | h_4 hgr | h_5 hgr | h_6 hgr | h_7 hgr => exact absurd (hgr ▸ hlow) (by decide)
  all_goals
    rename_i hgr
    simp only [decode0, decode1] at h
    split at h
  all_goals try cases h
  all_goals
    rename_i hop
    replace hop := fld_op hgr hop
  all_goals try exact encode_of_setfmt hk hop h
  all_goals
    simp only [teamWord_eq_ok, laneWord_eq_ok, Bool.and_eq_true, zer_iff, Option.bind_eq_bind,
      Option.bind_eq_some_iff, Option.pure_def, Option.some.injEq, mod0_iff, fIty_eq_some, sD_eq_some, sA_eq_some,
      oA_eq_some, oB_eq_some, oC_eq_some, oD_eq_some, Cc.ofBits_eq_some, QryItem.ofBits_eq_some] at h
    obtain ⟨hg, hz, hi, hwf⟩ := h
    revert hi
    try simp only [exists_imp, and_imp]
    intros
    subst i
    refine ⟨hwf, congrArg some (encFull_eq hk hop ?_ ?_ ?_)⟩
  all_goals simp only [encA, encI, auxBit, ↓append_eq_fld, *, ofBool_bit, imm24, Nat.reduceAdd, Nat.zero_add,
    Nat.reduceLeDiff, BitVec.ofNat_eq_ofNat, le_refl, Nat.zero_le, and_self]

/-- Groups 2 to 7: floats, conversions, memory, atomics, matrix and synchronisation. -/
theorem encode_of_decodeFull_of_two_le_group {w : DWord} {i : Instr} (hk : fld w 62 2 = 0)
    (hhigh : 2 ≤ (fld w 59 3).toNat) (h : decodeFull w = .ok i) : i.wf = true ∧ encode i = some w := by
  unfold decodeFull at h
  split at h
  case h_1 hgr | h_2 hgr => exact absurd (hgr ▸ hhigh) (by decide)
  case' h_8 h0 h1 h2 h3 h4 h5 h6 => have hgr := last_group h0 h1 h2 h3 h4 h5 h6
  all_goals
    rename_i hgr
    simp only [decode2, decode3, decode4, decode5, decode6, decode7] at h
    split at h
  all_goals try cases h
  all_goals
    rename_i hop
    replace hop := fld_op hgr hop
  all_goals try first | exact encode_of_mma hk hop h | exact encode_of_mdrn hk hop h
  all_goals
    simp only [teamWord_eq_ok, laneWord_eq_ok, Bool.and_eq_true, zer_iff, Option.bind_eq_bind,
      Option.bind_eq_some_iff, Option.pure_def, Option.some.injEq, mod0_iff, fIty_eq_some, fFty_eq_some, fRm_eq_some,
      fSz_eq_some, fBar_eq_some, fMod, sD_eq_some, sA_eq_some, sB_eq_some, oA_eq_some, oB_eq_some, oC_eq_some,
      oD_eq_some, Fcc.ofBits_eq_some, ATy.ofBits_eq_some, AOp.ofBits_eq_some, Scope.ofBits_eq_some,
      Ord.ofBits_eq_some, CTy.ofBits_eq_some, ROp.ofBits_eq_some, RTy.ofBits_eq_some, ShMode.ofBits_eq_some,
      Space.ofBits_eq_some, MiterForm.ofBits_eq_some, Eng.ofBits_eq_some, COpn.ofBits_eq_some, TlMode.ofBits_eq_some,
      Rm.ofBits_eq_some, sregOfBits_eq_some, optSregOfBits_eq_some, optOperandOfBits_eq_some, decide_eq_true_eq] at h
    obtain ⟨hg, hz, hi, hwf⟩ := h
    revert hi
    try simp only [exists_imp, and_imp]
    intros
    subst i
    refine ⟨hwf, congrArg some (encFull_eq hk hop ?_ ?_ ?_)⟩
  all_goals simp only [encA, encI, encAtom, encCopy, encRed, encSz, auxRm, BitVec.ofBool_false, ↓append_eq_fld, *,
    ofBool_bit, imm24, Nat.reduceAdd, Nat.zero_add, Nat.reduceLeDiff, BitVec.ofNat_eq_ofNat, le_refl, Nat.zero_le,
    and_self]

/-! ## From an instruction to its word

Each reader of the row finds in the encoded word the field that the encoder wrote. -/

theorem ofBool_eq_one (b : Bool) : decide (BitVec.ofBool b = 1#1) = b := by cases b <;> decide

/-- The destination of ATOM and RATOM, a vector register or none, reads back. -/
theorem optOperandOfBits_bits {d : Option Operand} (h : ∀ o, d = some o → o.isVec = true) :
    optOperandOfBits (optOperandBits d) = some d :=
  (optOperandOfBits_eq_some ..).2 ⟨rfl, fun e => absurd (h _ e) (by decide)⟩

theorem atomDst_isVec {g : Guard} {t : ATy} {op : AOp} {ord : Ord} {scope : Scope} {d : Option Operand}
    {base b : Operand} (h : (Instr.atom g t op ord scope d base b).wf = true) :
    ∀ o, d = some o → o.isVec = true := by
  rintro o rfl
  have hv : o.vecOp t.regs = true := ((Bool.and_eq_true ..).mp h).2
  exact ((Bool.and_eq_true ..).mp hv).1

/-! ### The words with alternatives read back -/

theorem decodeFull_setfmt (src : FmtSrc) {w : DWord} (h : encode (.setfmt src) = some w) :
    decodeFull w = .ok (.setfmt src) := by
  cases src
  all_goals
    cases h
    unfold decodeFull
    rw [fld_encFull_group]
    unfold decode0
    rw [fld_encFull_op]
    refine teamWord_eq_ok.2 ⟨fGuard_encFull .., ?_, ?_, rfl⟩
  · simp [mod0, zer, encI, fld_encFull_body, fld_encFull_mod]
  · simp [encI, fld_encFull_body, imm24]
  · simp [mod0, zer, encI, fld_encFull_body, fld_encFull_mod]
  · next r =>
    have hr : sregBits r ≠ 0#10 := fun e => by
      have := congrArg (BitVec.extractLsb' 6 4) e
      simp [sregBits] at this
    simp [encI, fld_encFull_body, zer, sA, hr]

theorem decodeFull_mma (src : MmaSrc) (row0 : BitVec 8) (rows : BitVec 9) (ct : BitVec 3) (acc : Bool) (bar : Bar)
    {w : DWord} (h : encode (.mma src row0 rows ct acc bar) = some w) :
    decodeFull w = .ok (.mma src row0 rows ct acc bar) := by
  cases src
  all_goals
    cases h
    unfold decodeFull
    rw [fld_encFull_group]
    unfold decode6
    rw [fld_encFull_op]
    refine teamWord_eq_ok.2 ⟨fGuard_encFull .., ?_, ?_, rfl⟩
    · simp [mod0, zer, bit, fld_encFull_body, fld_encFull_mod]
    · simp [bit, fld_encFull_body, ofBool_eq_one, sD, fBar]

theorem decodeFull_mdrn (clr : Bool) (quant : Option MFmt) (dst : SReg) (bias : Option SReg) (geom : SReg)
    (ct : BitVec 3) (toW act : Bool) (bar : Bar) {w : DWord}
    (h : encode (.mdrn clr quant dst bias geom ct toW act bar) = some w) :
    decodeFull w = .ok (.mdrn clr quant dst bias geom ct toW act bar) := by
  rw [encode_mdrn] at h
  cases h
  unfold decodeFull
  rw [fld_encFull_group]
  unfold decode6
  rw [fld_encFull_op]
  refine teamWord_eq_ok.2 ⟨fGuard_encFull .., ?_, ?_, rfl⟩
  · cases quant <;> cases bias <;>
      simp [zer, bit, fld_encFull_body, fld_encFull_mod, quantBits, biasBits]
  · cases quant <;> cases bias <;>
      simp [bit, fld_encFull_body, fld_encFull_mod, quantBits, biasBits, ofBool_eq_one, sD, sA, sB, fBar]

theorem not_full_of_pair (h0 h1 : Half) : fld (1#2 ++ encHalf h0 ++ encHalf h1) 62 2 ≠ 0 := by
  simp [fld]

/-! ### The other full words -/

/-- Groups 0 and 1. A word of team scope has no guard; the guard of one of lane scope is well formed with it. -/
theorem decodeFull_of_encode_of_group_lt_two {w : DWord} {i : Instr} (hk : fld w 62 2 = 0)
    (hgr : (fld w 59 3).toNat < 2) (hwf : i.wf = true) (h : encode i = some w) : decodeFull w = .ok i := by
  cases i
  case setfmt src => exact decodeFull_setfmt src h
  case pairWord => cases h; exact absurd hk (not_full_of_pair _ _)
  case' mma src _ _ _ _ _ => cases src
  all_goals cases h
  all_goals try exact absurd hgr (by rw [fld_encFull_group]; decide)
  all_goals
    unfold decodeFull
    rw [fld_encFull_group]
    unfold decode0 decode1
    rw [fld_encFull_op]
    first
    | refine teamWord_eq_ok.2 ⟨fGuard_encFull .., ?_, ?_, hwf⟩
    | refine laneWord_eq_ok.2 ⟨?_, ?_, ?_, hwf⟩
      unfold Instr.wf at hwf
      simp only [vec2, vecImm, vec1, Bool.and_eq_true] at hwf
      simp only [fGuard_encFull, hwf]
  all_goals simp only [mod0, zer, bit, imm24, encI, encA, auxBit, fMod_encFull, fGuard_encFull, fld_encFull_body,
    fld_encFull_mod, extract_lower, extract_upper, extract_span_eq_zero, ofBool_eq_one, BitVec.extractLsb'_eq_self,
    BitVec.extractLsb'_zero, BitVec.reduceAppend, Nat.reduceAdd, Nat.reduceLeDiff, Nat.reduceSub, Nat.reduceLT,
    Nat.ofNat_pos, BitVec.ofNat_eq_ofNat, decide_true, and_self, Bool.and_self, fIty, sD, sA, oA, oB, oC, oD,
    sregOfBits_bits, Operand.ofBits_bits, ITy.ofBits_bits, Cc.ofBits_bits, QryItem.ofBits_bits, Option.bind_eq_bind,
    Option.pure_def, Option.bind_some]
/-- Groups 2 to 7. -/
theorem decodeFull_of_encode_of_two_le_group {w : DWord} {i : Instr} (hk : fld w 62 2 = 0)
    (hgr : 2 ≤ (fld w 59 3).toNat) (hwf : i.wf = true) (h : encode i = some w) : decodeFull w = .ok i := by
  cases i
  case mma => exact decodeFull_mma _ _ _ _ _ _ h
  case mdrn => exact decodeFull_mdrn _ _ _ _ _ _ _ _ _ h
  case pairWord => cases h; exact absurd hk (not_full_of_pair _ _)
  case' setfmt src => cases src
  case' atom | ratom => have hd := optOperandOfBits_bits (atomDst_isVec hwf)
  all_goals cases h
  all_goals try exact absurd hgr (by rw [fld_encFull_group]; decide)
  all_goals
    unfold decodeFull
    rw [fld_encFull_group]
    unfold decode2 decode3 decode4 decode5 decode6 decode7
    rw [fld_encFull_op]
    first
    | refine teamWord_eq_ok.2 ⟨fGuard_encFull .., ?_, ?_, hwf⟩
    | refine laneWord_eq_ok.2 ⟨?_, ?_, ?_, hwf⟩
      unfold Instr.wf at hwf
      simp only [flt2, fltImm, flt1, atomOk, redOk, Bool.and_eq_true] at hwf
      simp only [fGuard_encFull, hwf]
  all_goals simp only [mod0, zer, bit, imm24, encI, encA, encAtom, encCopy, encRed, encSz, auxRm, fMod_encFull,
    fGuard_encFull, fld_encFull_body, fld_encFull_mod, extract_lower, extract_upper, extract_span_eq_zero,
    ofBool_eq_one, BitVec.extractLsb'_eq_self, BitVec.extractLsb'_zero, BitVec.reduceAppend, Nat.reduceAdd,
    Nat.reduceLeDiff, Nat.reduceSub, Nat.reduceLT, Nat.ofNat_pos, BitVec.ofNat_eq_ofNat, BitVec.reduceExtractLsb',
    decide_true, and_self, Bool.and_self, fIty, sD, sA, oA, oB, oC, oD, sregOfBits_bits, Operand.ofBits_bits,
    ITy.ofBits_bits, FTy.ofBits_bits, Sz.ofBits_bits, Fcc.ofBits_bits, ATy.ofBits_bits, AOp.ofBits_bits,
    Scope.ofBits_bits, Ord.ofBits_bits, CTy.ofBits_bits, ROp.ofBits_bits, RTy.ofBits_bits, ShMode.ofBits_bits,
    Space.ofBits_bits, MiterForm.ofBits_bits, Eng.ofBits_bits, COpn.ofBits_bits, TlMode.ofBits_bits, Rm.ofBits_bits,
    fFty, fRm, fSz, fBar, barOfBits_bits, optSregOfBits_bits, BitVec.ofBool_false, sB, *, Option.bind_eq_bind,
    Option.pure_def, Option.bind_some]

/-! ### Pair words (R82 to R85) -/

theorem decodeHalf_eq_some (x : BitVec 31) (h : Half) : decodeHalf x = some h ↔ encHalf h = x := by
  have e : x = x.extractLsb' 0 31 := BitVec.extractLsb'_eq_self.symm
  have hb : ∀ c : BitVec 1, BitVec.ofBool (decide (c = 1)) = c := by decide
  constructor
  · intro hx
    unfold decodeHalf at hx
    split at hx
    · next hz =>
      simp only [Option.bind_eq_bind, Option.bind_eq_some_iff, Option.pure_def, Option.some.injEq,
        Pop.ofBits_eq_some, HPred.ofBits_eq_some] at hx
      obtain ⟨p, hp, g, hg, rfl⟩ := hx
      refine Eq.symm (e.trans ?_)
      refine (extract_eq_append_iff (m := 26) (n := 5) x 0 _ _).2 ⟨?_, hz⟩
      refine (extract_eq_append_iff (m := 18) (n := 8) x 5 _ _).2 ⟨?_, rfl⟩
      refine (extract_eq_append_iff (m := 10) (n := 8) x 13 _ _).2 ⟨?_, rfl⟩
      refine (extract_eq_append_iff (m := 9) (n := 1) x 21 _ _).2 ⟨?_, (hb _).symm⟩
      exact (extract_eq_append_iff (m := 7) (n := 2) x 22 _ _).2 ⟨hp.symm, hg.symm⟩
    · cases hx
  · rintro rfl
    simp [decodeHalf, encHalf, ofBool_eq_one]

theorem decodePair_eq_ok {w : DWord} {i : Instr} :
    decodePair w = .ok i ↔
      i.wf = true ∧ ∃ h0 h1, i = .pairWord h0 h1 ∧ encHalf h0 = fld w 31 31 ∧ encHalf h1 = fld w 0 31 := by
  unfold decodePair
  constructor
  · intro h
    split at h
    · next h0 h1 e0 e1 =>
      split at h
      · next hwf =>
        cases h
        exact ⟨hwf, h0, h1, rfl, (decodeHalf_eq_some ..).1 e0, (decodeHalf_eq_some ..).1 e1⟩
      · cases h
    · cases h
  · rintro ⟨hwf, h0, h1, rfl, e0, e1⟩
    rw [(decodeHalf_eq_some ..).2 e0, (decodeHalf_eq_some ..).2 e1]
    exact if_pos hwf

/-! ### A word and its encoding (R70, R87) -/

theorem encode_kind {w : DWord} {i : Instr} (h : encode i = some w) :
    fld w 62 2 = 0 ∨ ∃ h0 h1, i = .pairWord h0 h1 ∧ w = 1#2 ++ encHalf h0 ++ encHalf h1 := by
  cases i
  case pairWord h0 h1 => cases h; exact .inr ⟨h0, h1, rfl, rfl⟩
  case' setfmt src => cases src
  case' mma src _ _ _ _ _ => cases src
  all_goals cases h
  all_goals exact .inl (fld_encFull_kind ..)

/-- A word decodes to an instruction exactly when the instruction is well formed and the word is its encoding. -/
theorem decode_eq_ok_iff (w : DWord) (i : Instr) : decode w = .ok i ↔ i.wf = true ∧ encode i = some w := by
  constructor
  · intro h
    unfold decode at h
    split at h
    · next hk =>
      have hk : fld w 62 2 = 0 := BitVec.eq_of_toNat_eq hk
      rcases lt_or_ge (fld w 59 3).toNat 2 with hg | hg
      · exact encode_of_decodeFull_of_group_lt_two hk hg h
      · exact encode_of_decodeFull_of_two_le_group hk hg h
    · next hk =>
      have hk : fld w 62 2 = 1#2 := BitVec.eq_of_toNat_eq hk
      obtain ⟨hwf, h0, h1, rfl, e0, e1⟩ := decodePair_eq_ok.1 h
      refine ⟨hwf, congrArg some ?_⟩
      have e : w = fld w 0 64 := by simp [fld]
      rw [e]
      exact (append_eq_fld w 0 _ _).2 ⟨(append_eq_fld w 31 _ _).2 ⟨hk.symm, e0⟩, e1⟩
    · cases h
  · rintro ⟨hwf, h⟩
    unfold decode
    rcases encode_kind h with hk | ⟨h0, h1, rfl, rfl⟩
    · rw [hk]
      rcases lt_or_ge (fld w 59 3).toNat 2 with hg | hg
      · exact decodeFull_of_encode_of_group_lt_two hk hg hwf h
      · exact decodeFull_of_encode_of_two_le_group hk hg hwf h
    · rw [show fld (1#2 ++ encHalf h0 ++ encHalf h1) 62 2 = 1#2 by simp [fld]]
      exact decodePair_eq_ok.2 ⟨hwf, h0, h1, rfl, by simp [fld], by simp [fld]⟩

/-! ### The bytes of a word (R4) -/

@[simp] theorem length_leBytes (n x : Nat) : (leBytes n x).length = n := by
  induction n generalizing x with
  | zero => rfl
  | succ n ih => simp [leBytes, ih]

theorem leNat_leBytes (n x : Nat) : leNat (leBytes n x) = x % 256 ^ n := by
  induction n generalizing x with
  | zero => simp [leBytes, leNat, Nat.mod_one]
  | succ n ih =>
    rw [leBytes, leNat, ih, BitVec.toNat_ofNat, show 256 ^ (n + 1) = 256 * 256 ^ n from Nat.pow_succ']
    exact Nat.mod_mul.symm

/-- The decoder reads the bytes of a word and leaves what follows. -/
theorem decodeBytes_append {w : DWord} {i : Instr} (rest : List Byte) (h : decode w = .ok i) :
    decodeBytes (leBytes 8 w.toNat ++ rest) = .ok (i, rest) := by
  have hw : BitVec.ofNat 64 (leNat (leBytes 8 w.toNat)) = w := by
    rw [leNat_leBytes, Nat.mod_eq_of_lt (lt_of_lt_of_eq w.isLt (by norm_num)), BitVec.ofNat_toNat, BitVec.setWidth_eq]
  simp [decodeBytes, hw, h, Except.map]

end Sys2Proof

/-- Settles O58: a word decodes to an instruction exactly when it is the encoding of that well-formed instruction. -/
theorem decodeEncode : Obligations.DecodeEncode := by
  refine ⟨fun i bs rest hwf h => ?_, fun w i h => (Sys2Proof.decode_eq_ok_iff w i).1 h⟩
  obtain ⟨w, hw, rfl⟩ := Option.map_eq_some_iff.1 h
  exact Sys2Proof.decodeBytes_append rest ((Sys2Proof.decode_eq_ok_iff w i).2 ⟨hwf, hw⟩)
end


-- ==== Proofs/Stores.lean ====
section
/-! PROOFS. A store of L-space in flight whose crew has exited: when it is performed, the clean-up of the crew's core
(R322) writes the dirty lines of its L1 to memory, so that bytes of memory change that no lane of the store writes. -/

namespace Sys2Proof.Machine

/-- The last store of a crew that has exited: four bytes of its L-space. -/
def exitedStore : Op where
  team := 1
  crew := 2
  kernel := 3
  tenant := 0
  isl := 0
  core := 0
  ctr := .st
  kind := .store .lspace 4
  accs := [{ lane := 0, addr := 0, data := 7 }]

/-- The crew has exited and waits for that store; its core's L1 holds byte 0 of memory dirty, in a line that only
it has. -/
def exitedDirty : State :=
  { State.reset with
    ops := [(0, exitedStore)]
    teams := [(1, { crew := 2, index := 0, lanes := 1, vregs := 8, cnt := { st := 1 } })]
    crews := [(2, { kernel := 3, idx := 0, isl := 0, core := 0, exited := true })]
    cores := [(0, { l1 := [(0, [{ line := 0, kind := .priv, sectors := 1, dirty := [(0, 5)] }])] })] }

theorem exitedDirty_ready : opReady exitedDirty 0 exitedStore = true := by decide

/-- Performing the store leaves the dirty byte in memory, which read 0 before. -/
theorem exitedDirty_performed :
    ((complete exitedDirty 0 .st).map fun s => memGet s.mem 0) = some 5 ∧ memGet exitedDirty.mem 0 = 0 := by decide

end Sys2Proof.Machine

open Sys2Proof Sys2Proof.Machine in
/-- Refutes O27: performing an L-space store of an exited crew also writes back the crew's dirty lines (R322), so global
memory does not read as before. -/
theorem not_storesPerform : ¬ Obligations.StoresPerform := by
  intro h
  obtain ⟨hTyped, -⟩ := h exitedDirty 0 4 exitedStore _ _ rfl rfl exitedDirty_ready rfl rfl
  obtain ⟨s', t', c', hexec, -, hsame, -⟩ := hTyped .lspace rfl (.inl rfl)
  obtain ⟨hafter, hbefore⟩ := exitedDirty_performed
  obtain ⟨s₁, hs₁, h5⟩ := Option.map_eq_some_iff.1 hafter
  have hs' : s' = s₁ := by
    have hnext : exec (.storePerformed 0) exitedDirty = .next s₁ := by
      show happen exitedDirty (complete exitedDirty 0 .st) = .next s₁
      rw [hs₁, happen, Option.getD_some]
    exact (Host.Outcome.next.inj (hnext.symm.trans hexec)).symm
  have h0 := (hsame 0).1
  rw [hs', h5, hbefore] at h0
  exact absurd h0 (by decide)
end


-- ==== Proofs/Coherence.lean ====
section
/-! PROOFS. Machines whose L1s hold coherent lines only and whose teams have no open transaction: an access of coherent
memory there moves lines in and out of the caches and changes nothing else before it is performed (R200, R203, R208,
R327). -/

namespace Sys2Proof.Machine

/-- Every L1 line of every core is a coherent one, which holds no bytes of its own. -/
def State.coherentOnly (s : State) : Prop :=
  ∀ k i, ∀ l ∈ SMap.get [] (s.core k).l1 i, l.kind = .coherent

/-- No team has an open transaction. -/
def State.noTx (s : State) : Prop := ∀ ut ∈ s.teams, ut.2.tx = none

/-- Nothing differs but the islands' caches, the L1s and the page counts of the PCP. -/
def SameButCaches (s s' : State) : Prop := { s' with isls := s.isls, cores := s.cores, pcp := s.pcp } = s

/-- `s'` is `s` after coherent lines have moved in its caches. -/
def Fetched (s s' : State) : Prop := SameButCaches s s' ∧ s'.coherentOnly

theorem Quiet.coherentOnly {s : State} (h : Quiet s) : s.coherentOnly := by
  intro k i l hl
  rw [h.1 k] at hl
  exact absurd hl List.not_mem_nil

/-! ## What stays the same -/

namespace SameButCaches

variable {s s' s'' : State}

theorem refl (s : State) : SameButCaches s s := rfl

theorem trans (h : SameButCaches s s') (h' : SameButCaches s' s'') : SameButCaches s s'' := by
  have e := congrArg (fun r : State => { r with isls := s.isls, cores := s.cores, pcp := s.pcp }) h'
  exact e.trans h

theorem mem (h : SameButCaches s s') : s'.mem = s.mem := by
  have e := congrArg State.mem h
  exact e
theorem hostMem (h : SameButCaches s s') : s'.hostMem = s.hostMem := by
  have e := congrArg State.hostMem h
  exact e
theorem teams (h : SameButCaches s s') : s'.teams = s.teams := by
  have e := congrArg State.teams h
  exact e
theorem ops (h : SameButCaches s s') : s'.ops = s.ops := by
  have e := congrArg State.ops h
  exact e
theorem crews (h : SameButCaches s s') : s'.crews = s.crews := by
  have e := congrArg State.crews h
  exact e

theorem noTx (h : SameButCaches s s') (hn : s.noTx) : s'.noTx := by rw [State.noTx, h.teams]; exact hn

/-- A fold of operations that change only caches changes only caches. -/
theorem foldl {α : Type} {f : State → α → State} (hf : ∀ s x, SameButCaches s (f s x)) (xs : List α) (s : State) :
    SameButCaches s (xs.foldl f s) := by
  induction xs generalizing s with
  | nil => exact refl s
  | cons x xs ih => exact (hf s x).trans (ih (f s x))

end SameButCaches

theorem touch_sameButCaches (s : State) (pa : Nat) (from_ : Option Nat) : SameButCaches s (touch s pa from_) := rfl

theorem touch_coherentOnly {s : State} (pa : Nat) (from_ : Option Nat) (h : s.coherentOnly) :
    (touch s pa from_).coherentOnly := h

namespace Fetched

variable {s s' s'' : State}

theorem refl (h : s.coherentOnly) : Fetched s s := ⟨rfl, h⟩

theorem trans (h : Fetched s s') (h' : Fetched s' s'') : Fetched s s'' := ⟨h.1.trans h'.1, h'.2⟩

theorem noTx (h : Fetched s s') (hn : s.noTx) : s'.noTx := h.1.noTx hn

/-- A fold of operations each of which only moves coherent lines. -/
theorem foldl {α : Type} {f : State → α → State} (hf : ∀ s x, s.coherentOnly → s.noTx → Fetched s (f s x))
    (xs : List α) (hc : s.coherentOnly) (hn : s.noTx) : Fetched s (xs.foldl f s) := by
  induction xs generalizing s with
  | nil => exact refl hc
  | cons x xs ih =>
    have hx := hf s x hc hn
    exact hx.trans (ih hx.2 (hx.noTx hn))

end Fetched

/-! ## Lines of an L1 -/

theorem mem_l1Drop {c : Core} {line i : Nat} {l : L1Line} (h : l ∈ SMap.get [] (c.l1Drop line).l1 i) :
    l ∈ SMap.get [] c.l1 i := by
  unfold Core.l1Drop at h
  rw [SMap.get_set] at h
  split at h
  · next e => subst e; exact (List.mem_filter.1 h).1
  · exact h

theorem mem_l1Put {c : Core} {new l : L1Line} {strm : Bool} {i : Nat} (h : l ∈ SMap.get [] (c.l1Put new strm).l1 i) :
    l = new ∨ l ∈ SMap.get [] c.l1 i := by
  unfold Core.l1Put at h
  rw [SMap.get_set] at h
  split at h
  · next e =>
    subst e
    split at h
    · rcases List.mem_append.1 h with h | h
      · exact .inr (List.mem_filter.1 h).1
      · exact .inl (List.mem_singleton.1 h)
    · rcases List.mem_cons.1 h with h | h
      · exact .inl h
      · exact .inr (List.mem_filter.1 h).1
  · exact .inr h

theorem mem_of_l1Find {c : Core} {line : Nat} {l : L1Line} (h : c.l1Find line = some l) :
    l ∈ SMap.get [] c.l1 (l1Set line) := List.mem_of_find?_eq_some h

/-- A core whose lines are all old ones or coherent ones may take the place of another. -/
theorem updCore_fetched {s : State} {k : Nat} {f : Core → Core} (hc : s.coherentOnly)
    (hf : ∀ i, ∀ l ∈ SMap.get [] (f (s.core k)).l1 i, l.kind = .coherent) : Fetched s (s.updCore k f) := by
  refine ⟨rfl, fun j i l hl => ?_⟩
  by_cases e : j = k
  · subst e
    rw [State.updCore_same] at hl
    exact hf i l hl
  · rw [State.updCore_other _ _ e] at hl
    exact hc j i l hl

theorem drop_fetched {s : State} (k line : Nat) (hc : s.coherentOnly) :
    Fetched s (s.updCore k fun c => c.l1Drop line) :=
  updCore_fetched hc fun i l hl => hc k i l (mem_l1Drop hl)

/-- A coherent line has nothing to write back when it leaves. -/
theorem evict_coherent {s : State} {l : L1Line} (h : l.kind = .coherent) : evict s l = s := by
  unfold evict
  rw [h]

theorem l1Room_fetched {s : State} (key line : Nat) (kind : L1Kind) (hc : s.coherentOnly) :
    Fetched s (l1Room s key line kind) := by
  have hout : ∀ old : L1Line, old.kind = .coherent →
      Fetched s (evict (s.updCore key fun c => c.l1Drop old.line) old) := fun old h => by
    rw [evict_coherent h]
    exact drop_fetched key old.line hc
  unfold l1Room
  dsimp only
  split
  · next old hold =>
    refine hout old ?_
    split at hold
    · next l hl =>
      split at hold
      · cases hold
      · cases hold; exact hc key _ _ (mem_of_l1Find hl)
    · split at hold
      · cases hold
      · exact hc key _ _ (List.mem_of_getLast? hold)
  · exact .refl hc

theorem l1Enter_fetched {s : State} (key : Nat) {l : L1Line} (strm : Bool) (hl : l.kind = .coherent)
    (hc : s.coherentOnly) : Fetched s (l1Enter s key l strm) := by
  have hr := l1Room_fetched key l.line l.kind hc
  refine hr.trans (updCore_fetched hr.2 fun i x hx => ?_)
  rcases mem_l1Put hx with rfl | hx
  · exact hl
  · exact hr.2 key i x hx

/-! ## Lines of a home -/

/-- With coherent lines only, there is no update-only copy to recall (R208). -/
theorem recallLine_coherent {s : State} (line : Nat) (hc : s.coherentOnly) : recallLine s line = s := by
  unfold recallLine
  dsimp only
  rw [if_pos]
  rw [List.isEmpty_iff, List.filter_eq_nil_iff]
  intro k _
  split
  · next l hl => simp [L1Line.isUpdate, hc k _ l (mem_of_l1Find hl)]
  · simp

theorem invalidateOthers_fetched {s : State} (line : Nat) (keep : Option Nat) (hc : s.coherentOnly) (hn : s.noTx) :
    Fetched s (invalidateOthers s line keep) := by
  unfold invalidateOthers
  refine Fetched.foldl (fun t c ht _ => ?_) _ hc hn
  dsimp only
  split
  · exact .refl ht
  · split
    · split
      · exact drop_fetched _ _ ht
      · exact .refl ht
    · exact .refl ht

theorem l2Evict_fetched {s : State} (line : Nat) (hc : s.coherentOnly) (hn : s.noTx) :
    Fetched s (l2Evict s line) := by
  unfold l2Evict
  rw [recallLine_coherent line hc]
  exact invalidateOthers_fetched line none hc hn

theorem l2Touch_fetched {s : State} (line bits : Nat) (strm : Bool) (hc : s.coherentOnly) (hn : s.noTx) :
    Fetched s (l2Touch s line bits strm) := by
  have hput : ∀ (t : State) (i : Nat) (f : Island → Island), Fetched s t → Fetched s (t.updIsl i f) :=
    fun t _ _ h => ⟨h.1.trans rfl, h.2⟩
  unfold l2Touch
  dsimp only
  split
  · exact .refl hc
  · split
    · exact hput _ _ _ (.refl hc)
    · refine hput _ _ _ ?_
      split
      · exact .refl hc
      · exact Fetched.foldl (f := fun s (x : L2Line) => l2Evict s x.line)
          (fun _ x ht hu => l2Evict_fetched x.line ht hu) (List.drop 15 _) hc hn

/-- With no transaction open, an access conflicts with none (R327). -/
theorem conflictOn_noTx {s : State} (by_ : Option Nat) (write : Bool) (line : Nat) (hn : s.noTx) :
    conflictOn s by_ write line = s := by
  unfold conflictOn
  have hfold : ∀ (us : List (Nat × Team)) (t : State), (∀ ut ∈ us, ut.2.tx = none) →
      us.foldl (fun s ut => match ut.2.tx with
        | some x => if some ut.1 ≠ by_ && x.meets write line && !x.irrev then abortTx s ut.1 .conflict else s
        | none => s) t = t := by
    intro us t hu
    induction us with
    | nil => rfl
    | cons ut us ih =>
      rw [List.foldl_cons, hu ut List.mem_cons_self]
      exact ih fun v hv => hu v (List.mem_cons_of_mem _ hv)
  exact hfold s.teams s hn

theorem reachLine_fetched {s : State} (by_ : Option Nat) (write strm : Bool) (pa n l : Nat) (hc : s.coherentOnly)
    (hn : s.noTx) : Fetched s (reachLine s by_ write strm pa n l) := by
  unfold reachLine
  rw [recallLine_coherent l hc, conflictOn_noTx by_ write l hn]
  exact l2Touch_fetched l _ strm hc hn

end Sys2Proof.Machine
end

