-- ==== Proofs/Loads.lean ====
section
/-! PROOFS. A load performed: what lands in the registers of its team lane after lane (R111, R132), from the bytes of a
typed space and from those of a home. -/

namespace Sys2Proof.Machine

/-! ## Data that lands -/

/-- A team's registers after data has landed: pairs of a lane and its value, in order. -/
def Team.landed (t : Team) (d n : Nat) (scalar : Bool) (xs : List (Nat × Nat)) : Regs :=
  xs.foldl (fun g x =>
    if scalar then g.ssetN d (ceilDiv n 4) x.2
    else if laneIn t.flow.ended x.1 then g else g.vsetN x.1 d (ceilDiv n 4) x.2) t.regs

/-- `s'` is `s` after data has landed in team `u`, which was `t`, and after moves in the caches. -/
def Lands (s s' : State) (u : Nat) (t : Team) (d n : Nat) (scalar : Bool) (xs : List (Nat × Nat)) : Prop :=
  SameButCaches { s with teams := s'.teams } s' ∧
    s'.teams.find? u = some { t with regs := t.landed d n scalar xs }

theorem Team.landed_append (t : Team) (d n : Nat) (scalar : Bool) (xs ys : List (Nat × Nat)) :
    t.landed d n scalar (xs ++ ys) = { t with regs := t.landed d n scalar xs }.landed d n scalar ys := by
  simp [Team.landed, List.foldl_append]

namespace Lands

variable {s s' s'' : State} {u d n : Nat} {t : Team} {scalar : Bool} {xs ys : List (Nat × Nat)}

theorem of_sameButCaches (h : SameButCaches s s') (ht : s.teams.find? u = some t) : Lands s s' u t d n scalar [] := by
  have e := h.teams
  refine ⟨?_, by rw [e, ht]; rfl⟩
  rw [e]
  exact h

theorem trans (h : Lands s s' u t d n scalar xs)
    (h' : Lands s' s'' u { t with regs := t.landed d n scalar xs } d n scalar ys) :
    Lands s s'' u t d n scalar (xs ++ ys) := by
  refine ⟨?_, by rw [h'.2, Team.landed_append]⟩
  have e := congrArg (fun r : State => { r with isls := s.isls, cores := s.cores, pcp := s.pcp }) h'.1
  have e' := congrArg (fun r : State => { r with teams := s''.teams }) h.1
  exact e.trans e'

theorem mem (h : Lands s s' u t d n scalar xs) : s'.mem = s.mem := h.1.mem
theorem hostMem (h : Lands s s' u t d n scalar xs) : s'.hostMem = s.hostMem := h.1.hostMem
theorem ops (h : Lands s s' u t d n scalar xs) : s'.ops = s.ops := h.1.ops
theorem crews (h : Lands s s' u t d n scalar xs) : s'.crews = s.crews := h.1.crews

end Lands

theorem landRegs_lands {s : State} {u : Nat} {t : Team} (lane d n : Nat) (scalar : Bool) (x : Nat)
    (ht : s.teams.find? u = some t) : Lands s (landRegs s u lane d n scalar x) u t d n scalar [(lane, x)] := by
  refine ⟨rfl, ?_⟩
  rw [landRegs, State.updTeam_teams, SMap.find?_upd_same, ht]
  rfl

theorem landRegs_coherentOnly {s : State} (u lane d n : Nat) (scalar : Bool) (x : Nat) (h : s.coherentOnly) :
    (landRegs s u lane d n scalar x).coherentOnly := h

theorem upd_all {α : Type} {P : α → Prop} {f : α → α} (hf : ∀ v, P v → P (f v)) (k : Nat) {m : SMap α}
    (h : ∀ kv ∈ m, P kv.2) : ∀ kv ∈ SMap.upd m k f, P kv.2 := by
  induction m with
  | nil => exact h
  | cons kv m ih =>
    obtain ⟨a, v⟩ := kv
    simp only [List.forall_mem_cons] at h
    unfold SMap.upd
    split
    · exact List.forall_mem_cons.2 ⟨hf v h.1, h.2⟩
    · exact List.forall_mem_cons.2 ⟨h.1, ih h.2⟩

theorem landRegs_noTx {s : State} (u lane d n : Nat) (scalar : Bool) (x : Nat) (h : s.noTx) :
    (landRegs s u lane d n scalar x).noTx := by
  refine upd_all (P := fun t : Team => t.tx = none) ?_ u h
  exact fun _ ht => ht

/-- Some lanes of a load land. -/
def landAll (s : State) (u d n : Nat) (scalar : Bool) (xs : List (Nat × Nat)) : State :=
  xs.foldl (fun s x => landRegs s u x.1 d n scalar x.2) s

theorem landAll_lands {s : State} {u : Nat} {t : Team} (d n : Nat) (scalar : Bool) (xs : List (Nat × Nat))
    (ht : s.teams.find? u = some t) : Lands s (landAll s u d n scalar xs) u t d n scalar xs := by
  induction xs generalizing s t with
  | nil => exact .of_sameButCaches (.refl s) ht
  | cons x xs ih =>
    have hx := landRegs_lands x.1 d n scalar x.2 ht
    exact hx.trans (ih hx.2)

theorem landAll_coherentOnly {s : State} (u d n : Nat) (scalar : Bool) (xs : List (Nat × Nat)) (h : s.coherentOnly) :
    (landAll s u d n scalar xs).coherentOnly := by
  induction xs generalizing s with
  | nil => exact h
  | cons x xs ih => exact ih (landRegs_coherentOnly u x.1 d n scalar x.2 h)

theorem landAll_noTx {s : State} (u d n : Nat) (scalar : Bool) (xs : List (Nat × Nat)) (h : s.noTx) :
    (landAll s u d n scalar xs).noTx := by
  induction xs generalizing s with
  | nil => exact h
  | cons x xs ih => exact ih (landRegs_noTx u x.1 d n scalar x.2 h)

/-! ## Registers that data landed in -/

/-- Lanes that land write as the lanes of a word do, but for those that have ended. -/
theorem landed_lanes (t : Team) (d n : Nat) (f : Nat → Nat) {xs : List (Nat × Nat)} (hf : ∀ x ∈ xs, x.2 = f x.1) :
    t.landed d n false xs =
      writeLanes t.regs (ceilDiv n 4) d f ((xs.map Prod.fst).filter fun l => !laneIn t.flow.ended l) := by
  unfold Team.landed
  generalize t.regs = g
  induction xs generalizing g with
  | nil => rfl
  | cons x xs ih =>
    obtain ⟨hx, hxs⟩ := List.forall_mem_cons.1 hf
    rw [List.foldl_cons, ih hxs, List.map_cons, List.filter_cons, hx]
    cases laneIn t.flow.ended x.1 <;> rfl

/-- The value of lane `l` among the accesses of a load. -/
def laneValue (accs : List Access) (f : Access → Nat) (l : Nat) : Nat :=
  ((accs.find? fun a => a.lane = l).map f).getD 0

theorem laneValue_of_mem {accs : List Access} {a : Access} (f : Access → Nat) (hnd : (accs.map (·.lane)).Nodup)
    (ha : a ∈ accs) : laneValue accs f a.lane = f a := by
  unfold laneValue
  cases hfind : accs.find? fun b => b.lane = a.lane with
  | none => simpa using List.find?_eq_none.1 hfind a ha
  | some b =>
    have hb : b.lane = a.lane := by simpa using List.find?_some hfind
    rw [List.inj_on_of_nodup_map hnd (List.mem_of_find?_eq_some hfind) ha hb]
    rfl

/-- What lands of the accesses `ys` of a load, its lanes distinct and each of them among `ys`. -/
theorem landed_accs {t : Team} {d n : Nat} {accs ys : List Access} {f : Access → Nat} (hd : d + ceilDiv n 4 ≤ 256)
    (hnd : (accs.map (·.lane)).Nodup) (hys : ∀ a, a ∈ ys ↔ a ∈ accs) (hlt : ∀ a ∈ accs, f a < 256 ^ n) :
    let g := t.landed d n false (ys.map fun a => (a.lane, f a))
    SameButLanes t.regs g ((accs.map (·.lane)).filter fun l => !laneIn t.flow.ended l) d (ceilDiv n 4) ∧
      ∀ a ∈ accs, laneIn t.flow.ended a.lane = false → g.vgetN a.lane d (ceilDiv n 4) = f a := by
  intro g
  have hg : g = writeLanes t.regs (ceilDiv n 4) d (laneValue accs f)
      ((ys.map (·.lane)).filter fun l => !laneIn t.flow.ended l) := by
    have hval : ∀ x ∈ ys.map fun a => (a.lane, f a), x.2 = laneValue accs f x.1 := by
      intro x hx
      obtain ⟨a, ha, rfl⟩ := List.mem_map.1 hx
      exact (laneValue_of_mem f hnd ((hys a).1 ha)).symm
    rw [show g = _ from landed_lanes t d n _ hval, List.map_map]
    rfl
  have hmem : ∀ l, l ∈ ys.map (·.lane) ↔ l ∈ accs.map (·.lane) := fun l => by simp [hys]
  refine ⟨?_, fun a ha he => ?_⟩
  · obtain ⟨h1, h2, h3, h4, h5⟩ := writeLanes_keeps t.regs (ceilDiv n 4) d (laneValue accs f)
      ((ys.map (·.lane)).filter fun l => !laneIn t.flow.ended l)
    rw [hg]
    refine ⟨h1, h2, h3, h4, h5, fun l q hq h => ?_⟩
    rcases h with hl | hr
    · refine vget_writeLanes_lane _ _ _ _ _ _ _ hd hq fun hmem' => hl ?_
      rw [List.mem_filter] at hmem' ⊢
      exact ⟨(hmem l).1 hmem'.1, hmem'.2⟩
    · exact vget_writeLanes_reg _ _ _ _ _ _ _ hd hq hr
  · rw [hg, vgetN_writeLanes _ _ _ _ _ _ hd, laneValue_of_mem f hnd ha, Nat.mod_eq_of_lt]
    · calc f a < 256 ^ n := hlt a ha
        _ = 2 ^ (8 * n) := by rw [Nat.pow_mul]
        _ ≤ 2 ^ (32 * ceilDiv n 4) := Nat.pow_le_pow_right (by omega) (by unfold ceilDiv; omega)
    · exact List.mem_filter.2 ⟨(hmem _).2 (List.mem_map_of_mem ha), by simp [he]⟩

/-- What lands of a load of team scope. -/
theorem landed_scalar {t : Team} {d n x : Nat} (lane : Nat) (hlt : x < 256 ^ n) :
    SameButScalar t.regs (t.landed d n true [(lane, x)]) d (ceilDiv n 4) ∧
      (t.landed d n true [(lane, x)]).sgetN d (ceilDiv n 4) = x := by
  show SameButScalar t.regs (t.regs.ssetN d (ceilDiv n 4) x) d (ceilDiv n 4) ∧
    (t.regs.ssetN d (ceilDiv n 4) x).sgetN d (ceilDiv n 4) = x
  obtain ⟨h1, h2, h3, h4, h5⟩ := t.regs.ssetN_keeps d (ceilDiv n 4) x
  refine ⟨⟨h1, h2, h3, h4, h5, fun q hq => Regs.sget_ssetN_other _ _ _ _ _ hq⟩, ?_⟩
  rw [Regs.sgetN_ssetN, Nat.mod_eq_of_lt]
  calc x < 256 ^ n := hlt
    _ = 2 ^ (8 * n) := by rw [Nat.pow_mul]
    _ ≤ 2 ^ (32 * ceilDiv n 4) := Nat.pow_le_pow_right (by omega) (by unfold ceilDiv; omega)

/-- A number of `n` bytes. -/
theorem leNat_lt (bs : List Byte) : leNat bs < 256 ^ bs.length := by
  induction bs with
  | nil => simp [leNat]
  | cons b bs ih =>
    have hb := b.isLt
    rw [leNat, List.length_cons, Nat.pow_succ]
    omega

@[simp] theorem length_memBytes (m : List Host.Cell) (a n : Nat) : (memBytes m a n).length = n := by
  induction n generalizing a with
  | zero => rfl
  | succ n ih => rw [memBytes, List.length_cons, ih]

theorem rd_lt (s : State) (a n : Nat) : s.rd a n < 256 ^ n := by
  have h := leNat_lt (memBytes s.mem a n)
  rwa [length_memBytes] at h

theorem typedBytes_lt (m : SMap Byte) (a n : Nat) : leNat (typedBytes m a n) < 256 ^ n := by
  have h := leNat_lt (typedBytes m a n)
  rwa [show (typedBytes m a n).length = n by simp [typedBytes]] at h

/-! ## The load of a typed space -/

/-- One lane after another of a load of a typed space lands. -/
theorem performLoad_typed {s : State} {o : Op} {sp : Space} {c : Crew} (n d : Nat) (scalar : Bool)
    (hsp : sp = .lspace ∨ sp = .aspace) (hc : s.crews.find? o.crew = some c) :
    performLoad s o sp n d scalar =
      landAll s o.team d n scalar (o.accs.map fun a => (a.lane, leNat (typedBytes (c.typed sp) a.addr n))) := by
  have hfold : performLoad s o sp n d scalar = o.accs.foldl (fun s a =>
      match s.crews.find? o.crew with
      | some c => landRegs s o.team a.lane d n scalar (leNat (typedBytes (c.typed sp) a.addr n))
      | none => s) s := by
    rcases hsp with rfl | rfl <;> rfl
  rw [hfold]
  clear hfold
  unfold landAll
  generalize o.accs = accs
  induction accs generalizing s with
  | nil => rfl
  | cons a accs ih =>
    rw [List.foldl_cons, List.map_cons, List.foldl_cons, hc]
    exact ih hc

/-! ## The load of coherent memory -/

theorem SameButCaches.bytes {s s' : State} (h : SameButCaches s s') (a n : Nat) : s'.bytes a n = s.bytes a n := by
  rw [State.bytes, h.mem]
  rfl

/-- The accesses of one line read what its home holds. -/
theorem coreReadLine_coherent {s : State} (key : Nat) (by_ : Option Nat) (strm : Bool) (line n : Nat)
    (offs : List Nat) (hc : s.coherentOnly) (hn : s.noTx) :
    (coreReadLine s key by_ .coherent strm line n offs).1 = offs.map (fun off => s.bytes (line * 128 + off) n) ∧
      Fetched s (coreReadLine s key by_ .coherent strm line n offs).2 := by
  have hroom := l1Room_fetched key line .coherent hc
  have hreach := hroom.trans (Fetched.foldl
    (fun _ off ht hu => reachLine_fetched by_ false strm (line * 128 + off) n line ht hu) offs hroom.2 (hroom.noTx hn))
  have henter := hreach.trans (Fetched.foldl
    (fun t off ht _ => l1Enter_fetched key (l := coherentLine (t.core key) line off n) strm rfl ht) offs hreach.2
    (hreach.noTx hn))
  refine ⟨?_, henter⟩
  unfold coreReadLine
  simp only [hreach.1.bytes]

/-- The accesses of a load at one line. -/
def Op.onLine (o : Op) (line : Nat) : List Access := o.accs.filter fun a => lineOf a.addr = line

/-- Lanes and the values that coherent memory holds for them. -/
def coherentValues (s : State) (n : Nat) (as : List Access) : List (Nat × Nat) := as.map fun a => (a.lane, s.rd a.addr n)

/-- The lanes of a load at one line land the bytes of its home. -/
theorem loadLine_coherent {s : State} {o : Op} {t : Team} (n d : Nat) (scalar : Bool) (line : Nat)
    (hc : s.coherentOnly) (hn : s.noTx) (ht : s.teams.find? o.team = some t) (hattr : ∀ a ∈ o.accs, a.attr = .coherent) :
    let s' := loadLine s o n d scalar line
    Lands s s' o.team t d n scalar (coherentValues s n (o.onLine line)) ∧ s'.coherentOnly ∧ s'.noTx := by
  obtain ⟨s₁, hs₁, hrun⟩ : ∃ s₁, Fetched s s₁ ∧ loadLine s o n d scalar line =
      ((o.onLine line).zip ((o.onLine line).map fun a => s.bytes (line * 128 + a.addr % 128) n)).foldl
        (fun s ab => landRegs s o.team ab.1.lane d n scalar (leNat ab.2)) s₁ := by
    have hhead : ((o.onLine line).head?.map (·.attr)).getD .coherent = .coherent := by
      cases hl : (o.onLine line).head? with
      | none => rfl
      | some a => exact hattr a (List.mem_filter.1 (List.mem_of_head? hl)).1
    unfold loadLine
    dsimp only
    rw [show (o.accs.filter fun a => lineOf a.addr = line) = o.onLine line from rfl, hhead]
    split
    · obtain ⟨hbytes, hfetched⟩ := coreReadLine_coherent (coreKey o.isl o.core) (some o.team) o.strm line n
        ((o.onLine line).map fun a => a.addr % 128) hc hn
      refine ⟨_, hfetched, ?_⟩
      rw [hbytes, List.map_map]
      rfl
    · have hreach := Fetched.foldl
        (fun _ off ht hu => reachLine_fetched (some o.team) false o.strm (line * 128 + off) n line ht hu)
        ((o.onLine line).map fun a => a.addr % 128) hc hn
      refine ⟨_, hreach, ?_⟩
      simp only [hreach.1.bytes, List.map_map]
      rfl
  have hland : loadLine s o n d scalar line = landAll s₁ o.team d n scalar (coherentValues s n (o.onLine line)) := by
    have haddr : ∀ a ∈ o.onLine line, line * 128 + a.addr % 128 = a.addr := fun a ha => by
      have hline : lineOf a.addr = line := of_decide_eq_true (List.mem_filter.1 ha).2
      unfold lineOf at hline
      omega
    rw [hrun]
    unfold landAll coherentValues
    generalize o.onLine line = as at haddr
    clear hrun hs₁
    induction as generalizing s₁ with
    | nil => rfl
    | cons a as ih =>
      obtain ⟨ha, has⟩ := List.forall_mem_cons.1 haddr
      simp only [List.map_cons, List.zip_cons_cons, List.foldl_cons, ha]
      exact ih _ has
  have ht₁ : s₁.teams.find? o.team = some t := by rw [hs₁.1.teams, ht]
  intro s'
  rw [show s' = _ from hland]
  exact ⟨(Lands.of_sameButCaches hs₁.1 ht).trans (landAll_lands d n scalar _ ht₁),
    landAll_coherentOnly _ _ _ _ _ hs₁.2, landAll_noTx _ _ _ _ _ (hs₁.noTx hn)⟩

/-- The lanes of a load land line after line. -/
theorem performLoad_global {s : State} {o : Op} {t : Team} (n d : Nat) (scalar : Bool)
    (hc : s.coherentOnly) (hn : s.noTx) (ht : s.teams.find? o.team = some t) (hattr : ∀ a ∈ o.accs, a.attr = .coherent) :
    Lands s (performLoad s o .global n d scalar) o.team t d n scalar
      (coherentValues s n (((o.accs.map fun a => lineOf a.addr).dedup).flatMap o.onLine)) := by
  unfold performLoad
  dsimp only
  generalize (o.accs.map fun a => lineOf a.addr).dedup = lines
  induction lines generalizing s t with
  | nil => exact .of_sameButCaches (.refl s) ht
  | cons line lines ih =>
    obtain ⟨hl, hc', hn'⟩ := loadLine_coherent n d scalar line hc hn ht hattr
    have hvals : ∀ as, coherentValues (loadLine s o n d scalar line) n as = coherentValues s n as := fun as => by
      simp only [coherentValues, State.rd, hl.mem]
    have hrest := hl.trans (ih hc' hn' hl.2)
    rw [hvals, coherentValues, coherentValues, ← List.map_append] at hrest
    exact hrest

theorem mem_lines_onLine (o : Op) (a : Access) :
    a ∈ ((o.accs.map fun a => lineOf a.addr).dedup).flatMap o.onLine ↔ a ∈ o.accs := by
  simp only [List.mem_flatMap, List.mem_dedup, List.mem_map, Op.onLine, List.mem_filter, decide_eq_true_eq]
  constructor
  · rintro ⟨_, -, ha, -⟩
    exact ha
  · exact fun ha => ⟨lineOf a.addr, ⟨a, ha, rfl⟩, ha, rfl⟩

/-! ## The load leaves -/

/-- An operation that can be performed and reads no poisoned sector is performed and leaves (R111, R391). -/
theorem complete_ready {s : State} {id : Nat} {o : Op} (ho : s.ops.find? id = some o) (hr : opReady s id o = true)
    (hp : (o.accs.filter fun a => o.kind.reads s.tick && poisoned s a.addr o.kind.size) = []) :
    complete s id o.ctr = some (retireOp (cleanAfter (performOp s o) o) id o) := by
  unfold complete
  rw [ho]
  dsimp only
  rw [hr, hp]
  simp

/-- Without poisoned sectors no access lies on one. -/
theorem poisoned_of_none {s : State} (h : ∀ i, (s.isl i).poison = []) (pa n : Nat) : poisoned s pa n = false := by
  simp [poisoned, h]

/-- A load, once performed, retires with what landed. -/
theorem Lands.retire {s s' : State} {o : Op} {t : Team} {d n : Nat} {scalar : Bool} {xs : List (Nat × Nat)} (id : Nat)
    (h : Lands s s' o.team t d n scalar xs) :
    let t' := { t with regs := t.landed d n scalar xs, cnt := t.cnt.fall o.ctr }
    Left s (retireOp s' id o) id o t t' ∧ SameBytes s (retireOp s' id o) ∧ (retireOp s' id o).crews = s.crews := by
  refine ⟨⟨?_, ?_, rfl⟩, fun a => ⟨?_, ?_⟩, h.crews⟩
  · exact congrArg (SMap.del · id) h.ops
  · show (s'.teams.upd o.team _).find? o.team = _
    rw [SMap.find?_upd_same, h.2]
    rfl
  · exact congrArg (memGet · a) h.mem
  · exact congrArg (memGet · a) h.hostMem

/-- A load that can be performed lands, retires and leaves memory and the crews as they were. -/
theorem execLoad {s : State} {id : Nat} {o : Op} {t : Team} {n d : Nat} {scalar : Bool}
    {xs : List (Nat × Nat)} (ho : s.ops.find? id = some o) (hctr : o.ctr = .ld) (hr : opReady s id o = true)
    (hp : (o.accs.filter fun a => o.kind.reads s.tick && poisoned s a.addr o.kind.size) = [])
    (h : Lands s (performOp s o) o.team t d n scalar xs) :
    ∃ s' t', exec (.loadDataWritten id) s = .next s' ∧ Left s s' id o t t' ∧ SameBytes s s' ∧ s'.crews = s.crews ∧
      t'.regs = t.landed d n scalar xs := by
  obtain ⟨hleft, hbytes, hcrews⟩ := h.retire id
  refine ⟨_, _, ?_, hleft, hbytes, hcrews, rfl⟩
  show happen s (complete s id .ld) = _
  rw [← hctr, complete_ready ho hr hp]
  simp [happen, cleanAfter, hctr]

end Sys2Proof.Machine

open Sys2Proof Sys2Proof.Machine

theorem typedLoadsLand : typedLoadsLandRule := by
  intro s id n d o sp c t ho hctr hr hk hsp hc ht hnd hd
  have hlands : Lands s (performOp s o) o.team t d n false
      (o.accs.map fun a => (a.lane, leNat (typedBytes (c.typed sp) a.addr n))) := by
    have hop : performOp s o = performLoad s o sp n d false := by
      rcases hsp with rfl | rfl <;> simp [performOp, hk, OpKind.space]
    rw [hop, performLoad_typed n d false hsp hc]
    exact landAll_lands d n false _ ht
  have hpoison : (o.accs.filter fun a => o.kind.reads s.tick && poisoned s a.addr o.kind.size) = [] := by
    rcases hsp with rfl | rfl <;> simp [hk, OpKind.reads]
  obtain ⟨s', t', hexec, hleft, hbytes, hcrews, hregs⟩ := execLoad ho hctr hr hpoison hlands
  obtain ⟨hother, hvalues⟩ := landed_accs (t := t) (f := fun a => leNat (typedBytes (c.typed sp) a.addr n)) hd hnd
    (fun _ => Iff.rfl) fun _ _ => typedBytes_lt _ _ _
  rw [← hregs] at hother hvalues
  exact ⟨s', t', hexec, hleft, hbytes, hcrews, hother, hvalues⟩

/-- A load of coherent memory performs as its lines land. -/
theorem globalLoad_lands {s : State} {o : Op} {t : Team} {n d : Nat} {scalar : Bool} (hq : Quiet s)
    (ht : s.teams.find? o.team = some t) (hattr : ∀ a ∈ o.accs, a.attr = .coherent)
    (hk : o.kind = .load .global n scalar d) :
    Lands s (performOp s o) o.team t d n scalar
      (coherentValues s n (((o.accs.map fun a => lineOf a.addr).dedup).flatMap o.onLine)) := by
  have htouch := SameButCaches.foldl (fun s (a : Access) => touch_sameButCaches s a.addr none) o.accs s
  have hc : (o.accs.foldl (fun s a => touch s a.addr none) s).coherentOnly := by
    suffices ∀ (as : List Access) (r : State), r.coherentOnly →
      (as.foldl (fun s a => touch s a.addr none) r).coherentOnly from this _ _ hq.coherentOnly
    intro as
    induction as with
    | nil => exact fun _ h => h
    | cons a as ih => exact fun r h => ih _ (touch_coherentOnly a.addr none h)
  have hop : performOp s o =
      performLoad (o.accs.foldl (fun s a => touch s a.addr none) s) o .global n d scalar := by
    simp [performOp, hk, OpKind.space]
  have h := (Lands.of_sameButCaches htouch ht).trans
    (performLoad_global n d scalar hc (htouch.noTx hq.2) (by rw [htouch.teams, ht]; rfl) hattr)
  rw [List.nil_append, coherentValues] at h
  rw [hop, coherentValues]
  simpa only [State.rd, htouch.mem] using h

theorem globalLoadsLand : globalLoadsLandRule := by
  intro s id n d o t hq hpoison ho hctr hr ht hattr hnd hd
  have hnone : ∀ k : OpKind, (o.accs.filter fun a => k.reads s.tick && poisoned s a.addr k.size) = [] := fun k => by
    simp [poisoned_of_none hpoison]
  refine ⟨fun hk => ?_, fun a ha hk => ?_⟩
  · obtain ⟨s', t', hexec, hleft, hbytes, -, hregs⟩ :=
      execLoad ho hctr hr (hnone _) (globalLoad_lands hq ht hattr hk)
    obtain ⟨hother, hvalues⟩ := landed_accs (t := t) (f := fun a => s.rd a.addr n) hd hnd (mem_lines_onLine o)
      fun _ _ => rd_lt s _ n
    rw [coherentValues] at hregs
    rw [← hregs] at hother hvalues
    exact ⟨s', t', hexec, hleft, hbytes, hother, hvalues⟩
  · obtain ⟨s', t', hexec, hleft, hbytes, -, hregs⟩ :=
      execLoad ho hctr hr (hnone _) (globalLoad_lands hq ht hattr hk)
    have hone : ((o.accs.map fun a => lineOf a.addr).dedup).flatMap o.onLine = [a] := by
      simp [ha, Op.onLine]
    obtain ⟨hother, hvalue⟩ := landed_scalar (t := t) (d := d) a.lane (rd_lt s a.addr n)
    rw [hone, coherentValues, List.map_singleton] at hregs
    rw [← hregs] at hother hvalue
    exact ⟨s', t', hexec, hleft, hbytes, hother, hvalue⟩

/-- Settles O26, line by line: with coherent lines only, the L1s and the home hold the same bytes. -/
theorem loadsLand : Obligations.LoadsLand := ⟨typedLoadsLand, globalLoadsLand⟩
end


-- ==== Proofs/FormShared.lean ====
section
/-! PROOFS. Both memories keep their canonical form (log 1) under the operations that words and events share: the writes of
state, translation and faults, waits and conflicts, the caches, traps, placement, endings, rollback and travel. One lemma
per operation, in the order of the model; each says which operations its branches are made of. -/

namespace Sys2Proof.Machine

variable {s : State}

/-! ## Records of state, and results -/

/-- A state is in form when both its memories are, whatever its other fields. -/
theorem memsOk_mk {panel host queues tenants pcp groupTab mem hostMem isls cores engines kernels crews teams ops msgs pkts
    collPkts collInsts streams links lanes deadlines cur held inbox tick uid now} (hm : Memory.wf mem = true)
    (hh : Memory.wf hostMem = true) :
    State.memsOk ⟨panel, host, queues, tenants, pcp, groupTab, mem, hostMem, isls, cores, engines, kernels, crews, teams,
      ops, msgs, pkts, collPkts, collInsts, streams, links, lanes, deadlines, cur, held, inbox, tick, uid, now⟩ :=
  ⟨hm, hh⟩

theorem memsOk_mem (h : s.memsOk) : Memory.wf s.mem = true := h.1

theorem memsOk_hostMem (h : s.memsOk) : Memory.wf s.hostMem = true := h.2

/-- Whatever state a result goes on to is in form. -/
def Result.memsOk (r : Result) : Prop := ∀ t, r = .next t → t.memsOk

theorem next_memsOk (h : s.memsOk) : Result.memsOk (.next s) := by
  intro t e
  cases e
  exact h

theorem fault_memsOk {f : Fault} : Result.memsOk (.fault f) := by
  intro t e
  cases e

theorem refused_memsOk {r : Refusal} : Result.memsOk (.refused r) := by
  intro t e
  cases e

/-! ## Access -/

theorem setTeam_memsOk {u ty} (h : s.memsOk) : (s.setTeam u ty).memsOk := h

theorem updTeam_memsOk {u f} (h : s.memsOk) : (s.updTeam u f).memsOk := h

theorem updCrew_memsOk {c f} (h : s.memsOk) : (s.updCrew c f).memsOk := h

theorem updKernel_memsOk {k f} (h : s.memsOk) : (s.updKernel k f).memsOk := h

theorem updIsl_memsOk {i f} (h : s.memsOk) : (s.updIsl i f).memsOk := h

theorem updCore_memsOk {k f} (h : s.memsOk) : (s.updCore k f).memsOk := h

theorem updEngine_memsOk {k f} (h : s.memsOk) : (s.updEngine k f).memsOk := h

theorem updQueue_memsOk {q f} (h : s.memsOk) : (s.updQueue q f).memsOk := h

theorem updTenant_memsOk {ty f} (h : s.memsOk) : (s.updTenant ty f).memsOk := h

theorem updLink_memsOk {i p f} (h : s.memsOk) : (s.updLink i p f).memsOk := h

theorem updLanes_memsOk {i p f} (h : s.memsOk) : (s.updLanes i p f).memsOk := h

theorem updPcp_memsOk {f} (h : s.memsOk) : (s.updPcp f).memsOk := h

theorem updHost_memsOk {f} (h : s.memsOk) : (s.updHost f).memsOk := h

theorem fresh_memsOk (h : s.memsOk) : s.fresh.2.memsOk := h

theorem addOp_memsOk {o} (h : s.memsOk) : (s.addOp o).memsOk := h

theorem addPkt_memsOk {p} (h : s.memsOk) : (s.addPkt p).memsOk := h

theorem addMsg_memsOk {en} (h : s.memsOk) : (s.addMsg en).memsOk := h

/-! ## Mmu -/

theorem tlbDrop_memsOk {p} (h : s.memsOk) : (tlbDrop s p).memsOk := h

theorem faultEnter_memsOk {isl f queue} (h : s.memsOk) : (faultEnter s isl f queue).memsOk := by
  unfold faultEnter
  grind [← updIsl_memsOk, ← event_memsOk]

theorem faultLeave_memsOk {isl entry} (h : s.memsOk) : (faultLeave s isl entry).memsOk := by
  unfold faultLeave
  grind [← updIsl_memsOk, ← faultEnter_memsOk]

theorem faultForget_memsOk {isl who} (h : s.memsOk) : (faultForget s isl who).memsOk := by
  unfold faultForget
  grind [← updIsl_memsOk, ← faultLeave_memsOk, ← foldl_memsOk]

theorem forgetRange_memsOk {pa size} (h : s.memsOk) : (forgetRange s pa size).memsOk := h

theorem dropFrame_memsOk {pa} (h : s.memsOk) : (dropFrame s pa).memsOk :=
  updIsl_memsOk h

/-! ## Waits -/

theorem tokenDrop_memsOk {isl u} (h : s.memsOk) : (tokenDrop s isl u).memsOk := h

theorem tokenBack_memsOk {isl u} (h : s.memsOk) : (tokenBack s isl u).memsOk := h

theorem crumbForget_memsOk {u} (h : s.memsOk) : (crumbForget s u).memsOk :=
  watchDrop_memsOk _ h

theorem crumbAdd_memsOk {w line} (h : s.memsOk) : (crumbAdd s w line).memsOk := by
  unfold crumbAdd
  grind [← updIsl_memsOk, ← updTeam_memsOk, ← updKernel_memsOk, ← changeLine_memsOk]

theorem sleepTeam_memsOk {u lines words} (h : s.memsOk) : (sleepTeam s u lines words).memsOk := by
  unfold sleepTeam
  grind [← setTeam_memsOk, ← crumbAdd_memsOk, ← updCore_memsOk, ← foldl_memsOk]

theorem changeWord_memsOk {crew by_ word} (h : s.memsOk) : (changeWord s crew by_ word).memsOk := by
  unfold changeWord
  grind [← abortTx_memsOk, ← wakeWaiter_memsOk, ← foldl_memsOk]

/-! ## Cache -/

theorem logSector_memsOk {tag own sector} (h : s.memsOk) : (logSector s tag own sector).memsOk := by
  unfold logSector
  grind [← updIsl_memsOk, ← event_memsOk, ← updKernel_memsOk]

theorem touch_memsOk {pa from_} (h : s.memsOk) : (touch s pa from_).memsOk := h

theorem reach_memsOk {kernel pa} (h : s.memsOk) : (reach s kernel pa).memsOk := by
  unfold reach
  grind [← updPcp_memsOk]

theorem writeBack_memsOk {l} (h : s.memsOk) : (writeBack s l).memsOk :=
  foldl_memsOk (fun _ _ h => wr_memsOk _ _ h) _ _ h

theorem recallUpdates_memsOk {isl base n} (h : s.memsOk) : (recallUpdates s isl base n).memsOk :=
  foldl_memsOk (fun _ _ h => recallLine_memsOk _ h) _ _ h

theorem l2Evict_memsOk {line} (h : s.memsOk) : (l2Evict s line).memsOk :=
  invalidateOthers_memsOk _ _ (recallLine_memsOk _ h)

theorem writeBackL2_memsOk {l} (h : s.memsOk) : (writeBackL2 s l).memsOk :=
  l2Touch_memsOk _ _ _ (writeBack_memsOk h)

theorem evict_memsOk {l} (h : s.memsOk) : (evict s l).memsOk := by
  unfold evict
  grind [← changeLine_memsOk, ← combine_memsOk, ← writeBackL2_memsOk]

theorem l1Room_memsOk {key line kind} (h : s.memsOk) : (l1Room s key line kind).memsOk := by
  unfold l1Room
  grind [← evict_memsOk, ← updCore_memsOk]

theorem l1Enter_memsOk {key l strm} (h : s.memsOk) : (l1Enter s key l strm).memsOk :=
  l1Room_memsOk h

theorem homeRead_memsOk {by_ pa n} (h : s.memsOk) : (homeRead s by_ pa n).2.memsOk := by
  unfold homeRead
  grind [← reachLine_memsOk, ← foldl_memsOk]

theorem homeAtomic_memsOk {by_ ty op pa b b2} (h : s.memsOk) : (homeAtomic s by_ ty op pa b b2).2.memsOk := by
  unfold homeAtomic
  grind [← reachLine_memsOk, ← changeLine_memsOk, ← invalidateOthers_memsOk, ← wrNat_memsOk]

theorem hold_memsOk {id} (h : s.memsOk) : (hold s id).memsOk := by
  unfold hold
  grind [← updPcp_memsOk]

theorem clearLocks_memsOk (h : s.memsOk) : (clearLocks s).memsOk := h

theorem holdWrite_memsOk {hd} (h : s.memsOk) : (holdWrite s hd).memsOk := by
  unfold holdWrite
  grind [← hold_memsOk, ← memsOk_mk, ← memsOk_mem, ← memsOk_hostMem]

theorem writeWhenFree_memsOk {pa bs} (h : s.memsOk) : (writeWhenFree s pa bs).memsOk := by
  unfold writeWhenFree
  grind [← holdWrite_memsOk, ← homeWrite_memsOk, ← memsOk_mk, ← memsOk_mem, ← memsOk_hostMem]

theorem drainFrom_memsOk {hs} (h : s.memsOk) : (drainFrom hs s).memsOk := by
  induction hs generalizing s with
  | nil => exact h
  | cons x xs ih =>
    unfold drainFrom
    grind [← holdWrite_memsOk, ← homeWrite_memsOk]

theorem drainHeld_memsOk (h : s.memsOk) : (drainHeld s).memsOk := by
  unfold drainHeld
  grind [← drainFrom_memsOk, ← clearLocks_memsOk, ← memsOk_mk, ← memsOk_mem, ← memsOk_hostMem]

theorem homeAdd_memsOk {by_ pa inc} (h : s.memsOk) : (homeAdd s by_ pa inc).memsOk := by
  unfold homeAdd
  grind [← homeAtomic_memsOk]

theorem coreReadLine_memsOk {key by_ attr strm line n offs} (h : s.memsOk) :
    (coreReadLine s key by_ attr strm line n offs).2.memsOk := by
  unfold coreReadLine
  grind [← l1Room_memsOk, ← reachLine_memsOk, ← l1Enter_memsOk, ← recallLine_memsOk, ← l2Touch_memsOk, ← foldl_memsOk]

theorem coreRead_memsOk {key by_ attr strm pa n} (h : s.memsOk) : (coreRead s key by_ attr strm pa n).2.memsOk :=
  coreReadLine_memsOk h

theorem coreWrite_memsOk {key by_ tag attr strm pa bs} (h : s.memsOk) :
    (coreWrite s key by_ tag attr strm pa bs).memsOk := by
  unfold coreWrite
  grind [← recallLine_memsOk, ← l1Room_memsOk, ← logWrite_memsOk, ← l2Touch_memsOk, ← l1Enter_memsOk,
    ← homeWrite_memsOk, ← foldl_memsOk]

theorem coreRed_memsOk {key by_ local_ ty op pa b} (h : s.memsOk) : (coreRed s key by_ local_ ty op pa b).memsOk := by
  unfold coreRed
  grind [← l1Room_memsOk, ← recallLine_memsOk, ← l2Touch_memsOk, ← invalidateOthers_memsOk, ← conflictOn_memsOk,
    ← changeLine_memsOk, ← l1Enter_memsOk, ← homeAtomic_memsOk]

theorem l1Clean_memsOk {key} (h : s.memsOk) : (l1Clean s key).memsOk :=
  foldl_memsOk (fun _ _ h => writeBackL2_memsOk h) _ _ h

theorem l1Acquire_memsOk {key} (h : s.memsOk) : (l1Acquire s key).memsOk := h

theorem flushLine_memsOk {key inv line} (h : s.memsOk) : (flushLine s key inv line).memsOk := by
  unfold flushLine
  grind [← writeBackL2_memsOk, ← changeLine_memsOk, ← combine_memsOk, ← updCore_memsOk]

theorem restoreOn_memsOk {isl p} (h : s.memsOk) : (restoreOn s isl p).memsOk := by
  unfold restoreOn
  grind [← updCore_memsOk, ← writeWhenFree_memsOk, ← updIsl_memsOk, ← foldl_memsOk]

theorem restoreSpans_memsOk {p} (h : s.memsOk) : (restoreSpans s p).memsOk :=
  foldl_memsOk (fun _ _ h => restoreOn_memsOk h) _ _ h

theorem freeSpans_memsOk {p} (h : s.memsOk) : (freeSpans s p).memsOk := h

/-! ## Translate -/

theorem readTables_memsOk {va level table} (h : s.memsOk) : (readTables s va level table).memsOk := by
  induction level generalizing s table with
  | zero =>
    unfold readTables
    grind [← homeRead_memsOk]
  | succ n ih =>
    unfold readTables
    grind [← homeRead_memsOk]

theorem walked_memsOk {tenant va} (h : s.memsOk) : (walked s tenant va).2.memsOk := by
  unfold walked
  grind [← readTables_memsOk]

theorem translate_memsOk {isl core tenant va} (h : s.memsOk) : (translate s isl core tenant va).2.memsOk := by
  unfold translate
  grind [← updCore_memsOk, ← walked_memsOk, ← updIsl_memsOk]

theorem checkAccess_memsOk {isl core tenant want n va} (h : s.memsOk) :
    (checkAccess s isl core tenant want n va).2.memsOk := by
  unfold checkAccess
  grind [← walked_memsOk, ← translate_memsOk]

theorem checkLanes_memsOk {isl core tenant want n las} (h : s.memsOk) :
    (checkLanes s isl core tenant want n las).2.memsOk := by
  induction las generalizing s with
  | nil => exact h
  | cons x xs ih =>
    unfold checkLanes
    grind [← checkAccess_memsOk]

theorem demandCreate_memsOk {want pte level size entry t} (e : demandCreate s want pte level size entry = some t)
    (h : s.memsOk) :
    t.memsOk := by
  unfold demandCreate at e
  grind [→ takeFrame_memsOk, ← homeWrite_memsOk, ← foldl_memsOk]

theorem pcpTouch_memsOk {tenant va} (h : s.memsOk) : (pcpTouch s tenant va).2.memsOk := by
  unfold pcpTouch
  grind [← walked_memsOk, → demandCreate_memsOk]

theorem readPieces_memsOk {ps} (h : s.memsOk) : (readPieces s ps).2.memsOk := by
  induction ps generalizing s with
  | nil => exact h
  | cons x xs ih =>
    unfold readPieces
    grind [← homeRead_memsOk, ← touch_memsOk]

theorem readPieces_memsOk_of_eq {ps} {a t} (e : readPieces s ps = (a, t)) (h : s.memsOk) : t.memsOk := by
  have h1 : (readPieces s ps).2.memsOk := readPieces_memsOk h
  rwa [e] at h1

theorem pcpPieces_memsOk {tenant ps} (h : s.memsOk) : (pcpPieces s tenant ps).2.memsOk := by
  induction ps generalizing s with
  | nil => exact h
  | cons x xs ih =>
    unfold pcpPieces
    grind [← walked_memsOk]

theorem pcpRead_memsOk {tenant va n} (h : s.memsOk) : (pcpRead s tenant va n).2.memsOk := by
  unfold pcpRead
  grind [← pcpPieces_memsOk, ← readPieces_memsOk]

/-! ## Ops -/

theorem issue_memsOk {f} (hf : ∀ x, (f x).memsOk) : Result.memsOk (issue s f) := by
  unfold issue
  grind [← next_memsOk, ← fault_memsOk, ← refused_memsOk]

theorem charge_memsOk {x cycles} (h : s.memsOk) : (charge s x cycles).memsOk := h

theorem finish_memsOk {x ty cycles} (h : s.memsOk) : (finish s x ty cycles).memsOk := h

theorem step8_memsOk {x ty cycles} (h : s.memsOk) : (step8 s x ty cycles).memsOk := h

theorem stopTeam_memsOk {isl u} (h : s.memsOk) : (stopTeam s isl u).memsOk := by
  unfold stopTeam
  grind [← setTeam_memsOk, ← updTeam_memsOk, ← crumbForget_memsOk, ← faultForget_memsOk, ← tokenBack_memsOk,
    ← abortTx_memsOk]

theorem writeReport_memsOk {tenant bs} (h : s.memsOk) : (writeReport s tenant bs).2.memsOk := by
  unfold writeReport
  grind [← writeWhenFree_memsOk]

theorem haltCrew_memsOk {cu i} (h : s.memsOk) : (haltCrew s cu i).memsOk := by
  unfold haltCrew
  split
  · exact h
  · split
    · exact h
    · split
      · exact h
      · exact updCrew_memsOk (s := { State.event _ _ _ _ _ _ _ _ with pcp := _ }) (event_memsOk _ _ _ _ _ _ _
          (updTenant_memsOk (writeReport_memsOk (foldl_memsOk (fun _ _ h => stopTeam_memsOk h) _ _ h))))

theorem raise_memsOk {u cause lanes addr tcode} (h : s.memsOk) : (raise s u cause lanes addr tcode).memsOk := by
  unfold raise
  grind [← abortTx_memsOk, ← setTeam_memsOk, ← haltCrew_memsOk, ← updTeam_memsOk]

theorem raiseLanes_memsOk {x cause lanes addr} (h : s.memsOk) : (raiseLanes s x cause lanes addr).memsOk :=
  raise_memsOk h

theorem raiseTeam_memsOk {x cause addr} (h : s.memsOk) : (raiseTeam s x cause addr).memsOk :=
  raise_memsOk h

theorem raiseEngine_memsOk {cu en} (h : s.memsOk) : (raiseEngine s cu en).memsOk := by
  unfold raiseEngine
  grind [← updCrew_memsOk, ← haltCrew_memsOk]

theorem gangRelease_memsOk {us cause} (h : s.memsOk) : (gangRelease s us cause).memsOk := by
  unfold gangRelease
  grind [← updTeam_memsOk, ← raise_memsOk, ← foldl_memsOk]

theorem gangLost_memsOk {us} (h : s.memsOk) : (gangLost s us).memsOk :=
  gangRelease_memsOk h

theorem resumeCrew_memsOk {cu} (h : s.memsOk) : (resumeCrew s cu).memsOk := by
  unfold resumeCrew
  split
  · exact h
  · split
    · exact h
    · extract_lets s1 s2 s3
      have h3 : s3.memsOk := by grind [← updIsl_memsOk, ← updCrew_memsOk, ← memsOk_mk, ← memsOk_mem, ← memsOk_hostMem]
      split
      · exact h3
      · exact haltCrew_memsOk (updCrew_memsOk h3)

/-! ## Operands -/

theorem laneWord_memsOk {x act bounds cycles ty} (h : s.memsOk) : (laneWord s x act bounds cycles ty).memsOk := by
  unfold laneWord
  grind [← step8_memsOk, ← raiseLanes_memsOk]

theorem laneOp_memsOk {x g en d srcs f} (h : s.memsOk) : (laneOp s x g en d srcs f).memsOk :=
  laneWord_memsOk h

/-! ## Report -/

theorem statusCopy_memsOk {tenant va w} (h : s.memsOk) : (statusCopy s tenant va w).2.memsOk := by
  unfold statusCopy
  grind [← pcpTouch_memsOk, ← writeWhenFree_memsOk, ← touch_memsOk]

theorem finishRecord_memsOk {q seq kind code w3} (h : s.memsOk) : (finishRecord s q seq kind code w3).memsOk := by
  unfold finishRecord
  grind [← updQueue_memsOk, ← statusCopy_memsOk, ← event_memsOk]

/-! ## Place -/

theorem forward_memsOk {isl en} (h : s.memsOk) : (forward s isl en).memsOk := by
  unfold forward
  grind [← addMsg_memsOk, ← addPkt_memsOk, ← memsOk_mk, ← memsOk_mem, ← memsOk_hostMem]

theorem launchFormed_memsOk {k key off cu j es} (h : s.memsOk) : (launchFormed s k key off cu j es).memsOk := by
  unfold launchFormed
  grind [← fresh_memsOk, ← setTeam_memsOk, ← l1Acquire_memsOk]

theorem binMove_memsOk {key bi t} (e : binMove s key bi = some t) (h : s.memsOk) : t.memsOk := by
  unfold binMove at e
  split at e
  · cases e
  · split at e
    · cases e
    · grind [← updCore_memsOk, ← launchFormed_memsOk]

theorem binAdvance_memsOk {key bi n} (h : s.memsOk) : (binAdvance key bi n s).memsOk := by
  induction n generalizing s with
  | zero => exact h
  | succ n ih =>
    unfold binAdvance
    grind [→ binMove_memsOk]

theorem binsAdvance_memsOk {key} (h : s.memsOk) : (binsAdvance s key).memsOk := by
  unfold binsAdvance
  grind [← binAdvance_memsOk, ← foldl_memsOk]

theorem enterBin_memsOk {en t} (e : enterBin s en = some t) (h : s.memsOk) : t.memsOk := by
  unfold enterBin at e
  dsimp only at e
  split at e
  · cases e
  · obtain ⟨p, -, rfl⟩ := Option.map_eq_some_iff.1 e
    grind [← updCore_memsOk, ← finishRecord_memsOk, ← binAdvance_memsOk]

theorem enterEntry_memsOk {en t} (e : enterEntry s en = some t) (h : s.memsOk) : t.memsOk := by
  unfold enterEntry at e
  grind [← forward_memsOk, → enterBin_memsOk, ← updIsl_memsOk]

theorem redirectBins_memsOk {kernel key} (h : s.memsOk) : (redirectBins s kernel key).memsOk := by
  unfold redirectBins
  grind [← updCore_memsOk, ← forward_memsOk, ← foldl_memsOk]

theorem updMx_memsOk {c f} (h : s.memsOk) : (s.updMx c f).memsOk := by
  unfold State.updMx
  grind [← updEngine_memsOk]

theorem mirrorWrite_memsOk {cu off v} (h : s.memsOk) : (mirrorWrite s cu off v).memsOk := by
  unfold mirrorWrite
  grind [← writeWhenFree_memsOk]

theorem freeCopy_memsOk {cu c} (h : s.memsOk) : (freeCopy s cu c).memsOk := by
  unfold freeCopy
  grind [← updCrew_memsOk, ← updIsl_memsOk, ← faultForget_memsOk]

theorem dropRequests_memsOk {cs} (h : s.memsOk) : (dropRequests s cs).memsOk := h

theorem freeColl_memsOk {cu c} (h : s.memsOk) : (freeColl s cu c).memsOk := by
  unfold freeColl
  grind [← dropRequests_memsOk, ← updCrew_memsOk, ← updIsl_memsOk, ← faultForget_memsOk]

theorem freeMx_memsOk {cu c} (h : s.memsOk) : (freeMx s cu c).memsOk :=
  updMx_memsOk h

theorem freeContexts_memsOk {cu} (h : s.memsOk) : (freeContexts s cu).memsOk := by
  unfold freeContexts
  grind [← freeMx_memsOk, ← freeColl_memsOk, ← freeCopy_memsOk]

theorem freeIdle_memsOk {cu c} (h : s.memsOk) : (freeIdle s cu c).memsOk := by
  unfold freeIdle
  grind [← freeCopy_memsOk, ← freeColl_memsOk, ← freeMx_memsOk]

theorem leaveTyped_memsOk {c} (h : s.memsOk) : (leaveTyped s c).memsOk := by
  unfold leaveTyped
  grind [← updCore_memsOk]

theorem leaveW_memsOk {isl p} (h : s.memsOk) : (leaveW s isl p).memsOk := h

theorem removeCrew_memsOk {cu} (h : s.memsOk) : (removeCrew s cu).memsOk := by
  unfold removeCrew
  split
  · exact h
  · next c _ =>
    extract_lets s1 s2 s3 s4 s5 onCluster s6
    have h2 : s2.memsOk := by grind [← freeContexts_memsOk, ← dropFrame_memsOk]
    have h3 : s3.memsOk := by grind [← leaveTyped_memsOk]
    have h5 : s5.memsOk := updCore_memsOk (s := s4) h3
    have h6 : s6.memsOk := by grind [← leaveW_memsOk]
    exact gangLost_memsOk h6

theorem releaseExited_memsOk {cu} (h : s.memsOk) : (releaseExited s cu).memsOk := by
  unfold releaseExited
  grind [← removeCrew_memsOk, ← freeIdle_memsOk]

theorem journalExit_memsOk {c} (h : s.memsOk) : (journalExit s c).memsOk := by
  unfold journalExit
  grind [← updKernel_memsOk, ← freeSpans_memsOk]

theorem exitCrew_memsOk {cu} (h : s.memsOk) : (exitCrew s cu).memsOk := by
  unfold exitCrew
  grind [← updCrew_memsOk, ← l1Clean_memsOk, ← journalExit_memsOk, ← redirectBins_memsOk, ← updCore_memsOk,
    ← releaseExited_memsOk]

theorem sweep_memsOk (h : s.memsOk) : (sweep s).memsOk := by
  unfold sweep
  grind [← exitCrew_memsOk, ← foldl_memsOk]

theorem closeCrew_memsOk {cu} (h : s.memsOk) : (closeCrew s cu).memsOk := by
  unfold closeCrew
  grind [← redirectBins_memsOk, ← updCrew_memsOk]

theorem closeSpan_memsOk {g} (h : s.memsOk) : (closeSpan s g).memsOk := h

theorem dropTeam_memsOk {u} (h : s.memsOk) : (dropTeam s u).memsOk := by
  unfold dropTeam
  split
  · exact h
  · split
    · exact h
    · extract_lets s1
      have h1 : s1.memsOk := faultForget_memsOk (tokenDrop_memsOk (crumbForget_memsOk h))
      exact ⟨h1.1, h1.2⟩

theorem endTeam_memsOk {u} (h : s.memsOk) : (endTeam s u).memsOk := by
  unfold endTeam
  split
  · exact h
  · split
    · exact dropTeam_memsOk h
    · refine sweep_memsOk (binsAdvance_memsOk ?_)
      grind [← dropTeam_memsOk, ← closeSpan_memsOk, ← updCrew_memsOk, ← gangLost_memsOk]

theorem settle_memsOk {x ty next cycles} (h : s.memsOk) : (settle s x ty next cycles).memsOk := by
  unfold settle
  grind [← finish_memsOk, ← endTeam_memsOk, ← charge_memsOk, ← setTeam_memsOk]

/-! ## Endings -/

theorem discardTeam_memsOk {u} (h : s.memsOk) : (discardTeam s u).memsOk :=
  dropTeam_memsOk (abortTx_memsOk _ _ h)

theorem dropSaved_memsOk {cu c} (h : s.memsOk) : (dropSaved s cu c).memsOk := h

theorem discardCrew_memsOk {cu} (h : s.memsOk) : (discardCrew s cu).memsOk := by
  unfold discardCrew
  grind [← discardTeam_memsOk, ← removeCrew_memsOk, ← dropSaved_memsOk, ← foldl_memsOk]

theorem discardEntries_memsOk {kid} (h : s.memsOk) : (discardEntries s kid).memsOk := h

theorem forgetHold_memsOk {kid} (h : s.memsOk) : (forgetHold s kid).memsOk := h

theorem forgetCode_memsOk {kid} (h : s.memsOk) : (forgetCode s kid).memsOk := by
  unfold forgetCode
  grind [← faultForget_memsOk, ← foldl_memsOk]

theorem dropKernel_memsOk {kid} (h : s.memsOk) : (dropKernel s kid).memsOk := by
  unfold dropKernel
  split
  · exact h
  · next k _ =>
    extract_lets s1 s2 s3 s4 s5 s6 s7
    have h1 : s1.memsOk := foldl_memsOk (fun _ _ h => discardCrew_memsOk h) _ _ h
    have h2 : s2.memsOk := forgetCode_memsOk (forgetHold_memsOk (discardEntries_memsOk h1))
    have h3 : s3.memsOk := by grind [← dropFrame_memsOk]
    have h4 : s4.memsOk := ⟨h3.1, h3.2⟩
    clear_value s4
    have h5 : s5.memsOk := by
      unfold s5
      exact foldl_memsOk (fun _ _ h => leaveW_memsOk h) _ _ h4
    have h6 : s6.memsOk := freeSpans_memsOk h5
    clear_value s6
    have h7 : s7.memsOk := ⟨h6.1, h6.2⟩
    exact updPcp_memsOk h7

theorem dropQueued_memsOk {kid} (h : s.memsOk) : (dropQueued s kid).memsOk := h

theorem finishKernel_memsOk {kid k code msgCode w3} (h : s.memsOk) :
    (finishKernel s kid k code msgCode w3).memsOk := by
  unfold finishKernel
  grind [← finishRecord_memsOk, ← dropKernel_memsOk, ← dropQueued_memsOk, ← foldl_memsOk]

theorem endKernel_memsOk {kid code w3} (h : s.memsOk) : (endKernel s kid code w3).memsOk := by
  unfold endKernel
  grind [← finishKernel_memsOk]

theorem clocks_memsOk (h : s.memsOk) : (clocks s).memsOk := h

/-! ## Rollback -/

theorem startTeams_memsOk {k cu} (h : s.memsOk) : (startTeams s k cu).memsOk := by
  unfold startTeams
  grind [← fresh_memsOk, ← foldl_memsOk, ← memsOk_mk, ← memsOk_mem, ← memsOk_hostMem]

theorem startCrewTeams_memsOk {kid k cu key} (h : s.memsOk) : (startCrewTeams s kid k cu key).memsOk := by
  unfold startCrewTeams
  grind [← startTeams_memsOk]

theorem purgeEntries_memsOk {kid p} (h : s.memsOk) : (purgeEntries s kid p).memsOk := h

theorem purgeSpawned_memsOk {g} (h : s.memsOk) : (purgeSpawned s g).memsOk := h

theorem sendAdd_memsOk {op o a c} (h : s.memsOk) : (sendAdd s op o a c).memsOk := h

theorem dropOps_memsOk {teams} (h : s.memsOk) : (dropOps s teams).memsOk := by
  unfold dropOps
  grind [← sendAdd_memsOk, ← foldl_memsOk, ← memsOk_mk, ← memsOk_mem, ← memsOk_hostMem]

theorem dropCommands_memsOk {cu c g} (h : s.memsOk) : (dropCommands s cu c g).memsOk := by
  unfold dropCommands
  extract_lets s1 s2 s3 s4 s5
  have h1 : s1.memsOk := by grind [← updIsl_memsOk, ← mirrorWrite_memsOk]
  have h2 : s2.memsOk := by grind [← updIsl_memsOk, ← mirrorWrite_memsOk, ← dropRequests_memsOk]
  have h4 : s4.memsOk := by grind [← updMx_memsOk, ← mirrorWrite_memsOk]
  exact updCrew_memsOk (updIsl_memsOk h4)

theorem returnIndex_memsOk {g} (h : s.memsOk) : (returnIndex s g).memsOk := h

theorem relaunchCrew_memsOk {kid k cu c g} (h : s.memsOk) : (relaunchCrew s kid k cu c g).memsOk := by
  unfold relaunchCrew
  extract_lets us runs s1 s2 s3 s4 s5 s6 s7 s8
  have h1 : s1.memsOk := foldl_memsOk (fun _ _ h => dropTeam_memsOk (abortTx_memsOk _ _ h)) _ _ (dropOps_memsOk h)
  have h4 : s4.memsOk := restoreSpans_memsOk (purgeSpawned_memsOk (dropSaved_memsOk (freeContexts_memsOk h1)))
  have h6 : s6.memsOk := event_memsOk _ _ _ _ _ _ _ (gangLost_memsOk h4)
  grind [← removeCrew_memsOk, ← returnIndex_memsOk, ← updCrew_memsOk, ← startCrewTeams_memsOk]

theorem redeliver_memsOk {ty} (h : s.memsOk) : (redeliver s ty).memsOk :=
  foldl_memsOk (fun _ _ h => forward_memsOk h) _ _ h

theorem relaunchSpan_memsOk {k cu c g u ty} (h : s.memsOk) : (relaunchSpan s k cu c g u ty).memsOk := by
  unfold relaunchSpan
  exact redeliver_memsOk (event_memsOk _ _ _ _ _ _ _ (gangLost_memsOk (restoreSpans_memsOk (purgeSpawned_memsOk
    (dropCommands_memsOk (dropTeam_memsOk (abortTx_memsOk _ _ (dropOps_memsOk h))))))))

theorem relaunchIndex_memsOk {k g} (h : s.memsOk) : (relaunchIndex s k g).memsOk :=
  returnIndex_memsOk (event_memsOk _ _ _ _ _ _ _ (restoreSpans_memsOk h))

theorem rollSpan_memsOk {g} (h : s.memsOk) : (rollSpan s g).memsOk := by
  unfold rollSpan
  split
  · exact h
  · grind [← relaunchIndex_memsOk, ← relaunchCrew_memsOk, ← relaunchSpan_memsOk, ← event_memsOk,
    ← restoreSpans_memsOk, ← dropCommands_memsOk, ← purgeSpawned_memsOk]

theorem strikeSpans_memsOk {kid gs addr} (h : s.memsOk) : (strikeSpans s kid gs addr).memsOk := by
  unfold strikeSpans
  grind [← clocks_memsOk, ← endKernel_memsOk, ← updKernel_memsOk, ← purgeEntries_memsOk, ← rollSpan_memsOk,
    ← foldl_memsOk]

theorem strikeCrew_memsOk {cu gs at_ i} (h : s.memsOk) : (strikeCrew s cu gs at_ i).memsOk := by
  unfold strikeCrew
  grind [← haltCrew_memsOk, ← strikeSpans_memsOk, ← sweep_memsOk, ← resumeCrew_memsOk]

theorem ueRead_memsOk {cu u lanes va} (h : s.memsOk) : (ueRead s cu u lanes va).memsOk :=
  strikeCrew_memsOk h

/-! ## Travel -/

theorem noteArrival_memsOk {en} (h : s.memsOk) : (noteArrival s en).memsOk := h

theorem landPayload_memsOk {k m} (h : s.memsOk) : (landPayload s k m).memsOk := by
  unfold landPayload
  split
  · cases he : enterBin _ m.2 with
    | none => exact h
    | some t => exact enterBin_memsOk he (noteArrival_memsOk (s := { s with msgs := _ }) h)
  · exact h

theorem landFor_memsOk {k key en} (h : s.memsOk) : (landFor s k key en).memsOk :=
  foldl_memsOk (fun _ _ h => landPayload_memsOk h) _ _ h

theorem sendPayload_memsOk {x target p t} (e : sendPayload s x target p = some t) (h : s.memsOk) : t.memsOk := by
  unfold sendPayload at e
  grind [← landFor_memsOk, ← addMsg_memsOk, ← updKernel_memsOk]

theorem sendAll_memsOk {x ls} (h : s.memsOk) : (sendAll x s ls).1.memsOk := by
  induction ls generalizing s with
  | nil => exact h
  | cons y ys ih =>
    unfold sendAll
    grind [→ sendPayload_memsOk]

theorem forbid_memsOk {x} (h : s.memsOk) : (forbid s x).memsOk :=
  abortTx_memsOk _ _ h

theorem depart_memsOk {x ls rest} (h : s.memsOk) (hrest : ∀ y y1, y.memsOk → (rest y y1).memsOk) :
    (depart s x ls rest).memsOk := by
  unfold depart
  grind [← raiseLanes_memsOk, ← forbid_memsOk, ← sendAll_memsOk, ← setTeam_memsOk, ← foldl_memsOk]

theorem transfer_memsOk {x target deep ret lane} (h : s.memsOk) : (transfer s x target deep ret lane).memsOk := by
  unfold transfer
  grind [← raiseTeam_memsOk, ← raiseLanes_memsOk, ← finish_memsOk, ← depart_memsOk, ← settle_memsOk]

theorem jump_memsOk {x target} (h : s.memsOk) : (jump s x target).memsOk :=
  transfer_memsOk h

theorem callTo_memsOk {x target} (h : s.memsOk) : (callTo s x target).memsOk := by
  unfold callTo
  grind [← transfer_memsOk]

theorem fallOff_memsOk {x} (h : s.memsOk) : (fallOff s x).memsOk := by
  unfold fallOff
  grind [← depart_memsOk, ← settle_memsOk, ← raiseTeam_memsOk]

end Sys2Proof.Machine
end


-- ==== Proofs/FormMemory.lean ====
section
/-! PROOFS. The memory words, atomics, one-sided operations and the commands of the engines and of the matrix array keep both
memories in canonical form. -/

namespace Sys2Proof.Machine

variable {s : State}

/-! ## Mem -/

theorem park_memsOk {x team ms write} (h : s.memsOk) : (park s x team ms write).memsOk := by
  unfold park
  grind [← updTeam_memsOk, ← abortTx_memsOk, ← tokenBack_memsOk, ← faultEnter_memsOk]

theorem blame_memsOk {x team b} (h : s.memsOk) : (blame s x team b).memsOk := by
  unfold blame
  grind [← ueRead_memsOk, ← raiseTeam_memsOk, ← raiseLanes_memsOk]

theorem checkedWith_memsOk {x team want n las more go} (h : s.memsOk) (hgo : ∀ y y1, y.memsOk → (go y y1).memsOk) :
    (checkedWith s x team want n las more go).memsOk := by
  unfold checkedWith
  grind [← checkLanes_memsOk, ← blame_memsOk, ← charge_memsOk, ← abortTx_memsOk, ← ueRead_memsOk, ← park_memsOk]

theorem checked_memsOk {x team want n las go} (h : s.memsOk) (hgo : ∀ y y1, y.memsOk → (go y y1).memsOk) :
    (checked s x team want n las go).memsOk := by
  unfold checked
  grind [← checkedWith_memsOk]

theorem txJoin_memsOk {u x rd wr as t} (e : txJoin s u x rd wr as = .ok t) (h : s.memsOk) : t.1.memsOk := by
  unfold txJoin at e
  grind [← touch_memsOk, ← reachLine_memsOk, ← foldl_memsOk]

theorem txWord_memsOk {x tx rd wr as cycles go} (h : s.memsOk) : (txWord s x tx rd wr as cycles go).memsOk := by
  unfold txWord
  grind [→ txJoin_memsOk, ← charge_memsOk, ← abortTx_memsOk, ← step8_memsOk]

theorem enterOp_memsOk {x ctr kind accs strm cycles} (h : s.memsOk) :
    (enterOp s x ctr kind accs strm cycles).memsOk := h

theorem retireOp_memsOk {id o} (h : s.memsOk) : (retireOp s id o).memsOk := h

theorem landRegs_memsOk {u lane d n scalar x} (h : s.memsOk) : (landRegs s u lane d n scalar x).memsOk := h

theorem crewPut_memsOk {cu by_ sp a bs} (h : s.memsOk) : (crewPut s cu by_ sp a bs).memsOk := by
  unfold crewPut
  grind [← updCrew_memsOk, ← changeWord_memsOk, ← foldl_memsOk]

theorem loadLine_memsOk {o n d scalar line} (h : s.memsOk) : (loadLine s o n d scalar line).memsOk := by
  unfold loadLine
  grind [← coreReadLine_memsOk, ← reachLine_memsOk, ← landRegs_memsOk, ← foldl_memsOk]

theorem performLoad_memsOk {o sp n d scalar} (h : s.memsOk) : (performLoad s o sp n d scalar).memsOk := by
  unfold performLoad
  grind [← loadLine_memsOk, ← landRegs_memsOk, ← foldl_memsOk]

theorem performStore_memsOk {o sp n} (h : s.memsOk) : (performStore s o sp n).memsOk := by
  unfold performStore
  grind [← coreWrite_memsOk, ← homeWrite_memsOk, ← crewPut_memsOk, ← foldl_memsOk]

theorem acquireAt_memsOk {key sc} (h : s.memsOk) : (acquireAt s key sc).memsOk := by
  unfold acquireAt
  grind [← l1Acquire_memsOk]

theorem performAtom_memsOk {o ty op d acq} (h : s.memsOk) : (performAtom s o ty op d acq).memsOk := by
  unfold performAtom
  grind [← homeAtomic_memsOk, ← landRegs_memsOk, ← acquireAt_memsOk, ← foldl_memsOk]

theorem performRed_memsOk {o ty op home} (h : s.memsOk) : (performRed s o ty op home).memsOk :=
  foldl_memsOk (fun _ _ h => coreRed_memsOk h) _ _ h

theorem performFlush_memsOk {o inv n} (h : s.memsOk) : (performFlush s o inv n).memsOk := by
  unfold performFlush
  grind [← flushLine_memsOk, ← foldl_memsOk]

theorem performOp_memsOk {o} (h : s.memsOk) : (performOp s o).memsOk := by
  unfold performOp
  grind [← touch_memsOk, ← performLoad_memsOk, ← performStore_memsOk, ← performAtom_memsOk, ← performRed_memsOk,
    ← performFlush_memsOk, ← foldl_memsOk]

theorem happen_memsOk {o} (h : s.memsOk) (ho : ∀ t, o = some t → t.memsOk) : Result.memsOk (happen s o) := by
  cases o with
  | none => exact next_memsOk h
  | some t => exact next_memsOk (ho t rfl)

theorem hostTakes_memsOk {mgmt o} (h : s.memsOk) (ho : ∀ t, o = some t → t.memsOk) :
    Result.memsOk (hostTakes s mgmt o) := by
  unfold hostTakes
  refine happen_memsOk h fun t e => ?_
  grind []

theorem hostTakes_some_memsOk {mgmt t} (h : s.memsOk) (ht : t.memsOk) : Result.memsOk (hostTakes s mgmt (some t)) :=
  hostTakes_memsOk h fun u e => by cases e; exact ht

theorem releaseAt_memsOk {key sc} (h : s.memsOk) : (releaseAt s key sc).memsOk := by
  unfold releaseAt
  grind [← l1Clean_memsOk]

/-! ## Memory -/

theorem txLoad_memsOk {x tx n d scalar hs cycles} (h : s.memsOk) : (txLoad s x tx n d scalar hs cycles).memsOk :=
  txWord_memsOk h

theorem txStore_memsOk {x tx n data hs cycles} (h : s.memsOk) : (txStore s x tx n data hs cycles).memsOk :=
  txWord_memsOk h

theorem loadGlobal_memsOk {x team n d strm las cycles} (h : s.memsOk) :
    (loadGlobal s x team n d strm las cycles).memsOk := by
  unfold loadGlobal
  grind [← checked_memsOk, ← reach_memsOk, ← txLoad_memsOk, ← enterOp_memsOk, ← foldl_memsOk]

theorem storeGlobal_memsOk {x team n strm las data cycles} (h : s.memsOk) :
    (storeGlobal s x team n strm las data cycles).memsOk := by
  unfold storeGlobal
  grind [← checked_memsOk, ← reach_memsOk, ← txStore_memsOk, ← enterOp_memsOk, ← foldl_memsOk]

theorem memWord_memsOk {x g ctr bounds cycles go} (h : s.memsOk) (hgo : ∀ y, (go y).memsOk) :
    (memWord s x g ctr bounds cycles go).memsOk := by
  unfold memWord
  grind [← step8_memsOk, ← raiseLanes_memsOk]

theorem execLd_memsOk {g sz strm d base ofs} (h : s.memsOk) : Result.memsOk (execLd g sz strm d base ofs s) := by
  unfold execLd
  refine issue_memsOk fun x => ?_
  grind [← memWord_memsOk, ← loadGlobal_memsOk]

theorem execSt_memsOk {g sz strm data base ofs} (h : s.memsOk) :
    Result.memsOk (execSt g sz strm data base ofs s) := by
  unfold execSt
  refine issue_memsOk fun x => ?_
  grind [← memWord_memsOk, ← storeGlobal_memsOk]

theorem execLds_memsOk {sz strm d base ofs} (h : s.memsOk) : Result.memsOk (execLds sz strm d base ofs s) := by
  unfold execLds
  refine issue_memsOk fun x => ?_
  grind [← loadGlobal_memsOk]

theorem execSts_memsOk {sz strm data base ofs} (h : s.memsOk) : Result.memsOk (execSts sz strm data base ofs s) := by
  unfold execSts
  refine issue_memsOk fun x => ?_
  grind [← storeGlobal_memsOk]

theorem loadTyped_memsOk {x g sp sz d base ofs} (h : s.memsOk) : (loadTyped s x g sp sz d base ofs).memsOk := by
  unfold loadTyped
  grind [← memWord_memsOk, ← raiseLanes_memsOk, ← enterOp_memsOk]

theorem storeTyped_memsOk {x g sp sz data base ofs} (h : s.memsOk) :
    (storeTyped s x g sp sz data base ofs).memsOk := by
  unfold storeTyped
  grind [← memWord_memsOk, ← raiseLanes_memsOk, ← enterOp_memsOk]

theorem execLdl_memsOk {g sz _strm d base ofs} (h : s.memsOk) : Result.memsOk (execLdl g sz _strm d base ofs s) :=
  issue_memsOk fun _ => loadTyped_memsOk h

theorem execStl_memsOk {g sz _strm data base ofs} (h : s.memsOk) :
    Result.memsOk (execStl g sz _strm data base ofs s) :=
  issue_memsOk fun _ => storeTyped_memsOk h

theorem execLda_memsOk {g sz _strm d base ofs} (h : s.memsOk) : Result.memsOk (execLda g sz _strm d base ofs s) :=
  issue_memsOk fun _ => loadTyped_memsOk h

theorem execSta_memsOk {g sz _strm data base ofs} (h : s.memsOk) :
    Result.memsOk (execSta g sz _strm data base ofs s) :=
  issue_memsOk fun _ => storeTyped_memsOk h

theorem execPref_memsOk {g sz strm base ofs} (h : s.memsOk) : Result.memsOk (execPref g sz strm base ofs s) := by
  unfold execPref
  refine issue_memsOk fun x => ?_
  grind [← step8_memsOk, ← checkLanes_memsOk, ← reachLine_memsOk, ← coreRead_memsOk, ← foldl_memsOk]

theorem maintain_memsOk {x g sz base ofs kind} (h : s.memsOk) : (maintain s x g sz base ofs kind).memsOk := by
  unfold maintain
  grind [← forbid_memsOk, ← memWord_memsOk, ← checked_memsOk, ← enterOp_memsOk]

theorem execCflush_memsOk {g sz _strm base ofs} (h : s.memsOk) : Result.memsOk (execCflush g sz _strm base ofs s) :=
  issue_memsOk fun _ => maintain_memsOk h

theorem execCinv_memsOk {g sz _strm base ofs} (h : s.memsOk) : Result.memsOk (execCinv g sz _strm base ofs s) :=
  issue_memsOk fun _ => maintain_memsOk h

theorem cleanAfter_memsOk {o} (h : s.memsOk) : (cleanAfter s o).memsOk := by
  unfold cleanAfter
  grind [← l1Clean_memsOk]

theorem complete_memsOk {id ctr t} (e : complete s id ctr = some t) (h : s.memsOk) : t.memsOk := by
  unfold complete at e
  grind [← retireOp_memsOk, ← cleanAfter_memsOk, ← performOp_memsOk, ← ueRead_memsOk, ← hold_memsOk]

theorem execLoadDataWritten_memsOk {op} (h : s.memsOk) : Result.memsOk (execLoadDataWritten op s) := by
  unfold execLoadDataWritten
  refine happen_memsOk h fun t e => ?_
  grind [→ complete_memsOk]

theorem execStorePerformed_memsOk {op} (h : s.memsOk) : Result.memsOk (execStorePerformed op s) := by
  unfold execStorePerformed
  refine happen_memsOk h fun t e => ?_
  grind [→ complete_memsOk]

/-! ## Atomic -/

theorem relDone_memsOk {x ord sc} (h : s.memsOk) : (relDone s x ord sc).memsOk := by
  unfold relDone
  grind [← releaseAt_memsOk]

theorem txAtomic_memsOk {x tx ty op d isRed b hs cycles} (h : s.memsOk) :
    (txAtomic s x tx ty op d isRed b hs cycles).memsOk :=
  txWord_memsOk h

theorem atomicWord_memsOk {x g ty op ord sc d base b ctr kind isRed} (h : s.memsOk) :
    (atomicWord s x g ty op ord sc d base b ctr kind isRed).memsOk := by
  unfold atomicWord
  grind [← memWord_memsOk, ← checked_memsOk, ← txAtomic_memsOk, ← enterOp_memsOk, ← relDone_memsOk]

theorem execAtom_memsOk {g ty op ord scope d base b} (h : s.memsOk) :
    Result.memsOk (execAtom g ty op ord scope d base b s) :=
  issue_memsOk fun _ => atomicWord_memsOk h

theorem execRed_memsOk {g ty op ord scope base b} (h : s.memsOk) :
    Result.memsOk (execRed g ty op ord scope base b s) :=
  issue_memsOk fun _ => atomicWord_memsOk h

/-! ## Remote -/

theorem sendPacket_memsOk {op o pa c} (h : s.memsOk) : (sendPacket s op o pa c).memsOk := h

theorem placeAdds_memsOk {o as} (h : s.memsOk) : (placeAdds s o as).2.memsOk := by
  induction as generalizing s with
  | nil => exact h
  | cons x xs ih =>
    unfold placeAdds
    grind [← memsOk_mk, ← memsOk_mem, ← memsOk_hostMem]

theorem sendEngine_memsOk {isl tenant ctx no piece pa span c} (h : s.memsOk) :
    (sendEngine s isl tenant ctx no piece pa span c).memsOk := h

theorem sendReply_memsOk {p c} (h : s.memsOk) : (sendReply s p c).memsOk := h

theorem enterRemote_memsOk {x kind accs ps ctrs later cycles} (h : s.memsOk) :
    (enterRemote s x kind accs ps ctrs later cycles).memsOk := by
  unfold enterRemote
  grind [← addOp_memsOk, ← sendPacket_memsOk, ← placeAdds_memsOk, ← step8_memsOk, ← foldl_memsOk, ← memsOk_mk,
    ← memsOk_mem, ← memsOk_hostMem]

theorem remoteWord_memsOk {x g bounds cycles go} (h : s.memsOk) (hgo : ∀ y, (go y).memsOk) :
    (remoteWord s x g bounds cycles go).memsOk := by
  unfold remoteWord
  grind [← forbid_memsOk, ← memWord_memsOk]

theorem execPut_memsOk {g sz data base ofs} (h : s.memsOk) : Result.memsOk (execPut g sz data base ofs s) := by
  unfold execPut
  refine issue_memsOk fun x => ?_
  grind [← remoteWord_memsOk, ← checked_memsOk, ← enterRemote_memsOk]

theorem execGet_memsOk {g sz d base ofs} (h : s.memsOk) : Result.memsOk (execGet g sz d base ofs s) := by
  unfold execGet
  refine issue_memsOk fun x => ?_
  grind [← remoteWord_memsOk, ← checked_memsOk, ← enterRemote_memsOk]

theorem execRatom_memsOk {g ty op ord scope d base b} (h : s.memsOk) :
    Result.memsOk (execRatom g ty op ord scope d base b s) := by
  unfold execRatom
  refine issue_memsOk fun x => ?_
  grind [← remoteWord_memsOk, ← checked_memsOk, ← enterRemote_memsOk, ← relDone_memsOk]

theorem checked2_memsOk {x w1 n1 l1 w2 n2 l2 go} (h : s.memsOk) (hgo : ∀ y y1 y2, y.memsOk → (go y y1 y2).memsOk) :
    (checked2 s x w1 n1 l1 w2 n2 l2 go).memsOk := by
  unfold checked2
  grind [← checkLanes_memsOk, ← blame_memsOk, ← park_memsOk]

theorem execPutn_memsOk {g sz data base ctr inc} (h : s.memsOk) :
    Result.memsOk (execPutn g sz data base ctr inc s) := by
  unfold execPutn
  refine issue_memsOk fun x => ?_
  grind [← remoteWord_memsOk, ← checked2_memsOk, ← enterRemote_memsOk]

theorem execPutm_memsOk {g sz data base mask stride} (h : s.memsOk) :
    Result.memsOk (execPutm g sz data base mask stride s) := by
  unfold execPutm
  refine issue_memsOk fun x => ?_
  grind [← remoteWord_memsOk, ← checkLanes_memsOk, ← blame_memsOk, ← reach_memsOk, ← enterRemote_memsOk,
    ← park_memsOk, ← foldl_memsOk]

theorem landChunk_memsOk {isl tag bs} (h : s.memsOk) : (landChunk s isl tag bs).memsOk := h

theorem strikeChunk_memsOk {isl tag read} (h : s.memsOk) : (strikeChunk s isl tag read).memsOk := by
  unfold strikeChunk
  grind [← strikeCrew_memsOk]

theorem performRequest_memsOk {p} (h : s.memsOk) : (performRequest s p).memsOk := by
  unfold performRequest
  grind [← touch_memsOk, ← sendReply_memsOk, ← homeWrite_memsOk, ← homeRead_memsOk, ← homeAtomic_memsOk,
    ← homeAdd_memsOk, ← addMsg_memsOk, ← memsOk_mk, ← memsOk_mem, ← memsOk_hostMem]

theorem requestUe_memsOk {p} (h : s.memsOk) : (requestUe s p).memsOk := by
  unfold requestUe
  grind [← sendReply_memsOk, ← strikeChunk_memsOk, ← ueRead_memsOk, ← memsOk_mk, ← memsOk_mem, ← memsOk_hostMem]

theorem landOne_memsOk {id} (h : s.memsOk) : (landOne s id).memsOk := by
  unfold landOne
  grind [← sendAdd_memsOk, ← foldl_memsOk, ← memsOk_mk, ← memsOk_mem, ← memsOk_hostMem]

theorem landReply_memsOk {p} (h : s.memsOk) : (landReply s p).memsOk := by
  unfold landReply
  grind [← landChunk_memsOk, ← landRegs_memsOk, ← landOne_memsOk, ← memsOk_mk, ← memsOk_mem, ← memsOk_hostMem]

theorem execPacketDelivery_memsOk {pkt} (h : s.memsOk) : Result.memsOk (execPacketDelivery pkt s) := by
  unfold execPacketDelivery
  refine happen_memsOk h fun t e => ?_
  grind [← landReply_memsOk, ← requestUe_memsOk, ← performRequest_memsOk, ← hold_memsOk, ← memsOk_mk, ← memsOk_mem,
    ← memsOk_hostMem]

theorem execRemoteAcknowledge_memsOk {op} (h : s.memsOk) : Result.memsOk (execRemoteAcknowledge op s) := by
  unfold execRemoteAcknowledge
  refine happen_memsOk h fun t e => ?_
  grind [← retireOp_memsOk, ← acquireAt_memsOk]

/-! ## Engine -/

theorem barrierUpdate_memsOk {cu by_ off b arrive} (h : s.memsOk) : (barrierUpdate s cu by_ off b arrive).memsOk := by
  unfold barrierUpdate
  grind [← crewPut_memsOk]

theorem completionRelease_memsOk {cu bar bytes off timeline} (h : s.memsOk) :
    (completionRelease s cu bar bytes off timeline).memsOk := by
  unfold completionRelease
  grind [← barrierUpdate_memsOk, ← mirrorWrite_memsOk]

theorem askDeadline_memsOk {d} (h : s.memsOk) : (askDeadline s d).2.memsOk := h

theorem askSave_memsOk {isl tenant} (h : s.memsOk) : (askSave s isl tenant).memsOk := h

theorem serveDeadline_memsOk {req} (h : s.memsOk) : (serveDeadline s req).memsOk := by
  unfold serveDeadline
  grind [← updIsl_memsOk, ← memsOk_mk, ← memsOk_mem, ← memsOk_hostMem]

theorem wPut_memsOk {c a bs} (h : s.memsOk) : (wPut s c a bs).memsOk := h

theorem reachPieces_memsOk {isl tenant want ps} (h : s.memsOk) : (reachPieces s isl tenant want ps).2.memsOk := by
  induction ps generalizing s with
  | nil => exact h
  | cons x xs ih =>
    unfold reachPieces
    grind [← checkAccess_memsOk]

theorem reachRange_memsOk {isl tenant want va n} (h : s.memsOk) : (reachRange s isl tenant want va n).2.memsOk :=
  reachPieces_memsOk h

theorem reachRange_memsOk_of_eq {isl tenant want va n} {a t} (e : reachRange s isl tenant want va n = (a, t))
    (h : s.memsOk) :
    t.memsOk := by
  have h1 : (reachRange s isl tenant want va n).2.memsOk := reachRange_memsOk h
  rwa [e] at h1

theorem writePieces_memsOk {tag ps bs} (h : s.memsOk) : (writePieces s tag ps bs).memsOk := by
  induction ps generalizing s bs with
  | nil => exact h
  | cons x xs ih =>
    unfold writePieces
    grind [← homeWrite_memsOk, ← touch_memsOk]

theorem engineFault_memsOk {isl who k va write demand copy} (h : s.memsOk) :
    (engineFault s isl who k va write demand copy).memsOk :=
  faultEnter_memsOk h

/-! ## Matrix -/

theorem takeBank_memsOk {isl key n} (h : s.memsOk) : (takeBank s isl key n).2.memsOk := by
  unfold takeBank
  grind [← updIsl_memsOk, ← updEngine_memsOk]

theorem grantCtx_memsOk {cu n} (h : s.memsOk) : (grantCtx s cu n).memsOk := by
  unfold grantCtx
  grind [← takeBank_memsOk, ← updEngine_memsOk, ← mirrorWrite_memsOk, ← updCrew_memsOk]

theorem execMacq_memsOk {p} (h : s.memsOk) : Result.memsOk (execMacq p s) := by
  unfold execMacq
  refine issue_memsOk fun x => ?_
  grind [← forbid_memsOk, ← step8_memsOk, ← grantCtx_memsOk]

theorem mxWord_memsOk {f} (h : s.memsOk) (hf : ∀ y, (f y).memsOk) : Result.memsOk (mxWord s f) := by
  unfold mxWord
  refine issue_memsOk fun x => ?_
  grind [← forbid_memsOk]

theorem mxCommand_memsOk {f} (h : s.memsOk) (hf : ∀ x, (f x).memsOk) : Result.memsOk (mxCommand s f) := by
  unfold mxCommand
  grind [← mxWord_memsOk, ← next_memsOk, ← fault_memsOk, ← refused_memsOk]

theorem withCtx_memsOk {x f} (h : s.memsOk) (hf : ∀ y, (f y).memsOk) : (withCtx s x f).memsOk := by
  unfold withCtx
  grind [← raiseTeam_memsOk]

theorem execMrel_memsOk (h : s.memsOk) : Result.memsOk (execMrel s) := by
  unfold execMrel
  grind [← mxWord_memsOk, ← withCtx_memsOk, ← step8_memsOk, ← updCrew_memsOk, ← updMx_memsOk, ← next_memsOk,
    ← fault_memsOk, ← refused_memsOk]

theorem execMgang_memsOk {n} (h : s.memsOk) : Result.memsOk (execMgang n s) := by
  unfold execMgang
  grind [← mxWord_memsOk, ← step8_memsOk, ← raiseTeam_memsOk, ← next_memsOk, ← fault_memsOk, ← refused_memsOk]

theorem submit_memsOk {cu team ty kind bar} (h : s.memsOk) : (submit s cu team ty kind bar).memsOk := by
  unfold submit
  grind [← l1Clean_memsOk, ← updEngine_memsOk, ← updMx_memsOk]

theorem command_memsOk {x bar causes kind} (h : s.memsOk) : (command s x bar causes kind).memsOk := by
  unfold command
  grind [← raiseTeam_memsOk, ← step8_memsOk, ← submit_memsOk]

theorem execMwld_memsOk {w bar} (h : s.memsOk) : Result.memsOk (execMwld w bar s) := by
  unfold execMwld
  grind [← mxCommand_memsOk, ← command_memsOk, ← next_memsOk, ← fault_memsOk, ← refused_memsOk]

theorem execMma_memsOk {src row0 rows ct acc bar} (h : s.memsOk) :
    Result.memsOk (execMma src row0 rows ct acc bar s) := by
  unfold execMma
  grind [← mxCommand_memsOk, ← command_memsOk, ← next_memsOk, ← fault_memsOk, ← refused_memsOk]

theorem unlatch_memsOk {us} (h : s.memsOk) : (unlatch s us).memsOk :=
  foldl_memsOk (fun _ _ h => updTeam_memsOk h) _ _ h

theorem formLatchOf_memsOk {x u} (h : s.memsOk) : (formLatchOf s x u).memsOk := by
  unfold formLatchOf
  grind [← gangLost_memsOk, ← gangRelease_memsOk, ← unlatch_memsOk, ← submit_memsOk]

theorem formLatch_memsOk {x} (h : s.memsOk) : (formLatch s x).memsOk := by
  unfold formLatch
  grind [← formLatchOf_memsOk, ← foldl_memsOk]

theorem execMmag_memsOk {asrc row0 rows ct acc bar} (h : s.memsOk) :
    Result.memsOk (execMmag asrc row0 rows ct acc bar s) := by
  unfold execMmag
  refine mxCommand_memsOk h fun x => ?_
  extract_lets n base first ctx own seq l src latched
  have hl : latched.memsOk := finish_memsOk (l1Clean_memsOk h)
  clear_value latched
  split
  · exact h
  · split
    · exact raiseTeam_memsOk h
    · exact formLatch_memsOk hl

theorem execMdrn_memsOk {clr quant dst bias geom ct toW act bar} (h : s.memsOk) :
    Result.memsOk (execMdrn clr quant dst bias geom ct toW act bar s) := by
  unfold execMdrn
  grind [← mxCommand_memsOk, ← command_memsOk, ← next_memsOk, ← fault_memsOk, ← refused_memsOk]

theorem execMzro_memsOk {mask bar} (h : s.memsOk) : Result.memsOk (execMzro mask bar s) := by
  unfold execMzro
  grind [← mxCommand_memsOk, ← command_memsOk, ← next_memsOk, ← fault_memsOk, ← refused_memsOk]

theorem execMpoly_memsOk {xt yt pt deg bar} (h : s.memsOk) : Result.memsOk (execMpoly xt yt pt deg bar s) := by
  unfold execMpoly
  grind [← mxCommand_memsOk, ← command_memsOk, ← next_memsOk, ← fault_memsOk, ← refused_memsOk]

theorem execMiter_memsOk {form frob xt at_ scr cap thr bar} (h : s.memsOk) :
    Result.memsOk (execMiter form frob xt at_ scr cap thr bar s) := by
  unfold execMiter
  grind [← mxCommand_memsOk, ← command_memsOk, ← next_memsOk, ← fault_memsOk, ← refused_memsOk]

theorem execMtab_memsOk {w bar} (h : s.memsOk) : Result.memsOk (execMtab w bar s) := by
  unfold execMtab
  grind [← mxCommand_memsOk, ← command_memsOk, ← next_memsOk, ← fault_memsOk, ← refused_memsOk]

theorem slabWord_memsOk {v f} (h : s.memsOk) (hf : ∀ x y1 y2, (f x y1 y2).memsOk) :
    Result.memsOk (slabWord s v f) := by
  unfold slabWord
  grind [← mxWord_memsOk, ← raiseTeam_memsOk, ← withCtx_memsOk, ← next_memsOk, ← fault_memsOk, ← refused_memsOk]

theorem execMtld_memsOk {v ct slab} (h : s.memsOk) : Result.memsOk (execMtld v ct slab s) := by
  unfold execMtld
  grind [← slabWord_memsOk, ← step8_memsOk, ← foldl_memsOk, ← next_memsOk, ← fault_memsOk, ← refused_memsOk]

theorem execMtst_memsOk {v ct slab} (h : s.memsOk) : Result.memsOk (execMtst v ct slab s) := by
  unfold execMtst
  grind [← slabWord_memsOk, ← updEngine_memsOk, ← step8_memsOk, ← foldl_memsOk, ← next_memsOk, ← fault_memsOk,
    ← refused_memsOk]

theorem execMstat_memsOk {d item} (h : s.memsOk) : Result.memsOk (execMstat d item s) := by
  unfold execMstat
  grind [← mxWord_memsOk, ← withCtx_memsOk, ← step8_memsOk, ← next_memsOk, ← fault_memsOk, ← refused_memsOk]

theorem setMx_memsOk {hd f} (h : s.memsOk) : (setMx s hd f).memsOk := h

theorem mxComplete_memsOk {hd bytes} (h : s.memsOk) : (mxComplete s hd bytes).memsOk :=
  releaseExited_memsOk (completionRelease_memsOk h)

theorem execArrayArbitration_memsOk {isl cluster} (h : s.memsOk) :
    Result.memsOk (execArrayArbitration isl cluster s) := by
  unfold execArrayArbitration
  refine happen_memsOk h fun t e => ?_
  grind [← setMx_memsOk]

theorem execArrayRequestPromotion_memsOk {isl cluster ctx} (h : s.memsOk) :
    Result.memsOk (execArrayRequestPromotion isl cluster ctx s) := by
  unfold execArrayRequestPromotion
  refine happen_memsOk h fun t e => ?_
  grind [← setMx_memsOk]

theorem performMma_memsOk {hd fb slabs row0 ct acc bfmt} (h : s.memsOk) :
    (performMma s hd fb slabs row0 ct acc bfmt).memsOk := h

theorem performMdrn_memsOk {hd ct dst toW bias act quant rs pb row0 rows clr} (h : s.memsOk) :
    (performMdrn s hd ct dst toW bias act quant rs pb row0 rows clr).memsOk := by
  unfold performMdrn
  grind [← wPut_memsOk, ← crewPut_memsOk, ← updEngine_memsOk, ← foldl_memsOk]

theorem performMtab_memsOk {hd base} (h : s.memsOk) : (performMtab s hd base).memsOk := by
  unfold performMtab
  grind [← updEngine_memsOk, ← setMx_memsOk]

theorem performCommand_memsOk {hd t} (e : performCommand s hd = some t) (h : s.memsOk) : t.memsOk := by
  unfold performCommand at e
  grind [← mxComplete_memsOk, ← setMx_memsOk, ← performMma_memsOk, ← performMdrn_memsOk, ← updEngine_memsOk,
    ← performMtab_memsOk, ← foldl_memsOk]

theorem execMatrixCommandComplete_memsOk {isl cluster ctx} (h : s.memsOk) :
    Result.memsOk (execMatrixCommandComplete isl cluster ctx s) := by
  unfold execMatrixCommandComplete
  refine happen_memsOk h fun t e => ?_
  grind [Option.bind_eq_some_iff, → performCommand_memsOk]

theorem putTiles_memsOk {hd en plane} (h : s.memsOk) : (putTiles s hd en plane).memsOk := by
  unfold putTiles
  grind [← updEngine_memsOk, ← setMx_memsOk]

theorem phaseEnd_memsOk {hd l} (h : s.memsOk) : (phaseEnd s hd l).memsOk := h

theorem mpolyPhase_memsOk {hd x y p deg} (h : s.memsOk) : (mpolyPhase s hd x y p deg).memsOk := by
  unfold mpolyPhase
  grind [← phaseEnd_memsOk, ← putTiles_memsOk, ← mxComplete_memsOk, ← setMx_memsOk]

theorem miterDiverges_memsOk {hd l} (h : s.memsOk) : (miterDiverges s hd l).memsOk :=
  raiseEngine_memsOk h

theorem miterPhase_memsOk {hd form frob x a scr cap thr} (h : s.memsOk) :
    (miterPhase s hd form frob x a scr cap thr).memsOk := by
  unfold miterPhase
  grind [← phaseEnd_memsOk, ← putTiles_memsOk, ← miterDiverges_memsOk, ← mxComplete_memsOk, ← setMx_memsOk]

theorem execMiterPhase_memsOk {isl cluster ctx} (h : s.memsOk) :
    Result.memsOk (execMiterPhase isl cluster ctx s) := by
  unfold execMiterPhase
  refine happen_memsOk h fun t e => ?_
  grind [Option.bind_eq_some_iff, ← mpolyPhase_memsOk, ← miterPhase_memsOk]

theorem miterResumed_memsOk {cu} (h : s.memsOk) : (miterResumed s cu).memsOk := by
  unfold miterResumed
  grind [← mxComplete_memsOk, ← setMx_memsOk]

end Sys2Proof.Machine
end


-- ==== Proofs/FormDispatch.lean ====
section
/-! PROOFS. Flits, records, the dispatcher, bins, collectives, copies, pre-emption and deadlines keep both memories in canonical
form. -/

namespace Sys2Proof.Machine

variable {s : State}

/-! ## Records -/

theorem acceptRec_memsOk {q r} (h : s.memsOk) : (acceptRec s q r).memsOk := by
  unfold acceptRec
  grind [← updQueue_memsOk, ← updPcp_memsOk, ← finishRecord_memsOk, ← memsOk_mk, ← memsOk_mem, ← memsOk_hostMem]

theorem acceptWaiting_memsOk {n q} (h : s.memsOk) : (acceptWaiting n q s).memsOk := by
  induction n generalizing s with
  | zero => exact h
  | succ n ih =>
    unfold acceptWaiting
    grind [← updQueue_memsOk, ← acceptRec_memsOk]

theorem takeCopy_memsOk {q slot bs} (h : s.memsOk) : (takeCopy s q slot bs).memsOk := by
  unfold takeCopy
  dsimp only
  split
  · exact event_memsOk _ _ _ _ _ _ _ h
  · split
    · exact acceptWaiting_memsOk (acceptRec_memsOk h)
    · split
      · exact updQueue_memsOk h
      · exact event_memsOk _ _ _ _ _ _ _ h

theorem windowWrite_memsOk {q off bs} (h : s.memsOk) : (windowWrite s q off bs).memsOk := by
  unfold windowWrite
  grind [← updQueue_memsOk, ← takeCopy_memsOk, ← foldl_memsOk]

theorem execRecordSlotWrite_memsOk {q off bytes} (h : s.memsOk) :
    Result.memsOk (execRecordSlotWrite q off bytes s) := by
  unfold execRecordSlotWrite
  refine hostTakes_memsOk h fun t e => ?_
  grind [← clocks_memsOk, ← windowWrite_memsOk]

theorem execRecordWindowWrite_memsOk {q off bytes} (h : s.memsOk) :
    Result.memsOk (execRecordWindowWrite q off bytes s) := by
  unfold execRecordWindowWrite
  refine hostTakes_memsOk h fun t e => ?_
  grind [← clocks_memsOk, ← windowWrite_memsOk]

theorem execRequestDatagram_memsOk {addr port frame payload} (h : s.memsOk) :
    Result.memsOk (execRequestDatagram addr port frame payload s) := by
  unfold execRequestDatagram
  grind [← event_memsOk, ← clocks_memsOk, ← takeCopy_memsOk, ← updQueue_memsOk, ← foldl_memsOk, ← next_memsOk,
    ← fault_memsOk, ← refused_memsOk]

theorem readImage_memsOk {tenant l} (h : s.memsOk) : (readImage s tenant l).2.memsOk := by
  unfold readImage
  grind [← pcpRead_memsOk]

theorem readHolds_memsOk {tenant l js} (h : s.memsOk) : (readHolds s tenant l js).2.memsOk := by
  induction js generalizing s with
  | nil => exact h
  | cons x xs ih =>
    unfold readHolds
    grind [← pcpTouch_memsOk, ← homeRead_memsOk, ← touch_memsOk]

theorem releaseKernel_memsOk {kid} (h : s.memsOk) : (releaseKernel s kid).memsOk := h

theorem pollHolds_memsOk {kid} (h : s.memsOk) : (pollHolds s kid).memsOk := by
  unfold pollHolds
  grind [← updKernel_memsOk, ← readHolds_memsOk, ← endKernel_memsOk, ← releaseKernel_memsOk, ← crumbAdd_memsOk,
    ← foldl_memsOk]

theorem execHoldCounterWake_memsOk {kernel} (h : s.memsOk) : Result.memsOk (execHoldCounterWake kernel s) := by
  unfold execHoldCounterWake
  refine happen_memsOk h fun t e => ?_
  grind [Option.bind_eq_some_iff, ← clocks_memsOk, ← pollHolds_memsOk]

theorem deliverMsg_memsOk {kid k q r t} (e : deliverMsg s kid k q r = some t) (h : s.memsOk) : t.memsOk := by
  unfold deliverMsg at e
  grind [← finishRecord_memsOk, ← addMsg_memsOk]

theorem takeMessage_memsOk {q r kid t} (e : takeMessage s q r kid = some t) (h : s.memsOk) : t.memsOk := by
  unfold takeMessage at e
  grind [← finishRecord_memsOk, ← updKernel_memsOk, → deliverMsg_memsOk]

theorem signalAdd_memsOk {tenant va inc t} (e : signalAdd s tenant va inc = some t) (h : s.memsOk) : t.2.memsOk := by
  unfold signalAdd at e
  grind [← pcpTouch_memsOk, ← homeAdd_memsOk, ← touch_memsOk]

theorem checkWaiting_memsOk {kid img} (h : s.memsOk) : (checkWaiting s kid img).memsOk := by
  unfold checkWaiting
  grind [← updKernel_memsOk, ← finishRecord_memsOk, ← foldl_memsOk, ← memsOk_mk, ← memsOk_mem, ← memsOk_hostMem]

theorem takeLaunch_memsOk {level kid} (h : s.memsOk) : (takeLaunch s level kid).memsOk := by
  unfold takeLaunch
  grind [← readImage_memsOk, ← endKernel_memsOk, ← updKernel_memsOk, ← checkWaiting_memsOk, ← releaseKernel_memsOk,
    ← pollHolds_memsOk]

theorem takeHead_memsOk {q t} (e : takeHead s q = some t) (h : s.memsOk) : t.memsOk := by
  unfold takeHead at e
  grind [Option.map_eq_some_iff, ← updQueue_memsOk, ← takeLaunch_memsOk, → takeMessage_memsOk,
    ← finishRecord_memsOk, → signalAdd_memsOk]

theorem afterTake_memsOk {q level} (h : s.memsOk) : (afterTake s q level).memsOk := h

theorem promoteDue_memsOk (h : s.memsOk) : (promoteDue s).memsOk := h

theorem execArbitrationDecision_memsOk (h : s.memsOk) : Result.memsOk (execArbitrationDecision s) := by
  unfold execArbitrationDecision
  refine happen_memsOk h fun t e => ?_
  grind [Option.map_eq_some_iff, ← promoteDue_memsOk, ← afterTake_memsOk, ← clocks_memsOk, ← updPcp_memsOk,
    → takeHead_memsOk]

theorem execQueuePromotion_memsOk {q} (h : s.memsOk) : Result.memsOk (execQueuePromotion q s) := by
  unfold execQueuePromotion
  refine happen_memsOk h fun t e => ?_
  grind [← updQueue_memsOk]

theorem dropWaiting_memsOk {ty} (h : s.memsOk) : (dropWaiting s ty).memsOk := h

theorem execQcfgWrite_memsOk {q v} (h : s.memsOk) : Result.memsOk (execQcfgWrite q v s) := by
  unfold execQcfgWrite
  refine hostTakes_memsOk h fun t e => ?_
  grind [← clocks_memsOk, ← updQueue_memsOk]

theorem execTcfgWrite_memsOk {ty v} (h : s.memsOk) : Result.memsOk (execTcfgWrite ty v s) := by
  unfold execTcfgWrite
  refine hostTakes_memsOk h fun t e => ?_
  grind [← updTenant_memsOk, ← dropWaiting_memsOk]

theorem execReleaseHeld_memsOk {q} (h : s.memsOk) : Result.memsOk (execReleaseHeld q s) := by
  unfold execReleaseHeld
  refine hostTakes_memsOk h fun t e => ?_
  grind [← releaseKernel_memsOk, ← foldl_memsOk]

/-! ## Dispatcher -/

theorem takeOverflow_memsOk {kid k isl t} (e : takeOverflow s kid k isl = some t) (h : s.memsOk) : t.memsOk := by
  unfold takeOverflow at e
  grind [Option.map_eq_some_iff, ← updKernel_memsOk, → takeFrame_memsOk]

theorem loadCode_memsOk {kid k key base size} (h : s.memsOk) : (loadCode s kid k key base size).memsOk := by
  unfold loadCode
  grind [← pcpRead_memsOk, ← updCore_memsOk, ← foldl_memsOk]

theorem startCrew_memsOk {kid k isl core idx} (h : s.memsOk) : (startCrew s kid k isl core idx).memsOk := by
  unfold startCrew
  grind [← updIsl_memsOk, ← loadCode_memsOk, → takeFrame_memsOk, ← fresh_memsOk, ← startCrewTeams_memsOk,
    ← binsAdvance_memsOk, ← l1Acquire_memsOk, ← memsOk_mk, ← memsOk_mem, ← memsOk_hostMem]

theorem flushMsgs_memsOk {kid ms} (h : s.memsOk) : (flushMsgs kid ms s).memsOk := by
  induction ms generalizing s with
  | nil => exact h
  | cons x xs ih =>
    unfold flushMsgs
    grind [← updKernel_memsOk, → deliverMsg_memsOk]

theorem flushWaiting_memsOk {kid} (h : s.memsOk) : (flushWaiting s kid).memsOk := by
  unfold flushWaiting
  grind [← flushMsgs_memsOk]

theorem placeCrew_memsOk {kid isls p} (h : s.memsOk) : (placeCrew s kid isls p).memsOk := by
  unfold placeCrew
  grind [← updPcp_memsOk, ← startCrew_memsOk, ← memsOk_mk, ← memsOk_mem, ← memsOk_hostMem]

theorem pinSegments_memsOk {kid isl} (h : s.memsOk) : (pinSegments s kid isl).memsOk := by
  unfold pinSegments
  grind [← loadCode_memsOk, ← startTeams_memsOk, ← updKernel_memsOk, ← foldl_memsOk]

theorem placePinned_memsOk {kid isls n} (h : s.memsOk) : (placePinned kid isls n s).memsOk := by
  induction n generalizing s with
  | zero => exact h
  | succ n ih =>
    unfold placePinned
    grind [← placeCrew_memsOk]

theorem codeStops_memsOk {kid k isl core va w} (h : s.memsOk) : (codeStops s kid k isl core va w).memsOk := by
  unfold codeStops
  grind [← faultEnter_memsOk, ← endKernel_memsOk]

theorem readAffinity_memsOk {k} (h : s.memsOk) : (readAffinity s k).memsOk := by
  unfold readAffinity
  grind [← pcpRead_memsOk]

theorem execCrewPlacement_memsOk {kernel} (h : s.memsOk) : Result.memsOk (execCrewPlacement kernel s) := by
  unfold execCrewPlacement
  refine happen_memsOk h fun t e => ?_
  obtain ⟨k, -, e⟩ := Option.bind_eq_some_iff.1 e
  split at e
  · cases e
  · split at e
    · cases e
      exact clocks_memsOk (endKernel_memsOk h)
    · obtain ⟨ip, -, e⟩ := Option.bind_eq_some_iff.1 e
      dsimp only at e
      split at e
      · cases e
        exact clocks_memsOk (codeStops_memsOk h)
      · obtain ⟨s1, e1, rfl⟩ := Option.map_eq_some_iff.1 e
        have h1 : s1.memsOk := takeOverflow_memsOk e1 (readAffinity_memsOk h)
        refine flushWaiting_memsOk ?_
        split
        · exact pinSegments_memsOk (placePinned_memsOk (placeCrew_memsOk h1))
        · exact placeCrew_memsOk h1

theorem execReservingKernel_memsOk (h : s.memsOk) : Result.memsOk (execReservingKernel s) := by
  unfold execReservingKernel
  refine happen_memsOk h fun t e => ?_
  dsimp only at e
  split at e
  · cases e
  · split at e
    · split at e
      · cases e; exact updPcp_memsOk h
      · cases e
    · cases e

theorem execRangeTakeRetry_memsOk {kernel isl} (h : s.memsOk) : Result.memsOk (execRangeTakeRetry kernel isl s) := by
  unfold execRangeTakeRetry
  refine happen_memsOk h fun t e => ?_
  grind [Option.bind_eq_some_iff, ← updKernel_memsOk]

/-! ## Bins -/

theorem toOverflow_memsOk {kid k en t} (e : toOverflow s kid k en = some t) (h : s.memsOk) : t.memsOk := by
  unfold toOverflow at e
  grind [← updKernel_memsOk]

theorem arrive_memsOk {en t} (e : arrive s en = some t) (h : s.memsOk) : t.memsOk := by
  unfold arrive at e
  grind [← forward_memsOk, → enterBin_memsOk, ← noteArrival_memsOk, → toOverflow_memsOk]

theorem execActiveMessage_memsOk {msg} (h : s.memsOk) : Result.memsOk (execActiveMessage msg s) := by
  unfold execActiveMessage
  refine happen_memsOk h fun t e => ?_
  grind [Option.bind_eq_some_iff, → arrive_memsOk, → enterEntry_memsOk, ← memsOk_mk, ← memsOk_mem, ← memsOk_hostMem]

theorem execBinTimerExpiry_memsOk {core bin} (h : s.memsOk) : Result.memsOk (execBinTimerExpiry core bin s) := by
  unfold execBinTimerExpiry
  refine happen_memsOk h fun t e => ?_
  grind [Option.bind_eq_some_iff, ← binAdvance_memsOk, ← updCore_memsOk]

theorem reinjectFrom_memsOk {es t} (e : reinjectFrom s es = some t) (h : s.memsOk) : t.1.memsOk := by
  induction es generalizing t with
  | nil => cases e
  | cons x es ih =>
    unfold reinjectFrom at e
    extract_lets x' takes at e
    split at e
    · cases e
      exact forward_memsOk h
    · obtain ⟨r, e1, rfl⟩ := Option.map_eq_some_iff.1 e
      exact ih (t := r) e1

theorem execPoolReinject_memsOk {isl} (h : s.memsOk) : Result.memsOk (execPoolReinject isl s) := by
  unfold execPoolReinject
  refine happen_memsOk h fun t e => ?_
  grind [Option.map_eq_some_iff, ← updIsl_memsOk, ← clocks_memsOk, ← flushWaiting_memsOk, → reinjectFrom_memsOk,
    ← foldl_memsOk]

theorem overflowFrom_memsOk {kid k es t} (e : overflowFrom s kid k es = some t) (h : s.memsOk) : t.1.memsOk := by
  induction es generalizing t with
  | nil => cases e
  | cons x es ih =>
    unfold overflowFrom at e
    dsimp only at e
    split at e
    · next e1 =>
      cases e
      split at e1
      · exact enterBin_memsOk e1 (noteArrival_memsOk h)
      · cases e1
    · obtain ⟨r, e1, rfl⟩ := Option.map_eq_some_iff.1 e
      exact ih (t := r) e1

theorem execOverflowReinject_memsOk {kernel} (h : s.memsOk) : Result.memsOk (execOverflowReinject kernel s) := by
  unfold execOverflowReinject
  refine happen_memsOk h fun t e => ?_
  grind [Option.map_eq_some_iff, Option.bind_eq_some_iff, ← updKernel_memsOk, → overflowFrom_memsOk]

theorem unpin_memsOk {kid} (h : s.memsOk) : (unpin s kid).memsOk := by
  unfold unpin
  grind [← updCore_memsOk, ← foldl_memsOk]

theorem refreshMap_memsOk {kid k} (h : s.memsOk) : (refreshMap s kid k).memsOk :=
  unpin_memsOk h

theorem execSegmentMapRefresh_memsOk {kernel} (h : s.memsOk) : Result.memsOk (execSegmentMapRefresh kernel s) := by
  unfold execSegmentMapRefresh
  refine happen_memsOk h fun t e => ?_
  grind [Option.bind_eq_some_iff, ← refreshMap_memsOk]

theorem addReplica_memsOk {kid k isl seg core old g} (h : s.memsOk) :
    (addReplica s kid k isl seg core old g).memsOk :=
  updKernel_memsOk (loadCode_memsOk h)

theorem replicaWindow_memsOk {kid seg k m g} (h : s.memsOk) : (replicaWindow s kid seg k m g).memsOk := by
  unfold replicaWindow
  grind [← updKernel_memsOk, ← clocks_memsOk, ← codeStops_memsOk, ← addReplica_memsOk]

theorem execReplicaWindow_memsOk {kernel seg} (h : s.memsOk) : Result.memsOk (execReplicaWindow kernel seg s) := by
  unfold execReplicaWindow
  refine happen_memsOk h fun t e => ?_
  grind [Option.bind_eq_some_iff, ← replicaWindow_memsOk]

theorem execReplicaRetirement_memsOk {kernel seg core} (h : s.memsOk) :
    Result.memsOk (execReplicaRetirement kernel seg core s) := by
  unfold execReplicaRetirement
  refine happen_memsOk h fun t e => ?_
  grind [Option.bind_eq_some_iff, ← unpin_memsOk, ← updKernel_memsOk]

theorem execTeamPromotion_memsOk {team} (h : s.memsOk) : Result.memsOk (execTeamPromotion team s) := by
  unfold execTeamPromotion
  refine happen_memsOk h fun t e => ?_
  grind [Option.bind_eq_some_iff, ← updTeam_memsOk]

/-! ## Coll -/

theorem updGroup_memsOk {isl g f} (h : s.memsOk) : (updGroup s isl g f).memsOk := h

theorem execGroupTableWrite_memsOk {isl g word v} (h : s.memsOk) :
    Result.memsOk (execGroupTableWrite isl g word v s) := by
  unfold execGroupTableWrite
  refine hostTakes_memsOk h fun t e => ?_
  grind [← updGroup_memsOk, ← memsOk_mk, ← memsOk_mem, ← memsOk_hostMem]

theorem updInst_memsOk {n f} (h : s.memsOk) : (updInst s n f).memsOk := h

theorem collBind_memsOk {cu t} (e : collBind s cu = some t) (h : s.memsOk) : t.2.memsOk := by
  unfold collBind at e
  dsimp only at e
  split at e
  · cases e
  · split at e
    · cases e; exact h
    · obtain ⟨x, -, rfl⟩ := Option.map_eq_some_iff.1 e
      exact mirrorWrite_memsOk (updCrew_memsOk (updIsl_memsOk h))

theorem joinInst_memsOk {isl g no en determ keys} (h : s.memsOk) : (joinInst s isl g no en determ keys).2.memsOk := by
  unfold joinInst
  grind [← updInst_memsOk, ← memsOk_mk, ← memsOk_mem, ← memsOk_hostMem]

theorem joinInst_memsOk_of_eq {isl g no en determ keys} {a t} (e : joinInst s isl g no en determ keys = (a, t))
    (h : s.memsOk) :
    t.memsOk := by
  have h1 : (joinInst s isl g no en determ keys).2.memsOk := joinInst_memsOk h
  rwa [e] at h1

theorem collSubmit_memsOk {x n opn g en segs bar} (h : s.memsOk) : (collSubmit s x n opn g en segs bar).memsOk := by
  unfold collSubmit
  grind [← joinInst_memsOk, ← l1Clean_memsOk, ← updIsl_memsOk, ← updGroup_memsOk, ← updCrew_memsOk, ← step8_memsOk,
    → joinInst_memsOk_of_eq]

theorem execColl_memsOk {gd opn addr key group bar} (h : s.memsOk) :
    Result.memsOk (execColl gd opn addr key group bar s) := by
  unfold execColl
  refine issue_memsOk fun x => ?_
  dsimp only
  split
  · exact forbid_memsOk h
  · split
    · exact h
    · grind [← raiseLanes_memsOk, → collBind_memsOk, ← collSubmit_memsOk]

theorem updColl_memsOk {isl ctx f} (h : s.memsOk) : (updColl s isl ctx f).memsOk := h

theorem setCmd_memsOk {hd c} (h : s.memsOk) : (setCmd s hd c).memsOk := h

theorem collPages_memsOk {hd want ps} (h : s.memsOk) : (collPages s hd want ps).2.memsOk := by
  induction ps generalizing s with
  | nil => exact h
  | cons x xs ih =>
    unfold collPages
    grind [← reachRange_memsOk]

theorem collReach_memsOk {hd want va n} (h : s.memsOk) : (collReach s hd want va n).2.memsOk :=
  collPages_memsOk h

theorem collReach_memsOk_of_eq {hd want va n} {a t} (e : collReach s hd want va n = (a, t)) (h : s.memsOk) :
    t.memsOk := by
  have h1 : (collReach s hd want va n).2.memsOk := collReach_memsOk h
  rwa [e] at h1

theorem collFaults_memsOk {hd write a3} (h : s.memsOk) : (collFaults s hd write a3).memsOk := by
  unfold collFaults
  grind [← engineFault_memsOk, ← updColl_memsOk, ← strikeCrew_memsOk, ← raiseEngine_memsOk]

theorem addCollPkt_memsOk {p} (h : s.memsOk) : (addCollPkt s p).memsOk :=
  foldl_memsOk (fun _ _ h => addPkt_memsOk h) _ _ h

theorem chunkRead_memsOk {hd x t} (e : chunkRead s hd x = some t) (h : s.memsOk) : t.memsOk := by
  unfold chunkRead at e
  grind [← serveDeadline_memsOk, ← setCmd_memsOk, ← collReach_memsOk, ← strikeCrew_memsOk, ← readPieces_memsOk,
    ← collFaults_memsOk]

theorem spread_memsOk {en isl from_ p} (h : s.memsOk) : (spread s en isl from_ p).memsOk :=
  foldl_memsOk (fun _ _ h => addCollPkt_memsOk h) _ _ h

theorem sendNode_memsOk {hd x} (h : s.memsOk) : (sendNode s hd x).memsOk := by
  unfold sendNode
  grind [← setCmd_memsOk, ← addCollPkt_memsOk, ← updInst_memsOk, ← spread_memsOk]

theorem sendSource_memsOk {hd x} (h : s.memsOk) : (sendSource s hd x).memsOk := by
  unfold sendSource
  grind [← setCmd_memsOk, ← updInst_memsOk, ← spread_memsOk]

theorem collChunkWrite_memsOk {hd x bs t} (e : chunkWrite_ s hd x bs = some t) (h : s.memsOk) : t.memsOk := by
  unfold chunkWrite_ at e
  extract_lets e' h' n src at e
  split at e
  · cases e
    exact setCmd_memsOk h
  · split at e
    · next e1 =>
      extract_lets s1 last s2 at e
      have h2 : s2.memsOk := setCmd_memsOk (serveDeadline_memsOk (writePieces_memsOk (collReach_memsOk_of_eq e1 h)))
      obtain ⟨-, e⟩ := Option.ite_none_left_eq_some.1 e
      cases e
      grind [← barrierUpdate_memsOk]
    · next e1 =>
      cases e
      exact collFaults_memsOk (collReach_memsOk_of_eq e1 h)

theorem sendPart_memsOk {hd x flush t} (e : sendPart s hd x flush = some t) (h : s.memsOk) : t.memsOk := by
  unfold sendPart at e
  grind [← sendNode_memsOk, ← sendSource_memsOk]

theorem chunkStep_memsOk {hd key chunk flush t} (e : chunkStep s hd key chunk flush = some t) (h : s.memsOk) :
    t.memsOk := by
  unfold chunkStep at e
  grind [← askDeadline_memsOk, ← setCmd_memsOk, → chunkRead_memsOk, → sendPart_memsOk, → collChunkWrite_memsOk]

theorem stoppingSend_memsOk {hd key chunk flush t} (e : stoppingSend s hd key chunk flush = some t) (h : s.memsOk) :
    t.memsOk := by
  unfold stoppingSend at e
  grind [Option.map_eq_some_iff, ← askSave_memsOk, → sendPart_memsOk]

theorem execCollChunkComplete_memsOk {isl ctx key chunk} (h : s.memsOk) :
    Result.memsOk (execCollChunkComplete isl ctx key chunk s) := by
  unfold execCollChunkComplete
  refine happen_memsOk h fun t e => ?_
  grind [Option.bind_eq_some_iff, → chunkStep_memsOk, → stoppingSend_memsOk]

theorem execChunkTimeout_memsOk {isl ctx key chunk} (h : s.memsOk) :
    Result.memsOk (execChunkTimeout isl ctx key chunk s) := by
  unfold execChunkTimeout
  refine happen_memsOk h fun t e => ?_
  grind [Option.bind_eq_some_iff, → chunkStep_memsOk, → stoppingSend_memsOk]

theorem dropLate_memsOk {p} (h : s.memsOk) : (dropLate s p).memsOk := by
  unfold dropLate
  grind [← updGroup_memsOk, ← foldl_memsOk]

theorem reachEngine_memsOk {id p} (h : s.memsOk) : (reachEngine s id p).memsOk := by
  unfold reachEngine
  grind [← spread_memsOk, ← memsOk_mk, ← memsOk_mem, ← memsOk_hostMem]

theorem execCollectivePacket_memsOk {pkt} (h : s.memsOk) : Result.memsOk (execCollectivePacket pkt s) := by
  unfold execCollectivePacket
  refine happen_memsOk h fun t e => ?_
  grind [Option.map_eq_some_iff, Option.bind_eq_some_iff, ← reachEngine_memsOk, ← dropLate_memsOk, ← updIsl_memsOk,
    ← memsOk_mk, ← memsOk_mem, ← memsOk_hostMem]

theorem collFinish_memsOk {hd t} (e : collFinish s hd = some t) (h : s.memsOk) : t.memsOk := by
  unfold collFinish at e
  obtain ⟨-, e⟩ := Option.ite_none_left_eq_some.1 e
  split at e
  · cases e
    exact setCmd_memsOk (askDeadline_memsOk h)
  · extract_lets g rec_ at e
    split at e
    · next e1 =>
      extract_lets s1 y t1 s2 at e
      obtain ⟨-, e⟩ := Option.ite_none_left_eq_some.1 e
      cases e
      exact releaseExited_memsOk (completionRelease_memsOk (updColl_memsOk (serveDeadline_memsOk (writePieces_memsOk
        (collReach_memsOk_of_eq e1 h)))))
    · next e1 =>
      cases e
      exact collFaults_memsOk (collReach_memsOk_of_eq e1 h)

theorem execCollComplete_memsOk {isl ctx} (h : s.memsOk) : Result.memsOk (execCollComplete isl ctx s) := by
  unfold execCollComplete
  refine happen_memsOk h fun t e => ?_
  grind [Option.bind_eq_some_iff, → collFinish_memsOk]

theorem execDeadlineSlack_memsOk {isl req} (h : s.memsOk) : Result.memsOk (execDeadlineSlack isl req s) := by
  unfold execDeadlineSlack
  refine happen_memsOk h fun t e => ?_
  grind [Option.bind_eq_some_iff, ← memsOk_mk, ← memsOk_mem, ← memsOk_hostMem]

theorem mapCmds_memsOk {f} (h : s.memsOk) : (mapCmds s f).memsOk := h

theorem replayInst_memsOk {n} (h : s.memsOk) : (replayInst s n).memsOk := h

theorem collIslandFails_memsOk {isl} (h : s.memsOk) : (collIslandFails s isl).memsOk :=
  foldl_memsOk (fun _ _ h => replayInst_memsOk h) _ _ h

theorem replan_memsOk {isl port} (h : s.memsOk) : (replan s isl port).memsOk := by
  unfold replan
  grind [← updInst_memsOk, ← foldl_memsOk]

/-! ## Copy -/

theorem copyBind_memsOk {cu t} (e : copyBind s cu = some t) (h : s.memsOk) : t.2.memsOk := by
  unfold copyBind at e
  dsimp only at e
  split at e
  · cases e
  · split at e
    · cases e; exact h
    · obtain ⟨x, -, rfl⟩ := Option.map_eq_some_iff.1 e
      exact mirrorWrite_memsOk (updCrew_memsOk (updIsl_memsOk h))

theorem issueCopy_memsOk {x dst src rowb rows sstr dstr dsp ssp bar geo} (h : s.memsOk) :
    (issueCopy s x dst src rowb rows sstr dstr dsp ssp bar geo).memsOk := by
  unfold issueCopy
  grind [← forbid_memsOk, ← raiseTeam_memsOk, → copyBind_memsOk, ← l1Clean_memsOk, ← updIsl_memsOk, ← step8_memsOk]

theorem execCpy_memsOk {dst src len dsp ssp bar} (h : s.memsOk) : Result.memsOk (execCpy dst src len dsp ssp bar s) :=
  issue_memsOk fun _ => issueCopy_memsOk h

theorem execCpyt_memsOk {dst src geo dsp ssp bar} (h : s.memsOk) :
    Result.memsOk (execCpyt dst src geo dsp ssp bar s) :=
  issue_memsOk fun _ => issueCopy_memsOk h

theorem updCopy_memsOk {isl ctx f} (h : s.memsOk) : (updCopy s isl ctx f).memsOk := h

theorem copyFaults_memsOk {ctx cmd cu c k write a7} (h : s.memsOk) :
    (copyFaults s ctx cmd cu c k write a7).memsOk := by
  unfold copyFaults
  grind [← engineFault_memsOk, ← updCopy_memsOk, ← strikeCrew_memsOk, ← raiseEngine_memsOk]

theorem chunkAsk_memsOk {ctx c k cmd ps} (h : s.memsOk) : (chunkAsk s ctx c k cmd ps).memsOk :=
  foldl_memsOk (fun _ _ h => sendEngine_memsOk h) _ _ h

theorem sourceBytes_memsOk {got ps} (h : s.memsOk) : (sourceBytes s got ps).2.memsOk := by
  induction ps generalizing s with
  | nil => exact h
  | cons x xs ih =>
    unfold sourceBytes
    grind [← readPieces_memsOk]

theorem sourceBytes_memsOk_of_eq {got ps} {a t} (e : sourceBytes s got ps = (a, t)) (h : s.memsOk) : t.memsOk := by
  have h1 : (sourceBytes s got ps).2.memsOk := sourceBytes_memsOk h
  rwa [e] at h1

theorem chunkPieces_memsOk {ctx c k cmd ps bs} (h : s.memsOk) : (chunkPieces s ctx c k cmd ps bs).memsOk := by
  induction ps generalizing s bs with
  | nil => exact h
  | cons x xs ih =>
    unfold chunkPieces
    grind [← sendEngine_memsOk, ← writePieces_memsOk]

theorem chunkWrite_memsOk {ctx cu c k cmd a ps bs} (h : s.memsOk) : (chunkWrite s ctx cu c k cmd a ps bs).memsOk := by
  unfold chunkWrite
  grind [← chunkPieces_memsOk, ← wPut_memsOk, ← crewPut_memsOk]

theorem chunkDone_memsOk {ctx cu c cmd n} (h : s.memsOk) : (chunkDone s ctx cu c cmd n).memsOk := by
  unfold chunkDone
  grind [← updCopy_memsOk, ← releaseExited_memsOk, ← completionRelease_memsOk, ← barrierUpdate_memsOk]

theorem chunkOut_memsOk {ctx cu c k cmd b n qs bs old} (h : s.memsOk) :
    (chunkOut s ctx cu c k cmd b n qs bs old).memsOk := by
  unfold chunkOut
  grind [← chunkWrite_memsOk, ← chunkDone_memsOk, ← updCopy_memsOk]

theorem copyChunk_memsOk {ctx cu c k cmd got t} (e : copyChunk s ctx cu c k cmd got = some t) (h : s.memsOk) :
    t.memsOk := by
  unfold copyChunk at e
  grind [← updCopy_memsOk, ← chunkDone_memsOk, ← reachRange_memsOk, ← chunkAsk_memsOk, ← strikeCrew_memsOk,
    ← sourceBytes_memsOk, ← readPieces_memsOk, ← chunkOut_memsOk, ← copyFaults_memsOk, → reachRange_memsOk_of_eq,
    → sourceBytes_memsOk_of_eq, → readPieces_memsOk_of_eq]

theorem chunkNext_memsOk {ctx cu c k cmd t} (e : chunkNext s ctx cu c k cmd = some t) (h : s.memsOk) : t.memsOk := by
  unfold chunkNext at e
  grind [→ copyChunk_memsOk, ← chunkDone_memsOk]

theorem execCopyChunkWritten_memsOk {isl ctx} (h : s.memsOk) : Result.memsOk (execCopyChunkWritten isl ctx s) := by
  unfold execCopyChunkWritten
  refine happen_memsOk h fun t e => ?_
  split at e
  · cases e
  · split at e
    · split at e
      · cases e
      · split at e
        · cases e
        · split at e
          · cases e
          · obtain ⟨s1, e1, rfl⟩ := Option.map_eq_some_iff.1 e
            have h1 : s1.memsOk := chunkNext_memsOk e1 h
            split
            · exact askSave_memsOk h1
            · exact h1
    · cases e

/-! ## Preempt -/

theorem askSaves_memsOk {ty c} (h : s.memsOk) : (askSaves s ty c).memsOk :=
  foldl_memsOk (fun _ _ h => askSave_memsOk h) _ _ h

theorem stopCrew_memsOk {cu c} (h : s.memsOk) : (stopCrew s cu c).memsOk := by
  unfold stopCrew
  grind [← stopTeam_memsOk, ← updIsl_memsOk, ← faultForget_memsOk, ← updMx_memsOk, ← updCrew_memsOk, ← foldl_memsOk]

theorem preemptFields_memsOk {ty x} (h : s.memsOk) : (preemptFields s ty x).memsOk := h

theorem serveSaves_memsOk {ty} (h : s.memsOk) : (serveSaves s ty).memsOk :=
  foldl_memsOk (fun _ _ h => serveDeadline_memsOk h) _ _ h

theorem execPreemptStop_memsOk {ty x} (h : s.memsOk) : Result.memsOk (execPreemptStop ty x s) := by
  unfold execPreemptStop
  refine hostTakes_memsOk h fun t e => ?_
  grind [← preemptFields_memsOk, ← askSaves_memsOk, ← stopCrew_memsOk, ← updTenant_memsOk, ← foldl_memsOk]

theorem saveMx_memsOk {cu c flip} (h : s.memsOk) : (saveMx s cu c flip).memsOk := by
  unfold saveMx
  grind [← updIsl_memsOk, ← updEngine_memsOk]

theorem saveCrew_memsOk {cu flip} (h : s.memsOk) : (saveCrew s cu flip).memsOk := by
  unfold saveCrew
  split
  · exact h
  · extract_lets order s1 s2 c copy coll s3 s4 s5 es s6
    have h5 : s5.memsOk := updCrew_memsOk (leaveTyped_memsOk (freeContexts_memsOk (updCrew_memsOk
      (saveMx_memsOk (updPcp_memsOk (l1Clean_memsOk h))))))
    split
    · exact h5
    · exact updCore_memsOk (updCrew_memsOk h5)

theorem execPreemptStopDone_memsOk {ty} (h : s.memsOk) : Result.memsOk (execPreemptStopDone ty s) := by
  unfold execPreemptStopDone
  refine happen_memsOk h fun t e => ?_
  grind [← saveCrew_memsOk, ← updTenant_memsOk, ← serveSaves_memsOk, ← event_memsOk, ← foldl_memsOk]

theorem restoreMx_memsOk {cu n c tenant v} (h : s.memsOk) : (restoreMx s cu n c tenant v).memsOk := by
  unfold restoreMx
  grind [← updEngine_memsOk, ← takeBank_memsOk, ← updIsl_memsOk, ← mirrorWrite_memsOk, ← updCrew_memsOk]

theorem restoreCopy_memsOk {cu x c y} (h : s.memsOk) : (restoreCopy s cu x c y).memsOk :=
  mirrorWrite_memsOk h

theorem restoreColl_memsOk {cu x c y} (h : s.memsOk) : (restoreColl s cu x c y).memsOk :=
  mirrorWrite_memsOk h

theorem restoreCrew_memsOk {cu t} (e : restoreCrew s cu = some t) (h : s.memsOk) : t.memsOk := by
  obtain ⟨c, -, e⟩ := Option.bind_eq_some_iff.1 e
  obtain ⟨k, -, e⟩ := Option.bind_eq_some_iff.1 e
  extract_lets i v at e
  obtain ⟨core, -, e⟩ := Option.bind_eq_some_iff.1 e
  extract_lets key need s1 lb ab s2 at e
  split at e
  · split at e
    · cases e
    · cases e
      exact codeStops_memsOk h
  · obtain ⟨-, e⟩ := Option.ite_none_left_eq_some.1 e
    obtain ⟨mx, -, e⟩ := Option.bind_eq_some_iff.1 e
    obtain ⟨cp, -, e⟩ := Option.bind_eq_some_iff.1 e
    obtain ⟨cl, -, rfl⟩ := Option.map_eq_some_iff.1 e
    clear e
    extract_lets s3 s4 s5 s6 s7 s8
    have h1 : s1.memsOk := by grind [← loadCode_memsOk]
    have h3 : s3.memsOk := by grind [← restoreMx_memsOk, ← updCrew_memsOk]
    have h4 : s4.memsOk := by grind [← restoreCopy_memsOk]
    have h5 : s5.memsOk := by grind [← restoreColl_memsOk]
    have h6 : s6.memsOk := ⟨h5.1, h5.2⟩
    have h7 : s7.memsOk := foldl_memsOk (fun _ _ h => addMsg_memsOk h) _ _ h6
    have h8 : s8.memsOk := foldl_memsOk (fun _ _ h => wakeWaiter_memsOk _ h) _ _ h7
    exact binsAdvance_memsOk (redirectBins_memsOk (l1Acquire_memsOk h8))

theorem restoreAll_memsOk {ty} (h : s.memsOk) : (restoreAll s ty).memsOk := by
  unfold restoreAll
  refine sweep_memsOk (foldl_memsOk (fun s cu h => ?_) _ _ h)
  cases e : restoreCrew s cu with
  | none => exact h
  | some t => exact restoreCrew_memsOk e h

theorem execPreemptResume_memsOk {ty x} (h : s.memsOk) : Result.memsOk (execPreemptResume ty x s) := by
  unfold execPreemptResume
  refine hostTakes_memsOk h fun t e => ?_
  grind [← restoreAll_memsOk, ← updTenant_memsOk, ← preemptFields_memsOk]

theorem execPreemptResumeDone_memsOk {ty} (h : s.memsOk) : Result.memsOk (execPreemptResumeDone ty s) := by
  unfold execPreemptResumeDone
  refine happen_memsOk h fun t e => ?_
  grind [← restoreAll_memsOk, ← event_memsOk, ← updTenant_memsOk]

end Sys2Proof.Machine
end


-- ==== Proofs/FormPanel.lean ====
section
/-! PROOFS. Control and vector words, the fabric, failures, interrupts, pages and the platform keep both memories in canonical
form. -/

namespace Sys2Proof.Machine

variable {s : State}

/-! ## Control -/

theorem execNop_memsOk (h : s.memsOk) : Result.memsOk (execNop s) :=
  issue_memsOk fun _ => step8_memsOk h

theorem execBra_memsOk {disp} (h : s.memsOk) : Result.memsOk (execBra disp s) :=
  issue_memsOk fun _ => jump_memsOk h

theorem execBrc_memsOk {c disp} (h : s.memsOk) : Result.memsOk (execBrc c disp s) := by
  unfold execBrc
  refine issue_memsOk fun x => ?_
  grind [← jump_memsOk, ← step8_memsOk]

theorem departBranch_memsOk {x target ts cycles} (h : s.memsOk) : (departBranch s x target ts cycles).memsOk := by
  unfold departBranch
  grind [← depart_memsOk, ← settle_memsOk]

theorem execBrv_memsOk {g c disp} (h : s.memsOk) : Result.memsOk (execBrv g c disp s) := by
  unfold execBrv
  refine issue_memsOk fun x => ?_
  grind [← raiseLanes_memsOk, ← departBranch_memsOk, ← finish_memsOk]

theorem execBrk_memsOk {g c disp} (h : s.memsOk) : Result.memsOk (execBrk g c disp s) := by
  unfold execBrk
  refine issue_memsOk fun x => ?_
  grind [← raiseLanes_memsOk, ← step8_memsOk, ← departBranch_memsOk, ← settle_memsOk]

theorem execJoin_memsOk (h : s.memsOk) : Result.memsOk (execJoin s) := by
  unfold execJoin
  refine issue_memsOk fun x => ?_
  grind [← step8_memsOk, ← finish_memsOk, ← settle_memsOk]

theorem execCall_memsOk {disp} (h : s.memsOk) : Result.memsOk (execCall disp s) :=
  issue_memsOk fun _ => callTo_memsOk h

theorem execCallr_memsOk {a} (h : s.memsOk) : Result.memsOk (execCallr a s) :=
  issue_memsOk fun _ => callTo_memsOk h

theorem execJmpr_memsOk {a} (h : s.memsOk) : Result.memsOk (execJmpr a s) :=
  issue_memsOk fun _ => jump_memsOk h

theorem retTravel_memsOk {x} (h : s.memsOk) : (retTravel s x).memsOk := by
  unfold retTravel
  grind [← raiseLanes_memsOk, ← depart_memsOk, ← settle_memsOk]

theorem execRet_memsOk (h : s.memsOk) : Result.memsOk (execRet s) := by
  unfold execRet
  refine issue_memsOk fun x => ?_
  grind [← retTravel_memsOk, ← raiseTeam_memsOk, ← transfer_memsOk]

theorem execExit_memsOk {g crew} (h : s.memsOk) : Result.memsOk (execExit g crew s) := by
  unfold execExit
  refine issue_memsOk fun x => ?_
  grind [← endTeam_memsOk, ← charge_memsOk, ← closeCrew_memsOk, ← settle_memsOk]

theorem execYield_memsOk (h : s.memsOk) : Result.memsOk (execYield s) :=
  issue_memsOk fun _ => step8_memsOk h

theorem execTrap_memsOk {code} (h : s.memsOk) : Result.memsOk (execTrap code s) :=
  issue_memsOk fun _ => raise_memsOk h

theorem execMark_memsOk (h : s.memsOk) : Result.memsOk (execMark s) := by
  unfold execMark
  refine issue_memsOk fun x => ?_
  grind [← forbid_memsOk, ← step8_memsOk, ← fresh_memsOk, ← closeSpan_memsOk]

theorem spawnOne_memsOk {x no off core lane ws} (h : s.memsOk) : (spawnOne s x no off core lane ws).2.memsOk := by
  unfold spawnOne
  grind [← addMsg_memsOk, ← forward_memsOk]

theorem spawnAll_memsOk {x no off dest ws ls} (h : s.memsOk) : (spawnAll x no off dest ws s ls).1.memsOk := by
  induction ls generalizing s with
  | nil => exact h
  | cons y ys ih =>
    unfold spawnAll
    grind [← spawnOne_memsOk]

theorem execSpawn_memsOk {g pay dest entry lenm1 pd} (h : s.memsOk) :
    Result.memsOk (execSpawn g pay dest entry lenm1 pd s) := by
  unfold execSpawn
  refine issue_memsOk fun x => ?_
  grind [← step8_memsOk, ← forbid_memsOk, ← raiseLanes_memsOk, ← spawnAll_memsOk, ← l1Clean_memsOk]

theorem execQry_memsOk {d item} (h : s.memsOk) : Result.memsOk (execQry d item s) :=
  issue_memsOk fun _ => step8_memsOk h

theorem execSreg_memsOk {d a} (h : s.memsOk) : Result.memsOk (execSreg d a s) :=
  issue_memsOk fun _ => step8_memsOk h

theorem execMset_memsOk {g a} (h : s.memsOk) : Result.memsOk (execMset g a s) := by
  unfold execMset
  refine issue_memsOk fun x => ?_
  grind [← raiseLanes_memsOk, ← settle_memsOk]

theorem execSetix_memsOk {n a imm} (h : s.memsOk) : Result.memsOk (execSetix n a imm s) :=
  issue_memsOk fun _ => step8_memsOk h

theorem execSetfmt_memsOk {src} (h : s.memsOk) : Result.memsOk (execSetfmt src s) :=
  issue_memsOk fun _ => step8_memsOk h

theorem execGetfmt_memsOk {d} (h : s.memsOk) : Result.memsOk (execGetfmt d s) :=
  issue_memsOk fun _ => step8_memsOk h

theorem execSetk_memsOk {n a} (h : s.memsOk) : Result.memsOk (execSetk n a s) := by
  unfold execSetk
  refine issue_memsOk fun x => ?_
  grind [← raiseTeam_memsOk, ← step8_memsOk, ← updMx_memsOk]

theorem execGetk_memsOk {d n} (h : s.memsOk) : Result.memsOk (execGetk d n s) := by
  unfold execGetk
  refine issue_memsOk fun x => ?_
  grind [← raiseTeam_memsOk, ← step8_memsOk]

theorem execWaitc_memsOk {ld st rm} (h : s.memsOk) : Result.memsOk (execWaitc ld st rm s) := by
  unfold execWaitc
  refine issue_memsOk fun x => ?_
  grind [← step8_memsOk]

theorem execXfer_memsOk {g ty} (h : s.memsOk) : Result.memsOk (execXfer g ty s) := by
  unfold execXfer
  refine issue_memsOk fun x => ?_
  grind [← step8_memsOk, ← forbid_memsOk, ← raiseLanes_memsOk, ← depart_memsOk, ← settle_memsOk]

/-! ## Vector -/

theorem vec2Op_memsOk {g ty d a b op} (h : s.memsOk) : Result.memsOk (vec2Op s g ty d a b op) :=
  issue_memsOk fun _ => laneOp_memsOk h

theorem vecImmOp_memsOk {g ty d a imm op} (h : s.memsOk) : Result.memsOk (vecImmOp s g ty d a imm op) :=
  issue_memsOk fun _ => laneOp_memsOk h

theorem vec1Op_memsOk {g ty d a op} (h : s.memsOk) : Result.memsOk (vec1Op s g ty d a op) :=
  issue_memsOk fun _ => laneOp_memsOk h

theorem vecShift_memsOk {g ty d a b op} (h : s.memsOk) : Result.memsOk (vecShift s g ty d a b op) :=
  issue_memsOk fun _ => laneOp_memsOk h

theorem execVmad_memsOk {g ty d a b c} (h : s.memsOk) : Result.memsOk (execVmad g ty d a b c s) :=
  issue_memsOk fun _ => laneOp_memsOk h

theorem execVbfi_memsOk {g ty d a b c} (h : s.memsOk) : Result.memsOk (execVbfi g ty d a b c s) :=
  issue_memsOk fun _ => laneOp_memsOk h

theorem cmpWord_memsOk {x g en d a b holds} (h : s.memsOk) : (cmpWord s x g en d a b holds).memsOk :=
  laneWord_memsOk h

theorem execVcmp_memsOk {g ty cc d a b} (h : s.memsOk) : Result.memsOk (execVcmp g ty cc d a b s) :=
  issue_memsOk fun _ => cmpWord_memsOk h

theorem execVsel_memsOk {g ty d a b c} (h : s.memsOk) : Result.memsOk (execVsel g ty d a b c s) :=
  issue_memsOk fun _ => laneWord_memsOk h

theorem execVmovi_memsOk {g ty d imm} (h : s.memsOk) : Result.memsOk (execVmovi g ty d imm s) :=
  issue_memsOk fun _ => laneOp_memsOk h

theorem execPairWord_memsOk {h0 h1} (h : s.memsOk) : Result.memsOk (execPairWord h0 h1 s) :=
  issue_memsOk fun _ => laneWord_memsOk h

/-! ## VecFloat -/

theorem flt2Op_memsOk {g ty d a b op} (h : s.memsOk) : Result.memsOk (flt2Op s g ty d a b op) :=
  issue_memsOk fun _ => laneOp_memsOk h

theorem fltImmOp_memsOk {g ty d a imm op} (h : s.memsOk) : Result.memsOk (fltImmOp s g ty d a imm op) :=
  issue_memsOk fun _ => laneOp_memsOk h

theorem flt1Op_memsOk {g ty d a op} (h : s.memsOk) : Result.memsOk (flt1Op s g ty d a op) :=
  issue_memsOk fun _ => laneOp_memsOk h

theorem execFfma_memsOk {g ty rm d a b c} (h : s.memsOk) : Result.memsOk (execFfma g ty rm d a b c s) :=
  issue_memsOk fun _ => laneOp_memsOk h

theorem execFcmp_memsOk {g ty _rm cc d a b} (h : s.memsOk) : Result.memsOk (execFcmp g ty _rm cc d a b s) :=
  issue_memsOk fun _ => cmpWord_memsOk h

/-! ## Convert -/

theorem execCvt_memsOk {g dst src chk rm sel d a} (h : s.memsOk) :
    Result.memsOk (execCvt g dst src chk rm sel d a s) := by
  unfold execCvt
  refine issue_memsOk fun x => ?_
  grind [← laneWord_memsOk, ← raiseLanes_memsOk]

theorem execHpack_memsOk {g ty rm d a b} (h : s.memsOk) : Result.memsOk (execHpack g ty rm d a b s) :=
  issue_memsOk fun _ => laneOp_memsOk h

theorem execLpack_memsOk {g raw d a} (h : s.memsOk) : Result.memsOk (execLpack g raw d a s) :=
  issue_memsOk fun _ => laneWord_memsOk h

theorem execLunp_memsOk {g raw d a} (h : s.memsOk) : Result.memsOk (execLunp g raw d a s) :=
  issue_memsOk fun _ => laneWord_memsOk h

/-! ## CrossLane -/

theorem execShfl_memsOk {g ty mode d a b} (h : s.memsOk) : Result.memsOk (execShfl g ty mode d a b s) :=
  issue_memsOk fun _ => laneWord_memsOk h

theorem execPshw_memsOk {g ty mode d a b} (h : s.memsOk) : Result.memsOk (execPshw g ty mode d a b s) :=
  issue_memsOk fun _ => laneWord_memsOk h

theorem execBcst_memsOk {g ty d a b} (h : s.memsOk) : Result.memsOk (execBcst g ty d a b s) :=
  issue_memsOk fun _ => laneWord_memsOk h

theorem execVred_memsOk {g op ty rm d a} (h : s.memsOk) : Result.memsOk (execVred g op ty rm d a s) :=
  issue_memsOk fun _ => laneWord_memsOk h

theorem execVscan_memsOk {g op ty excl rm d a} (h : s.memsOk) : Result.memsOk (execVscan g op ty excl rm d a s) :=
  issue_memsOk fun _ => laneWord_memsOk h

theorem maskWordOp_memsOk {g d a f} (h : s.memsOk) : Result.memsOk (maskWordOp s g d a f) := by
  unfold maskWordOp
  refine issue_memsOk fun x => ?_
  grind [← raiseLanes_memsOk, ← step8_memsOk]

/-! ## Topology -/

theorem lightUpdate_memsOk (h : s.memsOk) : (lightUpdate s).memsOk := by
  unfold lightUpdate
  exact topologyUpdate_memsOk (s := { s with panel := _ }) h

theorem fabricEvent_memsOk {en} (h : s.memsOk) : (fabricEvent s en).memsOk :=
  event_memsOk _ _ _ _ _ _ _ h

/-! ## Fabric -/

theorem countSlots_memsOk {isl port} (h : s.memsOk) : (countSlots s isl port).memsOk := h

theorem pumpEnd_memsOk {isl port ctlOnly} (h : s.memsOk) : (pumpEnd s isl port ctlOnly).memsOk := by
  unfold pumpEnd
  grind [← countSlots_memsOk, ← updLink_memsOk, ← updLanes_memsOk]

theorem sendCtl_memsOk {isl port c} (h : s.memsOk) : (sendCtl s isl port c).memsOk :=
  pumpEnd_memsOk h

theorem sendCredit_memsOk {isl port} (h : s.memsOk) : (sendCredit s isl port).memsOk := by
  unfold sendCredit
  grind [← updLink_memsOk, ← sendCtl_memsOk]

theorem giveBack_memsOk {isl port v hd n} (h : s.memsOk) : (giveBack s isl port v hd n).memsOk := by
  unfold giveBack
  grind [← updLink_memsOk, ← countSlots_memsOk, ← sendCredit_memsOk]

theorem flitLeft_memsOk {isl f} (h : s.memsOk) : (flitLeft s isl f).memsOk := by
  unfold flitLeft
  grind [← giveBack_memsOk, ← memsOk_mk, ← memsOk_mem, ← memsOk_hostMem]

theorem pumpLink_memsOk {isl port} (h : s.memsOk) : (pumpLink s isl port).memsOk :=
  foldl_memsOk (fun _ _ h => flitLeft_memsOk h) _ _ (pumpEnd_memsOk h)

theorem withdrawFlits_memsOk {id isl port} (h : s.memsOk) : (withdrawFlits id s isl port).memsOk := by
  unfold withdrawFlits
  grind [← updLink_memsOk, ← giveBack_memsOk, ← foldl_memsOk]

theorem leaveSlots_memsOk {p} (h : s.memsOk) : (leaveSlots s p).memsOk := by
  unfold leaveSlots
  grind [← giveBack_memsOk]

theorem withdraw_memsOk {id p} (h : s.memsOk) : (withdraw s id p).memsOk := by
  unfold withdraw
  grind [← withdrawFlits_memsOk, ← leaveSlots_memsOk, ← foldl_memsOk]

theorem bounce_memsOk {id p isl} (h : s.memsOk) : (bounce s id p isl).memsOk :=
  withdraw_memsOk h

theorem putOnLink_memsOk {id p port} (h : s.memsOk) : (putOnLink s id p port).memsOk :=
  pumpLink_memsOk h

theorem execPacketRelay_memsOk {pkt} (h : s.memsOk) : Result.memsOk (execPacketRelay pkt s) := by
  unfold execPacketRelay
  refine happen_memsOk h fun t e => ?_
  grind [← leaveSlots_memsOk, ← bounce_memsOk, ← putOnLink_memsOk, ← memsOk_mk, ← memsOk_mem, ← memsOk_hostMem]

theorem execPacketReturn_memsOk {pkt} (h : s.memsOk) : Result.memsOk (execPacketReturn pkt s) := by
  unfold execPacketReturn
  refine happen_memsOk h fun t e => ?_
  grind [← memsOk_mk, ← memsOk_mem, ← memsOk_hostMem]

theorem propose_memsOk {isl port guide leaving entering back} (h : s.memsOk) :
    (propose s isl port guide leaving entering back).memsOk :=
  sendCtl_memsOk h

theorem makeSwap_memsOk {isl port w} (h : s.memsOk) : (makeSwap s isl port w).memsOk := by
  unfold makeSwap
  grind [← updLink_memsOk, ← updLanes_memsOk, ← fabricEvent_memsOk, ← topologyUpdate_memsOk, ← propose_memsOk]

theorem landPacket_memsOk {isl port f hd} (h : s.memsOk) : (landPacket s isl port f hd).memsOk := by
  unfold landPacket
  grind [← giveBack_memsOk, ← withdraw_memsOk, ← pumpLink_memsOk, ← updLink_memsOk, ← memsOk_mk, ← memsOk_mem,
    ← memsOk_hostMem]

theorem acceptFlit_memsOk {isl port f hd} (h : s.memsOk) : (acceptFlit s isl port f hd).memsOk := by
  unfold acceptFlit
  grind [← updLink_memsOk, ← fabricEvent_memsOk, ← makeSwap_memsOk, ← landPacket_memsOk]

theorem hearAck_memsOk {isl port hd} (h : s.memsOk) : (hearAck s isl port hd).memsOk := by
  unfold hearAck
  grind [← updLink_memsOk, ← pumpLink_memsOk]

theorem dropFlit_memsOk {isl port} (h : s.memsOk) : (dropFlit s isl port).memsOk := h

theorem execFlitReceived_memsOk {isl port flips} (h : s.memsOk) :
    Result.memsOk (execFlitReceived isl port flips s) := by
  unfold execFlitReceived
  refine happen_memsOk h fun t e => ?_
  grind [← updLink_memsOk, ← dropFlit_memsOk, ← hearAck_memsOk, ← acceptFlit_memsOk]

theorem execNakRepeat_memsOk {isl port} (h : s.memsOk) : Result.memsOk (execNakRepeat isl port s) := by
  unfold execNakRepeat
  refine happen_memsOk h fun t e => ?_
  grind [← updLink_memsOk]

theorem clearEnd_memsOk {isl port} (h : s.memsOk) : (clearEnd s isl port).memsOk := by
  unfold clearEnd
  grind [← bounce_memsOk, ← updLink_memsOk, ← foldl_memsOk]

theorem linkDown_memsOk {isl port lost} (h : s.memsOk) : (linkDown s isl port lost).memsOk := by
  unfold linkDown
  split
  · exact h
  · exact lightUpdate_memsOk (replan_memsOk (fabricEvent_memsOk (fabricEvent_memsOk (updLink_memsOk (updLink_memsOk
      (updLanes_memsOk (updLanes_memsOk (clearEnd_memsOk (clearEnd_memsOk h)))))))))

theorem execLinkDownTimeout_memsOk {isl port} (h : s.memsOk) : Result.memsOk (execLinkDownTimeout isl port s) := by
  unfold execLinkDownTimeout
  refine happen_memsOk h fun t e => ?_
  grind [← linkDown_memsOk]

theorem execLimitsPeriod_memsOk {isl port} (h : s.memsOk) : Result.memsOk (execLimitsPeriod isl port s) := by
  unfold execLimitsPeriod
  refine happen_memsOk h fun t e => ?_
  grind [← countSlots_memsOk, ← updLink_memsOk, ← sendCtl_memsOk]

theorem takeCtl_memsOk {isl port t} (e : takeCtl s isl port = some t) (h : s.memsOk) : t.2.memsOk := by
  unfold takeCtl at e
  grind [← updLink_memsOk]

theorem execCredit_memsOk {isl port} (h : s.memsOk) : Result.memsOk (execCredit isl port s) := by
  unfold execCredit
  refine happen_memsOk h fun t e => ?_
  grind [→ takeCtl_memsOk, ← pumpLink_memsOk, ← updLink_memsOk, ← foldl_memsOk]

theorem execLimits_memsOk {isl port} (h : s.memsOk) : Result.memsOk (execLimits isl port s) := by
  unfold execLimits
  refine happen_memsOk h fun t e => ?_
  grind [→ takeCtl_memsOk, ← pumpLink_memsOk, ← updLink_memsOk]

theorem judge_memsOk {isl port guide wl} (h : s.memsOk) : (judge s isl port guide wl).memsOk := by
  unfold judge
  grind [← fabricEvent_memsOk, ← propose_memsOk]

theorem execLaneSampleWindow_memsOk {isl port samples} (h : s.memsOk) :
    Result.memsOk (execLaneSampleWindow isl port samples s) := by
  unfold execLaneSampleWindow
  refine happen_memsOk h fun t e => ?_
  grind [← updLink_memsOk, ← updLanes_memsOk, ← judge_memsOk, ← foldl_memsOk]

theorem execSwapreq_memsOk {isl port} (h : s.memsOk) : Result.memsOk (execSwapreq isl port s) := by
  unfold execSwapreq
  refine happen_memsOk h fun t e => ?_
  grind [→ takeCtl_memsOk, ← updLanes_memsOk, ← sendCtl_memsOk]

theorem execSwapack_memsOk {isl port} (h : s.memsOk) : Result.memsOk (execSwapack isl port s) := by
  unfold execSwapack
  refine happen_memsOk h fun t e => ?_
  grind [→ takeCtl_memsOk, ← updLanes_memsOk, ← makeSwap_memsOk]

theorem execSwapTimeout_memsOk {isl port} (h : s.memsOk) : Result.memsOk (execSwapTimeout isl port s) := by
  unfold execSwapTimeout
  refine happen_memsOk h fun t e => ?_
  grind [← updLanes_memsOk]

theorem bothThen_memsOk {isl port st f} (h : s.memsOk) (hf : ∀ x, x.memsOk → (f x).memsOk) :
    (bothThen s isl port st f).memsOk := by
  unfold bothThen
  grind []

theorem startRestripe_memsOk {isl port dark} (h : s.memsOk) : (startRestripe s isl port dark).memsOk := by
  unfold startRestripe
  grind [← updLanes_memsOk, ← updLink_memsOk, ← replan_memsOk, ← bothThen_memsOk, ← topologyUpdate_memsOk]

theorem endRestripe_memsOk {isl port bits} (h : s.memsOk) : (endRestripe s isl port bits).memsOk := by
  unfold endRestripe
  split
  · exact h
  · extract_lets spareGone s1 s2 s3 s4
    have h4 : s4.memsOk := bothThen_memsOk
      (fabricEvent_memsOk (pumpLink_memsOk (updLink_memsOk (updLanes_memsOk h)))) fun _ h => lightUpdate_memsOk h
    split
    · exact replan_memsOk h4
    · exact h4

theorem loseLight_memsOk {isl port dark} (h : s.memsOk) : (loseLight s isl port dark).memsOk := by
  unfold loseLight
  grind [← linkDown_memsOk, ← updLanes_memsOk, ← startRestripe_memsOk, ← sendCtl_memsOk]

theorem execLightLoss_memsOk {isl port dark} (h : s.memsOk) : Result.memsOk (execLightLoss isl port dark s) := by
  unfold execLightLoss
  refine happen_memsOk h fun t e => ?_
  grind [← loseLight_memsOk]

theorem execLaserModuleDark_memsOk {m} (h : s.memsOk) : Result.memsOk (execLaserModuleDark m s) := by
  unfold execLaserModuleDark
  refine happen_memsOk h fun t e => ?_
  grind [Option.map_eq_some_iff, ← loseLight_memsOk, ← lightUpdate_memsOk, ← foldl_memsOk, ← memsOk_mk,
    ← memsOk_mem, ← memsOk_hostMem]

theorem execTrain_memsOk {isl port} (h : s.memsOk) : Result.memsOk (execTrain isl port s) := by
  unfold execTrain
  refine happen_memsOk h fun t e => ?_
  grind [→ takeCtl_memsOk, ← linkDown_memsOk, ← startRestripe_memsOk, ← sendCtl_memsOk, ← endRestripe_memsOk]

theorem execLightReturn_memsOk {isl port wl} (h : s.memsOk) : Result.memsOk (execLightReturn isl port wl s) := by
  unfold execLightReturn
  refine happen_memsOk h fun t e => ?_
  grind [← updLanes_memsOk, ← foldl_memsOk]

/-! ## Failure -/

theorem takePlace_memsOk {src sep dst} (h : s.memsOk) : (takePlace s src sep dst).2.memsOk := h

theorem forwardMoved_memsOk {isl} (h : s.memsOk) : (forwardMoved s isl).memsOk := by
  unfold forwardMoved
  grind [← takePlace_memsOk, ← withdraw_memsOk, ← foldl_memsOk, ← memsOk_mk, ← memsOk_mem, ← memsOk_hostMem]

theorem forwardAdds_memsOk {isl} (h : s.memsOk) : (forwardAdds s isl).memsOk := by
  unfold forwardAdds
  refine foldl_memsOk (fun s io h => ?_) _ _ h
  have hadds : ∀ (as : List LateAdd) (r : List LateAdd × State), r.2.memsOk →
      (as.foldl (fun (r : List LateAdd × State) a =>
        let home := homeOf a.dst a.pa
        if a.dst ≠ isl || home = isl then (r.1 ++ [a], r.2)
        else
          let (n, s) := takePlace r.2 io.2.isl io.2.core home
          (r.1 ++ [{ a with dst := home, sseq := n }], s)) r).2.memsOk := by
    intro as
    induction as with
    | nil => exact fun _ h => h
    | cons a as ih =>
      intro r hr
      rw [List.foldl_cons]
      refine ih _ ?_
      grind [← takePlace_memsOk]
  dsimp only
  split
  · exact h
  · exact hadds io.2.adds ([], s) h

theorem failPackets_memsOk {isl} (h : s.memsOk) : (failPackets s isl).memsOk := by
  unfold failPackets
  grind [← withdraw_memsOk, ← foldl_memsOk, ← memsOk_mk, ← memsOk_mem, ← memsOk_hostMem]

theorem landEntries_memsOk {isl} (h : s.memsOk) : (landEntries s isl).memsOk := by
  unfold landEntries
  grind [← withdraw_memsOk, ← addMsg_memsOk, ← foldl_memsOk, ← memsOk_mk, ← memsOk_mem, ← memsOk_hostMem]

theorem strikeLost_memsOk {ids} (h : s.memsOk) : (strikeLost s ids).memsOk := by
  unfold strikeLost
  grind [← ueRead_memsOk, ← foldl_memsOk]

theorem restoreRanges_memsOk {kid k rs} (h : s.memsOk) : (restoreRanges s kid k rs).memsOk :=
  foldl_memsOk (fun _ _ h => event_memsOk _ _ _ _ _ _ _ h) _ _ (restoreSpans_memsOk h)

theorem moveEntries_memsOk {kid isl} (h : s.memsOk) : (moveEntries s kid isl).memsOk := by
  unfold moveEntries
  grind [← updCore_memsOk, ← updIsl_memsOk, ← addMsg_memsOk, ← foldl_memsOk, ← memsOk_mk, ← memsOk_mem,
    ← memsOk_hostMem]

theorem failKernel_memsOk {kid isl} (h : s.memsOk) : (failKernel s kid isl).memsOk := by
  unfold failKernel
  split
  · exact h
  · dsimp only
    split
    · exact h
    · split
      · exact clocks_memsOk (endKernel_memsOk h)
      · refine moveEntries_memsOk (updKernel_memsOk (restoreRanges_memsOk ?_))
        exact foldl_memsOk (fun _ _ h => purgeSpawned_memsOk h) _ _
          (foldl_memsOk (fun _ _ h => discardCrew_memsOk (dropOps_memsOk h)) _ _ h)

theorem dropLinks_memsOk {isl} (h : s.memsOk) : (dropLinks s isl).memsOk := by
  unfold dropLinks
  grind [← replan_memsOk, ← updLanes_memsOk, ← clearEnd_memsOk, ← fabricEvent_memsOk, ← foldl_memsOk]

theorem islandFails_memsOk {isl} (h : s.memsOk) : (islandFails s isl).memsOk := by
  unfold islandFails
  extract_lets lost chunks s1 s2 s3 s4 s5 s6 s7 s8 s9 s10
  have h4 : s4.memsOk := dropLinks_memsOk (failPackets_memsOk (forwardAdds_memsOk (forwardMoved_memsOk
    (landEntries_memsOk (collIslandFails_memsOk (tlbDrop_memsOk (updIsl_memsOk h)))))))
  have h5 : s5.memsOk := foldl_memsOk (fun _ _ h => failKernel_memsOk h) _ _ h4
  have h6 : s6.memsOk := foldl_memsOk (fun _ _ h => strikeChunk_memsOk h) _ _ (strikeLost_memsOk h5)
  have h10 : s10.memsOk := updIsl_memsOk (s := s9) h6
  split
  · exact topologyUpdate_memsOk h10
  · exact lightUpdate_memsOk h10

theorem execIslandFailure_memsOk {isl} (h : s.memsOk) : Result.memsOk (execIslandFailure isl s) := by
  unfold execIslandFailure
  refine happen_memsOk h fun t e => ?_
  grind [← clocks_memsOk, ← islandFails_memsOk]

/-! ## Interrupt -/

theorem savedMiter_memsOk {cu c} (h : s.memsOk) : (savedMiter s cu c).memsOk := by
  unfold savedMiter
  grind [← updIsl_memsOk, ← barrierUpdate_memsOk]

theorem resumeOn_memsOk {cu c} (h : s.memsOk) : (resumeOn s cu c).memsOk := by
  unfold resumeOn
  grind [← savedMiter_memsOk, ← miterResumed_memsOk, ← resumeCrew_memsOk, ← sweep_memsOk, ← binsAdvance_memsOk]

theorem execCrewctlResume_memsOk {ty handle} (h : s.memsOk) : Result.memsOk (execCrewctlResume ty handle s) := by
  unfold execCrewctlResume
  refine hostTakes_memsOk h fun t e => ?_
  grind [Option.map_eq_some_iff, ← resumeOn_memsOk]

theorem execCrewctlEnd_memsOk {ty handle} (h : s.memsOk) : Result.memsOk (execCrewctlEnd ty handle s) := by
  unfold execCrewctlEnd
  refine hostTakes_memsOk h fun t e => ?_
  grind [Option.map_eq_some_iff, ← clocks_memsOk, ← endKernel_memsOk]

theorem execCrewctlRollback_memsOk {ty handle} (h : s.memsOk) : Result.memsOk (execCrewctlRollback ty handle s) := by
  unfold execCrewctlRollback
  refine hostTakes_memsOk h fun t e => ?_
  grind [Option.map_eq_some_iff, Option.bind_eq_some_iff, ← strikeSpans_memsOk, ← resumeOn_memsOk]

theorem zeroTyped_memsOk {ty} (h : s.memsOk) : (zeroTyped s ty).memsOk := by
  unfold zeroTyped
  grind [← updEngine_memsOk, ← foldl_memsOk, ← memsOk_mk, ← memsOk_mem, ← memsOk_hostMem]

theorem execTenantReset_memsOk {ty} (h : s.memsOk) : Result.memsOk (execTenantReset ty s) := by
  unfold execTenantReset
  refine hostTakes_memsOk h fun t e => ?_
  grind [← updTenant_memsOk, ← zeroTyped_memsOk, ← endKernel_memsOk, ← clocks_memsOk, ← finishRecord_memsOk,
    ← foldl_memsOk, ← memsOk_mk, ← memsOk_mem, ← memsOk_hostMem]

theorem execTenantResetDone_memsOk {ty} (h : s.memsOk) : Result.memsOk (execTenantResetDone ty s) := by
  unfold execTenantResetDone
  refine happen_memsOk h fun t e => ?_
  grind [← event_memsOk, ← updTenant_memsOk]

theorem strikeState_memsOk {cu us} (h : s.memsOk) : (strikeState s cu us).memsOk := by
  unfold strikeState
  grind [← gangLost_memsOk, ← strikeCrew_memsOk]

theorem strikeSectors_memsOk {i secs} (h : s.memsOk) : (strikeSectors s i secs).memsOk := by
  unfold strikeSectors
  grind [← strikeCrew_memsOk, ← strikeSpans_memsOk, ← updIsl_memsOk, ← foldl_memsOk]

theorem execUncorrectableError_memsOk {site} (h : s.memsOk) : Result.memsOk (execUncorrectableError site s) := by
  unfold execUncorrectableError
  refine happen_memsOk h fun t e => ?_
  grind [Option.map_eq_some_iff, ← updIsl_memsOk, ← strikeState_memsOk, ← strikeSectors_memsOk, ← foldl_memsOk]

theorem signalsFrom_memsOk {tenant bss skip t} (e : signalsFrom tenant bss s skip = some t) (h : s.memsOk) :
    t.1.memsOk := by
  induction bss generalizing s skip t with
  | nil =>
    cases e
    exact h
  | cons x xs ih =>
    unfold signalsFrom at e
    grind [→ signalAdd_memsOk]

theorem retireSignals_memsOk {k t} (e : retireSignals s k = some t) (h : s.memsOk) : t.1.memsOk := by
  unfold retireSignals at e
  grind [← pcpRead_memsOk, → signalsFrom_memsOk]

theorem execKernelRetirement_memsOk {kernel} (h : s.memsOk) : Result.memsOk (execKernelRetirement kernel s) := by
  unfold execKernelRetirement
  refine happen_memsOk h fun t e => ?_
  grind [Option.map_eq_some_iff, Option.bind_eq_some_iff, ← removeCrew_memsOk, ← l1Clean_memsOk, ← clocks_memsOk,
    ← finishKernel_memsOk, → retireSignals_memsOk, ← foldl_memsOk]

/-! ## Pages -/

theorem replayFault_memsOk {isl who} (h : s.memsOk) : (replayFault s isl who).memsOk := by
  unfold replayFault
  grind [← updTeam_memsOk, ← updCopy_memsOk, ← updColl_memsOk]

theorem replayEntry_memsOk {isl entry f} (h : s.memsOk) : (replayEntry s isl entry f).memsOk :=
  faultLeave_memsOk (replayFault_memsOk h)

theorem execDemandPageFill_memsOk {isl entry} (h : s.memsOk) : Result.memsOk (execDemandPageFill isl entry s) := by
  unfold execDemandPageFill
  refine happen_memsOk h fun t e => ?_
  grind [Option.bind_eq_some_iff, → demandCreate_memsOk, ← replayEntry_memsOk, ← updIsl_memsOk, ← faultEnter_memsOk]

theorem execReadSharedCopy_memsOk {isl entry} (h : s.memsOk) : Result.memsOk (execReadSharedCopy isl entry s) := by
  unfold execReadSharedCopy
  refine happen_memsOk h fun t e => ?_
  grind [Option.map_eq_some_iff, Option.bind_eq_some_iff, ← replayEntry_memsOk, ← updIsl_memsOk, ← wr_memsOk,
    → takeFrame_memsOk, ← recallUpdates_memsOk, ← foldl_memsOk]

theorem failEngine_memsOk {cu engine va cmd} (h : s.memsOk) : (failEngine s cu engine va cmd).memsOk :=
  raiseEngine_memsOk h

theorem failEntry_memsOk {isl entry f} (h : s.memsOk) : (failEntry s isl entry f).memsOk := by
  unfold failEntry
  grind [← faultLeave_memsOk, ← raise_memsOk, ← updTeam_memsOk, ← updCopy_memsOk, ← failEngine_memsOk,
    ← updColl_memsOk, ← clocks_memsOk, ← endKernel_memsOk]

theorem reply_memsOk {isl entry fail} (h : s.memsOk) : (reply s isl entry fail).memsOk := by
  unfold reply
  grind [← failEntry_memsOk, ← replayEntry_memsOk]

theorem execFaultreply_memsOk {x} (h : s.memsOk) : Result.memsOk (execFaultreply x s) := by
  unfold execFaultreply
  refine hostTakes_memsOk h fun t e => ?_
  grind [← reply_memsOk, ← updHost_memsOk]

theorem execPtrootWrite_memsOk {ty x} (h : s.memsOk) : Result.memsOk (execPtrootWrite ty x s) := by
  unfold execPtrootWrite
  refine hostTakes_memsOk h fun t e => ?_
  grind [← updTenant_memsOk]

theorem execTlbinvGo_memsOk {x} (h : s.memsOk) : Result.memsOk (execTlbinvGo x s) := by
  unfold execTlbinvGo
  refine hostTakes_memsOk h fun t e => ?_
  grind [← updHost_memsOk]

theorem invalidate_memsOk {ty va n} (h : s.memsOk) : (invalidate s ty va n).memsOk :=
  dropReplicas_memsOk _ h

theorem execTlbinvDone_memsOk (h : s.memsOk) : Result.memsOk (execTlbinvDone s) := by
  unfold execTlbinvDone
  refine happen_memsOk h fun t e => ?_
  grind [Option.map_eq_some_iff, ← invalidate_memsOk, ← updHost_memsOk]

theorem recallPage_memsOk {isl base n} (h : s.memsOk) : (recallPage s isl base n).memsOk := by
  unfold recallPage
  grind [← evict_memsOk, ← updCore_memsOk, ← foldl_memsOk]

theorem execMigrationWindow_memsOk {tenant va toIsl} (h : s.memsOk) :
    Result.memsOk (execMigrationWindow tenant va toIsl s) := by
  unfold execMigrationWindow
  refine happen_memsOk h fun t e => ?_
  grind [Option.map_eq_some_iff, → takeFrame_memsOk, ← recallPage_memsOk, ← memsOk_mk, ← memsOk_mem, ← memsOk_hostMem]

theorem moveAccesses_memsOk {m} (h : s.memsOk) : (moveAccesses s m).memsOk := by
  unfold moveAccesses
  grind [← updIsl_memsOk, ← memsOk_mk, ← memsOk_mem, ← memsOk_hostMem]

theorem giveUp_memsOk {mig m} (h : s.memsOk) : (giveUp s mig m).memsOk :=
  updPcp_memsOk (clearLocks_memsOk (dropFrame_memsOk h))

theorem execMigrationCopyDone_memsOk {mig} (h : s.memsOk) : Result.memsOk (execMigrationCopyDone mig s) := by
  unfold execMigrationCopyDone
  refine happen_memsOk h fun t e => ?_
  obtain ⟨m, -, e⟩ := Option.bind_eq_some_iff.1 e
  obtain ⟨-, e⟩ := Option.ite_none_left_eq_some.1 e
  split_ifs at e
  · cases e
    exact giveUp_memsOk h
  · cases e
    refine clearLocks_memsOk (dropFrame_memsOk (forgetRange_memsOk (updPcp_memsOk (moveAccesses_memsOk
      (invalidate_memsOk (moveEntry_memsOk _ (moveBytes_memsOk _ ?_)))))))
    exact foldl_memsOk (fun _ _ h => changeLine_memsOk _ (conflictOn_memsOk _ _ _ h)) _ _ h

theorem hostPieces_memsOk {tenant ps} (h : s.memsOk) : (hostPieces s tenant ps).2.memsOk := by
  induction ps generalizing s with
  | nil => exact h
  | cons x xs ih =>
    unfold hostPieces
    grind [← pcpTouch_memsOk]

theorem hostWrite_memsOk {ps bs} (h : s.memsOk) : (hostWrite s ps bs).memsOk := by
  induction ps generalizing s bs with
  | nil => exact h
  | cons x xs ih =>
    unfold hostWrite
    grind [← writeWhenFree_memsOk, ← touch_memsOk]

theorem execHostMemoryAccess_memsOk {tenant va acc} (h : s.memsOk) :
    Result.memsOk (execHostMemoryAccess tenant va acc s) := by
  unfold execHostMemoryAccess
  refine hostTakes_memsOk h fun t e => ?_
  grind [← hostPieces_memsOk, ← readPieces_memsOk, ← hostWrite_memsOk]

/-! ## Platform -/

theorem execEqheadWrite_memsOk {x} (h : s.memsOk) : Result.memsOk (execEqheadWrite x s) := by
  unfold execEqheadWrite
  refine hostTakes_memsOk h fun t e => ?_
  dsimp only at e
  split at e
  · cases e
  · cases e; exact updHost_memsOk h

theorem execEqRingWrite_memsOk {size x} (h : s.memsOk) : Result.memsOk (execEqRingWrite size x s) := by
  unfold execEqRingWrite
  refine hostTakes_memsOk h fun t e => ?_
  grind [← updHost_memsOk]

theorem execEqlostWrite_memsOk {_x} (h : s.memsOk) : Result.memsOk (execEqlostWrite _x s) := by
  unfold execEqlostWrite
  refine hostTakes_memsOk h fun t e => ?_
  grind [← updHost_memsOk]

theorem sense_memsOk {isl watts celsius} (h : s.memsOk) : (sense s isl watts celsius).memsOk := by
  unfold sense
  grind [← updIsl_memsOk, ← memsOk_mk, ← memsOk_mem, ← memsOk_hostMem]

theorem execClockStep_memsOk {isl raise} (h : s.memsOk) : Result.memsOk (execClockStep isl raise s) := by
  unfold execClockStep
  refine happen_memsOk h fun t e => ?_
  grind [← event_memsOk, ← updIsl_memsOk]

theorem execThermalStop_memsOk {isl} (h : s.memsOk) : Result.memsOk (execThermalStop isl s) := by
  unfold execThermalStop
  refine happen_memsOk h fun t e => ?_
  grind [← clocks_memsOk, ← islandFails_memsOk]

theorem execWarmReset_memsOk (h : s.memsOk) : Result.memsOk (execWarmReset s) := by
  unfold execWarmReset
  refine hostTakes_memsOk h fun t e => ?_
  grind [← warmly_memsOk]

theorem execColdReset_memsOk (h : s.memsOk) : Result.memsOk (execColdReset s) := by
  unfold execColdReset
  refine hostTakes_memsOk h fun t e => ?_
  grind [← coldly_memsOk]

theorem execPowerOn_memsOk (h : s.memsOk) : Result.memsOk (execPowerOn s) :=
  next_memsOk (memsOk_mk rfl (coldly_memsOk h).2)

theorem trainLinks_memsOk (h : s.memsOk) : (trainLinks s).memsOk := by
  unfold trainLinks
  grind [← updLink_memsOk, ← topologyUpdate_memsOk, ← fabricEvent_memsOk, ← foldl_memsOk, ← memsOk_mk, ← memsOk_mem,
    ← memsOk_hostMem]

theorem execBootStage_memsOk {image failed} (h : s.memsOk) : Result.memsOk (execBootStage image failed s) := by
  unfold execBootStage
  refine happen_memsOk h fun t e => ?_
  grind [← updIsl_memsOk, ← trainLinks_memsOk, ← updHost_memsOk, ← foldl_memsOk]

theorem execAttest_memsOk (h : s.memsOk) : Result.memsOk (execAttest s) := by
  unfold execAttest
  refine hostTakes_memsOk h fun t e => ?_
  grind [← updHost_memsOk]

theorem execAttestDone_memsOk (h : s.memsOk) : Result.memsOk (execAttestDone s) := by
  unfold execAttestDone
  refine happen_memsOk h fun t e => ?_
  grind [← updHost_memsOk, ← foldl_memsOk]

theorem mgmtWrite_memsOk {off x t} (e : mgmtWrite s off x = some t) (h : s.memsOk) : t.memsOk := by
  unfold mgmtWrite at e
  grind [← coldly_memsOk, ← warmly_memsOk, ← updHost_memsOk]

theorem execMgmtRegisterWrite_memsOk {off x} (h : s.memsOk) : Result.memsOk (execMgmtRegisterWrite off x s) := by
  unfold execMgmtRegisterWrite
  refine hostTakes_memsOk h fun t e => ?_
  grind [→ mgmtWrite_memsOk]

theorem queueRegWrite_memsOk {q r x} (h : s.memsOk) : Result.memsOk (queueRegWrite q r x s) := by
  unfold queueRegWrite
  split
  · exact execQcfgWrite_memsOk h
  · exact hostTakes_some_memsOk h (updQueue_memsOk h)
  · refine hostTakes_memsOk h fun t e => ?_
    obtain ⟨-, rfl⟩ := by simpa using e
    exact updQueue_memsOk h
  · exact hostTakes_some_memsOk h (updQueue_memsOk h)
  · split
    · exact execReleaseHeld_memsOk h
    · exact next_memsOk h
  · exact next_memsOk h

theorem tenantRegWrite_memsOk {t r x} (h : s.memsOk) : Result.memsOk (tenantRegWrite t r x s) := by
  unfold tenantRegWrite
  split
  · exact execTcfgWrite_memsOk h
  · exact execPtrootWrite_memsOk h
  · split
    · exact next_memsOk h
    · exact execPreemptStop_memsOk h
    · exact execPreemptResume_memsOk h
    · exact hostTakes_some_memsOk h (preemptFields_memsOk h)
  · exact hostTakes_some_memsOk h (updTenant_memsOk h)
  · split
    · exact execCrewctlResume_memsOk h
    · exact execCrewctlEnd_memsOk h
    · exact execCrewctlRollback_memsOk h
    · exact next_memsOk h
  · split
    · exact execTenantReset_memsOk h
    · exact next_memsOk h
  · exact next_memsOk h

theorem tlbRangeWrite_memsOk {x} (h : s.memsOk) : Result.memsOk (tlbRangeWrite x s) := by
  unfold tlbRangeWrite
  refine hostTakes_memsOk h fun t e => ?_
  grind [← updHost_memsOk]

theorem execRegisterWrite_memsOk {off x} (h : s.memsOk) : Result.memsOk (execRegisterWrite off x s) := by
  unfold execRegisterWrite
  grind [← queueRegWrite_memsOk, ← tenantRegWrite_memsOk, ← execGroupTableWrite_memsOk, ← execEqRingWrite_memsOk,
    ← execEqheadWrite_memsOk, ← execEqlostWrite_memsOk, ← tlbRangeWrite_memsOk, ← execTlbinvGo_memsOk,
    ← execFaultreply_memsOk, ← execMgmtRegisterWrite_memsOk, ← next_memsOk, ← fault_memsOk, ← refused_memsOk]

end Sys2Proof.Machine
end


-- ==== Proofs/FormWords.lean ====
section
/-! PROOFS. Scalar words, transactions and synchronisation keep both memories in canonical form. -/

namespace Sys2Proof.Machine

variable {s : State}

/-! ## Scalar -/

theorem scalarOp_memsOk {ty d f} (h : s.memsOk) : Result.memsOk (scalarOp s ty d f) :=
  issue_memsOk fun _ => step8_memsOk h

theorem scalar2Op_memsOk {ty d a b op} (h : s.memsOk) : Result.memsOk (scalar2Op s ty d a b op) :=
  scalarOp_memsOk h

theorem scalarImmOp_memsOk {ty d a imm op} (h : s.memsOk) : Result.memsOk (scalarImmOp s ty d a imm op) :=
  scalarOp_memsOk h

theorem scalarShift_memsOk {ty d a b op} (h : s.memsOk) : Result.memsOk (scalarShift s ty d a b op) :=
  scalarOp_memsOk h

/-! ## Txn -/

theorem askToken_memsOk {x} (h : s.memsOk) : (askToken s x).memsOk := by
  unfold askToken
  grind [← updIsl_memsOk, ← updTeam_memsOk]

theorem execTxb_memsOk {disp} (h : s.memsOk) : Result.memsOk (execTxb disp s) := by
  unfold execTxb
  refine issue_memsOk fun x => ?_
  grind [← charge_memsOk, ← abortTx_memsOk, ← raiseTeam_memsOk, ← askToken_memsOk, ← step8_memsOk, ← l1Acquire_memsOk]

theorem execTxo_memsOk {disp} (h : s.memsOk) : Result.memsOk (execTxo disp s) := by
  unfold execTxo
  refine issue_memsOk fun x => ?_
  grind [← step8_memsOk, ← raiseTeam_memsOk, ← forbid_memsOk, ← charge_memsOk, ← abortTx_memsOk]

theorem commitLine_memsOk {u tag w line} (h : s.memsOk) : (commitLine s u tag w line).memsOk := by
  unfold commitLine
  grind [← reachLine_memsOk, ← invalidateOthers_memsOk, ← logWrite_memsOk, ← wr_memsOk, ← changeLine_memsOk,
    ← foldl_memsOk]

theorem commitWrites_memsOk {u tag w} (h : s.memsOk) : (commitWrites s u tag w).memsOk := by
  unfold commitWrites
  grind [← commitLine_memsOk, ← homeAdd_memsOk, ← foldl_memsOk]

theorem execTxe_memsOk (h : s.memsOk) : Result.memsOk (execTxe s) := by
  unfold execTxe
  refine issue_memsOk fun x => ?_
  split
  · exact step8_memsOk h
  · split
    · exact h
    · exact step8_memsOk (commitWrites_memsOk (tokenDrop_memsOk (setTeam_memsOk (watchDrop_memsOk _ (l1Clean_memsOk
      h)))))

theorem retryTx_memsOk {x tx} (h : s.memsOk) : (retryTx s x tx).memsOk := by
  unfold retryTx
  grind [← finish_memsOk, ← setTeam_memsOk, ← sleepTeam_memsOk, ← charge_memsOk, ← abortTx_memsOk]

theorem execTxr_memsOk (h : s.memsOk) : Result.memsOk (execTxr s) := by
  unfold execTxr
  refine issue_memsOk fun x => ?_
  grind [← step8_memsOk, ← retryTx_memsOk]

theorem execTxa_memsOk (h : s.memsOk) : Result.memsOk (execTxa s) := by
  unfold execTxa
  refine issue_memsOk fun x => ?_
  grind [← step8_memsOk, ← charge_memsOk, ← abortTx_memsOk]

theorem execTxs_memsOk {d} (h : s.memsOk) : Result.memsOk (execTxs d s) :=
  issue_memsOk fun _ => step8_memsOk h

theorem execTeamWake_memsOk {team} (h : s.memsOk) : Result.memsOk (execTeamWake team s) := by
  unfold execTeamWake
  refine happen_memsOk h fun t e => ?_
  grind [← updTeam_memsOk, ← crumbForget_memsOk]

theorem execIrrevocableTokenGrant_memsOk {isl} (h : s.memsOk) : Result.memsOk (execIrrevocableTokenGrant isl s) := by
  unfold execIrrevocableTokenGrant
  refine happen_memsOk h fun t e => ?_
  grind [← updIsl_memsOk]

theorem execIrrevocableTimeout_memsOk {team} (h : s.memsOk) : Result.memsOk (execIrrevocableTimeout team s) := by
  unfold execIrrevocableTimeout
  refine happen_memsOk h fun t e => ?_
  grind [← abortTx_memsOk]

/-! ## Sync -/

theorem execFence_memsOk {ord scope} (h : s.memsOk) : Result.memsOk (execFence ord scope s) := by
  unfold execFence
  refine issue_memsOk fun x => ?_
  grind [← step8_memsOk, ← acquireAt_memsOk, ← relDone_memsOk]

theorem orRaise_memsOk {x cs go} (h : s.memsOk) (hgo : go.memsOk) : (orRaise s x cs go).memsOk := by
  unfold orRaise
  grind [← raiseTeam_memsOk]

theorem waitOn_memsOk {x as go} (h : s.memsOk) (hgo : go.memsOk) : (waitOn s x as go).memsOk := by
  unfold waitOn
  grind [← askToken_memsOk, ← updTeam_memsOk, ← charge_memsOk]

theorem waitOver_memsOk {x} (h : s.memsOk) : (waitOver s x).memsOk := by
  unfold waitOver
  grind [← updTeam_memsOk, ← tokenBack_memsOk]

theorem execBini_memsOk {bar bytes arr} (h : s.memsOk) : Result.memsOk (execBini bar bytes arr s) := by
  unfold execBini
  refine issue_memsOk fun x => ?_
  grind [← orRaise_memsOk, ← step8_memsOk, ← crewPut_memsOk]

theorem execBarv_memsOk {d bar bytes} (h : s.memsOk) : Result.memsOk (execBarv d bar bytes s) := by
  unfold execBarv
  refine issue_memsOk fun x => ?_
  grind [← orRaise_memsOk, ← step8_memsOk, ← barrierUpdate_memsOk]

theorem waitWord_memsOk {x word ready sc} (h : s.memsOk) : (waitWord s x word ready sc).memsOk := by
  unfold waitWord
  grind [← step8_memsOk, ← acquireAt_memsOk, ← retryTx_memsOk, ← sleepTeam_memsOk, ← charge_memsOk]

theorem waitLine_memsOk {x va pa n ready sc} (h : s.memsOk) : (waitLine s x va pa n ready sc).memsOk := by
  unfold waitLine
  grind [→ txJoin_memsOk, ← charge_memsOk, ← abortTx_memsOk, ← step8_memsOk, ← acquireAt_memsOk, ← retryTx_memsOk,
    ← waitOn_memsOk, ← homeRead_memsOk, ← waitOver_memsOk, ← sleepTeam_memsOk]

theorem execBwt_memsOk {bar ph} (h : s.memsOk) : Result.memsOk (execBwt bar ph s) := by
  unfold execBwt
  refine issue_memsOk fun x => ?_
  grind [← orRaise_memsOk, ← waitWord_memsOk]

theorem withDesc_memsOk {x en q go} (h : s.memsOk) (hgo : ∀ y y1 y2 y3, y.memsOk → (go y y1 y2 y3).memsOk) :
    (withDesc s x en q go).memsOk := by
  unfold withDesc
  grind [← checked_memsOk, → txJoin_memsOk, ← charge_memsOk, ← abortTx_memsOk, ← orRaise_memsOk, ← waitOn_memsOk,
    ← homeRead_memsOk]

theorem notReady_memsOk {x tx pa} (h : s.memsOk) : (notReady s x tx pa).memsOk := by
  unfold notReady
  grind [← retryTx_memsOk, ← waitOver_memsOk, ← sleepTeam_memsOk, ← charge_memsOk]

theorem execQpsh_memsOk {en q r} (h : s.memsOk) : Result.memsOk (execQpsh en q r s) := by
  unfold execQpsh
  refine issue_memsOk fun x => ?_
  split
  · exact h
  · refine withDesc_memsOk h fun s tx hit d h => ?_
    split
    · exact notReady_memsOk h
    · refine checkedWith_memsOk h fun s hs h => ?_
      dsimp only
      split
      · exact txWord_memsOk h
      · exact waitOn_memsOk h (waitOver_memsOk (step8_memsOk (homeWrite_memsOk _ _ _ _ _
          (homeWrite_memsOk _ _ _ _ _ (l1Clean_memsOk h)))))

theorem execQpop_memsOk {en d q} (h : s.memsOk) : Result.memsOk (execQpop en d q s) := by
  unfold execQpop
  refine issue_memsOk fun x => ?_
  refine withDesc_memsOk h fun s tx hit d h => ?_
  split
  · exact notReady_memsOk h
  · refine checkedWith_memsOk h fun s hs h => ?_
    dsimp only
    split
    · split
      · exact h
      · split
        · exact charge_memsOk (abortTx_memsOk _ _ h)
        · next e => exact txWord_memsOk (l1Acquire_memsOk (txJoin_memsOk e h))
    · exact waitOn_memsOk h (waitOver_memsOk (step8_memsOk (l1Acquire_memsOk (homeWrite_memsOk _ _ _ _ _
        (homeRead_memsOk h)))))

theorem execNtfy_memsOk {ctr inc} (h : s.memsOk) : Result.memsOk (execNtfy ctr inc s) := by
  unfold execNtfy
  refine issue_memsOk fun x => ?_
  grind [← checked_memsOk, ← txWord_memsOk, ← enterRemote_memsOk, ← l1Clean_memsOk]

theorem execNwt_memsOk {ctr tgt} (h : s.memsOk) : Result.memsOk (execNwt ctr tgt s) := by
  unfold execNwt
  refine issue_memsOk fun x => ?_
  grind [← checked_memsOk, ← waitLine_memsOk]

theorem execTlrd_memsOk {eng mode d} (h : s.memsOk) : Result.memsOk (execTlrd eng mode d s) := by
  unfold execTlrd
  refine issue_memsOk fun x => ?_
  grind [← raiseTeam_memsOk, ← step8_memsOk]

theorem execTlwt_memsOk {eng n} (h : s.memsOk) : Result.memsOk (execTlwt eng n s) := by
  unfold execTlwt
  refine issue_memsOk fun x => ?_
  grind [← raiseTeam_memsOk, ← waitLine_memsOk, ← step8_memsOk, ← acquireAt_memsOk]

end Sys2Proof.Machine
end


-- ==== Proofs/Steps.lean ====
section
/-! PROOFS. Every step keeps both memories in canonical form and leaves no word half issued (logs 1 and 4): the dispatch
of words and events keeps the form, and each way a move can end clears the word that issues. -/

namespace Sys2Proof.Machine

/-! ## Words and events -/

/-- Every word and every event keeps the form of both memories. -/
theorem exec_memsOk {s : State} (i : Instr) (h : s.memsOk) : Result.memsOk (exec i s) := by
  cases i with dsimp only [exec]
  | nop => exact execNop_memsOk h
  | bra => exact execBra_memsOk h
  | brc => exact execBrc_memsOk h
  | brv => exact execBrv_memsOk h
  | join => exact execJoin_memsOk h
  | brk => exact execBrk_memsOk h
  | call => exact execCall_memsOk h
  | callr => exact execCallr_memsOk h
  | ret => exact execRet_memsOk h
  | jmpr => exact execJmpr_memsOk h
  | exit => exact execExit_memsOk h
  | yield => exact execYield_memsOk h
  | trap => exact execTrap_memsOk h
  | mark => exact execMark_memsOk h
  | spawn => exact execSpawn_memsOk h
  | qry => exact execQry_memsOk h
  | sreg => exact execSreg_memsOk h
  | smov | smovi | smovh | ssel | sbfi | spopc | sclz => exact scalarOp_memsOk h
  | sadd | ssub | smul | smulh | sdiv | srem | sand | sor | sxor | smin | smax | scmp | sbfe =>
    exact scalar2Op_memsOk h
  | saddImm | ssubImm | smulImm | sandImm | sorImm | sxorImm | sshlImm | sshrImm | ssraImm | sminImm | smaxImm =>
    exact scalarImmOp_memsOk h
  | sshl | sshr | ssra => exact scalarShift_memsOk h
  | mbal | many | mall | mpop => exact maskWordOp_memsOk h
  | mset => exact execMset_memsOk h
  | setix => exact execSetix_memsOk h
  | setfmt => exact execSetfmt_memsOk h
  | getfmt => exact execGetfmt_memsOk h
  | setk => exact execSetk_memsOk h
  | getk => exact execGetk_memsOk h
  | waitc => exact execWaitc_memsOk h
  | xfer => exact execXfer_memsOk h
  | vadd | vsub | vmul | vmulh | vmin | vmax | vand | vor | vxor | vbfe => exact vec2Op_memsOk h
  | vaddImm | vsubImm | vmulImm | vminImm | vmaxImm | vandImm | vorImm | vxorImm | vshlImm | vshrImm | vsraImm =>
    exact vecImmOp_memsOk h
  | vmad => exact execVmad_memsOk h
  | vabs | vneg | vnot | vpopc | vclz | vmov => exact vec1Op_memsOk h
  | vshl | vshr | vsra => exact vecShift_memsOk h
  | vbfi => exact execVbfi_memsOk h
  | vcmp => exact execVcmp_memsOk h
  | vsel => exact execVsel_memsOk h
  | vmovi => exact execVmovi_memsOk h
  | fadd | fsub | fmul | fmin | fmax | fdiv => exact flt2Op_memsOk h
  | faddImm | fsubImm | fmulImm | fminImm | fmaxImm => exact fltImmOp_memsOk h
  | ffma => exact execFfma_memsOk h
  | fcmp => exact execFcmp_memsOk h
  | frcp | frsq | fsqrt | fex2 | flg2 | fsin | fcos | ffrc | frnd => exact flt1Op_memsOk h
  | cvt => exact execCvt_memsOk h
  | lpack => exact execLpack_memsOk h
  | lunp => exact execLunp_memsOk h
  | hpack => exact execHpack_memsOk h
  | shfl => exact execShfl_memsOk h
  | pshw => exact execPshw_memsOk h
  | bcst => exact execBcst_memsOk h
  | vred => exact execVred_memsOk h
  | vscan => exact execVscan_memsOk h
  | pairWord => exact execPairWord_memsOk h
  | ld => exact execLd_memsOk h
  | st => exact execSt_memsOk h
  | lds => exact execLds_memsOk h
  | sts => exact execSts_memsOk h
  | ldl => exact execLdl_memsOk h
  | stl => exact execStl_memsOk h
  | lda => exact execLda_memsOk h
  | sta => exact execSta_memsOk h
  | pref => exact execPref_memsOk h
  | cflush => exact execCflush_memsOk h
  | cinv => exact execCinv_memsOk h
  | atom => exact execAtom_memsOk h
  | red => exact execRed_memsOk h
  | put => exact execPut_memsOk h
  | putn => exact execPutn_memsOk h
  | putm => exact execPutm_memsOk h
  | get => exact execGet_memsOk h
  | ratom => exact execRatom_memsOk h
  | cpy => exact execCpy_memsOk h
  | cpyt => exact execCpyt_memsOk h
  | macq => exact execMacq_memsOk h
  | mrel => exact execMrel_memsOk h
  | mgang => exact execMgang_memsOk h
  | mwld => exact execMwld_memsOk h
  | mma => exact execMma_memsOk h
  | mmag => exact execMmag_memsOk h
  | mdrn => exact execMdrn_memsOk h
  | mzro => exact execMzro_memsOk h
  | mtld => exact execMtld_memsOk h
  | mtst => exact execMtst_memsOk h
  | mpoly => exact execMpoly_memsOk h
  | miter => exact execMiter_memsOk h
  | mtab => exact execMtab_memsOk h
  | mstat => exact execMstat_memsOk h
  | txb => exact execTxb_memsOk h
  | txo => exact execTxo_memsOk h
  | txe => exact execTxe_memsOk h
  | txr => exact execTxr_memsOk h
  | txa => exact execTxa_memsOk h
  | txs => exact execTxs_memsOk h
  | fence => exact execFence_memsOk h
  | bini => exact execBini_memsOk h
  | barv => exact execBarv_memsOk h
  | bwt => exact execBwt_memsOk h
  | qpsh => exact execQpsh_memsOk h
  | qpop => exact execQpop_memsOk h
  | ntfy => exact execNtfy_memsOk h
  | nwt => exact execNwt_memsOk h
  | tlrd => exact execTlrd_memsOk h
  | tlwt => exact execTlwt_memsOk h
  | coll => exact execColl_memsOk h
  | recordSlotWrite => exact execRecordSlotWrite_memsOk h
  | requestDatagram => exact execRequestDatagram_memsOk h
  | arbitrationDecision => exact execArbitrationDecision_memsOk h
  | queuePromotion => exact execQueuePromotion_memsOk h
  | holdCounterWake => exact execHoldCounterWake_memsOk h
  | crewPlacement => exact execCrewPlacement_memsOk h
  | reservingKernel => exact execReservingKernel_memsOk h
  | rangeTakeRetry => exact execRangeTakeRetry_memsOk h
  | islandFailure => exact execIslandFailure_memsOk h
  | activeMessage => exact execActiveMessage_memsOk h
  | binTimerExpiry => exact execBinTimerExpiry_memsOk h
  | poolReinject => exact execPoolReinject_memsOk h
  | overflowReinject => exact execOverflowReinject_memsOk h
  | segmentMapRefresh => exact execSegmentMapRefresh_memsOk h
  | replicaWindow => exact execReplicaWindow_memsOk h
  | replicaRetirement => exact execReplicaRetirement_memsOk h
  | teamPromotion => exact execTeamPromotion_memsOk h
  | loadDataWritten => exact execLoadDataWritten_memsOk h
  | storePerformed => exact execStorePerformed_memsOk h
  | remoteAcknowledge => exact execRemoteAcknowledge_memsOk h
  | demandPageFill => exact execDemandPageFill_memsOk h
  | readSharedCopy => exact execReadSharedCopy_memsOk h
  | migrationWindow => exact execMigrationWindow_memsOk h
  | migrationCopyDone => exact execMigrationCopyDone_memsOk h
  | teamWake => exact execTeamWake_memsOk h
  | irrevocableTokenGrant => exact execIrrevocableTokenGrant_memsOk h
  | irrevocableTimeout => exact execIrrevocableTimeout_memsOk h
  | copyChunkWritten => exact execCopyChunkWritten_memsOk h
  | arrayArbitration => exact execArrayArbitration_memsOk h
  | arrayRequestPromotion => exact execArrayRequestPromotion_memsOk h
  | matrixCommandComplete => exact execMatrixCommandComplete_memsOk h
  | miterPhase => exact execMiterPhase_memsOk h
  | collectivePacket => exact execCollectivePacket_memsOk h
  | collChunkComplete => exact execCollChunkComplete_memsOk h
  | collComplete => exact execCollComplete_memsOk h
  | chunkTimeout => exact execChunkTimeout_memsOk h
  | deadlineSlack => exact execDeadlineSlack_memsOk h
  | packetRelay => exact execPacketRelay_memsOk h
  | packetReturn => exact execPacketReturn_memsOk h
  | packetDelivery => exact execPacketDelivery_memsOk h
  | flitReceived => exact execFlitReceived_memsOk h
  | nakRepeat => exact execNakRepeat_memsOk h
  | linkDownTimeout => exact execLinkDownTimeout_memsOk h
  | limitsPeriod => exact execLimitsPeriod_memsOk h
  | credit => exact execCredit_memsOk h
  | limits => exact execLimits_memsOk h
  | swapreq => exact execSwapreq_memsOk h
  | swapack => exact execSwapack_memsOk h
  | train => exact execTrain_memsOk h
  | laneSampleWindow => exact execLaneSampleWindow_memsOk h
  | swapTimeout => exact execSwapTimeout_memsOk h
  | lightLoss => exact execLightLoss_memsOk h
  | laserModuleDark => exact execLaserModuleDark_memsOk h
  | uncorrectableError => exact execUncorrectableError_memsOk h
  | kernelRetirement => exact execKernelRetirement_memsOk h
  | preemptStopDone => exact execPreemptStopDone_memsOk h
  | preemptResumeDone => exact execPreemptResumeDone_memsOk h
  | tenantResetDone => exact execTenantResetDone_memsOk h
  | bootStage => exact execBootStage_memsOk h
  | qcfgWrite => exact execQcfgWrite_memsOk h
  | tcfgWrite => exact execTcfgWrite_memsOk h
  | releaseHeld => exact execReleaseHeld_memsOk h
  | ptrootWrite => exact execPtrootWrite_memsOk h
  | eqheadWrite => exact execEqheadWrite_memsOk h
  | eqRingWrite => exact execEqRingWrite_memsOk h
  | eqlostWrite => exact execEqlostWrite_memsOk h
  | tlbinvGo => exact execTlbinvGo_memsOk h
  | tlbinvDone => exact execTlbinvDone_memsOk h
  | faultreply => exact execFaultreply_memsOk h
  | groupTableWrite => exact execGroupTableWrite_memsOk h
  | preemptStop => exact execPreemptStop_memsOk h
  | preemptResume => exact execPreemptResume_memsOk h
  | crewctlResume => exact execCrewctlResume_memsOk h
  | crewctlEnd => exact execCrewctlEnd_memsOk h
  | crewctlRollback => exact execCrewctlRollback_memsOk h
  | tenantReset => exact execTenantReset_memsOk h
  | warmReset => exact execWarmReset_memsOk h
  | coldReset => exact execColdReset_memsOk h
  | attest => exact execAttest_memsOk h
  | attestDone => exact execAttestDone_memsOk h
  | mgmtRegisterWrite => exact execMgmtRegisterWrite_memsOk h
  | clockStep => exact execClockStep_memsOk h
  | thermalStop => exact execThermalStop_memsOk h
  | registerWrite => exact execRegisterWrite_memsOk h
  | hostMemoryAccess => exact execHostMemoryAccess_memsOk h
  | recordWindowWrite => exact execRecordWindowWrite_memsOk h
  | lightReturn => exact execLightReturn_memsOk h
  | powerOn => exact execPowerOn_memsOk h

theorem wordAt_memsOk {s : State} (x : Issuer) (h : s.memsOk) : Result.memsOk (wordAt s x) := by
  unfold wordAt
  split
  · exact next_memsOk (fallOff_memsOk h)
  · split
    · exact next_memsOk (raiseTeam_memsOk h)
    · split
      · exact next_memsOk h
      · exact exec_memsOk _ h

/-! ## The writes that a move's end performs issue no word -/

theorem foldl_cur {α : Type} {f : State → α → State} (hf : ∀ s x, (f s x).cur = s.cur) (xs : List α) (s : State) :
    (xs.foldl f s).cur = s.cur := by
  induction xs generalizing s with
  | nil => rfl
  | cons x xs ih => rw [List.foldl_cons, ih, hf]

theorem event_cur (s : State) (a b c d e f g : Nat) : (s.event a b c d e f g).cur = s.cur := by
  unfold State.event
  split <;> rfl

theorem watchDrop_cur (s : State) (u : Nat) : (watchDrop s u).cur = s.cur := by
  unfold watchDrop
  grind [State.updCore_cur]

theorem abortTx_cur (s : State) (u : Nat) (c : TxCode) : (abortTx s u c).cur = s.cur := by
  unfold abortTx tokenDrop
  grind [watchDrop_cur, State.updIsl_cur, State.setTeam_cur]

theorem conflictOn_cur (s : State) (b : Option Nat) (w : Bool) (l : Nat) : (conflictOn s b w l).cur = s.cur := by
  unfold conflictOn
  grind [foldl_cur, abortTx_cur]

theorem crumbForget_cur (s : State) (u : Nat) : (crumbForget s u).cur = s.cur := watchDrop_cur s u

theorem wakeWaiter_cur (s : State) (w : Waiter) : (wakeWaiter s w).cur = s.cur := by
  unfold wakeWaiter
  grind [crumbForget_cur, State.setTeam_cur, State.updKernel_cur]

theorem changeLine_cur (s : State) (l : Nat) : (changeLine s l).cur = s.cur := by
  unfold changeLine
  grind [foldl_cur, wakeWaiter_cur, State.updIsl_cur]

theorem combine_cur (s : State) (l : L1Line) : (combine s l).cur = s.cur := by
  unfold combine
  grind [foldl_cur, State.wrNat_cur]

theorem recallLine_cur (s : State) (l : Nat) : (recallLine s l).cur = s.cur := by
  unfold recallLine
  grind [foldl_cur, combine_cur, changeLine_cur, State.updCore_cur]

theorem invalidateOthers_cur (s : State) (l : Nat) (k : Option Nat) : (invalidateOthers s l k).cur = s.cur := by
  unfold invalidateOthers
  grind [foldl_cur, State.updCore_cur]

theorem l2Evict_cur (s : State) (l : Nat) : (l2Evict s l).cur = s.cur := by
  rw [l2Evict, invalidateOthers_cur, recallLine_cur]

theorem l2Touch_cur (s : State) (l b : Nat) (st : Bool) : (l2Touch s l b st).cur = s.cur := by
  unfold l2Touch
  grind [foldl_cur, l2Evict_cur, State.updIsl_cur]

theorem reachLine_cur (s : State) (b : Option Nat) (w st : Bool) (pa n l : Nat) :
    (reachLine s b w st pa n l).cur = s.cur := by
  rw [reachLine, l2Touch_cur, conflictOn_cur, recallLine_cur]

theorem logSector_cur (s : State) (t : SpanTag) (own : SMap Byte) (x : Nat) : (logSector s t own x).cur = s.cur := by
  unfold logSector
  grind [event_cur, State.updIsl_cur, State.updKernel_cur]

theorem logWrite_cur (s : State) (t : Option SpanTag) (pa n : Nat) (own : SMap Byte) :
    (logWrite s t pa n own).cur = s.cur := by
  unfold logWrite
  grind [foldl_cur, logSector_cur]

theorem homeWrite_cur (s : State) (b : Option Nat) (t : Option SpanTag) (k : Option Nat) (pa : Nat) (bs : List Byte) :
    (homeWrite s b t k pa bs).cur = s.cur := by
  unfold homeWrite
  grind [foldl_cur, changeLine_cur, logWrite_cur, invalidateOthers_cur, reachLine_cur, State.wr_cur]

theorem hold_cur (s : State) (id : Nat) : (hold s id).cur = s.cur := by
  unfold hold
  split <;> rfl

theorem holdWrite_cur (s : State) (h : HeldWrite) : (holdWrite s h).cur = s.cur := by
  unfold holdWrite
  dsimp only
  split
  · exact hold_cur _ _
  · rfl

theorem drainFrom_cur (hs : List HeldWrite) (s : State) : (drainFrom hs s).cur = s.cur := by
  induction hs generalizing s with
  | nil => rfl
  | cons h hs ih =>
    rw [drainFrom, ih]
    split
    · exact holdWrite_cur s h
    · exact homeWrite_cur _ _ _ _ _ _

theorem drainHeld_cur (s : State) : (drainHeld s).cur = s.cur := by
  unfold drainHeld
  extract_lets s1
  have h1 : s1.cur = s.cur := by grind [drainFrom_cur]
  split
  · exact h1
  · exact h1

/-! ## Where a move ends -/

theorem endMove_cur (s : State) : (endMove s).cur = none := drainHeld_cur _

theorem endMove_memsOk {s : State} (h : s.memsOk) : (endMove s).memsOk :=
  clocks_memsOk (drainHeld_memsOk (s := { s with cur := none }) h)

theorem endMove_wf {s : State} (h : s.memsOk) : (endMove s).wf :=
  ⟨endMove_cur s, endMove_memsOk h⟩

theorem holdTeam_wf {s : State} (u : Nat) (h : s.memsOk) : (holdTeam s u).wf := ⟨rfl, h⟩

theorem afterWord_wf {s t : State} (x : Issuer) (h : s.memsOk) (ht : t.memsOk) : (afterWord s x t).wf := by
  unfold afterWord
  split
  · exact holdTeam_wf _ h
  · exact endMove_wf ht

/-! ## Time that passes -/

theorem passTime_memsOk {s : State} (n : Nat) (h : s.memsOk) : (passTime s n).memsOk := by
  unfold passTime
  split <;> exact h

theorem passTo_memsOk {s : State} (end_ fuel : Nat) (h : s.memsOk) : (passTo end_ fuel s).memsOk := by
  induction fuel generalizing s with
  | zero => exact passTime_memsOk _ h
  | succ fuel ih =>
    unfold passTo
    split
    · exact passTime_memsOk _ h
    · dsimp only
      split
      · next i _ s' he => exact ih (endMove_memsOk (exec_memsOk _ (passTime_memsOk _ h) s' he))
      · exact ih (passTime_memsOk _ h)

theorem pass_memsOk {s : State} (n : Nat) (h : s.memsOk) : (pass s n).memsOk := by
  unfold pass
  split
  · exact h
  · exact passTo_memsOk _ _ h

theorem passTime_cur (s : State) (n : Nat) : (passTime s n).cur = s.cur := by
  unfold passTime
  split <;> rfl

theorem passTo_cur (end_ fuel : Nat) (s : State) : (passTo end_ fuel s).cur = s.cur := by
  induction fuel generalizing s with
  | zero => exact passTime_cur _ _
  | succ fuel ih =>
    unfold passTo
    split
    · exact passTime_cur _ _
    · dsimp only
      split
      · rw [ih]
        exact passTime_cur _ _
      · rw [ih]
        exact passTime_cur _ _

theorem pass_cur (s : State) (n : Nat) : (pass s n).cur = s.cur := by
  unfold pass
  split
  · rfl
  · exact passTo_cur _ _ _

/-! ## Moves -/

/-- Every state a move leaves is well formed. -/
def Result.wf (r : Result) : Prop := ∀ t, r = .next t → t.wf

theorem next_wf {t : State} (h : t.wf) : Result.wf (.next t) := by
  intro u e
  cases e
  exact h

theorem issueTeam_wf {s : State} (u : Nat) (h : s.memsOk) : Result.wf (issueTeam s u) := by
  unfold issueTeam
  extract_lets s1
  have h1 : s1.memsOk := h
  clear_value s1
  split
  · exact next_wf ⟨rfl, h1⟩
  · next x _ =>
    split
    · exact next_wf (holdTeam_wf u h1)
    · extract_lets s2
      have h2 : s2.memsOk := pass_memsOk _ h1
      clear_value s2
      split
      · exact next_wf ⟨rfl, h2⟩
      · split
        · exact next_wf ⟨rfl, h2⟩
        · split
          · next s' he => exact next_wf (afterWord_wf _ h2 (wordAt_memsOk _ h2 s' he))
          · intro t e; cases e
          · intro t e; cases e

theorem runEvent_wf {s : State} (i : Instr) (h : s.memsOk) : Result.wf (runEvent s i) := by
  unfold runEvent
  split
  · next s' he =>
    refine next_wf (endMove_wf ?_)
    split at he
    · cases he
      exact h
    · exact exec_memsOk _ h s' he
  · intro t e; cases e
  · intro t e; cases e

theorem perform_wf {s : State} (m : Move) (h : s.memsOk) : Result.wf (perform s m) := by
  cases m with
  | issue u => exact issueTeam_wf u h
  | sense isl watts celsius => exact next_wf (endMove_wf (sense_memsOk h))
  | event i => exact runEvent_wf i h

theorem idle_wf {s : State} (h : s.memsOk) : (idle s).wf :=
  ⟨pass_cur _ _, pass_memsOk (s := { s with cur := none }) 1 h⟩

theorem schedule_wf {s : State} (h : s.memsOk) : Result.wf (schedule s) := by
  unfold schedule
  split
  · exact perform_wf _ h
  · exact next_wf (idle_wf h)

theorem advance_wf {s : State} (h : s.memsOk) : Result.wf (advance s) := by
  unfold advance
  split
  · next it rest _ => exact perform_wf _ (pass_memsOk (s := { s with inbox := rest, tick := s.tick + 1 }) _ h)
  · exact schedule_wf (s := { s with tick := s.tick + 1 }) h

end Sys2Proof.Machine

/-- Settles O60: every word, event and passing of time keeps the form of both memories, and every move ends with no word
issuing. -/
theorem stepKeepsInvariant : Obligations.StepKeepsInvariant :=
  fun _ s' hwf hstep => Sys2Proof.Machine.advance_wf hwf.2 s' hstep
end

