-- ==== Proofs/Queries.lean ====
section
/-! PROOFS. The words that read state into scalar registers (R53, R140, R141, R148): what QRY, SREG and GETFMT write. -/

namespace Sys2Proof.Machine

/-! ## A word that writes scalar registers -/

/-- The advance past a word changes its team's record and its slot, and nothing else. -/
theorem step8_onlyTeam (s : State) (x : Issuer) (t : Team) (n : Nat) : OnlyTeam s (step8 s x t n) x.u x.c.key :=
  ⟨finish_rest s x _ n, fun _ h => finish_other s x _ n h, fun k => charge_core (s.setTeam x.u _) x n k,
    fun _ h => charge_core_other (s.setTeam x.u _) x n h, fun _ => ⟨rfl, rfl⟩⟩

/-- A word that only replaces its team's registers. -/
theorem gives_regs {i : Instr} {s : State} {x : Issuer} {g : Issuer → Regs} (n : Nat) (h : Issues s x)
    (he : exec i s = issue s fun x => step8 s x { x.t with regs := g x } n) :
    Gives i s x { x.t with regs := g x } (x.t.flow.pc + 8) :=
  ⟨_, he.trans (issue_next h _), step8_team .., step8_onlyTeam ..⟩

/-- A word that writes a number to a group of scalar registers. -/
theorem writesScalar_ssetN {i : Instr} {s : State} {x : Issuer} {d n c : Nat} {v : Issuer → Nat} (h : Issues s x)
    (he : exec i s = issue s fun x => step8 s x { x.t with regs := x.t.regs.ssetN d n (v x) } c) :
    WritesScalar i s x d n (v x % 2 ^ (32 * n)) := by
  obtain ⟨hv, hp, hix, hfmt, hlane⟩ := x.t.regs.ssetN_keeps d n (v x)
  exact ⟨_, gives_regs (g := fun x => x.t.regs.ssetN d n (v x)) c h he,
    ⟨hv, hp, hix, hfmt, hlane, fun q hq => Regs.sget_ssetN_other _ _ _ _ _ hq⟩, Regs.sgetN_ssetN ..⟩

theorem Regs.ssetN_one (g : Regs) (r : Nat) (w : Word) : g.ssetN r 1 w.toNat = g.sset r w := by
  simp [Regs.ssetN]

/-- A word that writes one scalar register. -/
theorem writesScalar_sset {i : Instr} {s : State} {x : Issuer} {d c : Nat} {w : Issuer → Word} (h : Issues s x)
    (he : exec i s = issue s fun x => step8 s x { x.t with regs := x.t.regs.sset d (w x) } c) :
    WritesScalar i s x d 1 (w x).toNat := by
  have hw : WritesScalar i s x d 1 ((w x).toNat % 2 ^ (32 * 1)) :=
    writesScalar_ssetN (v := fun x => (w x).toNat) h (by simpa only [Regs.ssetN_one] using he)
  rwa [Nat.mod_eq_of_lt (w x).isLt] at hw

/-! ## QRY -/

/-- QRY writes a pair for an item of 64 bits and a register for another (Table 8-6). -/
theorem exec_qry (d : SReg) (item : QryItem) (s : State) : exec (.qry d item) s = issue s fun x =>
    step8 s x { x.t with regs := x.t.regs.ssetN d.toNat (if item.wide then 2 else 1) (qryValue s x item) } 1 := by
  cases item <;> rfl

/-- The islands of a panel: one fewer where a site is empty (R53). -/
theorem Panel.nIsl_eq (p : Panel) : p.nIsl = if p.empty.isSome then 24 else 25 := by
  unfold Panel.nIsl
  cases p.empty <;> rfl

/-- Each item of Table 8-6 has the value that the rules give it. -/
theorem qryValue_of_mem {s : State} {x : Issuer} : ∀ iv ∈ queryItems s x, qryValue s x iv.1 = iv.2 := by
  unfold queryItems
  rw [← Panel.nIsl_eq]
  simp only [List.forall_mem_cons]
  exact ⟨rfl, rfl, rfl, rfl, rfl, rfl, rfl, rfl, rfl, rfl, rfl, rfl, rfl, rfl, rfl, List.forall_mem_nil _⟩

/-! ## SREG -/

theorem maskWord_bit (m : Mask) (w : Nat) {j : Nat} (h : j < 32) : (maskWord m w).getLsbD j = laneIn m (32 * w + j) := by
  simp [maskWord, laneIn, h]

/-- A word of a mask is not 0 where a lane of its 32 stands in the mask. -/
theorem maskWord_ne_zero (m : Mask) (w : Nat) : maskWord m w ≠ 0 ↔ ∃ i < 32, laneIn m (32 * w + i) = true := by
  constructor
  · intro h
    by_contra hno
    refine h (BitVec.eq_of_getLsbD_eq fun i hi => ?_)
    rw [maskWord_bit m w hi]
    simpa using fun hl => hno ⟨i, hi, hl⟩
  · rintro ⟨i, h32, hi⟩ h
    simp [← maskWord_bit m w h32, h] at hi

/-- Bits set one after another in a word, for the numbers of a list that have a property. -/
theorem getLsbD_foldl_setBits (p : Nat → Prop) [DecidablePred p] (ws : List Nat) (x : Word) {j : Nat} (h : j < 32) :
    (ws.foldl (fun x w => if p w then x ||| ((1 : Word) <<< w) else x) x).getLsbD j =
      (x.getLsbD j || decide (j ∈ ws ∧ p j)) := by
  induction ws generalizing x with
  | nil => simp
  | cons w ws ih =>
    rw [List.foldl_cons, ih]
    by_cases hw : p w
    · by_cases hj : j = w
      · subst hj
        simp [hw, h]
      · have hbit : (decide (j < 32) && !decide (j < w) && decide (j - w = 0)) = false := by
          simp only [Bool.and_eq_false_iff, Bool.not_eq_false', decide_eq_true_eq, decide_eq_false_iff_not]
          omega
        simp [hw, hj, hbit]
    · by_cases hj : j = w
      · subst hj
        simp [hw]
      · simp [hw, hj]

/-- Bit j of the summary word says whether word j of the mask has a lane (R105). -/
theorem maskSummary_bit (m : Mask) {j : Nat} (h : j < 32) :
    (maskSummary m).getLsbD j = true ↔ ∃ i < 32, laneIn m (32 * j + i) = true := by
  rw [maskSummary, getLsbD_foldl_setBits (fun w => maskWord m w ≠ 0) _ _ h, ← maskWord_ne_zero]
  simp [h]

theorem sregValue_word {x : Issuer} {a : Nat} (h : a < 32) : sregValue x a = maskWord x.t.flow.mask a := if_pos h

/-- Selectors past 38 name nothing (Table 8-7). -/
theorem sregValue_none {x : Issuer} {a : Nat} (h : 38 < a) : sregValue x a = 0 := by
  rw [sregValue, if_neg (by omega)]
  all_goals omega

/-- The depth that selector 34 reads: of the lowest lane of a travelling kernel's mask, else of the team (R141). -/
theorem sregValue_depth (x : Issuer) : sregValue x 34 = BitVec.ofNat 32 (if x.k.travels then
    (laneRetOf x.t ((lanesOf x.t.flow.mask x.t.lanes).headD 0)).length else x.t.flow.ret.length) := by
  show (if x.k.travels then _ else _) = _
  split <;> rfl

/-- SREG writes the word its selector reads. -/
theorem writesScalar_sreg {s : State} {x : Issuer} (d : SReg) (a : Operand) (h : Issues s x) :
    WritesScalar (.sreg d a) s x d.toNat 1 (sregValue x (src32 s x 0 a)).toNat :=
  writesScalar_sset (w := fun x => sregValue x (src32 s x 0 a)) h rfl

end Sys2Proof.Machine

open Sys2Proof Sys2Proof.Machine in
/-- Settles O3: QRY, SREG and GETFMT write the value of the model's item, word by word of Tables 8-6 and 8-7. -/
theorem queriesRead : Obligations.QueriesRead := by
  intro s x d a h
  have hsreg := writesScalar_sreg d a h
  refine ⟨fun iv hiv => ?_, ?_, fun hsel => ?_, fun hsel => ?_, fun v hv hsel => ?_, fun hsel => ?_⟩
  · rw [← qryValue_of_mem iv hiv]
    exact writesScalar_ssetN (v := fun x => qryValue s x iv.1) h (exec_qry d iv.1 s)
  · have hfmt := writesScalar_sset (i := .getfmt d) (w := fun x => x.t.regs.fmt.setWidth 32) h rfl
    rwa [BitVec.toNat_setWidth_of_le (by decide)] at hfmt
  · rw [sregValue_word hsel] at hsreg
    exact ⟨_, fun j hj => maskWord_bit _ _ hj, hsreg⟩
  · rw [hsel] at hsreg
    exact ⟨_, fun j hj => maskSummary_bit _ hj, hsreg⟩
  · have hval : sregValue x v.1 = BitVec.ofNat 32 v.2 := by
      simp only [List.mem_cons, List.not_mem_nil, or_false] at hv
      rcases hv with rfl | rfl | rfl | rfl | rfl | rfl
      · rfl
      · exact sregValue_depth x
      all_goals rfl
    rw [hsel, hval, BitVec.toNat_ofNat] at hsreg
    exact hsreg
  · rw [sregValue_none hsel] at hsreg
    exact hsreg
end

