-- ==== Proofs/Homes.lean ====
section
/-! PROOFS. What accesses at a home leave as they are (R200, R203, R208, R327, R330): an access reaches lines, recalls their
copies, aborts what it conflicts with and wakes what waits for them, and beside memory, the caches, the crumbs, the tokens,
the teams and the marks of held kernels it changes nothing. -/

namespace Sys2Proof.Machine

/-- An island but for its L2, its crumbs and its token. -/
def Island.still (i : Island) : Island := { i with l2 := [], crumbs := [], token := none, tokenAsk := [] }

/-- `t` is `s` after some accesses at homes. -/
structure AtHomes (s t : State) : Prop where
  rest : { t with mem := s.mem, isls := s.isls, cores := s.cores, teams := s.teams, kernels := s.kernels } = s
  still : ∀ i, (t.isl i).still = (s.isl i).still
  tenant : ∀ k, (t.kernels.find? k).map (·.tenant) = (s.kernels.find? k).map (·.tenant)

namespace AtHomes

variable {s t u : State}

theorem refl (s : State) : AtHomes s s := ⟨rfl, fun _ => rfl, fun _ => rfl⟩

theorem trans (h : AtHomes s t) (h' : AtHomes t u) : AtHomes s u := by
  refine ⟨?_, fun i => (h'.still i).trans (h.still i), fun k => (h'.tenant k).trans (h.tenant k)⟩
  have e := congrArg (fun r : State =>
    { r with mem := s.mem, isls := s.isls, cores := s.cores, teams := s.teams, kernels := s.kernels }) h'.rest
  exact e.trans h.rest

theorem foldl {α : Type} {f : State → α → State} (hf : ∀ s x, AtHomes s (f s x)) (xs : List α) (s : State) :
    AtHomes s (xs.foldl f s) := by
  induction xs generalizing s with
  | nil => exact refl s
  | cons x xs ih => exact (hf s x).trans (ih (f s x))

variable (h : AtHomes s t)
include h

theorem ops : t.ops = s.ops := by have e := congrArg State.ops h.rest; exact e
theorem pkts : t.pkts = s.pkts := by have e := congrArg State.pkts h.rest; exact e
theorem msgs : t.msgs = s.msgs := by have e := congrArg State.msgs h.rest; exact e
theorem pcp : t.pcp = s.pcp := by have e := congrArg State.pcp h.rest; exact e
theorem uid : t.uid = s.uid := by have e := congrArg State.uid h.rest; exact e
theorem now : t.now = s.now := by have e := congrArg State.now h.rest; exact e
theorem tick : t.tick = s.tick := by have e := congrArg State.tick h.rest; exact e
theorem crews : t.crews = s.crews := by have e := congrArg State.crews h.rest; exact e
theorem held : t.held = s.held := by have e := congrArg State.held h.rest; exact e
theorem hostMem : t.hostMem = s.hostMem := by have e := congrArg State.hostMem h.rest; exact e
theorem tenants : t.tenants = s.tenants := by have e := congrArg State.tenants h.rest; exact e

theorem pool (i : Nat) : (t.isl i).pool = (s.isl i).pool := by have e := congrArg Island.pool (h.still i); exact e
theorem live (i : Nat) : (t.isl i).live = (s.isl i).live := by have e := congrArg Island.live (h.still i); exact e
theorem frames (i : Nat) : (t.isl i).frames = (s.isl i).frames := by have e := congrArg Island.frames (h.still i); exact e
theorem faults (i : Nat) : (t.isl i).faults = (s.isl i).faults := by have e := congrArg Island.faults (h.still i); exact e
theorem faultWait (i : Nat) : (t.isl i).faultWait = (s.isl i).faultWait := by
  have e := congrArg Island.faultWait (h.still i); exact e
theorem replicas (i : Nat) : (t.isl i).replicas = (s.isl i).replicas := by
  have e := congrArg Island.replicas (h.still i); exact e

end AtHomes

/-! ## Updates -/

theorem updTeam_atHomes (s : State) (u : Nat) (f : Team → Team) : AtHomes s (s.updTeam u f) :=
  ⟨rfl, fun _ => rfl, fun _ => rfl⟩
theorem setTeam_atHomes (s : State) (u : Nat) (t : Team) : AtHomes s (s.setTeam u t) :=
  ⟨rfl, fun _ => rfl, fun _ => rfl⟩
theorem updCore_atHomes (s : State) (k : Nat) (f : Core → Core) : AtHomes s (s.updCore k f) :=
  ⟨rfl, fun _ => rfl, fun _ => rfl⟩
theorem wr_atHomes (s : State) (a : Nat) (bs : List Byte) : AtHomes s (s.wr a bs) :=
  ⟨rfl, fun _ => rfl, fun _ => rfl⟩

theorem updKernel_atHomes (s : State) (k : Nat) {f : Kernel → Kernel} (hf : ∀ x, (f x).tenant = x.tenant) :
    AtHomes s (s.updKernel k f) := by
  refine ⟨rfl, fun _ => rfl, fun j => ?_⟩
  by_cases e : j = k
  · subst e
    rw [State.updKernel_find, Option.map_map]
    exact Option.map_congr fun x _ => hf x
  · rw [State.updKernel_find_other s f e]

theorem updIsl_atHomes (s : State) (i : Nat) {f : Island → Island} (hf : ∀ x, (f x).still = x.still) :
    AtHomes s (s.updIsl i f) := by
  refine ⟨rfl, fun j => ?_, fun _ => rfl⟩
  by_cases e : j = i
  · subst e
    rw [State.updIsl_same, hf]
  · rw [State.updIsl_other _ _ e]

theorem mapIsls_atHomes (s : State) {f : Nat → Island → Island} (hf : ∀ k x, (f k x).still = x.still) :
    AtHomes s { s with isls := s.isls.mapVals f } := by
  refine ⟨rfl, fun i => ?_, fun _ => rfl⟩
  show (SMap.get {} (s.isls.mapVals f) i).still = (SMap.get {} s.isls i).still
  unfold SMap.get
  rw [SMap.find?_mapVals]
  cases SMap.find? s.isls i with
  | none => rfl
  | some x => exact hf i x

/-! ## What an access meets -/

theorem watchDrop_atHomes (s : State) (u : Nat) : AtHomes s (watchDrop s u) := by
  unfold watchDrop
  split
  · exact .refl s
  · split
    · exact .refl s
    · exact updCore_atHomes s _ _

theorem tokenDrop_atHomes (s : State) (isl u : Nat) : AtHomes s (tokenDrop s isl u) := updIsl_atHomes s isl fun _ => rfl

theorem abortTx_atHomes (s : State) (u : Nat) (c : TxCode) : AtHomes s (abortTx s u c) := by
  unfold abortTx
  split
  · exact .refl s
  · split
    · exact .refl s
    · refine AtHomes.trans ?_ (setTeam_atHomes _ u _)
      split
      · exact (watchDrop_atHomes s u).trans (tokenDrop_atHomes _ _ u)
      · exact watchDrop_atHomes s u

theorem conflictOn_atHomes (s : State) (by_ : Option Nat) (write : Bool) (line : Nat) :
    AtHomes s (conflictOn s by_ write line) := by
  refine AtHomes.foldl (fun s ut => ?_) _ s
  split
  · split
    · exact abortTx_atHomes s _ _
    · exact .refl s
  · exact .refl s

theorem crumbForget_atHomes (s : State) (u : Nat) : AtHomes s (crumbForget s u) :=
  ((watchDrop_atHomes s u).trans (updTeam_atHomes _ u _)).trans (mapIsls_atHomes _ fun _ _ => rfl)

theorem wakeWaiter_atHomes (s : State) (w : Waiter) : AtHomes s (wakeWaiter s w) := by
  unfold wakeWaiter
  split
  · split
    · exact .refl s
    · split
      · exact (setTeam_atHomes s _ _).trans (crumbForget_atHomes _ _)
      · exact .refl s
  · exact updKernel_atHomes s _ fun _ => rfl

theorem changeLine_atHomes (s : State) (line : Nat) : AtHomes s (changeLine s line) := by
  unfold changeLine
  dsimp only
  split
  · exact .refl s
  · next c _ =>
    have hwake : AtHomes s (c.waiters.foldl wakeWaiter (s.updIsl (lineIsl line) fun x =>
        { x with crumbs := SMap.del x.crumbs line })) := by
      refine AtHomes.trans ?_ (.foldl wakeWaiter_atHomes _ _)
      exact updIsl_atHomes s _ fun _ => rfl
    split
    · refine hwake.trans (.foldl (fun s ut => ?_) _ _)
      split
      · exact wakeWaiter_atHomes s _
      · exact .refl s
    · exact hwake

/-! ## The caches -/

theorem combine_atHomes (s : State) (l : L1Line) : AtHomes s (combine s l) := by
  unfold combine
  split
  · exact .foldl (fun s p => wr_atHomes s _ _) _ s
  · exact .refl s

theorem recallLine_atHomes (s : State) (line : Nat) : AtHomes s (recallLine s line) := by
  unfold recallLine
  dsimp only
  split
  · exact .refl s
  · refine AtHomes.trans (.foldl (fun s k => ?_) _ s) (changeLine_atHomes _ line)
    split
    · exact (combine_atHomes s _).trans (updCore_atHomes _ _ _)
    · exact .refl s

theorem invalidateOthers_atHomes (s : State) (line : Nat) (keep : Option Nat) :
    AtHomes s (invalidateOthers s line keep) := by
  refine AtHomes.foldl (fun s c => ?_) _ s
  dsimp only
  split
  · exact .refl s
  · split
    · split
      · exact updCore_atHomes s _ _
      · exact .refl s
    · exact .refl s

theorem l2Evict_atHomes (s : State) (line : Nat) : AtHomes s (l2Evict s line) :=
  (recallLine_atHomes s line).trans (invalidateOthers_atHomes _ line none)

theorem l2Touch_atHomes (s : State) (line bits : Nat) (strm : Bool) : AtHomes s (l2Touch s line bits strm) := by
  unfold l2Touch
  dsimp only
  split
  · exact .refl s
  · split
    · exact updIsl_atHomes s _ fun _ => rfl
    · refine AtHomes.trans ?_ (updIsl_atHomes _ _ fun _ => rfl)
      split
      · exact .refl s
      · exact .foldl (fun s (x : L2Line) => l2Evict_atHomes s x.line) _ s

/-! ## Accesses -/

theorem reachLine_atHomes (s : State) (by_ : Option Nat) (write strm : Bool) (pa n l : Nat) :
    AtHomes s (reachLine s by_ write strm pa n l) :=
  ((recallLine_atHomes s l).trans (conflictOn_atHomes _ by_ write l)).trans (l2Touch_atHomes _ l _ strm)

theorem homeRead_atHomes (s : State) (by_ : Option Nat) (pa n : Nat) : AtHomes s (homeRead s by_ pa n).2 :=
  .foldl (fun s l => reachLine_atHomes s by_ false false pa n l) _ s

/-- A write that no span is logged for. -/
theorem homeWrite_atHomes (s : State) (by_ keep : Option Nat) (pa : Nat) (bs : List Byte) :
    AtHomes s (homeWrite s by_ none keep pa bs) := by
  refine AtHomes.trans ?_ (.foldl changeLine_atHomes _ _)
  refine AtHomes.trans (.foldl (fun s l => ?_) _ s) (wr_atHomes _ pa bs)
  exact (reachLine_atHomes s by_ true false pa bs.length l).trans (invalidateOthers_atHomes _ l keep)

theorem readTables_atHomes (s : State) (va level table : Nat) : AtHomes s (readTables s va level table) := by
  induction level generalizing s table with
  | zero =>
    unfold readTables
    dsimp only
    split
    · exact homeRead_atHomes s none _ 8
    · exact homeRead_atHomes s none _ 8
  | succ level ih =>
    unfold readTables
    dsimp only
    split
    · exact (homeRead_atHomes s none _ 8).trans (ih _ _)
    · exact homeRead_atHomes s none _ 8

theorem walked_atHomes (s : State) (tenant va : Nat) : AtHomes s (walked s tenant va).2 := by
  unfold walked
  dsimp only
  split
  · exact .refl s
  · exact readTables_atHomes s va 5 _

end Sys2Proof.Machine
end

