-- ==== Proofs/Bins.lean ====
section
/-! PROOFS. Lane entries, bins and teams (R65 to R67, R120, R249): what an entry that enters a bin leaves there, and the two
moves of a bin, the reservation of a forming team and its launch. -/

namespace Sys2Proof.Machine

/-! ## Maps -/

namespace SMap

variable {α β : Type}

/-- A key that leaves takes along whatever was last put there. -/
theorem del_put_same (m : SMap α) (k : Nat) (v : α) : del (put m k v) k = del m k := by
  induction m with
  | nil => simp [put, del]
  | cons x m ih =>
    obtain ⟨a, w⟩ := x
    simp only [put]
    split
    · simp [del]
    · split
      · next h => subst h; simp [del]
      · next h => simp [del, h, ih]

/-- A value that yields nothing, in the place of another that yields nothing, changes nothing of what a map yields. -/
theorem filterMap_put_none {m : SMap α} {k : Nat} {v w : α} {f : Nat × α → Option β} (h : find? m k = some v)
    (hv : f (k, v) = none) (hw : f (k, w) = none) : (put m k w).filterMap f = m.filterMap f := by
  induction m with
  | nil => cases h
  | cons x m ih =>
    obtain ⟨a, u⟩ := x
    simp only [put]
    split
    · rw [List.filterMap_cons_none hw]
    · split
      · next e =>
        subst e
        simp only [find?, if_true, Option.some.injEq] at h
        subst h
        rw [List.filterMap_cons_none hw, List.filterMap_cons_none hv]
      · next e =>
        simp only [find?, e, if_false] at h
        rw [List.filterMap_cons, List.filterMap_cons, ih h]

end SMap

/-! ## Bins of a core -/

/-- A core's bins after a change. -/
def State.updBins (s : State) (key : Nat) (f : SMap Bin → SMap Bin) : State :=
  s.updCore key fun c => { c with bins := f c.bins }

@[simp] theorem State.updBins_bins (s : State) (key : Nat) (f : SMap Bin → SMap Bin) :
    ((s.updBins key f).core key).bins = f (s.core key).bins := by
  rw [State.updBins, State.updCore_same]

@[simp] theorem State.updBins_teams (s : State) (key : Nat) (f : SMap Bin → SMap Bin) :
    (s.updBins key f).teams = s.teams := rfl
@[simp] theorem State.updBins_kernels (s : State) (key : Nat) (f : SMap Bin → SMap Bin) :
    (s.updBins key f).kernels = s.kernels := rfl
@[simp] theorem State.updBins_msgs (s : State) (key : Nat) (f : SMap Bin → SMap Bin) :
    (s.updBins key f).msgs = s.msgs := rfl

/-- What stands in the slots does not change while a bin that reserves no team takes the place of another. -/
theorem slotAllots_put {s : State} {key bi : Nat} {b b' : Bin} (hb : SMap.find? (s.core key).bins bi = some b)
    (h : b.forming = none) (h' : b'.forming = none) (slot : Nat) :
    slotAllots (s.updBins key fun m => m.put bi b') key slot = slotAllots s key slot := by
  unfold slotAllots
  rw [State.updBins_bins, SMap.filterMap_put_none hb (by simp [h]) (by simp [h'])]
  rfl

theorem formSlot_put {s : State} {key bi : Nat} {b b' : Bin} (hb : SMap.find? (s.core key).bins bi = some b)
    (h : b.forming = none) (h' : b'.forming = none) (kid : Nat) (k : Kernel) (fill : Nat) :
    formSlot (s.updBins key fun m => m.put bi b') kid k key fill = formSlot s kid k key fill := by
  have hwords : slotWords (s.updBins key fun m => m.put bi b') key = slotWords s key :=
    funext fun slot => by rw [slotWords, slotWords, slotAllots_put hb h h']
  have hfits : slotFits (s.updBins key fun m => m.put bi b') key = slotFits s key :=
    funext fun slot => funext fun n => by rw [slotFits, slotFits, hwords, slotAllots_put hb h h']
  rw [formSlot, formSlot, hwords, hfits]
  rfl

/-! ## The moves of a bin (R66) -/

section
variable {s : State} {key bi : Nat} {b : Bin} {k : Kernel} (hb : SMap.find? (s.core key).bins bi = some b)
  (hk : s.kernels.find? b.kernel = some k)
include hb hk

/-- A bin that is not due stands as it is. -/
theorem binMove_waits (hf : b.forming = none) (hn : b.entries.length < min (k.fillAt b.off) 128)
    (he : b.expired = false) : binMove s key bi = none := by
  unfold binMove
  rw [hb]
  simp only [hk, hf, he]
  rw [if_neg (by simp; omega)]

/-- A bin that is due and finds no slot stands as it is. -/
theorem binMove_noSlot (hf : b.forming = none) (hs : formSlot s b.kernel k key (k.fillAt b.off) = none) :
    binMove s key bi = none := by
  unfold binMove
  rw [hb]
  simp only [hk, hf, hs]
  split <;> rfl

/-- A bin that is due reserves a forming team of its first entries. -/
theorem binMove_reserves {slot : Nat} (hf : b.forming = none)
    (hd : min (k.fillAt b.off) 128 ≤ b.entries.length ∨ b.expired = true ∧ b.entries ≠ [])
    (hs : formSlot s b.kernel k key (k.fillAt b.off) = some slot) :
    binMove s key bi = some (s.updBins key fun m => m.put bi { b with
      forming := some (slot, b.entries.take (k.fillAt b.off)), entries := b.entries.drop (k.fillAt b.off),
      formStart := ((b.entries.take (k.fillAt b.off)).head?.map (·.at_)).getD s.now }) := by
  unfold binMove
  rw [hb]
  simp only [hk, hf, hs]
  rw [if_pos (by simpa using hd)]
  rfl

/-- A reservation that is due launches as a team. -/
theorem binMove_launches {slot cu j : Nat} {ls : List LaneEntry} (hf : b.forming = some (slot, ls))
    (hd : ls.length = k.fillAt b.off ∨ b.expired = true ∧ ls ≠ []) (hj : joinCrew s b.kernel key slot = some (cu, j)) :
    binMove s key bi = some (launchFormed (s.updBins key fun m =>
      if b.entries.isEmpty then m.del bi else m.put bi { b with forming := none, expired := false })
      k key b.off cu j ls) := by
  unfold binMove
  rw [hb]
  simp only [hk, hf, hj]
  rw [if_pos (by simpa using hd)]
  rfl

end

theorem binAdvance_none {s : State} {key bi n : Nat} (h : binMove s key bi = none) : binAdvance key bi n s = s := by
  cases n with
  | zero => rfl
  | succ n => rw [binAdvance, h]

theorem binAdvance_some {s t : State} {key bi n : Nat} (h : binMove s key bi = some t) :
    binAdvance key bi (n + 1) s = binAdvance key bi n t := by
  rw [binAdvance, h]

/-- A bin that has gone has no moves. -/
theorem binMove_gone {s : State} {key bi : Nat} (h : SMap.find? (s.core key).bins bi = none) : binMove s key bi = none := by
  rw [binMove, h]

/-! ## The team that a bin forms -/

theorem maskIs_fullMask (n : Nat) : MaskIs (fullMask n) (List.range n) := by
  intro l hl
  rw [laneIn, fullMask, BitVec.getLsbD_ofNat, Nat.testBit_two_pow_sub_one]
  simp [hl]

/-- The record of a team formed from lane entries (R66). -/
structure FormedAs (t : Team) (k : Kernel) (off cu j : Nat) (es : List LaneEntry) : Prop where
  crew : t.crew = cu
  index : t.index = j
  lanes : t.lanes = k.fillAt off
  vregs : t.vregs = k.launch.shape.vregs
  pc : t.flow.pc = off
  mask : MaskIs t.flow.mask (List.range es.length)
  stack : t.flow.stack = []
  level : t.sched.level = k.level

/-- A launch adds one team and changes no bin. -/
theorem launchFormed_adds (s : State) (k : Kernel) (key off cu j : Nat) (es : List LaneEntry) :
    (∃ t, (launchFormed s k key off cu j es).teams = s.teams.put s.uid t ∧ FormedAs t k off cu j es) ∧
      ((launchFormed s k key off cu j es).core key).bins = (s.core key).bins := by
  unfold launchFormed
  dsimp only
  split
  · exact ⟨⟨_, rfl, rfl, rfl, rfl, rfl, rfl, maskIs_fullMask _, rfl, rfl⟩, rfl⟩
  · refine ⟨⟨_, rfl, rfl, rfl, rfl, rfl, rfl, maskIs_fullMask _, rfl, rfl⟩, ?_⟩
    rw [l1Acquire, State.updCore_same]
    rfl

/-! ## An entry enters a bin -/

/-- An entry as a bin keeps it. -/
def LaneEntry.kept (e : LaneEntry) (now : Nat) : LaneEntry :=
  { e with at_ := now, src := none, msg := none, port := none, stuck := false, spawn := none }

theorem LaneEntry.kept_of_msg {e : LaneEntry} (h : e.msg = none) (now : Nat) :
    e.kept now = { e with at_ := now, src := none, port := none, stuck := false, spawn := none } := by
  rw [LaneEntry.kept, h]

section
variable {s : State} {e : LaneEntry} {k : Kernel} (hk : s.kernels.find? e.kernel = some k)
include hk

/-- An entry whose core has no bin of its key opens a free one. -/
theorem enterBin_opens {bi : Nat} (hm : e.msg = none) (hfill : 2 ≤ k.fillAt e.off)
    (hnone : binOf (s.core (coreKey e.isl e.core)) e.kernel e.off = none)
    (hfree : freeKey (s.core (coreKey e.isl e.core)).bins 32 = some bi) :
    enterBin s e = some (s.updBins (coreKey e.isl e.core) fun m =>
      m.put bi { kernel := e.kernel, off := e.off, entries := [e.kept s.now] }) := by
  have hwaits := binMove_waits (s := s.updBins (coreKey e.isl e.core) fun m =>
      m.put bi { kernel := e.kernel, off := e.off, entries := [e.kept s.now] }) (bi := bi)
    (b := { kernel := e.kernel, off := e.off, entries := [e.kept s.now] }) (k := k)
    (by rw [State.updBins_bins, SMap.find?_put_same]) hk rfl (by simp; omega) rfl
  have henter : enterBin s e = some (binAdvance (coreKey e.isl e.core) bi 10 (s.updBins (coreKey e.isl e.core) fun m =>
      m.put bi { kernel := e.kernel, off := e.off, entries := [e.kept s.now] })) := by
    unfold enterBin
    simp only [hk, hnone, hfree, hm, Option.map_some]
    rfl
  rw [henter, binAdvance_none hwaits]

/-- An entry whose core has no bin of its key and no free bin finds no place. -/
theorem enterBin_full (hnone : binOf (s.core (coreKey e.isl e.core)) e.kernel e.off = none)
    (hfree : freeKey (s.core (coreKey e.isl e.core)).bins 32 = none) : enterBin s e = none := by
  unfold enterBin
  simp only [hk, hnone, hfree, Option.map_none]

/-- An entry joins the entries of the bin of its key, which does not become due by it. -/
theorem enterBin_joins {bi : Nat} {b : Bin} (hm : e.msg = none)
    (hof : binOf (s.core (coreKey e.isl e.core)) e.kernel e.off = some bi)
    (hb : SMap.find? (s.core (coreKey e.isl e.core)).bins bi = some b) (hkid : b.kernel = e.kernel) (hoff : b.off = e.off)
    (hf : b.forming = none) (he : b.expired = false) (hn : b.entries.length + 1 < min (k.fillAt e.off) 128) :
    enterBin s e = some (s.updBins (coreKey e.isl e.core) fun m =>
      m.put bi { b with entries := b.entries ++ [e.kept s.now] }) := by
  have hwaits := binMove_waits (s := s.updBins (coreKey e.isl e.core) fun m =>
      m.put bi { b with entries := b.entries ++ [e.kept s.now] }) (bi := bi)
    (b := { b with entries := b.entries ++ [e.kept s.now] }) (k := k)
    (by rw [State.updBins_bins, SMap.find?_put_same]) (by rw [hkid]; exact hk) hf
    (by rw [hoff]; simpa using hn) he
  have henter : enterBin s e = some (binAdvance (coreKey e.isl e.core) bi 10 (s.updBins (coreKey e.isl e.core) fun m =>
      m.put bi { b with entries := b.entries ++ [e.kept s.now] })) := by
    unfold enterBin
    simp only [hk, hof, hb, hf, hm]
    rw [if_pos (by omega)]
    rfl
  rw [henter, binAdvance_none hwaits]

end

/-! ## Where an entry goes -/

/-- An entry whose core has an open crew of its kernel goes nowhere else (R65). -/
theorem rerouted_self {s : State} {e : LaneEntry}
    (h : (openCrews s e.kernel).any (fun c => c.isl = e.isl && c.core = e.core) = true) : rerouted s e = e := by
  have hcrews : entryCrews s e.kernel = openCrews s e.kernel := by
    rw [entryCrews, if_neg]
    intro hnil
    rw [List.isEmpty_iff.1 hnil] at h
    cases h
  rw [rerouted, routeEntry, hcrews]
  simp only [h, if_true]

/-- Noting an arrival changes no kernel's entry table (R69). -/
theorem noteArrival_find {s : State} {e : LaneEntry} {k : Kernel} (h : s.kernels.find? e.kernel = some k) :
    ∃ k', (noteArrival s e).kernels.find? e.kernel = some k' ∧ k'.fillAt = k.fillAt := by
  rw [noteArrival, State.updKernel_find, h]
  exact ⟨_, rfl, rfl⟩

/-! ## An active message -/

/-- An entry of SPAWN or MESSAGE on a core with an open crew enters its bin, or the pool of its island (R67). -/
theorem enterEntry_stays {s : State} {e : LaneEntry}
    (hopen : (openCrews s e.kernel).any (fun c => c.isl = e.isl && c.core = e.core) = true)
    (hahead : (s.isl e.isl).pool.any (fun x => x.ahead e) = false) :
    enterEntry s e = (enterBin s e).or (if (s.isl e.isl).pool.length < poolCap then
      some (s.updIsl e.isl fun i => { i with pool := i.pool ++ [e] }) else none) := by
  unfold enterEntry
  simp only [rerouted_self hopen, hahead, ne_eq, not_true_eq_false, Bool.false_eq_true, if_false]
  cases enterBin s e <;> rfl

/-- A travelling payload whose holder stands in the map, on a core with an open crew, enters its bin where there is
room (R69, R120). -/
theorem arrive_enters {s t : State} {e : LaneEntry} {k : Kernel} (hk : s.kernels.find? e.kernel = some k)
    (hmap : inMapAt k e.off e.core = true)
    (hopen : (openCrews s e.kernel).any (fun c => c.isl = e.isl && c.core = e.core) = true)
    (henter : enterBin (noteArrival s e) e = some t) : arrive s e = some t := by
  unfold arrive
  simp only [hk, hmap, if_true, rerouted_self hopen, ite_self, ne_eq, not_true_eq_false, if_false, henter]

/-- A message has left its way. -/
def State.dropMsg (s : State) (id : Nat) : State := { s with msgs := s.msgs.del id }

/-- An event that is due has its effect. -/
theorem happen_some (s t : State) : happen s (some t) = .next t := rfl

/-- A message that waits behind no other, of a kernel that stands, arrives at its core. -/
theorem exec_activeMessage {s : State} {id : Nat} {e : LaneEntry} {k : Kernel} (he : s.msgs.find? id = some e)
    (hb : msgBehind s id e = false) (hk : s.kernels.find? e.kernel = some k) :
    exec (.activeMessage id) s = happen s (
      if e.payload.travels then arrive (s.dropMsg id) e
      else match enterEntry (s.dropMsg id) e with
        | some t => some t
        | none => if e.stuck then none else some { s with msgs := s.msgs.put id { e with stuck := true } }) := by
  show execActiveMessage id s = _
  unfold execActiveMessage
  simp only [he, Option.bind_some, hb, hk]
  rfl

end Sys2Proof.Machine

open Sys2Proof Sys2Proof.Machine

/-- An active message opens a bin (R66, R120, R249). -/
theorem activeMessage_opens {s : State} {id bi : Nat} {e : LaneEntry} {k : Kernel} (he : s.msgs.find? id = some e)
    (hb : msgBehind s id e = false) (hk : s.kernels.find? e.kernel = some k) (hm : e.msg = none)
    (hfill : 2 ≤ k.fillAt e.off)
    (hahead : e.payload.travels = true ∨ (s.isl e.isl).pool.any (fun x => x.ahead e) = false)
    (hmap : e.payload.travels = true → inMapAt k e.off e.core = true)
    (hopen : (openCrews s e.kernel).any (fun c => c.isl = e.isl && c.core = e.core) = true)
    (hnone : binOf (s.core (coreKey e.isl e.core)) e.kernel e.off = none)
    (hfree : freeKey (s.core (coreKey e.isl e.core)).bins 32 = some bi) :
    ∃ t, exec (.activeMessage id) s = .next t ∧ t.msgs = s.msgs.del id ∧ t.teams = s.teams ∧
      (t.core (coreKey e.isl e.core)).bins = (s.core (coreKey e.isl e.core)).bins.put bi
        { kernel := e.kernel, off := e.off, entries := [e.kept s.now] } := by
  rw [exec_activeMessage he hb hk]
  by_cases htravel : e.payload.travels = true
  · obtain ⟨k', hk', hfill'⟩ := noteArrival_find (s := s.dropMsg id) hk
    have henter := enterBin_opens hk' hm (by rwa [hfill']) hnone hfree
    rw [if_pos htravel, arrive_enters (s := s.dropMsg id) hk (hmap htravel) hopen henter]
    exact ⟨_, happen_some .., rfl, rfl, State.updBins_bins ..⟩
  · rw [if_neg htravel, enterEntry_stays (s := s.dropMsg id) hopen (hahead.resolve_left htravel),
      enterBin_opens (s := s.dropMsg id) hk hm hfill hnone hfree]
    exact ⟨_, happen_some .., rfl, rfl, State.updBins_bins ..⟩

/-- An active message with no bin left goes to the pool of its island (R67). -/
theorem activeMessage_pools {s : State} {id : Nat} {e : LaneEntry} {k : Kernel} (he : s.msgs.find? id = some e)
    (hb : msgBehind s id e = false) (hk : s.kernels.find? e.kernel = some k) (htravel : e.payload.travels = false)
    (hahead : (s.isl e.isl).pool.any (fun x => x.ahead e) = false)
    (hopen : (openCrews s e.kernel).any (fun c => c.isl = e.isl && c.core = e.core) = true)
    (hnone : binOf (s.core (coreKey e.isl e.core)) e.kernel e.off = none)
    (hfree : freeKey (s.core (coreKey e.isl e.core)).bins 32 = none) (hroom : (s.isl e.isl).pool.length < 65536) :
    ∃ t, exec (.activeMessage id) s = .next t ∧ t.msgs = s.msgs.del id ∧ t.teams = s.teams ∧ t.cores = s.cores ∧
      (t.isl e.isl).pool = (s.isl e.isl).pool ++ [e] := by
  rw [exec_activeMessage he hb hk, if_neg (by simp [htravel]),
    enterEntry_stays (s := s.dropMsg id) hopen hahead,
    enterBin_full (s := s.dropMsg id) hk hnone hfree]
  rw [Option.none_or, if_pos (show ((s.dropMsg id).isl e.isl).pool.length < poolCap from hroom)]
  refine ⟨_, happen_some .., rfl, rfl, rfl, ?_⟩
  rw [State.updIsl_same]
  rfl

/-- A bin whose timer has run out is due (R66). -/
theorem exec_binTimerExpiry {s : State} {key bi : Nat} {b : Bin} {k : Kernel} {e : LaneEntry} {es : List LaneEntry}
    (hb : SMap.find? (s.core key).bins bi = some b) (hk : s.kernels.find? b.kernel = some k) (hf : b.forming = none)
    (hes : b.entries = e :: es) (hx : b.expired = false)
    (hdue : e.at_ + ((k.entryAt b.off).map Entry.cycles).getD 4096 ≤ s.now) :
    exec (.binTimerExpiry key bi) s =
      .next (binAdvance key bi 10 (s.updBins key fun m => m.put bi { b with expired := true })) := by
  have hexp : (b.expiry s).any (· ≤ s.now) = true := by
    simp [Bin.expiry, hx, hk, hf, hes, hdue]
  show execBinTimerExpiry key bi s = _
  unfold execBinTimerExpiry
  simp only [hb, Option.bind_some, hexp]
  rfl

/-- A bin whose timer has run out forms a team from what it holds: it reserves it and launches it at once (R66). -/
theorem binTimerExpiry_launches {s : State} {key bi slot cu j : Nat} {b : Bin} {k : Kernel} {e : LaneEntry}
    {es : List LaneEntry} (hb : SMap.find? (s.core key).bins bi = some b) (hk : s.kernels.find? b.kernel = some k)
    (hf : b.forming = none) (hes : b.entries = e :: es) (hlt : b.entries.length < min (k.fillAt b.off) 128)
    (hx : b.expired = false) (hdue : e.at_ + ((k.entryAt b.off).map Entry.cycles).getD 4096 ≤ s.now)
    (hs : formSlot s b.kernel k key (k.fillAt b.off) = some slot) (hj : joinCrew s b.kernel key slot = some (cu, j)) :
    ∃ t m, exec (.binTimerExpiry key bi) s = .next t ∧ t.teams = s.teams.put s.uid m ∧
      FormedAs m k b.off cu j b.entries ∧ (t.core key).bins = SMap.del (s.core key).bins bi := by
  obtain ⟨s₁, hs₁⟩ : ∃ s₁, s₁ = s.updBins key fun m => m.put bi { b with expired := true } := ⟨_, rfl⟩
  have hb₁ : SMap.find? (s₁.core key).bins bi = some { b with expired := true } := by
    rw [hs₁, State.updBins_bins, SMap.find?_put_same]
  have hne : b.entries ≠ [] := by simp [hes]
  have hreserve := binMove_reserves (slot := slot) (k := k) hb₁ (by rw [hs₁]; exact hk) hf (.inr ⟨rfl, hne⟩)
    (by rw [hs₁]; exact (formSlot_put (b' := { b with expired := true }) hb hf hf _ _ _).trans hs)
  rw [List.take_of_length_le (by dsimp only; omega), List.drop_of_length_le (by dsimp only; omega)] at hreserve
  obtain ⟨s₂, hs₂⟩ : ∃ s₂, binMove s₁ key bi = some s₂ := ⟨_, hreserve⟩
  have hs₂' := hs₂.symm.trans hreserve
  rw [Option.some.injEq] at hs₂'
  have hlaunch := binMove_launches (s := s₂) (key := key) (bi := bi) (slot := slot) (cu := cu) (j := j) (k := k)
    (ls := b.entries) (by rw [hs₂', State.updBins_bins, SMap.find?_put_same]) (by rw [hs₂', hs₁]; exact hk) rfl
    (.inr ⟨rfl, hne⟩) (by rw [hs₂', hs₁]; exact hj)
  obtain ⟨⟨m, hteams, hm⟩, hbins⟩ := launchFormed_adds (s₂.updBins key fun m => m.del bi) k key b.off cu j b.entries
  have hbins' : ((launchFormed (s₂.updBins key fun m => m.del bi) k key b.off cu j b.entries).core key).bins =
      SMap.del (s.core key).bins bi := by
    rw [hbins, State.updBins_bins, hs₂', State.updBins_bins, SMap.del_put_same, hs₁, State.updBins_bins,
      SMap.del_put_same]
  refine ⟨_, m, ?_, by rw [hteams, hs₂', hs₁]; rfl, hm, hbins'⟩
  rw [exec_binTimerExpiry hb hk hf hes hx hdue, ← hs₁, binAdvance_some hs₂, binAdvance_some hlaunch]
  exact congrArg _ (binAdvance_none (binMove_gone (by
    show SMap.find? ((launchFormed (s₂.updBins key fun m => m.del bi) k key b.off cu j b.entries).core key).bins bi = none
    rw [hbins', SMap.find?_del_same])))

theorem entriesKeyed : entriesKeyedRule := by
  refine ⟨?_, ?_, ?_⟩
  · intro s id e k he hbehind hk hm hfill hahead hmap hopen key hnone
    refine ⟨fun bi hfree => ?_, fun hfree htravel hroom => ?_⟩
    · rw [← LaneEntry.kept_of_msg hm]
      exact activeMessage_opens he hbehind hk hm hfill hahead hmap hopen hnone hfree
    · exact activeMessage_pools he hbehind hk htravel (hahead.resolve_left (by simp [htravel])) hopen hnone hfree hroom
  · intro s id e he hbehind hk
    show execActiveMessage id s = _
    unfold execActiveMessage
    simp only [he, Option.bind_some, hbehind, hk]
    rfl
  · intro s key bi b k e es hb hk hf hes hlt _ hx hdue
    refine ⟨fun slot cu j hs hj => ?_, fun hs => ?_⟩
    · obtain ⟨t, m, hexec, hteams, hform, hbins⟩ := binTimerExpiry_launches hb hk hf hes hlt hx hdue hs hj
      exact ⟨t, m, hexec, hteams, hform.crew, hform.index, hform.lanes, hform.pc, hform.mask, hbins⟩
    · rw [exec_binTimerExpiry hb hk hf hes hx hdue, binAdvance_none]
      · rfl
      · exact binMove_noSlot (b := { b with expired := true }) (k := k) (by rw [State.updBins_bins, SMap.find?_put_same])
          hk hf ((formSlot_put (b' := { b with expired := true }) hb hf hf _ _ _).trans hs)

theorem binsLaunch : binsLaunchRule := by
  intro s key bi b k hb hk fill
  refine ⟨fun slot hf hd hs => ⟨_, binMove_reserves hb hk hf hd hs, rfl, _, State.updBins_bins .., rfl, rfl⟩,
    fun slot ls cu j hf hd _ hj => ?_⟩
  obtain ⟨⟨m, hteams, hm⟩, -⟩ := launchFormed_adds (s.updBins key fun m =>
    if b.entries.isEmpty then m.del bi else m.put bi { b with forming := none, expired := false }) k key b.off cu j ls
  exact ⟨_, m, binMove_launches hb hk hf hd hj, hteams, hm.crew, hm.index, hm.lanes, hm.vregs, hm.pc, hm.mask, hm.stack,
    hm.level⟩
end

