-- ==== Proofs/Reinject.lean ====
section
/-! PROOFS. Pooled entries and overflowed payloads that find a place again (R67, R119): the entry goes where it finds room,
and the MESSAGEs that the room lets in leave the entries on their way, the packets and the pools as they stand. -/

namespace Sys2Proof.Machine

/-- From `s` to `t` no entry on its way, no packet and no pool changes; new entries take new numbers. -/
structure KeepsEntries (s t : State) : Prop where
  pkts : t.pkts = s.pkts
  pool : ∀ i, (t.isl i).pool = (s.isl i).pool
  uid : s.uid ≤ t.uid
  msgs : ∀ n, n < s.uid → t.msgs.find? n = s.msgs.find? n

namespace KeepsEntries

variable {s t u : State}

theorem refl (s : State) : KeepsEntries s s := ⟨rfl, fun _ => rfl, le_rfl, fun _ _ => rfl⟩

theorem trans (h : KeepsEntries s t) (h' : KeepsEntries t u) : KeepsEntries s u :=
  ⟨h'.pkts.trans h.pkts, fun i => (h'.pool i).trans (h.pool i), h.uid.trans h'.uid,
    fun n hn => (h'.msgs n (hn.trans_le h.uid)).trans (h.msgs n hn)⟩

theorem of_atHomes (h : AtHomes s t) : KeepsEntries s t :=
  ⟨h.pkts, h.pool, h.uid.ge, fun n _ => by rw [h.msgs]⟩

theorem foldl {α : Type} {f : State → α → State} (hf : ∀ s x, KeepsEntries s (f s x)) (xs : List α) (s : State) :
    KeepsEntries s (xs.foldl f s) := by
  induction xs generalizing s with
  | nil => exact refl s
  | cons x xs ih => exact (hf s x).trans (ih (f s x))

end KeepsEntries

/-! ## A record that finishes -/

theorem updPcp_keepsEntries (s : State) (f : Pcp → Pcp) : KeepsEntries s (s.updPcp f) :=
  ⟨rfl, fun _ => rfl, le_rfl, fun _ _ => rfl⟩

theorem updQueue_keepsEntries (s : State) (q : Nat) (f : Queue → Queue) : KeepsEntries s (s.updQueue q f) :=
  ⟨rfl, fun _ => rfl, le_rfl, fun _ _ => rfl⟩

theorem event_keepsEntries (s : State) (kind code queue tenant w1 w2 w3 : Nat) :
    KeepsEntries s (s.event kind code queue tenant w1 w2 w3) := by
  unfold State.event
  split <;> exact ⟨rfl, fun _ => rfl, le_rfl, fun _ _ => rfl⟩

/-- A frame taken is one more of its island's frames in use, and zeros. -/
theorem takeFrame_some {s t : State} {isl size pa : Nat} (h : takeFrame s isl size = some (pa, t)) :
    ∃ b, findFrame s.tick (s.isl isl).frames size = some b ∧ pa = isl * 2 ^ 39 + b ∧
      t = { s.updIsl isl fun i => { i with frames := (b, size) :: i.frames } with
        mem := s.mem.filter fun kb => kb.1 < pa || pa + size ≤ kb.1 } := by
  unfold takeFrame at h
  split at h
  · cases h
  · next b hb =>
    cases h
    exact ⟨b, hb, rfl, rfl⟩

theorem takeFrame_keepsEntries {s t : State} {isl size pa : Nat} (h : takeFrame s isl size = some (pa, t)) :
    KeepsEntries s t := by
  obtain ⟨b, -, -, rfl⟩ := takeFrame_some h
  refine ⟨rfl, fun i => ?_, le_rfl, fun _ _ => rfl⟩
  show ((s.updIsl isl fun i => { i with frames := (b, size) :: i.frames }).isl i).pool = _
  by_cases e : i = isl
  · subst e
    rw [State.updIsl_same]
  · rw [State.updIsl_other _ _ e]

theorem demandCreate_keepsEntries {s t : State} {want pte level size entry : Nat}
    (h : demandCreate s want pte level size entry = some t) : KeepsEntries s t := by
  unfold demandCreate at h
  split at h
  · cases h
  · split at h
    · cases h
    · split at h
      · cases h
      · next hf =>
        cases h
        exact (takeFrame_keepsEntries hf).trans (.foldl (fun s a => .of_atHomes (homeWrite_atHomes s none none a _)) _ _)

theorem pcpTouch_keepsEntries (s : State) (tenant va : Nat) : KeepsEntries s (pcpTouch s tenant va).2 := by
  have hwalk := KeepsEntries.of_atHomes (walked_atHomes s tenant va)
  unfold pcpTouch
  split
  · next hw =>
    rw [hw] at hwalk
    split
    · next hd => exact hwalk.trans (demandCreate_keepsEntries hd)
    · exact hwalk
  · exact hwalk

theorem holdWrite_keepsEntries (s : State) (h : HeldWrite) : KeepsEntries s (holdWrite s h) := by
  have hhold : ∀ (t : State) (id : Nat), KeepsEntries t (hold t id) := fun t id => by
    unfold hold
    split
    · exact .refl t
    · exact updPcp_keepsEntries t _
  have hheld : KeepsEntries s { s with held := s.held ++ [h] } := ⟨rfl, fun _ => rfl, le_rfl, fun _ _ => rfl⟩
  unfold holdWrite
  dsimp only
  split
  · exact hheld.trans (hhold _ _)
  · exact hheld

theorem writeWhenFree_keepsEntries (s : State) (pa : Nat) (bs : List Byte) : KeepsEntries s (writeWhenFree s pa bs) := by
  unfold writeWhenFree
  split
  · refine KeepsEntries.trans ?_ (holdWrite_keepsEntries _ _)
    exact ⟨rfl, fun _ => rfl, Nat.le_succ _, fun _ _ => rfl⟩
  · exact .of_atHomes (homeWrite_atHomes s none none pa bs)

theorem statusCopy_keepsEntries (s : State) (tenant va : Nat) (w : DWord) :
    KeepsEntries s (statusCopy s tenant va w).2 := by
  have htouch := pcpTouch_keepsEntries s tenant va
  unfold statusCopy
  split
  · next ht =>
    rw [ht] at htouch
    split
    · exact (htouch.trans (updPcp_keepsEntries _ _)).trans (writeWhenFree_keepsEntries _ _ _)
    · exact htouch
  · next ht =>
    rw [ht] at htouch
    exact htouch

theorem finishRecord_keepsEntries (s : State) (q seq kind : Nat) (code : Code) (w3 : Nat) :
    KeepsEntries s (finishRecord s q seq kind code w3) := by
  have hqueue : ∀ w, KeepsEntries s (s.updQueue q fun x => { x with status := w }) :=
    fun _ => updQueue_keepsEntries s q _
  have hstatus : ∀ (t : State) (tenant va : Nat) (w : DWord), KeepsEntries t (if va = 0 then t
      else match statusCopy t tenant va w with
        | (true, t) => t
        | (false, t) => t.event 0x06 code.num q tenant seq va 0) := fun t tenant va w => by
    split
    · exact .refl t
    · have hcopy := statusCopy_keepsEntries t tenant va w
      split
      · next hc =>
        rw [hc] at hcopy
        exact hcopy
      · next hc =>
        rw [hc] at hcopy
        exact hcopy.trans (event_keepsEntries _ _ _ _ _ _ _ _)
  unfold finishRecord
  dsimp only
  split
  · exact (hqueue _).trans (hstatus _ _ _ _)
  · exact ((hqueue _).trans (hstatus _ _ _ _)).trans (event_keepsEntries _ _ _ _ _ _ _ _)

/-! ## MESSAGEs that wait -/

theorem addMsg_keepsEntries (s : State) (e : LaneEntry) : KeepsEntries s (s.addMsg e) :=
  ⟨rfl, fun _ => rfl, Nat.le_succ _, fun _ hn => SMap.find?_put_other _ _ (Nat.ne_of_lt hn)⟩

theorem deliverMsg_keepsEntries {s t : State} {kid q : Nat} {k : Kernel} {r : Rec}
    (h : deliverMsg s kid k q r = some t) : KeepsEntries s t := by
  unfold deliverMsg at h
  split at h
  · cases h
    exact finishRecord_keepsEntries s _ _ _ _ _
  · split at h
    · cases h
      exact addMsg_keepsEntries s _
    · cases h

theorem flushMsgs_keepsEntries (kid : Nat) (ms : List (Nat × (Nat × List DWord))) (s : State) :
    KeepsEntries s (flushMsgs kid ms s) := by
  induction ms generalizing s with
  | nil => exact .of_atHomes (updKernel_atHomes s kid fun _ => rfl)
  | cons m ms ih =>
    unfold flushMsgs
    split
    · exact .refl s
    · split
      · next hd => exact (deliverMsg_keepsEntries hd).trans (ih _)
      · exact .of_atHomes (updKernel_atHomes s kid fun _ => rfl)

theorem flushWaiting_keepsEntries (s : State) (kid : Nat) : KeepsEntries s (flushWaiting s kid) := by
  unfold flushWaiting
  split
  · split
    · exact .refl s
    · exact flushMsgs_keepsEntries kid _ s
  · exact .refl s

theorem clocks_keepsEntries (s : State) : KeepsEntries s (clocks s) := ⟨rfl, fun _ => rfl, le_rfl, fun _ _ => rfl⟩

/-! ## An entry leaves a dispatcher -/

/-- An entry as a dispatcher sends it (R65, R249). -/
def LaneEntry.sentBy (e : LaneEntry) (isl : Nat) : LaneEntry :=
  { e with src := none, port := dispatcherPort isl, stuck := false }

theorem forward_here {s : State} {isl : Nat} {e : LaneEntry} (h : e.isl = isl) :
    forward s isl e = s.addMsg (e.sentBy isl) := if_pos h

/-- An entry for another island leaves in the next packet of the dispatcher's stream (log 63). -/
theorem forward_away {s : State} {isl : Nat} {e : LaneEntry} (h : e.isl ≠ isl) :
    ∃ p, (forward s isl e).pkts.find? s.uid = some p ∧ (forward s isl e).uid = s.uid + 1 ∧
      p.cargo = .active (e.sentBy isl) ∧ p.src = isl ∧ p.dst = e.isl ∧ p.sep = 0x50 ∧
      p.sseq = (SMap.get {} s.streams (streamKey isl 0x50 e.isl)).next := by
  rw [show forward s isl e = _ from if_neg h]
  exact ⟨_, SMap.find?_put_same _ s.uid _, rfl, rfl, rfl, rfl, rfl, rfl⟩

/-- The first entry of a pool that finds a place leaves it, and the waiting MESSAGEs that follow keep what it did. -/
theorem exec_poolReinject {s : State} {isl : Nat} {e : LaneEntry} {es : List LaneEntry} (hpool : (s.isl isl).pool = e :: es)
    (htakes : if (rerouted s e).isl = e.isl then flyingEntries s (rerouted s e) < binRoom s (rerouted s e)
      else accepts s (rerouted s e) = true) :
    ∃ t, exec (.poolReinject isl) s = .next t ∧
      KeepsEntries ((forward s e.isl (rerouted s e)).updIsl isl fun i => { i with pool := es }) t := by
  have hre : reinjectFrom s (s.isl isl).pool = some (forward s e.isl (rerouted s e), es) := by
    rw [hpool]
    unfold reinjectFrom
    dsimp only
    rw [if_pos (by split at htakes <;> simp [*])]
  refine ⟨_, ?_, .trans (.foldl flushWaiting_keepsEntries
    (SMap.keys ((forward s e.isl (rerouted s e)).updIsl isl fun i => { i with pool := es }).kernels) _)
    (clocks_keepsEntries _)⟩
  show execPoolReinject isl s = _
  unfold execPoolReinject
  rw [hre]
  rfl

/-- The first payload of an overflow area whose bin takes it enters it (R119). -/
theorem exec_overflowReinject {s t : State} {kid : Nat} {k : Kernel} {e : LaneEntry} {es : List LaneEntry}
    (hk : s.kernels.find? kid = some k) (hes : k.overflow = e :: es)
    (htakes : binTakes s k { e with core := (holderFor s kid k e.isl e.off).getD e.core } = true)
    (henter : enterBin (noteArrival s { e with core := (holderFor s kid k e.isl e.off).getD e.core })
      { e with core := (holderFor s kid k e.isl e.off).getD e.core } = some t) :
    exec (.overflowReinject kid) s = .next (t.updKernel kid fun k => { k with overflow := es }) := by
  have hof : overflowFrom s kid k k.overflow = some (t, es) := by
    rw [hes]
    unfold overflowFrom
    dsimp only
    rw [if_pos htakes, henter]
  show execOverflowReinject kid s = _
  unfold execOverflowReinject
  simp only [hk, Option.bind_some, hof]
  rfl

end Sys2Proof.Machine

open Sys2Proof Sys2Proof.Machine

theorem reinjection : reinjectionRule := by
  refine ⟨fun s isl e es hpool => ?_, ?_⟩
  · intro e' sent
    refine ⟨fun hisl hroom => ?_, fun hisl hroom => ?_⟩
    · obtain ⟨t, hexec, hkeeps⟩ := exec_poolReinject hpool (by rw [if_pos hisl]; exact hroom)
      rw [forward_here hisl] at hkeeps
      refine ⟨t, hexec, ?_, ?_⟩
      · rw [hkeeps.msgs s.uid (Nat.lt_succ_self _)]
        exact State.addMsg_find s _
      · rw [hkeeps.pool, State.updIsl_same]
    · obtain ⟨t, hexec, hkeeps⟩ := exec_poolReinject hpool (by rw [if_neg hisl]; exact hroom)
      obtain ⟨p, hp, huid, hcargo, hsrc, hdst, hsep, hsseq⟩ := forward_away (s := s) hisl
      refine ⟨t, p, hexec, ?_, ?_, hcargo, hsrc, hdst, hsep, hsseq⟩
      · rw [hkeeps.pool, State.updIsl_same]
      · rw [hkeeps.pkts]
        exact hp
  · intro s kid bi k e es b hk hes hkid hm e' key htakes hof hb hbk hbo hf hx hlt
    subst hkid
    obtain ⟨k', hk', hfill⟩ := noteArrival_find (s := s) (e := e') hk
    have henter := enterBin_joins (s := noteArrival s e') hk' hm hof hb hbk hbo hf hx (by rw [hfill]; exact hlt)
    refine ⟨_, exec_overflowReinject hk hes htakes henter, ?_, rfl, rfl, ?_⟩
    · rw [State.updKernel_find, State.updBins_kernels, show (noteArrival s e').kernels.find? e.kernel = some k' from hk']
      rfl
    · rw [State.updKernel_core, State.updBins_bins, LaneEntry.kept_of_msg (e := e') hm]
      rfl
end

