-- ==== Proofs/Walks.lean ====
section
/-! PROOFS. What a walk rests on (R210, R54, R355): the bytes of the tables, the islands that live, the tenants' roots and the
crews whose mirror lines the PCP maps; so it finds the same in two states that agree in these. -/

namespace Sys2Proof.Machine

/-- Two states of the same tables. -/
structure SameTables (s t : State) : Prop where
  mem : t.mem = s.mem
  tick : t.tick = s.tick
  tenants : t.tenants = s.tenants
  crews : t.crews = s.crews
  live : ∀ i, (t.isl i).live = (s.isl i).live
  tenant : ∀ k, (t.kernels.find? k).map (·.tenant) = (s.kernels.find? k).map (·.tenant)

theorem AtHomes.sameTables {s t : State} (h : AtHomes s t) (hm : t.mem = s.mem) : SameTables s t :=
  ⟨hm, h.tick, h.tenants, h.crews, h.live, h.tenant⟩

namespace SameTables

variable {s t : State} (h : SameTables s t)
include h

theorem rd (a n : Nat) : t.rd a n = s.rd a n := by
  unfold State.rd
  rw [h.mem]

theorem leafOf (tenant va level x : Nat) : Machine.leafOf t tenant va level x = Machine.leafOf s tenant va level x := by
  simp only [Machine.leafOf, h.live]

theorem pickLeaf (level pte x : Nat) : Machine.pickLeaf t level pte x = Machine.pickLeaf s level pte x := by
  simp only [Machine.pickLeaf, h.rd, h.tick]

theorem walkFrom (tenant va level table : Nat) :
    Machine.walkFrom t tenant va level table = Machine.walkFrom s tenant va level table := by
  induction level generalizing table with
  | zero => simp only [Machine.walkFrom, h.rd, h.leafOf, h.pickLeaf, h.live]
  | succ level ih => simp only [Machine.walkFrom, h.rd, h.leafOf, h.pickLeaf, h.live, ih]

theorem specialPage (tenant va : Nat) : Machine.specialPage t tenant va = Machine.specialPage s tenant va := by
  simp only [Machine.specialPage, h.crews]
  have hk : ∀ k, (SMap.find? t.kernels k).map (·.tenant) = (SMap.find? s.kernels k).map (·.tenant) := h.tenant
  simp only [hk]

theorem walk (tenant va : Nat) : Machine.walk t tenant va = Machine.walk s tenant va := by
  have hroot : t.tenant tenant = s.tenant tenant := by
    unfold State.tenant
    rw [h.tenants]
  simp only [Machine.walk, h.walkFrom, hroot, h.specialPage]

end SameTables

end Sys2Proof.Machine
end

