-- ==== Proofs/Alike.lean ====
section
/-! PROOFS. Two states that differ in their kernels alone: the accesses of the PCP do the same in both, beside the kernels
whose waiters they wake (R208, R327, R330), for no access reads a kernel. -/

namespace Sys2Proof.Machine

/-- Two states alike but for their kernels. -/
def Alike (s t : State) : Prop := ∃ ks, t = { s with kernels := ks }

namespace Alike

variable {s t : State}

theorem foldl {α : Type} {f : State → α → State} (hf : ∀ {s t} x, Alike s t → Alike (f s x) (f t x)) (xs : List α)
    (h : Alike s t) : Alike (xs.foldl f s) (xs.foldl f t) := by
  induction xs generalizing s t with
  | nil => exact h
  | cons x xs ih => exact ih (hf x h)

theorem teams : Alike s t → t.teams = s.teams := by rintro ⟨ks, rfl⟩; rfl
theorem crews : Alike s t → t.crews = s.crews := by rintro ⟨ks, rfl⟩; rfl
theorem isl (i : Nat) : Alike s t → t.isl i = s.isl i := by rintro ⟨ks, rfl⟩; rfl
theorem core (k : Nat) : Alike s t → t.core k = s.core k := by rintro ⟨ks, rfl⟩; rfl
theorem tenantOf (n : Nat) : Alike s t → t.tenant n = s.tenant n := by rintro ⟨ks, rfl⟩; rfl
theorem rd (a n : Nat) : Alike s t → t.rd a n = s.rd a n := by rintro ⟨ks, rfl⟩; rfl
theorem poisoned (a n : Nat) : Alike s t → Machine.poisoned t a n = Machine.poisoned s a n := by rintro ⟨ks, rfl⟩; rfl
theorem piecesHeld (write : Bool) (ps : List (Nat × Nat)) :
    Alike s t → Machine.piecesHeld t write ps = Machine.piecesHeld s write ps := by rintro ⟨ks, rfl⟩; rfl

theorem updIsl (i : Nat) (f : Island → Island) : Alike s t → Alike (s.updIsl i f) (t.updIsl i f) :=
  fun ⟨ks, h⟩ => ⟨ks, h ▸ rfl⟩
theorem updCore (k : Nat) (f : Core → Core) : Alike s t → Alike (s.updCore k f) (t.updCore k f) :=
  fun ⟨ks, h⟩ => ⟨ks, h ▸ rfl⟩
theorem setTeam (u : Nat) (x : Team) : Alike s t → Alike (s.setTeam u x) (t.setTeam u x) := fun ⟨ks, h⟩ => ⟨ks, h ▸ rfl⟩
theorem updTeam (u : Nat) (f : Team → Team) : Alike s t → Alike (s.updTeam u f) (t.updTeam u f) :=
  fun ⟨ks, h⟩ => ⟨ks, h ▸ rfl⟩
theorem updKernel (k : Nat) (f : Kernel → Kernel) : Alike s t → Alike (s.updKernel k f) (t.updKernel k f) :=
  fun ⟨ks, h⟩ => ⟨ks.upd k f, h ▸ rfl⟩

theorem watchDrop (u : Nat) : Alike s t → Alike (Machine.watchDrop s u) (Machine.watchDrop t u) := by
  rintro ⟨ks, rfl⟩
  unfold Machine.watchDrop
  dsimp only
  split
  · exact ⟨ks, rfl⟩
  · split <;> exact ⟨ks, rfl⟩

theorem abortTx (u : Nat) (c : TxCode) : Alike s t → Alike (Machine.abortTx s u c) (Machine.abortTx t u c) := by
  intro h
  have hw := h.watchDrop u
  unfold Machine.abortTx
  dsimp only
  rw [h.teams, hw.crews]
  split
  · exact h
  · split
    · exact h
    · split
      · exact (hw.updIsl _ _).setTeam _ _
      · exact hw.setTeam _ _

theorem conflictOn (by_ : Option Nat) (write : Bool) (line : Nat) :
    Alike s t → Alike (Machine.conflictOn s by_ write line) (Machine.conflictOn t by_ write line) := by
  intro h
  unfold Machine.conflictOn
  rw [h.teams]
  refine h.foldl (fun ut h => ?_) _
  split
  · split
    · exact h.abortTx _ _
    · exact h
  · exact h

theorem crumbForget (u : Nat) : Alike s t → Alike (Machine.crumbForget s u) (Machine.crumbForget t u) := by
  intro h
  obtain ⟨ks, hk⟩ := (h.watchDrop u).updTeam u fun t => { t with ovf := [] }
  refine ⟨ks, ?_⟩
  unfold Machine.crumbForget
  dsimp only
  rw [hk]

theorem wakeWaiter (w : Waiter) : Alike s t → Alike (Machine.wakeWaiter s w) (Machine.wakeWaiter t w) := by
  intro h
  cases w with
  | hold k => exact h.updKernel k _
  | team u =>
    unfold Machine.wakeWaiter
    dsimp only
    rw [h.teams]
    split
    · exact h
    · split
      · exact (h.setTeam u _).crumbForget u
      · exact h

theorem changeLine (line : Nat) : Alike s t → Alike (Machine.changeLine s line) (Machine.changeLine t line) := by
  intro h
  unfold Machine.changeLine
  dsimp only
  rw [h.isl]
  split
  · exact h
  · next c _ =>
    have hwake := foldl (fun w h => h.wakeWaiter w) c.waiters
      (h.updIsl (lineIsl line) fun x => { x with crumbs := SMap.del x.crumbs line })
    split
    · rw [hwake.teams]
      refine foldl (fun ut h => ?_) _ hwake
      rw [h.crews]
      split
      · exact h.wakeWaiter _
      · exact h
    · exact hwake

theorem combine (l : L1Line) : Alike s t → Alike (Machine.combine s l) (Machine.combine t l) := by
  intro h
  unfold Machine.combine
  split
  · refine h.foldl (fun p h => ?_) _
    obtain ⟨ks, rfl⟩ := h
    exact ⟨ks, rfl⟩
  · exact h

theorem recallLine (line : Nat) : Alike s t → Alike (Machine.recallLine s line) (Machine.recallLine t line) := by
  intro h
  unfold Machine.recallLine sharers
  dsimp only
  simp only [h.core]
  split
  · exact h
  · refine (foldl (fun k h => ?_) _ h).changeLine line
    rw [h.core]
    split
    · exact (h.combine _).updCore _ _
    · exact h

theorem invalidateOthers (line : Nat) (keep : Option Nat) :
    Alike s t → Alike (Machine.invalidateOthers s line keep) (Machine.invalidateOthers t line keep) := by
  intro h
  unfold Machine.invalidateOthers sharers
  simp only [h.core]
  refine h.foldl (fun c h => ?_) _
  rw [h.core]
  split
  · exact h
  · split
    · split
      · exact h.updCore _ _
      · exact h
    · exact h

theorem l2Evict (line : Nat) (h : Alike s t) : Alike (Machine.l2Evict s line) (Machine.l2Evict t line) :=
  (h.recallLine line).invalidateOthers line none

theorem l2Touch (line bits : Nat) (strm : Bool) :
    Alike s t → Alike (Machine.l2Touch s line bits strm) (Machine.l2Touch t line bits strm) := by
  intro h
  unfold Machine.l2Touch
  dsimp only
  rw [h.isl]
  split
  · exact h
  · split
    · exact h.updIsl _ _
    · refine Alike.updIsl _ _ ?_
      split
      · exact h
      · exact h.foldl (fun (x : L2Line) h => h.l2Evict x.line) _

theorem reachLine (by_ : Option Nat) (write strm : Bool) (pa n l : Nat) (h : Alike s t) :
    Alike (Machine.reachLine s by_ write strm pa n l) (Machine.reachLine t by_ write strm pa n l) :=
  ((h.recallLine l).conflictOn by_ write l).l2Touch l _ strm

theorem homeRead (by_ : Option Nat) (pa n : Nat) (h : Alike s t) :
    Alike (Machine.homeRead s by_ pa n).2 (Machine.homeRead t by_ pa n).2 :=
  h.foldl (fun l h => h.reachLine by_ false false pa n l) _

theorem readTables (va level table : Nat) (h : Alike s t) :
    Alike (Machine.readTables s va level table) (Machine.readTables t va level table) := by
  induction level generalizing s t table with
  | zero =>
    unfold Machine.readTables
    dsimp only
    rw [(h.homeRead none _ 8).rd]
    split <;> exact h.homeRead none _ 8
  | succ level ih =>
    unfold Machine.readTables
    dsimp only
    rw [(h.homeRead none _ 8).rd]
    split
    · exact ih _ (h.homeRead none _ 8)
    · exact h.homeRead none _ 8

theorem walked (tenant va : Nat) (h : Alike s t) : Alike (Machine.walked s tenant va).2 (Machine.walked t tenant va).2 := by
  unfold Machine.walked
  rw [h.tenantOf]
  dsimp only
  split
  · exact h
  · exact h.readTables va 5 _

theorem struckFrom (va level table : Nat) (h : Alike s t) :
    Machine.struckFrom t va level table = Machine.struckFrom s va level table := by
  induction level generalizing table with
  | zero => simp only [Machine.struckFrom, h.rd, h.poisoned]
  | succ level ih => simp only [Machine.struckFrom, h.rd, h.poisoned, ih]

theorem walkStruck (tenant va : Nat) (h : Alike s t) : Machine.walkStruck t tenant va = Machine.walkStruck s tenant va := by
  unfold Machine.walkStruck
  rw [h.tenantOf, h.struckFrom]

/-- Two states alike, whose kernels are of the same tenants, have the same tables. -/
theorem sameTables (h : Alike s t)
    (hk : ∀ k, (t.kernels.find? k).map (·.tenant) = (s.kernels.find? k).map (·.tenant)) : SameTables s t := by
  obtain ⟨ks, rfl⟩ := h
  exact ⟨rfl, rfl, rfl, rfl, fun _ => rfl, hk⟩

end Alike

theorem walked_found (s : State) (tenant va : Nat) : (walked s tenant va).1 = walk (walked s tenant va).2 tenant va := rfl

/-- The PCP finds the same pieces. -/
theorem pcpPieces_alike {s t : State} (tenant : Nat) (ps : List (Nat × Nat)) (h : Alike s t)
    (hk : ∀ k, (t.kernels.find? k).map (·.tenant) = (s.kernels.find? k).map (·.tenant)) :
    (pcpPieces t tenant ps).1 = (pcpPieces s tenant ps).1 := by
  induction ps generalizing s t with
  | nil => rfl
  | cons p ps ih =>
    obtain ⟨va, n⟩ := p
    have hk' : ∀ k, ((walked t tenant va).2.kernels.find? k).map (·.tenant) =
        ((walked s tenant va).2.kernels.find? k).map (·.tenant) := fun k =>
      ((walked_atHomes t tenant va).tenant k).trans ((hk k).trans ((walked_atHomes s tenant va).tenant k).symm)
    have hwalk : (walked t tenant va).1 = (walked s tenant va).1 := by
      rw [walked_found, walked_found]
      exact ((h.walked tenant va).sameTables hk').walk tenant va
    have hrest := ih (h.walked tenant va) hk'
    clear hk' ih
    unfold pcpPieces
    generalize walked s tenant va = r at hwalk hrest ⊢
    generalize walked t tenant va = r' at hwalk hrest ⊢
    obtain ⟨w, s'⟩ := r
    obtain ⟨w', t'⟩ := r'
    obtain rfl : w' = w := hwalk
    cases w' with
    | leaf e =>
      dsimp only at hrest ⊢
      split
      · rfl
      · generalize pcpPieces s' tenant ps = r at hrest ⊢
        generalize pcpPieces t' tenant ps = r' at hrest ⊢
        obtain ⟨o, s''⟩ := r
        obtain ⟨o', t''⟩ := r'
        obtain rfl : o' = o := hrest
        cases o' <;> rfl
    | bad => rfl
    | missing => rfl

theorem codeHeld_alike {s t : State} (tenant : Nat) (ps : List (Nat × Nat)) (h : Alike s t)
    (hk : ∀ k, (t.kernels.find? k).map (·.tenant) = (s.kernels.find? k).map (·.tenant)) :
    codeHeld t tenant ps = codeHeld s tenant ps := by
  unfold codeHeld
  rw [pcpPieces_alike tenant ps h hk, h.piecesHeld]

theorem codeFault_alike {s t : State} (tenant : Nat) (ps : List (Nat × Nat)) (h : Alike s t)
    (hk : ∀ k, (t.kernels.find? k).map (·.tenant) = (s.kernels.find? k).map (·.tenant)) :
    codeFault t tenant ps = codeFault s tenant ps := by
  induction ps with
  | nil => rfl
  | cons p ps ih =>
    unfold codeFault
    rw [(h.sameTables hk).walk, ih]
    simp only [h.walkStruck, h.poisoned]

end Sys2Proof.Machine
end

