-- ==== Proofs/SegmentMaps.lean ====
section
/-! PROOFS. The segment maps of a travelling kernel (R68, R69, R403): the refresh, the windows of a segment, the replica that
a third hot window brings, and the holder that leaves. -/

namespace Sys2Proof.Machine

theorem foldl_kernels {α : Type} {f : State → α → State} (hf : ∀ s x, (f s x).kernels = s.kernels) (xs : List α)
    (s : State) : (xs.foldl f s).kernels = s.kernels := by
  induction xs generalizing s with
  | nil => rfl
  | cons x xs ih => rw [List.foldl_cons, ih, hf]

theorem unpin_kernels (s : State) (kid : Nat) : (unpin s kid).kernels = s.kernels := by
  unfold unpin
  split
  · rfl
  · refine foldl_kernels (fun s c => ?_) _ s
    dsimp only
    split <;> rfl

/-! ## The refresh -/

/-- The kernel after a refresh of its map. -/
def Kernel.refreshed (s : State) (kid : Nat) (k : Kernel) : Kernel :=
  { k with
    segMap := k.segMap.map fun m => { m with holders := m.holders.map fun h =>
      { h with load := loadOf s kid (coreKey ((k.isls.getD []).headD 0) h.core), inMap := true } }
    mapsDone := k.mapsDone + 1 }

theorem refreshMap_find {s : State} {kid : Nat} {k : Kernel} (hk : s.kernels.find? kid = some k) :
    (refreshMap s kid k).kernels.find? kid = some (k.refreshed s kid) := by
  unfold refreshMap
  rw [unpin_kernels, State.updKernel_find, hk]
  rfl

theorem exec_segmentMapRefresh {s : State} {kid : Nat} {k : Kernel} (hk : s.kernels.find? kid = some k)
    (htravels : k.travels = true) (hmap : k.segMap ≠ []) (hdue : k.mapsDone < s.now / 2000) :
    exec (.segmentMapRefresh kid) s = .next (refreshMap s kid k) := by
  show happen s _ = _
  simp [hk, htravels, hmap, hdue, happen]

theorem Kernel.refreshed_holder {s : State} {kid : Nat} {k : Kernel} {m : SegMap} {h : Holder}
    (hm : m ∈ (k.refreshed s kid).segMap) (hh : h ∈ m.holders) :
    h.inMap = true ∧ h.load = loadOf s kid (coreKey ((k.isls.getD []).headD 0) h.core) := by
  obtain ⟨m', -, rfl⟩ := List.mem_map.1 hm
  obtain ⟨h', -, rfl⟩ := List.mem_map.1 hh
  exact ⟨rfl, rfl⟩

/-! ## Windows -/

/-- The window of a segment is noted: its count of hot windows, and its number. -/
def windowNoted (s : State) (kid i : Nat) (m : SegMap) (n : Nat) : State :=
  s.updKernel kid fun k => { k with segMap := k.segMap.set i { m with hot := n, windows := s.now / 2000 } }

/-- Hot windows in a row before this one. -/
def SegMap.run (m : SegMap) (s : State) : Nat := if m.windows + 1 = s.now / 2000 then m.hot else 0
/-- Arrivals that wait at the holders of a segment. -/
def SegMap.queued (m : SegMap) (s : State) (kid isl : Nat) : Nat :=
  (m.holders.map fun h => waitingAt s kid (coreKey isl h.core)).sum

theorem exec_replicaWindow {s : State} {kid i : Nat} {k : Kernel} {m : SegMap} {g : Seg}
    (hk : s.kernels.find? kid = some k) (hm : k.segMap[i]? = some m) (hg : k.image.segs[i]? = some g)
    (hdue : m.windows < s.now / 2000) : exec (.replicaWindow kid i) s = .next (replicaWindow s kid i k m g) := by
  show happen s _ = _
  simp [hk, hm, hg, hdue, happen]

variable {s : State} {kid i : Nat} {k : Kernel} {m : SegMap} {g : Seg}

theorem replicaWindow_cool (h : m.queued s kid ((k.isls.getD []).headD 0) ≤ g.thresh) :
    replicaWindow s kid i k m g = windowNoted s kid i m 0 := by
  have hn := not_lt.2 h
  unfold SegMap.queued at hn
  unfold replicaWindow
  simp only [if_neg hn]
  rfl

/-- The count of a hot window of a segment. -/
theorem replicaWindow_counts (h : g.thresh < m.queued s kid ((k.isls.getD []).headD 0)) (hrun : m.run s < 2) :
    replicaWindow s kid i k m g = windowNoted s kid i m (m.run s + 1) := by
  have hmin : min (m.run s + 1) 3 = m.run s + 1 := by omega
  have h3 : m.run s + 1 ≠ 3 := by omega
  unfold SegMap.queued at h
  unfold SegMap.run at hmin h3
  unfold replicaWindow
  simp only [if_pos h, hmin, h3, decide_false, Bool.false_and, Bool.false_eq_true, if_false]
  rfl

/-! ## The replica of a third hot window -/

/-- An idle core has room for a segment, in place of what it holds of the kernel. -/
def RoomFor (s : State) (kid : Nat) (k : Kernel) (isl seg len c : Nat) : Prop :=
  ∃ old, idleCore s kid k isl c = some old ∧ old ≠ some seg ∧
    codeUsed s (coreKey isl c) -
      (((s.core (coreKey isl c)).code.filter fun x => x.kernel = kid).map (·.size)).sum + len ≤ storeLimit

theorem pickIdle_alike {s t : State} (h : Alike s t) (kid : Nat) (k : Kernel) (isl seg len : Nat) :
    pickIdle t kid k isl seg len = pickIdle s kid k isl seg len := by
  obtain ⟨ks, rfl⟩ := h
  rfl

theorem pickIdle_lowest {isl seg len core : Nat} (hc : core < 36) (hfits : RoomFor s kid k isl seg len core)
    (hlow : ∀ c, c < core → ¬RoomFor s kid k isl seg len c) :
    ∃ old, pickIdle s kid k isl seg len = some (core, old) := by
  obtain ⟨old, hold, hne, hroom⟩ := hfits
  refine ⟨old, ?_⟩
  unfold pickIdle
  dsimp only
  rw [List.find?_filterMap]
  have hfirst : (List.range 36).find? (fun c => ((idleCore s kid k isl c).map fun o => (c, o)).any fun co =>
      co.2 ≠ some seg && codeUsed s (coreKey isl co.1) -
        (((s.core (coreKey isl co.1)).code.filter fun x => x.kernel = kid).map (·.size)).sum + len ≤ storeLimit) =
      some core := by
    rw [List.find?_range_eq_some]
    refine ⟨?_, List.mem_range.2 hc, fun c hcc => ?_⟩
    · simpa [hold] using ⟨hne, hroom⟩
    · rw [Bool.not_eq_true', Bool.eq_false_iff]
      intro hany
      refine hlow c hcc ?_
      cases ho : idleCore s kid k isl c with
      | none => simp [ho] at hany
      | some o => exact ⟨o, ho, by simpa [ho] using hany⟩
  rw [hfirst]
  simp [hold]

theorem loadCode_holds (s : State) (kid : Nat) (k : Kernel) (key base size : Nat) :
    ((loadCode s kid k key base size).core key).code.any
      (fun c => c.kernel = kid && c.base = base && c.size = size) = true := by
  unfold loadCode
  split
  · next h => exact h
  · dsimp only
    rw [State.updCore_same]
    simp

/-- The copy of a new replica stands in its core. -/
theorem addReplica_holds (s : State) (kid : Nat) (k : Kernel) (isl seg core : Nat) (old : Option Nat) (g : Seg) :
    ((addReplica s kid k isl seg core old g).core (coreKey isl core)).code.any
      (fun c => c.kernel = kid && c.base = g.start && c.size = g.len) = true := by
  unfold addReplica
  exact loadCode_holds _ kid k _ _ _

theorem windowNoted_alike (s : State) (kid i : Nat) (m : SegMap) (n : Nat) : Alike s (windowNoted s kid i m n) := ⟨_, rfl⟩

theorem windowNoted_tenant (s : State) (kid i : Nat) (m : SegMap) (n j : Nat) :
    ((windowNoted s kid i m n).kernels.find? j).map (·.tenant) = (s.kernels.find? j).map (·.tenant) :=
  (updKernel_atHomes s kid (f := fun k => { k with segMap := k.segMap.set i _ }) fun _ => rfl).tenant j

theorem replicaWindow_adds {core : Nat} {old : Option Nat} {isl : Nat} (hisl : isl = (k.isls.getD []).headD 0)
    (h : g.thresh < m.queued s kid isl) (hrun : m.run s = 2)
    (hmax : m.holders.length < g.maxrep) (hpick : pickIdle s kid k isl i g.len = some (core, old))
    (hfault : codeFault s k.tenant (pieces (k.image.codeVa + g.start) g.len) = none)
    (hheld : codeHeld s k.tenant (pieces (k.image.codeVa + g.start) g.len) = false) :
    replicaWindow s kid i k m g = addReplica (windowNoted s kid i m 3) kid k isl i core old g := by
  subst hisl
  have halike := windowNoted_alike s kid i m 3
  have htenant := windowNoted_tenant s kid i m 3
  have hpick' := (pickIdle_alike halike kid k _ i g.len).trans hpick
  have hfault' := (codeFault_alike k.tenant _ halike htenant).trans hfault
  have hheld' := (codeHeld_alike k.tenant _ halike htenant).trans hheld
  clear halike htenant
  unfold SegMap.queued at h
  unfold SegMap.run at hrun
  unfold windowNoted at *
  unfold replicaWindow
  simp only [if_pos h, hrun]
  simp only [Nat.reduceAdd, Nat.min_self, hmax, decide_true, Bool.and_self, if_true, hpick', hfault', hheld',
    Bool.false_eq_true, if_false]

/-! ## A holder that leaves -/

theorem find_core {hs : List Holder} {h : Holder} (hh : h ∈ hs) (hnd : (hs.map (·.core)).Nodup) :
    hs.find? (fun x => x.core = h.core) = some h := by
  induction hs with
  | nil => cases hh
  | cons x xs ih =>
    rw [List.map_cons, List.nodup_cons] at hnd
    obtain ⟨hx, hxs⟩ := hnd
    rcases List.mem_cons.1 hh with rfl | hmem
    · simp
    · have hne : x.core ≠ h.core := fun e => hx (e ▸ List.mem_map_of_mem hmem)
      simpa [hne] using ih hmem hxs

theorem exec_replicaRetirement {h : Holder} (hk : s.kernels.find? kid = some k) (hm : k.segMap[i]? = some m)
    (hh : h ∈ m.holders) (hnd : (m.holders.map (·.core)).Nodup) (hin : h.inMap = true)
    (hmore : 2 ≤ (m.holders.filter (·.inMap)).length) (hidle : h.lastArrival + 100000 ≤ s.now) :
    exec (.replicaRetirement kid i h.core) s = .next (unpin (s.updKernel kid fun k => { k with
      segMap := k.segMap.set i { m with holders := m.holders.filter fun x => x.core ≠ h.core } }) kid) := by
  show happen s _ = _
  simp [hk, hm, find_core hh hnd, hin, hmore, hidle, happen]

/-! ## The rule -/

theorem segmentMaps : segmentMapsRule := by
  intro s kid k hk isl
  refine ⟨fun htravels hmap hdue => ?_, fun i m g hm hg hdue => ?_, fun i m h hm hh hnd hin hmore hidle => ?_⟩
  · refine ⟨_, _, exec_segmentMapRefresh hk htravels hmap hdue, refreshMap_find hk, rfl, ?_, ?_⟩
    · exact List.length_map ..
    · exact fun m hm h hh => Kernel.refreshed_holder hm hh
  · intro queued run after
    have hexec := exec_replicaWindow hk hm hg hdue
    refine ⟨fun hcool => ?_, fun hhot hrun => ?_, ?_⟩
    · rw [hexec, replicaWindow_cool hcool]
      rfl
    · rw [hexec, replicaWindow_counts hhot hrun]
      rfl
    · intro Fits need core hhot hrun hmax hc hfits hlow hfault hheld
      obtain ⟨old, hpick⟩ := pickIdle_lowest hc hfits hlow
      rw [hexec, replicaWindow_adds rfl hhot hrun hmax hpick hfault hheld]
      exact ⟨_, rfl, addReplica_holds ..⟩
  · refine ⟨_, exec_replicaRetirement hk hm hh hnd hin hmore hidle, ?_⟩
    rw [unpin_kernels, State.updKernel_find, hk]
    rfl

end Sys2Proof.Machine

open Sys2Proof Sys2Proof.Machine

/-- Settles O47: each clause by the steps of its event: the entry's arrival, the bin's move, the reinjection, the map's
refresh, window and retirement. -/
theorem entriesFormTeams : Obligations.EntriesFormTeams := ⟨entriesKeyed, binsLaunch, reinjection, segmentMaps⟩
end

