-- ==== Proofs/HomeWrites.lean ====
section
/-! PROOFS. Home writes where the L1s hold coherent lines only and no team has an open transaction (R203, R208, R327, R330):
the bytes change and the waiters of their lines wake; no byte elsewhere changes, and no team that does not sleep does. -/

namespace Sys2Proof.Machine

theorem SMap.mem_upd {α : Type} {m : SMap α} {k : Nat} {f : α → α} {x : Nat × α} (h : x ∈ m.upd k f) :
    x ∈ m ∨ ∃ v, (k, v) ∈ m ∧ x = (k, f v) := by
  induction m with
  | nil => exact .inl h
  | cons a m ih =>
    obtain ⟨j, w⟩ := a
    unfold SMap.upd at h
    split at h
    · next e =>
      subst e
      rcases List.mem_cons.1 h with rfl | h
      · exact .inr ⟨w, List.mem_cons_self, rfl⟩
      · exact .inl (List.mem_cons_of_mem _ h)
    · rcases List.mem_cons.1 h with rfl | h
      · exact .inl List.mem_cons_self
      · rcases ih h with h | ⟨v, hv, e⟩
        · exact .inl (List.mem_cons_of_mem _ h)
        · exact .inr ⟨v, List.mem_cons_of_mem _ hv, e⟩

theorem SMap.mem_of_find? {α : Type} {m : SMap α} {k : Nat} {v : α} (h : m.find? k = some v) : (k, v) ∈ m := by
  induction m with
  | nil => cases h
  | cons a m ih =>
    obtain ⟨j, w⟩ := a
    unfold SMap.find? at h
    split at h
    · next e =>
      cases h
      subst e
      exact List.mem_cons_self
    · exact List.mem_cons_of_mem _ (ih h)

/-- The L1s hold coherent lines only, and no team has an open transaction. -/
def State.calm (s : State) : Prop := s.coherentOnly ∧ s.noTx

theorem Quiet.calm {s : State} (h : Quiet s) : s.calm := ⟨h.coherentOnly, h.2⟩

/-- A team that does not sleep. -/
def Team.awake (t : Team) : Prop := ∀ ls ws, t.status ≠ .sleeping ls ws

/-- `t` is `s` after some sleeping teams were woken. -/
structure Woken (s t : State) : Prop where
  mem : t.mem = s.mem
  calm : s.calm → t.calm
  team : ∀ u x, s.teams.find? u = some x → x.awake → t.teams.find? u = some x

namespace Woken

variable {s t u : State}

theorem refl (s : State) : Woken s s := ⟨rfl, id, fun _ _ h _ => h⟩

theorem trans (h : Woken s t) (h' : Woken t u) : Woken s u :=
  ⟨h'.mem.trans h.mem, fun hc => h'.calm (h.calm hc), fun v x hx ha => h'.team v x (h.team v x hx ha) ha⟩

theorem foldl {α : Type} {f : State → α → State} (hf : ∀ s x, Woken s (f s x)) (xs : List α) (s : State) :
    Woken s (xs.foldl f s) := by
  induction xs generalizing s with
  | nil => exact refl s
  | cons x xs ih => exact (hf s x).trans (ih (f s x))

end Woken

/-! ## Waking -/

/-- A core but for its L1 changes. -/
theorem updCore_coherentOnly {s : State} {k : Nat} {f : Core → Core} (hf : ∀ c, (f c).l1 = c.l1) (hc : s.coherentOnly) :
    (s.updCore k f).coherentOnly :=
  (updCore_fetched hc fun i l hl => hc k i l (by rwa [hf] at hl)).2

theorem watchDrop_woken (s : State) (u : Nat) : Woken s (watchDrop s u) := by
  unfold watchDrop
  split
  · exact .refl s
  · split
    · exact .refl s
    · exact ⟨rfl, fun hc => ⟨updCore_coherentOnly (fun _ => rfl) hc.1, hc.2⟩, fun _ _ h _ => h⟩

theorem updTeam_noTx {s : State} {u : Nat} {f : Team → Team} (hf : ∀ t, (f t).tx = t.tx) (hn : s.noTx) :
    (s.updTeam u f).noTx := by
  intro ut hut
  rcases SMap.mem_upd hut with h | ⟨v, hv, rfl⟩
  · exact hn ut h
  · exact (hf v).trans (hn (u, v) hv)

theorem setTeam_noTx {s : State} {u : Nat} {t : Team} (ht : t.tx = none) (hn : s.noTx) : (s.setTeam u t).noTx := by
  intro ut hut
  rcases SMap.mem_put hut with rfl | h
  · exact ht
  · exact hn ut h

/-- The crumbs of a team that is woken go; the team itself sleeps. -/
theorem crumbForget_calm {s : State} (u : Nat) (hc : s.calm) : (crumbForget s u).calm :=
  have hdrop := (watchDrop_woken s u).calm hc
  ⟨hdrop.1, updTeam_noTx (fun _ => rfl) hdrop.2⟩

theorem crumbForget_mem (s : State) (u : Nat) : (crumbForget s u).mem = s.mem := (watchDrop_woken s u).mem

theorem watchDrop_teams (s : State) (u : Nat) : (watchDrop s u).teams = s.teams := by
  unfold watchDrop
  split
  · rfl
  · split <;> rfl

theorem crumbForget_find_other (s : State) {u v : Nat} (h : v ≠ u) :
    (crumbForget s u).teams.find? v = s.teams.find? v := by
  have hupd := State.updTeam_find_other (watchDrop s u) (fun t => { t with ovf := [] }) h
  rw [watchDrop_teams] at hupd
  exact hupd

theorem wakeWaiter_woken (s : State) (w : Waiter) : Woken s (wakeWaiter s w) := by
  cases w with
  | hold k => exact ⟨rfl, id, fun _ _ h _ => h⟩
  | team u =>
    unfold wakeWaiter
    dsimp only
    split
    · exact .refl s
    · next t ht =>
      split
      · next ls ws hst =>
        refine ⟨crumbForget_mem _ _, fun hc => crumbForget_calm u ⟨hc.1, ?_⟩, fun v x hx ha => ?_⟩
        · exact setTeam_noTx (hc.2 (u, t) (SMap.mem_of_find? ht)) hc.2
        · have hne : v ≠ u := by
            rintro rfl
            rw [ht] at hx
            cases hx
            exact ha ls ws hst
          rw [crumbForget_find_other _ hne, State.setTeam_find_other _ _ hne, hx]
      · exact .refl s

theorem changeLine_woken (s : State) (line : Nat) : Woken s (changeLine s line) := by
  unfold changeLine
  dsimp only
  split
  · exact .refl s
  · next c _ =>
    have hdel : Woken s (s.updIsl (lineIsl line) fun x => { x with crumbs := SMap.del x.crumbs line }) :=
      ⟨rfl, id, fun _ _ h _ => h⟩
    have hwake := hdel.trans (.foldl wakeWaiter_woken c.waiters _)
    split
    · refine hwake.trans (.foldl (fun s ut => ?_) _ _)
      split
      · exact wakeWaiter_woken s _
      · exact .refl s
    · exact hwake

/-! ## A home write -/

/-- The accesses of a home read: lines move in the caches. -/
theorem homeRead_fetched {s : State} (by_ : Option Nat) (pa n : Nat) (h : s.calm) : Fetched s (homeRead s by_ pa n).2 :=
  Fetched.foldl (fun _ l hc hn => reachLine_fetched by_ false false pa n l hc hn) _ h.1 h.2

/-- Up to its bytes a home write only moves lines, and after them it only wakes. -/
theorem homeWrite_parts {s : State} (by_ keep : Option Nat) (pa : Nat) (bs : List Byte) (h : s.calm) :
    ∃ r, Fetched s r ∧ Woken (r.wr pa bs) (homeWrite s by_ none keep pa bs) := by
  refine ⟨_, ?_, Woken.foldl changeLine_woken _ _⟩
  refine Fetched.foldl (fun t l hc hn => ?_) _ h.1 h.2
  have hreach := reachLine_fetched by_ true false pa bs.length l hc hn
  exact hreach.trans (invalidateOthers_fetched l keep hreach.2 (hreach.noTx hn))

section
variable {s : State} (by_ keep : Option Nat) (pa : Nat) (bs : List Byte)

theorem homeWrite_mem (h : s.calm) : (homeWrite s by_ none keep pa bs).mem = memPut s.mem pa bs := by
  obtain ⟨r, hr, hw⟩ := homeWrite_parts by_ keep pa bs h
  rw [hw.mem, State.wr_mem, hr.1.mem]

theorem homeWrite_calm (h : s.calm) : (homeWrite s by_ none keep pa bs).calm := by
  obtain ⟨r, hr, hw⟩ := homeWrite_parts by_ keep pa bs h
  exact hw.calm ⟨hr.2, hr.noTx h.2⟩

theorem homeWrite_team {u : Nat} {t : Team} (h : s.calm) (ht : s.teams.find? u = some t) (ha : t.awake) :
    (homeWrite s by_ none keep pa bs).teams.find? u = some t := by
  obtain ⟨r, hr, hw⟩ := homeWrite_parts by_ keep pa bs h
  exact hw.team u t (by rw [← ht]; exact congrArg (·.find? u) hr.1.teams) ha

/-- A home write stores its bytes, and no others. -/
theorem homeWrite_storesAt (h : s.calm) : StoresAt s (homeWrite s by_ none keep pa bs) pa bs := by
  have hmem := homeWrite_mem by_ keep pa bs h
  refine ⟨?_, fun b hb => ?_⟩
  · unfold State.bytes
    rw [hmem]
    exact memBytes_memPut_same bs s.mem pa
  · rw [hmem]
    exact memGet_memPut_other bs s.mem pa b hb

end

end Sys2Proof.Machine
end

