-- ==== Proofs/HostAccess.lean ====
section
/-! PROOFS. The host's accesses to panel memory (R204, R208, R216, R321): the walk for the page moves lines in the caches
alone, so the page is the one that was mapped; the write is then performed at its home, or stands held there. -/

namespace Sys2Proof.Machine

/-! ## What holds an access -/

/-- Two states in which the same accesses wait. -/
structure SameWaits (s t : State) : Prop where
  teams : t.teams = s.teams
  ops : t.ops = s.ops
  pkts : t.pkts = s.pkts
  held : t.held = s.held
  uid : t.uid = s.uid
  holds : t.pcp.holds = s.pcp.holds
  migrations : t.pcp.migrations = s.pcp.migrations

namespace SameWaits

variable {s t u : State}

theorem trans (h : SameWaits s t) (h' : SameWaits t u) : SameWaits s u :=
  ⟨h'.teams.trans h.teams, h'.ops.trans h.ops, h'.pkts.trans h.pkts, h'.held.trans h.held, h'.uid.trans h.uid,
    h'.holds.trans h.holds, h'.migrations.trans h.migrations⟩

theorem of_touch (s : State) (pa : Nat) (from_ : Option Nat) : SameWaits s (touch s pa from_) :=
  ⟨rfl, rfl, rfl, rfl, rfl, rfl, rfl⟩

theorem of_atHomes (h : AtHomes s t) (ht : t.teams = s.teams) : SameWaits s t :=
  ⟨ht, h.ops, h.pkts, h.held, h.uid, congrArg Pcp.holds h.pcp, congrArg Pcp.migrations h.pcp⟩

variable (h : SameWaits s t)
include h

theorem irrevHolds (by_ : Option Nat) (write : Bool) :
    Machine.irrevHolds t by_ write = Machine.irrevHolds s by_ write := by
  funext line
  simp only [Machine.irrevHolds, h.teams]

theorem heldBytes (id : Nat) : Machine.heldBytes t id = Machine.heldBytes s id := by
  simp only [Machine.heldBytes, h.ops, h.pkts, h.held]

theorem lockHolds (id : Nat) (write : Bool) (pa n : Nat) :
    Machine.lockHolds t id write pa n = Machine.lockHolds s id write pa n := by
  simp only [Machine.lockHolds, lockOnly, lockedBy, heldAhead, h.heldBytes, h.holds, h.migrations, h.held]

theorem heldBefore (id : Nat) (write : Bool) (pa n : Nat) :
    Machine.heldBefore t id write pa n = Machine.heldBefore s id write pa n := by
  simp only [Machine.heldBefore, heldAhead, h.heldBytes, h.holds, h.migrations]

theorem writeHeld (id pa n : Nat) : Machine.writeHeld t id pa n = Machine.writeHeld s id pa n := by
  simp only [Machine.writeHeld, h.irrevHolds, h.lockHolds, h.heldBefore]

theorem piecesHeld (write : Bool) (ps : List (Nat × Nat)) :
    Machine.piecesHeld t write ps = Machine.piecesHeld s write ps := by
  simp only [Machine.piecesHeld, h.irrevHolds, h.lockHolds, h.uid]

end SameWaits

/-! ## The walk -/

theorem readTables_fetched {s : State} (va level table : Nat) (h : s.calm) : Fetched s (readTables s va level table) := by
  induction level generalizing s table with
  | zero =>
    unfold readTables
    dsimp only
    split <;> exact homeRead_fetched none _ 8 h
  | succ level ih =>
    have hread := homeRead_fetched none (table + 8 * pteIndex va (level + 1)) 8 h
    unfold readTables
    dsimp only
    split
    · exact hread.trans (ih _ ⟨hread.2, hread.noTx h.2⟩)
    · exact hread

theorem walked_fetched {s : State} (tenant va : Nat) (h : s.calm) : Fetched s (walked s tenant va).2 := by
  unfold walked
  dsimp only
  split
  · exact .refl h.1
  · exact readTables_fetched va 5 _ h

/-- The state after a walk, which only moves lines. -/
def afterWalk (s : State) (tenant va : Nat) : State := (walked s tenant va).2

section
variable {s : State} (tenant va : Nat) (h : s.calm)
include h

theorem afterWalk_mem : (afterWalk s tenant va).mem = s.mem := (walked_fetched tenant va h).1.mem
theorem afterWalk_calm : (afterWalk s tenant va).calm :=
  ⟨(walked_fetched tenant va h).2, (walked_fetched tenant va h).noTx h.2⟩
theorem afterWalk_sameTables : SameTables s (afterWalk s tenant va) :=
  (walked_atHomes s tenant va).sameTables (afterWalk_mem tenant va h)
theorem afterWalk_sameWaits : SameWaits s (afterWalk s tenant va) :=
  .of_atHomes (walked_atHomes s tenant va) (walked_fetched tenant va h).1.teams

theorem walked_calm : walked s tenant va = (walk s tenant va, afterWalk s tenant va) := by
  have hfound := walked_found s tenant va
  rw [← afterWalk, (afterWalk_sameTables tenant va h).walk] at hfound
  exact Prod.ext hfound rfl

theorem afterWalk_sameBytes : SameBytes s (afterWalk s tenant va) := by
  intro a
  rw [afterWalk_mem tenant va h, show (afterWalk s tenant va).hostMem = s.hostMem from (walked_atHomes s tenant va).hostMem]
  exact ⟨rfl, rfl⟩

theorem pcpTouch_leaf {e : TlbEntry} (hw : walk s tenant va = .leaf e) :
    pcpTouch s tenant va = (.leaf e, afterWalk s tenant va) := by
  unfold pcpTouch
  rw [walked_calm tenant va h, hw]

theorem pcpTouch_bad (hw : walk s tenant va = .bad) : pcpTouch s tenant va = (.bad, afterWalk s tenant va) := by
  unfold pcpTouch
  rw [walked_calm tenant va h, hw]

end

/-! ## An access within a page -/

theorem pieces_page {va n : Nat} (hn : n ≠ 0) (hfit : va % 4096 + n ≤ 4096) : pieces va n = [(va, n)] := by
  have hmin : min n (4096 - va % 4096) = n := by omega
  unfold pieces
  rw [piecesFrom, if_neg hn]
  dsimp only
  rw [hmin, Nat.sub_self]
  simp [piecesFrom]

theorem hostPieces_page {s : State} {tenant va n : Nat} {e : TlbEntry} (h : s.calm) (hw : walk s tenant va = .leaf e) :
    hostPieces s tenant [(va, n)] = (some [(e.pa va, n)], afterWalk s tenant va) := by
  simp only [hostPieces, pcpTouch_leaf tenant va h hw]

theorem hostWrite_page (s : State) (pa : Nat) (bs : List Byte) :
    hostWrite s [(pa, bs.length)] bs = writeWhenFree (touch s pa none) pa bs := by
  simp only [hostWrite, List.take_length]

theorem hostTakes_open {s : State} {o : Option State} (h : hostOpen s false = true) : hostTakes s false o = happen s o := by
  unfold hostTakes
  rw [if_pos h]

variable {s : State} {tenant va : Nat} {e : TlbEntry}

theorem exec_hostWrite {bs : List Byte} (hopen : hostOpen s false = true) (h : s.calm) (hw : walk s tenant va = .leaf e)
    (hbs : bs ≠ []) (hfit : va % 4096 + bs.length ≤ 4096) :
    exec (.hostMemoryAccess tenant va (.write bs)) s =
      .next (if !e.w && specialPage s tenant va = some e then afterWalk s tenant va
        else writeWhenFree (touch (afterWalk s tenant va) (e.pa va) none) (e.pa va) bs) := by
  have htables := afterWalk_sameTables tenant va h
  have hlen : bs.length ≠ 0 := fun hz => hbs (List.length_eq_zero_iff.1 hz)
  show hostTakes s false _ = _
  rw [hostTakes_open hopen]
  dsimp only
  rw [pieces_page hlen hfit, hostPieces_page h hw]
  simp only [pcpPage, List.any_cons, List.any_nil, Bool.or_false, htables.walk, htables.specialPage, hw, hostWrite_page]
  rfl

theorem exec_hostRead {n : Nat} (hopen : hostOpen s false = true) (h : s.calm) (hw : walk s tenant va = .leaf e)
    (hn : n ≠ 0) (hfit : va % 4096 + n ≤ 4096) :
    exec (.hostMemoryAccess tenant va (.read n)) s = if piecesHeld s false [(e.pa va, n)] then .next s
      else .next (readPieces (afterWalk s tenant va) [(e.pa va, n)]).2 := by
  show hostTakes s false _ = _
  rw [hostTakes_open hopen]
  dsimp only
  rw [pieces_page hn hfit, hostPieces_page h hw]
  simp only [(afterWalk_sameWaits tenant va h).piecesHeld]
  split <;> rfl

/-- A read at a home changes no byte. -/
theorem readPieces_sameBytes {s : State} (h : s.calm) (pa n : Nat) : SameBytes s (readPieces s [(pa, n)]).2 := by
  have hread : Fetched (touch s pa none) (readPieces s [(pa, n)]).2 := homeRead_fetched none pa n h
  intro a
  rw [hread.1.mem, hread.1.hostMem]
  exact ⟨rfl, rfl⟩

theorem hold_mem (s : State) (id : Nat) : (hold s id).mem = s.mem := by
  unfold hold
  split <;> rfl

theorem hold_hostMem (s : State) (id : Nat) : (hold s id).hostMem = s.hostMem := by
  unfold hold
  split <;> rfl

theorem hold_held (s : State) (id : Nat) : (hold s id).held = s.held := by
  unfold hold
  split <;> rfl

/-- A write that its home holds stands there, and no byte changes. -/
theorem holdWrite_holds (s : State) (w : HeldWrite) :
    SameBytes s (holdWrite s w) ∧ (holdWrite s w).held = s.held ++ [w] := by
  unfold holdWrite
  dsimp only
  split
  · refine ⟨fun a => ?_, hold_held ..⟩
    rw [hold_mem, hold_hostMem]
    exact ⟨rfl, rfl⟩
  · exact ⟨fun _ => ⟨rfl, rfl⟩, rfl⟩

theorem SameBytes.trans {s t u : State} (h : SameBytes s t) (h' : SameBytes t u) : SameBytes s u :=
  fun a => ⟨(h' a).1.trans (h a).1, (h' a).2.trans (h a).2⟩

theorem hostAccess : hostAccessRule := by
  intro s tenant va hopen hq
  have hcalm := hq.calm
  refine ⟨?_, fun bs hw hbs => ?_⟩
  · intro e bs hw hbs hfit open_ held i0 ps
    have hwrite := exec_hostWrite hopen hcalm hw hbs hfit
    have hread := exec_hostRead hopen hcalm hw (fun hz => hbs (List.length_eq_zero_iff.1 hz)) hfit
    have hafter := afterWalk_calm tenant va hcalm
    have hbytes := afterWalk_sameBytes tenant va hcalm
    have hwaits := (afterWalk_sameWaits tenant va hcalm).trans (.of_touch _ (e.pa va) none)
    have hheld : Machine.writeHeld (touch (afterWalk s tenant va) (e.pa va) none)
        (touch (afterWalk s tenant va) (e.pa va) none).uid (e.pa va) bs.length = held := by
      rw [hwaits.writeHeld, hwaits.uid]
    have hmine : open_ → (!e.w && decide (specialPage s tenant va = some e)) = false := by
      rintro (hw' | hs)
      · simp [hw']
      · simp [hs]
    refine ⟨fun ho hfree => ?_, fun ho hh => ?_, fun hno => ?_, fun hfree => ?_, fun hh => ?_⟩
    · refine ⟨_, hwrite, ?_⟩
      rw [hmine ho]
      have hstore := homeWrite_storesAt none none (e.pa va) bs (s := touch (afterWalk s tenant va) (e.pa va) none) hafter
      unfold writeWhenFree
      rw [hheld, hfree]
      exact ⟨hstore.1, fun b hb => (hstore.2 b hb).trans (hbytes b).1⟩
    · refine ⟨_, hwrite, ?_⟩
      rw [hmine ho]
      have hstands := holdWrite_holds { touch (afterWalk s tenant va) (e.pa va) none with uid := s.uid + 1 }
        { no := s.uid, pa := e.pa va, bytes := bs }
      unfold writeWhenFree
      rw [hheld, hh, hwaits.uid]
      exact ⟨hbytes.trans hstands.1, hstands.2.trans (congrArg (· ++ _) hwaits.held)⟩
    · refine ⟨_, hwrite, ?_⟩
      have hclosed : (!e.w && decide (specialPage s tenant va = some e)) = true := by
        simpa [open_] using hno
      rw [hclosed]
      exact ⟨hbytes, hwaits.held⟩
    · rw [hread, hfree]
      exact ⟨_, rfl, hbytes.trans (readPieces_sameBytes hafter _ _)⟩
    · rw [hread, hh]
      rfl
  · have hlen : bs.length ≠ 0 := fun hz => hbs (List.length_eq_zero_iff.1 hz)
    refine ⟨afterWalk s tenant va, ?_, afterWalk_sameBytes tenant va hcalm⟩
    show hostTakes s false _ = _
    rw [hostTakes_open hopen]
    dsimp only
    unfold pieces
    rw [piecesFrom, if_neg hlen]
    simp only [hostPieces, pcpTouch_bad tenant va hcalm hw]
    rfl

end Sys2Proof.Machine
end

