-- ==== Proofs/Frames.lean ====
section
/-! PROOFS. Frames and pages copied (R59, R204, R205, R215): a frame taken is aligned, lies in its island's memory and reads
as zeros, and the cells of a page written elsewhere read there as they did. -/

namespace Sys2Proof.Machine

/-! ## Cells -/

namespace SMap

variable {α : Type}

/-- A filter by the key. -/
theorem find?_filter_key (q : Nat → Bool) (m : SMap α) (k : Nat) :
    find? (m.filter fun c => q c.1) k = if q k then find? m k else none := by
  induction m with
  | nil => simp
  | cons c m ih =>
    obtain ⟨a, v⟩ := c
    by_cases hq : q a = true
    · rw [List.filter_cons_of_pos (p := fun c : Nat × α => q c.1) hq]
      by_cases hk : k = a
      · subst hk
        simp [find?, hq]
      · simp [find?, hk, ih]
    · rw [List.filter_cons_of_neg (p := fun c : Nat × α => q c.1) hq, ih]
      by_cases hk : k = a
      · subst hk
        simp [hq]
      · simp [find?, hk]

theorem find?_none_of_rising {lo k : Nat} {m : SMap α} (w : risingFrom lo m = true) (h : k < lo) : find? m k = none := by
  induction m generalizing lo with
  | nil => rfl
  | cons c m ih =>
    obtain ⟨a, v⟩ := c
    simp only [risingFrom, Bool.and_eq_true, decide_eq_true_eq] at w
    have hne : k ≠ a := by omega
    rw [find?, if_neg hne]
    exact ih w.2 (by omega)

theorem risingFrom_filter {lo : Nat} {m : SMap α} (p : Nat × α → Bool) (w : risingFrom lo m = true) :
    risingFrom lo (m.filter p) = true := by
  induction m generalizing lo with
  | nil => rfl
  | cons c m ih =>
    obtain ⟨a, v⟩ := c
    simp only [risingFrom, Bool.and_eq_true, decide_eq_true_eq] at w
    by_cases hp : p (a, v) = true
    · rw [List.filter_cons_of_pos hp]
      simp only [risingFrom, Bool.and_eq_true, decide_eq_true_eq]
      exact ⟨w.1, ih w.2⟩
    · rw [List.filter_cons_of_neg hp]
      exact ih (risingFrom_le (by omega) w.2)

end SMap

theorem memGet_filter_key (q : Nat → Bool) (m : List Host.Cell) (a : Nat) :
    memGet (m.filter fun c => q c.1) a = if q a then memGet m a else emptyByte := by
  show SMap.get emptyByte _ a = _
  unfold SMap.get
  rw [SMap.find?_filter_key]
  split <;> rfl

/-! ## Cells written elsewhere -/

/-- Cells written one by one, each where `g` sends its address. -/
def moveCells (g : Nat → Nat) (s : State) (cs : List Host.Cell) : State := cs.foldl (fun s c => s.wr (g c.1) [c.2]) s

theorem wr_byte_get (s : State) (a b : Nat) (x : Byte) :
    memGet (s.wr a [x]).mem b = if b = a then x else memGet s.mem b := memGet_memSet s.mem a b x

/-- Where two addresses do not go to one place, a cell reads where it went as it stood, and a place where none went reads as
before. -/
theorem moveCells_get {g : Nat → Nat} {lo k : Nat} {cs : List Host.Cell} (s : State)
    (w : SMap.risingFrom lo cs = true) (hg : ∀ c ∈ cs, g c.1 = g k → c.1 = k) :
    memGet (moveCells g s cs).mem (g k) = (SMap.find? cs k).getD (memGet s.mem (g k)) := by
  induction cs generalizing s lo with
  | nil => rfl
  | cons c cs ih =>
    obtain ⟨a, x⟩ := c
    simp only [SMap.risingFrom, Bool.and_eq_true, decide_eq_true_eq] at w
    have hrest := ih (s.wr (g a) [x]) w.2 fun c hc => hg c (List.mem_cons_of_mem _ hc)
    rw [wr_byte_get] at hrest
    refine hrest.trans ?_
    by_cases hk : k = a
    · subst hk
      rw [SMap.find?_none_of_rising w.2 (Nat.lt_succ_self k), SMap.find?, if_pos rfl, if_pos rfl]
      rfl
    · have hne : g k ≠ g a := fun e => hk (hg (a, x) List.mem_cons_self e.symm).symm
      rw [if_neg hne, SMap.find?, if_neg hk]

/-- The cells of an area, written where `g` sends them, read there as before, where the places read as empty. -/
theorem moveCells_area {g : Nat → Nat} {s t : State} {lo n a : Nat} (w : s.wf) (ha : lo ≤ a) (ha' : a < lo + n)
    (hg : ∀ b, lo ≤ b → b < lo + n → g b = g a → b = a) (h0 : memGet t.mem (g a) = emptyByte) :
    memGet (moveCells g t (s.mem.filter fun c => lo ≤ c.1 && c.1 < lo + n)).mem (g a) = memGet s.mem a := by
  obtain ⟨-, hwf, -⟩ := w
  have hrising : SMap.risingFrom 0 s.mem = true := by
    unfold Memory.wf SMap.canon at hwf
    exact (Bool.and_eq_true _ _ ▸ hwf).1
  rw [moveCells_get (k := a) t (SMap.risingFrom_filter _ hrising), h0,
    SMap.find?_filter_key (fun b => lo ≤ b && b < lo + n), if_pos (by simp [ha, ha'])]
  · rfl
  · intro c hc
    have hin := (List.mem_filter.1 hc).2
    simp only [Bool.and_eq_true, decide_eq_true_eq] at hin
    exact hg c.1 hin.1 hin.2

/-! ## Frames -/

theorem pageBytes_eq (size : Nat) : pageBytes size = 2 ^ (12 + 2 * size) := by
  unfold pageBytes
  rw [pow_add, pow_mul]
  rfl

theorem pageBytes_dvd {size : Nat} (h : size ≤ 11) : pageBytes size ∣ 2 ^ 39 := by
  rw [pageBytes_eq]
  exact pow_dvd_pow 2 (by omega)

theorem page_dvd_pageBytes (size : Nat) : 4096 ∣ pageBytes size := ⟨4 ^ size, rfl⟩

/-- A frame found is aligned, lies in the island's memory and is free. -/
theorem findFrame_some {tick : Nat} {used : List (Nat × Nat)} {size b : Nat} (h : findFrame tick used size = some b) :
    size ∣ b ∧ b + size ≤ 2 ^ 39 := by
  unfold findFrame at h
  have hfree := List.find?_some h
  have hmem := List.mem_of_find?_eq_some h
  simp only [areaFree, Bool.and_eq_true, decide_eq_true_eq] at hfree
  refine ⟨?_, hfree.1⟩
  rcases List.mem_cons.1 hmem with rfl | hmem
  · exact Dvd.intro_left _ rfl
  · rcases List.mem_cons.1 hmem with rfl | hmem
    · exact dvd_zero size
    · obtain ⟨u, -, rfl⟩ := List.mem_map.1 hmem
      exact Dvd.intro_left _ rfl

/-- A new frame of an island, and the state that has it. -/
structure NewFrame (s : State) (isl size pa : Nat) (t : State) : Prop where
  island : pa / 2 ^ 39 = isl
  aligned : size ∣ pa % 2 ^ 39
  fits : pa % 2 ^ 39 + size ≤ 2 ^ 39
  taken : t = { s.updIsl isl fun i => { i with frames := (pa % 2 ^ 39, size) :: i.frames } with
    mem := s.mem.filter fun kb => kb.1 < pa || pa + size ≤ kb.1 }

theorem takeFrame_new {s : State} {isl size : Nat} (h : hasFrame s isl size = true) (hpos : 0 < size) :
    ∃ pa t, takeFrame s isl size = some (pa, t) ∧ NewFrame s isl size pa t := by
  obtain ⟨b, hb⟩ := Option.isSome_iff_exists.1 h
  obtain ⟨hdvd, hfit⟩ := findFrame_some hb
  have hmod : (isl * 2 ^ 39 + b) % 2 ^ 39 = b := by omega
  refine ⟨isl * 2 ^ 39 + b, _, ?_, ⟨by omega, by rwa [hmod], by rwa [hmod], rfl⟩⟩
  unfold takeFrame
  rw [hb, hmod]

namespace NewFrame

variable {s t : State} {isl size pa : Nat} (h : NewFrame s isl size pa t)
include h

theorem mem_other {a : Nat} (ha : a < pa ∨ pa + size ≤ a) : memGet t.mem a = memGet s.mem a := by
  rw [h.taken]
  show memGet (s.mem.filter fun kb => kb.1 < pa || pa + size ≤ kb.1) a = _
  rw [memGet_filter_key (fun b => b < pa || pa + size ≤ b), if_pos (by simpa using ha)]

theorem mem_zero {a : Nat} (ha : pa ≤ a) (ha' : a < pa + size) : memGet t.mem a = emptyByte := by
  rw [h.taken]
  show memGet (s.mem.filter fun kb => kb.1 < pa || pa + size ≤ kb.1) a = _
  rw [memGet_filter_key (fun b => b < pa || pa + size ≤ b), if_neg (by simp [ha, ha'])]

theorem isl_same : t.isl isl = { s.isl isl with frames := (pa % 2 ^ 39, size) :: (s.isl isl).frames } := by
  rw [h.taken]
  show (s.updIsl isl fun i => { i with frames := (pa % 2 ^ 39, size) :: i.frames }).isl isl = _
  rw [State.updIsl_same]

theorem teams : t.teams = s.teams := by rw [h.taken]; rfl
theorem now : t.now = s.now := by rw [h.taken]; rfl

theorem calm (hc : s.calm) : t.calm := by
  rw [h.taken]
  exact hc

theorem wf (hw : s.wf) : t.wf := by
  rw [h.taken]
  exact ⟨hw.1, memClear_wf _ hw.2.1, hw.2.2⟩

end NewFrame

end Sys2Proof.Machine
end

