-- ==== Proofs/Faults.lean ====
section
/-! PROOFS. Fault entries answered (R59, R205, R214, R379): an entry that leaves the buffer and the access that is made
again, the demand page mapped, the read-shared page copied, and the replies of the host. -/

namespace Sys2Proof.Machine

/-! ## Page-table entries written -/

theorem memBytes_congr {m m' : List Host.Cell} {a n : Nat} (h : ∀ b, a ≤ b → b < a + n → memGet m' b = memGet m b) :
    memBytes m' a n = memBytes m a n := by
  induction n generalizing a with
  | zero => rfl
  | succ n ih =>
    rw [memBytes, memBytes, h a le_rfl (by omega), ih fun b hb hb' => h b (by omega) (by omega)]

theorem memNat_entry_same (m : List Host.Cell) (a x : Nat) (hx : x < 2 ^ 64) :
    memNat (memPut m a (leBytes 8 x)) a 8 = x := by
  have hbytes := memBytes_memPut_same (leBytes 8 x) m a
  rw [length_leBytes] at hbytes
  rw [memNat, hbytes, leNat_leBytes, Nat.mod_eq_of_lt (by omega)]

theorem memNat_entry_other (m : List Host.Cell) {a b : Nat} (x : Nat) (h : a + 8 ≤ b ∨ b + 8 ≤ a) :
    memNat (memPut m a (leBytes 8 x)) b 8 = memNat m b 8 := by
  unfold memNat
  rw [memBytes_congr fun c hc hc' => memGet_memPut_other _ m a c (by rw [length_leBytes]; omega)]

/-- The entries of a page written, one by one, with one value. -/
def writeEntries (s : State) (as : List Nat) (x : Nat) : State :=
  as.foldl (fun s a => homeWrite s none none none a (leBytes 8 x)) s

theorem writeEntries_atHomes (s : State) (as : List Nat) (x : Nat) : AtHomes s (writeEntries s as x) :=
  .foldl (fun s a => homeWrite_atHomes s none none a _) as s

theorem writeEntries_team {s : State} {as : List Nat} {x u : Nat} {t : Team} (h : s.calm)
    (ht : s.teams.find? u = some t) (ha : t.awake) : (writeEntries s as x).teams.find? u = some t := by
  induction as generalizing s with
  | nil => exact ht
  | cons a as ih => exact ih (homeWrite_calm none none a _ h) (homeWrite_team none none a _ h ht ha)

/-- Every entry written reads as its value: entries are aligned. -/
theorem writeEntries_rd {s : State} {as : List Nat} {x a : Nat} (h : s.calm) (hx : x < 2 ^ 64) (has : ∀ b ∈ as, 8 ∣ b)
    (ha : 8 ∣ a) (hin : a ∈ as ∨ s.rd a 8 = x) : (writeEntries s as x).rd a 8 = x := by
  induction as generalizing s with
  | nil => simpa [writeEntries] using hin
  | cons b as ih =>
    refine ih (homeWrite_calm none none b _ h) (fun c hc => has c (List.mem_cons_of_mem _ hc)) ?_
    by_cases hmem : a ∈ as
    · exact .inl hmem
    · right
      show memNat (homeWrite s none none none b (leBytes 8 x)).mem a 8 = x
      rw [homeWrite_mem none none b _ h]
      by_cases hab : a = b
      · subst hab
        exact memNat_entry_same s.mem a x hx
      · have hb := has b List.mem_cons_self
        rw [memNat_entry_other s.mem x (by omega)]
        exact hin.resolve_left fun hc => (List.mem_cons.1 hc).elim hab hmem

theorem mem_pteGroup {pte level size : Nat} (h : pte % 8 = 0) : pte ∈ pteGroup pte level size := by
  have hn : 0 < 4 ^ (size - 4 * level) := Nat.pow_pos (by decide)
  refine List.mem_map.2 ⟨pte / 8 % 4 ^ (size - 4 * level), List.mem_range.2 (Nat.mod_lt _ hn), ?_⟩
  rw [Nat.div_add_mod']
  omega

theorem dvd_of_mem_pteGroup {pte level size a : Nat} (h : a ∈ pteGroup pte level size) : 8 ∣ a := by
  obtain ⟨i, -, rfl⟩ := List.mem_map.1 h
  exact Dvd.intro _ rfl

/-! ## An entry leaves -/

/-- An island but for its copy and collective engines. -/
def Island.butEngines (i : Island) : Island := { i with copy := [], coll := [] }

theorem replayFault_butEngines (s : State) (isl : Nat) (who : Faulter) (j : Nat) :
    ((replayFault s isl who).isl j).butEngines = (s.isl j).butEngines := by
  have hupd : ∀ f : Island → Island, (∀ x, (f x).butEngines = x.butEngines) →
      ((s.updIsl isl f).isl j).butEngines = (s.isl j).butEngines := by
    intro f hf
    by_cases e : j = isl
    · subst e
      rw [State.updIsl_same, hf]
    · rw [State.updIsl_other _ _ e]
  cases who with
  | team u => rfl
  | copy x => exact hupd _ fun _ => rfl
  | coll x => exact hupd _ fun _ => rfl
  | code => rfl

theorem replayFault_mem (s : State) (isl : Nat) (who : Faulter) : (replayFault s isl who).mem = s.mem := by
  cases who <;> rfl

/-- An entry leaves a buffer for which no access waits. -/
theorem faultLeave_free {s : State} {isl entry : Nat} (h : (s.isl isl).faultWait = []) :
    faultLeave s isl entry = s.updIsl isl fun i => { i with faults := SMap.del i.faults entry } := by
  unfold faultLeave
  dsimp only
  rw [State.updIsl_same]
  dsimp only
  rw [h]

section
variable {s : State} {isl : Nat} (entry : Nat) (f : FaultEntry) (h : (s.isl isl).faultWait = [])
include h

theorem replayEntry_free : replayEntry s isl entry f =
    (replayFault s isl f.who).updIsl isl fun i => { i with faults := SMap.del i.faults entry } := by
  have hwait := congrArg Island.faultWait (replayFault_butEngines s isl f.who isl)
  exact faultLeave_free (hwait.trans h)

theorem replayEntry_faults : SMap.find? ((replayEntry s isl entry f).isl isl).faults entry = none := by
  rw [replayEntry_free entry f h, State.updIsl_same]
  exact SMap.find?_del_same ..

theorem replayEntry_mem : (replayEntry s isl entry f).mem = s.mem := by
  rw [replayEntry_free entry f h]
  exact replayFault_mem s isl f.who

/-- Of its island an entry that leaves changes the buffer and the engine that goes on. -/
theorem replayEntry_isl : ({ ((replayEntry s isl entry f).isl isl).butEngines with faults := [] } : Island) =
    { (s.isl isl).butEngines with faults := [] } := by
  rw [replayEntry_free entry f h, State.updIsl_same]
  have hkeep := replayFault_butEngines s isl f.who isl
  exact congrArg (fun i : Island => { i with faults := [] }) hkeep

theorem replayEntry_frames : ((replayEntry s isl entry f).isl isl).frames = (s.isl isl).frames := by
  have e := congrArg Island.frames (replayEntry_isl entry f h)
  exact e
theorem replayEntry_topo : ((replayEntry s isl entry f).isl isl).topo = (s.isl isl).topo := by
  have e := congrArg Island.topo (replayEntry_isl entry f h)
  exact e
theorem replayEntry_replicas : ((replayEntry s isl entry f).isl isl).replicas = (s.isl isl).replicas := by
  have e := congrArg Island.replicas (replayEntry_isl entry f h)
  exact e

/-- A parked team runs again. -/
theorem replayEntry_replays {f : FaultEntry} {u : Nat} {t : Team} (hwho : f.who = .team u)
    (ht : s.teams.find? u = some t) (hp : t.status = .parked) :
    replays s (replayEntry s isl entry f) isl entry u t := by
  refine ⟨replayEntry_faults entry f h, ?_⟩
  rw [replayEntry_free entry f h, hwho]
  show (s.updTeam u _).teams.find? u = _
  rw [State.updTeam_find, ht]
  simp [hp]

end

/-! ## A demand page -/

theorem pageIsland_here {s : State} {isl n : Nat} (hlive : (s.isl isl).live = true) (hframe : hasFrame s isl n = true) :
    pageIsland s isl n = some isl := by
  unfold pageIsland
  rw [hlive, hframe]
  rfl

/-- The entry of a page in a frame, with the attributes of the entry that asked for it. -/
def demandEntry (isl pa x : Nat) : Nat := isl * 2 ^ 59 + pa % 2 ^ 39 / 2 ^ 11 * 2 ^ 11 + x % 2 ^ 11 / 2 * 2 + 1

theorem demandEntry_eq {isl pa x size : Nat} (h : pageBytes size ∣ pa % 2 ^ 39) :
    demandEntry isl pa x = isl * 2 ^ 59 + pa % 2 ^ 39 + x % 2 ^ 11 / 2 * 2 + 1 := by
  have hpage : 4096 ∣ pa % 2 ^ 39 := (page_dvd_pageBytes size).trans h
  unfold demandEntry
  omega

theorem demandEntry_lt {isl pa x : Nat} (h : isl < 25) : demandEntry isl pa x < 2 ^ 64 := by
  unfold demandEntry
  omega

theorem demandCreate_here {s t : State} {isl pte level size x pa : Nat} (hl : level ≤ 2) (hlo : 4 * level ≤ size)
    (hhi : size ≤ 4 * level + 3) (hlive : (s.isl isl).live = true) (hframe : hasFrame s isl (pageBytes size) = true)
    (htake : takeFrame s isl (pageBytes size) = some (pa, t)) :
    demandCreate s isl pte level size x = some (writeEntries t (pteGroup pte level size) (demandEntry isl pa x)) := by
  unfold demandCreate
  rw [if_neg (not_not.2 ⟨hl, hlo, hhi⟩), pageIsland_here hlive hframe]
  dsimp only
  rw [htake]
  rfl

theorem exec_demandPageFill {s t : State} {isl entry pte level size x u : Nat} {f : FaultEntry}
    (hf : SMap.find? (s.isl isl).faults entry = some f) (hd : f.demand = true) (hc : f.copyWanted = false)
    (hwho : f.who = .team u) (hw : walk s f.tenant f.va = .missing true pte level size x)
    (hheld : (pteGroup pte level size).any (fun a => writeHeld s s.uid a 8) = false)
    (hcreate : demandCreate s isl pte level size x = some t) :
    exec (.demandPageFill isl entry) s = .next (replayEntry t isl entry f) := by
  show happen s _ = _
  rw [hf]
  simp only [Option.bind_some, hd, hc, hw, hheld, hwho, hcreate, Bool.not_true, Bool.or_self, Bool.false_eq_true, if_false]
  rfl

theorem pageBytes_pos (size : Nat) : 0 < pageBytes size := by
  rw [pageBytes_eq]
  exact Nat.pow_pos (by decide)

/-- An aligned page lies in one island's memory. -/
theorem frame_in_island {size frame : Nat} (hs : size ≤ 11) (h : frame % pageBytes size = 0) :
    frame % 2 ^ 39 + pageBytes size ≤ 2 ^ 39 := by
  obtain ⟨q, hq⟩ := pageBytes_dvd hs
  obtain ⟨r, hr⟩ := Nat.dvd_of_mod_eq_zero h
  have hpos := pageBytes_pos size
  have hlt : frame % 2 ^ 39 < 2 ^ 39 := Nat.mod_lt _ (by decide)
  have hmod : frame % 2 ^ 39 = pageBytes size * (r % q) := by
    rw [hr, hq, Nat.mul_mod_mul_left]
  rw [hmod, hq] at hlt ⊢
  have hrq : r % q < q := lt_of_mul_lt_mul_left hlt (Nat.zero_le _)
  calc pageBytes size * (r % q) + pageBytes size = pageBytes size * (r % q + 1) := by ring
    _ ≤ pageBytes size * q := Nat.mul_le_mul_left _ hrq

theorem NewFrame.dvd {s t : State} {isl size pa : Nat} (h : NewFrame s isl (pageBytes size) pa t) (hs : size ≤ 11) :
    pageBytes size ∣ pa := by
  rw [← Nat.div_add_mod pa (2 ^ 39)]
  exact dvd_add (dvd_mul_of_dvd_left (pageBytes_dvd hs) _) h.aligned

theorem demandFill {s : State} {isl entry pte level size x u : Nat} {f : FaultEntry} {t0 : Team}
    (hf : SMap.find? (s.isl isl).faults entry = some f) (hisl : isl < 25) (hwait : (s.isl isl).faultWait = [])
    (hd : f.demand = true) (hc : f.copyWanted = false) (hwho : f.who = .team u) (ht : s.teams.find? u = some t0)
    (hp : t0.status = .parked) (hq : Quiet s) (hw : walk s f.tenant f.va = .missing true pte level size x)
    (hheld : (pteGroup pte level size).any (fun a => writeHeld s s.uid a 8) = false) (h8 : pte % 8 = 0) (hl : level ≤ 2)
    (hlo : 4 * level ≤ size) (hhi : size ≤ 4 * level + 3) (hlive : (s.isl isl).live = true)
    (hframe : hasFrame s isl (pageBytes size) = true) :
    ∃ t pa, exec (.demandPageFill isl entry) s = .next t ∧ replays s t isl entry u t0 ∧ pa % pageBytes size = 0 ∧
      pa / 2 ^ 39 = isl ∧ (pa % 2 ^ 39, pageBytes size) ∈ (t.isl isl).frames ∧
      t.rd pte 8 = isl * 2 ^ 59 + pa % 2 ^ 39 + x % 2 ^ 11 / 2 * 2 + 1 := by
  obtain ⟨pa, s₁, htake, hnew⟩ := takeFrame_new hframe (pageBytes_pos size)
  have hcreate := demandCreate_here (pte := pte) (x := x) hl hlo hhi hlive hframe htake
  have hexec := exec_demandPageFill hf hd hc hwho hw hheld hcreate
  have hcalm := hnew.calm hq.calm
  have hhome := writeEntries_atHomes s₁ (pteGroup pte level size) (demandEntry isl pa x)
  have hwait' : ((writeEntries s₁ (pteGroup pte level size) (demandEntry isl pa x)).isl isl).faultWait = [] := by
    rw [hhome.faultWait, hnew.isl_same, ← hwait]
  have hteam : (writeEntries s₁ (pteGroup pte level size) (demandEntry isl pa x)).teams.find? u = some t0 :=
    writeEntries_team hcalm (by rw [hnew.teams, ht]) (by simp [Team.awake, hp])
  refine ⟨_, pa, hexec, ?_, Nat.mod_eq_zero_of_dvd (hnew.dvd (by omega)), hnew.island, ?_, ?_⟩
  · have hreplays := replayEntry_replays entry hwait' hwho hteam hp
    unfold replays at hreplays ⊢
    rwa [hhome.now, hnew.now] at hreplays
  · rw [replayEntry_frames entry f hwait', hhome.frames, hnew.isl_same]
    exact List.mem_cons_self
  · unfold State.rd
    rw [replayEntry_mem entry f hwait', ← demandEntry_eq hnew.aligned]
    exact writeEntries_rd hcalm (demandEntry_lt hisl) (fun b hb => dvd_of_mem_pteGroup hb) (by omega)
      (.inl (mem_pteGroup h8))

/-! ## A copy of a page -/

theorem topoCopy {s : State} {isl entry : Nat} {f : FaultEntry} {e : TlbEntry}
    (hf : SMap.find? (s.isl isl).faults entry = some f) (hwait : (s.isl isl).faultWait = []) (hc : f.copyWanted = true)
    (hw : walk s f.tenant f.va = .leaf e) (he : e.isl = 32) :
    ∃ t, exec (.readSharedCopy isl entry) s = .next t ∧ SMap.find? (t.isl isl).faults entry = none ∧
      (t.isl isl).topo = true ∧ t.mem = s.mem := by
  have hwait' : ((s.updIsl isl fun i => { i with topo := true }).isl isl).faultWait = [] := by
    rw [State.updIsl_same, ← hwait]
  refine ⟨replayEntry (s.updIsl isl fun i => { i with topo := true }) isl entry f, ?_,
    replayEntry_faults entry f hwait', ?_, replayEntry_mem entry f hwait'⟩
  · show happen s _ = _
    rw [hf]
    simp only [Option.bind_some, hc, hw, he, Bool.not_true, Bool.false_eq_true, if_false, if_true]
    rfl
  · rw [replayEntry_topo entry f hwait', State.updIsl_same]

/-- With no L1 line there is no update-only copy to recall. -/
theorem recallUpdates_quiet {s : State} (isl base n : Nat) (h : ∀ k, (s.core k).l1 = []) :
    recallUpdates s isl base n = s := by
  unfold recallUpdates
  simp [h]

/-- A leaf of the tables names an aligned frame of its island. -/
structure TlbEntry.Framed (e : TlbEntry) : Prop where
  size : e.size ≤ 11
  aligned : e.frame % pageBytes e.size = 0
  island : e.frame / 2 ^ 39 = e.isl

theorem pteAddr_island (x : Nat) : pteAddr x / 2 ^ 39 = natBits x 63 59 := by
  unfold pteAddr natBits
  omega

theorem leafOf_framed {s : State} {tenant va level x : Nat} {e : TlbEntry} (h : leafOf s tenant va level x = .leaf e) :
    e.Framed := by
  unfold leafOf at h
  dsimp only at h
  split at h
  · next hgood =>
    obtain ⟨hl, -, hhi, hmod⟩ := hgood
    split at h
    · cases h
      exact ⟨by dsimp only; omega, hmod, pteAddr_island x⟩
    · cases h
  · cases h

theorem walkFrom_framed {s : State} {tenant va level table : Nat} {e : TlbEntry}
    (h : walkFrom s tenant va level table = .leaf e) : e.Framed := by
  induction level generalizing table with
  | zero =>
    unfold walkFrom at h
    dsimp only at h
    split at h
    · cases h
    · split at h
      · cases h
      · split at h
        · exact leafOf_framed h
        · split at h <;> cases h
  | succ level ih =>
    unfold walkFrom at h
    dsimp only at h
    split at h
    · cases h
    · split at h
      · cases h
      · split at h
        · exact leafOf_framed h
        · split at h
          · cases h
          · exact ih h

/-- The PCP's own pages are the topology table, of no island, and the mirror lines, which are coherent. -/
theorem specialPage_kind {s : State} {tenant va : Nat} {e : TlbEntry} (h : specialPage s tenant va = some e) :
    e.isl = 32 ∨ e.attr = .coherent := by
  unfold specialPage at h
  dsimp only at h
  split at h
  · cases h
    exact .inl rfl
  · split at h
    · cases h
      exact .inr rfl
    · cases h

theorem walk_shared_framed {s : State} {tenant va : Nat} {e : TlbEntry} (h : walk s tenant va = .leaf e)
    (hs : e.attr = .shared) (h32 : e.isl ≠ 32) : e.Framed := by
  unfold walk at h
  split at h
  · cases h
  · split at h
    · next hfrom =>
      cases h
      exact walkFrom_framed hfrom
    · split at h
      · next hspecial =>
        cases h
        rcases specialPage_kind hspecial with hi | ha
        · exact absurd hi h32
        · rw [hs] at ha
          cases ha
      · next hne _ _ => exact (hne e h).elim

/-- The state in which a page has been copied to a frame. -/
def pageCopied (s : State) (isl tenant : Nat) (e : TlbEntry) (base : Nat) : State :=
  (moveCells (fun b => b - e.frame + base) s
      (s.mem.filter fun c => e.frame ≤ c.1 && c.1 < e.frame + pageBytes e.size)).updIsl isl fun i => { i with
    replicas := { tenant := tenant, va := 4096 * e.page, home := e.frame, size := pageBytes e.size, base := base } ::
      i.replicas }

theorem moveCells_isl (g : Nat → Nat) (s : State) (cs : List Host.Cell) (i : Nat) :
    (moveCells g s cs).isl i = s.isl i := by
  unfold moveCells
  induction cs generalizing s with
  | nil => rfl
  | cons c cs ih => exact ih _

theorem exec_readSharedCopy {s s₁ : State} {isl entry base : Nat} {f : FaultEntry} {e : TlbEntry}
    (hf : SMap.find? (s.isl isl).faults entry = some f) (hc : f.copyWanted = true) (hq : Quiet s)
    (hw : walk s f.tenant f.va = .leaf e) (hs : e.attr = .shared) (hne : e.isl ≠ isl) (h32 : e.isl ≠ 32)
    (htake : takeFrame s isl (pageBytes e.size) = some (base, s₁)) :
    exec (.readSharedCopy isl entry) s = .next (replayEntry (pageCopied s₁ isl f.tenant e base) isl entry f) := by
  show happen s _ = _
  rw [hf]
  simp only [Option.bind_some, hc, hw, h32, hs, hne, recallUpdates_quiet _ _ _ hq.1, htake, Option.map_some,
    Bool.not_true, Bool.false_eq_true, if_false, ne_eq, not_true_eq_false, or_self, List.foldl_map]
  rfl

theorem readShared {s : State} {isl entry : Nat} {f : FaultEntry} {e : TlbEntry}
    (hf : SMap.find? (s.isl isl).faults entry = some f) (hwait : (s.isl isl).faultWait = []) (hc : f.copyWanted = true)
    (hwf : s.wf) (hq : Quiet s) (hw : walk s f.tenant f.va = .leaf e) (hs : e.attr = .shared) (hne : e.isl ≠ isl)
    (h32 : e.isl ≠ 32) (hframe : hasFrame s isl (pageBytes e.size) = true) :
    ∃ t base, exec (.readSharedCopy isl entry) s = .next t ∧ SMap.find? (t.isl isl).faults entry = none ∧
      ({ tenant := f.tenant, va := 4096 * e.page, home := e.frame, size := pageBytes e.size, base := base } : Replica) ∈
        (t.isl isl).replicas ∧
      ∀ a, a < pageBytes e.size → memGet t.mem (base + a) = memGet s.mem (e.frame + a) := by
  obtain ⟨base, s₁, htake, hnew⟩ := takeFrame_new hframe (pageBytes_pos e.size)
  obtain ⟨hsize, hal, hisl⟩ := walk_shared_framed hw hs h32
  have hexec := exec_readSharedCopy hf hc hq hw hs hne h32 htake
  have hwait' : ((pageCopied s₁ isl f.tenant e base).isl isl).faultWait = [] := by
    unfold pageCopied
    rw [State.updIsl_same, moveCells_isl, hnew.isl_same, ← hwait]
  refine ⟨_, base, hexec, replayEntry_faults entry f hwait', ?_, fun a ha => ?_⟩
  · rw [replayEntry_replicas entry f hwait']
    unfold pageCopied
    rw [State.updIsl_same]
    exact List.mem_cons_self
  · have hfar : e.frame + a < base ∨ base + pageBytes e.size ≤ e.frame + a := by
      have hin := frame_in_island hsize hal
      have hbase := hnew.island
      have hfit := hnew.fits
      omega
    have hplace : e.frame + a - e.frame + base = base + a := by omega
    have hmoved := moveCells_area (g := fun b => b - e.frame + base) (t := s₁) (lo := e.frame) (n := pageBytes e.size)
      (a := e.frame + a) (hnew.wf hwf) (by omega) (by omega) (fun b hb _ he => by omega)
      (by rw [hplace]; exact hnew.mem_zero (by omega) (by omega))
    rw [hplace, hnew.mem_other hfar] at hmoved
    rw [replayEntry_mem entry f hwait']
    exact hmoved

/-! ## Replies of the host -/

/-- What a reply notes beside its effect. -/
def replyNoted (s : State) (x : DWord) (isl : Nat) : State :=
  s.updHost fun h => { h with replyFail := decide (natBits x.toNat 32 32 = 1), replyIsl := isl }

theorem exec_faultreply {s : State} {x : DWord} {isl entry : Nat} {f : FaultEntry} (hopen : hostOpen s false = true)
    (hisl : natBits x.toNat 20 16 = isl) (hentry : natBits x.toNat 9 0 = entry)
    (hf : SMap.find? (s.isl isl).faults entry = some f) : exec (.faultreply x) s = .next (
      if f.demand then replyNoted s x isl
      else if decide (natBits x.toNat 32 32 = 1) then failEntry (replyNoted s x isl) isl entry f
      else replayEntry (replyNoted s x isl) isl entry f) := by
  have hf' : SMap.find? ((replyNoted s x isl).isl isl).faults entry = some f := hf
  show hostTakes s false (some (reply (replyNoted s x (natBits x.toNat 20 16)) (natBits x.toNat 20 16)
    (natBits x.toNat 9 0) (decide (natBits x.toNat 32 32 = 1)))) = _
  rw [hostTakes_open hopen, hisl, hentry]
  unfold reply
  rw [hf']
  rfl

theorem faultReply {s : State} {x : DWord} {isl entry : Nat} {f : FaultEntry}
    (hf : SMap.find? (s.isl isl).faults entry = some f) (hwait : (s.isl isl).faultWait = [])
    (hopen : hostOpen s false = true) (hisl : natBits x.toNat 20 16 = isl) (hentry : natBits x.toNat 9 0 = entry) :
    (∀ u t0, natBits x.toNat 32 32 = 0 → f.demand = false → f.who = .team u → s.teams.find? u = some t0 →
      t0.status = .parked → ∃ t, exec (.faultreply x) s = .next t ∧ replays s t isl entry u t0 ∧
        t.host = (replyNoted s x isl).host ∧ SameBytes s t) ∧
    (∀ u, natBits x.toNat 32 32 = 1 → f.demand = false → f.who = .team u → exec (.faultreply x) s = .next
      (raise ((faultLeave (replyNoted s x isl) isl entry).updTeam u fun t => { t with status := .run }) u .notmapped f.lanes
        f.va 0)) ∧
    (f.demand = true → exec (.faultreply x) s = .next (replyNoted s x isl)) := by
  have hexec := exec_faultreply hopen hisl hentry hf
  have hwait' : ((replyNoted s x isl).isl isl).faultWait = [] := hwait
  refine ⟨fun u t0 hfail hd hwho ht hp => ?_, fun u hfail hd hwho => ?_, fun hd => ?_⟩
  · refine ⟨replayEntry (replyNoted s x isl) isl entry f, ?_, replayEntry_replays entry hwait' hwho ht hp, ?_, fun a => ?_⟩
    · simpa [hd, hfail] using hexec
    · rw [replayEntry_free entry f hwait', hwho]
      rfl
    · rw [replayEntry_free entry f hwait', hwho]
      exact ⟨rfl, rfl⟩
  · rw [hexec, hd, hfail]
    unfold failEntry
    rw [hwho]
    rfl
  · rw [hexec, hd]
    rfl

theorem faultsAnswered : faultsRule := by
  intro s isl entry f hf hisl hwait
  refine ⟨?_, ?_, ?_, ?_⟩
  · intro pte level size x u t0 hd hc hwho ht hp hq hw hheld h8 hl hlo hhi hlive hframe
    exact demandFill hf hisl hwait hd hc hwho ht hp hq hw hheld h8 hl hlo hhi hlive hframe
  · exact fun e hc hw he => topoCopy hf hwait hc hw he
  · exact fun e hc hwf hq hw hs hne h32 hframe => readShared hf hwait hc hwf hq hw hs hne h32 hframe
  · exact fun x hopen hi he => faultReply hf hwait hopen hi he

end Sys2Proof.Machine
end

