-- ==== Proofs/Translation.lean ====
section
/-! PROOFS. PTROOT and TLBINV (R210, R212): an invalidation takes the entries it covers from every TLB, and the replicas that
leave with it take none back. -/

namespace Sys2Proof.Machine

theorem SMap.mem_mapVals {α : Type} {m : SMap α} {f : Nat → α → α} {x : Nat × α} (h : x ∈ m.mapVals f) :
    ∃ v, (x.1, v) ∈ m ∧ x.2 = f x.1 v := by
  obtain ⟨y, hy, rfl⟩ := List.mem_map.1 h
  exact ⟨y.2, hy, rfl⟩

theorem SMap.mem_set {α : Type} [DecidableEq α] {d : α} {m : SMap α} {k : Nat} {v : α} {x : Nat × α}
    (h : x ∈ SMap.set d m k v) : x = (k, v) ∨ x ∈ m := by
  unfold SMap.set at h
  split at h
  · exact .inr (SMap.mem_del h)
  · exact SMap.mem_put h

/-- Every entry of every TLB satisfies a property. -/
structure TlbsAll (p : TlbEntry → Prop) (s : State) : Prop where
  cores : ∀ kc ∈ s.cores, ∀ e ∈ kc.2.tlb, p e
  isls : ∀ ki ∈ s.isls, ∀ e ∈ ki.2.tlb, p e

namespace TlbsAll

variable {p : TlbEntry → Prop} {s : State}

/-- An island but for its TLB changes. -/
theorem updIsl (h : TlbsAll p s) (i : Nat) {f : Island → Island} (hf : ∀ x, (f x).tlb = x.tlb) :
    TlbsAll p (s.updIsl i f) := by
  refine ⟨h.cores, fun ki hki e he => ?_⟩
  rcases SMap.mem_set hki with rfl | hold
  · have hisl := SMap.get_all (P := fun x : Island => ∀ e ∈ x.tlb, p e) (d := {}) (fun _ he => absurd he List.not_mem_nil)
      s.isls h.isls i
    rw [hf] at he
    exact hisl e he
  · exact h.isls ki hold e he

theorem foldl {α : Type} {f : State → α → State} (hf : ∀ s x, TlbsAll p s → TlbsAll p (f s x)) (xs : List α)
    (h : TlbsAll p s) : TlbsAll p (xs.foldl f s) := by
  induction xs generalizing s with
  | nil => exact h
  | cons x xs ih => exact ih (hf s x h)

theorem forgetRange (h : TlbsAll p s) (pa size : Nat) : TlbsAll p (Machine.forgetRange s pa size) := by
  have hisls := h.updIsl (pa / 2 ^ 39) (f := fun i => { i with
    l2 := (i.l2.map fun kl => (kl.1, kl.2.filter fun l => l.line * 128 < pa || pa + size ≤ l.line * 128)).filter
      fun kl => !kl.2.isEmpty }) fun _ => rfl
  refine ⟨fun kc hkc e he => ?_, hisls.isls⟩
  unfold Machine.forgetRange at hkc
  dsimp only at hkc
  obtain ⟨c, hc, hval⟩ := SMap.mem_mapVals hkc
  rw [hval] at he
  split at he <;> exact h.cores _ hc e he

theorem dropFrame (h : TlbsAll p s) (pa : Nat) : TlbsAll p (Machine.dropFrame s pa) :=
  (h.forgetRange pa _).updIsl _ (f := fun i => { i with frames := i.frames.filter fun u => u.1 ≠ pa % 2 ^ 39 })
    fun _ => rfl

theorem dropReplicas (h : TlbsAll p s) (q : Replica → Bool) : TlbsAll p (Machine.dropReplicas s q) := by
  refine h.foldl (fun s i h => ?_) _
  have hops : TlbsAll p { s with ops := s.ops.mapVals fun _ o =>
      if o.kind.space = .global then
        { o with accs := o.accs.map fun a =>
            { a with addr := ((s.isl i).replicas.filter q).foldl (fun pa r => r.atHome pa) a.addr } }
      else o } := ⟨h.cores, h.isls⟩
  exact (hops.foldl (fun s r h => h.dropFrame r.base) _).updIsl i fun _ => rfl

end TlbsAll

theorem tlbDrop_all (s : State) (q : TlbEntry → Bool) : TlbsAll (fun e => q e = false) (tlbDrop s q) := by
  unfold tlbDrop
  refine ⟨fun kc hkc e he => ?_, fun ki hki e he => ?_⟩
  · dsimp only at hkc
    obtain ⟨c, -, hval⟩ := SMap.mem_mapVals hkc
    rw [hval] at he
    simpa using (List.mem_filter.1 he).2
  · dsimp only at hki
    obtain ⟨i, -, hval⟩ := SMap.mem_mapVals hki
    rw [hval] at he
    simpa using (List.mem_filter.1 he).2

/-- A TLB entry that an invalidation of a range does not cover. -/
def TlbEntry.clear (tenant va n : Nat) (e : TlbEntry) : Prop :=
  e.tenant = tenant → 4096 * e.page + pageBytes e.size ≤ va ∨ va + n ≤ 4096 * e.page

theorem invalidate_clear (s : State) (tenant va n : Nat) : TlbsAll (TlbEntry.clear tenant va n) (invalidate s tenant va n) := by
  have hdrop : TlbsAll (TlbEntry.clear tenant va n) (tlbDrop s fun e =>
      e.tenant = tenant && (4096 * e.page < va + n && va < 4096 * e.page + pageBytes e.size)) := by
    have hall := tlbDrop_all s fun e =>
      e.tenant = tenant && (4096 * e.page < va + n && va < 4096 * e.page + pageBytes e.size)
    have himp : ∀ e : TlbEntry, (decide (e.tenant = tenant) &&
        (decide (4096 * e.page < va + n) && decide (va < 4096 * e.page + pageBytes e.size))) = false →
        TlbEntry.clear tenant va n e := by
      intro e he ht
      simp only [ht, decide_true, Bool.true_and, Bool.and_eq_false_iff, decide_eq_false_iff_not] at he
      omega
    exact ⟨fun kc hkc e he => himp e (hall.cores kc hkc e he), fun ki hki e he => himp e (hall.isls ki hki e he)⟩
  exact hdrop.dropReplicas _

theorem exec_ptrootWrite {s : State} {n : Nat} {x : DWord} (hopen : hostOpen s false = true) :
    exec (.ptrootWrite n x) s = .next (if (s.tenant n).enable then s
      else s.updTenant n fun y => { y with ptroot := natBits x.toNat 43 7 * 2 ^ 7 }) := by
  show hostTakes s false _ = _
  rw [hostTakes_open hopen]
  split <;> rfl

theorem exec_tlbinvGo {s : State} {x : DWord} (hopen : hostOpen s false = true) (hgo : s.host.tlbGo = false) :
    exec (.tlbinvGo x) s = .next (s.updHost fun h =>
      { h with tlbAll := decide (natBits x.toNat 1 1 = 1), tlbGo := decide (natBits x.toNat 0 0 = 1), tlbFrom := s.uid }) := by
  show hostTakes s false _ = _
  rw [hostTakes_open hopen, hgo]
  rfl

theorem translation : translationRule := by
  intro s x
  refine ⟨fun n hopen he => ?_, fun n hopen he => ?_, exec_tlbinvGo, fun hgo hr => ?_, fun tenant va n hgo hr hu => ?_⟩
  · rw [exec_ptrootWrite hopen, he]
    rfl
  · rw [exec_ptrootWrite hopen, he]
    rfl
  · show happen s _ = _
    rw [hgo, hr]
    rfl
  · have hclear := invalidate_clear s tenant va n
    refine ⟨(invalidate s tenant va n).updHost fun h => { h with tlbGo := false }, ?_, rfl, hclear.cores, hclear.isls⟩
    show happen s _ = _
    rw [hgo, hr]
    simp only [Option.map_some, Option.getD_some, hu]
    rfl

end Sys2Proof.Machine
end

