-- ==== Proofs/Migration.lean ====
section
/-! PROOFS. Migration (R60, R215, R216): the copy that begins, the bytes that move, and the accesses in flight that go on at
the new home. -/

namespace Sys2Proof.Machine

theorem SMap.find?_filter_rising {α : Type} {lo k : Nat} {m : SMap α} (p : Nat × α → Bool)
    (w : SMap.risingFrom lo m = true) : SMap.find? (m.filter p) k = (SMap.find? m k).filter fun v => p (k, v) := by
  induction m generalizing lo with
  | nil => rfl
  | cons c m ih =>
    obtain ⟨a, v⟩ := c
    simp only [SMap.risingFrom, Bool.and_eq_true, decide_eq_true_eq] at w
    by_cases hk : k = a
    · subst hk
      have hnone := ih w.2
      rw [SMap.find?_none_of_rising w.2 (Nat.lt_succ_self k)] at hnone
      by_cases hp : p (k, v) = true
      · simp [List.filter_cons_of_pos hp, SMap.find?, Option.filter_some, hp]
      · rw [List.filter_cons_of_neg hp, hnone]
        simp [SMap.find?, Option.filter_some, hp]
    · by_cases hp : p (a, v) = true
      · simp only [List.filter_cons_of_pos hp, SMap.find?, if_neg hk]
        exact ih w.2
      · simp only [List.filter_cons_of_neg hp, SMap.find?, if_neg hk]
        exact ih w.2

theorem SMap.mapVals_self {α : Type} {m : SMap α} {f : Nat → α → α} (h : ∀ k v, f k v = v) : m.mapVals f = m := by
  unfold SMap.mapVals
  conv_rhs => rw [← List.map_id m]
  exact List.map_congr_left fun x _ => Prod.ext rfl (h x.1 x.2)

/-! ## The copy begins -/

/-- With no L1 line there is none of a page to recall. -/
theorem recallPage_quiet {s : State} (isl base n : Nat) (h : ∀ k, (s.core k).l1 = []) : recallPage s isl base n = s := by
  unfold recallPage
  refine List.foldl_fixed' (fun c => ?_) _
  simp [Core.l1Lines, h]

theorem migrationBegins {s : State} {tenant va isl : Nat} {e : TlbEntry} (hw : walk s tenant va = .leaf e)
    (h32 : e.isl < 32) (hne : e.isl ≠ isl) (hq : Quiet s) (hsize : pageBytes e.size ≤ 64 * 2 ^ 20)
    (hlive : (s.isl isl).live = true) (hdue : migrates (pageTouches s e isl (s.now / 200000)) = true)
    (hpin : pagePinned s tenant e = false) (hlock : lockedBy s e.frame = none)
    (hframe : hasFrame s isl (pageBytes e.size) = true) :
    ∃ t base, exec (.migrationWindow tenant va isl) s = .next t ∧ t.pcp.migrations.find? s.uid = some
        { tenant := tenant, va := 4096 * e.page, size := pageBytes e.size, src := e.frame, dst := base } ∧
      base / 2 ^ 39 = isl ∧ ∀ a, a < base ∨ base + pageBytes e.size ≤ a → memGet t.mem a = memGet s.mem a := by
  obtain ⟨base, t, htake, hnew⟩ := takeFrame_new hframe (pageBytes_pos e.size)
  have huid : t.uid = s.uid := by rw [hnew.taken]; rfl
  let m : Migration := { tenant := tenant, va := 4096 * e.page, size := pageBytes e.size, src := e.frame, dst := base }
  refine ⟨{ t with pcp := { t.pcp with migrations := t.pcp.migrations.put t.uid m }, uid := t.uid + 1 }, base, ?_, ?_,
    hnew.island, fun a ha => hnew.mem_other ha⟩
  · show happen s _ = _
    rw [hw]
    have hsize' : pageBytes e.size ≤ 67108864 := hsize
    have hclear : ¬(32 ≤ e.isl ∨ e.isl = isl ∨ 64 * 2 ^ 20 < pageBytes e.size ∨ (!(s.isl isl).live) = true ∨
        (!(migrates (pageTouches s e isl (s.now / 200000)) || (decide (s.now / 200000 ≠ 0) &&
          migrates (pageTouches s e isl (s.now / 200000 - 1))))) = true ∨ pagePinned s tenant e = true ∨
        (lockedBy s e.frame).isSome = true) := by
      simp [h32, hne, hsize', hlive, hdue, hpin, hlock]
    dsimp only
    rw [if_neg hclear, recallPage_quiet _ _ _ hq.1, htake]
    rfl
  · rw [← huid]
    exact SMap.find?_put_same ..

/-! ## The bytes -/

theorem moveBytes_get {s : State} {m : Migration} {a : Nat} (hwf : s.wf)
    (h0 : memGet s.mem (m.dst + a) = 0) (ha : a < m.size) :
    memGet (moveBytes s m).mem (m.dst + a) = memGet s.mem (m.src + a) := by
  have hplace : ∀ b, m.src ≤ b → b < m.src + m.size → m.move b = m.dst + (b - m.src) := fun b hb hb' => by
    simp [Migration.move, hb, hb']
  have hdst : m.move (m.src + a) = m.dst + a := by
    rw [hplace _ (by omega) (by omega), Nat.add_sub_cancel_left]
  have hempty : memGet (s.mem.filter fun c => !(m.src ≤ c.1 && c.1 < m.src + m.size)) (m.dst + a) = emptyByte := by
    rw [memGet_filter_key (fun b => !(m.src ≤ b && b < m.src + m.size)), h0]
    exact ite_self _
  have hmoved := moveCells_area (g := m.move) (lo := m.src) (n := m.size) (a := m.src + a)
    (t := { s with mem := s.mem.filter fun c => !(m.src ≤ c.1 && c.1 < m.src + m.size) }) hwf (by omega) (by omega)
    (fun b hb hb' he => by rw [hplace b hb hb', hdst] at he; omega) (by rw [hdst]; exact hempty)
  rw [hdst] at hmoved
  exact hmoved

/-! ## What moves with a page -/

/-- Two states of the same accesses in flight and the same PCP, where no replica stands. -/
structure SameFlight (s t : State) : Prop where
  ops : t.ops = s.ops
  pkts : t.pkts = s.pkts
  pcp : t.pcp = s.pcp
  replicas : (∀ i, (s.isl i).replicas = []) → ∀ i, (t.isl i).replicas = []

namespace SameFlight

variable {s t u : State}

theorem trans (h : SameFlight s t) (h' : SameFlight t u) : SameFlight s u :=
  ⟨h'.ops.trans h.ops, h'.pkts.trans h.pkts, h'.pcp.trans h.pcp, fun hr => h'.replicas (h.replicas hr)⟩

theorem of_atHomes (h : AtHomes s t) : SameFlight s t :=
  ⟨h.ops, h.pkts, h.pcp, fun hr i => (h.replicas i).trans (hr i)⟩

end SameFlight

theorem moveCells_atHomes (g : Nat → Nat) (s : State) (cs : List Host.Cell) : AtHomes s (moveCells g s cs) :=
  .foldl (fun s _ => wr_atHomes s _ _) cs s

theorem moveBytes_sameFlight (s : State) (m : Migration) : SameFlight s (moveBytes s m) := by
  have hclear : SameFlight s { s with mem := s.mem.filter fun c => !(m.src ≤ c.1 && c.1 < m.src + m.size) } :=
    ⟨rfl, rfl, rfl, id⟩
  exact hclear.trans (.of_atHomes (moveCells_atHomes m.move _ _))

theorem moveEntry_sameFlight (s : State) (m : Migration) : SameFlight s (moveEntry s m) :=
  .of_atHomes (writeEntries_atHomes s _ _)

theorem tlbDrop_sameFlight (s : State) (p : TlbEntry → Bool) : SameFlight s (tlbDrop s p) := by
  refine ⟨rfl, rfl, rfl, fun hr i => ?_⟩
  have hi := hr i
  show (SMap.get {} (s.isls.mapVals fun _ i => { i with tlb := i.tlb.filter fun e => !p e }) i).replicas = []
  unfold State.isl at hi
  unfold SMap.get at hi ⊢
  rw [SMap.find?_mapVals]
  cases hf : SMap.find? s.isls i with
  | none => rfl
  | some x =>
    rw [hf] at hi
    exact hi

/-- Where no replica stands, none leaves. -/
theorem dropReplicas_none {s : State} (q : Replica → Bool) (h : ∀ i, (s.isl i).replicas = []) :
    SameFlight s (dropReplicas s q) := by
  unfold dropReplicas
  generalize List.range s.panel.nIsl = is
  induction is generalizing s with
  | nil => exact ⟨rfl, rfl, rfl, id⟩
  | cons i is ih =>
    rw [List.foldl_cons]
    dsimp only
    rw [h i, List.filter_nil, List.foldl_nil]
    have hops : (s.ops.mapVals fun _ o => if o.kind.space = .global then
        { o with accs := o.accs.map fun a => { a with addr := ([] : List Replica).foldl (fun pa r => r.atHome pa) a.addr } }
        else o) = s.ops := by
      refine SMap.mapVals_self fun k o => ?_
      simp
    rw [hops]
    have hstep : SameFlight s (s.updIsl i fun x => { x with replicas := x.replicas.filter fun r => !q r }) := by
      refine ⟨rfl, rfl, rfl, fun hr j => ?_⟩
      by_cases e : j = i
      · subst e
        rw [State.updIsl_same, hr]
        rfl
      · rw [State.updIsl_other _ _ e, hr]
    exact hstep.trans (ih (hstep.replicas h))

/-- The page is at its new home, and so are the accesses of it. -/
def pageMoved (s : State) (m : Migration) : State :=
  moveAccesses (invalidate (moveEntry (moveBytes s m) m) m.tenant m.va m.size) m

theorem invalidate_sameFlight {s : State} (tenant va n : Nat) (h : ∀ i, (s.isl i).replicas = []) :
    SameFlight s (invalidate s tenant va n) := by
  have hdrop := tlbDrop_sameFlight s fun e =>
    e.tenant = tenant && (4096 * e.page < va + n && va < 4096 * e.page + pageBytes e.size)
  exact hdrop.trans (dropReplicas_none _ (hdrop.replicas h))

theorem beforeAccesses_sameFlight {s : State} (m : Migration) (h : ∀ i, (s.isl i).replicas = []) :
    SameFlight s (invalidate (moveEntry (moveBytes s m) m) m.tenant m.va m.size) := by
  have hentry := (moveBytes_sameFlight s m).trans (moveEntry_sameFlight _ m)
  exact hentry.trans (invalidate_sameFlight _ _ _ (hentry.replicas h))

/-- An access in flight of a page that has moved. -/
def Op.moved (m : Migration) (o : Op) : Op := { o with
  accs := o.accs.map fun a => { a with addr := m.move a.addr },
  ctrs := o.ctrs.map fun a => { a with addr := m.move a.addr },
  adds := o.adds.map fun a => { a with pa := m.move a.pa } }

theorem pageMoved_op {s : State} {m : Migration} {i : Nat} {o : Op} (h : ∀ i, (s.isl i).replicas = [])
    (ho : s.ops.find? i = some o) (hg : o.kind.space = .global) : (pageMoved s m).ops.find? i = some (o.moved m) := by
  have hops := (beforeAccesses_sameFlight m h).ops
  unfold pageMoved moveAccesses
  dsimp only [State.updIsl]
  rw [SMap.find?_mapVals, hops, ho, Option.map_some, if_pos (decide_eq_true hg)]
  rfl

theorem pageMoved_pkt {s : State} {m : Migration} {i : Nat} {p : Packet} (h : ∀ i, (s.isl i).replicas = [])
    (hp : s.pkts.find? i = some p) : (pageMoved s m).pkts.find? i = some { p with pa := m.move p.pa } := by
  have hpkts := (beforeAccesses_sameFlight m h).pkts
  unfold pageMoved moveAccesses
  dsimp only [State.updIsl]
  rw [SMap.find?_mapVals, hpkts, hp]
  rfl

theorem pageMoved_pcp {s : State} (m : Migration) (h : ∀ i, (s.isl i).replicas = []) : (pageMoved s m).pcp = s.pcp :=
  (beforeAccesses_sameFlight m h).pcp

/-! ## Locks cleared -/

/-- A migration of rising numbers that is done stays done, or ends. -/
theorem clearLocks_done {s : State} {id : Nat} {m : Migration} (w : SMap.risingFrom 0 s.pcp.migrations = true)
    (hm : s.pcp.migrations.find? id = some m) (hd : m.done = true) :
    ∀ m', (clearLocks s).pcp.migrations.find? id = some m' → m'.done = true := by
  intro m' hm'
  have hfind := SMap.find?_filter_rising (k := id) (fun x => !(x.2.done && !(s.pcp.holds.filter fun j =>
    (s.ops.find? j).isSome || (s.pkts.find? j).isSome || s.held.any fun h => h.no = j).any fun j =>
      (heldBytes s j).any fun w => x.2.dst ≤ w.1 && w.1 < x.2.dst + x.2.size)) w
  have hsome := hfind.symm.trans hm'
  rw [hm, Option.filter_eq_some_iff] at hsome
  cases hsome.1
  exact hd

/-- With nothing held, a migration that is done ends. -/
theorem clearLocks_ends {s : State} {id : Nat} {m : Migration} (w : SMap.risingFrom 0 s.pcp.migrations = true)
    (hm : s.pcp.migrations.find? id = some m) (hd : m.done = true) (hh : s.pcp.holds = []) :
    (clearLocks s).pcp.migrations.find? id = none := by
  have hfind := SMap.find?_filter_rising (k := id) (fun x => !(x.2.done && !(s.pcp.holds.filter fun j =>
    (s.ops.find? j).isSome || (s.pkts.find? j).isSome || s.held.any fun h => h.no = j).any fun j =>
      (heldBytes s j).any fun w => x.2.dst ≤ w.1 && w.1 < x.2.dst + x.2.size)) w
  refine Eq.trans hfind ?_
  rw [hm, hh]
  simp [hd]

/-! ## The migration ends -/

theorem clearLocks_keeps (s : State) :
    (clearLocks s).ops = s.ops ∧ (clearLocks s).pkts = s.pkts ∧ (clearLocks s).mem = s.mem := ⟨rfl, rfl, rfl⟩

theorem forgetRange_keeps (s : State) (pa n : Nat) :
    (forgetRange s pa n).ops = s.ops ∧ (forgetRange s pa n).pkts = s.pkts ∧ (forgetRange s pa n).pcp = s.pcp :=
  ⟨rfl, rfl, rfl⟩

theorem dropFrame_keeps (s : State) (pa : Nat) :
    (dropFrame s pa).ops = s.ops ∧ (dropFrame s pa).pkts = s.pkts ∧ (dropFrame s pa).mem = s.mem ∧
      (dropFrame s pa).pcp = s.pcp := ⟨rfl, rfl, rfl, rfl⟩

theorem giveUp_keeps (s : State) (id : Nat) (m : Migration) :
    (giveUp s id m).ops = s.ops ∧ (giveUp s id m).pkts = s.pkts ∧ (giveUp s id m).mem = s.mem := by
  obtain ⟨hops, hpkts, hmem, -⟩ := dropFrame_keeps s m.dst
  unfold giveUp
  dsimp only
  obtain ⟨hops', hpkts', hmem'⟩ := clearLocks_keeps ((dropFrame s m.dst).updPcp fun p =>
    { p with migrations := p.migrations.put id { m with dst := m.src, done := true } })
  exact ⟨hops'.trans hops, hpkts'.trans hpkts, hmem'.trans hmem⟩

theorem giveUp_done {s : State} {id : Nat} {m : Migration} (w : SMap.risingFrom 0 s.pcp.migrations = true) :
    ∀ m', (giveUp s id m).pcp.migrations.find? id = some m' → m'.done = true :=
  clearLocks_done (m := { m with dst := m.src, done := true }) (SMap.risingFrom_put _ (Nat.zero_le id) w)
    (SMap.find?_put_same ..) rfl

/-- The PCP notes that a migration is done. -/
def noteDone (s : State) (id : Nat) (m : Migration) : State := s.updPcp fun p => { p with
  migrations := p.migrations.put id { m with done := true }
  touches := p.touches.filter fun kt => !(m.src / 4096 ≤ kt.1 && kt.1 < (m.src + m.size) / 4096)
  reached := p.reached.map fun r => (r.1, m.move (4096 * r.2) / 4096) }

/-- The page has moved, and its migration is noted as done. -/
def migrationDone (s : State) (id : Nat) (m : Migration) : State :=
  dropFrame (forgetRange (noteDone (pageMoved s m) id m) m.src m.size) m.src

/-- The old frame goes free: the accesses in flight and the PCP's records stay as they are. -/
theorem migrationDone_keeps (s : State) (id : Nat) (m : Migration) :
    (migrationDone s id m).ops = (pageMoved s m).ops ∧ (migrationDone s id m).pkts = (pageMoved s m).pkts ∧
      (migrationDone s id m).pcp = (noteDone (pageMoved s m) id m).pcp := by
  obtain ⟨hops, hpkts, hpcp⟩ := forgetRange_keeps (noteDone (pageMoved s m) id m) m.src m.size
  obtain ⟨hops', hpkts', -, hpcp'⟩ := dropFrame_keeps (forgetRange (noteDone (pageMoved s m) id m) m.src m.size) m.src
  exact ⟨hops'.trans hops, hpkts'.trans hpkts, hpcp'.trans hpcp⟩

section
variable {s : State} {id : Nat} {m : Migration} {e : TlbEntry}

theorem exec_migrationCopyDone_stays (hm : s.pcp.migrations.find? id = some m) (hd : m.done = false)
    (hw : walk s m.tenant m.va = .leaf e) (hpin : pagePinned s m.tenant e = true) :
    exec (.migrationCopyDone id) s = .next (giveUp s id m) := by
  show happen s _ = _
  rw [hm]
  simp only [Option.bind_some, hd, hw, hpin, Bool.false_eq_true, if_false, if_true]
  rfl

/-- Teams of which none has read a line. -/
theorem flatten_map_nil {α : Type} {f : α → List Nat} {xs : List α} (h : ∀ x ∈ xs, f x = []) : (xs.map f).flatten = [] := by
  rw [List.flatten_eq_nil_iff]
  intro l hl
  obtain ⟨x, hx, rfl⟩ := List.mem_map.1 hl
  exact h x hx

theorem exec_migrationCopyDone_moves (hm : s.pcp.migrations.find? id = some m) (hd : m.done = false)
    (hw : walk s m.tenant m.va = .leaf e) (hpin : pagePinned s m.tenant e = false) (hn : s.noTx)
    (hc : (s.isl (m.src / 2 ^ 39)).crumbs = []) (hheld : (m.entries s).1.any (fun a => writeHeld s s.uid a 8) = false) :
    exec (.migrationCopyDone id) s = .next (clearLocks (migrationDone s id m)) := by
  show happen s _ = _
  rw [hm]
  dsimp only [Option.bind_some]
  rw [hc, flatten_map_nil]
  · simp only [hd, hw, hpin, hheld, SMap.keys, List.map_nil, List.nil_append, List.dedup_nil, List.filter_nil,
      List.any_nil, Bool.or_self, Bool.false_eq_true, if_false, List.foldl_nil]
    rfl
  · intro ut hut
    rw [hn ut hut]

end

theorem migrationCompletes {s : State} {id : Nat} {m : Migration} {e : TlbEntry}
    (hm : s.pcp.migrations.find? id = some m) (hd : m.done = false) (hrise : SMap.risingFrom 0 s.pcp.migrations = true)
    (hw : walk s m.tenant m.va = .leaf e) (hpin : pagePinned s m.tenant e = false) (hn : s.noTx)
    (hc : (s.isl (m.src / 2 ^ 39)).crumbs = []) (hr : ∀ i, (s.isl i).replicas = [])
    (hheld : (m.entries s).1.any (fun a => writeHeld s s.uid a 8) = false) :
    ∃ t, exec (.migrationCopyDone id) s = .next t ∧
      (s.pcp.holds = [] → t.pcp.migrations.find? id = none) ∧
      (∀ m', t.pcp.migrations.find? id = some m' → m'.done = true) ∧
      (∀ i o, s.ops.find? i = some o → o.kind.space = .global → t.ops.find? i = some (o.moved m)) ∧
      ∀ i p, s.pkts.find? i = some p → t.pkts.find? i = some { p with pa := m.move p.pa } := by
  obtain ⟨hops, hpkts, hpcp⟩ := migrationDone_keeps s id m
  obtain ⟨hops', hpkts', -⟩ := clearLocks_keeps (migrationDone s id m)
  have hput : (migrationDone s id m).pcp.migrations = s.pcp.migrations.put id { m with done := true } := by
    rw [hpcp, ← pageMoved_pcp m hr]
    rfl
  have hholds : (migrationDone s id m).pcp.holds = s.pcp.holds := by
    rw [hpcp, ← pageMoved_pcp m hr]
    rfl
  have hrising : SMap.risingFrom 0 (migrationDone s id m).pcp.migrations = true := by
    rw [hput]
    exact SMap.risingFrom_put _ (Nat.zero_le id) hrise
  have hfind : (migrationDone s id m).pcp.migrations.find? id = some { m with done := true } := by
    rw [hput]
    exact SMap.find?_put_same ..
  refine ⟨_, exec_migrationCopyDone_moves hm hd hw hpin hn hc hheld, fun hh => ?_, clearLocks_done hrising hfind rfl,
    fun i o ho hg => ?_, fun i p hp => ?_⟩
  · exact clearLocks_ends hrising hfind rfl (by rw [hholds, hh])
  · rw [hops', hops]
    exact pageMoved_op hr ho hg
  · rw [hpkts', hpkts]
    exact pageMoved_pkt hr hp

theorem migration : migrationRule := by
  refine ⟨?_, ?_, ?_⟩
  · intro s tenant va isl e hw h32 hne hq n hsize hlive hdue hpin hlock hframe
    exact migrationBegins hw h32 hne hq hsize hlive hdue hpin hlock hframe
  · exact fun s m hwf _ h0 a ha => moveBytes_get hwf (h0 a ha) ha
  · intro s id m e hm hd hrise hw
    refine ⟨fun hpin => ?_, fun hpin hn hc hr hheld => ?_⟩
    · obtain ⟨hops, hpkts, hmem⟩ := giveUp_keeps s id m
      exact ⟨_, exec_migrationCopyDone_stays hm hd hw hpin, hops, hpkts, hmem, giveUp_done hrise⟩
    · exact migrationCompletes hm hd hrise hw hpin hn hc hr hheld

end Sys2Proof.Machine

open Sys2Proof Sys2Proof.Machine

/-- Settles O49: a walk only moves lines in the caches, so each event meets the page that the tables name. -/
theorem pagesMove : Obligations.PagesMove := ⟨faultsAnswered, translation, migration, hostAccess⟩
end

