-- ==== Proofs/IntResults.lean ====
section
/-! PROOFS. The integer operations of lanes that Laws/Ints.lean leaves out, as operations of bit vectors (Tables 8-8 and 10-2):
saturation, signs, counts of bits, bit fields; and the elements of a register image (R77, R169). -/

namespace Sys2Proof.Machine

/-! ## Elements of an image -/

/-- A field of a number lies below a field that is cut off. -/
theorem elemAt_mod {w i k : Nat} (x : Nat) (h : w * i + w ≤ k) : elemAt w i (x % 2 ^ k) = elemAt w i x := by
  refine Nat.eq_of_testBit_eq fun j => ?_
  simp only [elemAt, Nat.testBit_mod_two_pow, Nat.testBit_div_two_pow]
  by_cases hj : j < w
  · simp [show j + w * i < k by omega]
  · simp [hj]

theorem elemAt_zero {w x : Nat} (h : x < 2 ^ w) : elemAt w 0 x = x := by
  simp [elemAt, Nat.mod_eq_of_lt h]

theorem elemAt_lt (w i x : Nat) : elemAt w i x < 2 ^ w := Nat.mod_lt _ (Nat.two_pow_pos w)

theorem packElems_lt (w : Nat) (f : Nat → Nat) (n : Nat) : packElems w f n < 2 ^ (w * n) := by
  induction n with
  | zero => simp [packElems]
  | succ n ih =>
    have hf := Nat.mod_lt (f n) (Nat.two_pow_pos w)
    calc packElems w f n + f n % 2 ^ w * 2 ^ (w * n)
        < (f n % 2 ^ w + 1) * 2 ^ (w * n) := by rw [Nat.add_one_mul]; omega
      _ ≤ 2 ^ w * 2 ^ (w * n) := Nat.mul_le_mul_right _ hf
      _ = 2 ^ (w * (n + 1)) := by rw [← Nat.pow_add, Nat.mul_succ, Nat.add_comm]

/-- Element i of an image is what was packed there. -/
theorem elemAt_packElems (w : Nat) (f : Nat → Nat) {i n : Nat} (h : i < n) : elemAt w i (packElems w f n) = f i % 2 ^ w := by
  induction n with
  | zero => omega
  | succ n ih =>
    have hlt := packElems_lt w f n
    rcases Nat.lt_succ_iff_lt_or_eq.1 h with hi | rfl
    · have hcut : packElems w f (n + 1) % 2 ^ (w * n) = packElems w f n := by
        rw [packElems, Nat.add_mul_mod_self_right, Nat.mod_eq_of_lt hlt]
      rw [← ih hi, ← elemAt_mod (k := w * n), hcut]
      calc w * i + w = w * (i + 1) := (Nat.mul_succ w i).symm
        _ ≤ w * n := Nat.mul_le_mul_left w hi
    · rw [elemAt, packElems, Nat.add_mul_div_right _ _ (Nat.two_pow_pos _), Nat.div_eq_of_lt hlt, Nat.zero_add, Nat.mod_mod]

namespace Elem

variable (e : Elem) {j : Nat} (hj : j < e.n)
include hj

theorem elemAt_map1 (f : Nat → Nat) (a : Nat) : elemAt e.w j (e.map1 f a) = f (elemAt e.w j a) % 2 ^ e.w :=
  elemAt_packElems e.w _ hj
theorem elemAt_map2 (f : Nat → Nat → Nat) (a b : Nat) :
    elemAt e.w j (e.map2 f a b) = f (elemAt e.w j a) (elemAt e.w j b) % 2 ^ e.w := elemAt_packElems e.w _ hj
theorem elemAt_map3 (f : Nat → Nat → Nat → Nat) (a b c : Nat) :
    elemAt e.w j (e.map3 f a b c) = f (elemAt e.w j a) (elemAt e.w j b) (elemAt e.w j c) % 2 ^ e.w :=
  elemAt_packElems e.w _ hj

end Elem

/-! ## Saturation and sign (R173) -/

theorem ofInt_clampInt (sg : Bool) (w : Nat) (x : Int) : BitVec.ofInt w (clampInt sg w x) = satBits w sg x := by
  cases sg <;> rfl

section
variable {w a b : Nat} (hw : 0 < w) (ha : a < 2 ^ w) (hb : b < 2 ^ w)
include hw ha

section
include hb

theorem iAddSat_eq (sg : Bool) :
    iAddSat sg w a b = (satBits w sg (readInt sg (BitVec.ofNat w a) + readInt sg (BitVec.ofNat w b))).toNat := by
  rw [iAddSat, trunc_eq, ofInt_clampInt, ival_eq sg hw ha, ival_eq sg hw hb]
theorem iSubSat_eq (sg : Bool) :
    iSubSat sg w a b = (satBits w sg (readInt sg (BitVec.ofNat w a) - readInt sg (BitVec.ofNat w b))).toNat := by
  rw [iSubSat, trunc_eq, ofInt_clampInt, ival_eq sg hw ha, ival_eq sg hw hb]

end

theorem ival_true_eq : ival true w a = (BitVec.ofNat w a).toInt := ival_eq true hw ha

theorem iNeg_eq : iNeg w a = (-BitVec.ofNat w a).toNat := by
  rw [iNeg, trunc_eq, ival_true_eq hw ha, BitVec.ofInt_neg, BitVec.ofInt_toInt]
theorem iAbs_eq : iAbs w a = (if (BitVec.ofNat w a).msb then -BitVec.ofNat w a else BitVec.ofNat w a).toNat := by
  rw [iAbs, trunc_eq, ival_true_eq hw ha, BitVec.msb_eq_toInt]
  generalize BitVec.ofNat w a = A
  by_cases h : A.toInt < 0
  · rw [Int.ofNat_natAbs_of_nonpos h.le, BitVec.ofInt_neg, BitVec.ofInt_toInt]
    simp [h]
  · rw [Int.natAbs_of_nonneg (not_lt.1 h), BitVec.ofInt_toInt]
    simp [h]
theorem iNegSat_eq : iNegSat w a = (satBits w true (-(BitVec.ofNat w a).toInt)).toNat := by
  rw [iNegSat, trunc_eq, ofInt_clampInt, ival_true_eq hw ha]
theorem iAbsSat_eq : iAbsSat w a = (satBits w true (BitVec.ofNat w a).toInt.natAbs).toNat := by
  rw [iAbsSat, trunc_eq, ofInt_clampInt, ival_true_eq hw ha]
omit hw in
theorem iNot_eq : iNot w a = (~~~BitVec.ofNat w a).toNat := by
  rw [BitVec.toNat_not, BitVec.toNat_ofNat, Nat.mod_eq_of_lt ha, iNot]

end

/-! ## Counts of bits -/

theorem popcount_eq_countP (n x : Nat) : popcount n x = (List.range n).countP x.testBit := by
  induction n generalizing x with
  | zero => rfl
  | succ n ih =>
    have hdiv : (x / 2).testBit = x.testBit ∘ Nat.succ := by
      funext i
      exact (Nat.testBit_succ x i).symm
    rw [popcount, ih, List.range_succ_eq_map, List.countP_cons, List.countP_map, hdiv, Nat.add_comm, Nat.testBit_zero]
    rcases Nat.mod_two_eq_zero_or_one x with h | h <;> simp [h]

theorem lt_two_pow_of_le {n w : Nat} (h : n ≤ w) : n < 2 ^ w := lt_of_le_of_lt h Nat.lt_two_pow_self

theorem popcount_eq (w a : Nat) : popcount w a = (BitVec.ofNat w ((List.range w).countP (BitVec.ofNat w a).getLsbD)).toNat := by
  have hbit : (List.range w).countP (BitVec.ofNat w a).getLsbD = (List.range w).countP a.testBit := by
    refine List.countP_congr fun i hi => ?_
    rw [BitVec.getLsbD_ofNat, decide_eq_true (List.mem_range.1 hi), Bool.true_and]
  have hle : (List.range w).countP a.testBit ≤ w := List.countP_le_length.trans_eq List.length_range
  rw [hbit, BitVec.toNat_ofNat, Nat.mod_eq_of_lt (lt_two_pow_of_le hle), popcount_eq_countP]

theorem size_eq_log2_succ {n : Nat} (h : n ≠ 0) : n.size = n.log2 + 1 := by
  refine le_antisymm (Nat.size_le.2 ((Nat.log2_lt h).1 n.log2.lt_succ_self)) (Nat.lt_size.2 ?_)
  exact Nat.log2_self_le h

theorem clz_eq {w a : Nat} (ha : a < 2 ^ w) : clz w a = (BitVec.ofNat w (w - (BitVec.ofNat w a).toNat.size)).toNat := by
  rw [BitVec.toNat_ofNat, BitVec.toNat_ofNat, Nat.mod_eq_of_lt ha, Nat.mod_eq_of_lt (lt_two_pow_of_le (Nat.sub_le w _)), clz]
  split
  · next h => simp [h]
  · next h => rw [size_eq_log2_succ h]; omega

/-! ## Bit fields -/

/-- The field that SBFE takes, of the value as an exact integer. -/
theorem extractBits_eq {w : Nat} (sg : Bool) (A : BitVec w) (pos len : Nat) :
    extractBits sg A pos len = BitVec.ofInt w
      (readInt sg ((BitVec.ofInt (w + 256) (readInt sg A)).extractLsb' pos (min len w))) := by
  cases sg with
  | true => rfl
  | false =>
    refine BitVec.eq_of_toNat_eq ?_
    simp only [extractBits, readInt, Bool.false_eq_true, if_false, BitVec.ofInt_natCast, BitVec.ofNat_toNat]

theorem toNat_extractLsb'_ofInt {N pos len : Nat} (z : Int) (h : pos + len ≤ N) :
    ((BitVec.ofInt N z).extractLsb' pos len).toNat = (z / 2 ^ pos % 2 ^ len).toNat := by
  have hN : (2 : Int) ^ N = 2 ^ pos * (2 ^ len * 2 ^ (N - pos - len)) := by
    rw [← pow_add, ← pow_add]
    congr 1
    omega
  have hcut : z % 2 ^ N / 2 ^ pos % 2 ^ len = z / 2 ^ pos % 2 ^ len := by
    rw [Int.emod_def z, hN, mul_assoc, sub_eq_add_neg, ← mul_neg, Int.add_mul_ediv_left _ _ (by positivity), mul_assoc,
      ← mul_neg, Int.add_mul_emod_self_left]
  have hnn : 0 ≤ z % 2 ^ N := Int.emod_nonneg _ (by positivity)
  rw [← hcut, BitVec.extractLsb'_toNat, BitVec.toNat_ofInt, Nat.shiftRight_eq_div_pow]
  obtain ⟨n, hn⟩ := Int.eq_ofNat_of_zero_le hnn
  push_cast
  rw [hn]
  norm_cast

theorem bitExtract_eq {w a : Nat} (sg : Bool) (hw : 0 < w) (ha : a < 2 ^ w) (c : Nat) :
    bitExtract sg w a c = (extractBits sg (BitVec.ofNat w a) (c % 256) (c / 256 % 256)).toNat := by
  have hfit : c % 256 + min (c / 256 % 256) w ≤ w + 256 := by
    have := Nat.mod_lt c (show 0 < 256 by norm_num)
    omega
  rw [extractBits_eq, ← trunc_eq, bitExtract, ← ival_eq sg hw ha]
  dsimp only
  generalize hlen : min (c / 256 % 256) w = len at hfit ⊢
  have hfield := toNat_extractLsb'_ofInt (ival sg w a) hfit
  generalize (BitVec.ofInt (w + 256) (ival sg w a)).extractLsb' (c % 256) len = Y at hfield ⊢
  rw [← hfield]
  split
  · next h0 =>
    subst h0
    simp [BitVec.eq_nil Y, readInt, trunc]
  · next h0 => rw [ival_eq sg (Nat.pos_of_ne_zero h0) Y.isLt, BitVec.ofNat_toNat, BitVec.setWidth_eq]

/-- SBFI, bit by bit. -/
theorem bitInsert_insertBits {w : Nat} {a : Nat} (b c : Nat) :
    InsertBits (BitVec.ofNat w a) (BitVec.ofNat w b) (BitVec.ofNat w (bitInsert w a b c)) (c % 256) (c / 256 % 256) := by
  intro i hi
  simp only [BitVec.getLsbD_ofNat, hi, decide_true, Bool.true_and]
  rw [bitInsert]
  dsimp only
  generalize c % 256 = pos
  generalize min (c / 256 % 256) w = len
  split
  · next h => rw [if_neg (by omega)]
  · next h =>
    have hhi : min (pos + len) w = pos + (min (pos + len) w - pos) := by omega
    generalize hn : min (pos + len) w - pos = n at hhi ⊢
    have hshape : a % 2 ^ pos + b % 2 ^ n * 2 ^ pos + a / 2 ^ min (pos + len) w * 2 ^ min (pos + len) w =
        2 ^ pos * (2 ^ n * (a / 2 ^ (pos + n)) + b % 2 ^ n) + a % 2 ^ pos := by
      rw [hhi, Nat.pow_add]
      ring
    rw [hshape, Nat.testBit_two_pow_mul_add _ (Nat.mod_lt _ (Nat.two_pow_pos _)),
      Nat.testBit_two_pow_mul_add _ (Nat.mod_lt _ (Nat.two_pow_pos _))]
    simp only [Nat.testBit_mod_two_pow, Nat.testBit_div_two_pow]
    by_cases hlo : i < pos
    · rw [if_pos hlo, if_neg (by omega)]
      simp [hlo]
    · by_cases hmid : i - pos < n
      · rw [if_neg hlo, if_pos hmid, if_pos (by omega)]
        simp only [hmid, decide_true, Bool.true_and, show i - pos < w by omega]
      · rw [if_neg hlo, if_neg hmid, if_neg (by omega), show i - pos - n + (pos + n) = i by omega]

/-- SBFI reads the low 16 bits of its count word. -/
theorem bitInsert_mod (w a b c : Nat) : bitInsert w a b (c % 2 ^ 32) = bitInsert w a b c := by
  have hpos : c % 2 ^ 32 % 256 = c % 256 := by omega
  have hlen : c % 2 ^ 32 / 256 % 256 = c / 256 % 256 := by omega
  simp only [bitInsert, hpos, hlen]

end Sys2Proof.Machine
end

