-- ==== Proofs/ScalarWords.lean ====
section
/-! PROOFS. The scalar operations (R81, R142, R143, Table 8-8): a word of a plain type writes the bit vector that its
operation gives. -/

namespace Sys2Proof
open Sys2Proof.Machine

namespace ITy

theorem width_pos (t : ITy) : 0 < t.elem.w := by cases t <;> decide
theorem sgn_eq (t : ITy) : t.elem.sgn = t.signed := by cases t <;> rfl
theorem regs_eq (t : ITy) : t.elem.regs = t.regs := by cases t <;> rfl
/-- The elements of a type fill its registers (R77). -/
theorem bits_eq (t : ITy) : t.elem.w * t.elem.n = 32 * t.elem.regs := by cases t <;> rfl

variable {t : ITy} (ht : t.plain = true)
include ht

theorem plain_n : t.elem.n = 1 := by revert ht; cases t <;> decide
theorem plain_width_eq : t.elem.w = 32 * t.elem.regs := by rw [← t.bits_eq, plain_n ht, Nat.mul_one]
theorem plain_width_ge : 32 ≤ t.elem.w := by revert ht; cases t <;> decide

end ITy

section
variable {t : ITy} (ht : t.plain = true) (imm : BitVec 24)
include ht

/-- An immediate of an arithmetic word, extended as its type says (R81). -/
theorem immArith_eq : immArith t imm =
    (if t.elem.sgn then imm.signExtend t.elem.w else imm.setWidth t.elem.w : BitVec t.elem.w).toNat := by
  have hw := ITy.plain_width_ge ht
  unfold immArith
  dsimp only
  split
  · exact trunc_eq _ _
  · exact (BitVec.toNat_setWidth_of_le (by omega)).symm

/-- An immediate of a logical word, extended with zeros (R81). -/
theorem immLogic_eq : immLogic imm = (imm.setWidth t.elem.w).toNat := by
  have hw := ITy.plain_width_ge ht
  exact (BitVec.toNat_setWidth_of_le (by omega)).symm

theorem immArith_lt : immArith t imm < 2 ^ t.elem.w := immArith_eq ht imm ▸ BitVec.isLt _
theorem immLogic_lt : immLogic imm < 2 ^ t.elem.w := immLogic_eq ht imm ▸ BitVec.isLt _

theorem ofNat_immArith : BitVec.ofNat t.elem.w (immArith t imm) =
    if t.elem.sgn then imm.signExtend t.elem.w else imm.setWidth t.elem.w := by
  rw [immArith_eq ht, BitVec.ofNat_toNat, BitVec.setWidth_eq]
theorem ofNat_immLogic : BitVec.ofNat t.elem.w (immLogic imm) = imm.setWidth t.elem.w := by
  rw [immLogic_eq ht, BitVec.ofNat_toNat, BitVec.setWidth_eq]

end

end Sys2Proof

namespace Sys2Proof.Machine

/-- A word that is a scalar operation writes the bit vector whose number its function gives. -/
theorem writesScalar_scalarOp {s : State} {x : Issuer} {t : ITy} {d : SReg} {i : Instr} {f : Issuer → Nat}
    {r : BitVec t.elem.w} (h : Issues s x) (ht : t.plain = true) (he : exec i s = scalarOp s t d f) (hr : f x = r.toNat) :
    WritesScalar i s x d.toNat t.regs r.toNat := by
  have hw := writesScalar_ssetN (n := t.regs) (v := f) h he
  rwa [hr, ← t.regs_eq, ← ITy.plain_width_eq ht, Nat.mod_eq_of_lt r.isLt, t.regs_eq] at hw

end Sys2Proof.Machine

open Sys2Proof Sys2Proof.Machine in
/-- Settles O1: each word of Table 8-8 is a scalar operation, and its function is the operation on bit vectors. -/
theorem scalarResultsHold : Obligations.ScalarResults := by
  intro s x t d a b c imm h ht hsrc
  simp only [List.forall_mem_cons] at hsrc
  obtain ⟨ha, hb, hc, -⟩ := hsrc
  have hw := t.width_pos
  have gives {i : Instr} {f : Issuer → Nat} {r : BitVec t.elem.w} (he : exec i s = scalarOp s t d f)
      (hr : f x = r.toNat) : WritesScalar i s x d.toNat t.regs r.toNat := writesScalar_scalarOp h ht he hr
  have hI := immArith_lt ht imm
  have hL := immLogic_lt ht imm
  simp only [scalarResults, List.forall_mem_cons, ← t.sgn_eq, ← ofNat_immArith ht]
  simp only [← ofNat_immLogic ht]
  refine ⟨gives rfl (iAdd_eq _ hw ha hb), gives rfl (iAdd_eq _ hw ha hI), gives rfl (iSub_eq _ hw ha hb),
    gives rfl (iSub_eq _ hw ha hI), gives rfl (iMul_eq _ hw ha hb), gives rfl (iMul_eq _ hw ha hI),
    gives rfl (iMulh_eq _ hw ha hb), gives rfl (iDiv_eq _ hw ha hb), gives rfl (iRem_eq _ hw ha hb),
    gives rfl (iAnd_eq _ ha hb), gives rfl (iAnd_eq _ ha hL), gives rfl (iOr_eq _ ha hb), gives rfl (iOr_eq _ ha hL),
    gives rfl (iXor_eq _ ha hb), gives rfl (iXor_eq _ ha hL), gives rfl (iShl_eq _ ha _), gives rfl (iShl_eq _ ha _),
    gives rfl (iShr_eq _ ha _), gives rfl (iShr_eq _ ha _), gives rfl (iSra_eq _ ha _ hw), gives rfl (iSra_eq _ ha _ hw),
    gives rfl (iMin_eq _ hw ha hb), gives rfl (iMin_eq _ hw ha hI), gives rfl (iMax_eq _ hw ha hb),
    gives rfl (iMax_eq _ hw ha hI), gives rfl ?_, List.forall_mem_nil _⟩
  have hzero : (BitVec.ofNat t.elem.w (srcVal s x t.elem 0 c) ≠ 0) ↔ srcVal s x t.elem 0 c ≠ 0 := by
    rw [Ne, ← BitVec.toNat_inj, BitVec.toNat_ofNat, Nat.mod_eq_of_lt hc]
    rfl
  simp only [hzero]
  split <;> rw [BitVec.toNat_ofNat, Nat.mod_eq_of_lt ‹_›]
end

