-- ==== Proofs/LaneWords.lean ====
section
/-! PROOFS. What a word of lane scope that only computes does (R76, R106, R168, R169): it goes on where no lane is active,
raises REGBOUND where a register is missing, and else writes its destination in the lanes of ACTIVE. -/

namespace Sys2Proof.Machine

/-! ## Words that complete -/

section
variable {i : Instr} {s : State} {x : Issuer} {t : Team}

theorem exec_of_issue {f : Issuer → State} (h : Issues s x) (he : exec i s = issue s f) : exec i s = .next (f x) :=
  he.trans (issue_next h f)

/-- A word that ends at an offset with a record of its team. -/
theorem gives_finish {pc n : Nat} (he : exec i s = .next (finish s x { t with flow := { t.flow with pc := pc } } n)) :
    Gives i s x t pc :=
  ⟨_, he, finish_team .., finish_rest .., fun _ h => finish_other _ _ _ _ h,
    fun k => charge_core (s.setTeam x.u _) x n k, fun _ h => charge_core_other (s.setTeam x.u _) x n h, fun _ => ⟨rfl, rfl⟩⟩

theorem gives_step8 {n : Nat} (he : exec i s = .next (step8 s x t n)) : Gives i s x t (x.t.flow.pc + 8) := gives_finish he

end

section
variable {s : State} {x : Issuer} {act : List Nat} {t : Team} {n : Nat}

theorem laneWord_empty {b : Bool} (h : act = []) : laneWord s x act b n t = step8 s x x.t n := by
  subst h
  rfl
theorem laneWord_runs (h : act ≠ []) : laneWord s x act true n t = step8 s x t n := by
  simp [laneWord, h]
theorem laneWord_missing (h : act ≠ []) : laneWord s x act false n t = raiseLanes s x .regbound act 0 := by
  simp [laneWord, h]

/-- A lane word whose registers exist, or with no active lane, leaves its new registers: with no active lane the old ones. -/
theorem gives_laneWord {i : Instr} {b : Bool} {g : Regs}
    (he : exec i s = .next (laneWord s x act b n { x.t with regs := g })) (hb : act = [] ∨ b = true)
    (h0 : act = [] → g = x.t.regs) : Gives i s x { x.t with regs := g } (x.t.flow.pc + 8) := by
  by_cases hact : act = []
  · rw [laneWord_empty hact] at he
    rw [h0 hact]
    exact gives_step8 he
  · rw [hb.resolve_left hact, laneWord_runs hact] at he
    exact gives_step8 he

/-- A lane word without an active lane changes nothing of its team. -/
theorem gives_laneWord_empty {i : Instr} {b : Bool} (he : exec i s = .next (laneWord s x act b n t)) (h0 : act = []) :
    Gives i s x x.t (x.t.flow.pc + 8) := by
  rw [laneWord_empty h0] at he
  exact gives_step8 he

end

/-! ## Words that write lanes -/

theorem writeLanes_nil (g : Regs) (n r : Nat) (f : Nat → Nat) : writeLanes g n r f [] = g := rfl

theorem writeLanes_sameButLanes (g : Regs) (n r : Nat) (f : Nat → Nat) (ls : List Nat) (hr : ls = [] ∨ r + n ≤ 256) :
    SameButLanes g (writeLanes g n r f ls) ls r n := by
  obtain ⟨hs, hp, hix, hfmt, hlane⟩ := writeLanes_keeps g n r f ls
  refine ⟨hs, hp, hix, hfmt, hlane, fun l q hq h => ?_⟩
  rcases hr with rfl | hr
  · rfl
  · rcases h with h | h
    · exact vget_writeLanes_lane g n r f ls l q hr hq h
    · exact vget_writeLanes_reg g n r f ls l q hr hq h

section
variable {i : Instr} {s : State} {x : Issuer} {act : List Nat} {b : Bool} {n m d : Nat} {f : Nat → Nat}

theorem writesLanes_laneWord {r : Nat → Nat}
    (he : exec i s = .next (laneWord s x act b n { x.t with regs := writeLanes x.t.regs m d f act }))
    (hb : act = [] ∨ b = true) (hd : act = [] ∨ d + m ≤ 256) (hr : ∀ l ∈ act, f l % 2 ^ (32 * m) = r l) :
    WritesLanes i s x act d m r := by
  refine ⟨_, gives_laneWord he hb fun h0 => ?_, writeLanes_sameButLanes _ _ _ _ _ hd, fun l hl => ?_⟩
  · rw [h0, writeLanes_nil]
  · rw [vgetN_writeLanes _ _ _ _ _ _ (hd.resolve_left (List.ne_nil_of_mem hl)) hl, hr l hl]

end

/-! ## Registers that exist -/

theorem vregOf_add_le {t : Team} {n : Nat} {o : Operand} (hv : o.isVec = true) (h : inBounds t n o = true) :
    vregOf t.regs o + n ≤ t.vregs := by
  cases o with
  | v r => exact of_decide_eq_true h
  | ind ix base => exact of_decide_eq_true (Bool.and_eq_true_iff.1 h).2
  | s r => cases hv
  | k c => cases hv

theorem vregOf_add_le_range {t : Team} {n : Nat} {o : Operand} (hv : o.isVec = true) (h : rangeInBounds t n o = true) :
    vregOf t.regs o + n ≤ t.vregs := by
  cases o with
  | v r => exact of_decide_eq_true h
  | ind ix base => exact of_decide_eq_true h
  | s r => cases hv
  | k c => cases hv

section
variable {x : Issuer} {act : List Nat} {n : Nat} {os : List Operand} (h : LaneReady x act n os)
include h

theorem LaneReady.bound {o : Operand} (ho : o ∈ os) : act = [] ∨ inBounds x.t n o = true :=
  h.2.2.imp_right fun hall => List.all_eq_true.1 hall o ho

theorem LaneReady.all {srcs : List Operand} (hsub : ∀ o ∈ srcs, o ∈ os) :
    act = [] ∨ srcs.all (inBounds x.t n) = true :=
  h.2.2.imp_right fun hall => List.all_eq_true.2 fun o ho => List.all_eq_true.1 hall o (hsub o ho)

/-- A destination that exists lies below register 256. -/
theorem LaneReady.dst {d : Operand} (hv : d.isVec = true) (hd : d ∈ os) : act = [] ∨ vregOf x.t.regs d + n ≤ 256 :=
  (h.bound hd).imp_right fun hb => (vregOf_add_le hv hb).trans h.1

end

/-! ## Words that work element by element -/

/-- A lane word writes each element of its destination in each active lane, where its destination's elements fill its
registers. -/
theorem writesElems_laneOp {i : Instr} {s : State} {x : Issuer} {g : Guard} {e : Elem} {d : Operand}
    {srcs os : List Operand} {f : Nat → Nat} {r : Nat → Nat → BitVec e.w} (hv : d.isVec = true)
    (ready : LaneReady x (x.lanes g) e.regs os) (he : exec i s = .next (laneOp s x g e d srcs f))
    (hd : d ∈ os) (hsub : ∀ o ∈ srcs, o ∈ os) (hw : e.w * e.n = 32 * e.regs)
    (hr : ∀ l ∈ x.lanes g, ∀ j < e.n, elemAt e.w j (f l) = (r l j).toNat) :
    WritesElems i s x (x.lanes g) (vregOf x.t.regs d) e r := by
  have hbounds : x.lanes g = [] ∨ (inBounds x.t e.regs d && srcs.all (inBounds x.t e.regs)) = true := by
    rcases ready.bound hd, ready.all hsub with ⟨h0 | hb, h0 | hs⟩
    · exact .inl h0
    · exact .inl h0
    · exact .inl h0
    · exact .inr (Bool.and_eq_true_iff.2 ⟨hb, hs⟩)
  obtain ⟨regs, hgives, hsame, hval⟩ := writesLanes_laneWord (r := fun l => f l % 2 ^ (32 * e.regs)) he hbounds
    (ready.dst hv hd) fun _ _ => rfl
  refine ⟨regs, hgives, hsame, fun l hl j hj => ?_⟩
  rw [hval l hl, elemAt_mod, hr l hl j hj]
  calc e.w * j + e.w = e.w * (j + 1) := (Nat.mul_succ _ _).symm
    _ ≤ e.w * e.n := Nat.mul_le_mul_left _ hj
    _ = 32 * e.regs := hw

end Sys2Proof.Machine
end

