-- ==== Proofs/VectorWords.lean ====
section
/-! PROOFS. The vector words, integer and float (R168 to R182, Tables 10-2 and 10-3): each element of each active lane receives
its operation on the elements of the sources. -/

namespace Sys2Proof.Machine

/-- Element j of a source of a lane. -/
def srcElem (s : State) (x : Issuer) (e : Elem) (o : Operand) (l j : Nat) : BitVec e.w :=
  BitVec.ofNat e.w (elemAt e.w j (srcVal s x e l o))

/-- The count of a shift for element j: an element of its own under a packed type, else one of 32 bits (R174). -/
def shiftCount (s : State) (x : Issuer) (t : ITy) (o : Operand) (l j : Nat) : Nat :=
  if t.packed then (srcElem s x t.elem o l j).toNat else srcVal s x t.elem l o % 2 ^ 32

theorem srcElem_toNat (s : State) (x : Issuer) (e : Elem) (o : Operand) (l j : Nat) :
    (srcElem s x e o l j).toNat = elemAt e.w j (srcVal s x e l o) := by
  rw [srcElem, BitVec.toNat_ofNat, Nat.mod_eq_of_lt (elemAt_lt _ _ _)]

/-- The one element of a type that is not packed. -/
theorem elem_eq_zero {t : ITy} (ht : t.plain = true) {j : Nat} (hj : j < t.elem.n) : j = 0 := by
  rw [ITy.plain_n ht] at hj
  omega

/-- What a shift reads as the count of element j. -/
theorem elemAt_shiftCount (s : State) (x : Issuer) {t : ITy} (o : Operand) (l : Nat) {j : Nat} (hj : j < t.elem.n) :
    elemAt t.elem.w j (if t.packed then srcVal s x t.elem l o else srcVal s x t.elem l o % 2 ^ 32) =
      shiftCount s x t o l j := by
  unfold shiftCount
  split
  · rw [srcElem_toNat]
  · next hp =>
    have ht : t.plain = true := by simp [ITy.plain, hp]
    obtain rfl := elem_eq_zero ht hj
    refine elemAt_zero (lt_of_lt_of_le (Nat.mod_lt _ (Nat.two_pow_pos 32)) ?_)
    exact Nat.pow_le_pow_right (by norm_num) (ITy.plain_width_ge ht)

/-! ## Integer words -/

section
variable {s : State} {x : Issuer} {g : Guard} {t : ITy} {d a b c : Operand} (h : Issues s x) (hv : d.isVec = true)
  (ready : LaneReady x (x.lanes g) t.elem.regs [d, a, b, c]) {i : Instr} {r : Nat → Nat → BitVec t.elem.w}
include h hv ready

/-- A lane word over some of a word's operands. -/
theorem writesElems_vector {srcs : List Operand} {f : Issuer → Nat → Nat}
    (he : exec i s = issue s fun x => laneOp s x g t.elem d srcs (f x)) (hsub : ∀ o ∈ srcs, o ∈ [d, a, b, c])
    (hr : ∀ l ∈ x.lanes g, ∀ j < t.elem.n, elemAt t.elem.w j (f x l) = (r l j).toNat) :
    WritesElems i s x (x.lanes g) (vregOf x.t.regs d) t.elem r :=
  writesElems_laneOp hv ready (exec_of_issue h he) List.mem_cons_self hsub t.bits_eq hr

/-- A word of two sources, element by element. -/
theorem writesElems_vec2 {op : IntOp} (he : exec i s = vec2Op s g t d a b op)
    (hop : ∀ l j, op t.elem.sgn t.elem.w (elemAt t.elem.w j (srcVal s x t.elem l a))
      (elemAt t.elem.w j (srcVal s x t.elem l b)) = (r l j).toNat) :
    WritesElems i s x (x.lanes g) (vregOf x.t.regs d) t.elem r :=
  writesElems_vector h hv ready he (by simp) fun l _ j hj => by
    rw [Elem.elemAt_map2 _ hj, hop l j, BitVec.toNat_mod_cancel]

/-- A word of one source, element by element. -/
theorem writesElems_vec1 {op : Nat → Nat → Nat} (he : exec i s = vec1Op s g t d a op)
    (hop : ∀ l j, op t.elem.w (elemAt t.elem.w j (srcVal s x t.elem l a)) = (r l j).toNat) :
    WritesElems i s x (x.lanes g) (vregOf x.t.regs d) t.elem r :=
  writesElems_vector h hv ready he (by simp) fun l _ j hj => by
    rw [Elem.elemAt_map1 _ hj, hop l j, BitVec.toNat_mod_cancel]

/-- A shift, each element by its count. -/
theorem writesElems_vecShift {op : IntOp} (he : exec i s = vecShift s g t d a b op)
    (hop : ∀ l j, op t.elem.sgn t.elem.w (elemAt t.elem.w j (srcVal s x t.elem l a)) (shiftCount s x t b l j) =
      (r l j).toNat) : WritesElems i s x (x.lanes g) (vregOf x.t.regs d) t.elem r :=
  writesElems_vector h hv ready he (by simp) fun l _ j hj => by
    rw [Elem.elemAt_map2 _ hj, elemAt_shiftCount s x b l hj, hop l j, BitVec.toNat_mod_cancel]

theorem vectorResults_written : ∀ ir ∈ vectorResults g t d a b c,
    WritesElems ir.1 s x (x.lanes g) (vregOf x.t.regs d) t.elem fun l j =>
      ir.2 (srcElem s x t.elem a l j) (srcElem s x t.elem b l j) (srcElem s x t.elem c l j) (shiftCount s x t b l j) := by
  have hw := t.width_pos
  have lt (o : Operand) (l j : Nat) : elemAt t.elem.w j (srcVal s x t.elem l o) < 2 ^ t.elem.w := elemAt_lt _ _ _
  have hmad (l j : Nat) : iAdd t.elem.sgn t.elem.w (iMul t.elem.sgn t.elem.w (elemAt t.elem.w j (srcVal s x t.elem l a))
      (elemAt t.elem.w j (srcVal s x t.elem l b))) (elemAt t.elem.w j (srcVal s x t.elem l c)) =
        (srcElem s x t.elem a l j * srcElem s x t.elem b l j + srcElem s x t.elem c l j).toNat := by
    rw [iMul_eq _ hw (lt a l j) (lt b l j), iAdd_eq _ hw (BitVec.isLt _) (lt c l j), BitVec.ofNat_toNat, BitVec.setWidth_eq]
    rfl
  have two {i} {r} {op} := @writesElems_vec2 s x g t d a b c h hv ready i r op
  have one {i} {r} {op} := @writesElems_vec1 s x g t d a b c h hv ready i r op
  have shift {i} {r} {op} := @writesElems_vecShift s x g t d a b c h hv ready i r op
  simp only [vectorResults, List.forall_mem_cons]
  exact ⟨two rfl fun l j => iAdd_eq _ hw (lt a l j) (lt b l j), two rfl fun l j => iSub_eq _ hw (lt a l j) (lt b l j),
    two rfl fun l j => iAddSat_eq hw (lt a l j) (lt b l j) _, two rfl fun l j => iSubSat_eq hw (lt a l j) (lt b l j) _,
    two rfl fun l j => iMul_eq _ hw (lt a l j) (lt b l j), two rfl fun l j => iMulh_eq _ hw (lt a l j) (lt b l j),
    writesElems_vector h hv ready rfl (by simp) fun l _ j hj => by
      rw [Elem.elemAt_map3 _ hj, hmad l j, BitVec.toNat_mod_cancel],
    two rfl fun l j => iMin_eq _ hw (lt a l j) (lt b l j), two rfl fun l j => iMax_eq _ hw (lt a l j) (lt b l j),
    two rfl fun l j => iAnd_eq _ (lt a l j) (lt b l j), two rfl fun l j => iOr_eq _ (lt a l j) (lt b l j),
    two rfl fun l j => iXor_eq _ (lt a l j) (lt b l j), one rfl fun l j => iNot_eq (lt a l j),
    one rfl fun l j => iAbs_eq hw (lt a l j), one rfl fun l j => iNeg_eq hw (lt a l j),
    one rfl fun l j => iAbsSat_eq hw (lt a l j), one rfl fun l j => iNegSat_eq hw (lt a l j),
    shift rfl fun l j => iShl_eq _ (lt a l j) _, shift rfl fun l j => iShr_eq _ (lt a l j) _,
    shift rfl fun l j => iSra_eq _ (lt a l j) _ hw, one rfl fun l j => popcount_eq _ _,
    one rfl fun l j => clz_eq (lt a l j), one (op := fun _ A => A) rfl fun l j => (srcElem_toNat s x t.elem a l j).symm,
    List.forall_mem_nil _⟩

/-! ### Types that are not packed -/

section
variable (ht : t.plain = true)
include ht

/-- Under a type that is not packed, a lane word writes one value of the type's width. -/
theorem writesElems_plain {srcs : List Operand} {f : Issuer → Nat → Nat}
    (he : exec i s = issue s fun x => laneOp s x g t.elem d srcs (f x)) (hsub : ∀ o ∈ srcs, o ∈ [d, a, b, c])
    (hr : ∀ l ∈ x.lanes g, f x l = (r l 0).toNat) :
    WritesElems i s x (x.lanes g) (vregOf x.t.regs d) t.elem r :=
  writesElems_vector h hv ready he hsub fun l hl j hj => by
    obtain rfl := elem_eq_zero ht hj
    rw [hr l hl, elemAt_zero (BitVec.isLt _)]

variable (hsrc : ∀ o ∈ [a, b, c], ∀ l ∈ x.lanes g, srcVal s x t.elem l o < 2 ^ (32 * t.elem.regs))
include hsrc

omit h hv ready in
/-- A source of such a type is its one element. -/
theorem elemAt_src {o : Operand} (ho : o ∈ [a, b, c]) {l : Nat} (hl : l ∈ x.lanes g) :
    elemAt t.elem.w 0 (srcVal s x t.elem l o) = srcVal s x t.elem l o :=
  elemAt_zero (ITy.plain_width_eq ht ▸ hsrc o ho l hl)

theorem writesElems_vecImm {op : IntOp} {imm : Nat} (he : exec i s = vecImmOp s g t d a imm op)
    (hop : ∀ l, op t.elem.sgn t.elem.w (elemAt t.elem.w 0 (srcVal s x t.elem l a)) imm = (r l 0).toNat) :
    WritesElems i s x (x.lanes g) (vregOf x.t.regs d) t.elem r :=
  writesElems_plain h hv ready ht he (by simp) fun l hl => by rw [← hop l, elemAt_src ht hsrc (by simp) hl]

theorem plainVectorResults_written (imm : BitVec 24) : ∀ ir ∈ plainVectorResults g t d a b imm,
    WritesElems ir.1 s x (x.lanes g) (vregOf x.t.regs d) t.elem fun l j =>
      ir.2 (srcElem s x t.elem a l j) (srcElem s x t.elem b l j) (srcElem s x t.elem c l j) (shiftCount s x t b l j) := by
  have hw := t.width_pos
  have hI := immArith_lt ht imm
  have hL := immLogic_lt ht imm
  have lt (l : Nat) : elemAt t.elem.w 0 (srcVal s x t.elem l a) < 2 ^ t.elem.w := elemAt_lt _ _ _
  have with_ {i} {r} {op} {n} := @writesElems_vecImm s x g t d a b c h hv ready i r ht hsrc op n
  have hp : t.packed = false := by simpa [ITy.plain] using ht
  simp only [plainVectorResults, List.forall_mem_cons, ← ofNat_immArith ht]
  simp only [← ofNat_immLogic ht]
  refine ⟨with_ rfl fun l => iAdd_eq _ hw (lt l) hI, with_ rfl fun l => iSub_eq _ hw (lt l) hI,
    with_ rfl fun l => iMul_eq _ hw (lt l) hI, with_ rfl fun l => iMin_eq _ hw (lt l) hI,
    with_ rfl fun l => iMax_eq _ hw (lt l) hI, with_ rfl fun l => iAnd_eq _ (lt l) hL,
    with_ rfl fun l => iOr_eq _ (lt l) hL, with_ rfl fun l => iXor_eq _ (lt l) hL,
    with_ rfl fun l => iShl_eq _ (lt l) _, with_ rfl fun l => iShr_eq _ (lt l) _, with_ rfl fun l => iSra_eq _ (lt l) _ hw,
    writesElems_plain h hv ready ht rfl (by simp) fun l hl => ?_,
    writesElems_vector h hv ready rfl (by simp) fun l hl j hj => ?_, List.forall_mem_nil _⟩
  · rw [BitVec.toNat_ofNat, Nat.mod_eq_of_lt hI]
  · obtain rfl := elem_eq_zero ht hj
    have hfield := bitExtract_eq t.elem.sgn hw (lt l) (shiftCount s x t b l 0)
    rw [Elem.elemAt_map2 _ hj, elemAt_src ht hsrc (o := b) (by simp) hl]
    simp only [shiftCount, hp, Bool.false_eq_true, if_false] at hfield ⊢
    rw [hfield, BitVec.toNat_mod_cancel]
    rfl

/-- VBFI: the element with the bits that the count word names replaced. -/
theorem vbfi_written : WritesElems (.vbfi g t d a b c) s x (x.lanes g) (vregOf x.t.regs d) t.elem fun l _ =>
    BitVec.ofNat t.elem.w (bitInsert t.elem.w (elemAt t.elem.w 0 (srcVal s x t.elem l a))
      (elemAt t.elem.w 0 (srcVal s x t.elem l b)) (srcVal s x t.elem l c)) := by
  refine writesElems_vector h hv ready rfl (by simp) fun l hl j hj => ?_
  obtain rfl := elem_eq_zero ht hj
  rw [bitInsert_mod, elemAt_src ht hsrc (o := a) (by simp) hl, elemAt_src ht hsrc (o := b) (by simp) hl,
    BitVec.toNat_ofNat, elemAt, Nat.mul_zero, Nat.pow_zero, Nat.div_one]

end

end

/-! ## Float words -/

/-- The elements of a type fill its registers (R77). -/
theorem FTy.bits_eq (t : FTy) : t.elem.w * t.elem.n = 32 * t.elem.regs := by cases t <;> rfl

/-- An immediate stands in every element: packed types take it as the low half of 16 bits (R81). -/
theorem elemAt_immFloat {t : FTy} {imm : BitVec 24} (himm : t.packed = true → imm.toNat < 2 ^ 16) {j : Nat}
    (hj : j < t.elem.n) : elemAt t.elem.w j (immFloat t imm) = elemAt t.elem.w 0 (immFloat t imm) := by
  cases t with
  | f32 | f64 =>
    obtain rfl : j = 0 := Nat.lt_one_iff.1 hj
    rfl
  | f16x2 | bf16x2 =>
    have hlt := himm rfl
    have hj : j = 0 ∨ j = 1 := by
      have : j < 2 := hj
      omega
    rcases hj with rfl | rfl
    · rfl
    · show (imm.toNat + imm.toNat * 2 ^ 16) / 2 ^ 16 % 2 ^ 16 = (imm.toNat + imm.toNat * 2 ^ 16) / 2 ^ 0 % 2 ^ 16
      rw [Nat.add_mul_div_right _ _ (Nat.two_pow_pos 16), Nat.div_eq_of_lt hlt, Nat.zero_add, Nat.pow_zero, Nat.div_one,
        Nat.add_mul_mod_self_right]

section
variable {s : State} {x : Issuer} {g : Guard} {t : FTy} {d a b c : Operand} (h : Issues s x) (hv : d.isVec = true)
  (ready : LaneReady x (x.lanes g) t.elem.regs [d, a, b, c]) {i : Instr} {r : Nat → Nat → Nat}
include h hv ready

/-- A float word over some of a word's operands. -/
theorem writesElems_float {srcs : List Operand} {f : Issuer → Nat → Nat}
    (he : exec i s = issue s fun x => laneOp s x g t.elem d srcs (f x)) (hsub : ∀ o ∈ srcs, o ∈ [d, a, b, c])
    (hr : ∀ l, ∀ j < t.elem.n, elemAt t.elem.w j (f x l) = r l j % 2 ^ t.elem.w) :
    WritesElems i s x (x.lanes g) (vregOf x.t.regs d) t.elem fun l j => BitVec.ofNat _ (r l j) :=
  writesElems_laneOp hv ready (exec_of_issue h he) List.mem_cons_self hsub (FTy.bits_eq t) fun l _ j hj => by
    rw [hr l j hj, BitVec.toNat_ofNat]

theorem writesElems_flt2 {op : FFmt → Nat → Nat → Nat} (he : exec i s = flt2Op s g t d a b op)
    (hop : ∀ l j, op t.fmt (elemAt t.elem.w j (srcVal s x t.elem l a)) (elemAt t.elem.w j (srcVal s x t.elem l b)) = r l j) :
    WritesElems i s x (x.lanes g) (vregOf x.t.regs d) t.elem fun l j => BitVec.ofNat _ (r l j) :=
  writesElems_float h hv ready he (by simp) fun l j hj => by rw [Elem.elemAt_map2 _ hj, hop l j]

theorem writesElems_flt1 {op : FFmt → FVal → Nat} (he : exec i s = flt1Op s g t d a op)
    (hop : ∀ l j, op t.fmt (t.fmt.val (elemAt t.elem.w j (srcVal s x t.elem l a))) = r l j) :
    WritesElems i s x (x.lanes g) (vregOf x.t.regs d) t.elem fun l j => BitVec.ofNat _ (r l j) :=
  writesElems_float h hv ready he (by simp) fun l j hj => by rw [Elem.elemAt_map1 _ hj, hop l j]

theorem writesElems_fltImm {imm : BitVec 24} (himm : t.packed = true → imm.toNat < 2 ^ 16) {op : FFmt → Nat → Nat → Nat}
    (he : exec i s = fltImmOp s g t d a imm op)
    (hop : ∀ l j, op t.fmt (elemAt t.elem.w j (srcVal s x t.elem l a)) (elemAt t.elem.w 0 (immFloat t imm)) = r l j) :
    WritesElems i s x (x.lanes g) (vregOf x.t.regs d) t.elem fun l j => BitVec.ofNat _ (r l j) :=
  writesElems_float h hv ready he (by simp) fun l j hj => by
    rw [Elem.elemAt_map2 _ hj, elemAt_immFloat himm hj, hop l j]

end

end Sys2Proof.Machine

open Sys2Proof Sys2Proof.Machine

/-- Settles O8: each word of Table 10-3 is a function on elements, and what it gives is rounded by that function alone. -/
theorem floatResultsHold : Obligations.FloatResults := by
  intro s x g t rm d a b c imm h hv ready himm E
  have two {i} {r} {op} := @writesElems_flt2 s x g t d a b c h hv ready i r op
  have one {i} {r} {op} := @writesElems_flt1 s x g t d a b c h hv ready i r op
  have with_ {i} {r} {op} := @writesElems_fltImm s x g t d a b c h hv ready i r imm himm op
  simp only [floatResults, List.forall_mem_cons]
  exact ⟨two (op := fun f => fAdd f rm) rfl fun _ _ => rfl, with_ (op := fun f => fAdd f .ne) rfl fun _ _ => rfl,
    two (op := fun f => fSub f rm) rfl fun _ _ => rfl, with_ (op := fun f => fSub f .ne) rfl fun _ _ => rfl,
    two (op := fun f => fMul f rm) rfl fun _ _ => rfl, with_ (op := fun f => fMul f .ne) rfl fun _ _ => rfl,
    writesElems_float h hv ready rfl (by simp) fun l j hj => Elem.elemAt_map3 _ hj _ _ _ _,
    two (op := fun f => f.minMax false) rfl fun _ _ => rfl, with_ (op := fun f => f.minMax false) rfl fun _ _ => rfl,
    two (op := fun f => f.minMax true) rfl fun _ _ => rfl, with_ (op := fun f => f.minMax true) rfl fun _ _ => rfl,
    two (op := fun f => fDiv f rm) rfl fun _ _ => rfl,
    one (op := fun f => f.div rm (.fin false 1 0)) rfl fun _ _ => rfl,
    one (op := fun f => f.rsqrt rm) rfl fun _ _ => rfl, one (op := fun f => f.sqrt rm) rfl fun _ _ => rfl,
    one (op := fun f => f.exp2 rm) rfl fun _ _ => rfl, one (op := fun f => f.log2 rm) rfl fun _ _ => rfl,
    one (op := fun f => f.trig false rm) rfl fun _ _ => rfl, one (op := fun f => f.trig true rm) rfl fun _ _ => rfl,
    one (op := fun f => f.frc) rfl fun _ _ => rfl, one (op := fun f => f.rnd rm) rfl fun _ _ => rfl,
    List.forall_mem_nil _⟩

/-- Settles O6: each word of Table 10-2 is an operation on elements, and each element that of bit vectors. -/
theorem vectorResultsHold : Obligations.VectorResults := by
  intro s x g t d a b c imm h hv ready hsrc E n results
  refine ⟨fun ir hir => ?written, fun ht => ⟨_, ?inserted, vbfi_written h hv ready ht hsrc⟩⟩
  case inserted => exact fun l => bitInsert_insertBits _ _
  case written =>
    rcases List.mem_append.1 hir with hir | hir
    · exact vectorResults_written h hv ready ir hir
    · split at hir
      · next ht => exact plainVectorResults_written h hv ready ht hsrc imm ir hir
      · exact absurd hir List.not_mem_nil
end

