-- ==== Proofs/DecodedWords.lean ====
section
/-! PROOFS. The worked words of the spec (R70, R87): each is the encoding of the well-formed instruction it stands for. -/

open Sys2Proof

/-- Settles O57: a word decodes to the well-formed instruction whose encoding it is; the word 0 has a guard that no word may
have. -/
theorem wordsDecode : Obligations.WordsDecode := by
  unfold Obligations.WordsDecode
  simp only [decode_eq_ok_iff]
  exact ⟨⟨rfl, rfl⟩, ⟨rfl, rfl⟩, ⟨rfl, rfl⟩, ⟨rfl, rfl⟩, ⟨rfl, rfl⟩, ⟨rfl, rfl⟩, ⟨rfl, rfl⟩, ⟨rfl, rfl⟩, ⟨rfl, rfl⟩,
    ⟨rfl, rfl⟩, ⟨rfl, rfl⟩, ⟨rfl, rfl⟩, ⟨rfl, rfl⟩, ⟨rfl, rfl⟩, ⟨rfl, rfl⟩, ⟨rfl, rfl⟩, rfl⟩
end

