-- ==== Proofs/Transfers.lean ====
section
/-! PROOFS. Transfers of control (R73, R104, R115, R118, R129 to R131): what branches, calls and returns do to a team and its
return stacks, and where they and the words of lanes raise a cause instead (R76, R124, R135). -/

namespace Sys2Proof.Machine

/-! ## Return stacks -/

theorem get_setLaneRets (f : Flow) (ls : List Nat) (g : Nat → List Nat) (l : Nat) :
    SMap.get [] (setLaneRets f ls g).laneRet l = if l ∈ ls then g l else SMap.get [] f.laneRet l := by
  suffices ∀ m : SMap (List Nat), SMap.get [] (ls.foldl (fun m l => SMap.set [] m l (g l)) m) l =
      if l ∈ ls then g l else SMap.get [] m l from this f.laneRet
  induction ls with
  | nil => simp
  | cons k ls ih =>
    intro m
    rw [List.foldl_cons, ih, SMap.get_set]
    by_cases hl : l ∈ ls
    · simp [hl]
    · by_cases hk : l = k <;> simp [hl, hk]

/-! ## Transfers -/

section
variable {s : State} {x : Issuer} {target : Int} {deep ret : List Nat} {lane : Nat → List Nat}

section
variable (hc : inCode s x target = true)
include hc

theorem transfer_goes (ha : target % 8 = 0) (hd : deep = []) : transfer s x target deep ret lane =
    finish s x { x.t with flow :=
      { (if x.k.travels then setLaneRets x.t.flow (lanesOf x.t.flow.mask x.t.lanes) lane
          else { x.t.flow with ret := ret }) with pc := target.toNat } } 1 := by
  simp [transfer, hc, ha, hd]
theorem transfer_misaligned (ha : target % 8 ≠ 0) :
    transfer s x target deep ret lane = raiseTeam s x .misalign (offsetAddr target) := by
  simp [transfer, hc, ha]
theorem transfer_deep (ha : target % 8 = 0) (hd : deep ≠ []) :
    transfer s x target deep ret lane = raiseLanes s x .stackovf deep 0 := by
  simp [transfer, hc, ha, hd]

end

theorem transfer_outside (hc : inCode s x target = false) (ht : x.k.travels = false) :
    transfer s x target deep ret lane = raiseTeam s x .spacebound (offsetAddr target) := by
  simp [transfer, hc, ht]

variable {i : Instr} (hc : inCode s x target = true) (ha : target % 8 = 0)
include hc ha

theorem goes_ordinary (ht : x.k.travels = false) (he : exec i s = .next (transfer s x target [] ret lane)) :
    Goes i s x ret (laneRetOf x.t) target.toNat := by
  rw [transfer_goes hc ha rfl, ht] at he
  exact ⟨x.t.flow.laneRet, fun _ => rfl, gives_finish he⟩

theorem goes_travelling (ht : x.k.travels = true) (he : exec i s = .next (transfer s x target [] ret lane)) :
    Goes i s x x.t.flow.ret (fun l => if l ∈ lanesOf x.t.flow.mask x.t.lanes then lane l else laneRetOf x.t l)
      target.toNat := by
  rw [transfer_goes hc ha rfl, ht] at he
  exact ⟨_, get_setLaneRets x.t.flow _ lane, gives_finish he⟩

theorem goes_jump (he : exec i s = .next (jump s x target)) :
    Goes i s x x.t.flow.ret (laneRetOf x.t) target.toNat := by
  cases ht : x.k.travels with
  | false => exact goes_ordinary hc ha ht he
  | true => simpa only [ite_self] using goes_travelling hc ha ht he

end

/-! ## Calls -/

section
variable {s : State} {x : Issuer} {target : Int}

theorem callTo_ordinary (ht : x.k.travels = false) : callTo s x target = transfer s x target
    (if 8 ≤ x.t.flow.ret.length then lanesOf x.t.flow.mask x.t.lanes else []) (x.t.flow.ret ++ [x.next]) (laneRetOf x.t) := by
  simp [callTo, ht]

theorem callTo_travelling (ht : x.k.travels = true) : callTo s x target = transfer s x target
    ((lanesOf x.t.flow.mask x.t.lanes).filter fun l => 8 ≤ (laneRetOf x.t l).length) x.t.flow.ret
    fun l => laneRetOf x.t l ++ [x.next] := by
  simp [callTo, ht]

end

/-! ## Returns of a travelling kernel -/

theorem and_not_maskOf_nil (m : Mask) : m &&& ~~~maskOf [] = m := by
  show m &&& ~~~(0#1024) = m
  rw [BitVec.not_zero, BitVec.and_allOnes]

/-- No lane leaves a team. -/
theorem without_nil (t : Team) : t.without [] = t := by
  have hended : t.flow.ended ||| maskOf [] = t.flow.ended := BitVec.or_zero
  have hrets : (t.flow.laneRet.filter fun lr => !([] : List Nat).contains lr.1) = t.flow.laneRet :=
    List.filter_eq_self.2 fun _ _ => rfl
  unfold Team.without Flow.clear
  simp only [and_not_maskOf_nil, hended, hrets, List.map_id']

/-- A departure of no lane. -/
theorem depart_nil (s : State) (x : Issuer) (rest : State → Team → State) : depart s x [] rest = rest s x.t := by
  simp [depart, leaveCauses, worst, sendAll, without_nil]

/-- A team with a lane in its mask goes on where it is told to. -/
theorem settle_of_mask {s : State} {x : Issuer} {t : Team} {pc n : Nat} (h : t.flow.mask ≠ 0) :
    settle s x t pc n = finish s x { t with flow := { t.flow with pc := pc } } n := by
  unfold settle settled settleFrom
  rw [if_pos h]
  rfl

theorem mask_ne_zero {m : Mask} {n : Nat} (h : lanesOf m n ≠ []) : m ≠ 0 := by
  rintro rfl
  simp [lanesOf, laneIn] at h

/-- Every lane of the mask returns to one offset of the resident segment. -/
theorem retTravel_together {s : State} {x : Issuer} {p : Nat} (hls : lanesOf x.t.flow.mask x.t.lanes ≠ [])
    (hp : ∀ l ∈ lanesOf x.t.flow.mask x.t.lanes, (laneRetOf x.t l).getLast? = some p) (hc : inCode s x p = true)
    (ha : p % 8 = 0) : retTravel s x = finish s x { x.t with flow :=
      { setLaneRets x.t.flow (lanesOf x.t.flow.mask x.t.lanes) (fun l => (laneRetOf x.t l).dropLast) with pc := p } } 1 := by
  have hmask := mask_ne_zero hls
  unfold retTravel
  dsimp only
  generalize lanesOf x.t.flow.mask x.t.lanes = ls at hls hp ⊢
  have hlow : (ls.filter fun l => (laneRetOf x.t l).isEmpty) = [] := by
    refine List.filter_eq_nil_iff.2 fun l hl he => ?_
    have hlast := hp l hl
    rw [List.isEmpty_iff.1 he] at hlast
    cases hlast
  have hpop : ∀ l ∈ ls, (laneRetOf x.t l).getLastD 0 = p := fun l hl => by
    rw [List.getLastD_eq_getLast?, hp l hl]
    rfl
  have hhead : (laneRetOf x.t (ls.headD 0)).getLastD 0 = p := by
    obtain ⟨l, ls', rfl⟩ := List.exists_cons_of_ne_nil hls
    exact hpop l List.mem_cons_self
  have hstay : (ls.filter fun l => (laneRetOf x.t l).getLastD 0 = p) = ls :=
    List.filter_eq_self.2 fun l hl => decide_eq_true (hpop l hl)
  have hall : ls.filter (fun l => !([] : List Nat).contains l) = ls := List.filter_eq_self.2 fun _ _ => rfl
  have hgo : (ls.filter fun l => !ls.contains l) = [] := List.filter_eq_nil_iff.2 fun l hl => by simp [hl]
  have hlist : ls.isEmpty = false := by simpa using hls
  simp only [hlow, hall, hhead, hc, ha, decide_true, Bool.and_self, if_true, hstay, hgo, List.map_nil, leaveCauses,
    List.filterMap_nil, List.append_nil, worst, depart_nil, hlist, Bool.false_eq_true, if_false]
  exact settle_of_mask hmask

theorem branchesJump : branchesJumpRule := by
  intro s x c a disp h dest p
  have hbrc := exec_of_issue (i := .brc c disp) h rfl
  refine ⟨rfl, fun hc ha => ⟨goes_jump hc ha (issue_next h _), fun hne => ?_⟩, fun hz => ?_, fun hc ha => ?_⟩
  · rw [if_pos hne] at hbrc
    exact goes_jump hc ha hbrc
  · rw [if_neg (not_not.2 hz)] at hbrc
    exact gives_step8 hbrc
  · exact goes_jump hc (by omega) (issue_next h _)

theorem callsReturn : callsReturnRule := by
  intro s x a disp h ls next calls lane
  have hcalls : ∀ it ∈ calls, exec it.1 s = .next (callTo s x it.2) := by
    simp only [calls, List.forall_mem_cons]
    exact ⟨issue_next h _, issue_next h _, List.forall_mem_nil _⟩
  have hret := exec_of_issue (i := .ret) h rfl
  refine ⟨fun ht => ⟨fun h8 it hit hc ha => ?_, fun rest p hrest hc ha => ?_⟩,
    fun ht hls => ⟨fun h8 it hit hc ha => ?_, fun p hp hc ha => ?_⟩⟩
  · have he := hcalls it hit
    rw [callTo_ordinary ht, if_neg (by omega)] at he
    exact goes_ordinary hc ha ht he
  · have hlast : x.t.flow.ret.getLast? = some p := by simp [hrest]
    have hdrop : x.t.flow.ret.dropLast = rest := by simp [hrest]
    simp only [ht, hlast, hdrop, Bool.false_eq_true, if_false] at hret
    exact goes_ordinary hc (by omega) ht hret
  · have hdeep : (ls.filter fun l => 8 ≤ (laneRetOf x.t l).length) = [] :=
      List.filter_eq_nil_iff.2 fun l hl => by
        have := h8 l hl
        simpa using this
    have he := hcalls it hit
    rw [callTo_travelling ht, hdeep] at he
    exact goes_travelling hc ha ht he
  · simp only [ht, if_true, retTravel_together hls hp hc ha] at hret
    exact ⟨_, get_setLaneRets x.t.flow ls _, gives_finish hret⟩

/-! ## Causes -/

section
variable {s : State} {x : Issuer} {g : Guard} {c : Operand} {disp : BitVec 24}

/-- A lane word raises REGBOUND for a condition whose register is missing. -/
theorem traps_missing {i : Instr} {act : List Nat} {b : Bool} {other : State}
    (he : exec i s = .next (if !act.isEmpty && !b then raiseLanes s x .regbound act 0 else other)) (hact : act ≠ [])
    (hb : b = false) : Traps i s x .regbound (maskOf act) 0 := by
  rw [if_pos (by simp [hact, hb])] at he
  exact he

variable (h : Issues s x) (hb : (!(x.lanes g).isEmpty && !inBounds x.t 1 c) = false)
include h hb

theorem brv_deep (hc : inCode s x (branchTarget x disp) = true) (hd : maxDepth x.t.lanes ≤ x.t.flow.stack.length) :
    Traps (.brv g c disp) s x .stackovf (maskOf (x.lanes g)) 0 := by
  refine (issue_next h _).trans (congrArg _ ?_)
  simp only [hb, hc, hd, Bool.false_eq_true, if_false, Bool.not_true, Bool.false_and, if_true]
  rfl

variable (ht : x.k.travels = false) (hc : inCode s x (branchTarget x disp) = false)
  (hT : (takers s x (x.lanes g) c).isEmpty = false)
include ht hc hT

theorem brv_outside : Traps (.brv g c disp) s x .spacebound (maskOf (takers s x (x.lanes g) c))
    (offsetAddr (branchTarget x disp)) := by
  refine (issue_next h _).trans (congrArg _ ?_)
  simp only [hb, hc, ht, hT, Bool.false_eq_true, if_false, Bool.not_false, Bool.true_and, if_true]
  rfl

theorem brk_outside : Traps (.brk g c disp) s x .spacebound (maskOf (takers s x (x.lanes g) c))
    (offsetAddr (branchTarget x disp)) := by
  refine (issue_next h _).trans (congrArg _ ?_)
  simp only [hb, hc, ht, hT, Bool.false_eq_true, if_false, Bool.not_false, Bool.true_and, if_true]
  rfl

end

end Sys2Proof.Machine

open Sys2Proof Sys2Proof.Machine

/-- Settles O10: a legal target is gone to with the return stacks that the transfer leaves. -/
theorem branchesAndCalls : Obligations.BranchesAndCalls := ⟨branchesJump, callsReturn⟩

/-- Settles O16: each word meets its checks in their order. -/
theorem controlTraps : Obligations.ControlTraps := by
  intro s x g c a d code disp h ht dest p mask act T
  refine ⟨issue_next h _, fun hc => ⟨?_, ?_⟩, fun hc ha => ⟨?_, ?_⟩, fun hc ha h8 hls => ?_, fun hret => ?_,
    fun hb hc hd => brv_deep h ?_ hc hd, fun hact hb => ?_, fun hact hb hT hc => ?_, fun hact hb htx => ?_⟩
  · exact (issue_next h _).trans (congrArg _ (transfer_outside hc ht))
  · exact (issue_next h _).trans (congrArg _ ((callTo_ordinary ht).trans (transfer_outside hc ht)))
  · exact (issue_next h _).trans (congrArg _ (transfer_misaligned hc (by omega)))
  · exact (issue_next h _).trans (congrArg _ ((callTo_ordinary ht).trans (transfer_misaligned hc (by omega))))
  · refine (issue_next h _).trans (congrArg _ ((callTo_ordinary ht).trans ?_))
    rw [if_pos h8]
    exact transfer_deep hc ha hls
  · refine (issue_next h _).trans (congrArg _ ?_)
    simp only [ht, hret, List.getLast?_nil, Bool.false_eq_true, if_false]
    rfl
  · rcases hb with hb | hb
    · rw [show x.lanes g = [] from hb]
      rfl
    · simp [hb]
  · simp only [List.forall_mem_cons]
    exact ⟨traps_missing (issue_next h _) hact hb, traps_missing (issue_next h _) hact hb,
      traps_missing (issue_next h _) hact hb, traps_missing (issue_next h _) hact hb,
      traps_missing (issue_next h _) hact hb, traps_missing (issue_next h _) hact hb,
      traps_missing (issue_next h _) hact hb, List.forall_mem_nil _⟩
  · have hbounds : (!(x.lanes g).isEmpty && !inBounds x.t 1 c) = false := by simp [hb]
    have htakers : (takers s x (x.lanes g) c).isEmpty = false := List.isEmpty_eq_false_iff.2 hT
    exact ⟨brv_outside h hbounds ht hc htakers, brk_outside h hbounds ht hc htakers⟩
  · refine (issue_next h _).trans (congrArg _ ?_)
    have hlist : (x.lanes g).isEmpty = false := List.isEmpty_eq_false_iff.2 hact
    simp only [hlist, htx, hb, ht, Bool.false_eq_true, if_false, Option.isSome_none, Bool.not_true, Bool.not_false, if_true]
    rfl
end

