-- ==== Proofs/Checks.lean ====
section
/-! PROOFS. A page table of which a core still keeps update-only partials (R207): the walker's own reads recall them (R208,
R211), so that it finds another entry than the one that memory held before. -/

namespace Sys2Proof.Machine

/-- A copy that keeps a partial of the entry at byte 8: it sets bit 4, and the page's attribute becomes NONE. -/
def partialEntry : L1Line := { line := 0, kind := .update .n64 .or, partials := [(8, 16)] }

/-- Tenant 0's one table, at 0: its entry 0 points to itself, and its entry 1 maps a coherent page, writable, of level 2. The
partial for entry 1 stands in an L1. -/
def partialTable : State :=
  let s : State := { State.reset with
    isls := [(0, { live := true })], cores := [(0, { l1 := [(0, [partialEntry])] })] }
  (s.wrNat 0 8 1).wrNat 8 8 1067

/-- The address that the page maps. -/
def partialVa : Nat := 2 ^ 28

/-- The page as memory maps it. -/
def partialPage : TlbEntry :=
  { tenant := 0, page := 2 ^ 16, size := 8, isl := 0, frame := 0, attr := .coherent, w := true }

theorem partialTable_walk : walk partialTable 0 partialVa = .leaf partialPage := by decide

theorem partialTable_clean : walkStruck partialTable 0 partialVa = false := by decide

/-- The check of a store meets the entry with its partial. -/
theorem partialTable_perm : (checkAccess partialTable 0 (some 1) 0 .store 8 partialVa).1 = .cause .perm := by decide

end Sys2Proof.Machine

open Sys2Proof Sys2Proof.Machine in
/-- Refutes O20: the walk's reads recall a partial of the page's entry (R208), after which a store that memory's entry allows
raises PERM. -/
theorem not_addressesChecked : ¬ Obligations.AddressesChecked := by
  rintro ⟨haccess, -⟩
  obtain ⟨-, -, hwalk⟩ := haccess partialTable 0 1 0 8 partialVa .store
  obtain ⟨-, hclean⟩ := hwalk (by decide) (by decide) (List.forall_mem_nil _) (List.forall_mem_nil _)
  obtain ⟨-, -, hleaf⟩ := hclean partialTable_clean
  obtain ⟨-, hok, -⟩ := hleaf partialPage partialTable_walk (by decide)
  have h := hok (by decide) (.inl ⟨rfl, by decide⟩)
  rw [partialTable_perm] at h
  cases h
end

