-- ==== Proofs/MemoryWords.lean ====
section
/-! PROOFS. Memory words that issue nothing (R76, R106, R111, R246): with no active lane, with a full counter, with a register
missing. A PREF (R226) moves lines and fills TLBs, and leaves the team and the operations in flight as they are. -/

namespace Sys2Proof.Machine

/-! ## Words of one counter -/

/-- A word that goes on as a memory word counted by a counter, its registers there or not. -/
def CountedBy (ctr : Ctr) (b : Bool) (i : Instr) (s : State) (x : Issuer) (g : Guard) : Prop :=
  ∃ n go, exec i s = .next (memWord s x g ctr b n go)

section
variable {s : State} {x : Issuer} {g : Guard} {ctr : Ctr} {i : Instr} {b : Bool} {n : Nat} {go : List Nat → State}

theorem memWord_empty (h : x.lanes g = []) : memWord s x g ctr b n go = step8 s x x.t n := by
  simp [memWord, h]
theorem memWord_full (h : x.lanes g ≠ []) (hf : x.t.cnt.get ctr = 63) : memWord s x g ctr b n go = s := by
  simp [memWord, h, Issuer.full, hf]
theorem memWord_missing (h : x.lanes g ≠ []) (hf : x.t.cnt.get ctr ≠ 63) :
    memWord s x g ctr false n go = raiseLanes s x .regbound (x.lanes g) 0 := by
  simp [memWord, h, Issuer.full, hf]

theorem CountedBy.idle (hi : CountedBy ctr b i s x g) (h : x.lanes g = []) : Gives i s x x.t (x.t.flow.pc + 8) := by
  obtain ⟨n, go, he⟩ := hi
  rw [memWord_empty h] at he
  exact gives_step8 he

theorem CountedBy.held (hi : CountedBy ctr b i s x g) (h : x.lanes g ≠ []) (hf : x.t.cnt.get ctr = 63) :
    exec i s = .next s := by
  obtain ⟨n, go, he⟩ := hi
  rwa [memWord_full h hf] at he

theorem CountedBy.traps (hi : CountedBy ctr b i s x g) (h : x.lanes g ≠ []) (hf : x.t.cnt.get ctr ≠ 63) (hb : b = false) :
    Traps i s x .regbound (maskOf (x.lanes g)) 0 := by
  obtain ⟨n, go, he⟩ := hi
  rw [hb, memWord_missing h hf] at he
  exact he

/-- A remote word or a maintenance word outside a transaction, or with no active lane, goes on as a memory word. -/
theorem countedBy_of_forbid (h : x.t.tx = none ∨ x.lanes g = [])
    (he : exec i s = .next (if x.t.tx.isSome && !(x.lanes g).isEmpty then forbid s x else memWord s x g ctr b n go)) :
    CountedBy ctr b i s x g := by
  rw [if_neg (by rcases h with h | h <;> simp [h])] at he
  exact ⟨n, go, he⟩

/-- A word that a release holds back does so for active lanes only. -/
theorem countedBy_of_release {r : Bool} {other : State} (h : x.lanes g = [])
    (he : exec i s = .next (if r && !(x.lanes g).isEmpty then s else other)) : exec i s = .next other := by
  rwa [if_neg (by simp [h])] at he

end

/-! ## Prefetches -/

/-- `t` is `s` but for memory, islands, cores, teams and kernels: what is in flight stays so. -/
def SameRun (s t : State) : Prop :=
  { t with mem := s.mem, isls := s.isls, cores := s.cores, teams := s.teams, kernels := s.kernels } = s

namespace SameRun

variable {s t u : State}

theorem trans (h : SameRun s t) (h' : SameRun t u) : SameRun s u := by
  have e := congrArg (fun r : State =>
    { r with mem := s.mem, isls := s.isls, cores := s.cores, teams := s.teams, kernels := s.kernels }) h'
  exact e.trans h

theorem ops (h : SameRun s t) : t.ops = s.ops := by have e := congrArg State.ops h; exact e
theorem now (h : SameRun s t) : t.now = s.now := by have e := congrArg State.now h; exact e

end SameRun

/-! ### The L1 -/

theorem writeBackL2_atHomes (s : State) (l : L1Line) : AtHomes s (writeBackL2 s l) :=
  (AtHomes.foldl (fun s _ => wr_atHomes s _ _) l.dirty s).trans (l2Touch_atHomes _ l.line _ false)

theorem evict_atHomes (s : State) (l : L1Line) : AtHomes s (evict s l) := by
  unfold evict
  split
  · exact (combine_atHomes s l).trans (changeLine_atHomes _ l.line)
  · split
    · exact .refl s
    · exact writeBackL2_atHomes s l
  · exact .refl s

theorem l1Room_atHomes (s : State) (key line : Nat) (kind : L1Kind) : AtHomes s (l1Room s key line kind) := by
  unfold l1Room
  dsimp only
  split
  · exact (updCore_atHomes s key _).trans (evict_atHomes _ _)
  · exact .refl s

theorem l1Enter_atHomes (s : State) (key : Nat) (l : L1Line) (strm : Bool) : AtHomes s (l1Enter s key l strm) :=
  (l1Room_atHomes s key l.line l.kind).trans (updCore_atHomes _ key _)

/-- Sectors that an L1 lacks of a private or read-shared line are touched in the L2. -/
theorem l2Touch_missing_atHomes (s : State) (line a b : Nat) (strm : Bool) :
    AtHomes s (if a = b then s else l2Touch s line (a - b) strm) := by
  split
  · exact .refl s
  · exact l2Touch_atHomes s line _ strm

theorem coreReadLine_atHomes (s : State) (key : Nat) (by_ : Option Nat) (attr : Attr) (strm : Bool) (line n : Nat)
    (offs : List Nat) : AtHomes s (coreReadLine s key by_ attr strm line n offs).2 := by
  unfold coreReadLine
  split
  · exact ((l1Room_atHomes s key line _).trans (.foldl (fun s off => reachLine_atHomes s by_ false strm _ n line) offs _)).trans
      (.foldl (fun s off => l1Enter_atHomes s key _ strm) offs _)
  · exact (((l1Room_atHomes s key line _).trans (recallLine_atHomes _ line)).trans
      (l2Touch_missing_atHomes _ line _ _ strm)).trans (l1Enter_atHomes _ key _ strm)

/-! ### The checks -/

theorem walked_sameRun (s : State) (tenant va : Nat) : SameRun s (walked s tenant va).2 := (walked_atHomes s tenant va).rest

theorem translate_sameRun (s : State) (isl : Nat) (core : Option Nat) (tenant va : Nat) :
    SameRun s (translate s isl core tenant va).2 := by
  have hwalk := walked_sameRun s tenant va
  unfold translate
  dsimp only
  split
  · exact rfl
  · split
    · cases core <;> exact rfl
    · split
      · next e t hw =>
        rw [hw] at hwalk
        cases core <;> exact hwalk
      · exact hwalk

theorem checkAccess_sameRun (s : State) (isl : Nat) (core : Option Nat) (tenant : Nat) (w : Want) (n va : Nat) :
    SameRun s (checkAccess s isl core tenant w n va).2 := by
  have htranslate := translate_sameRun s isl core tenant va
  unfold checkAccess
  split
  · exact rfl
  · split
    · exact rfl
    · split
      · exact walked_sameRun s tenant va
      · split <;> next h => rwa [h] at htranslate

theorem checkLanes_sameRun (s : State) (isl : Nat) (core : Option Nat) (tenant : Nat) (w : Want) (n : Nat)
    (las : List (Nat × Nat)) : SameRun s (checkLanes s isl core tenant w n las).2 := by
  induction las generalizing s with
  | nil => exact rfl
  | cons la las ih => exact (checkAccess_sameRun s isl core tenant w n la.2).trans (ih _)

/-- A word that goes on with its team as it was, from a state in which the same is in flight. -/
theorem step8_sameRun {s s₁ : State} {x : Issuer} (n : Nat) (h : SameRun s s₁) :
    (step8 s₁ x x.t n).teams.find? x.u = some (x.t.at_ (x.t.flow.pc + 8) s) ∧ (step8 s₁ x x.t n).ops = s.ops := by
  refine ⟨?_, h.ops⟩
  rw [step8_team, h.now]
  rfl

theorem execPref_sameRun {s : State} {x : Issuer} (h : Issues s x) (g : Guard) (sz : Sz) (strm : Bool) (base : Operand)
    (ofs : BitVec 24) :
    ∃ s₁, exec (.pref g sz strm base ofs) s = .next (step8 s₁ x x.t (szCycles x sz)) ∧ SameRun s s₁ := by
  have he := exec_of_issue (i := .pref g sz strm base ofs) h rfl
  dsimp only at he
  split at he
  · exact ⟨s, he, rfl⟩
  · refine ⟨_, he, (checkLanes_sameRun s ..).trans (AtHomes.foldl (fun s hit => ?_) _ _).rest⟩
    split
    · exact reachLine_atHomes s _ false true _ _ _
    · exact coreReadLine_atHomes s ..

theorem execPref_idle {s : State} {x : Issuer} {g : Guard} {sz : Sz} {strm : Bool} {base : Operand} {ofs : BitVec 24}
    (h : Issues s x) (h0 : x.lanes g = []) : Gives (.pref g sz strm base ofs) s x x.t (x.t.flow.pc + 8) := by
  have he := exec_of_issue (i := .pref g sz strm base ofs) h rfl
  rw [if_pos (by simp [h0])] at he
  exact gives_step8 he

end Sys2Proof.Machine

open Sys2Proof Sys2Proof.Machine in
/-- Settles O25: each memory word meets its empty mask, its counter and its registers in this order. -/
theorem memoryWordsIdle : Obligations.MemoryWordsIdle := by
  intro s x g sz strm d base ctr mask stride ofs inc t op ord sc h loads stores remote others
  have hloads : ∀ i ∈ loads, ∃ b, CountedBy .ld (inBounds x.t (ceilDiv sz.bytes 4) d && b) i s x g := by
    simp only [loads, List.forall_mem_cons]
    exact ⟨⟨_, _, _, issue_next h _⟩, ⟨_, _, _, issue_next h _⟩, ⟨_, _, _, issue_next h _⟩, List.forall_mem_nil _⟩
  have hstores : ∀ i ∈ stores, ∃ b, CountedBy .st (inBounds x.t (ceilDiv sz.bytes 4) d && b) i s x g := by
    simp only [stores, List.forall_mem_cons]
    exact ⟨⟨_, _, _, issue_next h _⟩, ⟨_, _, _, issue_next h _⟩, ⟨_, _, _, issue_next h _⟩, List.forall_mem_nil _⟩
  have hremote (hx : x.t.tx = none ∨ x.lanes g = []) : ∀ i ∈ remote, ∃ b, CountedBy .rm b i s x g := by
    simp only [remote, List.forall_mem_cons]
    exact ⟨⟨_, countedBy_of_forbid hx (issue_next h _)⟩, ⟨_, countedBy_of_forbid hx (issue_next h _)⟩,
      ⟨_, countedBy_of_forbid hx (issue_next h _)⟩, ⟨_, countedBy_of_forbid hx (issue_next h _)⟩, List.forall_mem_nil _⟩
  obtain ⟨s₁, hpref, hrun⟩ := execPref_sameRun h g sz strm base ofs
  refine ⟨fun h0 => ?_, fun hact => ⟨fun hf i hi => ?_, fun hf i hi => ?_, fun hf hx i hi => ?_, fun hf hb i hi => ?_,
    fun hf hb i hi => ?_⟩, _, hpref, step8_sameRun _ hrun⟩
  · simp only [List.forall_mem_append, others, List.forall_mem_cons]
    refine ⟨⟨⟨fun i hi => ?_, fun i hi => ?_⟩, fun i hi => ?_⟩, ?_, ?_, ?_, ?_, ?_, ?_, List.forall_mem_nil _⟩
    · obtain ⟨b, hc⟩ := hloads i hi
      exact hc.idle h0
    · obtain ⟨b, hc⟩ := hstores i hi
      exact hc.idle h0
    · obtain ⟨b, hc⟩ := hremote (.inr h0) i hi
      exact hc.idle h0
    · exact CountedBy.idle (countedBy_of_forbid (.inr h0) (issue_next h _)) h0
    · exact CountedBy.idle (countedBy_of_forbid (.inr h0) (issue_next h _)) h0
    · exact execPref_idle h h0
    · exact CountedBy.idle ⟨_, _, countedBy_of_release h0 (issue_next h _)⟩ h0
    · exact CountedBy.idle ⟨_, _, countedBy_of_release h0 (issue_next h _)⟩ h0
    · exact CountedBy.idle (countedBy_of_forbid (.inr h0) (countedBy_of_release h0 (issue_next h _))) h0
  · obtain ⟨b, hc⟩ := hloads i hi
    exact hc.held hact hf
  · obtain ⟨b, hc⟩ := hstores i hi
    exact hc.held hact hf
  · obtain ⟨b, hc⟩ := hremote (.inl hx) i hi
    exact hc.held hact hf
  · obtain ⟨b, hc⟩ := hloads i hi
    exact hc.traps hact hf (by rw [hb, Bool.false_and])
  · obtain ⟨b, hc⟩ := hstores i hi
    exact hc.traps hact hf (by rw [hb, Bool.false_and])
end

