-- ==== Proofs/Reductions.lean ====
section
/-! PROOFS. Reductions and scans (R192 to R194): the operation on two values, the tree of VRED level by level, and the running
values of VSCAN. -/

namespace Sys2Proof
open Sys2Proof.Machine

namespace RTy

theorem width_eq (t : RTy) : t.elem.w = 32 * t.regs := by cases t <;> rfl
theorem width_pos (t : RTy) : 0 < t.elem.w := by cases t <;> decide
theorem flt_none {t : RTy} (h : t.isFloat = false) : t.elem.flt = none := by
  revert h
  cases t <;> decide

end RTy
end Sys2Proof

namespace Sys2Proof.Machine

/-! ## Two values -/

section
variable {t : RTy} {rm : Rm} {a b : Nat} (ht : t.elem.flt = none)
include ht

theorem redOp_add_int : redOp .add t rm a b = iAdd t.elem.sgn t.elem.w a b := by simp only [redOp, ht]
theorem redOp_min_int : redOp .min t rm a b = iMin t.elem.sgn t.elem.w a b := by simp only [redOp, ht]
theorem redOp_max_int : redOp .max t rm a b = iMax t.elem.sgn t.elem.w a b := by simp only [redOp, ht]

end

/-! The identities, type by type. -/

theorem redIdent_and (t : RTy) : redIdent .and t = 2 ^ t.elem.w - 1 := by cases t <;> rfl
theorem redIdent_zero {op : ROp} (t : RTy) (h : op ∈ [ROp.add, .or, .xor]) : redIdent op t = 0 := by
  simp only [List.mem_cons, List.not_mem_nil, or_false] at h
  rcases h with rfl | rfl | rfl <;> cases t <;> rfl

section
variable {t : RTy}

theorem redIdent_unsigned (hint : t.isFloat = false) (hsg : t.elem.sgn = false) :
    redIdent .min t = 2 ^ t.elem.w - 1 ∧ redIdent .max t = 0 := by
  revert hint hsg
  cases t <;> decide
theorem redIdent_signed (hint : t.isFloat = false) (hsg : t.elem.sgn = true) :
    redIdent .min t = 2 ^ (t.elem.w - 1) - 1 ∧ redIdent .max t = 2 ^ (t.elem.w - 1) := by
  revert hint hsg
  cases t <;> decide

variable {rm : Rm} {a b : Nat} {f : FFmt} (hf : t.elem.flt = some f)
include hf

theorem redOp_add_float : redOp .add t rm a b = f.round rm (FVal.add rm (f.val a) (f.val b)) := by
  simp only [redOp, hf, fAdd]
theorem redOp_min_float : redOp .min t rm a b = f.minMax false a b := by simp only [redOp, hf]
theorem redOp_max_float : redOp .max t rm a b = f.minMax true a b := by simp only [redOp, hf]

/-- The identities of the smaller and the larger of two floats are the infinities. -/
theorem val_redIdent_float : f.val (redIdent .min t) = .inf false ∧ f.val (redIdent .max t) = .inf true := by
  cases t <;> cases hf <;> decide

end

theorem combineValuesHold : combineValues := by
  intro t rm a b w sg A B ha hb
  have hw := t.width_pos
  refine ⟨fun hint => ?_, fun f hf => ?_⟩
  · have ht := RTy.flt_none hint
    refine ⟨redOp_add_int ht ▸ iAdd_eq sg hw ha hb, redOp_min_int ht ▸ iMin_eq sg hw ha hb,
      redOp_max_int ht ▸ iMax_eq sg hw ha hb, iAnd_eq sg ha hb, iOr_eq sg ha hb, iXor_eq sg ha hb, fun op hop => ?_,
      fun op hop => ?_, fun hsg => ?_⟩
    · rcases hop with rfl | ⟨rfl, hsg⟩
      · exact redIdent_and t
      · exact (redIdent_unsigned hint hsg).1
    · rcases hop with hop | ⟨rfl, hsg⟩
      · exact redIdent_zero t hop
      · exact (redIdent_unsigned hint hsg).2
    · exact redIdent_signed hint hsg
  · exact ⟨redOp_add_float hf, redOp_min_float hf, redOp_max_float hf, redIdent_zero t List.mem_cons_self,
      val_redIdent_float hf⟩

/-! ## The tree of VRED -/

/-- Position q of a list of leaves; past its end no leaf. -/
def leafAt (xs : List (Option Nat)) (q : Nat) : Option Nat := xs.getD q none

theorem comb_none (f : Nat → Nat → Nat) (u : Option Nat) : comb f u none = u := by cases u <;> rfl

/-- A level of the tree combines the positions 2 q and 2 q + 1. -/
theorem leafAt_combPairs (f : Nat → Nat → Nat) (xs : List (Option Nat)) (q : Nat) :
    leafAt (combPairs f xs) q = comb f (leafAt xs (2 * q)) (leafAt xs (2 * q + 1)) := by
  induction xs using combPairs.induct generalizing q with
  | case1 a b rest ih =>
    cases q with
    | zero => rfl
    | succ q => exact ih q
  | case2 rest hshort =>
    rw [combPairs]
    · match rest, q with
      | [], q => rfl
      | [u], 0 => exact (comb_none f u).symm
      | [u], q + 1 => rfl
      | a :: b :: rest, q => exact (hshort a b rest rfl).elim
    · exact hshort

theorem treeValue_succ (f : Nat → Nat → Nat) (leaf : Nat → Option Nat) (q n : Nat) :
    treeValue f leaf q (n + 1) = comb f (treeValue f leaf q n) (treeValue f leaf (q + 2 ^ n) n) := by
  rw [treeValue]
  cases treeValue f leaf q n <;> cases treeValue f leaf (q + 2 ^ n) n <;> rfl

/-- The tree above the leaves is the tree above their pairs. -/
theorem treeValue_pairs (f : Nat → Nat → Nat) (leaf : Nat → Option Nat) (q n : Nat) :
    treeValue f leaf (2 * q) (n + 1) = treeValue f (fun i => comb f (leaf (2 * i)) (leaf (2 * i + 1))) q n := by
  induction n generalizing q with
  | zero => rw [treeValue_succ]; rfl
  | succ n ih =>
    rw [treeValue_succ f leaf _ (n + 1), ih, show 2 * q + 2 ^ (n + 1) = 2 * (q + 2 ^ n) by ring, ih, ← treeValue_succ]

theorem combTree_eq (f : Nat → Nat → Nat) (n : Nat) (xs : List (Option Nat)) :
    combTree f n xs = treeValue f (leafAt xs) 0 n := by
  induction n generalizing xs with
  | zero => cases xs <;> rfl
  | succ n ih =>
    rw [combTree, ih, ← Nat.mul_zero 2, treeValue_pairs]
    congr 1
    funext q
    exact leafAt_combPairs f xs q

/-! ## Lanes in order -/

/-- The lanes of ACTIVE ascend. -/
theorem lanes_ascend (m : Mask) (n : Nat) : (lanesOf m n).Pairwise (· < ·) := List.pairwise_lt_range.filter _

theorem lanes_nodup (m : Mask) (n : Nat) : (lanesOf m n).Nodup := List.nodup_range.filter _

theorem lanes_lt {x : Issuer} {g : Guard} {l : Nat} (h : l ∈ x.lanes g) : l < x.t.lanes := ((mem_lanesOf _ _ l).1 h).1

/-- The leaves of VRED: a value at each lane of ACTIVE. -/
def leafOfLane (act : List Nat) (A : Nat → Nat) (q : Nat) : Option Nat := if q ∈ act then some (A q) else none

theorem leafAt_lanes {act : List Nat} {n : Nat} (A : Nat → Nat) (h : ∀ l ∈ act, l < n) :
    leafAt ((List.range n).map fun l => if act.contains l then some (A l) else none) = leafOfLane act A := by
  funext q
  unfold leafAt leafOfLane
  rw [List.getD_eq_getElem?_getD, List.getElem?_map]
  by_cases hq : q < n
  · simp [List.getElem?_range hq]
  · have hmem : q ∉ act := fun hmem => hq (h q hmem)
    simp [hq, hmem]

/-! ## The tree of sums -/

section
variable {w : Nat}

/-- Positions without a value add nothing. -/
theorem comb_add {f : Nat → Nat → Nat}
    (hf : ∀ a b, a < 2 ^ w → b < 2 ^ w → f a b = (BitVec.ofNat w a + BitVec.ofNat w b).toNat)
    {u v : Option Nat} (hu : u.getD 0 < 2 ^ w) (hv : v.getD 0 < 2 ^ w) :
    (comb f u v).getD 0 = (BitVec.ofNat w (u.getD 0) + BitVec.ofNat w (v.getD 0)).toNat := by
  cases u with
  | none => simpa [comb] using (Nat.mod_eq_of_lt hv).symm
  | some a =>
    cases v with
    | none => simpa [comb] using (Nat.mod_eq_of_lt hu).symm
    | some b => exact hf a b hu hv

theorem treeValue_add {f : Nat → Nat → Nat}
    (hf : ∀ a b, a < 2 ^ w → b < 2 ^ w → f a b = (BitVec.ofNat w a + BitVec.ofNat w b).toNat) {leaf : Nat → Option Nat}
    (hleaf : ∀ q, (leaf q).getD 0 < 2 ^ w) (q n : Nat) : (treeValue f leaf q n).getD 0 =
      ((List.range' q (2 ^ n)).map fun i => BitVec.ofNat w ((leaf i).getD 0)).sum.toNat := by
  induction n generalizing q with
  | zero => simpa [treeValue] using (Nat.mod_eq_of_lt (hleaf q)).symm
  | succ n ih =>
    have hsplit : List.range' q (2 ^ (n + 1)) = List.range' q (2 ^ n) ++ List.range' (q + 2 ^ n) (2 ^ n) := by
      rw [List.range'_append_1, Nat.pow_succ, Nat.mul_two]
    rw [treeValue_succ, comb_add hf, ih, ih, hsplit, List.map_append, List.sum_append]
    · simp
    · rw [ih]; exact BitVec.isLt _
    · rw [ih]; exact BitVec.isLt _

end

theorem sum_map_filter {w : Nat} (l : List Nat) (p : Nat → Bool) (F : Nat → BitVec w) (h : ∀ i, p i = false → F i = 0) :
    (l.map F).sum = ((l.filter p).map F).sum := by
  induction l with
  | nil => rfl
  | cons i l ih =>
    rw [List.map_cons, List.sum_cons, ih, List.filter_cons]
    cases hp : p i with
    | true => rfl
    | false => simp [h i hp]

/-! ## The scan -/

/-- The lanes of a list combined with what has been combined before them. -/
def scanned (f : Nat → Nat → Nat) (A : Nat → Nat) (acc : Option Nat) (ms : List Nat) : Option Nat :=
  ms.foldl (fun u m => comb f u (some (A m))) acc

theorem scanned_some (f : Nat → Nat → Nat) (A : Nat → Nat) (v : Nat) (ms : List Nat) :
    scanned f A (some v) ms = some (ms.foldl (fun v m => f v (A m)) v) := by
  induction ms generalizing v with
  | nil => rfl
  | cons m ms ih => exact ih (f v (A m))

theorem runningValue_eq (f : Nat → Nat → Nat) (A : Nat → Nat) (ms : List Nat) :
    runningValue f A ms = scanned f A none ms := by
  cases ms with
  | nil => rfl
  | cons m ms => exact (scanned_some f A (A m) ms).symm

theorem scanFrom_cons (f : Nat → Nat → Nat) (excl : Bool) (A : Nat → Nat) (acc : Option Nat) (ident m : Nat)
    (ms : List Nat) : scanFrom f excl A acc ident (m :: ms) = (m, (if excl then acc else comb f acc (some (A m))).getD ident) ::
      scanFrom f excl A (comb f acc (some (A m))) ident ms := by
  cases acc <;> cases excl <;> rfl

/-- VSCAN's value of a lane: of those before it, with or without itself. -/
theorem scanFrom_find (f : Nat → Nat → Nat) (excl : Bool) (A : Nat → Nat) (acc : Option Nat) (ident l : Nat)
    (pre post : List Nat) (hl : l ∉ pre) :
    ((scanFrom f excl A acc ident (pre ++ l :: post)).find? fun p => p.1 = l).map Prod.snd =
      some ((scanned f A acc (if excl then pre else pre ++ [l])).getD ident) := by
  induction pre generalizing acc with
  | nil =>
    rw [List.nil_append, scanFrom_cons]
    cases excl <;> simp [scanned]
  | cons m pre ih =>
    obtain ⟨hm, hpre⟩ := not_or.1 (mt List.mem_cons.2 hl)
    have hfirst (v : Nat) (rest : List (Nat × Nat)) :
        ((m, v) :: rest).find? (fun p => p.1 = l) = rest.find? fun p => p.1 = l := by
      simp [Ne.symm hm]
    rw [List.cons_append, scanFrom_cons, hfirst, ih _ hpre]
    cases excl <;> rfl

/-- The lanes of an ascending list up to one of them. -/
theorem filter_ascending {ls : List Nat} (h : ls.Pairwise (· < ·)) {l : Nat} (hl : l ∈ ls) :
    ∃ post, ls = (ls.filter fun m => m < l) ++ l :: post ∧
      (ls.filter fun m => m ≤ l) = (ls.filter fun m => m < l) ++ [l] := by
  obtain ⟨pre, post, rfl⟩ := List.append_of_mem hl
  obtain ⟨-, hpost, hpre⟩ := List.pairwise_append.1 h
  have hlt : ∀ m ∈ pre, m < l := fun m hm => hpre m hm l List.mem_cons_self
  have hgt : ∀ m ∈ post, l < m := (List.pairwise_cons.1 hpost).1
  have hbefore : ((pre ++ l :: post).filter fun m => m < l) = pre := by
    rw [List.filter_append, List.filter_eq_self.2 fun m hm => decide_eq_true (hlt m hm), List.filter_cons_of_neg (by simp),
      List.filter_eq_nil_iff.2 fun m hm => by simpa using (hgt m hm).le, List.append_nil]
  have hupto : ((pre ++ l :: post).filter fun m => m ≤ l) = pre ++ [l] := by
    rw [List.filter_append, List.filter_eq_self.2 fun m hm => decide_eq_true (hlt m hm).le,
      List.filter_cons_of_pos (by simp), List.filter_eq_nil_iff.2 fun m hm => by simpa using hgt m hm]
  exact ⟨post, by rw [hbefore], by rw [hupto, hbefore]⟩

theorem scanFrom_ascending {ls : List Nat} (h : ls.Pairwise (· < ·)) {l : Nat} (hl : l ∈ ls) (f : Nat → Nat → Nat)
    (excl : Bool) (A : Nat → Nat) (ident : Nat) :
    (((scanFrom f excl A none ident ls).find? fun p => p.1 = l).map Prod.snd).getD 0 =
      (runningValue f A (ls.filter fun m => if excl then m < l else m ≤ l)).getD ident := by
  obtain ⟨post, hls, hupto⟩ := filter_ascending h hl
  have hfind := scanFrom_find f excl A none ident l (ls.filter fun m => m < l) post (by simp)
  rw [← hls] at hfind
  rw [hfind, runningValue_eq]
  cases excl with
  | true => simp
  | false => simp [hupto]

/-! ## The words -/

theorem regVal_lt (g : Regs) (lane n : Nat) (o : Operand) : regVal g lane n o < 2 ^ (32 * n) := by
  cases o with
  | s r => exact g.sgetN_lt _ n
  | v r => exact g.vgetN_lt lane _ n
  | ind ix base => exact g.vgetN_lt lane _ n
  | k c => exact Nat.two_pow_pos _

section
variable {s : State} {x : Issuer} {g : Guard} {op : ROp} {t : RTy} {rm : Rm} {d a : Operand} (h : Issues s x)

/-- What VRED finds. -/
def laneTree (op : ROp) (t : RTy) (rm : Rm) (act : List Nat) (A : Nat → Nat) : Nat :=
  (treeValue (redOp op t rm) (leafOfLane act A) 0 10).getD 0

theorem combTree_lanes (x : Issuer) (g : Guard) (op : ROp) (t : RTy) (rm : Rm) (A : Nat → Nat) :
    (combTree (redOp op t rm) 10 ((List.range x.t.lanes).map fun l =>
      if (x.lanes g).contains l then some (A l) else none)).getD 0 = laneTree op t rm (x.lanes g) A := by
  rw [combTree_eq, leafAt_lanes A fun l hl => lanes_lt hl]
  rfl

/-- The value of a tree of sums. -/
theorem laneTree_add {w : Nat} (hw : t.elem.w = w) (ht : t.elem.flt = none) (hl : x.t.lanes ≤ 1024) {A : Nat → Nat}
    (hA : ∀ l, A l < 2 ^ w) :
    laneTree .add t rm (x.lanes g) A = (((x.lanes g).map fun l => BitVec.ofNat w (A l)).sum).toNat := by
  subst hw
  have hadd : ∀ a b, a < 2 ^ t.elem.w → b < 2 ^ t.elem.w →
      redOp .add t rm a b = (BitVec.ofNat t.elem.w a + BitVec.ofNat t.elem.w b).toNat := fun a b ha hb =>
    redOp_add_int ht ▸ iAdd_eq _ t.width_pos ha hb
  have hleaf : ∀ q, (leafOfLane (x.lanes g) A q).getD 0 < 2 ^ t.elem.w := fun q => by
    unfold leafOfLane
    split
    · exact hA q
    · exact Nat.two_pow_pos _
  have hperm : ((List.range (2 ^ 10)).filter fun q => q ∈ x.lanes g).Perm (x.lanes g) := by
    refine (List.perm_ext_iff_of_nodup (List.nodup_range.filter _) (lanes_nodup _ _)).2 fun q => ?_
    rw [List.mem_filter, List.mem_range, decide_eq_true_eq]
    exact ⟨And.right, fun hq => ⟨(lanes_lt hq).trans_le hl, hq⟩⟩
  have hvalue : ∀ q ∈ x.lanes g, BitVec.ofNat t.elem.w ((leafOfLane (x.lanes g) A q).getD 0) = BitVec.ofNat t.elem.w (A q) :=
    fun q hq => by simp [leafOfLane, hq]
  have habsent : ∀ q, decide (q ∈ x.lanes g) = false →
      BitVec.ofNat t.elem.w ((leafOfLane (x.lanes g) A q).getD 0) = 0 := fun q hq => by
    simp [leafOfLane, of_decide_eq_false hq]
  rw [laneTree, treeValue_add hadd hleaf, ← List.range_eq_range', sum_map_filter _ _ _ habsent, (hperm.map _).sum_eq,
    List.map_congr_left hvalue]

include h

theorem exec_vred_lanes (hd : d.isVec = true) : exec (.vred g op t rm d a) s = .next (laneWord s x (x.lanes g)
    (inBounds x.t t.regs d && inBounds x.t t.regs a) (passCycles x 3 8)
    { x.t with
      regs := writeLanes x.t.regs t.regs (vregOf x.t.regs d)
        (fun _ => laneTree op t rm (x.lanes g) fun l => regVal x.t.regs l t.regs a) (x.lanes g) }) := by
  rw [← combTree_lanes]
  cases d with
  | v r => exact issue_next h _
  | ind ix base => exact issue_next h _
  | s r => cases hd
  | k c => cases hd

theorem exec_vred_scalar (sd : SReg) : exec (.vred g op t rm (.s sd) a) s = .next (laneWord s x (x.lanes g)
    (inBounds x.t t.regs a) (passCycles x 3 8)
    { x.t with regs := x.t.regs.ssetN sd.toNat t.regs (laneTree op t rm (x.lanes g) fun l => regVal x.t.regs l t.regs a) }) := by
  rw [← combTree_lanes]
  exact issue_next h _

end

theorem lanesCombineHold : lanesCombine := by
  intro s x g op t rm d a sd h hv hl hd act D w f A tree
  refine ⟨fun h0 => ?_, fun hact ha => ⟨?_, fun hdst => ⟨?_, fun excl => ?_⟩⟩, fun ht hop => ?_⟩
  · simp only [List.forall_mem_cons]
    exact ⟨gives_laneWord_empty (exec_vred_scalar h sd) h0, gives_laneWord_empty (exec_vred_lanes h hd) h0,
      gives_laneWord_empty (issue_next h _) h0, gives_laneWord_empty (issue_next h _) h0, List.forall_mem_nil _⟩
  · obtain ⟨hvec, hp, hix, hfmt, hlane⟩ := x.t.regs.ssetN_keeps sd.toNat t.regs tree
    exact ⟨_, gives_laneWord (exec_vred_scalar h sd) (.inr ha) fun h0 => absurd h0 hact,
      ⟨hvec, hp, hix, hfmt, hlane, fun q hq => Regs.sget_ssetN_other _ _ _ _ _ hq⟩, Regs.sgetN_ssetN ..⟩
  · exact writesLanes_laneWord (exec_vred_lanes h hd) (.inr (Bool.and_eq_true_iff.2 ⟨hdst, ha⟩))
      (.inr ((vregOf_add_le hd hdst).trans hv)) fun l _ => rfl
  · refine writesLanes_laneWord (issue_next h _) (.inr (Bool.and_eq_true_iff.2 ⟨hdst, ha⟩))
      (.inr ((vregOf_add_le hd hdst).trans hv)) fun l hmem => ?_
    exact congrArg (· % 2 ^ w) (scanFrom_ascending (ls := act) (lanes_ascend _ _) hmem f excl A _)
  · subst hop
    exact laneTree_add t.width_eq (RTy.flt_none ht) hl fun l => regVal_lt _ l _ a

end Sys2Proof.Machine
end

