-- ==== Proofs/Exchanges.lean ====
section
/-! PROOFS. Lanes that exchange values (R188 to R191): the partner of a lane, and the pushes of PSHW, one after another in
ascending lane order. -/

namespace Sys2Proof.Machine

/-- A lane of the team has the partner that its mode names. -/
theorem partner_eq (mode : ShMode) {lanes l : Nat} (b : Nat) (h : l < lanes) :
    partner mode lanes l b = partnerLane mode lanes l b := by
  cases mode <;> simp only [partner, partnerLane]
  case idx => simp
  case up =>
    by_cases hb : b ≤ l
    · rw [if_pos hb, if_pos (by omega)]
      congr 1
      omega
    · rw [if_neg hb, if_neg (by omega)]
  case down =>
    by_cases hb : l + b < lanes
    · rw [if_pos hb, if_pos (by omega)]
      rfl
    · rw [if_neg hb, if_neg (by omega)]
  case xor => simp

theorem partnerLane_lt {mode : ShMode} {lanes l b k : Nat} (h : partnerLane mode lanes l b = some k) : k < lanes := by
  obtain ⟨hk, he⟩ := Option.ite_none_right_eq_some.1 h
  cases Option.some.inj he
  omega

/-! ## Pushes -/

/-- Lanes push their values to other lanes, one after another. -/
def pushLanes (g : Regs) (n r : Nat) (tgt : Nat → Option Nat) (v : Nat → Nat) (ls : List Nat) : Regs :=
  ls.foldl (fun g l => match tgt l with
    | some k => g.vsetN k r n (v l)
    | none => g) g

section
variable {n r : Nat} {tgt : Nat → Option Nat} {v : Nat → Nat}

theorem pushLanes_none {l : Nat} (g : Regs) (ls : List Nat) (h  : tgt l = none) :
    pushLanes g n r tgt v (l :: ls) = pushLanes g n r tgt v ls := by
  simp only [pushLanes, List.foldl_cons, h]
theorem pushLanes_some {l k : Nat} (g : Regs) (ls : List Nat) (h  : tgt l = some k) :
    pushLanes g n r tgt v (l :: ls) = pushLanes (g.vsetN k r n (v l)) n r tgt v ls := by
  simp only [pushLanes, List.foldl_cons, h]

theorem pushLanes_keeps (g : Regs) (ls : List Nat) :
    (pushLanes g n r tgt v ls).s = g.s ∧ (pushLanes g n r tgt v ls).p = g.p ∧ (pushLanes g n r tgt v ls).ix = g.ix ∧
      (pushLanes g n r tgt v ls).fmt = g.fmt ∧ (pushLanes g n r tgt v ls).laneFmt = g.laneFmt := by
  induction ls generalizing g with
  | nil => exact ⟨rfl, rfl, rfl, rfl, rfl⟩
  | cons l ls ih =>
    cases hto : tgt l with
    | none => rw [pushLanes_none g ls hto]; exact ih g
    | some k =>
      obtain ⟨h1, h2, h3, h4, h5⟩ := ih (g.vsetN k r n (v l))
      obtain ⟨k1, k2, k3, k4, k5⟩ := g.vsetN_keeps k r n (v l)
      rw [pushLanes_some g ls hto]
      exact ⟨h1.trans k1, h2.trans k2, h3.trans k3, h4.trans k4, h5.trans k5⟩

theorem pushLanes_congr {tgt' : Nat → Option Nat} (g : Regs) {ls : List Nat} (h : ∀ l ∈ ls, tgt l = tgt' l) :
    pushLanes g n r tgt v ls = pushLanes g n r tgt' v ls := by
  unfold pushLanes
  refine List.foldl_ext _ _ g fun g l hl => ?_
  rw [h l hl]

/-- A register that no push reaches. -/
theorem vget_pushLanes_other (g : Regs) {ls : List Nat} {k q : Nat} (hr : ls = [] ∨ r + n ≤ 256) (hq : q < 256)
    (h : (∀ l ∈ ls, tgt l ≠ some k) ∨ q < r ∨ r + n ≤ q) : (pushLanes g n r tgt v ls).vget k q = g.vget k q := by
  induction ls generalizing g with
  | nil => rfl
  | cons l ls ih =>
    have hr := hr.resolve_left (List.cons_ne_nil l ls)
    have hrest := fun g => ih g (.inr hr) (h.imp_left fun hall m hm => hall m (List.mem_cons_of_mem _ hm))
    cases hto : tgt l with
    | none => rw [pushLanes_none g ls hto, hrest]
    | some j =>
      rw [pushLanes_some g ls hto, hrest, Regs.vget_vsetN_other]
      intro i hi
      have hne : j ≠ k ∨ q < r ∨ r + n ≤ q := h.imp_left fun hall e => hall l List.mem_cons_self (e ▸ hto)
      unfold vkey
      omega

/-- A lane holds what the last push to it brought. -/
theorem vgetN_pushLanes (g : Regs) {pre post : List Nat} {l k : Nat} (hr : r + n ≤ 256) (hto : tgt l = some k)
    (hpost : ∀ m ∈ post, tgt m ≠ some k) :
    (pushLanes g n r tgt v (pre ++ l :: post)).vgetN k r n = v l % 2 ^ (32 * n) := by
  have happend : pushLanes g n r tgt v (pre ++ l :: post) = pushLanes (pushLanes g n r tgt v pre) n r tgt v (l :: post) :=
    List.foldl_append
  rw [happend, pushLanes_some _ post hto, ← Regs.vgetN_vsetN (pushLanes g n r tgt v pre) k r n (v l)]
  refine Regs.vgetN_congr _ _ _ _ _ _ _ fun i hi => ?_
  exact vget_pushLanes_other _ (.inr hr) (by omega) (.inl hpost)

end

/-! ## The words -/

theorem exec_pshw {s : State} {x : Issuer} {g : Guard} {t : ITy} {mode : ShMode} {d a b : Operand} (h : Issues s x) :
    exec (.pshw g t mode d a b) s = .next (laneWord s x (x.lanes g) (shBounds x t.regs d a b) (passCycles x 4 0)
      { x.t with
        regs := pushLanes x.t.regs t.regs (vregOf x.t.regs d) (fun l => partnerLane mode x.t.lanes l (src32 s x l b))
          (fun l => regVal x.t.regs l t.regs a) (x.lanes g) }) := by
  rw [← pushLanes_congr _ fun l hl => partner_eq mode _ (lanes_lt hl)]
  exact issue_next h _

theorem lanesExchangeHold : lanesExchange := by
  intro s x g t mode d a b h act D hd hn h1 other value
  have hbounds : act = [] ∨ shBounds x t.regs d a b = true := by
    by_cases h0 : act = []
    · exact .inl h0
    · have hbd := (hn.bound (o := d) (by simp)).resolve_left h0
      have hba := (hn.bound (o := a) (by simp)).resolve_left h0
      have hbb := (h1.bound (o := b) (by simp)).resolve_left h0
      exact .inr (by simp [shBounds, hbd, hba, hbb])
  have hdst := hn.dst hd (by simp)
  refine ⟨writesLanes_laneWord (issue_next h _) hbounds hdst fun l hl => ?_,
    writesLanes_laneWord (issue_next h _) hbounds hdst fun l _ => rfl, ?_⟩
  · show regVal x.t.regs ((partner mode x.t.lanes l (src32 s x l b)).getD l) t.regs a % _ = _
    rw [partner_eq mode _ (lanes_lt hl)]
  · refine ⟨_, gives_laneWord (exec_pshw h) hbounds fun h0 => by rw [h0]; rfl, ?_, fun k hk => ?_, fun l hl k hk hlast => ?_⟩
    · obtain ⟨hs, hp, hix, hfmt, hlane⟩ := pushLanes_keeps (n := t.regs) (r := D) (tgt := other)
        (v := fun l => regVal x.t.regs l t.regs a) x.t.regs act
      refine ⟨hs, hp, hix, hfmt, hlane, fun k q hq hk => vget_pushLanes_other _ hdst hq (hk.imp_left fun hk l _ he => ?_)⟩
      exact hk (List.mem_range.2 (partnerLane_lt he))
    · rcases hdst with h0 | hD
      · rw [show x.lanes g = [] from h0]
        rfl
      · refine Regs.vgetN_congr _ _ _ _ _ _ _ fun i hi => ?_
        exact vget_pushLanes_other _ (.inr hD) (by omega) (.inl hk)
    · obtain ⟨pre, post, hact⟩ := List.append_of_mem hl
      have hasc : (pre ++ l :: post).Pairwise (· < ·) := hact ▸ lanes_ascend _ _
      obtain ⟨-, hasc, -⟩ := List.pairwise_append.1 hasc
      have hpost : ∀ m ∈ post, other m ≠ some k := fun m hm =>
        hlast m (by rw [hact]; simp [hm]) ((List.pairwise_cons.1 hasc).1 m hm)
      rw [show x.lanes g = _ from hact]
      exact vgetN_pushLanes _ (hdst.resolve_left (List.ne_nil_of_mem hl)) hk hpost

end Sys2Proof.Machine
end

