-- ==== Proofs/PairWords.lean ====
section
/-! PROOFS. Pair words (R82, R83): what the operation of a half gives on 32-bit lanes, where a half runs, and the two halves'
writes, both from registers as they stood. -/

namespace Sys2Proof.Machine

/-! ## The operation of a half -/

theorem popVal_eq (p : Pop) (D S : Word) : BitVec.ofNat 32 (popVal p D.toNat S.toNat) = pairValue p D S := by
  have hD : D.toNat < 2 ^ 32 := D.isLt
  have hS : S.toNat < 2 ^ 32 := S.isLt
  have hword (w : Word) : BitVec.ofNat 32 w.toNat = w := by simp
  cases p <;> simp only [popVal, pairValue]
  case vadd => rw [iAdd_eq true (by decide) hD hS]; simp only [hword]
  case vsub => rw [iSub_eq true (by decide) hD hS]; simp only [hword]
  case vmul => rw [iMul_eq true (by decide) hD hS]; simp only [hword]
  case vmin => rw [iMin_eq true (by decide) hD hS]; simp only [hword]
  case vmax => rw [iMax_eq true (by decide) hD hS]; simp only [hword]
  case vand => rw [iAnd_eq true hD hS]; simp only [hword]
  case vor => rw [iOr_eq true hD hS]; simp only [hword]
  case vxor => rw [iXor_eq true hD hS]; simp only [hword]
  case vshl => rw [iShl_eq true hD]; simp only [hword]
  case vshr => rw [iShr_eq true hD]; simp only [hword]
  case vsra => rw [iSra_eq true hD _ (by decide)]; simp only [hword]
  case vmov => exact hword S
  case fadd => rfl
  case fsub => rfl
  case fmul => rfl

/-- S of a half, as a word. -/
def halfWord (g : Regs) (h : Half) (lane : Nat) : Word :=
  if h.imm then if popFloat h.pop then BitVec.ofNat 32 (FFmt.fp32.round .ne (FVal.ofInt false h.s.toInt 0)) else h.s.signExtend 32
  else g.vget lane h.s.toNat

/-- The floats of 8-bit immediates have 32 bits. -/
theorem immFloat_lt (v : BitVec 8) : FFmt.fp32.round .ne (FVal.ofInt false v.toInt 0) < 2 ^ 32 := by
  revert v
  decide

theorem halfSrc_eq (g : Regs) (h : Half) (lane : Nat) : halfSrc g h lane = (halfWord g h lane).toNat := by
  unfold halfSrc halfWord
  split
  · split
    · exact (Nat.mod_eq_of_lt (immFloat_lt h.s)).symm
    · exact trunc_eq 32 _
  · rfl

/-- What a half gives a lane. -/
def halfResult (g : Regs) (h : Half) (lane : Nat) : Word := pairValue h.pop (g.vget lane h.d.toNat) (halfWord g h lane)

theorem halfVal_eq (g : Regs) (h : Half) (lane : Nat) : BitVec.ofNat 32 (halfVal g h lane) = halfResult g h lane := by
  rw [halfVal, halfSrc_eq, popVal_eq, halfResult]

/-! ## The lanes of a half -/

/-- Whether a half's predicate admits a lane. -/
def halfAdmits (t : Team) (h : Half) (l : Nat) : Bool := match h.hpred with
  | .always => true
  | .p0 => laneIn (t.regs.pget 0) l
  | .p1 => laneIn (t.regs.pget 1) l
  | .notP0 => !laneIn (t.regs.pget 0) l

theorem laneIn_and (m n : Mask) (l : Nat) : laneIn (m &&& n) l = (laneIn m l && laneIn n l) := BitVec.getLsbD_and
theorem laneIn_or (m n : Mask) (l : Nat) : laneIn (m ||| n) l = (laneIn m l || laneIn n l) := BitVec.getLsbD_or
theorem lt_of_laneIn {m : Mask} {l : Nat} (h : laneIn m l = true) : l < 1024 := BitVec.lt_of_getLsbD h

theorem laneIn_halfMask (t : Team) (h : Half) (l : Nat) :
    laneIn (halfMask t h) l = (laneIn t.flow.mask l && halfAdmits t h l) := by
  unfold halfMask halfAdmits
  rw [laneIn_and]
  cases hl : laneIn t.flow.mask l with
  | false => rfl
  | true =>
    have h1024 := lt_of_laneIn hl
    cases h.hpred with
    | always => exact (BitVec.getLsbD_allOnes ..).trans (decide_eq_true h1024)
    | p0 => rfl
    | p1 => rfl
    | notP0 => simp [laneIn, h1024]

/-! ## Writes of one register -/

/-- Lanes write one register each. -/
def writeReg (g : Regs) (r : Nat) (v : Nat → Word) (ls : List Nat) : Regs := ls.foldl (fun g l => g.vset l r (v l)) g

theorem writeReg_keeps (g : Regs) (r : Nat) (v : Nat → Word) (ls : List Nat) :
    (writeReg g r v ls).s = g.s ∧ (writeReg g r v ls).p = g.p ∧ (writeReg g r v ls).ix = g.ix ∧
      (writeReg g r v ls).fmt = g.fmt ∧ (writeReg g r v ls).laneFmt = g.laneFmt := by
  induction ls generalizing g with
  | nil => exact ⟨rfl, rfl, rfl, rfl, rfl⟩
  | cons l ls ih => exact ih (g.vset l r (v l))

theorem vget_writeReg (g : Regs) {r : Nat} (v : Nat → Word) (ls : List Nat) (l : Nat) {q : Nat} (hr : r < 256) (hq : q < 256) :
    (writeReg g r v ls).vget l q = if l ∈ ls ∧ q = r then v l else g.vget l q := by
  induction ls generalizing g with
  | nil => simp [writeReg]
  | cons k ls ih =>
    have hcons : writeReg g r v (k :: ls) = writeReg (g.vset k r (v k)) r v ls := rfl
    have hkey : vkey l q = vkey k r ↔ l = k ∧ q = r := by unfold vkey; omega
    rw [hcons, ih, Regs.vget_vset]
    simp only [hkey]
    by_cases hk : l = k
    · subst hk
      by_cases hm : l ∈ ls <;> by_cases hqr : q = r <;> simp [hm, hqr]
    · simp [hk]

/-! ## The words -/

/-- A pair word, its halves' writes one after the other. -/
theorem exec_pairWord {s : State} {x : Issuer} {h0 h1 : Half} (h : Issues s x) : exec (.pairWord h0 h1) s =
    .next (laneWord s x (lanesOf (halfMask x.t h0 ||| halfMask x.t h1) x.t.lanes) (halfBounds x.t h0 && halfBounds x.t h1)
      (passCycles x 1 0)
      { x.t with
        regs := writeReg (writeReg x.t.regs h0.d.toNat (halfResult x.t.regs h0) (lanesOf (halfMask x.t h0) x.t.lanes))
          h1.d.toNat (halfResult x.t.regs h1) (lanesOf (halfMask x.t h1) x.t.lanes) }) := by
  simp only [writeReg, ← halfVal_eq]
  exact issue_next h _

theorem pairWordsWriteHold : pairWordsWrite := by
  intro s x h0 h1 h hv hl runs act exist S V
  have hruns (k : Half) (l : Nat) : runs k l = true ↔ l ∈ lanesOf (halfMask x.t k) x.t.lanes := by
    rw [mem_lanesOf, laneIn_halfMask]
    simp only [runs, Bool.and_eq_true, decide_eq_true_eq, and_assoc]
    rfl
  have hact : lanesOf (halfMask x.t h0 ||| halfMask x.t h1) x.t.lanes = act := by
    refine List.filter_congr fun l hlane => ?_
    have hlt : l < x.t.lanes := List.mem_range.1 hlane
    rw [laneIn_or, laneIn_halfMask, laneIn_halfMask]
    simp only [runs, hlt, decide_true, Bool.true_and]
    rfl
  have hexist : exist ↔ (halfBounds x.t h0 && halfBounds x.t h1) = true := by
    simp [exist, halfBounds]
  have he := exec_pairWord (h0 := h0) (h1 := h1) h
  rw [hact] at he
  refine ⟨fun hor => ⟨_, gives_laneWord he (hor.symm.imp_right hexist.1) fun hnone => ?_, ?_⟩, fun hne hsome => ?_⟩
  · have hidle (k : Half) (hk : k = h0 ∨ k = h1) : lanesOf (halfMask x.t k) x.t.lanes = [] := by
      refine List.eq_nil_iff_forall_not_mem.2 fun l hlane => ?_
      have hrun := (hruns k l).2 hlane
      have hmem : l ∈ act := List.mem_filter.2 ⟨List.mem_range.2 ((mem_lanesOf _ _ l).1 hlane).1, by
        rcases hk with rfl | rfl <;> simp [hrun]⟩
      rw [hnone] at hmem
      cases hmem
    rw [hidle h0 (.inl rfl), hidle h1 (.inr rfl)]
    rfl
  · obtain ⟨a1, a2, a3, a4, a5⟩ := writeReg_keeps x.t.regs h0.d.toNat (halfResult x.t.regs h0)
      (lanesOf (halfMask x.t h0) x.t.lanes)
    obtain ⟨b1, b2, b3, b4, b5⟩ := writeReg_keeps
      (writeReg x.t.regs h0.d.toNat (halfResult x.t.regs h0) (lanesOf (halfMask x.t h0) x.t.lanes)) h1.d.toNat
      (halfResult x.t.regs h1) (lanesOf (halfMask x.t h1) x.t.lanes)
    refine ⟨b1.trans a1, b2.trans a2, b3.trans a3, b4.trans a4, b5.trans a5, fun l q hq => ?_⟩
    rw [vget_writeReg _ _ _ _ h1.d.isLt hq, vget_writeReg _ _ _ _ h0.d.isLt hq]
    simp only [hruns]
    rfl
  · rw [Bool.eq_false_iff.2 (mt hexist.2 hne), laneWord_missing hsome] at he
    exact he

end Sys2Proof.Machine
end

