-- ==== Proofs/Conversions.lean ====
section
/-! PROOFS. Conversions and packing (R159, R183 to R187): the image of one converted element and whether it is out of range,
and the groups of codes that LPACK and LUNP move. -/

namespace Sys2Proof
open Sys2Proof.Machine

namespace CTy

theorem w_pos (t : CTy) : 0 < t.w := by cases t <;> decide
theorem w_le (t : CTy) : t.w ≤ 32 * t.regs := by cases t <;> decide
/-- An integer type of 32 bits or more fills its registers. -/
theorem w_eq {t : CTy} (h : 32 ≤ t.w) : t.w = 32 * t.regs := by
  revert h
  cases t <;> decide

theorem regs_narrow {t : CTy} (h : t.w < 32) : t.regs = 1 := by
  revert h
  cases t <;> decide

theorem float_of_fmt {t : CTy} {f : FFmt} (h : t.fmt? = some f) : t.isFloat = true ∧ t.sgn = false := by
  revert h
  cases t <;> simp [fmt?, isFloat, sgn]
theorem not_float {t : CTy} (h : t.fmt? = none) (hl : t ≠ .lns6) : t.isFloat = false := by
  revert h hl
  cases t <;> decide

end CTy
end Sys2Proof

namespace Sys2Proof.Machine

/-! ## One element -/

/-- The register image of an integer: filled with its sign or with zeros (R184). -/
def fillBits (dst : CTy) (r : BitVec dst.w) : Nat :=
  (if dst.sgn then r.signExtend (32 * dst.regs) else r.setWidth (32 * dst.regs)).toNat

theorem cvtFill_unsigned {dst : CTy} (r : Nat) (h : dst.sgn = false) : cvtFill dst r = r := by simp [cvtFill, h]

theorem trunc_ival {w n : Nat} (hw : 0 < w) (r : BitVec w) : trunc n (ival true w r.toNat) = (r.signExtend n).toNat := by
  rw [trunc_eq, ival_true_eq hw r.isLt, BitVec.ofNat_toNat, BitVec.setWidth_eq]
  rfl

theorem toNat_signExtend_same {w n : Nat} (h : n = w) (r : BitVec w) : (r.signExtend n).toNat = r.toNat := by
  subst h
  rw [BitVec.signExtend_eq]

theorem cvtFill_trunc (dst : CTy) (z : Int) : cvtFill dst (trunc dst.w z) = fillBits dst (BitVec.ofInt dst.w z) := by
  rw [trunc_eq]
  generalize BitVec.ofInt dst.w z = r
  unfold fillBits
  cases hs : dst.sgn with
  | false =>
    rw [cvtFill_unsigned _ hs]
    exact (BitVec.toNat_setWidth_of_le dst.w_le).symm
  | true =>
    by_cases hw : dst.w < 32
    · rw [if_pos rfl, CTy.regs_narrow hw, ← trunc_ival dst.w_pos r, cvtFill, hs, decide_eq_true hw]
      rfl
    · rw [if_pos rfl, toNat_signExtend_same (CTy.w_eq (Nat.not_lt.1 hw)).symm, cvtFill, decide_eq_false hw, Bool.and_false]
      rfl

theorem cvtElem_lt (s : State) (x : Issuer) (src : CTy) (sel : BitVec 2) (lane : Nat) (a : Operand) :
    cvtElem s x src sel lane a < 2 ^ src.w := Nat.mod_lt _ (Nat.two_pow_pos _)

/-- An element read as an integer of its type. -/
def cvtInt (src : CTy) (e : Nat) : Int := if src.sgn then (BitVec.ofNat src.w e).toInt else e

theorem ival_cvt {src : CTy} {e : Nat} (h : e < 2 ^ src.w) : ival src.sgn src.w e = cvtInt src e := by
  rw [ival_eq _ src.w_pos h, readInt, cvtInt, BitVec.toNat_ofNat, Nat.mod_eq_of_lt h]

section
variable {dst src : CTy} {rm : Rm} {e : Nat} (he : e < 2 ^ src.w)
include he

theorem cvtOne_image : cvtFill dst (cvtOne dst src rm e).1 = cvtImage dst src rm (cvtVal src e) (cvtInt src e) := by
  unfold cvtOne cvtImage
  cases hf : dst.fmt? with
  | some f => exact cvtFill_unsigned _ (CTy.float_of_fmt hf).2
  | none =>
    by_cases hl : dst = .lns6
    · subst hl
      rfl
    · simp only [hl, if_false]
      split
      · exact cvtFill_trunc dst _
      · rw [ival_cvt he, cvtFill_trunc, ofInt_clampInt]
        rfl

theorem cvtOne_bad : (cvtOne dst src rm e).2 = cvtBad dst src rm (cvtVal src e) (cvtInt src e) := by
  unfold cvtOne cvtBad
  cases hf : dst.fmt? with
  | some f => simp [(CTy.float_of_fmt hf).1]
  | none =>
    by_cases hl : dst = .lns6
    · subst hl
      rfl
    · simp only [hl, if_false, CTy.not_float hf hl, Bool.not_false, Bool.true_and]
      split
      · cases cvtVal src e <;> rfl
      · rw [ival_cvt he]
        rfl

end

/-! ## The words -/

section
variable {s : State} {x : Issuer} {g : Guard} {d a b : Operand} {rm : Rm} (h : Issues s x)

/-- What CVT writes to a lane, and the lanes whose value is out of range. -/
def cvtLane (s : State) (x : Issuer) (dst src : CTy) (rm : Rm) (sel : BitVec 2) (a : Operand) (l : Nat) : Nat :=
  cvtImage dst src rm (cvtVal src (cvtElem s x src sel l a)) (cvtInt src (cvtElem s x src sel l a))
def cvtBadLanes (s : State) (x : Issuer) (g : Guard) (dst src : CTy) (rm : Rm) (sel : BitVec 2) (a : Operand) : List Nat :=
  (x.lanes g).filter fun l =>
    cvtBad dst src rm (cvtVal src (cvtElem s x src sel l a)) (cvtInt src (cvtElem s x src sel l a))

section
include h

theorem exec_cvt (dst src : CTy) (chk : Bool) (sel : BitVec 2) : exec (.cvt g dst src chk rm sel d a) s = .next
    (if (x.lanes g).isEmpty || !(inBounds x.t dst.regs d && inBounds x.t src.regs a) || !chk ||
        (cvtBadLanes s x g dst src rm sel a).isEmpty then
      laneWord s x (x.lanes g) (inBounds x.t dst.regs d && inBounds x.t src.regs a) (passCycles x (max dst.regs src.regs) 0)
        { x.t with
          regs := writeLanes x.t.regs dst.regs (vregOf x.t.regs d) (cvtLane s x dst src rm sel a) (x.lanes g) }
    else raiseLanes s x .arith (cvtBadLanes s x g dst src rm sel a) 0) := by
  have hlane : cvtLane s x dst src rm sel a = fun l => cvtFill dst (cvtOne dst src rm (cvtElem s x src sel l a)).1 :=
    funext fun l => (cvtOne_image (cvtElem_lt s x src sel l a)).symm
  have hbad : cvtBadLanes s x g dst src rm sel a = (x.lanes g).filter fun l => (cvtOne dst src rm (cvtElem s x src sel l a)).2 :=
    List.filter_congr fun l _ => (cvtOne_bad (cvtElem_lt s x src sel l a)).symm
  rw [hlane, hbad]
  exact issue_next h _

end

variable (hd : d.isVec = true) (hv : x.t.vregs ≤ 256)
include h hd hv

theorem cvt_writes {dst src : CTy} {chk : Bool} (sel : BitVec 2)
    (hready : x.lanes g = [] ∨ (inBounds x.t dst.regs d = true ∧ inBounds x.t src.regs a = true))
    (hbad : chk = false ∨ cvtBadLanes s x g dst src rm sel a = []) :
    WritesLanes (.cvt g dst src chk rm sel d a) s x (x.lanes g) (vregOf x.t.regs d) dst.regs
      fun l => cvtLane s x dst src rm sel a l % 2 ^ (32 * dst.regs) := by
  have he := exec_cvt (g := g) (d := d) (a := a) (rm := rm) h dst src chk sel
  rw [if_pos (by rcases hbad with hbad | hbad <;> simp [hbad])] at he
  exact writesLanes_laneWord he (hready.imp_right Bool.and_eq_true_iff.2)
    (hready.imp_right fun hb => (vregOf_add_le hd hb.1).trans hv) fun _ _ => rfl

omit hd hv in
theorem cvt_traps {dst src : CTy} (sel : BitVec 2)
    (hready : x.lanes g = [] ∨ (inBounds x.t dst.regs d = true ∧ inBounds x.t src.regs a = true))
    (hbad : cvtBadLanes s x g dst src rm sel a ≠ []) :
    Traps (.cvt g dst src true rm sel d a) s x .arith (maskOf (cvtBadLanes s x g dst src rm sel a)) 0 := by
  have hact : x.lanes g ≠ [] := fun h0 => hbad (by rw [cvtBadLanes, h0]; rfl)
  obtain ⟨hbd, hba⟩ := hready.resolve_left hact
  have he := exec_cvt (g := g) (d := d) (a := a) (rm := rm) h dst src true sel
  rw [if_neg (by simp [hact, hbd, hba, hbad])] at he
  exact he

theorem lpack_writes (raw : Bool) (hready : x.lanes g = [] ∨ (rangeInBounds x.t 3 d = true ∧ rangeInBounds x.t 16 a = true)) :
    ∃ f, WritesLanes (.lpack g raw d a) s x (x.lanes g) (vregOf x.t.regs d) 3 f ∧ ∀ l ∈ x.lanes g, ∀ j < 16,
      elemAt 6 j (f l) = (if raw then (x.t.regs.vget l (vregOf x.t.regs a + j)).toNat
        else lnsNE (FFmt.fp32.val (x.t.regs.vget l (vregOf x.t.regs a + j)).toNat)) % 64 := by
  refine ⟨_, writesLanes_laneWord (issue_next h _) (hready.imp_right Bool.and_eq_true_iff.2)
    (hready.imp_right fun hb => (vregOf_add_le_range hd hb.1).trans hv) fun _ _ => rfl, fun l _ j hj => ?_⟩
  rw [elemAt_mod _ (by omega)]
  refine (elemAt_packElems 6 _ hj).trans ?_
  cases raw with
  | true => exact Nat.mod_mod _ _
  | false => rfl

theorem lunp_writes (raw : Bool) (hready : x.lanes g = [] ∨ (rangeInBounds x.t 16 d = true ∧ rangeInBounds x.t 3 a = true)) :
    ∃ f, WritesLanes (.lunp g raw d a) s x (x.lanes g) (vregOf x.t.regs d) 16 f ∧ ∀ l ∈ x.lanes g, ∀ j < 16,
      elemAt 32 j (f l) = (if raw then elemAt 6 j (x.t.regs.vgetN l (vregOf x.t.regs a) 3)
        else FFmt.fp32.round .ne (lnsVal (elemAt 6 j (x.t.regs.vgetN l (vregOf x.t.regs a) 3)))) % 2 ^ 32 := by
  refine ⟨_, writesLanes_laneWord (issue_next h _) (hready.imp_right Bool.and_eq_true_iff.2)
    (hready.imp_right fun hb => (vregOf_add_le_range hd hb.1).trans hv) fun _ _ => rfl, fun l _ j hj => ?_⟩
  rw [elemAt_mod _ (by omega)]
  exact elemAt_packElems 32 _ hj

omit hv in
theorem hpack_writes (t : FTy) (hready : LaneReady x (x.lanes g) 1 [d, a, b]) :
    WritesLanes (.hpack g t rm d a b) s x (x.lanes g) (vregOf x.t.regs d) 1 fun l =>
      (t.fmt.round rm (FFmt.fp32.val (srcVal s x (FTy.elem .f32) l a)) +
        t.fmt.round rm (FFmt.fp32.val (srcVal s x (FTy.elem .f32) l b)) * 2 ^ 16) % 2 ^ 32 := by
  have hbounds : x.lanes g = [] ∨ (inBounds x.t 1 d && [a, b].all (inBounds x.t 1)) = true := by
    by_cases h0 : x.lanes g = []
    · exact .inl h0
    · exact .inr (Bool.and_eq_true_iff.2 ⟨(hready.bound (by simp)).resolve_left h0,
        (hready.all (srcs := [a, b]) (by simp)).resolve_left h0⟩)
  exact writesLanes_laneWord (issue_next h _) hbounds (hready.dst hd (by simp)) fun _ _ => rfl

end

theorem conversionsPackHold : conversionsPack := by
  intro s x g d a b rm h hd hv hl act va D
  refine ⟨?_, fun t _ hready => hpack_writes h hd t hready, fun raw hready => lpack_writes h hd hv raw hready,
    fun raw hready => lunp_writes h hd hv raw hready⟩
  intro dst src chk sel hready e v n bad
  refine ⟨cvt_writes h hd hv sel hready, ?_⟩
  rintro rfl
  exact cvt_traps h sel hready

end Sys2Proof.Machine

open Sys2Proof Sys2Proof.Machine in
/-- Settles O9: conversions here, exchanges, reductions and pair words above. -/
theorem packAndCrossLane : Obligations.PackAndCrossLane :=
  ⟨conversionsPackHold, lanesExchangeHold, lanesCombineHold, combineValuesHold, pairWordsWriteHold⟩
end
